-- ==== Sys2Proof/Word.lean ====
section
/-! DEFINITION. The word types of the KB614: bytes, 32-bit words, and what they abbreviate. -/

namespace Sys2Proof

/-- One byte of frame memory. -/
abbrev Byte := BitVec 8

/-- A 32-bit word: a slot word, a ring index, a count that wraps, a time of the timebase (R78, R215). -/
abbrev Word := BitVec 32

/-- A 16-bit value: a pixel or a table entry (conventions of spec/00_scope.md). -/
abbrev Half := BitVec 16

end Sys2Proof
end

