-- ==== Sys2Proof/Config.lean ====
section
/-! DEFINITION. What the spec fixes for every KB614 (sizes, limits, periods) and the free values it leaves open. -/

namespace Sys2Proof.Config

/-- A beat, a page and a card sector (spec/00_scope.md, Numbers and sizes). -/
abbrev beatBytes : Nat := 16
abbrev pageBytes : Nat := 4096
abbrev sectorBytes : Nat := 512

/-- The longest burst, in bytes: 16 beats (R13). -/
abbrev burstBytes : Nat := 256

/-- Places in the upstream queue (R1). -/
abbrev upstreamPlaces : Nat := 8

/-- Pass-through grants made in a row while an internal master waits (R14). -/
abbrev starvationLimit : Nat := 16

/-- Records of the event ring (R19). -/
abbrev ringRecords : Nat := 64

/-- The most frame slots S can be (R58). -/
abbrev maxSlots : Nat := 12

/-- Places in the card queue (R189). -/
abbrev cardQueuePlaces : Nat := 16

/-- Gaps a gap list holds (R133). -/
abbrev maxGaps : Nat := 8

/-- Edges an edge list holds (R83). -/
abbrev maxEdges : Nat := 16

/-- Page offsets of the control page's areas (R19). -/
abbrev slotArea : Nat := 1024
abbrev producerArea : Nat := 3840
abbrev consumerArea : Nat := 3856
abbrev ringArea : Nat := 4096
abbrev controlBytes : Nat := 65536

/-- Periods of the timebase in microseconds: ARM_IN debounce (R86), sensor pulses (R89), integration limits (R98),
card debounce (R182), supply debounce (R212), probe schedule and its limit (R207). -/
abbrev armDebounce : Nat := 20000
abbrev sensorPulse : Nat := 10
abbrev limitNormal : Nat := 1800000000
abbrev limitLow : Nat := 60000000
abbrev cardDebounce : Nat := 50000
abbrev supplyDebounce : Nat := 10000
abbrev probePeriod : Nat := 250000
abbrev probeLimit : Nat := 10000

/-- Card exchange periods: reset wait, query interval, power-up limit (R185), response, busy (R188). -/
abbrev cardResetWait : Nat := 1000
abbrev cardPollPeriod : Nat := 10000
abbrev cardPowerUp : Nat := 1000000
abbrev cardResponseTime : Nat := 100000
abbrev cardBusyTime : Nat := 500000

/-- Retries of a run (R200) and sectors of a run (R196). -/
abbrev maxRetries : Nat := 3
abbrev runSectors : Nat := 64

/-- FREE VALUE (log entry 9): whether a beat of the write in progress at RESET_IN was taken by frame memory. R18 leaves each
beat with its old or its new value. -/
opaque tornBeat : Nat → Bool

/-- FREE VALUE (log entry 10): the code by which a NOT_READY result names SHOT_NUMBERS. R62 names the item and no rule
gives it a code. -/
opaque shotNumbersCode : Word

end Sys2Proof.Config
end

