-- ==== Sys2Proof/Syntax.lean ====
section
/-! DEFINITION. The commands of the KB614: one constructor of Instr per row of spec/opcode_table.json, with its operands. -/

namespace Sys2Proof

/-- The straps sampled while RESET_IN is asserted (spec/00_scope.md, Signals). -/
structure Straps where
  ctrlBase : BitVec 3
  refclkSel : BitVec 2
  service : Bool
deriving DecidableEq, Repr

/-- The installed capacities of frame memory (R13). -/
inductive Capacity | gib1 | gib2 | gib4 | gib8 | gib16
deriving DecidableEq, Repr

/-- A burst of the system memory port: a write carries 16 bytes a beat (R1, R2). -/
structure Burst where
  write : Bool
  addr : Nat
  beats : Nat
  data : List Byte
deriving DecidableEq, Repr

/-- The host's write of a command slot's first beat, as the CPA observes it (R20, R21): the slot, the tag beside the verb
word, and the argument words that the same burst writes from slot offset 16 on (none if it covers the first beat alone). The
verb is the row's own. -/
structure SlotWrite where
  slot : Fin 8
  tag : Word
  args : List Word
deriving DecidableEq, Repr

/-- How the card answers a command (R188): in time with a correct check value and no error, or not. The fields of `good`
are what the response of that bring-up step reports: the echo matches, the range is supported, the card has powered up,
and the capacity in sectors that the description record gives (R185). -/
inductive CardReply
  | good (echo range powered : Bool) (sectors : Nat)
  | bad
deriving DecidableEq, Repr

/-- The status a card returns for a written block (R188). -/
inductive BlockStatus | accepted | crcError | writeError
deriving DecidableEq, Repr

inductive Instr
  -- reset
  | hardReset (straps : Straps)
  | resetRelease
  | capacityObtained (capacity : Capacity)
  | resetWritesDone
  -- the system memory port and the pass-through switch
  | burstAccept (burst : Burst)
  | burstClassify
  | forwardedBurst
  | guardWrite
  | ingestWrite
  | ingestRead
  | viewRead
  | viewWrite
  | bundleWrite
  | bundleRead
  | arbiterGrant
  | frameBurstEnd
  -- the control page
  | controlPageWrite (offset : Nat) (data : List Byte)
  | producerBeatWrite
  | consumerWrite (word : Word)
  | statusRecordHostWrite
  | eventRecordWritten
  | producerWritten
  | resultDataWritten
  | slotResultWritten
  -- host commands
  | setGeometry (w : SlotWrite)
  | setWindow (w : SlotWrite)
  | start (w : SlotWrite)
  | status (w : SlotWrite)
  | clearFlags (w : SlotWrite)
  | setEventMask (w : SlotWrite)
  | resetShots (w : SlotWrite)
  | abort (w : SlotWrite)
  | loadOpen (w : SlotWrite)
  | loadClose (w : SlotWrite)
  | loadChecksDone
  | loadCancel (w : SlotWrite)
  | loadTimeout
  | arm (w : SlotWrite)
  | disarm (w : SlotWrite)
  | setSync (w : SlotWrite)
  | snapshot (w : SlotWrite)
  | setDarkPolicy (w : SlotWrite)
  | skipDark (w : SlotWrite)
  | protect (w : SlotWrite)
  | unprotect (w : SlotWrite)
  | release (w : SlotWrite)
  | queryShot (w : SlotWrite)
  | viewSelect (w : SlotWrite)
  | cardInit (w : SlotWrite)
  | store (w : SlotWrite)
  | extentListRead
  | cardWrite (w : SlotWrite)
  | cardRead (w : SlotWrite)
  | cardCancel (w : SlotWrite)
  | cardResume (w : SlotWrite)
  | setLimits (w : SlotWrite)
  -- the contact, the button, the sensor and the strobe
  | syncTransition (closed : Bool)
  | syncEdgeAccept
  | armInTransition (pressed : Bool)
  | armInAccept
  | sensorPulseEnd
  | flushEnd
  | armWindowExpiry
  | settleGuardExpiry
  | programmedTimeExpiry
  | integrationLimit
  | strobeFire
  | strobePulseEnd
  | darkFlushEnd
  | darkIntegrationExpiry
  -- ingest, development, preview
  | ingestCommit
  | readoutTimeout
  | stage1End
  | stage3End
  | passEnd
  | rowRendered
  -- the card
  | cardDetectTransition (seated : Bool)
  | cardInserted
  | cardRemoval
  | cardResetWaitExpiry
  | powerUpPollTimer
  | powerUpTimeout
  | cardResponse (reply : CardReply)
  | cardResponseTimeout
  | cardDataStatus (status : BlockStatus)
  | cardBusyEnd
  | cardBusyTimeout
  | cardReadBlock (crcGood : Bool) (data : List Byte)
  | cardDataTimeout
  | runAttemptFailed
  -- temperature and supply
  | tempReadingStart
  | tempReadingEnd (acknowledged : Bool) (value : Half)
  | tempReadingTimeout
  | supplyTransition (high : Bool)
  | supplyState
  -- the end of RESET_SHOTS
  | shtResetClear
  | resetShotsDone
deriving DecidableEq, Repr

end Sys2Proof
end

