-- ==== Sys2Proof/Decode.lean ====
section
/-! DEFINITION. The command that a word of the opcode table spells: spec/opcode_table.json gives no row any bits, so no word spells one. -/

namespace Sys2Proof

/-- The command that the table's bits spell. No row has bits. -/
def decodeTableWord (_nbits _w : Nat) : Option Instr := none

end Sys2Proof
end

