-- ==== Sys2Proof/Machine/State.lean ====
section
/-! DEFINITION. The state of the KB614: every register, queue, table, timer and line the spec gives the eleven blocks, as plain data, and the state right after reset. -/

namespace Sys2Proof.Machine

/-! ## Shared vocabulary (codes in Machine/Formats.lean) -/

/-- The part's mode (R26). -/
inductive Mode | loader | service | operational
deriving DecidableEq, Repr

/-- Result classes (R216). -/
inductive ResultClass | none | done | doneAdjusted | refused | failed
deriving DecidableEq, Repr

/-- Result codes, in the order of the table of spec/02 (R216). -/
inductive ResultCode
  | ok | adjusted | wrongMode | notReady | badArg | unknownVerb | busy | noSlot | sensorBusy | alreadyArmed | tooHot | lowSupply
  | notFound | protected_ | protectLimit | inQueue | alreadyQueued | queueFull | badExtents | badBuffer | outOfRange | noCard
  | sectionLocked | bundleCrc | bundleSize | bundleFormat | loadTimeout | noLoad | aborted
deriving DecidableEq, Repr

/-- The verbs of the command catalogue (R216). -/
inductive Verb
  | setGeometry | setWindow | start | status | clearFlags | setEventMask | resetShots | abort | loadOpen | loadClose | loadCancel
  | arm | disarm | setSync | snapshot | setDarkPolicy | skipDark | protect | unprotect | release | queryShot | viewSelect
  | cardInit | store | cardWrite | cardRead | cardCancel | cardResume | setLimits
deriving DecidableEq, Repr

/-- Event kinds, in the order of the event table of spec/02 (R216). -/
inductive EventKind
  | shotArmed | shotMissed | shotDisarmed | exposureBegin | exposureEnd | readoutBegin | readoutEnd | darkDecided | darkDone
  | darkFailed | developed | slotReleased | cardRequestDone | cardHalted | cardState | unarmedRelease | guardWrite | strayIngest
  | tempState | supplyState | loadDone | resetDone
deriving DecidableEq, Repr

/-- An event as a block hands it to the CPA (spec/02, The event ring). -/
structure Event where
  kind : EventKind
  shot : Word
  time : Word
  data : List Word
deriving DecidableEq, Repr

/-- A running timer: when it was started and for how long, in microseconds (R78). -/
structure Timer where
  start : Word
  dur : Nat
deriving DecidableEq, Repr

/-- Colour filter phases and channels (R145). -/
inductive Cfa | rggb | grbg | gbrg | bggr
deriving DecidableEq, Repr
inductive Channel | r | gr | gb | b
deriving DecidableEq, Repr

/-- The ten shot states (spec/04, Shot states). -/
inductive ShotState
  | arming | armed | exposing | settling | reading | awaitDark | developing | developed | storing | stored
deriving DecidableEq, Repr

inductive ShotMode | sync | timed
deriving DecidableEq, Repr

inductive StrobePlan | none | first | last
deriving DecidableEq, Repr

inductive Correction | raw | corrected
deriving DecidableEq, Repr

/-- Reasons of a dark source and of DARK_FAILED (R65, R216). -/
inductive DarkReason
  | belowThreshold | policyOff | lowSupply | libraryMiss | noSlot | disturbed | preempted | cancelled | readTimeout
deriving DecidableEq, Repr

/-- The dark a CAPTURE source names: the capture in progress or pending, a library entry, or the shot's transient dark. -/
inductive DarkRef | capturing | entry (id : Nat) | transient
deriving DecidableEq, Repr

/-- A shot's dark source (R65). CAPTURE gains its K at the dark's completion. -/
inductive DarkSource
  | none (reason : DarkReason)
  | library (id : Nat) (k : Nat)
  | capture (dark : DarkRef) (k : Option Nat)
  | skipped (reason : DarkReason)
deriving DecidableEq, Repr

inductive TempState | normal | warm | critical | fault
deriving DecidableEq, Repr

inductive Supply | normal | low
deriving DecidableEq, Repr

/-- The factory and user section kinds (R41). -/
inductive SectionKind | blackSat | gainGrid | defects | columns | darkTemp | tone | wb
deriving DecidableEq, Repr

/-- Whether a readout or a holder is a shot's or a dark's. -/
inductive FrameKind | shot | dark
deriving DecidableEq, Repr

/-! ## Reset sequence, pins, timebase -/

/-- Where the part stands between RESET_IN and the open port (R17, R40). -/
inductive Phase | asserted | released | resetWrites | running
deriving DecidableEq, Repr

/-- Raw levels of the input lines. -/
structure Pins where
  sync : Bool
  arm : Bool
  supply : Bool
  card : Bool
deriving DecidableEq, Repr

/-- The timebase and its prescaler (R78). -/
structure Clock where
  prescale : Nat
  time : Word
deriving DecidableEq, Repr

/-! ## Pass-Through Switch (spec/01) -/

inductive WindowKind | pass | control | ingest | view | bundle | frameStore
deriving DecidableEq, Repr

/-- An entry of the window table (R4). -/
structure Window where
  present : Bool
  kind : WindowKind
  base : Nat
  size : Nat
deriving DecidableEq, Repr

/-- Geometry of the attached sensor (R11). -/
structure Geometry where
  width : Nat
  height : Nat
  cfa : Cfa
  depth : Nat
deriving DecidableEq, Repr

/-- How the head burst was classified and what it waits for (R3, R5). `base` is the window's base at classification. -/
inductive Head
  | forward (control : Bool)
  | forwarding (control : Bool)
  | guardWrite
  | ingestWrite (base : Nat)
  | ingestRead
  | viewRead (base : Nat)
  | viewWrite
  | bundleWrite
  | bundleRead
  | owned
deriving DecidableEq, Repr

/-- The answer of the system memory port to a burst (R2). -/
structure Answer where
  okay : Bool
  data : List Byte
deriving DecidableEq, Repr

structure Pts where
  queue : List Burst
  head : Option Head
  windows : Vector Window 16
  geometry : Option Geometry
  capacity : Nat
  answer : Option Answer
deriving DecidableEq, Repr

/-- The internal masters, in the order of R15. -/
inductive Master | cpa | dpe | prn | cde
deriving DecidableEq, Repr

/-! ## Control Page Agent (spec/02) -/

/-- A write the CPA has to make to frame memory (R35). -/
inductive CpaWrite
  | resultData (slot : Fin 8) (words : List Word) (cls : ResultClass) (code : ResultCode)
  | slotBeat (slot : Fin 8) (cls : ResultClass) (code : ResultCode)
  | eventRecord (index : Word) (event : Event)
  | producerBeat (word : Word)
  | producerRewrite
  | consumerRewrite
  | status (waiters : List (Fin 8))
  | image (addr : Nat) (bytes : List Byte) (ends : Option (Fin 8 × List Word))
  | resetStatus
  | resetSlot (slot : Fin 8)
  | resetProducer
  | resetConsumer
deriving DecidableEq, Repr

/-- A command in flight in a slot: what was latched when it was taken (R21), whether its end has been taken (R22, R24), and
whether an ABORT of it is under way (R24). -/
structure Latched where
  verb : Option Verb
  tag : Word
  args : List Word
  ended : Bool
  aborting : Bool
deriving DecidableEq, Repr

/-- A command slot as the CPA keeps it: the copy of tag and argument words (R20) and the command in flight, none while the
slot is IDLE (R21). -/
structure Slot where
  tag : Word
  args : List Word
  cmd : Option Latched
deriving DecidableEq, Repr

/-- RESET_SHOTS in flight: its slot, the blocks that have reported stopped, and the two counts (R38, R39). -/
structure ResetWork where
  slot : Fin 8
  icr : Bool
  dpe : Bool
  prn : Bool
  cde : Bool
  sht : Bool
  shots : Nat
  requests : Nat
deriving DecidableEq, Repr

structure Cpa where
  mode : Mode
  slots : Vector Slot 8
  writes : List CpaWrite
  ended : Option CpaWrite
  events : List (Word × Event)
  eventBusy : Bool
  producer : Word
  written : Word
  consumer : Word
  irq : Bool
  mask : BitVec 22
  dropped : Bool
  updates : Word
  resetting : Option ResetWork
deriving DecidableEq, Repr

/-! ## Calibration Store (spec/03) -/

inductive Session | none | open_ | closing
deriving DecidableEq, Repr

/-- The committed flags of the five factory kinds (R42). -/
structure Committed where
  blackSat : Bool
  gainGrid : Bool
  defects : Bool
  columns : Bool
  darkTemp : Bool
deriving DecidableEq, Repr

/-- The seven tables (R41). BLACK_SAT, GAIN_GRID and DARK_TEMP hold nothing until committed. -/
structure Tables where
  blackSat : Option (List (Nat × Nat))
  gainGrid : Option (List Nat)
  defects : List (Nat × Nat)
  columns : List Nat
  darkTemp : Option (List Nat)
  tone : List (List Nat)
  wb : List (Nat × Nat × Nat)
deriving DecidableEq, Repr

structure Cal where
  tables : Tables
  committed : Committed
  session : Session
  closer : Option (Fin 8)
  declared : Nat
  pointer : Nat
  timeout : Nat
  overrun : Bool
  staged : List Byte
  timer : Option Timer
deriving DecidableEq, Repr

/-! ## Frame store and shot table (spec/04) -/

/-- Holders of the slot map (R59). -/
inductive Holder | free | shot (number : Word) | entry (id : Nat) | transient
deriving DecidableEq, Repr

/-- Where the slots lie, from the moment S is fixed (R58). -/
structure Layout where
  base : Nat
  slotSize : Nat
deriving DecidableEq, Repr

/-- An accepted sync edge (R83). -/
structure Edge where
  time : Word
  closing : Bool
deriving DecidableEq, Repr

/-- The arming fields of a shot record (R64). `strobeTime` of a plan is its delay (FIRST) or its lead (LAST). -/
structure Arming where
  mode : ShotMode
  gain : Nat
  programmed : Option Nat
  plan : StrobePlan
  planTime : Nat
  autoRelease : Bool
  armTime : Word
  tempAtArm : Option Int
deriving DecidableEq, Repr

/-- The exposure fields of a shot record (R64). -/
structure Exposure where
  integStart : Option Word
  integEnd : Option Word
  integTime : Option Nat
  openTime : Option Word
  closeTime : Option Word
  measured : Option Nat
  edges : List Edge
  edgeOverflow : Word
  strobeTime : Option Word
  late : Word
  tempAtRead : Option Int
  early : Bool
  overlong : Bool
  truncated : Bool
  hot : Bool
  abandoned : Bool
deriving DecidableEq, Repr

/-- The dark, ingest, development and storage fields of a shot record (R65). -/
structure Progress where
  dark : Option DarkSource
  correction : Option Correction
  cursor : Nat
  gaps : List (Nat × Nat)
  lowClamps : Nat
  highClamps : Nat
  histogram : List Nat
  saturated : Nat
  repaired : Nat
  readTimeout : Bool
  ingestGap : Bool
  gapMerged : Bool
  fileSectors : Option Nat
  storeCount : Nat
  pendingStore : Option Nat
  sectorsStored : Nat
deriving DecidableEq, Repr

/-- A shot record (R64, R65). -/
structure Shot where
  number : Word
  state : ShotState
  slot : Nat
  prot : Bool
  arming : Arming
  exposure : Exposure
  progress : Progress
deriving DecidableEq, Repr

structure Sht where
  layout : Option Layout
  slots : List Holder
  records : List Shot
  counter : Word
  protectedCount : Nat
  guardCount : Word
deriving DecidableEq, Repr

/-! ## Exposure Sync Unit (spec/05) -/

/-- The twelve sync settings (R79). -/
structure SyncSettings where
  debounce : Nat
  flush : Nat
  armWindow : Nat
  guard : Nat
  readTimeout : Nat
  pulse : Nat
  delay : Nat
  lineMode : ShotMode
  lineGain : Nat
  lineTime : Nat
  linePlan : StrobePlan
  lineLead : Nat
deriving DecidableEq, Repr

inductive Seq | idle | shotFlush | shotIntegrate | shotRead | darkFlush | darkIntegrate | darkRead
deriving DecidableEq, Repr

structure Esu where
  active : SyncSettings
  staged : Option SyncSettings
  seq : Seq
  contact : Bool
  contactTimer : Option Timer
  button : Bool
  buttonTimer : Option Timer
  strobe : Option Word
  flushTimer : Option Timer
  armTimer : Option Timer
  guardTimer : Option Timer
  progTimer : Option Timer
  darkTimer : Option Timer
  flushLine : Bool
  integLine : Bool
  readLine : Bool
  strobeLine : Bool
  flushPulse : Option Timer
  readPulse : Option Timer
  strobePulse : Option Timer
deriving DecidableEq, Repr

/-! ## Dark Frame Library (spec/06) -/

inductive DarkMode | off | libraryOnly | capture
deriving DecidableEq, Repr

structure Policy where
  mode : DarkMode
  threshold : Nat
  size : Nat
  pedestal : Nat
deriving DecidableEq, Repr

/-- A library entry or a transient dark (R112, R113); a transient's id has no meaning. -/
structure Dark where
  id : Nat
  slot : Nat
  td : Nat
  temp : Option Int
  gain : Nat
  refs : Nat
  stamp : Word
  origin : Word
deriving DecidableEq, Repr

inductive CapturePhase | flush | integrate | read
deriving DecidableEq, Repr

/-- The capture record (R119). -/
structure Capture where
  shot : Word
  slot : Nat
  td : Nat
  gain : Nat
  shotTemp : Option Int
  darkTemp : Option Int
  phase : CapturePhase
  integStart : Option Word
deriving DecidableEq, Repr

/-- What goes on once a capture has been ended (R70, R88, R125): nothing, the ARM that preempted it, the SKIP_DARK or the
RELEASE that cancelled it, which has still to remove the record of its shot (R123). -/
inductive After
  | nothing
  | arm (slot : Fin 8) (args : List Word)
  | skip (slot : Fin 8) (phase : CapturePhase)
  | release (slot : Fin 8) (shot : Word)
deriving DecidableEq, Repr

/-- A capture's end that waits for the ICR to finish the burst under way (R123, R143), and the ARMs with PREEMPT_DARK taken
meanwhile, in order: their slots and argument words (R88, R126; log entry 18). -/
structure Ending where
  reason : DarkReason
  elapsed : Nat
  after : After
  arms : List (Fin 8 × List Word)
deriving DecidableEq, Repr

structure Dfl where
  policy : Policy
  entries : List Dark
  transients : List Dark
  capture : Option Capture
  ending : Option Ending
deriving DecidableEq, Repr

/-! ## Ingest Corrector (spec/07) -/

inductive Path | inline | raw
deriving DecidableEq, Repr

/-- The dark an INLINE target or a pass subtracts: its slot, its gain code and K (R129). -/
structure DarkUse where
  slot : Nat
  gain : Nat
  k : Nat
deriving DecidableEq, Repr

/-- The ingest target; a SHOT's cursor and gap list are in its record, a DARK's are here (R129). -/
structure Target where
  kind : FrameKind
  number : Word
  slot : Nat
  path : Path
  gain : Nat
  dark : Option DarkUse
  cursor : Nat
  gaps : List (Nat × Nat)
deriving DecidableEq, Repr

inductive IngestStage | needDark | needWrite | written
deriving DecidableEq, Repr

/-- The ingest burst under way: the first byte taken, the byte after the last, the range it skipped if it went ahead, the
bytes (raw, then corrected), the clamps, and what it waits for (R131, R134). -/
structure IngestWork where
  from_ : Nat
  to_ : Nat
  gap : Option (Nat × Nat)
  slot : Nat
  bytes : List Byte
  dark : Option DarkUse
  low : Nat
  high : Nat
  stage : IngestStage
deriving DecidableEq, Repr

structure Icr where
  target : Option Target
  deadline : Option Timer
  strayReported : Bool
  strayCount : Word
  work : Option IngestWork
deriving DecidableEq, Repr

/-! ## Development Pass Engine (spec/08) -/

/-- A pixel to repair in stage 3: its place and the neighbours it is repaired from, none for the pedestal (R158). -/
structure Repair where
  x : Nat
  y : Nat
  from_ : List (Nat × Nat)
deriving DecidableEq, Repr

/-- What is left of stage 3: columns from row y of the first one on, then singles (R159, R160). -/
structure RepairList where
  columns : List Nat
  row : Nat
  singles : List (Nat × Nat)
deriving DecidableEq, Repr

/-- The pass: its shot, the values taken at its start, the stage, the sweep's offset, the bytes read so far for the present
burst, and the counts (R153 to R162). -/
structure Pass where
  shot : Word
  slot : Nat
  gain : Nat
  dark : Option DarkUse
  gaps : List (Nat × Nat)
  black : Nat
  threshold : Nat
  darkBlack : Nat
  grid : List Nat
  defects : List (Nat × Nat)
  columns : List Nat
  pedestal : Nat
  stage : Nat
  pos : Nat
  gapsLeft : List (Nat × Nat)
  repairs : RepairList
  raw : Option (List Byte)
  out : Option (List Byte)
  beats : List (Nat × List Byte)
  low : Nat
  high : Nat
  repaired : Nat
  histogram : List Nat
  full : Nat
deriving DecidableEq, Repr

structure Dpe where
  queue : List Word
  pass : Option Pass
deriving DecidableEq, Repr

/-! ## Preview Renderer (spec/09) -/

inductive WhiteBalance | preset (index : Nat) | direct (r g b : Nat)
deriving DecidableEq, Repr

structure Selection where
  shot : Word
  curve : Nat
  wb : WhiteBalance
deriving DecidableEq, Repr

structure RowCache where
  row : Nat
  shot : Word
  bytes : List Byte
deriving DecidableEq, Repr

/-- The row being rendered: the values taken at its start, the source bytes read so far, whether its shot's frame was settled
at its start, and whether a TONE or WB commit has come since (R174, R177, R179). -/
structure Rendering where
  row : Nat
  slot : Nat
  black : Nat
  gains : Nat × Nat × Nat
  curve : List Nat
  mask : Option Nat
  settled : Bool
  outdated : Bool
  source : List Byte
deriving DecidableEq, Repr

/-- The VIEW burst in progress: its offset and length, the selection it is served under, the shot's slot, gain code and
correction state as last seen, the rows still to come, the bytes in hand, the row being rendered, and whether a VIEW_SELECT or
the removal of the selected shot has come since the burst began (R173, R177, R179). -/
structure ViewWork where
  offset : Nat
  length : Nat
  selection : Selection
  slot : Nat
  gain : Nat
  correction : Correction
  rows : List Nat
  got : List (Nat × List Byte)
  rendering : Option Rendering
  stale : Bool
deriving DecidableEq, Repr

structure Prn where
  selection : Option Selection
  cache : Option RowCache
  work : Option ViewWork
deriving DecidableEq, Repr

/-! ## Card Engine (spec/10) -/

inductive CardState | absent | present | initializing | ready | fault
deriving DecidableEq, Repr

inductive CardPolicy | fixed | rotating
deriving DecidableEq, Repr

inductive CardClass | shot | transfer
deriving DecidableEq, Repr

inductive CardClock | low | slow | fast
deriving DecidableEq, Repr

/-- Halt causes (R216). -/
inductive Cause
  | responseTimeout | responseError | dataCrc | writeError | busyTimeout | dataTimeout | outOfRange | cardAbsent
deriving DecidableEq, Repr

inductive RequestState | queued | waiting | active | halted
deriving DecidableEq, Repr

/-- What a request moves (R189): a shot through an extent list, or sectors to or from a buffer. -/
inductive Work
  | store (shot : Word) (extents : List (Nat × Nat))
  | write (start count buffer : Nat)
  | read (start count buffer : Nat)
deriving DecidableEq, Repr

/-- A request of the card queue (R189). -/
structure Request where
  id : Nat
  arrival : Nat
  work : Work
  state : RequestState
  header : Option (List Byte)
  crc : Word
  extent : Nat
  sector : Nat
  done : Nat
  retries : Nat
  cause : Option Cause
  cancel : Bool
deriving DecidableEq, Repr

/-- Bring-up steps (R185); VOLTAGE, IDENTIFY and BUS_WIDTH are two exchanges each (DEDUCED, log entry 19). -/
inductive BringStep | reset | condition | query | identity | address | capacity | select | width | blockLength
deriving DecidableEq, Repr

/-- The bring-up in progress (R185 to R187): the slot of its CARD_INIT, the exchange, the running timers, the capacity
read, and whether an ABORT waits. -/
structure Bringup where
  slot : Fin 8
  step : BringStep
  wait : Option Timer
  response : Option Timer
  powerUp : Option Timer
  sectors : Nat
  aborting : Bool
deriving DecidableEq, Repr

/-- Where a run stands in the exchange of R188. `cleanup` keeps the cause that failed the attempt. -/
inductive RunPhase
  | assemble
  | startCommand
  | blockStatus (block : Nat)
  | blockBusy (block : Nat)
  | readBlock (block : Nat)
  | stopCommand
  | stopBusy
  | storing
  | cleanupCommand (cause : Cause)
  | cleanupBusy (cause : Cause)
  | failed (cause : Cause)
deriving DecidableEq, Repr

/-- The run in flight (R188, R196, R197): first card sector, sectors, phase, its exchange timer, the memory range still to
read, the bytes read, the assembled data, and the advanced copy of the CRC accumulator. -/
structure Run where
  first : Nat
  count : Nat
  phase : RunPhase
  timer : Option Timer
  source : Nat
  sourceEnd : Nat
  got : List Byte
  data : List Byte
  crc : Word
deriving DecidableEq, Repr

/-- An extent list on its way from memory (R190). -/
structure ListRead where
  slot : Fin 8
  shot : Word
  addr : Nat
  count : Nat
  got : List Byte
deriving DecidableEq, Repr

structure Cde where
  seated : Bool
  detectTimer : Option Timer
  card : CardState
  capacity : Option Nat
  clock : CardClock
  policy : CardPolicy
  lastClass : CardClass
  nextId : Nat
  arrivals : Nat
  requests : List Request
  bringup : Option Bringup
  run : Option Run
  bufWrites : List (Nat × List Byte)
  listReads : List ListRead
deriving DecidableEq, Repr

/-! ## Thermal and Supply Monitor (spec/11) -/

structure Tsm where
  reading : Option Int
  temp : TempState
  missed : Nat
  warm : Int
  critical : Int
  hysteresis : Int
  supply : Supply
  supplyTimer : Option Timer
  schedule : Option Timer
  transaction : Option Timer
  recovering : Bool
deriving DecidableEq, Repr

/-! ## The frame memory port (R13 to R15) -/

/-- Who a burst at the frame memory port serves. -/
inductive Requester | passThrough | internal (m : Master)
deriving DecidableEq, Repr

/-- The burst in progress. `cpa` is the CPA write it carries; `values` the result data a STATUS write took at its grant;
`list` marks a read of an extent list. -/
structure InFlight where
  who : Requester
  write : Bool
  addr : Nat
  length : Nat
  data : List Byte
  cpa : Option CpaWrite
  values : List Word
  list : Bool
deriving DecidableEq, Repr

structure Port where
  starvation : Nat
  last : Master
  busy : Option InFlight
deriving DecidableEq, Repr

/-! ## The whole machine -/

/-- The part: everything but frame memory. -/
structure Part where
  phase : Phase
  resetWrites : Nat
  straps : Straps
  pins : Pins
  clock : Clock
  pts : Pts
  port : Port
  cpa : Cpa
  cal : Cal
  sht : Sht
  esu : Esu
  dfl : Dfl
  icr : Icr
  dpe : Dpe
  prn : Prn
  cde : Cde
  tsm : Tsm
  free : Nat
deriving DecidableEq, Repr

/-- Frame memory: (address, byte) pairs, addresses strictly rising, no byte 0 listed; an unlisted address reads 0 (DESIGN
CHOICE, log entry 3). Operations in Machine/Ops.lean. -/
abbrev Memory := List Host.Cell

/-- The state: the commands waiting, frame memory and the part. -/
structure State where
  pending : List Instr
  mem : Memory
  part : Part
deriving DecidableEq, Repr

/-- Why the model stops with a fault. -/
inductive Fault
  /-- Raised by ARBITER_GRANT when the granted burst leaves the installed memory (R13). No rule lets it happen. SAFE: the
  model stops where the hardware has no behaviour (log entry 31). -/
  | outsideMemory (addr : Nat)
deriving DecidableEq, Repr

/-- Why the model refuses a command. -/
inductive Refusal
  /-- An arm of exec that has no meaning yet. SAFE: nothing can be proved of it. -/
  | notModelled (mnemonic : String)
deriving DecidableEq, Repr

/-! ## Reset -/

/-- The defaults of R79. -/
def SyncSettings.default : SyncSettings where
  debounce := 200
  flush := 2000
  armWindow := 30
  guard := 5000
  readTimeout := 3000
  pulse := 100
  delay := 0
  lineMode := .sync
  lineGain := 0
  lineTime := 1000000
  linePlan := .first
  lineLead := 0

/-- The built-in tone curve: entry i is floor(i / 4) (R41). -/
def builtInCurve : List Nat := (List.range 1024).map (· / 4)

/-- The tables at their defaults (R41). -/
def Tables.default : Tables where
  blackSat := none
  gainGrid := none
  defects := []
  columns := []
  darkTemp := none
  tone := [builtInCurve]
  wb := [(4096, 4096, 4096)]

def Window.absent : Window := ⟨false, .pass, 0, 0⟩

/-- The control page's window: 64 KiB at the strap value times 128 MiB (R4). -/
def controlWindow (straps : Straps) : Window := ⟨true, .control, straps.ctrlBase.toNat * 134217728, 65536⟩

/-- An IDLE slot whose copy is zero (R20, R40). -/
def Slot.clear : Slot := ⟨0, List.replicate 24 0, none⟩

def Cpa.reset (straps : Straps) : Cpa where
  mode := if straps.service then .service else .loader
  slots := Vector.replicate 8 Slot.clear
  writes := []
  ended := none
  events := []
  eventBusy := false
  producer := 0
  written := 0
  consumer := 0
  irq := false
  mask := BitVec.allOnes 22
  dropped := false
  updates := 0
  resetting := none

def Esu.reset : Esu where
  active := .default
  staged := none
  seq := .idle
  contact := false
  contactTimer := none
  button := false
  buttonTimer := none
  strobe := none
  flushTimer := none
  armTimer := none
  guardTimer := none
  progTimer := none
  darkTimer := none
  flushLine := false
  integLine := false
  readLine := false
  strobeLine := false
  flushPulse := none
  readPulse := none
  strobePulse := none

def Cde.reset : Cde where
  seated := false
  detectTimer := none
  card := .absent
  capacity := none
  clock := .low
  policy := .fixed
  lastClass := .shot
  nextId := 1
  arrivals := 0
  requests := []
  bringup := none
  run := none
  bufWrites := []
  listReads := []

/-- The part while RESET_IN is asserted, with the straps sampled and the input lines at the given levels: what each chapter
gives as its hard reset (R17, R40, R41, R57, R77, R109, R128, R151, R167, R181, R206, R213). -/
def Part.reset (straps : Straps) (pins : Pins) (free : Nat) : Part where
  phase := .asserted
  resetWrites := 0
  straps := straps
  pins := pins
  clock := ⟨0, 0⟩
  pts :=
    { queue := [], head := none, windows := (Vector.replicate 16 Window.absent).set 0 (controlWindow straps)
      geometry := none, capacity := 0, answer := none }
  port := ⟨0, .cde, none⟩
  cpa := .reset straps
  cal :=
    { tables := .default, committed := ⟨false, false, false, false, false⟩, session := .none, closer := none, declared := 0
      pointer := 0, timeout := 0, overrun := false, staged := [], timer := none }
  sht := { layout := none, slots := [], records := [], counter := 1, protectedCount := 0, guardCount := 0 }
  esu := .reset
  dfl := { policy := ⟨.capture, 2, 2, 256⟩, entries := [], transients := [], capture := none, ending := none }
  icr := { target := none, deadline := none, strayReported := false, strayCount := 0, work := none }
  dpe := { queue := [], pass := none }
  prn := { selection := none, cache := none, work := none }
  cde := .reset
  tsm :=
    { reading := none, temp := .fault, missed := 0, warm := 180, critical := 240, hysteresis := 8, supply := .normal
      supplyTimer := none, schedule := none, transaction := none, recovering := false }
  free := free

/-- The machine right after reset: RESET_IN asserted. The straps at 0 and low and the input lines open, low and empty are
DESIGN CHOICES (log entry 2). -/
def State.reset : State where
  pending := []
  mem := []
  part := .reset ⟨0, 0, false⟩ ⟨false, false, false, false⟩ 0

end Sys2Proof.Machine
end

