-- ==== Sys2Proof/Machine/Ops.lean ====
section
/-! DEFINITION. Operations on frame memory, byte order, timers and lists, which every block uses. -/

namespace Sys2Proof.Machine

/-! ## Frame memory (R13)

A list of (address, byte) with rising addresses; an unlisted address reads 0, and no listed byte is 0 (DESIGN CHOICE, log entry 3). -/

/-- The byte at an address. -/
def Memory.read : Memory → Nat → Byte
  | [], _ => 0
  | (a, v) :: m, x => if x = a then v else Memory.read m x

/-- Memory with one byte changed; writing 0 removes the entry, so equal memories are equal lists. -/
def Memory.write : Memory → Nat → Byte → Memory
  | [], x, v => if v = 0 then [] else [(x, v)]
  | (a, w) :: m, x, v =>
    if x < a then (if v = 0 then (a, w) :: m else (x, v) :: (a, w) :: m)
    else if x = a then (if v = 0 then m else (x, v) :: m)
    else (a, w) :: Memory.write m x v

/-- The bytes from an address on. -/
def Memory.readBytes (m : Memory) (x : Nat) : Nat → List Byte
  | 0 => []
  | n + 1 => Memory.read m x :: Memory.readBytes m (x + 1) n

/-- Memory with the bytes written from an address on. -/
def Memory.writeBytes (m : Memory) (x : Nat) : List Byte → Memory
  | [] => m
  | v :: vs => Memory.writeBytes (Memory.write m x v) (x + 1) vs

/-- Every listed address is above `lo` and they rise; no listed byte is 0. -/
def Memory.wfFrom : Nat → Memory → Bool
  | _, [] => true
  | lo, (a, v) :: m => decide (lo ≤ a) && v != 0 && Memory.wfFrom (a + 1) m

/-- The canonical form. -/
def Memory.wf (m : Memory) : Bool := Memory.wfFrom 0 m

/-! ## Byte order (R214): little-endian -/

/-- A value in `n` bytes, least significant first. -/
def leBytes : Nat → Nat → List Byte
  | 0, _ => []
  | n + 1, v => BitVec.ofNat 8 v :: leBytes n (v / 256)

/-- The value of bytes stored least significant first. -/
def leNat : List Byte → Nat
  | [] => 0
  | v :: vs => v.toNat + 256 * leNat vs

def wordBytes (w : Word) : List Byte := leBytes 4 w.toNat

def wordsBytes (ws : List Word) : List Byte := ws.flatMap wordBytes

/-- The 32-bit words that bytes hold; an incomplete last word is dropped. -/
def bytesWords : List Byte → List Word
  | a :: b :: c :: d :: rest => BitVec.ofNat 32 (leNat [a, b, c, d]) :: bytesWords rest
  | _ => []

/-- The 16-bit values that bytes hold. -/
def bytesHalves : List Byte → List Nat
  | a :: b :: rest => leNat [a, b] :: bytesHalves rest
  | _ => []

def halvesBytes (vs : List Nat) : List Byte := vs.flatMap (leBytes 2)

/-- A signed value as a 32-bit word (R215). -/
def intWord (i : Int) : Word := BitVec.ofInt 32 i

def natWord (n : Nat) : Word := BitVec.ofNat 32 n

/-- A number of up to 64 bits in two words, low word first (R215). -/
def natWords2 (n : Nat) : List Word := [natWord n, natWord (n / 4294967296)]

def flagWord (b : Bool) : Word := if b then 1 else 0

/-- Bytes from `off` on, `n` of them. -/
def slice (off n : Nat) (bytes : List Byte) : List Byte := (bytes.drop off).take n

/-- The list extended with `x` to length `n` (zero fill of R22, R214). -/
def padTo {α : Type} (n : Nat) (x : α) (l : List α) : List α := l ++ List.replicate (n - l.length) x

/-- The list with the elements of `new` put over its own from place `at_` on; nothing is put beyond its end. -/
def overlay {α : Type} (old : List α) (at_ : Nat) (new : List α) : List α :=
  (old.take at_ ++ new).take old.length ++ old.drop (at_ + new.length)

/-! ## Timers on the timebase (R78) -/

/-- The timer has run: the timebase has advanced by its duration, modulo 2^32. -/
def Timer.due (t : Timer) (now : Word) : Bool := decide (t.dur ≤ (now - t.start).toNat)

/-- The time at which the timer expires. -/
def Timer.expiry (t : Timer) : Word := t.start + BitVec.ofNat 32 t.dur

def timerDue (t : Option Timer) (now : Word) : Bool :=
  match t with
  | none => false
  | some t => t.due now

/-- A time is not later than now, as a difference below 2^31 (spec/00_scope.md, Time). -/
def notLater (t now : Word) : Bool := decide ((now - t).toNat < 2147483648)

/-- A count that stops at 4,294,967,295 (R34). -/
def satIncr (w : Word) : Word := if w = BitVec.allOnes 32 then w else w + 1

/-! ## Numbers -/

def ceilDiv (a b : Nat) : Nat := (a + b - 1) / b

/-- A value limited to a range. -/
def clampNat (lo hi v : Nat) : Nat := if v < lo then lo else if hi < v then hi else v

def clampInt (lo hi v : Int) : Int := if v < lo then lo else if hi < v then hi else v

/-! ## Geometry (R11) -/

def Geometry.frameBytes (g : Geometry) : Nat := g.width * g.height * 2

def Geometry.slotPages (g : Geometry) : Nat := ceilDiv g.frameBytes Config.pageBytes

def Geometry.slotSize (g : Geometry) : Nat := g.slotPages * Config.pageBytes

def Geometry.previewRow (g : Geometry) : Nat := g.width / 8 * 3

def Geometry.previewBytes (g : Geometry) : Nat := g.width / 8 * (g.height / 8) * 3

/-- The geometry in force; every use is made with one set (R28, R58), and without one nothing has a size. -/
def Part.geo (p : Part) : Geometry := p.pts.geometry.getD ⟨0, 0, .rggb, 0⟩

/-- Sectors of a shot's file image (R164, R190). -/
def Geometry.fileSectors (g : Geometry) : Nat := 8 + ceilDiv g.frameBytes Config.sectorBytes + 1

/-- Slots a window of that size holds (R8, R58). -/
def Geometry.slotsIn (g : Geometry) (size : Nat) : Nat := min Config.maxSlots (size / g.slotSize)

/-- The pieces in which a range of memory is carried: bursts of at most 256 bytes, each within one page (R13). The first
piece's length, the longest allowed: a DESIGN CHOICE, since the rules say 'up to 16 beats' (R154, R174, R197) or give the page
alone (R74), and nothing for extent lists and buffers (log entry 44). -/
def burstSpan (addr length : Nat) : Nat :=
  min length (min Config.burstBytes (Config.pageBytes - addr % Config.pageBytes))

/-- A run of bytes cut into bursts, in address order; `fuel` bounds the number of bursts. -/
def cutBursts : Nat → Nat → List Byte → List (Nat × List Byte)
  | 0, _, _ => []
  | fuel + 1, addr, bytes =>
    if bytes.length = 0 then []
    else
      let n := burstSpan addr bytes.length
      (addr, bytes.take n) :: cutBursts fuel (addr + n) (bytes.drop n)

/-- A burst that a requester presents to the frame memory port (R13, R14). -/
structure Access where
  write : Bool
  addr : Nat
  length : Nat
  data : List Byte
deriving DecidableEq, Repr

def Access.readOf (addr length : Nat) : Access := ⟨false, addr, length, []⟩

def Access.writeOf (addr : Nat) (data : List Byte) : Access := ⟨true, addr, data.length, data⟩

/-! ## Windows (R3, R4) -/

def Window.contains (w : Window) (addr : Nat) : Bool := w.present && decide (w.base ≤ addr) && decide (addr < w.base + w.size)

/-- The range lies wholly inside one present PASS window (R74, R190, R191). -/
def Pts.inPass (p : Pts) (addr length : Nat) : Bool :=
  p.windows.toList.any fun w =>
    w.present && decide (w.kind = .pass) && decide (w.base ≤ addr) && decide (addr + length ≤ w.base + w.size)

/-- The first present window of a kind. -/
def Pts.windowOf (p : Pts) (k : WindowKind) : Option Window := p.windows.toList.find? fun w => w.present && decide (w.kind = k)

/-- The control page's base (R4). -/
def Pts.controlBase (p : Pts) : Nat := p.windows[0].base

end Sys2Proof.Machine
end

