-- ==== Sys2Proof/Machine/Formats.lean ====
section
/-! DEFINITION. The records seen in memory and on the card, byte for byte, and the codes they carry (spec/12), and the CRC-32 of R52. -/

namespace Sys2Proof.Machine

/-! ## Codes (R216). Each enumeration of Machine/State.lean is declared in the order of its codes. -/

def Mode.code (m : Mode) : Nat := m.ctorIdx
def ResultClass.code (c : ResultClass) : Nat := c.ctorIdx
def ResultCode.code (c : ResultCode) : Nat := c.ctorIdx
def Verb.code (v : Verb) : Nat := v.ctorIdx + 1
def EventKind.code (k : EventKind) : Nat := k.ctorIdx + 1
def TempState.code (t : TempState) : Nat := t.ctorIdx
def Supply.code (t : Supply) : Nat := t.ctorIdx
def CardState.code (t : CardState) : Nat := t.ctorIdx
def ShotState.code (t : ShotState) : Nat := t.ctorIdx
def ShotMode.code (t : ShotMode) : Nat := t.ctorIdx
def Cfa.code (t : Cfa) : Nat := t.ctorIdx
def StrobePlan.code (t : StrobePlan) : Nat := t.ctorIdx
def Correction.code (t : Correction) : Nat := t.ctorIdx
def DarkReason.code (t : DarkReason) : Nat := t.ctorIdx
def SectionKind.code (t : SectionKind) : Nat := t.ctorIdx + 1
def CapturePhase.code (t : CapturePhase) : Nat := t.ctorIdx
def FrameKind.code (t : FrameKind) : Nat := t.ctorIdx
def Cause.code (t : Cause) : Nat := t.ctorIdx
def Seq.code (t : Seq) : Nat := t.ctorIdx
def DarkMode.code (t : DarkMode) : Nat := t.ctorIdx
def WindowKind.code (t : WindowKind) : Nat := t.ctorIdx
def CardPolicy.code (t : CardPolicy) : Nat := t.ctorIdx
def RequestState.code (t : RequestState) : Nat := t.ctorIdx

/-- The step of R185 an exchange belongs to, by its position (R215). -/
def BringStep.code : BringStep → Nat
  | .reset => 0
  | .condition => 1
  | .query => 1
  | .identity => 2
  | .address => 2
  | .capacity => 3
  | .select => 4
  | .width => 4
  | .blockLength => 5

def DarkSource.code : DarkSource → Nat
  | .none _ => 0
  | .library _ _ => 1
  | .capture _ _ => 2
  | .skipped _ => 3

/-- The verbs in code order; the table of R216. -/
def verbs : List Verb :=
  [.setGeometry, .setWindow, .start, .status, .clearFlags, .setEventMask, .resetShots, .abort, .loadOpen, .loadClose, .loadCancel,
    .arm, .disarm, .setSync, .snapshot, .setDarkPolicy, .skipDark, .protect, .unprotect, .release, .queryShot, .viewSelect,
    .cardInit, .store, .cardWrite, .cardRead, .cardCancel, .cardResume, .setLimits]

/-- The verb a nonzero verb word names, if any (R21, R216). -/
def verbOf (w : Word) : Option Verb := if w = 0 then none else verbs[w.toNat - 1]?

/-! ## Status record (R34, R217) -/

/-- Slots FREE in the slot map (R59). -/
def Sht.freeCount (t : Sht) : Nat := t.slots.countP (fun h => decide (h = .free))

/-- The HALTED request (R189). -/
def Cde.halted (c : Cde) : Option Request := c.requests.find? fun r => decide (r.state = .halted)

/-- The ACTIVE request (R189). -/
def Cde.activeRequest (c : Cde) : Option Request := c.requests.find? fun r => decide (r.state = .active)

/-- The 256 bytes of the status record with the values as they stand (R217). -/
def Part.statusBytes (p : Part) : List Byte :=
  leBytes 2 614 ++ leBytes 1 1 ++ leBytes 1 p.cpa.mode.code ++ leBytes 4 p.cpa.updates.toNat
    ++ leBytes 2 (BitVec.ofInt 16 (p.tsm.reading.getD 0)).toNat ++ leBytes 1 p.tsm.temp.code ++ leBytes 1 p.tsm.supply.code
    ++ leBytes 1 ((if p.cpa.dropped then 1 else 0) + (if p.tsm.reading.isSome then 2 else 0)) ++ leBytes 3 0
    ++ leBytes 1 p.sht.slots.length ++ leBytes 1 p.sht.freeCount ++ leBytes 1 p.sht.protectedCount
    ++ leBytes 1 p.dfl.entries.length ++ leBytes 1 p.cde.card.code ++ leBytes 1 p.cde.requests.length
    ++ leBytes 2 ((p.cde.halted.map (·.id)).getD 0) ++ leBytes 4 p.sht.counter.toNat ++ leBytes 4 p.icr.strayCount.toNat
    ++ leBytes 4 p.sht.guardCount.toNat ++ List.replicate 220 0

/-! ## Command slot, ring indexes, event record (R217) -/

/-- A slot's first beat. -/
def slotBeatBytes (verb tag : Word) (cls : ResultClass) (code : ResultCode) : List Byte :=
  wordBytes verb ++ wordBytes tag ++ leBytes 1 cls.code ++ leBytes 1 0 ++ leBytes 2 code.code ++ leBytes 4 0

/-- A ring index beat: the word and twelve zero bytes. -/
def indexBeatBytes (w : Word) : List Byte := wordBytes w ++ List.replicate 12 0

/-- An event record: 32 bytes, up to four words of data. -/
def eventBytes (e : Event) : List Byte :=
  leBytes 2 e.kind.code ++ leBytes 2 0 ++ wordBytes e.shot ++ wordBytes e.time ++ leBytes 4 0
    ++ wordsBytes (padTo 4 0 (e.data.take 4))

/-! ## Shot record image (R218) -/

def bitIf (b : Bool) (n : Nat) : Nat := if b then 2 ^ n else 0

def DarkSource.k? : DarkSource → Option Nat
  | .library _ k => some k
  | .capture _ k => k
  | _ => Option.none

def DarkSource.reason? : DarkSource → Option DarkReason
  | .none r => some r
  | .skipped r => some r
  | _ => Option.none

/-- The entry id of a dark source as records carry it: 255 for a transient or capturing dark (R218). -/
def DarkSource.entryCode : DarkSource → Nat
  | .library id _ => id
  | .capture (.entry id) _ => id
  | .capture _ _ => 255
  | _ => 0

/-- The presence mask (R218). -/
def Shot.presence (t : Shot) : Nat :=
  let e := t.exposure
  let g := t.progress
  bitIf e.integStart.isSome 0 + bitIf e.integEnd.isSome 1 + bitIf e.integTime.isSome 2 + bitIf e.openTime.isSome 3
    + bitIf e.closeTime.isSome 4 + bitIf e.measured.isSome 5 + bitIf e.strobeTime.isSome 6 + bitIf t.arming.tempAtArm.isSome 7
    + bitIf e.tempAtRead.isSome 8 + bitIf t.arming.programmed.isSome 9 + bitIf g.dark.isSome 10
    + bitIf (g.dark.bind DarkSource.k?).isSome 11 + bitIf g.correction.isSome 12 + bitIf g.fileSectors.isSome 13
    + bitIf g.pendingStore.isSome 14

/-- The flags word (R218). -/
def Shot.flags (t : Shot) : Nat :=
  let e := t.exposure
  let g := t.progress
  bitIf e.early 0 + bitIf e.overlong 1 + bitIf e.truncated 2 + bitIf e.hot 3 + bitIf e.abandoned 4 + bitIf g.readTimeout 5
    + bitIf g.ingestGap 6 + bitIf g.gapMerged 7 + bitIf t.prot 8 + bitIf t.arming.autoRelease 9

def edgeMask : Nat → List Edge → Nat
  | _, [] => 0
  | n, e :: es => bitIf e.closing n + edgeMask (n + 1) es

/-- The 512-byte image of a shot record (R218). Absent values are zero (R214). -/
def Shot.image (t : Shot) : List Byte :=
  let a := t.arming
  let e := t.exposure
  let g := t.progress
  let opt (w : Option Word) : List Byte := wordBytes (w.getD 0)
  wordBytes t.number ++ leBytes 1 t.state.code ++ leBytes 1 t.slot ++ leBytes 1 a.mode.code ++ leBytes 1 a.gain
    ++ leBytes 4 t.presence ++ leBytes 4 t.flags ++ leBytes 4 (a.programmed.getD 0) ++ leBytes 1 a.plan.code
    ++ leBytes 1 ((g.correction.map Correction.code).getD 0) ++ leBytes 1 e.edges.length ++ leBytes 1 g.gaps.length
    ++ leBytes 4 a.planTime ++ wordBytes a.armTime
    ++ opt e.integStart ++ opt e.integEnd ++ leBytes 4 (e.integTime.getD 0) ++ opt e.openTime ++ opt e.closeTime
    ++ leBytes 4 (e.measured.getD 0) ++ opt e.strobeTime
    ++ leBytes 2 (BitVec.ofInt 16 (a.tempAtArm.getD 0)).toNat ++ leBytes 2 (BitVec.ofInt 16 (e.tempAtRead.getD 0)).toNat
    ++ wordBytes e.late ++ wordBytes e.edgeOverflow ++ leBytes 2 (edgeMask 0 e.edges) ++ leBytes 2 0
    ++ leBytes 1 ((g.dark.map DarkSource.code).getD 0)
    ++ leBytes 1 (((g.dark.bind DarkSource.reason?).map DarkReason.code).getD 0)
    ++ leBytes 1 ((g.dark.map DarkSource.entryCode).getD 0) ++ leBytes 1 0
    ++ leBytes 4 ((g.dark.bind DarkSource.k?).getD 0) ++ leBytes 4 g.cursor
    ++ leBytes 4 g.lowClamps ++ leBytes 4 g.highClamps ++ leBytes 4 g.saturated ++ leBytes 4 g.repaired
    ++ leBytes 4 (g.fileSectors.getD 0) ++ leBytes 4 g.storeCount ++ leBytes 2 (g.pendingStore.getD 0) ++ leBytes 2 0
    ++ leBytes 4 g.sectorsStored ++ leBytes 8 0
    ++ wordsBytes (padTo 16 0 (e.edges.map (·.time)))
    ++ wordsBytes (padTo 16 0 (g.gaps.flatMap fun (a, b) => [natWord a, natWord b]))
    ++ wordsBytes (padTo 64 0 (g.histogram.map natWord))

/-! ## CRC-32 (R52) -/

/-- One step of the register. -/
def crcShift (c : Word) : Word := if c.getLsbD 0 then (c >>> 1) ^^^ 0xEDB88320#32 else c >>> 1

/-- The register after one byte: exclusive-or into its low eight bits, then eight steps. -/
def crcByte (c : Word) (v : Byte) : Word :=
  crcShift (crcShift (crcShift (crcShift (crcShift (crcShift (crcShift (crcShift (c ^^^ v.setWidth 32))))))))

/-- The register after a run of bytes. -/
def crcBytes (c : Word) (bytes : List Byte) : Word := bytes.foldl crcByte c

/-- The register a computation starts from: all ones. -/
def crcStart : Word := BitVec.allOnes 32

/-- The CRC of a register: its complement. -/
def crcEnd (c : Word) : Word := ~~~c

def crc32 (bytes : List Byte) : Word := crcEnd (crcBytes crcStart bytes)

/-! ## Card file image (R195, R220) -/

/-- File sector 0. -/
def fileHeader (g : Geometry) (shot : Word) (request : Nat) (time : Word) : List Byte :=
  leBytes 4 0x4B424631 ++ leBytes 2 1 ++ leBytes 2 614 ++ leBytes 2 g.width ++ leBytes 2 g.height ++ leBytes 1 g.cfa.code
    ++ leBytes 1 g.depth ++ leBytes 2 0 ++ leBytes 4 g.frameBytes ++ leBytes 4 g.fileSectors ++ wordBytes shot
    ++ leBytes 2 request ++ leBytes 2 0 ++ wordBytes time ++ List.replicate 476 0

/-- The header image: file sectors 0 to 7 (R195). -/
def headerImage (g : Geometry) (t : Shot) (request : Nat) (time : Word) : List Byte :=
  fileHeader g t.number request time ++ t.image ++ List.replicate 3072 0

/-- The last file sector, from the CRC register over header and frame (R220). -/
def fileTrailer (crc : Word) (g : Geometry) (shot : Word) : List Byte :=
  wordBytes (crcEnd crc) ++ leBytes 4 (4096 + g.frameBytes) ++ wordBytes shot ++ List.replicate 500 0

end Sys2Proof.Machine
end

