-- ==== Sys2Proof/Machine/Flags.lean ====
section
/-! DEFINITION. What the CPA reports: the status record's changes, the event ring, IRQ_OUT, and the end of a command (R22, R29 to R35). -/

namespace Sys2Proof.Machine

/-- The timebase. -/
abbrev Part.now (p : Part) : Word := p.clock.time

/-- A write becomes due and joins the CPA's queue (R35). -/
def Part.pushWrite (w : CpaWrite) (p : Part) : Part := { p with cpa := { p.cpa with writes := p.cpa.writes ++ [w] } }

/-- A write of the status record. -/
def CpaWrite.isStatus : CpaWrite → Bool
  | .status _ => true
  | .resetStatus => true
  | _ => false

/-- An item of the status record has changed: a status write becomes due, unless one is queued and not yet granted (R34,
R35). The first one of a hard reset is among the reset writes (R40). -/
def Part.statusDirty (p : Part) : Part :=
  if p.phase = .resetWrites ∨ p.phase = .running then
    if p.cpa.writes.any CpaWrite.isStatus then p else p.pushWrite (.status [])
  else p

/-- A slot's STATUS command waits for the queued status write, or for one queued now (R35, R36). -/
def addWaiter (n : Fin 8) : List CpaWrite → List CpaWrite
  | [] => [.status [n]]
  | .status ws :: rest => .status (ws ++ [n]) :: rest
  | w :: rest => w :: addWaiter n rest

def Part.statusFor (n : Fin 8) (p : Part) : Part := { p with cpa := { p.cpa with writes := addWaiter n p.cpa.writes } }

/-- Events accepted and not yet consumed (R29). -/
def Cpa.unconsumed (c : Cpa) : Nat := (c.producer - c.consumer).toNat

/-- The event is accepted at the next index: its record is written now, or when the events before it have been (R29, R30). -/
def Part.acceptEvent (e : Event) (p : Part) : Part :=
  let i := p.cpa.producer
  if p.cpa.eventBusy then
    { p with cpa := { p.cpa with producer := i + 1, events := p.cpa.events ++ [(i, e)] } }
  else
    { p with cpa := { p.cpa with producer := i + 1, eventBusy := true, writes := p.cpa.writes ++ [.eventRecord i e] } }

/-- A block hands the CPA an event (R29): dropped if its kind is disabled; dropped with the flag set if 64 records are
unconsumed; accepted otherwise. -/
def Part.emitEvent (e : Event) (p : Part) : Part :=
  if p.cpa.mask.getLsbD (e.kind.code - 1) then
    if p.cpa.unconsumed = Config.ringRecords then
      if p.cpa.dropped then p else Part.statusDirty { p with cpa := { p.cpa with dropped := true } }
    else p.acceptEvent e
  else p

def Part.emitAt (time : Word) (kind : EventKind) (shot : Word) (data : List Word) (p : Part) : Part :=
  p.emitEvent ⟨kind, shot, time, data⟩

def Part.emit (kind : EventKind) (shot : Word) (data : List Word) (p : Part) : Part := p.emitAt p.now kind shot data

/-- IRQ_OUT is asserted while the producer word as last written differs from the consumer copy (R32). -/
def Part.updateIrq (p : Part) : Part := { p with cpa := { p.cpa with irq := decide (p.cpa.written ≠ p.cpa.consumer) } }

/-- The command in a slot. -/
def Part.cmdIn (n : Fin 8) (p : Part) : Option Latched := p.cpa.slots[n].cmd

def Part.setCmd (n : Fin 8) (c : Option Latched) (p : Part) : Part :=
  { p with cpa := { p.cpa with slots := p.cpa.slots.set n { p.cpa.slots[n] with cmd := c } } }

/-- A command ends: its end is taken, and its result data, zero filled to 96 bytes, is written first (R22). A slot with no
command in flight, or whose command's end has been taken, is left as it is. -/
def Part.endCommand (n : Fin 8) (cls : ResultClass) (code : ResultCode) (data : List Word) (p : Part) : Part :=
  match p.cmdIn n with
  | none => p
  | some c =>
    if c.ended then p
    else (p.setCmd n (some { c with ended := true })).pushWrite (.resultData n (padTo 24 0 (data.take 24)) cls code)

def Part.done (n : Fin 8) (data : List Word) (p : Part) : Part := p.endCommand n .done .ok data
def Part.doneOr (n : Fin 8) (adjusted : Bool) (data : List Word) (p : Part) : Part :=
  if adjusted then p.endCommand n .doneAdjusted .adjusted data else p.done n data
def Part.refuse (n : Fin 8) (code : ResultCode) (data : List Word) (p : Part) : Part := p.endCommand n .refused code data
def Part.fail (n : Fin 8) (code : ResultCode) (data : List Word) (p : Part) : Part := p.endCommand n .failed code data

/-! ## The CPA's four completions (R22, R30, R32) -/

/-- A slot's result data has been written: the first beat becomes due (R22). -/
def Part.resultDataDone (p : Part) : Part :=
  match p.cpa.ended with
  | some (.resultData n _ cls code) => Part.pushWrite (.slotBeat n cls code) { p with cpa := { p.cpa with ended := none } }
  | _ => p

/-- A slot's first beat has been written: the slot becomes IDLE (R22). -/
def Part.slotResultDone (p : Part) : Part :=
  match p.cpa.ended with
  | some (.slotBeat n _ _) => Part.setCmd n none { p with cpa := { p.cpa with ended := none } }
  | _ => p

/-- An event record has been written: the producer beat becomes due with the next producer word (R30). -/
def Part.eventRecordDone (p : Part) : Part :=
  match p.cpa.ended with
  | some (.eventRecord i _) => Part.pushWrite (.producerBeat (i + 1)) { p with cpa := { p.cpa with ended := none } }
  | _ => p

/-- The next accepted event's record becomes due, if there is one (R30). -/
def Part.nextEvent (p : Part) : Part :=
  match p.cpa.events with
  | [] => { p with cpa := { p.cpa with eventBusy := false } }
  | (i, e) :: rest => Part.pushWrite (.eventRecord i e) { p with cpa := { p.cpa with events := rest, eventBusy := true } }

/-- A producer beat has been written: the producer word as last written and IRQ_OUT follow (R30, R32). -/
def Part.producerDone (p : Part) : Part :=
  match p.cpa.ended with
  | some (.producerBeat w) => (Part.updateIrq { p with cpa := { p.cpa with ended := none, written := w } }).nextEvent
  | _ => p

/-- A consumer word observed in a host write (R31): taken if it lies within 64 of the producer count, else the consumer beat
is rewritten. -/
def Part.consumerSeen (c : Word) (p : Part) : Part :=
  if (p.cpa.producer - c).toNat ≤ Config.ringRecords then Part.updateIrq { p with cpa := { p.cpa with consumer := c } }
  else p.pushWrite .consumerRewrite

end Sys2Proof.Machine
end

