-- ==== Sys2Proof/Machine/Operands.lean ====
section
/-! DEFINITION. How a command takes its operands from its slot, and the checks made before its owner's: mode, RESET_SHOTS in progress, START preconditions (R20, R21, R26, R27, R28, R38, R215). -/

namespace Sys2Proof.Machine

/-! ## Argument words (R215; their numbers in BAD_ARG are DEDUCED, log entry 11) -/

def argWord (args : List Word) (i : Nat) : Word := args.getD i 0

def argNat (args : List Word) (i : Nat) : Nat := (argWord args i).toNat

/-- A signed value (a temperature). -/
def argInt (args : List Word) (i : Nat) : Int := (argWord args i).toInt

/-- A flag: the lowest bit. -/
def argFlag (args : List Word) (i : Nat) : Bool := (argWord args i).getLsbD 0

/-- A memory address: two words, bits 36 to 63 ignored. -/
def argAddr (args : List Word) (i : Nat) : Nat := argNat args i + argNat args (i + 1) % 16 * 4294967296

/-- A size in bytes: two words. -/
def argSize (args : List Word) (i : Nat) : Nat := argNat args i + argNat args (i + 1) * 4294967296

/-- An argument list read: the request, or the number of the argument that is malformed (R215). -/
inductive Parsed (α : Type) | bad (arg : Nat) | ok (value : α)
deriving DecidableEq, Repr

/-! ## Enumerations an argument carries: the code of R216, or the position in the owner's list (R215) -/

def windowKindOf : Nat → Option WindowKind
  | 0 => some .pass
  | 1 => some .control
  | 2 => some .ingest
  | 3 => some .view
  | 4 => some .bundle
  | 5 => some .frameStore
  | _ => none

def cfaOf : Nat → Option Cfa
  | 0 => some .rggb
  | 1 => some .grbg
  | 2 => some .gbrg
  | 3 => some .bggr
  | _ => none

def shotModeOf : Nat → Option ShotMode
  | 0 => some .sync
  | 1 => some .timed
  | _ => none

def strobePlanOf : Nat → Option StrobePlan
  | 0 => some .none
  | 1 => some .first
  | 2 => some .last
  | _ => none

def darkModeOf : Nat → Option DarkMode
  | 0 => some .off
  | 1 => some .libraryOnly
  | 2 => some .capture
  | _ => none

def cardPolicyOf : Nat → Option CardPolicy
  | 0 => some .fixed
  | 1 => some .rotating
  | _ => none

def sectionKindOf : Nat → Option SectionKind
  | 1 => some .blackSat
  | 2 => some .gainGrid
  | 3 => some .defects
  | 4 => some .columns
  | 5 => some .darkTemp
  | 6 => some .tone
  | 7 => some .wb
  | _ => none

/-! ## Taking a command -/

/-- The shot commands (spec/02, Modes). -/
def Verb.isShot : Verb → Bool
  | .arm | .disarm | .setSync | .snapshot | .setDarkPolicy | .skipDark | .protect | .unprotect | .release | .queryShot => true
  | .viewSelect | .store => true
  | _ => false

/-- The modes that accept a verb (R26). -/
def Verb.accepted (v : Verb) (m : Mode) : Bool :=
  match v with
  | .setGeometry | .setWindow => decide (m ≠ .operational)
  | .start => decide (m = .loader)
  | .resetShots => decide (m ≠ .loader)
  | _ => if v.isShot then decide (m ≠ .loader) else true

/-- The verbs that RESET_SHOTS in progress does not refuse (R38). -/
def Verb.duringReset : Verb → Bool
  | .status | .clearFlags | .setEventMask | .setLimits | .abort => true
  | _ => false

/-- The first START precondition that does not hold, as NOT_READY names it: its position in R28, and for FRAME_STORE the
number of slots the window holds. -/
def Part.missing (p : Part) : Option (List Word) :=
  match p.pts.geometry with
  | none => some [0]
  | some g =>
    match p.pts.windowOf .frameStore with
    | none => some [1, 0]
    | some w =>
      if g.slotsIn w.size < 3 then some [1, natWord (g.slotsIn w.size)]
      else if (p.pts.windowOf .ingest).isNone then some [2]
      else if (p.pts.windowOf .view).isNone then some [3]
      else if (p.pts.windowOf .bundle).isNone then some [4]
      else if !p.cal.committed.blackSat then some [5]
      else if !p.cal.committed.gainGrid then some [6]
      else if !p.cal.committed.darkTemp then some [7]
      else none

/-- S is fixed, once: the slot placement is taken and every slot is FREE (R58). -/
def Part.fixSlots (p : Part) : Part :=
  match p.sht.layout, p.pts.geometry, p.pts.windowOf .frameStore with
  | none, some g, some w =>
    Part.statusDirty
      { p with sht := { p.sht with layout := some ⟨w.base, g.slotSize⟩, slots := List.replicate (g.slotsIn w.size) .free } }
  | _, _, _ => p

/-- The slot copy takes the tag and the argument words of a host write (R20). -/
def Part.noteWrite (w : SlotWrite) (p : Part) : Part :=
  let sl := p.cpa.slots[w.slot]
  { p with cpa := { p.cpa with slots := p.cpa.slots.set w.slot { sl with tag := w.tag, args := overlay sl.args 0 w.args } } }

/-- The tag and argument area are latched from the copy and the slot becomes BUSY (R21). -/
def Part.latch (v : Option Verb) (n : Fin 8) (p : Part) : Part :=
  let sl := p.cpa.slots[n]
  p.setCmd n (some ⟨v, sl.tag, sl.args, false, false⟩)

/-- The checks made before the owner's: mode (R26), RESET_SHOTS in progress (R38), and for a shot command in SERVICE the
START preconditions, after which the first such command fixes S (R27). -/
def Part.gate (v : Verb) (n : Fin 8) (body : Part → Part) (p : Part) : Part :=
  if !v.accepted p.cpa.mode then p.refuse n .wrongMode []
  else if p.cpa.resetting.isSome && !v.duringReset then p.refuse n .busy [1]
  else if v.isShot && decide (p.cpa.mode = .service) then
    match p.missing with
    | some data => p.refuse n .notReady data
    | none => body p.fixSlots
  else body p

/-- A nonzero verb word observed in an IDLE slot whose copy already holds the write (R21). -/
def Part.takeVerb (v : Verb) (n : Fin 8) (body : Fin 8 → List Word → Part → Part) (p : Part) : Part :=
  (p.latch (some v) n).gate v n (body n p.cpa.slots[n].args)

/-- A host write that carries a verb, observed by the CPA once the port is open: the copy is updated (R20); an IDLE slot
takes the command (R21); a BUSY slot ignores it (R23). -/
def Part.hostVerb (v : Verb) (body : Fin 8 → List Word → Part → Part) (w : SlotWrite) (p : Part) : Part :=
  if p.phase = .running then
    let q := p.noteWrite w
    match q.cmdIn w.slot with
    | some _ => q
    | none => q.takeVerb v w.slot body
  else p

/-- A command whose whole effect is on the part: frame memory and the queue stay. -/
def State.onPart (f : Part → Part) (s : State) : Host.Outcome State Fault Refusal := .next { s with part := f s.part }

end Sys2Proof.Machine
end

