-- ==== Sys2Proof/Machine/ShotOps.lean ====
section
/-! DEFINITION. Shared operations on slots, shot records, darks and the view: allocation, freeing, removal, reference counts, eviction, auto-release (R58 to R71, R111 to R115). -/

namespace Sys2Proof.Machine

/-! ## Records (R66) -/

/-- The record that holds a shot number. -/
def Part.shot? (n : Word) (p : Part) : Option Shot := p.sht.records.find? fun t => decide (t.number = n)

/-- A RELEASE of the shot has been accepted and waits for the end of the shot's capture (R70, R123). -/
def Part.releasing (n : Word) (p : Part) : Bool :=
  match p.dfl.ending with
  | none => false
  | some e =>
    match e.after with
    | .release _ shot => decide (shot = n)
    | _ => false

/-- The record that PROTECT, UNPROTECT, RELEASE and STORE find: once a RELEASE of the shot has been accepted a later one finds no shot
(R69's table), though its record stands until its capture has ended (R123; log entry 18). -/
def Part.keptShot? (n : Word) (p : Part) : Option Shot := if p.releasing n then none else p.shot? n

/-- A write to fields of one record; without the record nothing changes (R66). -/
def Part.modShot (n : Word) (f : Shot → Shot) (p : Part) : Part :=
  { p with sht := { p.sht with records := p.sht.records.map fun t => if t.number = n then f t else t } }

def Part.modExposure (n : Word) (f : Exposure → Exposure) : Part → Part := Part.modShot n fun t => { t with exposure := f t.exposure }

def Part.modProgress (n : Word) (f : Progress → Progress) : Part → Part := Part.modShot n fun t => { t with progress := f t.progress }

def Part.setShotState (n : Word) (st : ShotState) : Part → Part := Part.modShot n fun t => { t with state := st }

/-- ARMING, ARMED, EXPOSING, SETTLING or READING: the states of the current shot (R85). -/
def ShotState.live : ShotState → Bool
  | .arming | .armed | .exposing | .settling | .reading => true
  | _ => false

/-- Has not reached DEVELOPED (R67). -/
def ShotState.undeveloped : ShotState → Bool
  | .developed | .storing | .stored => false
  | _ => true

/-- READING, AWAIT_DARK or DEVELOPING: correction work exists (R54, R110). -/
def ShotState.inCorrection : ShotState → Bool
  | .reading | .awaitDark | .developing => true
  | _ => false

/-- The shot in ARMING..READING, if there is one (R85). -/
def Part.currentShot (p : Part) : Option Shot := p.sht.records.find? fun t => t.state.live

/-- The byte address at which a slot begins (R58). -/
def Sht.slotAddr (t : Sht) (slot : Nat) : Nat :=
  match t.layout with
  | none => 0
  | some l => l.base + slot * l.slotSize

/-! ## Slots (R59 to R61) -/

def Part.setHolder (slot : Nat) (h : Holder) (p : Part) : Part := { p with sht := { p.sht with slots := p.sht.slots.set slot h } }

/-- A slot becomes FREE: the free count rises, the status record is rewritten, SLOT_RELEASED is emitted (R61). -/
def Part.freeSlot (slot : Nat) (kind : FrameKind) (shot : Word) (p : Part) : Part :=
  ((p.setHolder slot .free).statusDirty).emit .slotReleased shot [natWord slot, natWord kind.code]

/-- The entry with refcount 0 and the lowest last-use stamp (R111, R115). -/
def leastUsed (es : List Dark) : Option Dark :=
  es.foldl
    (fun best e =>
      if e.refs = 0 then
        match best with
        | none => some e
        | some b => if e.stamp.toNat < b.stamp.toNat then some e else some b
      else best)
    none

/-- An entry leaves the library; its id is given up (R112). -/
def Part.dropEntry (e : Dark) (p : Part) : Part := { p with dfl := { p.dfl with entries := p.dfl.entries.erase e } }

/-- The DFL evicts the least recently used unreferenced entry; its slot passes to the new holder (R60, R115). -/
def Part.evict (p : Part) : Option (Nat × Part) :=
  match leastUsed p.dfl.entries with
  | none => none
  | some e => some (e.slot, (p.dropEntry e).statusDirty)

/-- A slot is allocated: the lowest FREE one, or an evicted entry's, or none (R60). The free count changes with the holder. -/
def Part.allocate (h : Holder) (p : Part) : Option (Nat × Part) :=
  match p.sht.slots.findIdx? (fun x => decide (x = .free)) with
  | some i => some (i, (p.setHolder i h).statusDirty)
  | none =>
    match p.evict with
    | none => none
    | some (i, q) => some (i, q.setHolder i h)

/-! ## Darks (R111 to R114) -/

/-- A library entry is removed other than by eviction: its id is given up and its slot becomes FREE (R111). -/
def Part.removeEntry (e : Dark) (p : Part) : Part := (p.dropEntry e).freeSlot e.slot .dark e.origin

/-- Entries with refcount 0 are removed, lowest stamp first, while the count exceeds the library size (R111). -/
def Part.trimLibrary : Nat → Part → Part
  | 0, p => p
  | fuel + 1, p =>
    if p.dfl.policy.size < p.dfl.entries.length then
      match leastUsed p.dfl.entries with
      | none => p
      | some e => Part.trimLibrary fuel (p.removeEntry e)
    else p

def lowerRefs (d : Dark) : Dark := { d with refs := d.refs - 1 }

/-- A library entry's refcount falls by one; at 0 it is removed if the library exceeds its size (R111, R114). -/
def Part.lowerEntry (id : Nat) (p : Part) : Part :=
  let q : Part := { p with dfl := { p.dfl with entries := p.dfl.entries.map fun e => if e.id = id then lowerRefs e else e } }
  match q.dfl.entries.find? (fun e => decide (e.id = id)) with
  | none => q
  | some e => if e.refs = 0 ∧ q.dfl.policy.size < q.dfl.entries.length then q.removeEntry e else q

/-- A transient dark's refcount falls by one; at 0 its slot is freed and it ceases to exist (R113). -/
def Part.lowerTransient (shot : Word) (p : Part) : Part :=
  match p.dfl.transients.find? (fun e => decide (e.origin = shot)) with
  | none => p
  | some d =>
    if d.refs ≤ 1 then
      Part.freeSlot d.slot .dark d.origin
        { p with dfl := { p.dfl with transients := p.dfl.transients.filter fun e => decide (e.origin ≠ shot) } }
    else
      { p with dfl := { p.dfl with transients := p.dfl.transients.map fun e => if e.origin = shot then lowerRefs e else e } }

/-- The refcount of the dark a shot names falls by one: LIBRARY, or CAPTURE with its K known (R67, R114, R164). -/
def Part.lowerDark (shot : Word) (d : Option DarkSource) (p : Part) : Part :=
  match d with
  | some (.library id _) => p.lowerEntry id
  | some (.capture (.entry id) (some _)) => p.lowerEntry id
  | some (.capture .transient (some _)) => p.lowerTransient shot
  | _ => p

/-! ## The view (R170) -/

/-- The selection and the cache are emptied; a VIEW burst in progress goes on, and its rows are not kept (R179). -/
def Part.clearView (p : Part) : Part :=
  { p with prn := { p.prn with selection := none, cache := none, work := p.prn.work.map fun w => { w with stale := true } } }

def Part.clearViewOf (shot : Word) (p : Part) : Part :=
  match p.prn.selection with
  | none => p
  | some v => if v.shot = shot then p.clearView else p

/-! ## Requests naming a shot (R68, R189) -/

def Request.names (r : Request) (shot : Word) : Bool :=
  match r.work with
  | .store n _ => decide (n = shot)
  | _ => false

/-- The store request that names a shot (R189: at most one). -/
def Part.requestFor (shot : Word) (p : Part) : Option Request := p.cde.requests.find? fun r => r.names shot

def Part.dropRequest (id : Nat) (p : Part) : Part :=
  Part.statusDirty { p with cde := { p.cde with requests := p.cde.requests.filter fun r => decide (r.id ≠ id) } }

/-- A shot is removed while a store request names it: the request goes with it (R68). -/
def Part.cancelFor (shot : Word) (p : Part) : Part :=
  match p.requestFor shot with
  | none => p
  | some r => (p.dropRequest r.id).emit .cardRequestDone shot [natWord r.id, 1, 0]

/-! ## Removal and auto-release (R67, R71) -/

/-- Steps 1 to 5 of R67: the dark reference, the protection, the view and the request of a shot go, and its record. -/
def Part.dropRecord (n : Word) (t : Shot) (p : Part) : Part :=
  let p := if t.state.undeveloped then p.lowerDark n t.progress.dark else p
  let p := if t.prot then { p with sht := { p.sht with protectedCount := p.sht.protectedCount - 1 } } else p
  let p := (p.clearViewOf n).cancelFor n
  { p with sht := { p.sht with records := p.sht.records.filter fun r => decide (r.number ≠ n) } }

/-- A shot record is removed for any cause but RESET_SHOTS, in the order of R67. -/
def Part.removeShot (n : Word) (p : Part) : Part :=
  match p.shot? n with
  | none => p
  | some t => (p.dropRecord n t).freeSlot t.slot .shot n

/-- The four conditions of R71. -/
def Part.autoReleasable (n : Word) (p : Part) : Bool :=
  match p.shot? n with
  | none => false
  | some t => decide (t.state = .stored) && t.arming.autoRelease && !t.prot && (p.requestFor n).isNone

def Part.autoRelease (n : Word) (p : Part) : Part := if p.autoReleasable n then p.removeShot n else p

end Sys2Proof.Machine
end

