-- ==== Sys2Proof/Machine/CardOps.lean ====
section
/-! DEFINITION. The card queue, activation, runs, completion, halts and the card state (R183, R189, R192 to R205). -/

namespace Sys2Proof.Machine

/-! ## Card state (R182) -/

/-- A change of card state: the status record is rewritten and CARD_STATE emitted, with the failing step of a FAULT; the
capacity is forgotten when the card is not READY (R182). The status write becomes due before the event's record: a DESIGN
CHOICE, since R182 does not order the two (log entry 43). -/
def Part.setCard (c : CardState) (step : List Word) (p : Part) : Part :=
  let q : Part := { p with cde := { p.cde with card := c, capacity := if c = .ready then p.cde.capacity else none } }
  q.statusDirty.emit .cardState 0 (natWord c.code :: step)

/-! ## Requests (R189) -/

def Work.isStore : Work → Bool
  | .store _ _ => true
  | _ => false

def Work.cardClass : Work → CardClass
  | .store _ _ => .shot
  | _ => .transfer

/-- The shot number of a request's events, 0 for a transfer (R198, R201). -/
def Request.shot (r : Request) : Word :=
  match r.work with
  | .store n _ => n
  | _ => 0

/-- The extents a request runs over: a transfer's is one (R196, R199). -/
def Work.extents : Work → List (Nat × Nat)
  | .store _ es => es
  | .write start count _ => [(start, count)]
  | .read start count _ => [(start, count)]

def Part.modRequest (id : Nat) (f : Request → Request) (p : Part) : Part :=
  { p with cde := { p.cde with requests := p.cde.requests.map fun r => if r.id = id then f r else r } }

/-- The value the id counter takes after an id: the next that no request holds, from 65,535 on to 1 (R189). -/
def nextIdAfter (held : List Nat) (id : Nat) : Nat := (((List.range 17).map fun k => (id + k) % 65535 + 1).find? fun i => !held.contains i).getD 1

/-- A request joins the queue with the id counter's value (R189). -/
def Part.addRequest (w : Work) (st : RequestState) (p : Part) : Part :=
  let id := p.cde.nextId
  let r : Request := ⟨id, p.cde.arrivals, w, st, none, crcStart, 0, 0, 0, 0, none, false⟩
  let requests := p.cde.requests ++ [r]
  Part.statusDirty
    { p with
      cde := { p.cde with requests := requests, nextId := nextIdAfter (requests.map (·.id)) id, arrivals := p.cde.arrivals + 1 } }

/-- Every sector of the extents lies below a capacity (R190, R194). -/
def extentsBelow (capacity : Nat) (es : List (Nat × Nat)) : Bool := es.all fun e => Nat.ble (e.1 + e.2) capacity

/-- RESET_SHOTS waits for the CDE (R205). -/
def Part.cdeStopping (p : Part) : Bool :=
  match p.cpa.resetting with
  | none => false
  | some r => !r.cde

/-! ## Runs (R195 to R197, R199) -/

/-- Sectors still to come in the request's present extent, and the card sector it has come to. -/
def Request.position (r : Request) : Nat × Nat :=
  match r.work.extents[r.extent]? with
  | none => (0, 0)
  | some (start, count) => (start + r.sector, count - r.sector)

/-- The slot of a STORE's shot. -/
def Part.slotOf (n : Word) (p : Part) : Nat := ((p.shot? n).map fun t => t.slot).getD 0

/-- The memory range a run reads, in frame or buffer bytes from file sector or transfer sector `done` on (R197, R199). -/
def Part.runSource (r : Request) (count : Nat) (p : Part) : Nat × Nat :=
  match r.work with
  | .store n _ =>
    let base := p.sht.slotAddr (p.slotOf n)
    let frame := p.geo.frameBytes
    (base + min ((r.done - 8) * 512) frame, base + min ((r.done + count - 8) * 512) frame)
  | .write _ _ buffer => (buffer + r.done * 512, buffer + (r.done + count) * 512)
  | .read _ _ _ => (0, 0)

/-- A run's data in file order and the advanced copy of the CRC register: header sectors, frame bytes, pad, trailer (R197).
A transfer's data are the buffer bytes. -/
def Part.assemble (r : Request) (run : Run) (p : Part) : Run :=
  match r.work with
  | .store n _ =>
    let head := slice (r.done * 512) (run.count * 512) (r.header.getD [])
    let body := head ++ run.got
    let crc := crcBytes r.crc body
    let last := decide (p.geo.fileSectors ≤ r.done + run.count)
    let full := run.count * 512 - (if last then 512 else 0)
    { run with data := padTo full 0 body ++ (if last then fileTrailer crc p.geo n else []), crc := crc }
  | _ => { run with data := run.got }

def Part.setRun (run : Option Run) (p : Part) : Part := { p with cde := { p.cde with run := run } }

/-- A command of the run is sent: its response is due within 100 ms (R188). -/
def Part.runCommand (ph : RunPhase) (run : Run) (p : Part) : Part :=
  p.setRun (some { run with phase := ph, timer := some ⟨p.now, Config.cardResponseTime⟩ })

/-- The run's memory reads are done: its data is assembled and the start command sent. -/
def Part.runAssembled (r : Request) (run : Run) (p : Part) : Part := p.runCommand .startCommand (p.assemble r run)

/-- The first run not yet confirmed begins: 64 sectors, or what the extent still has (R194, R196). -/
def Part.startRun (id : Nat) (p : Part) : Part :=
  match p.cde.requests.find? fun r => decide (r.id = id) with
  | none => p
  | some r =>
    let (first, left) := r.position
    let count := min Config.runSectors left
    let (source, stop) := p.runSource r count
    let run : Run := ⟨first, count, .assemble, none, source, stop, [], [], r.crc⟩
    if source < stop then p.setRun (some run) else p.runAssembled r run

/-! ## Activation and halt (R194, R201) -/

/-- The shot of a STORE leaves STORING for DEVELOPED (R201, R203). -/
def Part.leaveStoring (n : Word) (p : Part) : Part := p.modShot n fun t => if t.state = .storing then { t with state := .developed } else t

/-- A request halts (R201). -/
def Part.haltRequest (id : Nat) (cause : Cause) (p : Part) : Part :=
  match p.cde.requests.find? fun r => decide (r.id = id) with
  | none => p
  | some r =>
    let q := ((p.modRequest id fun x => { x with state := .halted, cause := some cause }).setRun none).statusDirty
    let q := match r.work with
      | .store n _ => q.leaveStoring n
      | _ => q
    q.emit .cardHalted r.shot [natWord id, natWord cause.code]

/-- A STORE's shot enters STORING; at the first activation the header image is built and the CRC started (R194, R195). -/
def Part.enterStoring (r : Request) (n : Word) (p : Part) : Part :=
  let q := p.setShotState n .storing
  if r.header.isSome then q
  else
    let q := q.modProgress n fun g => { g with sectorsStored := 0 }
    match q.shot? n with
    | none => q
    | some t => q.modRequest r.id fun x => { x with header := some (headerImage q.geo t r.id q.now), crc := crcStart }

/-- A request is activated (R194). -/
def Part.activate (id : Nat) (p : Part) : Part :=
  match p.cde.requests.find? fun r => decide (r.id = id) with
  | none => p
  | some r =>
    if extentsBelow (p.cde.capacity.getD 0) r.work.extents then
      let q := p.modRequest id fun x => { x with state := .active }
      let q := match r.work with
        | .store n _ => q.enterStoring r n
        | _ => q
      q.startRun id
    else p.haltRequest id .outOfRange

/-! ## Choice (R192, R193) -/

/-- The eligible request of a class with the earliest arrival; the queue is kept in order of arrival. -/
def Cde.eligible (c : Cde) (k : CardClass) : Option Request :=
  c.requests.find? fun r => decide (r.state = .queued) && decide (r.work.cardClass = k)

def CardClass.other : CardClass → CardClass
  | .shot => .transfer
  | .transfer => .shot

/-- The request the policy chooses (R193). -/
def Cde.choice (c : Cde) : Option Request :=
  let first : CardClass := match c.policy with
    | .fixed => .transfer
    | .rotating => c.lastClass.other
  (c.eligible first).or (c.eligible first.other)

/-- If the card is READY, the queue not HALTED and no request ACTIVE, one eligible request is chosen and activated (R192). -/
def Part.choose (p : Part) : Part :=
  if p.cde.card = .ready ∧ p.cde.halted = none ∧ p.cde.activeRequest = none ∧ !p.cdeStopping then
    match p.cde.choice with
    | none => p
    | some r => p.activate r.id
  else p

/-- Work that changes the queue, with the choice that follows it (R192): one choice, over the queue as all of the work has
left it. Work that leaves the queue as it was brings no choice. -/
def Part.choosing (work : Part → Part) (p : Part) : Part :=
  let q := work p
  if q.cde.requests = p.cde.requests then q else q.choose

/-! ## The end of a request (R198, R203, R205) -/

/-- CARD_REQUEST_DONE: id, outcome, sectors done. -/
def Part.requestDone (r : Request) (cancelled : Bool) (done : Nat) (p : Part) : Part :=
  p.emit .cardRequestDone r.shot [natWord r.id, flagWord cancelled, natWord done]

/-- A request completes (R198). CARD_REQUEST_DONE stands in the ring before the SLOT_RELEASED of an auto-release: a DESIGN CHOICE,
since R198 allows either order (log entry 38). -/
def Part.completeRequest (r : Request) (p : Part) : Part :=
  let q := match r.work with
    | .store n _ =>
      (p.setShotState n .stored).modProgress n fun g =>
        { g with storeCount := g.storeCount + 1, sectorsStored := r.done, pendingStore := none }
    | _ => p
  let q := ((q.dropRequest r.id).setRun none).requestDone r false r.done
  let q : Part := { q with cde := { q.cde with lastClass := r.work.cardClass } }
  let q := match r.work with
    | .store n _ => q.autoRelease n
    | _ => q
  q.choose

/-- A request is removed with outcome CANCELLED; a STORE's shot leaves STORING, and auto-release is tested (R203). The choice
that may follow is the caller's (R192). -/
def Part.cancelRequest (r : Request) (done : Nat) (p : Part) : Part :=
  let q := p.dropRequest r.id
  let q := match r.work with
    | .store n _ => (q.leaveStoring n).modProgress n fun g => { g with pendingStore := none }
    | _ => q
  let q := q.requestDone r true done
  match r.work with
  | .store n _ => q.autoRelease n
  | _ => q

/-- The CDE has stopped for RESET_SHOTS once its run, its list reads and its buffer writes have ended: the queue is emptied
(R205). -/
def Part.checkCdeStop (p : Part) : Part :=
  if p.cdeStopping && p.cde.run.isNone && p.cde.listReads.isEmpty && p.cde.bufWrites.isEmpty then
    let count := p.cde.requests.length
    Part.statusDirty
      { p with
        cde := { p.cde with requests := [] }
        cpa := { p.cpa with resetting := p.cpa.resetting.map fun r => { r with cde := true, requests := count } } }
  else p

/-- The request with a run's progress (R197): sectors done, extent and sector, CRC, retries. -/
def Request.advance (r : Request) (run : Run) : Request :=
  let sector := r.sector + run.count
  let past := match r.work.extents[r.extent]? with
    | none => false
    | some e => Nat.ble e.2 sector
  { r with
    done := r.done + run.count, extent := if past then r.extent + 1 else r.extent, sector := if past then 0 else sector
    crc := if r.work.isStore then run.crc else r.crc, retries := 0 }

/-- The run is confirmed (R197, R198, R203): progress, then completion, the pending cancellation, or the next run. While the
CDE is stopping nothing follows it (R205; DEDUCED, log entry 22). -/
def Part.confirmRun (p : Part) : Part :=
  match p.cde.run, p.cde.activeRequest with
  | some run, some r =>
    let a := r.advance run
    let q := (p.setRun none).modRequest r.id fun x => x.advance run
    let q := match r.work with
      | .store n _ => q.modProgress n fun g => { g with sectorsStored := a.done }
      | _ => q
    if q.cdeStopping then q.checkCdeStop
    else if a.work.extents.length ≤ a.extent then q.completeRequest a
    else if a.cancel then (q.cancelRequest a a.done).choose
    else q.startRun r.id
  | _, _ => p

/-- The first failure outcome of an attempt: the CDE sends the stop command for the cleanup (R188). -/
def Part.failRun (cause : Cause) (run : Run) (p : Part) : Part := p.runCommand (.cleanupCommand cause) run

/-- RUN_ATTEMPT_FAILED (R200, R203, R205): retried, cancelled, or halted. -/
def Part.runAttemptFailed (p : Part) : Part :=
  match p.cde.run, p.cde.activeRequest with
  | some run, some r =>
    match run.phase with
    | .failed cause =>
      if p.cdeStopping then (p.setRun none).checkCdeStop
      else if r.cancel then ((p.setRun none).cancelRequest r r.done).choose
      else if r.retries < Config.maxRetries then
        ((p.setRun none).modRequest r.id fun x => { x with retries := x.retries + 1 }).startRun r.id
      else p.haltRequest r.id cause
    | _ => p
  | _, _ => p

/-! ## Memory traffic of the CDE (R190, R197, R199) -/

/-- The beats an extent list of `count` entries takes. -/
def listBytes (count : Nat) : Nat := (8 * count + 15) / 16 * 16

/-- The extent list still being read, if any. -/
def Cde.openList (c : Cde) : Option ListRead := c.listReads.find? fun l => Nat.blt l.got.length (listBytes l.count)

/-- The burst the CDE presents: an extent list first, then blocks for a buffer, then the run's source (DESIGN CHOICE, log entry 21). -/
def Cde.request (c : Cde) : Option Access :=
  match c.openList with
  | some l =>
    let addr := l.addr + l.got.length
    some (.readOf addr (burstSpan addr (listBytes l.count - l.got.length)))
  | none =>
    match c.bufWrites with
    | (addr, bytes) :: _ => some (.writeOf addr bytes)
    | [] =>
      match c.run with
      | none => none
      | some run =>
        if run.phase = .assemble ∧ run.source < run.sourceEnd then
          some (.readOf run.source (burstSpan run.source (run.sourceEnd - run.source)))
        else none

/-- The first list still being read takes the bytes returned. -/
def growList (bytes : List Byte) : List ListRead → List ListRead
  | [] => []
  | l :: ls => if l.got.length < listBytes l.count then { l with got := l.got ++ bytes } :: ls else l :: growList bytes ls

/-- The run takes the bytes returned, if it still waits for them; with the last of them its data is assembled (R197). -/
def Part.runRead (addr : Nat) (bytes : List Byte) (p : Part) : Part :=
  match p.cde.run, p.cde.activeRequest with
  | some run, some r =>
    if run.phase = .assemble ∧ run.source = addr then
      let run := { run with source := run.source + bytes.length, got := run.got ++ bytes }
      if run.source < run.sourceEnd then p.setRun (some run) else p.runAssembled r run
    else p
  | _, _ => p

/-- A block has been written to the buffer; the last of a READ run confirms it (R188, R199). -/
def Part.bufferWritten (p : Part) : Part :=
  let q : Part := { p with cde := { p.cde with bufWrites := p.cde.bufWrites.tail } }
  match q.cde.run with
  | some run => if run.phase = .storing ∧ q.cde.bufWrites = [] then q.confirmRun else q
  | none => q.checkCdeStop

/-- A burst of the CDE has ended. -/
def Part.cdeBurstDone (write list : Bool) (addr : Nat) (bytes : List Byte) (p : Part) : Part :=
  if write then p.bufferWritten
  else if list then { p with cde := { p.cde with listReads := growList bytes p.cde.listReads } }
  else p.runRead addr bytes

end Sys2Proof.Machine
end

