-- ==== Sys2Proof/Machine/CardEngine.lean ====
section
/-! DEFINITION. The Card Engine: presence, bring-up, card exchanges, STORE and the transfer commands (R182 to R205). -/

namespace Sys2Proof.Machine

/-! ## Presence (R182, R183) -/

/-- CARD_DETECT_TRANSITION (R182). -/
def Part.cardDetectTransition (seated : Bool) (p : Part) : Part :=
  let q : Part := { p with pins := { p.pins with card := seated } }
  if p.phase = .asserted then q
  else if seated = q.cde.seated then { q with cde := { q.cde with detectTimer := none } }
  else if q.cde.detectTimer.isSome then q
  else { q with cde := { q.cde with detectTimer := some ⟨q.now, Config.cardDebounce⟩ } }

/-- CARD_INSERTED (R182). -/
def Part.cardInserted (p : Part) : Part :=
  if !p.cde.seated && timerDue p.cde.detectTimer p.now then
    let q : Part := { p with cde := { p.cde with seated := true, detectTimer := none } }
    if q.cde.card = .absent then q.setCard .present [] else q
  else p

/-- A bring-up ends: its timers stop. CARD_CLK keeps the rate it has when the bring-up fails, is aborted, or the card is removed:
a DESIGN CHOICE, since R185 gives the rates of the steps and of later transfers only (log entry 46). -/
def Part.dropBringup (p : Part) : Part := { p with cde := { p.cde with bringup := none } }

/-- The effects of a removal on a card READY with a request ACTIVE (R183, R201, R203). Blocks of a READ run that had passed their
CRC and are not yet written stay in the CDE's buffer and are still written: a DESIGN CHOICE, since R183 does not say whether
they are dropped (log entry 41). -/
def Part.removalOf (r : Request) (p : Part) : Part :=
  let q := p.setRun none
  let q := if r.cancel then q.cancelRequest r r.done else q.haltRequest r.id .cardAbsent
  q.checkCdeStop

/-- CARD_REMOVAL (R183). -/
def Part.cardRemoval (p : Part) : Part :=
  if p.cde.seated && timerDue p.cde.detectTimer p.now then
    let q : Part := { p with cde := { p.cde with seated := false, detectTimer := none } }
    let q := q.setCard .absent []
    match q.cde.bringup with
    | some b => q.dropBringup.fail b.slot (if b.aborting then .aborted else .noCard) [natWord b.step.code]
    | none =>
      match q.cde.activeRequest with
      | some r => q.removalOf r
      | none => q
  else p

/-! ## Bring-up (R184 to R187) -/

/-- Kinds of bring-up failure, in the order of R186. -/
inductive BringFailure | timeout | responseError | echo | range | notPoweredUp | noCapacity
deriving DecidableEq, Repr

def BringFailure.code (f : BringFailure) : Nat := f.ctorIdx

/-- CARD_INIT (R184). -/
def cmdCardInit (n : Fin 8) (args : List Word) (p : Part) : Part :=
  match cardPolicyOf (argNat args 0) with
  | none => p.refuse n .badArg []
  | some policy =>
    if p.cde.card = .absent then p.refuse n .noCard []
    else if p.cde.card = .initializing then p.refuse n .busy []
    else
      match if p.cde.card = .ready then p.cde.activeRequest else none with
      | some r => p.refuse n .busy [natWord r.id]
      | none =>
        let b : Bringup := ⟨n, .reset, some ⟨p.now, Config.cardResetWait⟩, none, none, 0, false⟩
        let q : Part := { p with cde := { p.cde with policy := policy, clock := .slow, bringup := some b } }
        q.setCard .initializing []

/-- The bring-up stops for an ABORT: the card is PRESENT (R187). CARD_STATE's record becomes due before CARD_INIT's result data: a
DESIGN CHOICE, since the two may fall in either order (spec/02, the worked example of an ABORT; log entry 43). -/
def Part.bringupAborted (b : Bringup) (p : Part) : Part :=
  (p.dropBringup.setCard .present []).fail b.slot .aborted [natWord b.step.code]

/-- The bring-up fails at its step: the card is FAULT (R186). CARD_STATE's record becomes due before the result (log entry 43). -/
def Part.bringupFailed (b : Bringup) (f : BringFailure) (p : Part) : Part :=
  if b.aborting then p.bringupAborted b
  else (p.dropBringup.setCard .fault [natWord b.step.code]).fail b.slot .notReady [natWord b.step.code, natWord f.code]

/-- The next exchange's command is sent at a time. Step 6 clocks the card at 24 MHz (R185). -/
def Part.bringupSend (b : Bringup) (s : BringStep) (at_ : Word) (p : Part) : Part :=
  let b' : Bringup :=
    { b with
      step := s, response := some ⟨at_, Config.cardResponseTime⟩
      wait := if s = .query then some ⟨at_, Config.cardPollPeriod⟩ else none
      powerUp :=
        if s = .query then (if b.powerUp.isSome then b.powerUp else some ⟨at_, Config.cardPowerUp⟩) else none }
  { p with
    cde := { p.cde with bringup := some b', clock := if s = .blockLength then .fast else p.cde.clock } }

/-- The bring-up passes step 6 (R186). -/
def Part.bringupReady (b : Bringup) (p : Part) : Part :=
  let q : Part := { p with cde := { p.cde with bringup := none, capacity := some b.sectors } }
  let q := q.setCard .ready []
  (q.done b.slot (natWords2 b.sectors ++ [natWord q.cde.policy.code, natWord q.cde.requests.length])).choose

/-- A response of the bring-up has come in time: judged by its exchange, and the next one is begun (R185, R188).
A condition response whose echo differs and that also reports the range unsupported is reported as ECHO: a DESIGN CHOICE, since
R185 does not say which kind it is (log entry 51). -/
def Part.bringupResponse (b : Bringup) (r : CardReply) (p : Part) : Part :=
  if b.aborting then p.bringupAborted b
  else
    match r with
    | .bad => p.bringupFailed b .responseError
    | .good echo range powered sectors =>
      match b.step with
      | .reset => p
      | .condition =>
        if !echo then p.bringupFailed b .echo
        else if !range then p.bringupFailed b .range
        else p.bringupSend b .query p.now
      | .query =>
        if powered then p.bringupSend b .identity p.now
        else { p with cde := { p.cde with bringup := some { b with response := none } } }
      | .identity => p.bringupSend b .address p.now
      | .address => p.bringupSend b .capacity p.now
      | .capacity =>
        if sectors = 0 then p.bringupFailed b .noCapacity
        else p.bringupSend { b with sectors := min sectors 4294967296 } .select p.now
      | .select => p.bringupSend b .width p.now
      | .width => p.bringupSend b .blockLength p.now
      | .blockLength => p.bringupReady b

/-- CARD_RESET_WAIT_EXPIRY (R185). -/
def Part.cardResetWaitExpiry (p : Part) : Part :=
  match p.cde.bringup with
  | none => p
  | some b =>
    match b.step, b.wait with
    | .reset, some t =>
      if t.due p.now then if b.aborting then p.bringupAborted b else p.bringupSend b .condition t.expiry else p
    | _, _ => p

/-- POWER_UP_POLL_TIMER (R185): the query is sent again once its exchange has ended. -/
def Part.powerUpPollTimer (p : Part) : Part :=
  match p.cde.bringup with
  | none => p
  | some b => if b.step = .query ∧ b.response = none ∧ timerDue b.wait p.now then p.bringupSend b .query p.now else p

/-- POWER_UP_TIMEOUT (R185). While an ABORT waits for the query's exchange (R187) the timeout ends the bring-up at once, as
aborted: a DESIGN CHOICE, since R187 waits for the exchange and R185 ends a failing step at once (log entry 40). -/
def Part.powerUpTimeout (p : Part) : Part :=
  match p.cde.bringup with
  | none => p
  | some b => if b.step = .query ∧ timerDue b.powerUp p.now then p.bringupFailed b .notPoweredUp else p

/-- ABORT of the CARD_INIT in flight: the bring-up stops when the exchange in progress has ended, at once if there is none
(R24, R187). -/
def Part.abortBringup (p : Part) : Part :=
  match p.cde.bringup with
  | none => p
  | some b =>
    if b.step = .query ∧ b.response = none then p.bringupAborted b
    else { p with cde := { p.cde with bringup := some { b with aborting := true } } }

/-! ## The card exchange in a run (R188) -/

/-- The run moves to a phase that waits for the card. -/
def Part.runPhase (ph : RunPhase) (wait : Nat) (run : Run) (p : Part) : Part :=
  p.setRun (some { run with phase := ph, timer := some ⟨p.now, wait⟩ })

def Part.isRead (p : Part) : Bool :=
  match p.cde.activeRequest with
  | none => false
  | some r =>
    match r.work with
    | .read _ _ _ => true
    | _ => false

/-- A response in a run (R188). -/
def Part.runResponse (run : Run) (good : Bool) (p : Part) : Part :=
  match run.phase with
  | .startCommand =>
    if !good then p.failRun .responseError run
    else if p.isRead then p.runPhase (.readBlock 0) Config.cardResponseTime run
    else p.runPhase (.blockStatus 0) Config.cardResponseTime run
  | .stopCommand =>
    if !good then p.failRun .responseError run
    else if p.isRead then
      let q := p.setRun (some { run with phase := .storing, timer := none })
      if p.cde.bufWrites = [] then q.confirmRun else q
    else p.runPhase .stopBusy Config.cardBusyTime run
  | .cleanupCommand cause => p.runPhase (.cleanupBusy cause) Config.cardBusyTime run
  | _ => p

def replyGood : CardReply → Bool
  | .good _ _ _ _ => true
  | .bad => false

/-- CARD_RESPONSE (R188). -/
def Part.cardResponse (r : CardReply) (p : Part) : Part :=
  match p.cde.bringup with
  | some b => if b.response.isSome then p.bringupResponse b r else p
  | none =>
    match p.cde.run with
    | none => p
    | some run => p.runResponse run (replyGood r)

/-- CARD_RESPONSE_TIMEOUT (R188): no response, or no data status, within 100 ms. -/
def Part.cardResponseTimeout (p : Part) : Part :=
  match p.cde.bringup with
  | some b => if timerDue b.response p.now then p.bringupFailed b .timeout else p
  | none =>
    match p.cde.run with
    | none => p
    | some run =>
      if timerDue run.timer p.now then
        match run.phase with
        | .startCommand | .stopCommand | .blockStatus _ => p.failRun .responseTimeout run
        | .cleanupCommand cause => p.runPhase (.cleanupBusy cause) Config.cardBusyTime run
        | _ => p
      else p

/-- CARD_DATA_STATUS (R188). -/
def Part.cardDataStatus (st : BlockStatus) (p : Part) : Part :=
  match p.cde.run with
  | none => p
  | some run =>
    match run.phase with
    | .blockStatus k =>
      match st with
      | .accepted => p.runPhase (.blockBusy k) Config.cardBusyTime run
      | .crcError => p.failRun .dataCrc run
      | .writeError => p.failRun .writeError run
    | _ => p

/-- CARD_BUSY_END (R188): the next block, the stop command, the confirmation, or the end of the cleanup. -/
def Part.cardBusyEnd (p : Part) : Part :=
  match p.cde.run with
  | none => p
  | some run =>
    match run.phase with
    | .blockBusy k =>
      if k + 1 < run.count then p.runPhase (.blockStatus (k + 1)) Config.cardResponseTime run else p.runCommand .stopCommand run
    | .stopBusy => p.confirmRun
    | .cleanupBusy cause => p.setRun (some { run with phase := .failed cause, timer := none })
    | _ => p

/-- CARD_BUSY_TIMEOUT (R188). -/
def Part.cardBusyTimeout (p : Part) : Part :=
  match p.cde.run with
  | none => p
  | some run =>
    if timerDue run.timer p.now then
      match run.phase with
      | .blockBusy _ | .stopBusy => p.failRun .busyTimeout run
      | .cleanupBusy cause => p.setRun (some { run with phase := .failed cause, timer := none })
      | _ => p
    else p

/-- The buffer address of block k of the run in flight (R199). -/
def Request.blockAddr (r : Request) (k : Nat) : Nat :=
  match r.work with
  | .read _ _ buffer => buffer + (r.done + k) * 512
  | _ => 0

/-- CARD_READ_BLOCK (R188, R199): a block that passes its CRC goes to the buffer. -/
def Part.cardReadBlock (crcGood : Bool) (data : List Byte) (p : Part) : Part :=
  match p.cde.run, p.cde.activeRequest with
  | some run, some r =>
    match run.phase with
    | .readBlock k =>
      if crcGood then
        let q : Part := { p with cde := { p.cde with bufWrites := p.cde.bufWrites ++ cutBursts 4 (r.blockAddr k) data } }
        if k + 1 < run.count then q.runPhase (.readBlock (k + 1)) Config.cardResponseTime run else q.runCommand .stopCommand run
      else p.failRun .dataCrc run
    | _ => p
  | _, _ => p

/-- CARD_DATA_TIMEOUT (R188). -/
def Part.cardDataTimeout (p : Part) : Part :=
  match p.cde.run with
  | none => p
  | some run =>
    match run.phase with
    | .readBlock _ => if timerDue run.timer p.now then p.failRun .dataTimeout run else p
    | _ => p

/-! ## STORE (R190) -/

/-- STORE: the arguments are checked and the read of the extent list begins. -/
def cmdStore (n : Fin 8) (args : List Word) (p : Part) : Part :=
  let addr := argAddr args 1
  let count := argNat args 3
  if count < 1 ∨ 32 < count then p.refuse n .badArg []
  else if addr % 16 ≠ 0 ∨ !p.pts.inPass addr (8 * count) then p.refuse n .badBuffer []
  else { p with cde := { p.cde with listReads := p.cde.listReads ++ [⟨n, argWord args 0, addr, count, []⟩] } }

/-- The extents that list bytes hold: start sector, then sector count (R215). -/
def extentsOf (count : Nat) (bytes : List Byte) : List (Nat × Nat) :=
  (List.range count).map fun i => (leNat (slice (8 * i) 4 bytes), leNat (slice (8 * i + 4) 4 bytes))

def extentsOverlap (a b : Nat × Nat) : Bool := Nat.blt a.1 (b.1 + b.2) && Nat.blt b.1 (a.1 + a.2)

/-- The first extent that is empty, leaves the sector numbers, or shares a sector with one before it (R190 check 6). Of two that
overlap the later one is named: a DESIGN CHOICE, since R190 does not say which fails first (log entry 37). -/
def firstBadExtent : List (Nat × Nat) → List (Nat × Nat) → Nat → Option Nat
  | _, [], _ => none
  | before, e :: es, i =>
    if e.2 = 0 ∨ 4294967296 < e.1 + e.2 ∨ before.any (extentsOverlap e) then some i
    else firstBadExtent (before ++ [e]) es (i + 1)

/-- Checks 6 and 7 of R190: the refusal. BAD_EXTENTS gives the first failing extent's index, or the sum and the required sum, in three
words, those not used zero (R215). The sum is written as one word, its low 32 bits: a DESIGN CHOICE for the one sum that does
not fit, 2^32 of extents that cover every sector, for which R215 gives no encoding (log entry 47). -/
def Part.extentsUnfit (es : List (Nat × Nat)) (p : Part) : Option (ResultCode × List Word) :=
  let sum := (es.map Prod.snd).sum
  let needed := p.geo.fileSectors
  match firstBadExtent [] es 0 with
  | some i => some (.badExtents, [natWord i, 0, 0])
  | none =>
    if sum ≠ needed then some (.badExtents, [0, natWord sum, natWord needed])
    else if p.cde.card = .ready then
      let capacity := p.cde.capacity.getD 0
      (es.findIdx? fun e => Nat.blt capacity (e.1 + e.2)).map fun i => (.outOfRange, natWord i :: natWords2 capacity)
    else none

/-- The remaining checks and the acceptance of a STORE (R190). The status write stands before the result data: a DESIGN CHOICE (log
entry 43). -/
def Part.acceptStore (l : ListRead) (p : Part) : Part :=
  if Config.cardQueuePlaces ≤ p.cde.requests.length then p.refuse l.slot .queueFull []
  else
    match p.keptShot? l.shot with
    | none => p.refuse l.slot .notFound []
    | some t =>
      match p.requestFor l.shot with
      | some r => p.refuse l.slot .alreadyQueued [natWord r.id]
      | none =>
        let es := extentsOf l.count l.got
        match p.extentsUnfit es with
        | some (code, data) => p.refuse l.slot code data
        | none =>
          let id := p.cde.nextId
          let st : RequestState := if t.state.undeveloped then .waiting else .queued
          let q := (p.addRequest (.store l.shot es) st).modProgress l.shot fun g => { g with pendingStore := some id }
          (q.done l.slot [natWord id, natWord st.code, natWord q.cde.requests.length]).choose

/-- EXTENT_LIST_READ (R190, R205): the list at the head has been read. -/
def Part.extentListRead (p : Part) : Part :=
  match p.cde.listReads with
  | [] => p
  | l :: rest =>
    if l.got.length < listBytes l.count then p
    else
      let q : Part := { p with cde := { p.cde with listReads := rest } }
      if q.cdeStopping then (q.fail l.slot .aborted []).checkCdeStop else q.acceptStore l

/-! ## CARD_WRITE, CARD_READ, CARD_CANCEL, CARD_RESUME (R191, R202, R203) -/

/-- CARD_WRITE and CARD_READ, which differ in the work they make (R191): the checks, and the place in the queue. The
status write stands before the result data: a DESIGN CHOICE (log entry 43). -/
def joinTransfer (work : Nat → Nat → Nat → Work) (n : Fin 8) (args : List Word) (p : Part) : Part :=
  let start := argNat args 0
  let count := argNat args 1
  let buffer := argAddr args 2
  if count < 1 ∨ 65536 < count ∨ 4294967296 < start + count then p.refuse n .badArg []
  else if buffer % 16 ≠ 0 ∨ !p.pts.inPass buffer (count * 512) then p.refuse n .badBuffer []
  else if Config.cardQueuePlaces ≤ p.cde.requests.length then p.refuse n .queueFull []
  else if p.cde.card = .ready ∧ p.cde.capacity.getD 0 < start + count then p.refuse n .outOfRange (natWords2 (p.cde.capacity.getD 0))
  else
    let id := p.cde.nextId
    let q := p.addRequest (work start count buffer) .queued
    q.done n [natWord id, natWord q.cde.requests.length]

/-- CARD_WRITE (R191), and the choice (R192). -/
def cmdCardWrite (n : Fin 8) (args : List Word) : Part → Part := Part.choosing (joinTransfer Work.write n args)

/-- CARD_READ (R191), and the choice (R192). -/
def cmdCardRead (n : Fin 8) (args : List Word) : Part → Part := Part.choosing (joinTransfer Work.read n args)

/-- CARD_CANCEL (R203): a request is marked or taken out of the queue. -/
def cancelById (n : Fin 8) (args : List Word) (p : Part) : Part :=
  match p.cde.requests.find? fun r => decide (r.id = argNat args 0) with
  | none => p.refuse n .notFound []
  | some r =>
    match r.state with
    | .active => (p.modRequest r.id fun x => { x with cancel := true }).done n [1]
    | .halted => (p.cancelRequest r r.done).done n [0]
    | .queued | .waiting => (p.cancelRequest r 0).done n [0]

/-- CARD_CANCEL (R203), and the choice (R192). -/
def cmdCardCancel (n : Fin 8) (args : List Word) : Part → Part := Part.choosing (cancelById n args)

/-- CARD_RESUME (R202). The status write stands before the result data: a DESIGN CHOICE (log entry 43). -/
def cmdCardResume (n : Fin 8) (_ : List Word) (p : Part) : Part :=
  match p.cde.halted with
  | none => p.refuse n .notFound []
  | some r =>
    match p.cde.card with
    | .absent => p.refuse n .noCard []
    | .initializing => p.refuse n .busy []
    | .present | .fault => p.refuse n .notReady [natWord p.cde.card.code]
    | .ready => (((p.modRequest r.id fun x => { x with retries := 0 }).activate r.id).statusDirty).done n [natWord r.id, natWord r.done]

/-! ## Meanings -/

def execCardDetectTransition (seated : Bool) (s : State) : Host.Outcome State Fault Refusal := s.onPart (Part.cardDetectTransition seated)
def execCardInserted (s : State) : Host.Outcome State Fault Refusal := s.onPart Part.cardInserted
def execCardRemoval (s : State) : Host.Outcome State Fault Refusal := s.onPart Part.cardRemoval
def execCardInit (w : SlotWrite) (s : State) : Host.Outcome State Fault Refusal := s.onPart (Part.hostVerb .cardInit cmdCardInit w)
def execCardResetWaitExpiry (s : State) : Host.Outcome State Fault Refusal := s.onPart Part.cardResetWaitExpiry
def execPowerUpPollTimer (s : State) : Host.Outcome State Fault Refusal := s.onPart Part.powerUpPollTimer
def execPowerUpTimeout (s : State) : Host.Outcome State Fault Refusal := s.onPart Part.powerUpTimeout
def execCardResponse (r : CardReply) (s : State) : Host.Outcome State Fault Refusal := s.onPart (Part.cardResponse r)
def execCardResponseTimeout (s : State) : Host.Outcome State Fault Refusal := s.onPart Part.cardResponseTimeout
def execCardDataStatus (st : BlockStatus) (s : State) : Host.Outcome State Fault Refusal := s.onPart (Part.cardDataStatus st)
def execCardBusyEnd (s : State) : Host.Outcome State Fault Refusal := s.onPart Part.cardBusyEnd
def execCardBusyTimeout (s : State) : Host.Outcome State Fault Refusal := s.onPart Part.cardBusyTimeout
def execCardReadBlock (crcGood : Bool) (data : List Byte) (s : State) : Host.Outcome State Fault Refusal :=
  s.onPart (Part.cardReadBlock crcGood data)
def execCardDataTimeout (s : State) : Host.Outcome State Fault Refusal := s.onPart Part.cardDataTimeout
def execRunAttemptFailed (s : State) : Host.Outcome State Fault Refusal := s.onPart Part.runAttemptFailed
def execStore (w : SlotWrite) (s : State) : Host.Outcome State Fault Refusal := s.onPart (Part.hostVerb .store cmdStore w)
def execExtentListRead (s : State) : Host.Outcome State Fault Refusal := s.onPart Part.extentListRead
def execCardWrite (w : SlotWrite) (s : State) : Host.Outcome State Fault Refusal := s.onPart (Part.hostVerb .cardWrite cmdCardWrite w)
def execCardRead (w : SlotWrite) (s : State) : Host.Outcome State Fault Refusal := s.onPart (Part.hostVerb .cardRead cmdCardRead w)
def execCardCancel (w : SlotWrite) (s : State) : Host.Outcome State Fault Refusal := s.onPart (Part.hostVerb .cardCancel cmdCardCancel w)
def execCardResume (w : SlotWrite) (s : State) : Host.Outcome State Fault Refusal := s.onPart (Part.hostVerb .cardResume cmdCardResume w)

end Sys2Proof.Machine
end

