-- ==== Sys2Proof/Machine/Bundle.lean ====
section
/-! DEFINITION. The bundle: its header and section table, the checks of its sections, and the tables it carries (R51 to R53, R219). -/

namespace Sys2Proof.Machine

/-- Reasons of BUNDLE_FORMAT, in code order (R216). -/
inductive FormatReason
  | magic | version | length | count | kind | duplicate | placement | overlap | noGeometry | black | threshold | gain | position
  | order | factor | curve
deriving DecidableEq, Repr

def FormatReason.code (r : FormatReason) : Nat := r.ctorIdx

/-- An entry of the section table, its kind as written (R219). -/
structure SectionEntry where
  kind : Nat
  offset : Nat
  length : Nat
deriving DecidableEq, Repr

/-- The little-endian number of `n` bytes at an offset. -/
def fieldAt (bytes : List Byte) (off n : Nat) : Nat := leNat (slice off n bytes)

def sectionEntry (bytes : List Byte) (n : Nat) : SectionEntry :=
  ⟨fieldAt bytes (16 + 16 * n) 2, fieldAt bytes (16 + 16 * n + 4) 4, fieldAt bytes (16 + 16 * n + 8) 4⟩

/-- The section table (R219). -/
def sectionTable (bytes : List Byte) : List SectionEntry := (List.range (fieldAt bytes 6 2)).map (sectionEntry bytes)

/-- The kind an entry names, if any. -/
def SectionEntry.kind? (e : SectionEntry) : Option SectionKind := sectionKindOf e.kind

/-- The index of the first element that fails a condition given the elements before it. -/
def firstFailing {α : Type} (bad : List α → α → Bool) : List α → List α → Nat → Option Nat
  | _, [], _ => none
  | before, x :: xs, i => if bad before x then some i else firstFailing bad (before ++ [x]) xs (i + 1)

def firstBad {α : Type} (bad : List α → α → Bool) (xs : List α) : Option Nat := firstFailing bad [] xs 0

/-- A section does not lie in the body as it must (R51). -/
def SectionEntry.misplaced (count total : Nat) (e : SectionEntry) : Bool :=
  e.length == 0 || e.offset % 4 != 0 || Nat.blt e.offset (16 + 16 * count) || Nat.blt (total - 4) (e.offset + e.length)

def SectionEntry.overlaps (a b : SectionEntry) : Bool := Nat.blt a.offset (b.offset + b.length) && Nat.blt b.offset (a.offset + a.length)

/-- Check 2: the first condition of the header and section table that fails, with an entry's index (R51). R51 leaves open, and the
model chooses (DESIGN CHOICES, log entry 37): the fifth condition is reported as COUNT; each condition is tested over the whole
table before the next; of a duplicate or overlapping pair the later entry is the failing one. -/
def headerFault (declared : Nat) (bytes : List Byte) : Option (FormatReason × Option Nat) :=
  let total := fieldAt bytes 8 4
  let count := fieldAt bytes 6 2
  if fieldAt bytes 0 4 ≠ 0x4B424C31 then some (.magic, none)
  else if fieldAt bytes 4 2 ≠ 1 then some (.version, none)
  else if total ≠ declared then some (.length, none)
  else if count < 1 ∨ 8 < count ∨ total < 16 + 16 * count + 4 then some (.count, none)
  else
    let table := sectionTable bytes
    match firstBad (fun _ e => e.kind?.isNone) table with
    | some i => some (.kind, some i)
    | none =>
      match firstBad (fun before e => before.any fun x => x.kind == e.kind) table with
      | some i => some (.duplicate, some i)
      | none =>
        match firstBad (fun _ e => e.misplaced count total) table with
        | some i => some (.placement, some i)
        | none =>
          match firstBad (fun before e => before.any fun x => x.overlaps e) table with
          | some i => some (.overlap, some i)
          | none => none

/-! ## Section contents -/

/-- Consecutive pairs of 16-bit values. -/
def pairsOf : List Nat → List (Nat × Nat)
  | a :: b :: rest => (a, b) :: pairsOf rest
  | _ => []

def triplesOf : List Nat → List (Nat × Nat × Nat)
  | a :: b :: c :: rest => (a, b, c) :: triplesOf rest
  | _ => []

/-- The list cut into pieces of n, `count` of them. -/
def chunksOf {α : Type} (n : Nat) : Nat → List α → List (List α)
  | 0, _ => []
  | count + 1, l => l.take n :: chunksOf n count (l.drop n)

/-- A section with a count: the count and the 16-bit values after it. -/
def countOf (bytes : List Byte) : Nat := fieldAt bytes 0 4

def valuesOf (bytes : List Byte) : List Nat := bytesHalves (bytes.drop 4)

/-- Each value is above the one before it. -/
def ascending : List Nat → Bool
  | a :: b :: rest => Nat.blt a b && ascending (b :: rest)
  | _ => true

/-- No value is below the one before it. -/
def nonDecreasing : List Nat → Bool
  | a :: b :: rest => Nat.ble a b && nonDecreasing (b :: rest)
  | _ => true

/-- Strictly ascending by y, then by x within one y. -/
def scanOrder : List (Nat × Nat) → Bool
  | a :: b :: rest => (Nat.blt a.2 b.2 || (a.2 == b.2 && Nat.blt a.1 b.1)) && scanOrder (b :: rest)
  | _ => true

/-- A section with a count has another length than its content requires, or a count outside its range (R53). -/
def countFault (bytes : List Byte) (entry least most : Nat) : Option FormatReason :=
  if bytes.length ≠ 4 + entry * countOf bytes then some .length
  else if countOf bytes < least ∨ most < countOf bytes then some .count
  else none

/-- The largest saturation threshold: from the depth of the geometry, 65535 without one (R53). -/
def thresholdLimit (g : Option Geometry) : Nat :=
  match g with
  | none => 65535
  | some g => 2 ^ g.depth - 1

def inRange (lo hi v : Nat) : Bool := Nat.ble lo v && Nat.ble v hi

/-- The first rule of a section's kind that it breaks (R53). -/
def sectionFault (g : Option Geometry) (k : SectionKind) (bytes : List Byte) : Option FormatReason :=
  match k with
  | .blackSat =>
    if bytes.length ≠ 32 then some .length
    else
      let ps := pairsOf (bytesHalves bytes)
      if !ps.all (fun e => inRange 0 4095 e.1) then some .black
      else if !ps.all (fun e => inRange (e.1 + 256) (thresholdLimit g) e.2) then some .threshold
      else none
  | .gainGrid =>
    if bytes.length ≠ 6144 then some .length
    else if !(bytesHalves bytes).all (inRange 2048 16383) then some .gain
    else none
  | .defects =>
    match countFault bytes 4 0 4096 with
    | some r => some r
    | none =>
      match g with
      | none => some .noGeometry
      | some g =>
        let ps := pairsOf (valuesOf bytes)
        if !ps.all (fun e => Nat.blt e.1 g.width && Nat.blt e.2 g.height) then some .position
        else if !scanOrder ps then some .order
        else none
  | .columns =>
    match countFault bytes 2 0 64 with
    | some r => some r
    | none =>
      match g with
      | none => some .noGeometry
      | some g =>
        let xs := valuesOf bytes
        if !xs.all (fun x => Nat.blt x g.width) then some .position
        else if !ascending xs then some .order
        else none
  | .darkTemp =>
    if bytes.length ≠ 34 then some .length
    else if !(bytesHalves bytes).all (inRange 8192 32767) then some .factor
    else none
  | .tone =>
    match countFault bytes 1024 1 4 with
    | some r => some r
    | none =>
      let curves := chunksOf 1024 (countOf bytes) ((bytes.drop 4).map BitVec.toNat)
      if !curves.all nonDecreasing then some .curve else none
  | .wb =>
    match countFault bytes 6 1 8 with
    | some r => some r
    | none => if !(valuesOf bytes).all (inRange 2048 16383) then some .gain else none

/-- A table replaced whole by a section of its kind (R55, R219). -/
def Tables.replace (t : Tables) (k : SectionKind) (bytes : List Byte) : Tables :=
  match k with
  | .blackSat => { t with blackSat := some (pairsOf (bytesHalves bytes)) }
  | .gainGrid => { t with gainGrid := some (bytesHalves bytes) }
  | .defects => { t with defects := pairsOf (valuesOf bytes) }
  | .columns => { t with columns := valuesOf bytes }
  | .darkTemp => { t with darkTemp := some (bytesHalves bytes) }
  | .tone => { t with tone := chunksOf 1024 (countOf bytes) ((bytes.drop 4).map BitVec.toNat) }
  | .wb => { t with wb := triplesOf (valuesOf bytes) }

/-- The factory kinds (R41). -/
def SectionKind.factory : SectionKind → Bool
  | .tone | .wb => false
  | _ => true

def Committed.has (c : Committed) : SectionKind → Bool
  | .blackSat => c.blackSat
  | .gainGrid => c.gainGrid
  | .defects => c.defects
  | .columns => c.columns
  | .darkTemp => c.darkTemp
  | _ => false

/-- The flag of a factory kind is set when a section of it commits (R42, R55). -/
def Committed.commit (c : Committed) : SectionKind → Committed
  | .blackSat => { c with blackSat := true }
  | .gainGrid => { c with gainGrid := true }
  | .defects => { c with defects := true }
  | .columns => { c with columns := true }
  | .darkTemp => { c with darkTemp := true }
  | _ => c

/-- The set of committed factory kinds as one word, in the order of R41's table (R42, R215). -/
def Committed.word (c : Committed) : Word :=
  natWord (bitIf c.blackSat 0 + bitIf c.gainGrid 1 + bitIf c.defects 2 + bitIf c.columns 3 + bitIf c.darkTemp 4)

/-- A section of a bundle that has passed check 2: its index, kind and bytes. -/
structure BundleSection where
  index : Nat
  kind : SectionKind
  bytes : List Byte
deriving DecidableEq, Repr

def sectionsFrom (bytes : List Byte) : Nat → List SectionEntry → List BundleSection
  | _, [] => []
  | i, e :: es =>
    match e.kind? with
    | none => sectionsFrom bytes (i + 1) es
    | some k => ⟨i, k, slice e.offset e.length bytes⟩ :: sectionsFrom bytes (i + 1) es

def bundleSections (bytes : List Byte) : List BundleSection := sectionsFrom bytes 0 (sectionTable bytes)

/-- The first section that breaks its rules (R53). -/
def sectionsFault (g : Option Geometry) : List BundleSection → Option (Nat × FormatReason)
  | [] => none
  | s :: ss =>
    match sectionFault g s.kind s.bytes with
    | some r => some (s.index, r)
    | none => sectionsFault g ss

end Sys2Proof.Machine
end

