-- ==== Sys2Proof/Machine/PtsOps.lean ====
section
/-! DEFINITION. The head burst of the upstream queue and its answer (R1, R2). -/

namespace Sys2Proof.Machine

def Burst.bytes (b : Burst) : Nat := 16 * b.beats

/-- The head burst and how it was classified. -/
def Part.headBurst (p : Part) : Option (Burst × Head) :=
  match p.pts.queue, p.pts.head with
  | b :: _, some h => some (b, h)
  | _, _ => none

/-- The head burst is answered and leaves the queue (R1, R2). -/
def Part.answer (okay : Bool) (data : List Byte) (p : Part) : Part :=
  { p with pts := { p.pts with answer := some ⟨okay, data⟩, queue := p.pts.queue.tail, head := none } }

/-- ERROR: a read returns as many beats as it asked for, every byte zero (R2). -/
def Part.answerError (b : Burst) (p : Part) : Part := p.answer false (if b.write then [] else List.replicate (Burst.bytes b) 0)

def Part.setHead (h : Head) (p : Part) : Part := { p with pts := { p.pts with head := some h } }

/-- A byte address in two words (R215). -/
def addrWords (a : Nat) : List Word := natWords2 a

end Sys2Proof.Machine
end

