-- ==== Sys2Proof/Machine/Calibration.lean ====
section
/-! DEFINITION. The Calibration Store: the load session, its writes, the checks of LOAD_CLOSE and the commit (R44 to R57). -/

namespace Sys2Proof.Machine

/-! ## The session (R44 to R49) -/

/-- The inactivity timer at its full length. -/
def Part.loadTimer (p : Part) : Option Timer := some ⟨p.now, p.cal.timeout * 100000⟩

/-- LOAD_OPEN (R44). -/
def cmdLoadOpen (n : Fin 8) (args : List Word) (p : Part) : Part :=
  let declared := argNat args 0
  let timeout := clampNat 1 63 (argNat args 1)
  if declared < 64 ∨ 1048576 < declared ∨ declared % 16 ≠ 0 then p.refuse n .badArg [0]
  else if (p.pts.windowOf .bundle).isNone then p.refuse n .notReady [4]
  else if p.cal.session = .closing then p.refuse n .busy []
  else
    let q : Part :=
      { p with cal := { p.cal with session := .open_, declared := declared, timeout := timeout, pointer := 0, overrun := false } }
    Part.doneOr n (timeout != argNat args 1) [natWord declared, natWord timeout, p.cal.committed.word]
      { q with cal := { q.cal with timer := q.loadTimer } }

/-- The session ends: NONE, timer stopped, no close in flight. -/
def Part.endSession (p : Part) : Part := { p with cal := { p.cal with session := .none, timer := none, closer := none } }

/-- LOAD_DONE (spec/02, the event table): the outcome, and for a section rule the section's index. -/
def Part.loadDone (code : ResultCode) (index : List Word) (p : Part) : Part := p.emit .loadDone 0 (natWord code.code :: index)

/-- LOAD_TIMEOUT (R48). -/
def Part.loadTimeout (p : Part) : Part :=
  if p.cal.session = .open_ ∧ timerDue p.cal.timer p.now then p.endSession.loadDone .loadTimeout [] else p

/-- LOAD_CANCEL (R49). -/
def cmdLoadCancel (n : Fin 8) (_ : List Word) (p : Part) : Part :=
  match p.cal.session with
  | .none => p.refuse n .noLoad []
  | .closing => p.refuse n .busy []
  | .open_ => p.endSession.done n [natWord p.cal.pointer]

/-- A write burst taken in OPEN: staged at the load pointer, or refused for overrun (R45, R46). -/
def Part.stageBurst (b : Burst) (p : Part) : Part :=
  let q : Part := { p with cal := { p.cal with timer := p.loadTimer } }
  if p.cal.overrun then q.answerError b
  else if p.cal.declared < p.cal.pointer + Burst.bytes b then
    Part.answerError b { q with cal := { q.cal with overrun := true } }
  else
    let staged := p.cal.staged.take p.cal.pointer ++ b.data ++ p.cal.staged.drop (p.cal.pointer + Burst.bytes b)
    Part.answer true [] { q with cal := { q.cal with staged := staged, pointer := p.cal.pointer + Burst.bytes b } }

/-- BUNDLE_WRITE (R45 to R47). -/
def Part.bundleWrite (p : Part) : Part :=
  match p.headBurst with
  | some (b, .bundleWrite) => if p.cal.session = .open_ then p.stageBurst b else p.answerError b
  | _ => p

/-- BUNDLE_READ (R47). -/
def Part.bundleRead (p : Part) : Part :=
  match p.headBurst with
  | some (b, .bundleRead) => p.answerError b
  | _ => p

/-! ## LOAD_CLOSE (R50 to R57) -/

/-- LOAD_CLOSE (R50): the checks begin. -/
def cmdLoadClose (n : Fin 8) (_ : List Word) (p : Part) : Part :=
  match p.cal.session with
  | .none => p.refuse n .noLoad []
  | .closing => p.refuse n .busy []
  | .open_ => { p with cal := { p.cal with session := .closing, timer := none, closer := some n } }

/-- The bytes that belong to the load. -/
def Cal.bundle (c : Cal) : List Byte := c.staged.take c.pointer

/-- How the checks end (R50). -/
inductive CloseResult
  | failed (code : ResultCode) (data event : List Word)
  | busy (data : List Word)
  | commit (sections : List BundleSection)
deriving DecidableEq, Repr

/-- Check 1 (R51). -/
def Cal.sizeFault (c : Cal) : Option CloseResult :=
  if !c.overrun && c.pointer == c.declared then none
  else some (.failed .bundleSize [natWord c.pointer, natWord c.declared, flagWord c.overrun] [])

/-- Check 2 (R51). -/
def Cal.formatFault (c : Cal) : Option CloseResult :=
  (headerFault c.declared c.bundle).map fun (r, i) =>
    .failed .bundleFormat (natWord r.code :: (i.map fun n => natWord n).toList) []

/-- Check 3 (R52). -/
def Cal.crcFault (c : Cal) : Option CloseResult :=
  let body := c.bundle.take (c.declared - 4)
  let trailer := natWord (fieldAt c.bundle (c.declared - 4) 4)
  if crc32 body = trailer then none else some (.failed .bundleCrc [crc32 body, trailer] [])

/-- Check 4 (R53). -/
def Part.sectionCheck (ss : List BundleSection) (p : Part) : Option CloseResult :=
  (sectionsFault p.pts.geometry ss).map fun (i, r) => .failed .bundleFormat [natWord i, natWord r.code] [natWord i]

/-- Check 5 (R54). -/
def Part.lockCheck (ss : List BundleSection) (p : Part) : Option CloseResult :=
  if p.cpa.mode = .service then none
  else
    (ss.find? fun s => s.kind.factory && p.cal.committed.has s.kind).map fun s =>
      .failed .sectionLocked [natWord s.index, natWord s.kind.code] []

/-- The words that name correction work: a shot's number and state, or the dark capture, by the shot it serves (log entry 30);
alternatives take a word each, and those not used are zero (R215). -/
def shotAtWork (t : Shot) : List Word := [t.number, natWord t.state.code, 0]

def captureAtWork (c : Capture) : List Word := [0, 0, c.shot]

/-- Correction work in progress: a shot in READING, AWAIT_DARK or DEVELOPING, or a dark capture, whichever is first in shot number
order (R54, R110). A capture counts with the number of the shot it serves, after that shot's own record (log entry 30). -/
def Part.correctionWork (p : Part) : Option (List Word) :=
  match p.sht.records.find? fun t => t.state.inCorrection, p.dfl.capture with
  | some t, some c => some (if c.shot.toNat < t.number.toNat then captureAtWork c else shotAtWork t)
  | some t, none => some (shotAtWork t)
  | none, some c => some (captureAtWork c)
  | none, none => none

/-- Check 6 (R54). -/
def Part.busyCheck (ss : List BundleSection) (p : Part) : Option CloseResult :=
  if ss.any fun s => s.kind.factory then p.correctionWork.map CloseResult.busy else none

/-- The six checks in order (R50). -/
def Part.closeResult (p : Part) : CloseResult :=
  let ss := bundleSections p.cal.bundle
  match p.cal.sizeFault.or (p.cal.formatFault.or (p.cal.crcFault.or
    ((p.sectionCheck ss).or ((p.lockCheck ss).or (p.busyCheck ss))))) with
  | some r => r
  | none => .commit ss

/-- An index into a table that has been replaced: 0 when it is not below the new count (R170). -/
def indexIn (count i : Nat) : Nat := if i < count then i else 0

/-- The selection checked against the curve and preset counts (R170). -/
def Selection.checked (t : Tables) (v : Selection) : Selection :=
  { v with
    curve := indexIn t.tone.length v.curve
    wb := match v.wb with
      | .preset i => .preset (indexIn t.wb.length i)
      | .direct r g b => .direct r g b }

/-- The CAL tells the PRN that TONE or WB has been replaced: the cache is emptied and the selection checked (R55, R170); the row
being rendered is not kept (R179). -/
def Part.toldTables (p : Part) : Part :=
  { p with
    prn :=
      { selection := p.prn.selection.map (Selection.checked p.cal.tables), cache := none
        work := p.prn.work.map fun w => { w with rendering := w.rendering.map fun r => { r with outdated := true } } } }

/-- The bundle commits: every section replaces its table at one instant (R55). -/
def Part.commitBundle (n : Fin 8) (ss : List BundleSection) (p : Part) : Part :=
  let q : Part :=
    { p with
      cal :=
        { p.cal with
          tables := ss.foldl (fun t s => t.replace s.kind s.bytes) p.cal.tables
          committed := ss.foldl (fun c s => c.commit s.kind) p.cal.committed } }
  let q := q.endSession
  let q := if ss.any fun s => !s.kind.factory then q.toldTables else q
  (q.loadDone .ok []).done n (ss.map (fun s => natWord s.kind.code) ++ [q.cal.committed.word])

/-- LOAD_CHECKS_DONE (R54 to R56). LOAD_DONE's record becomes due before the command's result data: a DESIGN CHOICE, since R54 to
R56 do not order the two (log entry 43). -/
def Part.loadChecksDone (p : Part) : Part :=
  match p.cal.session, p.cal.closer with
  | .closing, some n =>
    match p.closeResult with
    | .failed code data event => (p.endSession.loadDone code event).fail n code data
    | .busy data =>
      let q : Part := { p with cal := { p.cal with session := .open_, closer := none, timer := p.loadTimer } }
      (q.loadDone .busy []).refuse n .busy data
    | .commit ss => p.commitBundle n ss
  | _, _ => p

/-- ABORT of the LOAD_CLOSE in flight, before the commit step (R57). -/
def Part.abortClose (p : Part) : Part :=
  match p.cal.closer with
  | none => p
  | some n => p.endSession.fail n .aborted []

/-- RESET_SHOTS stops the CAL (R57). -/
def Part.stopCal (p : Part) : Part :=
  match p.cal.session with
  | .closing => p.abortClose
  | _ => p.endSession

/-! ## Meanings -/

def execLoadOpen (w : SlotWrite) (s : State) : Host.Outcome State Fault Refusal := s.onPart (Part.hostVerb .loadOpen cmdLoadOpen w)
def execLoadClose (w : SlotWrite) (s : State) : Host.Outcome State Fault Refusal := s.onPart (Part.hostVerb .loadClose cmdLoadClose w)
def execLoadChecksDone (s : State) : Host.Outcome State Fault Refusal := s.onPart Part.loadChecksDone
def execLoadCancel (w : SlotWrite) (s : State) : Host.Outcome State Fault Refusal := s.onPart (Part.hostVerb .loadCancel cmdLoadCancel w)
def execLoadTimeout (s : State) : Host.Outcome State Fault Refusal := s.onPart Part.loadTimeout
def execBundleWrite (s : State) : Host.Outcome State Fault Refusal := s.onPart Part.bundleWrite
def execBundleRead (s : State) : Host.Outcome State Fault Refusal := s.onPart Part.bundleRead

end Sys2Proof.Machine
end

