-- ==== Sys2Proof/Machine/Pixels.lean ====
section
/-! DEFINITION. Pixel arithmetic: the colour filter array, correction, the dark scale factor, defect repair, and preview bytes (R116, R144 to R148, R158 to R163, R176). -/

namespace Sys2Proof.Machine

/-! ## Colour filter array (R145) -/

/-- The channel of pixel (x, y). -/
def channelOf (c : Cfa) (x y : Nat) : Channel :=
  match c, x % 2 == 0, y % 2 == 0 with
  | .rggb, true, true => .r
  | .rggb, false, true => .gr
  | .rggb, true, false => .gb
  | .rggb, false, false => .b
  | .grbg, true, true => .gr
  | .grbg, false, true => .r
  | .grbg, true, false => .b
  | .grbg, false, false => .gb
  | .gbrg, true, true => .gb
  | .gbrg, false, true => .b
  | .gbrg, true, false => .r
  | .gbrg, false, false => .gr
  | .bggr, true, true => .b
  | .bggr, false, true => .gb
  | .bggr, true, false => .gr
  | .bggr, false, false => .r

def Channel.index (c : Channel) : Nat := c.ctorIdx

/-- Where the grid holds the gain of a pixel's zone and channel (R144, R219). -/
def gridIndex (g : Geometry) (x y : Nat) : Nat :=
  (y * 24 / g.height * 32 + x * 32 / g.width) * 4 + (channelOf g.cfa x y).index

/-! ## Correction (R146 to R148) -/

/-- What corrects a pixel, but for its gain: black level and threshold of the shot's gain code, the dark's black and K, and
the pedestal (R144). -/
structure Corrector where
  black : Nat
  threshold : Nat
  pedestal : Nat
  darkBlack : Nat
  k : Nat
deriving DecidableEq, Repr

/-- The dark contribution (R147): never negative. -/
def darkPart (darkBlack k d : Nat) : Int := max 0 ((((d : Int) - darkBlack) * k + 8192) / 16384)

/-- The output of a pixel of raw value r with gain g and dark contribution ds, before limiting (R148). -/
def rawOutput (c : Corrector) (g : Nat) (ds : Int) (r : Nat) : Int := (((r : Int) - c.black - ds) * g + 2048) / 4096 + c.pedestal

/-- A corrected pixel, and whether it was clamped low or high (R146 to R148). -/
structure Corrected where
  value : Nat
  low : Bool
  high : Bool
deriving DecidableEq, Repr

/-- Corrects one pixel; `d` is the dark's pixel, none for no dark. -/
def correctPixel (c : Corrector) (g : Nat) (d : Option Nat) (r : Nat) : Corrected :=
  if c.threshold ≤ r then ⟨65535, false, false⟩
  else
    let ds := match d with
      | none => 0
      | some v => darkPart c.darkBlack c.k v
    let out := rawOutput c g ds r
    if out < 0 then ⟨0, true, false⟩ else if 65535 < out then ⟨65535, false, true⟩ else ⟨out.toNat, false, false⟩

/-- The pixels of a run corrected in order: their bytes and the clamps counted. -/
structure CorrectedRun where
  bytes : List Byte
  low : Nat
  high : Nat
deriving DecidableEq, Repr

/-- Corrects the pixels from pixel index `i` of the frame on; `dark` holds the dark's pixels, empty for no dark. -/
def correctValues (geo : Geometry) (grid : List Nat) (c : Corrector) (dark : Bool) : Nat → List Nat → List Nat → CorrectedRun
  | _, [], _ => ⟨[], 0, 0⟩
  | i, r :: rs, ds =>
    let o := correctPixel c (grid.getD (gridIndex geo (i % geo.width) (i / geo.width)) 0) (if dark then some (ds.headD 0) else none) r
    let rest := correctValues geo grid c dark (i + 1) rs ds.tail
    ⟨leBytes 2 o.value ++ rest.bytes, (if o.low then 1 else 0) + rest.low, (if o.high then 1 else 0) + rest.high⟩

/-- Corrects the bytes at a frame offset (R144, R155); `darkBytes` is none for no dark. -/
def correctBytes (geo : Geometry) (grid : List Nat) (c : Corrector) (offset : Nat) (bytes : List Byte)
    (darkBytes : Option (List Byte)) : CorrectedRun :=
  match darkBytes with
  | none => correctValues geo grid c false (offset / 2) (bytesHalves bytes) []
  | some d => correctValues geo grid c true (offset / 2) (bytesHalves bytes) (bytesHalves d)

/-- Black level and saturation threshold of a gain code (R41). Before BLACK_SAT commits the part computes nothing with it. -/
def Tables.blackOf (t : Tables) (gain : Nat) : Nat × Nat := (t.blackSat.getD []).getD gain (0, 0)

/-- The corrector of a gain code and a dark under the tables and the pedestal in force. -/
def Tables.corrector (t : Tables) (pedestal gain : Nat) (d : Option DarkUse) : Corrector :=
  { black := (t.blackOf gain).1, threshold := (t.blackOf gain).2, pedestal := pedestal
    darkBlack := match d with
      | none => 0
      | some u => (t.blackOf u.gain).1
    k := match d with
      | none => 0
      | some u => u.k }

/-! ## The scale factor (R116) -/

/-- Δ: the temperature difference clamped to −8..+8, 0 if either is absent. -/
def tempDelta (shot dark : Option Int) : Int :=
  match shot, dark with
  | some a, some b => clampInt (-8) 8 (a - b)
  | _, _ => 0

/-- K from the integration times, Δ and the DARK_TEMP factors (R116). -/
def scaleFactor (factors : List Nat) (ts td : Nat) (delta : Int) : Nat :=
  let r := (ts * 16384 + td / 2) / td
  let f := factors.getD (delta + 8).toNat 0
  min 65535 ((r * f + 8192) / 16384)

/-! ## Defect repair (R158 to R160) -/

/-- The pixels that stage 3 does not read. -/
structure Defective where
  columns : List Nat
  singles : List (Nat × Nat)
deriving DecidableEq, Repr

/-- A neighbour is usable: inside the frame, in no listed column, no listed single (R158). -/
def usable (geo : Geometry) (d : Defective) (x y : Int) : Option (Nat × Nat) :=
  if 0 ≤ x ∧ x < geo.width ∧ 0 ≤ y ∧ y < geo.height then
    let px := x.toNat
    let py := y.toNat
    if d.columns.contains px || d.singles.contains (px, py) then none else some (px, py)
  else none

/-- The usable ones of a pair of neighbours. -/
def usablePair (geo : Geometry) (d : Defective) (a b : Int × Int) : List (Nat × Nat) :=
  (usable geo d a.1 a.2).toList ++ (usable geo d b.1 b.2).toList

def horizontalPair (geo : Geometry) (d : Defective) (x y : Nat) : List (Nat × Nat) :=
  usablePair geo d ((x : Int) - 2, (y : Int)) ((x : Int) + 2, (y : Int))

def verticalPair (geo : Geometry) (d : Defective) (x y : Nat) : List (Nat × Nat) :=
  usablePair geo d ((x : Int), (y : Int) - 2) ((x : Int), (y : Int) + 2)

/-- The neighbours a listed column's pixel is repaired from (R159). -/
def columnRepair (geo : Geometry) (d : Defective) (x y : Nat) : Repair := ⟨x, y, horizontalPair geo d x y⟩

/-- The neighbours a listed single is repaired from: its horizontal pair, else its vertical pair (R160). -/
def singleRepair (geo : Geometry) (d : Defective) (x y : Nat) : Repair :=
  match horizontalPair geo d x y with
  | [] => ⟨x, y, verticalPair geo d x y⟩
  | l => ⟨x, y, l⟩

/-- The repaired value from the neighbours' values: their rounded mean, the one, or the pedestal (R158 to R160). -/
def repairValue (pedestal : Nat) : List Nat → Nat
  | [] => pedestal
  | [a] => a
  | a :: b :: _ => (a + b + 1) / 2

/-- The repair a repair list comes to next: listed columns row by row, then the singles outside them (R159, R160). -/
def RepairList.next (geo : Geometry) (d : Defective) (l : RepairList) : Option Repair :=
  match l.columns with
  | x :: _ => some (columnRepair geo d x l.row)
  | [] =>
    match l.singles with
    | (x, y) :: _ => some (singleRepair geo d x y)
    | [] => none

/-- The repair list with that repair done. -/
def RepairList.advance (geo : Geometry) (l : RepairList) : RepairList :=
  match l.columns with
  | _ :: cs => if l.row + 1 < geo.height then { l with row := l.row + 1 } else { l with columns := cs, row := 0 }
  | [] => { l with singles := l.singles.tail }

/-! ## Statistics (R162) -/

/-- One more pixel of value v in a histogram of 16 bins for each of four channels. -/
def countPixel (geo : Geometry) (i v : Nat) (h : List Nat) : List Nat :=
  h.modify ((channelOf geo.cfa (i % geo.width) (i / geo.width)).index * 16 + v / 4096) (· + 1)

/-- The histogram with the pixels from index i on counted. -/
def countValues (geo : Geometry) : Nat → List Nat → List Nat → List Nat
  | _, [], h => h
  | i, v :: vs, h => countValues geo (i + 1) vs (countPixel geo i v h)

/-! ## Preview (R176) -/

/-- The rounded average of a sum over n samples. -/
def average (sum n : Nat) : Nat := (2 * sum + n) / (2 * n)

/-- The output byte of a channel average. -/
def previewByte (black gain : Nat) (curve : List Nat) (a : Nat) : Byte :=
  let w := min 65535 (((a - black) * gain + 2048) / 4096)
  BitVec.ofNat 8 (curve.getD (min 1023 (w / 64)) 0)

/-- The source value of pixel (x, y) of an output row that starts at source row `top`: masked at or beyond the cursor
(R174). -/
def sourceValue (geo : Geometry) (top : Nat) (mask : Option Nat) (source : Array Nat) (x y : Nat) : Nat :=
  let beyond := match mask with
    | none => false
    | some c => decide (c ≤ (y * geo.width + x) * 2)
  if beyond then 0 else source.getD ((y - top) * geo.width + x) 0

/-- The sum of a block's samples of the given channels. -/
def blockSum (geo : Geometry) (top : Nat) (mask : Option Nat) (source : Array Nat) (i : Nat) (sel : Channel → Bool) : Nat :=
  ((List.range 64).map fun k =>
    let x := 8 * i + k % 8
    let y := top + k / 8
    if sel (channelOf geo.cfa x y) then sourceValue geo top mask source x y else 0).sum

/-- The three bytes of output pixel i of the row (R176). -/
def previewPixel (geo : Geometry) (r : Rendering) (source : Array Nat) (i : Nat) : List Byte :=
  let top := 8 * r.row
  let sum := blockSum geo top r.mask source i
  [previewByte r.black r.gains.1 r.curve (average (sum fun c => decide (c = .r)) 16),
    previewByte r.black r.gains.2.1 r.curve (average (sum fun c => decide (c = .gr) || decide (c = .gb)) 32),
    previewByte r.black r.gains.2.2 r.curve (average (sum fun c => decide (c = .b)) 16)]

/-- The bytes of a rendered row. -/
def previewRow (geo : Geometry) (r : Rendering) : List Byte :=
  let source := (bytesHalves r.source).toArray
  (List.range (geo.width / 8)).flatMap (previewPixel geo r source)

end Sys2Proof.Machine
end

