-- ==== Sys2Proof/Machine/DevelopOps.lean ====
section
/-! DEFINITION. The development queue and the pass: hand-over, the values taken at the start, the four sweeps and the bursts they present (R152 to R163). -/

namespace Sys2Proof.Machine

/-! ## The start of a pass (R153) -/

/-- The dark a source names, as a pass and an INLINE target use it: slot, gain code and K (R119, R155). -/
def Part.darkUseOf (shot : Word) (d : Option DarkSource) (p : Part) : Option DarkUse :=
  let entry (id k : Nat) : Option DarkUse := (p.dfl.entries.find? fun e => decide (e.id = id)).map fun e => ⟨e.slot, e.gain, k⟩
  match d with
  | some (.library id k) => entry id k
  | some (.capture (.entry id) (some k)) => entry id k
  | some (.capture .transient (some k)) =>
    (p.dfl.transients.find? fun e => decide (e.origin = shot)).map fun e => ⟨e.slot, e.gain, k⟩
  | _ => none

/-- The sweep of stage 1 moves over the gaps that begin at its position (R155). -/
def skipGaps (pos : Nat) : List (Nat × Nat) → Nat × List (Nat × Nat)
  | [] => (pos, [])
  | (a, b) :: gs => if a ≤ pos then skipGaps (max pos b) gs else (pos, (a, b) :: gs)

/-- Stage 3 begins: listed columns from row 0, then the listed singles outside them (R159, R160). -/
def Pass.toStage3 (s : Pass) : Pass :=
  { s with
    stage := 3, pos := 0, beats := []
    repairs := ⟨s.columns, 0, s.defects.filter fun d => !s.columns.contains d.1⟩ }

/-- Stage 2 begins at the first gap, or ends at once (R157). -/
def Pass.toStage2 (s : Pass) : Pass :=
  match s.gaps with
  | [] => s.toStage3
  | (a, _) :: _ => { s with stage := 2, pos := a, gapsLeft := s.gaps }

def Pass.toStage1 (s : Pass) : Pass :=
  let (pos, left) := skipGaps 0 s.gaps
  { s with stage := 1, pos := pos, gapsLeft := left }

/-- Stage 4 begins (R162). -/
def Pass.toStage4 (s : Pass) : Pass := { s with stage := 4, pos := 0 }

/-- The pass of a shot begins: the DPE takes the values it will use throughout (R153). List entries outside the geometry
name no pixel (R43, R158). -/
def Part.passOf (t : Shot) (p : Part) : Pass :=
  let g := p.geo
  let b := p.cal.tables.blackOf t.arming.gain
  let d := p.darkUseOf t.number t.progress.dark
  let s : Pass :=
    { shot := t.number, slot := t.slot, gain := t.arming.gain, dark := d, gaps := t.progress.gaps, black := b.1, threshold := b.2
      darkBlack := match d with
        | none => 0
        | some u => (p.cal.tables.blackOf u.gain).1
      grid := p.cal.tables.gainGrid.getD []
      defects := p.cal.tables.defects.filter fun e => decide (e.1 < g.width) && decide (e.2 < g.height)
      columns := p.cal.tables.columns.filter fun x => decide (x < g.width)
      pedestal := p.dfl.policy.pedestal, stage := 1, pos := 0, gapsLeft := [], repairs := ⟨[], 0, []⟩, raw := none, out := none
      beats := [], low := 0, high := 0, repaired := 0, histogram := List.replicate 64 0, full := 0 }
  if t.progress.correction = some .corrected then s.toStage2 else s.toStage1

/-- The head of the queue comes under development (R152, R153). -/
def Part.startPass (p : Part) : Part :=
  match p.dpe.queue with
  | [] => p
  | n :: _ =>
    match p.shot? n with
    | none => p
    | some t => { p with dpe := { p.dpe with pass := some (p.passOf t) } }

/-- A shot enters DEVELOPING and is handed to the DPE: appended at the tail; the pass starts at once if the queue was empty
(R152). -/
def Part.handToDevelop (n : Word) (p : Part) : Part :=
  let q := p.setShotState n .developing
  let r := { q with dpe := { q.dpe with queue := q.dpe.queue ++ [n] } }
  if p.dpe.queue = [] then r.startPass else r

/-! ## The bursts of a pass (R154 to R162) -/

/-- Where the sweep of stage 1 or 4 stops next: the next gap, or the frame's end. -/
def Pass.limit (frameBytes : Nat) (s : Pass) : Nat :=
  match s.stage, s.gapsLeft with
  | 1, (a, _) :: _ => min a frameBytes
  | _, _ => frameBytes

def Pass.corrector (s : Pass) : Corrector :=
  { black := s.black, threshold := s.threshold, pedestal := s.pedestal, darkBlack := s.darkBlack
    k := match s.dark with
      | none => 0
      | some u => u.k }

def Pass.defective (s : Pass) : Defective := ⟨s.columns, s.defects⟩

/-- The frame offset of the beat that holds a pixel. -/
def beatOf (g : Geometry) (x y : Nat) : Nat := (y * g.width + x) * 2 / 16 * 16

/-- The value of a pixel in the beats read for a repair. -/
def pixelIn (g : Geometry) (beats : List (Nat × List Byte)) (xy : Nat × Nat) : Nat :=
  match beats.find? (fun b => b.1 == beatOf g xy.1 xy.2) with
  | none => 0
  | some b => leNat (slice ((xy.2 * g.width + xy.1) * 2 - b.1) 2 b.2)

/-- The beats that a repair reads: its own, then its neighbours' (R154). -/
def Repair.beats (g : Geometry) (r : Repair) : List Nat := beatOf g r.x r.y :: r.from_.map fun n => beatOf g n.1 n.2

/-- The beat of a repaired pixel with its new value and the other seven as read (R154). -/
def Repair.newBeat (g : Geometry) (pedestal : Nat) (r : Repair) (beats : List (Nat × List Byte)) : List Byte :=
  let own := beatOf g r.x r.y
  match beats.find? (fun b => b.1 == own) with
  | none => []
  | some b => overlay b.2 ((r.y * g.width + r.x) * 2 - own) (leBytes 2 (repairValue pedestal (r.from_.map (pixelIn g beats))))

/-- The burst that the pass presents next; none at the end of stages 1, 3 and 4. `at_` gives a slot's address. In stages 1, 2 and
4 it is the longest that the end of the range, 256 bytes and the page allow: a DESIGN CHOICE, since R154 says only 'up to 16
beats' (log entry 44). -/
def Pass.request (g : Geometry) (at_ : Nat → Nat) (s : Pass) : Option Access :=
  let base := at_ s.slot
  let limit := s.limit g.frameBytes
  let span := burstSpan (base + s.pos) (limit - s.pos)
  match s.stage with
  | 1 =>
    if limit ≤ s.pos then none
    else
      match s.out, s.raw, s.dark with
      | some bytes, _, _ => some (.writeOf (base + s.pos) bytes)
      | none, none, _ => some (.readOf (base + s.pos) span)
      | none, some _, some u => some (.readOf (at_ u.slot + s.pos) span)
      | none, some _, none => none
  | 2 =>
    match s.gapsLeft with
    | [] => none
    | (_, b) :: _ =>
      some (.writeOf (base + s.pos) (halvesBytes (List.replicate (burstSpan (base + s.pos) (b - s.pos) / 2) s.pedestal)))
  | 3 =>
    match s.repairs.next g s.defective with
    | none => none
    | some r =>
      match (r.beats g).find? fun b => (s.beats.find? fun e => e.1 == b).isNone with
      | some b => some (.readOf (base + b) 16)
      | none => some (.writeOf (base + beatOf g r.x r.y) (r.newBeat g s.pedestal s.beats))
  | _ => if limit ≤ s.pos then none else some (.readOf (base + s.pos) span)

/-- Stage 1 has the bytes of its burst: they are corrected, and the clamps counted (R155). -/
def Pass.correctBurst (g : Geometry) (raw : List Byte) (dark : Option (List Byte)) (s : Pass) : Pass :=
  let o := correctBytes g s.grid s.corrector s.pos raw dark
  { s with raw := some raw, out := some o.bytes, low := s.low + o.low, high := s.high + o.high }

/-- Stage 4 counts the bytes of its burst (R162). -/
def Pass.countBurst (g : Geometry) (bytes : List Byte) (s : Pass) : Pass :=
  let vs := bytesHalves bytes
  { s with
    pos := s.pos + bytes.length, histogram := countValues g (s.pos / 2) vs s.histogram
    full := s.full + vs.countP (fun v => v == 65535) }

/-- A burst of the pass has ended: the data of a read is used, a written burst moves the sweep on. -/
def Pass.burstDone (g : Geometry) (at_ : Nat → Nat) (write : Bool) (addr length : Nat) (bytes : List Byte) (s : Pass) : Pass :=
  match s.stage with
  | 1 =>
    if write then
      let (pos, left) := skipGaps (s.pos + length) s.gapsLeft
      { s with pos := pos, gapsLeft := left, raw := none, out := none }
    else
      match s.raw, s.dark with
      | some raw, _ => s.correctBurst g raw (some bytes)
      | none, none => s.correctBurst g bytes none
      | none, some _ => { s with raw := some bytes }
  | 2 =>
    match s.gapsLeft with
    | [] => s
    | (_, b) :: rest =>
      if s.pos + length < b then { s with pos := s.pos + length }
      else
        match rest with
        | [] => s.toStage3
        | (a, _) :: _ => { s with pos := a, gapsLeft := rest }
  | 3 =>
    if write then { s with beats := [], repaired := s.repaired + 1, repairs := s.repairs.advance g }
    else { s with beats := s.beats ++ [(addr - at_ s.slot, bytes)] }
  | _ => s.countBurst g bytes

/-- The sweep of the present stage has made its last burst (R156, R161, R164). -/
def Pass.stageOver (g : Geometry) (s : Pass) : Bool :=
  match s.stage with
  | 2 => false
  | 3 => (s.repairs.next g s.defective).isNone
  | _ => decide (g.frameBytes ≤ s.pos)

/-- The saturated count (R163). -/
def saturatedCount (full highClamps : Nat) : Nat := full - highClamps

end Sys2Proof.Machine
end

