-- ==== Sys2Proof/Machine/SensorOps.lean ====
section
/-! DEFINITION. The sensor lines, the strobe, the ingest target, and arming: the checks of R85 and the acceptance of R87. -/

namespace Sys2Proof.Machine

/-! ## Lines (R89, R100, R105, R106) -/

/-- SENSOR_FLUSH is driven high for 10 µs. -/
def Part.pulseFlush (at_ : Word) (p : Part) : Part :=
  { p with esu := { p.esu with flushLine := true, flushPulse := some ⟨at_, Config.sensorPulse⟩ } }

/-- SENSOR_READ is driven high for 10 µs. -/
def Part.pulseRead (at_ : Word) (p : Part) : Part :=
  { p with esu := { p.esu with readLine := true, readPulse := some ⟨at_, Config.sensorPulse⟩ } }

/-- SENSOR_INTEG falls and every timer of the sequence and the pending strobe are stopped; a pulse runs on (R97). -/
def Part.stopSequence (p : Part) : Part :=
  { p with
    esu :=
      { p.esu with
        integLine := false, strobe := none, flushTimer := none, armTimer := none, guardTimer := none, progTimer := none
        darkTimer := none } }

def Part.setSeq (q : Seq) (p : Part) : Part := { p with esu := { p.esu with seq := q } }

/-- The TSM's latest reading, absent while the TSM is in FAULT (R87, R100, R106). -/
def Part.temperature (p : Part) : Option Int := if p.tsm.temp = .fault then none else p.tsm.reading

/-! ## The strobe (R96, R97) -/

/-- The strobe fires for a shot: STROBE_OUT is driven high for the active pulse time, and the time recorded. -/
def Part.fireStrobe (n : Word) (at_ : Word) (p : Part) : Part :=
  Part.modExposure n (fun e => { e with strobeTime := some at_ })
    { p with esu := { p.esu with strobe := none, strobeLine := true, strobePulse := some ⟨at_, p.esu.active.pulse⟩ } }

/-- A strobe is scheduled at a time: it fires at once if its fire time is not later (R96). -/
def Part.scheduleStrobe (n : Word) (fire at_ : Word) (p : Part) : Part :=
  if notLater fire at_ then p.fireStrobe n at_ else { p with esu := { p.esu with strobe := some fire } }

/-! ## The ingest target (R129) -/

/-- The ICR takes a target handed over at a time; for a SHOT the record's cursor, gap list and correction state are set. -/
def Part.setTarget (t : Target) (at_ : Word) (p : Part) : Part :=
  let q : Part :=
    { p with
      icr := { p.icr with target := some t, deadline := some ⟨at_, p.esu.active.readTimeout * 1000⟩ } }
  match t.kind with
  | .dark => q
  | .shot =>
    q.modProgress t.number fun g =>
      { g with cursor := 0, gaps := [], correction := some (if t.path = .inline then .corrected else .raw) }

/-- The target is cleared, the deadline dropped and the stray report flag cleared (R137, R138, R142, R143, R150). -/
def Part.clearTarget (p : Part) : Part := { p with icr := { p.icr with target := none, deadline := none, strayReported := false } }

/-! ## Arming requests (R84 to R87) -/

/-- The arguments of an arming request after clamping and adjustment (R84). -/
structure ArmRequest where
  mode : ShotMode
  gain : Nat
  time : Nat
  plan : StrobePlan
  lead : Nat
  auto : Bool
  preempt : Bool
  adjusted : Bool
deriving DecidableEq, Repr

/-- The shape of an arming request from values already known to be in their lists (R84). -/
def ArmRequest.make (mode : ShotMode) (gain time : Nat) (plan : StrobePlan) (lead : Nat) (auto preempt : Bool) : ArmRequest :=
  let used := match mode with
    | .sync => 0
    | .timed => clampNat 1000 1800000000 time
  let plan' := if mode = .sync ∧ plan = .last then .first else plan
  let lead' := if plan' = .last then clampNat 0 1800000000 lead else 0
  let adjusted := (decide (mode = .timed) && used != time) || (plan' != plan) || (decide (plan' = .last) && lead' != lead)
  ⟨mode, gain, used, plan', lead', auto, preempt, adjusted⟩

/-- The arguments of the ARM command, in the order of R84's table. Of several malformed arguments the first in that order is named: a
DESIGN CHOICE, since R84 and R85 do not say which (log entry 50). -/
def parseArm (args : List Word) : Parsed ArmRequest :=
  match shotModeOf (argNat args 0) with
  | none => .bad 0
  | some mode =>
    if 7 < argNat args 1 then .bad 1
    else
      match strobePlanOf (argNat args 3) with
      | none => .bad 3
      | some plan => .ok (.make mode (argNat args 1) (argNat args 2) plan (argNat args 4) (argFlag args 5) (argFlag args 6))

/-- The request of the ARM_IN button: the line-arm defaults of the set that R87 makes active (R86). -/
def Part.lineRequest (p : Part) : ArmRequest :=
  let s := p.esu.staged.getD p.esu.active
  .make s.lineMode s.lineGain s.lineTime s.linePlan s.lineLead true false

/-- The first of checks 6 to 9 of R85 that fails, with the refusal's code and data. -/
def Part.armBlocked (r : ArmRequest) (p : Part) : Option (ResultCode × List Word) :=
  match p.currentShot with
  | some t => some (.alreadyArmed, [t.number])
  | none =>
    let held := match p.dfl.capture with
      | none => none
      | some c => if r.preempt then none else some c.shot
    match held with
    | some n => some (.sensorBusy, [n])
    | none =>
      if p.tsm.temp = .critical then some (.tooHot, [])
      else if r.mode = .timed ∧ 60000000 < r.time ∧ p.tsm.supply = .low then some (.lowSupply, [])
      else none

/-- The record of a shot at its creation (R63 to R65, R87). -/
def newShot (n : Word) (slot : Nat) (r : ArmRequest) (planTime : Nat) (now : Word) (temp : Option Int) : Shot where
  number := n
  state := .arming
  slot := slot
  prot := false
  arming :=
    { mode := r.mode, gain := r.gain
      programmed := match r.mode with
        | .sync => none
        | .timed => some r.time
      plan := r.plan, planTime := planTime, autoRelease := r.auto, armTime := now, tempAtArm := temp }
  exposure :=
    { integStart := none, integEnd := none, integTime := none, openTime := none, closeTime := none, measured := none, edges := []
      edgeOverflow := 0, strobeTime := none, late := 0, tempAtRead := none, early := false, overlong := false
      truncated := false, hot := false, abandoned := false }
  progress :=
    { dark := none, correction := none, cursor := 0, gaps := [], lowClamps := 0, highClamps := 0
      histogram := List.replicate 64 0, saturated := 0, repaired := 0, readTimeout := false, ingestGap := false
      gapMerged := false, fileSectors := none, storeCount := 0, pendingStore := none, sectorsStored := 0 }

/-- A staged set becomes active and the staged flag is cleared (R80, R87 step 2). -/
def Part.applyStaged (p : Part) : Part := { p with esu := { p.esu with active := p.esu.staged.getD p.esu.active, staged := none } }

/-- The time in a shot's strobe plan: the active delay for FIRST, the lead for LAST (R84). -/
def planTimeOf (r : ArmRequest) (s : SyncSettings) : Nat :=
  match r.plan with
  | .none => 0
  | .first => s.delay
  | .last => r.lead

/-- Steps 2 to 6 of R87, once the slot has been allocated. -/
def Part.armInto (slot : Nat) (r : ArmRequest) (p : Part) : Part :=
  let q := p.applyStaged
  let n := q.sht.counter
  let t := newShot n slot r (planTimeOf r q.esu.active) q.now q.temperature
  let q : Part := Part.statusDirty { q with sht := { q.sht with counter := n + 1, records := q.sht.records ++ [t] } }
  let q := q.pulseFlush q.now
  let q : Part := { q with esu := { q.esu with seq := .shotFlush, flushTimer := some ⟨q.now, q.esu.active.flush⟩ } }
  q.emit .shotArmed n [natWord slot, natWord r.mode.code, natWord r.gain]

/-- What an accepted ARM's result data gives (R87). That the strobe plan used is two words, its code and then its delay or
lead, is a DESIGN CHOICE: R87 and R215 do not say how many words the item takes (log entry 13). -/
def armResult (n : Word) (slot : Nat) (r : ArmRequest) (planTime : Nat) (staged : Bool) : List Word :=
  [n, natWord slot, natWord r.time, natWord r.plan.code, natWord planTime, flagWord staged]

/-- An arming request that has passed checks 1 to 9 is carried out (R87); a failed allocation is check 10. -/
def Part.armAccept (origin : Option (Fin 8)) (r : ArmRequest) (p : Part) : Part :=
  match p.allocate (.shot p.sht.counter) with
  | none =>
    match origin with
    | none => p
    | some n => p.refuse n .noSlot []
  | some (slot, q) =>
    let s := q.armInto slot r
    match origin with
    | none => s
    | some n =>
      s.doneOr n r.adjusted (armResult p.sht.counter slot r (planTimeOf r s.esu.active) p.esu.staged.isSome)

/-- Checks 4 to 9 of R85 on the argument words of an ARM; a request that passes them goes on as `go` says. -/
def Part.checkedArm (n : Fin 8) (args : List Word) (go : ArmRequest → Part → Part) (p : Part) : Part :=
  if p.sht.counter = 0 then p.refuse n .notReady [Config.shotNumbersCode]
  else
    match parseArm args with
    | .bad i => p.refuse n .badArg [natWord i]
    | .ok r =>
      match p.armBlocked r with
      | some (code, data) => p.refuse n code data
      | none => go r p

/-- The ARMs that waited for the end of a capture, in order, each checked again as the one before has left the part (R126;
DEDUCED, log entry 18). -/
def Part.resumeArms : List (Fin 8 × List Word) → Part → Part
  | [], p => p
  | (n, args) :: rest, p => Part.resumeArms rest (p.checkedArm n args (Part.armAccept (some n)))

end Sys2Proof.Machine
end

