-- ==== Sys2Proof/Machine/DarkOps.lean ====
section
/-! DEFINITION. The dark decision and the dark capture: start, completion, and end (R117 to R125). -/

namespace Sys2Proof.Machine

/-! ## The decision (R117 to R119) -/

/-- The temperature difference of an entry to a shot, if both are known. -/
def Dark.distance (e : Dark) (temp : Int) : Option Nat := e.temp.map fun d => (temp - d).natAbs

/-- A library entry matches a shot (R118). -/
def Dark.fits (e : Dark) (gain ts : Nat) (temp : Int) : Bool :=
  decide (e.gain = gain) && decide (e.td ≤ 2 * ts) && decide (ts ≤ 2 * e.td) &&
    match e.distance temp with
    | none => false
    | some d => decide (d ≤ 8)

def natDistance (a b : Nat) : Nat := (a - b) + (b - a)

/-- The keys by which a match is chosen: smaller first, but for the stamp (R118). -/
def Dark.better (ts : Nat) (temp : Int) (a b : Dark) : Bool :=
  let da := (a.distance temp).getD 0
  let db := (b.distance temp).getD 0
  let ta := natDistance ts a.td
  let tb := natDistance ts b.td
  decide (da < db) || (da == db && (decide (ta < tb) || (ta == tb && decide (b.stamp.toNat < a.stamp.toNat))))

/-- The entry the DFL chooses among those that match (R118). -/
def bestMatch (gain ts : Nat) (temp : Int) (es : List Dark) : Option Dark :=
  (es.filter fun e => e.fits gain ts temp).foldl
    (fun best e =>
      match best with
      | none => some e
      | some b => if e.better ts temp b then some e else some b)
    none

/-- What the decision gives: the source and the entry it takes, if any (R117). -/
structure Decision where
  source : DarkSource
  entry : Option Dark
deriving DecidableEq, Repr

/-- The first case of R117 that applies, for an integration time and a temperature at readout begin. -/
def Part.darkDecision (gain ts : Nat) (temp : Option Int) (p : Part) : Decision :=
  let policy := p.dfl.policy
  if policy.mode = .off then ⟨.none .policyOff, none⟩
  else if ts < policy.threshold * 1000000 then ⟨.none .belowThreshold, none⟩
  else
    match temp.bind fun θ => bestMatch gain ts θ p.dfl.entries with
    | some e => ⟨.library e.id (scaleFactor (p.cal.tables.darkTemp.getD []) ts e.td (tempDelta temp e.temp)), some e⟩
    | none =>
      if policy.mode = .capture then
        if p.tsm.supply = .normal then ⟨.capture .capturing none, none⟩ else ⟨.skipped .lowSupply, none⟩
      else ⟨.skipped .libraryMiss, none⟩

/-- The second word of DARK_DECIDED: the reason or the entry id; zero for a capture that has no dark yet (R214). -/
def DarkSource.decidedWord : DarkSource → Word
  | .none r => natWord r.code
  | .library id _ => natWord id
  | .capture _ _ => 0
  | .skipped r => natWord r.code

/-- The path the decision gives (R117, R129). -/
def DarkSource.path : DarkSource → Path
  | .capture _ _ => .raw
  | _ => .inline

/-- The decision is carried out (R119): the entry's refcount and stamp, the shot's source, DARK_DECIDED. -/
def Part.takeDecision (n : Word) (at_ : Word) (d : Decision) (p : Part) : Part :=
  let q : Part :=
    match d.entry with
    | none => p
    | some e =>
      { p with
        dfl :=
          { p.dfl with
            entries := p.dfl.entries.map fun x => if x.id = e.id then { x with refs := x.refs + 1, stamp := n } else x } }
  (q.modProgress n fun g => { g with dark := some d.source }).emitAt at_ .darkDecided n
    [natWord d.source.code, d.source.decidedWord, natWord (d.source.k?.getD 0)]

/-- The dark that an INLINE target subtracts, as the DFL answers it (R119 step 4). -/
def Decision.use (d : Decision) : Option DarkUse :=
  match d.entry, d.source.k? with
  | some e, some k => some ⟨e.slot, e.gain, k⟩
  | _, _ => none

/-! ## Capture (R119 to R125) -/

/-- The waiting shot's source becomes SKIPPED(reason), DARK_FAILED is emitted, and the shot goes to development (R120). -/
def Part.skipDark (n : Word) (reason : DarkReason) (elapsed : Nat) (p : Part) : Part :=
  let q := p.modProgress n fun g => { g with dark := some (.skipped reason) }
  (q.emit .darkFailed n [natWord reason.code, natWord elapsed]).handToDevelop n

/-- The capture of a shot in AWAIT_DARK starts, or the shot goes on without one (R120); the ESU begins DARK_FLUSH (R105). -/
def Part.startCapture (n : Word) (p : Part) : Part :=
  match p.shot? n with
  | none => p
  | some t =>
    match t.progress.dark with
    | some (.skipped _) => p.handToDevelop n
    | _ =>
      if p.tsm.supply = .low then p.skipDark n .lowSupply 0
      else
        match p.allocate .transient with
        | none => p.skipDark n .noSlot 0
        | some (slot, q) =>
          let c : Capture :=
            ⟨n, slot, t.exposure.integTime.getD 0, t.arming.gain, t.exposure.tempAtRead, none, .flush, none⟩
          let q : Part := { q with dfl := { q.dfl with capture := some c } }
          let q := q.modProgress n fun g => { g with dark := some (.capture .capturing none) }
          let q := q.pulseFlush q.now
          { q with esu := { q.esu with seq := .darkFlush, flushTimer := some ⟨q.now, q.esu.active.flush⟩ } }

/-- The lowest id that no entry holds (R112). -/
def freeId (es : List Dark) : Nat := ((List.range 4).find? fun i => es.all fun e => e.id != i).getD 0

/-- A capture completes (R122). -/
def Part.completeCapture (p : Part) : Part :=
  match p.dfl.capture with
  | none => p
  | some c =>
    let k := scaleFactor (p.cal.tables.darkTemp.getD []) c.td c.td (tempDelta c.shotTemp c.darkTemp)
    let id := freeId p.dfl.entries
    let dark : Dark := ⟨id, c.slot, c.td, c.darkTemp, c.gain, 1, c.shot, c.shot⟩
    let kept := c.darkTemp.isSome && Nat.blt p.dfl.entries.length p.dfl.policy.size
    let q : Part :=
      if kept then
        Part.statusDirty
          (Part.setHolder c.slot (.entry id) { p with dfl := { p.dfl with capture := none, entries := p.dfl.entries ++ [dark] } })
      else { p with dfl := { p.dfl with capture := none, transients := p.dfl.transients ++ [dark] } }
    let ref : DarkRef := if kept then .entry id else .transient
    let q := q.modProgress c.shot fun g => { g with dark := some (.capture ref (some k)) }
    (q.emit .darkDone c.shot [if kept then natWord id else 255, natWord k]).handToDevelop c.shot

/-- A capture's elapsed integration (R120): 0 in FLUSH, the time since its start in INTEGRATE, T_d in READ. -/
def Capture.elapsed (c : Capture) (now : Word) : Nat :=
  match c.phase with
  | .flush => 0
  | .integrate => (now - c.integStart.getD now).toNat
  | .read => c.td

/-- RELEASE removes the record of a shot, and ends with the state it had (R69). -/
def Part.releaseNow (n : Fin 8) (t : Shot) (p : Part) : Part :=
  (p.removeShot t.number).done n [t.number, natWord t.slot, natWord t.state.code, natWord t.progress.storeCount]

/-- What goes on when a capture has been ended: the ARM, the SKIP_DARK or the RELEASE that ended it (R70, R88, R125). The record of
a released shot is removed only now, when the DFL has answered (R123). -/
def Part.afterCapture (a : After) (p : Part) : Part :=
  match a with
  | .nothing => p
  | .arm n args =>
    match parseArm args with
    | .bad _ => p
    | .ok r => p.armAccept (some n) r
  | .skip n phase => p.done n [natWord phase.code]
  | .release n shot =>
    match p.shot? shot with
    | none => p.refuse n .notFound []
    | some t => p.releaseNow n t

/-- Steps 2 to 5 of R123, once the sequence and the ingest have stopped. A cancellation by RELEASE leaves out the shot's
source and its development. -/
def Part.finishEnding (e : Ending) (p : Part) : Part :=
  match p.dfl.capture with
  | none => p
  | some c =>
    let q : Part := Part.freeSlot c.slot .dark c.shot { p with dfl := { p.dfl with capture := none, ending := none } }
    let q : Part :=
      match e.after with
      | .release _ _ => q.emit .darkFailed c.shot [natWord e.reason.code, natWord e.elapsed]
      | _ => q.skipDark c.shot e.reason e.elapsed
    (q.afterCapture e.after).resumeArms e.arms

/-- A capture is ended for a reason (R123): the ESU stops the sequence (R107); in READ the ICR clears its target, after the
burst under way if there is one (R143). A capture whose end is already pending is left (R126). -/
def Part.endCapture (reason : DarkReason) (after : After) (p : Part) : Part :=
  match p.dfl.capture with
  | none => p
  | some c =>
    if p.dfl.ending.isSome then p
    else
      let e : Ending := ⟨reason, c.elapsed p.now, after, []⟩
      let q := p.stopSequence.setSeq .idle
      match c.phase with
      | .read =>
        if q.icr.work.isSome then { q with dfl := { q.dfl with ending := some e } } else q.clearTarget.finishEnding e
      | _ => q.finishEnding e

end Sys2Proof.Machine
end

