-- ==== Sys2Proof/Machine/DarkFrames.lean ====
section
/-! DEFINITION. The Dark Frame Library's commands: SET_DARK_POLICY and SKIP_DARK (R110, R111, R125). -/

namespace Sys2Proof.Machine

/-- The policy of SET_DARK_POLICY's words, numeric values clamped (R110). -/
def parsePolicy (args : List Word) : Parsed Policy :=
  match darkModeOf (argNat args 0) with
  | none => .bad 0
  | some m => .ok ⟨m, clampNat 1 60 (argNat args 1), clampNat 0 4 (argNat args 2), clampNat 0 4095 (argNat args 3)⟩

def Policy.words (x : Policy) : List Word := [natWord x.mode.code, natWord x.threshold, natWord x.size, natWord x.pedestal]

/-- SET_DARK_POLICY (R110, R111). -/
def cmdSetDarkPolicy (n : Fin 8) (args : List Word) (p : Part) : Part :=
  match parsePolicy args with
  | .bad i => p.refuse n .badArg [natWord i]
  | .ok x =>
    match if x.pedestal ≠ p.dfl.policy.pedestal then p.correctionWork else none with
    | some data => p.refuse n .busy data
    | none =>
      let q : Part := { p with dfl := { p.dfl with policy := x } }
      let q := if x.size < p.dfl.policy.size then q.trimLibrary p.dfl.entries.length else q
      let removed := p.dfl.entries.length - q.dfl.entries.length
      q.doneOr n (decide (x.words ≠ (List.range 4).map (argWord args))) (x.words ++ [natWord removed])

/-- SKIP_DARK (R125). -/
def cmdSkipDark (n : Fin 8) (args : List Word) (p : Part) : Part :=
  let number := argWord args 0
  match p.shot? number with
  | none => p.refuse n .notFound []
  | some t =>
    let none_ := p.refuse n .notFound [natWord t.state.code]
    match t.state, t.progress.dark with
    | .awaitDark, _ =>
      match p.dfl.capture with
      | some c => if p.dfl.ending.isSome then none_ else p.endCapture .cancelled (.skip n c.phase)
      | none => none_
    | .reading, some (.capture .capturing none) =>
      let q := p.modProgress number fun g => { g with dark := some (.skipped .cancelled) }
      (q.emit .darkFailed number [natWord DarkReason.cancelled.code, 0]).done n []
    | _, _ => none_

/-! ## Meanings -/

def execSetDarkPolicy (w : SlotWrite) (s : State) : Host.Outcome State Fault Refusal :=
  s.onPart (Part.hostVerb .setDarkPolicy cmdSetDarkPolicy w)
def execSkipDark (w : SlotWrite) (s : State) : Host.Outcome State Fault Refusal := s.onPart (Part.hostVerb .skipDark cmdSkipDark w)

end Sys2Proof.Machine
end

