-- ==== Sys2Proof/Machine/Develop.lean ====
section
/-! DEFINITION. The Development Pass Engine: the ends of stages 1 and 3 and of the pass, and its stop (R152 to R166). -/

namespace Sys2Proof.Machine

def Part.setPass (s : Option Pass) (p : Part) : Part := { p with dpe := { p.dpe with pass := s } }

/-- STAGE1_END (R156): the record is written at one instant. -/
def Part.stage1End (p : Part) : Part :=
  match p.dpe.pass with
  | none => p
  | some s =>
    if s.stage = 1 ∧ s.stageOver p.geo then
      (p.setPass (some s.toStage2)).modProgress s.shot fun g =>
        { g with correction := some .corrected, lowClamps := s.low, highClamps := s.high }
    else p

/-- STAGE3_END (R161). -/
def Part.stage3End (p : Part) : Part :=
  match p.dpe.pass with
  | none => p
  | some s =>
    if s.stage = 3 ∧ s.stageOver p.geo then (p.setPass (some s.toStage4)).modProgress s.shot fun g => { g with repaired := s.repaired }
    else p

/-- A STORE request WAITING for a shot becomes QUEUED when the shot enters DEVELOPED (R192). -/
def Part.wakeStore (n : Word) (p : Part) : Part :=
  match p.requestFor n with
  | none => p
  | some r => if r.state = .waiting then p.modRequest r.id fun x => { x with state := .queued } else p

/-- The pass of a shot ends (R164). The SLOT_RELEASED of a dark it frees stands in the ring before DEVELOPED: a DESIGN CHOICE, since
R164 allows either order (log entry 38). -/
def Part.endPass (s : Pass) (t : Shot) (p : Part) : Part :=
  let sectors := p.geo.fileSectors
  let q := p.modProgress s.shot fun g =>
    { g with histogram := s.histogram, saturated := saturatedCount s.full g.highClamps, fileSectors := some sectors }
  let q := (q.setShotState s.shot .developed).lowerDark s.shot t.progress.dark
  let q := q.emit .developed s.shot [natWord sectors]
  let q : Part := { q with dpe := { queue := q.dpe.queue.tail, pass := none } }
  (q.startPass.wakeStore s.shot).choose

/-- PASS_END (R164). -/
def Part.passEnd (p : Part) : Part :=
  match p.dpe.pass with
  | none => p
  | some s =>
    if s.stage = 4 ∧ s.stageOver p.geo then
      match p.shot? s.shot with
      | none => p
      | some t => p.endPass s t
    else p

/-- The DPE has stopped for RESET_SHOTS (R166). -/
def Part.dpeStopped (p : Part) : Part :=
  { p with
    dpe := { queue := [], pass := none }
    cpa := { p.cpa with resetting := p.cpa.resetting.map fun r => { r with dpe := true } } }

def Part.dpeStopping (p : Part) : Bool :=
  match p.cpa.resetting with
  | none => false
  | some r => !r.dpe

/-- A burst of the DPE has ended; a stopping DPE drops its work (R154, R166). -/
def Part.dpeBurstDone (write : Bool) (addr length : Nat) (bytes : List Byte) (p : Part) : Part :=
  if p.dpeStopping then p.dpeStopped
  else
    match p.dpe.pass with
    | none => p
    | some s => p.setPass (some (s.burstDone p.geo p.sht.slotAddr write addr length bytes))

/-! ## Meanings -/

def execStage1End (s : State) : Host.Outcome State Fault Refusal := s.onPart Part.stage1End
def execStage3End (s : State) : Host.Outcome State Fault Refusal := s.onPart Part.stage3End
def execPassEnd (s : State) : Host.Outcome State Fault Refusal := s.onPart Part.passEnd

end Sys2Proof.Machine
end

