-- ==== Sys2Proof/Machine/Exposure.lean ====
section
/-! DEFINITION. The Exposure Sync Unit: the contact, the button, arming, exposure, the strobe, limits, integration end, DISARM, SET_SYNC, SNAPSHOT and the dark sequence (R78 to R109). -/

namespace Sys2Proof.Machine

/-! ## Integration end and missed shots (R92, R98, R100) -/

/-- The flags of EXPOSURE_END as a set (R217). -/
def Exposure.endFlags (e : Exposure) : Nat := bitIf e.early 0 + bitIf e.overlong 1 + bitIf e.truncated 2 + bitIf e.hot 3

/-- Steps 5 and 6 of R100: the ICR takes the shot as target, SENSOR_READ is pulsed, the shot is READING. -/
def Part.beginRead (t : Shot) (at_ : Word) (path : Path) (dark : Option DarkUse) (p : Part) : Part :=
  let q := p.setTarget ⟨.shot, t.number, t.slot, path, t.arming.gain, dark, 0, []⟩ at_
  (((q.pulseRead at_).setSeq .shotRead).setShotState t.number .reading).emitAt at_ .readoutBegin t.number
    [natWord FrameKind.shot.code, natWord p.geo.frameBytes]

/-- Integration ends at a time (R100). -/
def Part.integrationEnd (n : Word) (at_ : Word) (p : Part) : Part :=
  match p.shot? n with
  | none => p
  | some t =>
    let ts := (at_ - t.exposure.integStart.getD at_).toNat
    let temp := p.temperature
    let q := p.stopSequence.modExposure n fun e => { e with integEnd := some at_, integTime := some ts, tempAtRead := temp }
    let q := q.emitAt at_ .exposureEnd n [natWord ts, natWord t.exposure.endFlags]
    let d := q.darkDecision t.arming.gain ts temp
    (q.takeDecision n at_ d).beginRead t at_ d.source.path d.use

/-- A shot in ARMED is missed (R92). SHOT_MISSED stands in the ring before SLOT_RELEASED: a DESIGN CHOICE, since R67 allows
either order (log entry 38). -/
def Part.missShot (t : Shot) (at_ : Word) (p : Part) : Part :=
  ((p.stopSequence.setSeq .idle).emitAt at_ .shotMissed t.number [natWord t.slot]).removeShot t.number

/-- The integration limit under a supply state (R98). -/
def Supply.limit : Supply → Nat
  | .normal => Config.limitNormal
  | .low => Config.limitLow

/-- The limit is reached at a time: OVERLONG and integration end, or the shot is missed (R98). -/
def Part.reachLimit (t : Shot) (at_ : Word) (p : Part) : Part :=
  match t.state with
  | .armed => p.missShot t at_
  | .exposing | .settling => (p.modExposure t.number fun e => { e with overlong := true }).integrationEnd t.number at_
  | _ => p

/-- The elapsed integration of the current shot has at a time reached the limit that applies (R98). -/
def Part.limitReached (t : Shot) (at_ : Word) (p : Part) : Bool :=
  decide (p.esu.seq = .shotIntegrate) &&
    match t.exposure.integStart with
    | none => false
    | some start => notLater start at_ && decide (p.tsm.supply.limit ≤ (at_ - start).toNat)

/-- INTEGRATION_LIMIT (R98). -/
def Part.integrationLimit (p : Part) : Part :=
  match p.currentShot with
  | none => p
  | some t =>
    if p.limitReached t p.now then p.reachLimit t (t.exposure.integStart.getD p.now + natWord p.tsm.supply.limit) else p

/-- The sequencer serves a shot whose readout has not begun: SHOT_FLUSH or SHOT_INTEGRATE (R89, R90). It serves none once
RESET_SHOTS has stopped the ESU (R108), whatever the records hold until the SHT clears them (R76). -/
def Seq.beforeRead : Seq → Bool
  | .shotFlush | .shotIntegrate => true
  | _ => false

/-- The ESU is told that the temperature state has become CRITICAL (R99). -/
def Part.toldCritical (p : Part) : Part :=
  match p.currentShot with
  | none => p
  | some t =>
    if t.state = .reading ∨ p.esu.seq.beforeRead = false then p
    else if t.arming.mode = .timed ∧ t.state = .exposing then
      (p.modExposure t.number fun e => { e with hot := true, truncated := true }).integrationEnd t.number p.now
    else p.modExposure t.number fun e => { e with hot := true }

/-- The ESU is told that the supply state has become LOW: the limit is reached at the change if 60 s have elapsed (R98). -/
def Part.toldLowSupply (at_ : Word) (p : Part) : Part :=
  match p.currentShot with
  | none => p
  | some t => if p.limitReached t at_ then p.reachLimit t at_ else p

/-! ## Edges (R82, R83, R91, R93, R94) -/

/-- An edge joins a shot's edge list, or raises its overflow count (R83). Past 4,294,967,295 the count wraps to 0: a DESIGN CHOICE,
since R64, R83 and R218 say nothing of it (log entry 49). -/
def Part.recordEdge (n : Word) (e : Edge) (p : Part) : Part :=
  p.modExposure n fun x =>
    if x.edges.length < Config.maxEdges then { x with edges := x.edges ++ [e] } else { x with edgeOverflow := x.edgeOverflow + 1 }

/-- The settle guard starts at a time; a guard of 0 ends integration at once (R93). -/
def Part.startGuard (n : Word) (at_ : Word) (p : Part) : Part :=
  if p.esu.active.guard = 0 then p.integrationEnd n at_
  else { p with esu := { p.esu with guardTimer := some ⟨at_, p.esu.active.guard⟩ } }

/-- The exposure closes: SETTLING, close-edge time, measured exposure, pending strobe cancelled, settle guard (R93). -/
def Part.closeExposure (n : Word) (edge at_ : Word) (p : Part) : Part :=
  let q := p.setShotState n .settling
  let q := q.modExposure n fun e =>
    { e with closeTime := some edge, measured := some ((edge - e.openTime.getD edge).toNat) }
  Part.startGuard n at_ { q with esu := { q.esu with strobe := none } }

/-- A SYNC exposure begins with an open-edge time (R90, R91). -/
def Part.openExposure (n : Word) (open_ at_ : Word) (p : Part) : Part :=
  ((p.setShotState n .exposing).modExposure n fun e => { e with openTime := some open_ }).emitAt at_ .exposureBegin n [open_]

/-- A FIRST strobe of a SYNC shot is scheduled from its open-edge time (R96). -/
def Part.firstStrobe (t : Shot) (from_ at_ : Word) (p : Part) : Part :=
  if t.arming.plan = .first then p.scheduleStrobe t.number (from_ + natWord t.arming.planTime) at_ else p

/-- An edge acts on the current shot (R82), having been recorded against it. The late-contact count wraps to 0 past 4,294,967,295: a
DESIGN CHOICE, since R64, R83 and R218 say nothing of it (log entry 49). -/
def Part.edgeOnShot (t : Shot) (e : Edge) (at_ : Word) (p : Part) : Part :=
  let q := p.recordEdge t.number e
  match t.state, t.arming.mode, e.closing with
  | .arming, _, true => q.modExposure t.number fun x => { x with early := true }
  | .armed, .sync, true =>
    let q : Part := { q with esu := { q.esu with armTimer := none } }
    (q.openExposure t.number e.time at_).firstStrobe t e.time at_
  | .exposing, .sync, false => q.closeExposure t.number e.time at_
  | .settling, .sync, true =>
    let q : Part := { q with esu := { q.esu with guardTimer := none } }
    (q.setShotState t.number .exposing).modExposure t.number fun x => { x with closeTime := none, measured := none }
  | .reading, _, true => q.modExposure t.number fun x => { x with late := x.late + 1 }
  | _, _, _ => q

/-- UNARMED_RELEASE carries shot number 0 and the edge's time (R82). -/
def Part.unarmedRelease (e : Edge) (p : Part) : Part := p.emitAt e.time .unarmedRelease 0 []

/-- An accepted edge is acted on (R82). -/
def Part.edgeActs (e : Edge) (at_ : Word) (p : Part) : Part :=
  match p.esu.seq with
  | .idle | .darkFlush => if e.closing then p.unarmedRelease e else p
  | .shotFlush | .shotIntegrate | .shotRead =>
    match p.currentShot with
    | none => p
    | some t => p.edgeOnShot t e at_
  | .darkIntegrate | .darkRead => if e.closing then p.endCapture .disturbed .nothing else p

/-- The transition being debounced is accepted: the debounced level changes, and the edge is acted on (R81). -/
def Part.acceptEdge (time at_ : Word) (p : Part) : Part :=
  let closing := !p.esu.contact
  Part.edgeActs ⟨time, closing⟩ at_ { p with esu := { p.esu with contact := closing, contactTimer := none } }

/-- SYNC_TRANSITION (R81): the raw level changes; a debounce begins or is discarded. -/
def Part.syncTransition (closed : Bool) (p : Part) : Part :=
  let q : Part := { p with pins := { p.pins with sync := closed } }
  if p.phase = .asserted then q
  else if closed = q.esu.contact then { q with esu := { q.esu with contactTimer := none } }
  else if q.esu.contactTimer.isSome then q
  else if q.esu.active.debounce = 0 then q.acceptEdge q.now q.now
  else { q with esu := { q.esu with contactTimer := some ⟨q.now, q.esu.active.debounce⟩ } }

/-- SYNC_EDGE_ACCEPT (R82). -/
def Part.syncEdgeAccept (p : Part) : Part :=
  match p.esu.contactTimer with
  | none => p
  | some t => if t.due p.now then p.acceptEdge t.start t.expiry else p

/-! ## Arming (R84 to R88) -/

/-- An ARM that has passed checks 4 to 9 (R87, R88): a capture in progress ends first; one whose end already waits for the
ICR has the ARM go on after it (R126; log entry 18). -/
def Part.armOrPreempt (n : Fin 8) (args : List Word) (r : ArmRequest) (p : Part) : Part :=
  if p.dfl.capture.isSome then
    match p.dfl.ending with
    | none => p.endCapture .preempted (.arm n args)
    | some e => { p with dfl := { p.dfl with ending := some { e with arms := e.arms ++ [(n, args)] } } }
  else p.armAccept (some n) r

/-- The ARM command after the mode, RESET_SHOTS and precondition checks (R85, R88). -/
def cmdArm (n : Fin 8) (args : List Word) (p : Part) : Part := p.checkedArm n args (Part.armOrPreempt n args)

/-- An arming request of the ARM_IN button; a refused one is ignored (R26, R27, R38, R86). -/
def Part.lineArm (p : Part) : Part :=
  if p.cpa.mode = .loader ∨ p.cpa.resetting.isSome then p
  else if p.cpa.mode = .service ∧ p.missing.isSome then p
  else
    let q := if p.cpa.mode = .service then p.fixSlots else p
    if q.sht.counter = 0 ∨ (q.armBlocked q.lineRequest).isSome then q else q.armAccept none q.lineRequest

/-- ARM_IN_TRANSITION (R86). -/
def Part.armInTransition (pressed : Bool) (p : Part) : Part :=
  let q : Part := { p with pins := { p.pins with arm := pressed } }
  if p.phase = .asserted then q
  else if pressed = q.esu.button then { q with esu := { q.esu with buttonTimer := none } }
  else if q.esu.buttonTimer.isSome then q
  else { q with esu := { q.esu with buttonTimer := some ⟨q.now, Config.armDebounce⟩ } }

/-- ARM_IN_ACCEPT (R86). -/
def Part.armInAccept (p : Part) : Part :=
  if timerDue p.esu.buttonTimer p.now then
    let pressed := !p.esu.button
    let q : Part := { p with esu := { p.esu with button := pressed, buttonTimer := none } }
    if pressed then q.lineArm else q
  else p

/-! ## Flush and integration (R89, R90, R95, R99) -/

/-- SENSOR_PULSE_END (R89, R100): each line whose 10 µs have run falls. -/
def Part.sensorPulseEnd (p : Part) : Part :=
  let flushOver := timerDue p.esu.flushPulse p.now
  let readOver := timerDue p.esu.readPulse p.now
  { p with
    esu :=
      { p.esu with
        flushLine := p.esu.flushLine && !flushOver, flushPulse := if flushOver then none else p.esu.flushPulse
        readLine := p.esu.readLine && !readOver, readPulse := if readOver then none else p.esu.readPulse } }

/-- The fire time of a TIMED shot's strobe, if its plan has one (R96, R97). -/
def timedStrobe (a : Arming) (start : Word) : Option Word :=
  match a.plan with
  | .none => none
  | .first => some (start + natWord a.planTime)
  | .last => some (start + natWord (a.programmed.getD 0 - a.planTime))

/-- A TIMED shot's flush ends (R90, R99). In CRITICAL a strobe due at the integration start (FIRST with delay 0, or LAST with a
lead of at least the programmed time) is never scheduled: the integration end is taken first. A DESIGN CHOICE, since R97 lets
either be taken first (log entry 48). -/
def Part.startTimed (t : Shot) (at_ : Word) (p : Part) : Part :=
  let q := (p.setShotState t.number .exposing).emitAt at_ .exposureBegin t.number [at_]
  if p.tsm.temp = .critical then
    (q.modExposure t.number fun e => { e with truncated := true }).integrationEnd t.number at_
  else
    let q : Part :=
      { q with esu := { q.esu with integLine := true, progTimer := some ⟨at_, t.arming.programmed.getD 0⟩ } }
    match timedStrobe t.arming at_ with
    | none => q
    | some fire => q.scheduleStrobe t.number fire at_

/-- A SYNC shot's flush ends (R90). -/
def Part.startSync (t : Shot) (at_ : Word) (p : Part) : Part :=
  let q : Part := { p with esu := { p.esu with integLine := true } }
  if t.exposure.early then
    let q := q.openExposure t.number at_ at_
    if p.esu.contact then q.firstStrobe t at_ at_ else q.closeExposure t.number at_ at_
  else
    Part.setShotState t.number .armed
      { q with esu := { q.esu with armTimer := some ⟨at_, p.esu.active.armWindow * 1000000⟩ } }

/-- FLUSH_END (R90). -/
def Part.flushEnd (p : Part) : Part :=
  match p.esu.flushTimer, p.currentShot with
  | some timer, some t =>
    if p.esu.seq = .shotFlush ∧ timer.due p.now then
      let at_ := timer.expiry
      let q : Part := { p with esu := { p.esu with seq := .shotIntegrate, flushTimer := none } }
      let q := q.modExposure t.number fun e => { e with integStart := some at_ }
      match t.arming.mode with
      | .timed => q.startTimed t at_
      | .sync => q.startSync t at_
    else p
  | _, _ => p

/-- ARM_WINDOW_EXPIRY (R92). -/
def Part.armWindowExpiry (p : Part) : Part :=
  match p.esu.armTimer, p.currentShot with
  | some timer, some t => if t.state = .armed ∧ timer.due p.now then p.missShot t timer.expiry else p
  | _, _ => p

/-- SETTLE_GUARD_EXPIRY (R94). -/
def Part.settleGuardExpiry (p : Part) : Part :=
  match p.esu.guardTimer, p.currentShot with
  | some timer, some t => if t.state = .settling ∧ timer.due p.now then p.integrationEnd t.number timer.expiry else p
  | _, _ => p

/-- PROGRAMMED_TIME_EXPIRY (R95). -/
def Part.programmedTimeExpiry (p : Part) : Part :=
  match p.esu.progTimer, p.currentShot with
  | some timer, some t => if t.state = .exposing ∧ timer.due p.now then p.integrationEnd t.number timer.expiry else p
  | _, _ => p

/-- STROBE_FIRE (R96, R97). -/
def Part.strobeFire (p : Part) : Part :=
  match p.esu.strobe, p.currentShot with
  | some fire, some t => if notLater fire p.now then p.fireStrobe t.number fire else p
  | _, _ => p

/-- STROBE_PULSE_END (R97). -/
def Part.strobePulseEnd (p : Part) : Part :=
  if timerDue p.esu.strobePulse p.now then { p with esu := { p.esu with strobeLine := false, strobePulse := none } } else p

/-! ## Dark sequence (R105, R106) -/

def Part.modCapture (f : Capture → Capture) (p : Part) : Part := { p with dfl := { p.dfl with capture := p.dfl.capture.map f } }

/-- DARK_FLUSH_END (R105). -/
def Part.darkFlushEnd (p : Part) : Part :=
  match p.esu.flushTimer, p.dfl.capture with
  | some timer, some c =>
    if p.esu.seq = .darkFlush ∧ timer.due p.now then
      if p.esu.contact then p.endCapture .disturbed .nothing
      else
        let at_ := timer.expiry
        let q : Part :=
          { p with
            esu := { p.esu with seq := .darkIntegrate, flushTimer := none, integLine := true, darkTimer := some ⟨at_, c.td⟩ } }
        q.modCapture fun x => { x with phase := .integrate, integStart := some at_ }
    else p
  | _, _ => p

/-- DARK_INTEGRATION_EXPIRY (R106). -/
def Part.darkIntegrationExpiry (p : Part) : Part :=
  match p.esu.darkTimer, p.dfl.capture with
  | some timer, some c =>
    if p.esu.seq = .darkIntegrate ∧ timer.due p.now then
      let at_ := timer.expiry
      let q := p.stopSequence.modCapture fun x => { x with phase := .read, darkTemp := p.temperature }
      let q := q.setTarget ⟨.dark, c.shot, c.slot, .raw, c.gain, none, 0, []⟩ at_
      ((q.pulseRead at_).setSeq .darkRead).emitAt at_ .readoutBegin c.shot [natWord FrameKind.dark.code, natWord p.geo.frameBytes]
    else p
  | _, _ => p

/-! ## DISARM, SET_SYNC, SNAPSHOT (R79, R80, R102, R104) -/

/-- DISARM (R102): a shot before READING is removed, one in READING ABANDONED. The SLOT_RELEASED of a removal stands in the ring
after SHOT_DISARMED: a DESIGN CHOICE, since R67 allows either order (log entry 38). -/
def disarmShot (n : Fin 8) (args : List Word) (p : Part) : Part :=
  let number := argWord args 0
  match p.shot? number with
  | none => p.refuse n .notFound []
  | some t =>
    let data := [natWord t.state.code]
    match t.state with
    | .arming | .armed | .exposing | .settling =>
      (((p.stopSequence.setSeq .idle).emit .shotDisarmed number data).removeShot number).done n data
    | .reading =>
      if t.exposure.abandoned then p.done n data
      else ((p.modExposure number fun e => { e with abandoned := true }).emit .shotDisarmed number data).done n data
    | _ => p.refuse n .busy data

/-- DISARM (R102), and the choice, should a request have gone with the shot (R68, R192). -/
def cmdDisarm (n : Fin 8) (args : List Word) : Part → Part := Part.choosing (disarmShot n args)

/-- A set of sync settings read from SET_SYNC's words, in the order of R79's table, values clamped. Of several
malformed arguments the first in that order is named: a DESIGN CHOICE, since R79 does not say which (log entry 50). -/
def parseSync (args : List Word) : Parsed SyncSettings :=
  match shotModeOf (argNat args 7) with
  | none => .bad 7
  | some mode =>
    if 7 < argNat args 8 then .bad 8
    else
      match strobePlanOf (argNat args 10) with
      | none => .bad 10
      | some plan =>
        .ok
          { debounce := clampNat 0 1000 (argNat args 0)
            flush := clampNat 500 20000 (argNat args 1)
            armWindow := clampNat 1 600 (argNat args 2)
            guard := clampNat 0 100000 (argNat args 3)
            readTimeout := clampNat 100 10000 (argNat args 4)
            pulse := clampNat 10 1000 (argNat args 5)
            delay := clampNat 0 10000 (argNat args 6)
            lineMode := mode
            lineGain := argNat args 8
            lineTime := clampNat 1000 1800000000 (argNat args 9)
            linePlan := if mode = .sync ∧ plan = .last then .first else plan
            lineLead := clampNat 0 1800000000 (argNat args 11) }

/-- The twelve settings as result words (R79). -/
def SyncSettings.words (s : SyncSettings) : List Word :=
  [natWord s.debounce, natWord s.flush, natWord s.armWindow, natWord s.guard, natWord s.readTimeout, natWord s.pulse, natWord s.delay,
    natWord s.lineMode.code, natWord s.lineGain, natWord s.lineTime, natWord s.linePlan.code, natWord s.lineLead]

/-- SET_SYNC (R79, R80). -/
def cmdSetSync (n : Fin 8) (args : List Word) (p : Part) : Part :=
  match parseSync args with
  | .bad i => p.refuse n .badArg [natWord i]
  | .ok s =>
    let adjusted := decide (s.words ≠ (List.range 12).map (argWord args))
    if p.esu.seq = .idle then
      Part.doneOr n adjusted (s.words ++ [0]) { p with esu := { p.esu with active := s, staged := none } }
    else Part.doneOr n adjusted (s.words ++ [1]) { p with esu := { p.esu with staged := some s } }

/-- The shot the sequence serves (R104). -/
def Part.servedShot (p : Part) : Option Shot :=
  match p.esu.seq with
  | .idle => none
  | .shotFlush | .shotIntegrate | .shotRead => p.currentShot
  | .darkFlush | .darkIntegrate | .darkRead => p.dfl.capture.bind fun c => p.shot? c.shot

/-- The integration start that SNAPSHOT measures from, while SENSOR_INTEG is high (R104). -/
def Part.integrationSince (p : Part) : Option Word :=
  match p.esu.seq with
  | .shotIntegrate => p.currentShot.bind fun t => t.exposure.integStart
  | .darkIntegrate => p.dfl.capture.bind fun c => c.integStart
  | _ => none

def Seq.isShot : Seq → Bool
  | .shotFlush | .shotIntegrate | .shotRead => true
  | _ => false

/-- The picture SNAPSHOT takes (R104); the layout is a DESIGN CHOICE, log entry 13. -/
def Part.snapshot (p : Part) : List Word :=
  let served := p.servedShot
  let edges := if p.esu.seq.isShot then (served.map fun t => t.exposure.edges).getD [] else []
  let overflow := if p.esu.seq.isShot then (served.map fun t => t.exposure.edgeOverflow).getD 0 else 0
  let last := edges.drop (edges.length - 4)
  [p.now, natWord p.esu.seq.code, (served.map fun t => t.number).getD 0, natWord ((served.map fun t => t.state.code).getD 0),
      natWord (if p.esu.integLine then (p.now - p.integrationSince.getD p.now).toNat else 0), if p.esu.contact then 0 else 1]
    ++ padTo 8 0 (last.flatMap fun e => [e.time, flagWord e.closing])
    ++ [natWord edges.length, overflow, flagWord p.esu.staged.isSome]

/-- SNAPSHOT (R104). -/
def cmdSnapshot (n : Fin 8) (_ : List Word) (p : Part) : Part := p.done n p.snapshot

/-! ## Meanings -/

def execArm (w : SlotWrite) (s : State) : Host.Outcome State Fault Refusal := s.onPart (Part.hostVerb .arm cmdArm w)
def execDisarm (w : SlotWrite) (s : State) : Host.Outcome State Fault Refusal := s.onPart (Part.hostVerb .disarm cmdDisarm w)
def execSetSync (w : SlotWrite) (s : State) : Host.Outcome State Fault Refusal := s.onPart (Part.hostVerb .setSync cmdSetSync w)
def execSnapshot (w : SlotWrite) (s : State) : Host.Outcome State Fault Refusal := s.onPart (Part.hostVerb .snapshot cmdSnapshot w)
def execSyncTransition (closed : Bool) (s : State) : Host.Outcome State Fault Refusal := s.onPart (Part.syncTransition closed)
def execSyncEdgeAccept (s : State) : Host.Outcome State Fault Refusal := s.onPart Part.syncEdgeAccept
def execArmInTransition (pressed : Bool) (s : State) : Host.Outcome State Fault Refusal := s.onPart (Part.armInTransition pressed)
def execArmInAccept (s : State) : Host.Outcome State Fault Refusal := s.onPart Part.armInAccept
def execSensorPulseEnd (s : State) : Host.Outcome State Fault Refusal := s.onPart Part.sensorPulseEnd
def execFlushEnd (s : State) : Host.Outcome State Fault Refusal := s.onPart Part.flushEnd
def execArmWindowExpiry (s : State) : Host.Outcome State Fault Refusal := s.onPart Part.armWindowExpiry
def execSettleGuardExpiry (s : State) : Host.Outcome State Fault Refusal := s.onPart Part.settleGuardExpiry
def execProgrammedTimeExpiry (s : State) : Host.Outcome State Fault Refusal := s.onPart Part.programmedTimeExpiry
def execIntegrationLimit (s : State) : Host.Outcome State Fault Refusal := s.onPart Part.integrationLimit
def execStrobeFire (s : State) : Host.Outcome State Fault Refusal := s.onPart Part.strobeFire
def execStrobePulseEnd (s : State) : Host.Outcome State Fault Refusal := s.onPart Part.strobePulseEnd
def execDarkFlushEnd (s : State) : Host.Outcome State Fault Refusal := s.onPart Part.darkFlushEnd
def execDarkIntegrationExpiry (s : State) : Host.Outcome State Fault Refusal := s.onPart Part.darkIntegrationExpiry

end Sys2Proof.Machine
end

