-- ==== Sys2Proof/Machine/Ingest.lean ====
section
/-! DEFINITION. The Ingest Corrector: ingest bursts, commits, and the end of a readout (R129 to R151). -/

namespace Sys2Proof.Machine

/-! ## Cursor and gaps (R129, R131 to R133) -/

/-- The record of a SHOT target. -/
def Part.targetShot (t : Target) (p : Part) : Option Shot :=
  match t.kind with
  | .shot => p.shot? t.number
  | .dark => none

/-- A SHOT's cursor and gap list stand in its record, a DARK's in the target (R129). -/
def Part.cursorOf (t : Target) (p : Part) : Nat :=
  match t.kind with
  | .shot => ((p.shot? t.number).map fun s => s.progress.cursor).getD 0
  | .dark => t.cursor

def Part.gapsOf (t : Target) (p : Part) : List (Nat × Nat) :=
  match t.kind with
  | .shot => ((p.shot? t.number).map fun s => s.progress.gaps).getD []
  | .dark => t.gaps

/-- A gap joins the list, or extends the eighth (R133). -/
def addGap (gaps : List (Nat × Nat)) (g : Nat × Nat) : List (Nat × Nat) :=
  if gaps.length < Config.maxGaps then gaps ++ [g]
  else gaps.take (Config.maxGaps - 1) ++ [((gaps.getD (Config.maxGaps - 1) (0, 0)).1, g.2)]

def gapsWith (gaps : List (Nat × Nat)) (g : Option (Nat × Nat)) : List (Nat × Nat) :=
  match g with
  | none => gaps
  | some g => addGap gaps g

/-- A burst's commit, or the final gap of a timeout: cursor, gap and clamp counts change at one moment (R130, R140). -/
def Part.moveCursor (t : Target) (to_ : Nat) (gap : Option (Nat × Nat)) (low high : Nat) (timeout : Bool) (p : Part) : Part :=
  match t.kind with
  | .shot =>
    p.modProgress t.number fun g =>
      { g with
        cursor := to_
        gaps := gapsWith g.gaps gap
        lowClamps := g.lowClamps + low
        highClamps := g.highClamps + high
        ingestGap := g.ingestGap || (gap.isSome && !timeout)
        gapMerged := g.gapMerged || (gap.isSome && !Nat.blt g.gaps.length Config.maxGaps)
        readTimeout := g.readTimeout || timeout }
  | .dark => { p with icr := { p.icr with target := some { t with cursor := to_, gaps := gapsWith t.gaps gap } } }

/-! ## The end of a readout (R137 to R142) -/

inductive Outcome | complete | timeout
deriving DecidableEq, Repr

def Outcome.code : Outcome → Nat
  | .complete => 0
  | .timeout => 1

/-- A SHOT readout ends (R137, R142): an ABANDONED shot is removed, an INLINE one developed, a RAW one awaits its dark. READOUT_END
stands in the ring before the SLOT_RELEASED of a removal: a DESIGN CHOICE, since R142 allows either order (log entry 38). -/
def Part.shotReadoutEnd (t : Target) (o : Outcome) (p : Part) : Part :=
  let gaps := (p.gapsOf t).length
  let q := p.clearTarget.emit .readoutEnd t.number [natWord FrameKind.shot.code, natWord o.code, natWord gaps]
  let q := q.setSeq .idle
  match p.shot? t.number with
  | none => q
  | some s =>
    if s.exposure.abandoned then q.removeShot t.number
    else
      match t.path with
      | .inline => q.handToDevelop t.number
      | .raw => (q.setShotState t.number .awaitDark).startCapture t.number

/-- A DARK readout ends (R138): the capture completes, or fails READ_TIMEOUT. -/
def Part.darkReadoutEnd (t : Target) (o : Outcome) (p : Part) : Part :=
  let q := p.clearTarget.emit .readoutEnd t.number [natWord FrameKind.dark.code, natWord o.code, natWord t.gaps.length]
  let q := q.setSeq .idle
  if o = .complete ∧ t.gaps = [] then q.completeCapture
  else q.finishEnding ⟨.readTimeout, (q.dfl.capture.map fun c => c.td).getD 0, .nothing, []⟩

def Part.readoutEnd (o : Outcome) (p : Part) : Part :=
  match p.icr.target with
  | none => p
  | some t =>
    match t.kind with
    | .shot => p.shotReadoutEnd t o
    | .dark => p.darkReadoutEnd t o

/-- The readout ends COMPLETE when the cursor has reached the frame bytes (R139). -/
def Part.completeIfWhole (p : Part) : Part :=
  match p.icr.target with
  | none => p
  | some t => if p.geo.frameBytes ≤ p.cursorOf t then p.readoutEnd .complete else p

/-! ## Bursts (R130 to R136, R142) -/

/-- A stray write: ERROR, the count, and one event in each readout-less period (R135). -/
def Part.strayWrite (b : Burst) (p : Part) : Part :=
  let q : Part := Part.statusDirty { p with icr := { p.icr with strayCount := satIncr p.icr.strayCount } }
  let q : Part :=
    if q.icr.strayReported then q
    else Part.emit .strayIngest 0 (addrWords b.addr) { q with icr := { q.icr with strayReported := true } }
  q.answerError b

/-- The pixels of a burst corrected for an INLINE target under the tables and pedestal in force (R134, R144). -/
def Part.correctIngest (t : Target) (from_ : Nat) (raw : List Byte) (dark : Option (List Byte)) (p : Part) : CorrectedRun :=
  correctBytes p.geo (p.cal.tables.gainGrid.getD []) (p.cal.tables.corrector p.dfl.policy.pedestal t.gain t.dark) from_ raw dark

/-- The work of a burst that takes bytes begins: a dark read first if the target has a dark, else the slot write (R134). A DARK
target is always on the RAW path (R149). -/
def Part.ingestWork (t : Target) (from_ to_ : Nat) (gap : Option (Nat × Nat)) (raw : List Byte) (p : Part) : IngestWork :=
  let w : IngestWork := ⟨from_, to_, gap, t.slot, raw, none, 0, 0, .needWrite⟩
  match t.kind, t.path, t.dark with
  | .dark, _, _ => w
  | .shot, .raw, _ => w
  | .shot, .inline, some d => { w with dark := some d, stage := .needDark }
  | .shot, .inline, none =>
    let o := p.correctIngest t from_ raw none
    { w with bytes := o.bytes, low := o.low, high := o.high }

/-- The readout drains: the record is ABANDONED (R142). -/
def Part.draining (t : Target) (p : Part) : Bool :=
  match p.targetShot t with
  | none => false
  | some s => s.exposure.abandoned

/-- A write burst while a target is set, by the first case of R131 that applies. -/
def Part.targetWrite (t : Target) (b : Burst) (base : Nat) (p : Part) : Part :=
  let o := b.addr - base
  let frame := p.geo.frameBytes
  let c := p.cursorOf t
  let e := min (o + Burst.bytes b) frame
  if frame ≤ o then p.answerError b
  else if e ≤ c then p.answer true []
  else
    let from_ := max o c
    let gap := if c < o then some (c, o) else none
    if p.draining t then ((p.moveCursor t e gap 0 0 false).answer true []).completeIfWhole
    else
      let work := p.ingestWork t from_ e gap (slice (from_ - o) (e - from_) b.data)
      Part.setHead .owned { p with icr := { p.icr with work := some work } }

/-- INGEST_WRITE (R131, R135). -/
def Part.ingestWrite (p : Part) : Part :=
  match p.headBurst with
  | some (b, .ingestWrite base) =>
    match p.icr.target with
    | none => p.strayWrite b
    | some t => p.targetWrite t b base
  | _ => p

/-- INGEST_READ (R136). -/
def Part.ingestRead (p : Part) : Part :=
  match p.headBurst with
  | some (b, .ingestRead) => p.answerError b
  | _ => p

/-! ## The work's frame memory bursts (R134) -/

/-- The pass-through request of the burst under way. Slot pages and window pages coincide, so each is one burst. -/
def IngestWork.request (at_ : Nat → Nat) (w : IngestWork) : Option Access :=
  match w.stage with
  | .needDark => w.dark.map fun d => .readOf (at_ d.slot + w.from_) (w.to_ - w.from_)
  | .needWrite => some (.writeOf (at_ w.slot + w.from_) w.bytes)
  | .written => none

/-- The dark bytes have returned: the pixels are corrected; or the slot write has completed. -/
def Part.ingestBurstDone (bytes : List Byte) (p : Part) : Part :=
  match p.icr.work, p.icr.target with
  | some w, some t =>
    match w.stage with
    | .needDark =>
      let o := p.correctIngest t w.from_ w.bytes (some bytes)
      { p with icr := { p.icr with work := some { w with bytes := o.bytes, low := o.low, high := o.high, stage := .needWrite } } }
    | .needWrite => { p with icr := { p.icr with work := some { w with stage := .written } } }
    | .written => p
  | _, _ => p

/-! ## Commit and timeout -/

/-- The ICR has stopped for RESET_SHOTS (R150). -/
def Part.icrStopped (p : Part) : Part :=
  let q := p.clearTarget
  { q with cpa := { q.cpa with resetting := q.cpa.resetting.map fun r => { r with icr := true } } }

/-- RESET_SHOTS waits for the ICR. -/
def Part.icrStopping (p : Part) : Bool :=
  match p.cpa.resetting with
  | none => false
  | some r => !r.icr

/-- READOUT_TIMEOUT (R140, R141): taken between bursts. -/
def Part.readoutTimeout (p : Part) : Part :=
  match p.icr.target with
  | none => p
  | some t =>
    if timerDue p.icr.deadline p.now ∧ p.icr.work = none then
      let frame := p.geo.frameBytes
      (p.moveCursor t frame (some (p.cursorOf t, frame)) 0 0 true).readoutEnd .timeout
    else p

/-- INGEST_COMMIT (R130, R139): the burst commits and is answered; then whatever waited for it: the readout's completion, a
deadline that has expired meanwhile (R141), the end of the dark capture (R143), the stop of RESET_SHOTS (R150). -/
def Part.ingestCommit (p : Part) : Part :=
  match p.icr.work, p.icr.target with
  | some w, some t =>
    if w.stage = .written then
      let q := p.moveCursor t w.to_ w.gap w.low w.high false
      let q : Part := Part.answer true [] { q with icr := { q.icr with work := none } }
      if q.icrStopping then q.icrStopped
      else
        match q.dfl.ending with
        | some e => q.clearTarget.finishEnding e
        | none => q.completeIfWhole.readoutTimeout
    else p
  | _, _ => p

/-! ## Meanings -/

def execIngestWrite (s : State) : Host.Outcome State Fault Refusal := s.onPart Part.ingestWrite
def execIngestRead (s : State) : Host.Outcome State Fault Refusal := s.onPart Part.ingestRead
def execIngestCommit (s : State) : Host.Outcome State Fault Refusal := s.onPart Part.ingestCommit
def execReadoutTimeout (s : State) : Host.Outcome State Fault Refusal := s.onPart Part.readoutTimeout

end Sys2Proof.Machine
end

