-- ==== Sys2Proof/Machine/Preview.lean ====
section
/-! DEFINITION. The Preview Renderer: VIEW_SELECT, VIEW bursts, rows and the row cache (R168 to R180). -/

namespace Sys2Proof.Machine

/-! ## VIEW_SELECT (R168, R169) -/

/-- The three gains of a white balance under the WB table as it stands (R169, R174). -/
def Tables.gains (t : Tables) (w : WhiteBalance) : Nat × Nat × Nat :=
  match w with
  | .preset i => t.wb.getD (indexIn t.wb.length i) (4096, 4096, 4096)
  | .direct r g b => (r, g, b)

/-- A view may be taken of the shot: READING or later (R168). -/
def ShotState.viewable : ShotState → Bool
  | .arming | .armed | .exposing | .settling => false
  | _ => true

/-- The white balance of VIEW_SELECT's words, and whether a gain was clamped (R168); or the failing argument and count. -/
def parseBalance (presets : Nat) (args : List Word) : (WhiteBalance × Bool) ⊕ List Word :=
  match argNat args 2 with
  | 0 => if argNat args 3 < presets then .inl (.preset (argNat args 3), false) else .inr [3, natWord presets]
  | 1 =>
    let gain (i : Nat) : Nat := clampNat 2048 16383 (argNat args i)
    .inl (.direct (gain 4) (gain 5) (gain 6),
      gain 4 != argNat args 4 || gain 5 != argNat args 5 || gain 6 != argNat args 6)
  | _ => .inr [2]

/-- The selection is replaced and the cache emptied; a VIEW burst in progress keeps its own (R169, R179), and none of its rows is
cached from then on. That this holds of a VIEW_SELECT that repeats the shot and the parameters is a DESIGN CHOICE: R179 says it
of another shot or other parameters (log entry 45). -/
def Part.select (v : Option Selection) (p : Part) : Part :=
  { p with prn := { selection := v, cache := none, work := p.prn.work.map fun w => { w with stale := true } } }

/-- VIEW_SELECT (R168, R169). With number 0 it gives no result words: a DESIGN CHOICE, since R169 lists none for that form
(log entry 39). -/
def cmdViewSelect (n : Fin 8) (args : List Word) (p : Part) : Part :=
  let number := argWord args 0
  let curve := argNat args 1
  let tables := p.cal.tables
  if number = 0 then (p.select none).done n []
  else
    match p.shot? number with
    | none => p.refuse n .notFound []
    | some t =>
      if !t.state.viewable then p.refuse n .busy [natWord t.state.code]
      else if tables.tone.length ≤ curve then p.refuse n .badArg [1, natWord tables.tone.length]
      else
        match parseBalance tables.wb.length args with
        | .inr data => p.refuse n .badArg data
        | .inl (wb, adjusted) =>
          let g := tables.gains wb
          (p.select (some ⟨number, curve, wb⟩)).doneOr n adjusted
            [number, natWord t.state.code, natWord curve, natWord g.1, natWord g.2.1, natWord g.2.2, natWord p.geo.previewBytes,
              natWord p.geo.previewRow]

/-! ## Rows (R173, R174, R177, R178) -/

/-- The shot is in DEVELOPED, STORING or STORED: its frame is settled (R177, R178). -/
def Part.settled (number : Word) (p : Part) : Bool :=
  match p.shot? number with
  | none => false
  | some t => !t.state.undeveloped

/-- The cursor at and above which the row's pixels count as 0: the ingest target's (R174). -/
def Part.viewMask (number : Word) (p : Part) : Option Nat :=
  match p.icr.target, p.shot? number with
  | some t, some s => if t.kind = .shot ∧ t.number = number then some s.progress.cursor else none
  | _, _ => none

/-- The burst's view of its shot: the record's slot, gain code and correction state, or as last seen of a removed record
(R174, R179). -/
def Part.refreshView (w : ViewWork) (p : Part) : ViewWork :=
  match p.shot? w.selection.shot with
  | none => w
  | some t => { w with slot := t.slot, gain := t.arming.gain, correction := t.progress.correction.getD w.correction }

/-- The render black (R175). -/
def Part.renderBlack (w : ViewWork) (p : Part) : Nat :=
  match w.correction with
  | .corrected => p.dfl.policy.pedestal
  | .raw => (p.cal.tables.blackOf w.gain).1

/-- The values taken at the start of a row (R174). -/
def Part.startRow (w : ViewWork) (row : Nat) (p : Part) : Rendering :=
  let t := p.cal.tables
  { row := row, slot := w.slot, black := p.renderBlack w, gains := t.gains w.selection.wb
    curve := t.tone.getD (indexIn t.tone.length w.selection.curve) builtInCurve
    mask := p.viewMask w.selection.shot, settled := p.settled w.selection.shot
    outdated := false, source := [] }

/-- The bytes of the burst from the rows in hand, zero beyond the preview (R172, R173). -/
def ViewWork.bytes (g : Geometry) (w : ViewWork) : List Byte :=
  let first := w.offset / g.previewRow * g.previewRow
  padTo w.length 0 (slice (w.offset - first) (min w.length (g.previewBytes - w.offset)) (w.got.flatMap fun r => r.2))

/-- RESET_SHOTS waits for the PRN (R180). -/
def Part.prnStopping (p : Part) : Bool :=
  match p.cpa.resetting with
  | none => false
  | some r => !r.prn

/-- The PRN stops: selection and cache are emptied (R180). -/
def Part.prnStopped (p : Part) : Part :=
  { p with
    prn := { selection := none, cache := none, work := none }
    cpa := { p.cpa with resetting := p.cpa.resetting.map fun r => { r with prn := true } } }

/-- The burst is answered with its bytes (R173). -/
def Part.answerView (w : ViewWork) (p : Part) : Part :=
  let q : Part := Part.answer true (w.bytes p.geo) { p with prn := { p.prn with work := none } }
  if q.prnStopping then q.prnStopped else q

/-- The cached row, if it is the one needed and may be used (R178). -/
def Part.cachedRow (shot : Word) (row : Nat) (p : Part) : Option (List Byte) :=
  match p.prn.cache with
  | none => none
  | some c => if c.row = row ∧ c.shot = shot ∧ p.settled shot then some c.bytes else none

/-- The rows still to come, in order: from the cache, or rendered (R173). -/
def Part.serveRows (w : ViewWork) : List Nat → Part → Part
  | [], p => p.answerView w
  | row :: rest, p =>
    match p.cachedRow w.selection.shot row with
    | some bytes => Part.serveRows { w with got := w.got ++ [(row, bytes)] } rest p
    | none =>
      let w := p.refreshView w
      { p with prn := { p.prn with work := some { w with rows := rest, rendering := some (p.startRow w row) } } }

/-- The output rows that preview bytes from `off` up to `to_` touch (R171). -/
def rowsTouched (g : Geometry) (off to_ : Nat) : List Nat :=
  let first := off / g.previewRow
  (List.range ((to_ - 1) / g.previewRow + 1 - first)).map (first + ·)

/-- VIEW_READ (R172, R173). -/
def Part.viewRead (p : Part) : Part :=
  match p.headBurst with
  | some (b, .viewRead base) =>
    let off := b.addr - base
    let n := Burst.bytes b
    let preview := p.geo.previewBytes
    match p.prn.selection with
    | none => p.answer true (List.replicate n 0)
    | some v =>
      if preview ≤ off then p.answer true (List.replicate n 0)
      else Part.serveRows ⟨off, n, v, 0, 0, .raw, [], [], none, false⟩ (rowsTouched p.geo off (min (off + n) preview)) (p.setHead .owned)
  | _ => p

/-- VIEW_WRITE (R172). -/
def Part.viewWrite (p : Part) : Part :=
  match p.headBurst with
  | some (b, .viewWrite) => p.answerError b
  | _ => p

/-- The source bytes of an output row (R174). -/
def Geometry.sourceRowBytes (g : Geometry) : Nat := 16 * g.width

/-- The source read that a rendering presents next (R174). -/
def Rendering.request (g : Geometry) (at_ : Nat → Nat) (r : Rendering) : Option Access :=
  if r.source.length < g.sourceRowBytes then
    let addr := at_ r.slot + r.row * g.sourceRowBytes + r.source.length
    some (.readOf addr (burstSpan addr (g.sourceRowBytes - r.source.length)))
  else none

/-- A source read has returned (R174). -/
def Part.sourceRead (bytes : List Byte) (p : Part) : Part :=
  { p with
    prn :=
      { p.prn with
        work := p.prn.work.map fun w => { w with rendering := w.rendering.map fun r => { r with source := r.source ++ bytes } } } }

/-- A rendered row may be kept (R177, R179). A burst that a VIEW_SELECT has met caches no later row, even one that repeated the
burst's own selection: a DESIGN CHOICE (log entry 45). -/
def Part.mayCache (w : ViewWork) (r : Rendering) (p : Part) : Bool :=
  r.settled && !r.outdated && !w.stale && decide (p.prn.selection = some w.selection) && p.cpa.resetting.isNone

/-- ROW_RENDERED (R176, R177): all source reads of the row have returned. -/
def Part.rowRendered (p : Part) : Part :=
  match p.prn.work with
  | none => p
  | some w =>
    match w.rendering with
    | none => p
    | some r =>
      if r.source.length < p.geo.sourceRowBytes then p
      else
        let bytes := previewRow p.geo r
        let q : Part :=
          if p.mayCache w r then { p with prn := { p.prn with cache := some ⟨r.row, w.selection.shot, bytes⟩ } } else p
        Part.serveRows { w with got := w.got ++ [(r.row, bytes)], rendering := none } w.rows q

/-! ## Meanings -/

def execViewSelect (w : SlotWrite) (s : State) : Host.Outcome State Fault Refusal := s.onPart (Part.hostVerb .viewSelect cmdViewSelect w)
def execViewRead (s : State) : Host.Outcome State Fault Refusal := s.onPart Part.viewRead
def execViewWrite (s : State) : Host.Outcome State Fault Refusal := s.onPart Part.viewWrite
def execRowRendered (s : State) : Host.Outcome State Fault Refusal := s.onPart Part.rowRendered

end Sys2Proof.Machine
end

