-- ==== Sys2Proof/Machine/Pts.lean ====
section
/-! DEFINITION. The Pass-Through Switch: SET_WINDOW, SET_GEOMETRY, and the acceptance, classification and forwarding of host bursts (R1 to R12, R75). -/

namespace Sys2Proof.Machine

/-! ## SET_WINDOW (R8 to R10) -/

/-- A SET_WINDOW as read: the entry, and for PRESENT the window asked for. -/
structure WindowRequest where
  index : Fin 16
  window : Option Window
deriving DecidableEq, Repr

/-- The arguments of SET_WINDOW: index, action, kind, base, size (R8); check 2 of R9. -/
def parseWindow (args : List Word) : Parsed WindowRequest :=
  if h : 1 ≤ argNat args 0 ∧ argNat args 0 < 16 then
    let index : Fin 16 := ⟨argNat args 0, h.2⟩
    match argNat args 1 with
    | 0 =>
      match windowKindOf (argNat args 2) with
      | none => .bad 2
      | some kind =>
        let base := argAddr args 3
        let size := argSize args 5
        if kind = .control then .bad 2
        else if base % 4096 ≠ 0 then .bad 3
        else if size % 4096 ≠ 0 ∨ size < 4096 ∨ 17179869184 < size then .bad 4
        else .ok ⟨index, some ⟨true, kind, base, size⟩⟩
    | 1 => .ok ⟨index, none⟩
    | _ => .bad 1
  else .bad 0

/-- The live state that refuses a SET_WINDOW, by its position in R10. -/
def Part.windowBusy (r : WindowRequest) (p : Part) : Option Nat :=
  let old := p.pts.windows[r.index]
  let holds (k : WindowKind) : Bool := old.present && decide (old.kind = k)
  let makes := match r.window with
    | none => false
    | some w => decide (w.kind = .frameStore)
  if p.sht.layout.isSome && (holds .frameStore || makes) then some 0
  else if p.icr.target.isSome && holds .ingest then some 1
  else if decide (p.cal.session ≠ .none) && holds .bundle then some 2
  else none

def Window.overlaps (a b : Window) : Bool := a.present && b.present && decide (a.base < b.base + b.size) && decide (b.base < a.base + a.size)

/-- The lowest other entry of the table that satisfies a condition. -/
def Pts.otherEntry (p : Pts) (i : Fin 16) (f : Window → Bool) : Option Nat :=
  ((List.finRange 16).find? fun j => j != i && f p.windows[j]).map Fin.val

/-- A kind that one window at most may have (R9 check 6). -/
def WindowKind.single : WindowKind → Bool
  | .ingest | .view | .bundle | .frameStore => true
  | .pass | .control => false

/-- The bytes a window of a kind must hold under a geometry (R9 check 7, R12). -/
def WindowKind.minimum (k : WindowKind) (g : Geometry) : Nat :=
  match k with
  | .ingest => g.frameBytes
  | .view => g.previewBytes
  | .frameStore => g.slotSize
  | _ => 0

def pagesFor (bytes : Nat) : Nat := ceilDiv bytes Config.pageBytes

/-- Checks 4 to 7 of R9: the result data of the first that fails. -/
def Part.windowUnfit (i : Fin 16) (w : Window) (p : Part) : Option (List Word) :=
  if p.pts.capacity < w.base + w.size then some (natWords2 p.pts.capacity)
  else
    match p.pts.otherEntry i w.overlaps with
    | some j => some [natWord j]
    | none =>
      match if w.kind.single then p.pts.otherEntry i (fun x => x.present && decide (x.kind = w.kind)) else none with
      | some j => some [natWord j]
      | none =>
        match p.pts.geometry with
        | none => none
        | some g => if w.size < w.kind.minimum g then some [natWord (pagesFor (w.kind.minimum g))] else none

/-- The result data of an accepted SET_WINDOW (R8). -/
def Part.windowResult (i : Fin 16) (p : Part) : List Word :=
  let w := p.pts.windows[i]
  let shown := if w.present then [1, natWord w.kind.code] ++ natWords2 w.base ++ natWords2 w.size else [0, 0, 0, 0, 0, 0]
  let slots := match p.pts.geometry with
    | none => []
    | some g => if w.present ∧ w.kind = .frameStore then [natWord (g.slotsIn w.size)] else []
  shown ++ natWords2 p.pts.capacity ++ slots

def Part.putWindow (i : Fin 16) (w : Option Window) (p : Part) : Part :=
  { p with pts := { p.pts with windows := p.pts.windows.set i (w.getD Window.absent) } }

/-- SET_WINDOW (R8, R9). -/
def cmdSetWindow (n : Fin 8) (args : List Word) (p : Part) : Part :=
  match parseWindow args with
  | .bad i => p.refuse n .badArg [natWord i]
  | .ok r =>
    match p.windowBusy r with
    | some live => p.refuse n .busy [natWord live]
    | none =>
      match r.window.bind fun w => p.windowUnfit r.index w with
      | some data => p.refuse n .badArg data
      | none =>
        let q := p.putWindow r.index r.window
        q.done n (q.windowResult r.index)

/-! ## SET_GEOMETRY (R11, R12) -/

/-- The arguments of SET_GEOMETRY: width, height, phase, depth, checked in that order. -/
def parseGeometry (args : List Word) : Parsed Geometry :=
  let w := argNat args 0
  let h := argNat args 1
  let d := argNat args 3
  if w % 16 ≠ 0 ∨ w < 2048 ∨ 12288 < w then .bad 0
  else if h % 8 ≠ 0 ∨ h < 1536 ∨ 9216 < h then .bad 1
  else
    match cfaOf (argNat args 2) with
    | none => .bad 2
    | some cfa => if d = 12 ∨ d = 14 ∨ d = 16 then .ok ⟨w, h, cfa, d⟩ else .bad 3

/-- The first present window, by index, too small for a geometry (R12). -/
def Pts.tooSmall (p : Pts) (g : Geometry) : Option (Fin 16) :=
  (List.finRange 16).find? fun i => p.windows[i].present && Nat.blt p.windows[i].size (p.windows[i].kind.minimum g)

/-- SET_GEOMETRY (R10 to R12). -/
def cmdSetGeometry (n : Fin 8) (args : List Word) (p : Part) : Part :=
  if p.sht.layout.isSome then p.refuse n .busy [0]
  else
    match parseGeometry args with
    | .bad i => p.refuse n .badArg [natWord i]
    | .ok g =>
      match p.pts.tooSmall g with
      | some i => p.refuse n .badArg [natWord i.val, natWord (pagesFor (p.pts.windows[i].kind.minimum g))]
      | none =>
        let slots := match p.pts.windowOf .frameStore with
          | none => []
          | some w => [natWord (g.slotsIn w.size)]
        Part.done n ([natWord g.frameBytes, natWord g.slotPages, natWord g.previewBytes] ++ slots)
          { p with pts := { p.pts with geometry := some g } }

/-! ## Bursts (R1, R3, R5, R6, R75) -/

/-- BURST_ACCEPT (R1, R17): while the port is open and a queue place free. -/
def Part.burstAccept (b : Burst) (p : Part) : Part :=
  if p.phase = .running ∧ p.pts.queue.length < Config.upstreamPlaces then
    { p with pts := { p.pts with queue := p.pts.queue ++ [b] } }
  else p

/-- What a burst's window requires (R5); no window is as PASS. -/
def headOf (w : Option Window) (write : Bool) : Head :=
  match w with
  | none => .forward false
  | some w =>
    match w.kind, write with
    | .pass, _ => .forward false
    | .control, _ => .forward write
    | .ingest, true => .ingestWrite w.base
    | .ingest, false => .ingestRead
    | .view, true => .viewWrite
    | .view, false => .viewRead w.base
    | .bundle, true => .bundleWrite
    | .bundle, false => .bundleRead
    | .frameStore, true => .guardWrite
    | .frameStore, false => .forward false

/-- BURST_CLASSIFY (R3): the two tests that answer ERROR, then the window table. -/
def Part.burstClassify (p : Part) : Part :=
  match p.pts.queue, p.pts.head with
  | b :: _, none =>
    if Config.pageBytes < b.addr % Config.pageBytes + Burst.bytes b then p.answerError b
    else if p.pts.capacity < b.addr + Burst.bytes b then p.answerError b
    else p.setHead (headOf (p.pts.windows.toList.find? fun w => w.contains b.addr) b.write)
  | _, _ => p

/-- FORWARDED_BURST (R5): the burst becomes a pass-through request. -/
def Part.forwardedBurst (p : Part) : Part :=
  match p.headBurst with
  | some (_, .forward control) => p.setHead (.forwarding control)
  | _ => p

/-- The shot whose slot holds an address, 0 if none does (R75). -/
def Sht.shotAt (t : Sht) (addr : Nat) : Word :=
  match t.layout with
  | none => 0
  | some l =>
    if l.base ≤ addr then
      match t.slots[(addr - l.base) / l.slotSize]? with
      | some (.shot n) => n
      | _ => 0
    else 0

/-- GUARD_WRITE (R6, R75). -/
def Part.guardWrite (p : Part) : Part :=
  match p.headBurst with
  | some (b, .guardWrite) =>
    let q : Part := Part.statusDirty { p with sht := { p.sht with guardCount := satIncr p.sht.guardCount } }
    (q.emit .guardWrite (p.sht.shotAt b.addr) (addrWords b.addr)).answerError b
  | _ => p

/-! ## Meanings -/

def execSetWindow (w : SlotWrite) (s : State) : Host.Outcome State Fault Refusal := s.onPart (Part.hostVerb .setWindow cmdSetWindow w)
def execSetGeometry (w : SlotWrite) (s : State) : Host.Outcome State Fault Refusal := s.onPart (Part.hostVerb .setGeometry cmdSetGeometry w)
def execBurstAccept (b : Burst) (s : State) : Host.Outcome State Fault Refusal := s.onPart (Part.burstAccept b)
def execBurstClassify (s : State) : Host.Outcome State Fault Refusal := s.onPart Part.burstClassify
def execForwardedBurst (s : State) : Host.Outcome State Fault Refusal := s.onPart Part.forwardedBurst
def execGuardWrite (s : State) : Host.Outcome State Fault Refusal := s.onPart Part.guardWrite

end Sys2Proof.Machine
end

