-- ==== Sys2Proof/Machine/ShotTable.lean ====
section
/-! DEFINITION. The Shot Table's commands: PROTECT, UNPROTECT, RELEASE, QUERY_SHOT (R69 to R74). -/

namespace Sys2Proof.Machine

def Part.setProtect (number : Word) (on : Bool) : Part → Part := Part.modShot number fun t => { t with prot := on }

def Part.setProtectedCount (c : Nat) (p : Part) : Part := { p with sht := { p.sht with protectedCount := c } }

/-- PROTECT (R72). -/
def cmdProtect (n : Fin 8) (args : List Word) (p : Part) : Part :=
  let number := argWord args 0
  let count := p.sht.protectedCount
  let limit := p.sht.slots.length - 2
  match p.keptShot? number with
  | none => p.refuse n .notFound []
  | some t =>
    if t.prot then p.done n [natWord count]
    else if limit < count + 1 then p.refuse n .protectLimit [natWord count, natWord limit]
    else (((p.setProtect number true).setProtectedCount (count + 1)).statusDirty).done n [natWord (count + 1)]

/-- UNPROTECT (R73). -/
def cmdUnprotect (n : Fin 8) (args : List Word) (p : Part) : Part :=
  let number := argWord args 0
  let count := p.sht.protectedCount
  match p.keptShot? number with
  | none => p.refuse n .notFound []
  | some t =>
    if t.prot then
      let q := ((p.setProtect number false).setProtectedCount (count - 1)).statusDirty
      let released := q.autoReleasable number
      (q.autoRelease number).done n [natWord (count - 1), flagWord released]
    else p.done n [natWord count, 0]

/-- RELEASE (R69, R70). The record of a shot in AWAIT_DARK is removed when its capture has ended (R123). -/
def cmdRelease (n : Fin 8) (args : List Word) (p : Part) : Part :=
  let number := argWord args 0
  match p.keptShot? number with
  | none => p.refuse n .notFound []
  | some t =>
    if t.prot then p.refuse n .protected_ []
    else
      match p.requestFor number with
      | some r => p.refuse n .inQueue [natWord r.id]
      | none =>
        match t.state with
        | .developed | .stored => p.releaseNow n t
        | .awaitDark =>
          if p.dfl.capture.isSome ∧ p.dfl.ending = none then
            p.endCapture .cancelled (.release n number)
          else p.refuse n .busy [natWord t.state.code]
        | _ => p.refuse n .busy [natWord t.state.code]

/-- The writes of an image, in address order; the last one ends the command (R74). -/
def imageWrites (ends : Fin 8 × List Word) : List (Nat × List Byte) → List CpaWrite
  | [] => []
  | [(a, bytes)] => [.image a bytes (some ends)]
  | (a, bytes) :: rest => .image a bytes none :: imageWrites ends rest

/-- QUERY_SHOT (R74). -/
def cmdQueryShot (n : Fin 8) (args : List Word) (p : Part) : Part :=
  let number := argWord args 0
  let addr := argAddr args 1
  if addr % 16 ≠ 0 ∨ !p.pts.inPass addr 512 then p.refuse n .badBuffer []
  else
    match p.shot? number with
    | none => p.refuse n .notFound []
    | some t =>
      let writes := imageWrites (n, [number, natWord t.state.code, 512]) (cutBursts 4 addr t.image)
      { p with cpa := { p.cpa with writes := p.cpa.writes ++ writes } }

/-! ## Meanings -/

def execProtect (w : SlotWrite) (s : State) : Host.Outcome State Fault Refusal := s.onPart (Part.hostVerb .protect cmdProtect w)
def execUnprotect (w : SlotWrite) (s : State) : Host.Outcome State Fault Refusal := s.onPart (Part.hostVerb .unprotect cmdUnprotect w)
def execRelease (w : SlotWrite) (s : State) : Host.Outcome State Fault Refusal := s.onPart (Part.hostVerb .release cmdRelease w)
def execQueryShot (w : SlotWrite) (s : State) : Host.Outcome State Fault Refusal := s.onPart (Part.hostVerb .queryShot cmdQueryShot w)

end Sys2Proof.Machine
end

