-- ==== Sys2Proof/Machine/Thermal.lean ====
section
/-! DEFINITION. The Thermal and Supply Monitor: readings, the temperature state, limits and the supply state (R207 to R212). -/

namespace Sys2Proof.Machine

/-! ## Readings (R207 to R210) -/

/-- TEMP_READING_START (R207). -/
def Part.tempReadingStart (p : Part) : Part :=
  match p.tsm.schedule, p.tsm.transaction with
  | some t, none =>
    if t.due p.now then
      { p with
        tsm :=
          { p.tsm with
            schedule := some ⟨t.expiry, Config.probePeriod⟩, transaction := some ⟨t.expiry, Config.probeLimit⟩
            recovering := false } }
    else p
  | _, _ => p

/-- The state a reading gives on leaving FAULT (R208). -/
def Tsm.classify (t : Tsm) (r : Int) : TempState := if t.critical ≤ r then .critical else if t.warm ≤ r then .warm else .normal

/-- The state after a good reading (R208, R209). -/
def Tsm.next (t : Tsm) (r : Int) : TempState :=
  match t.temp with
  | .fault => t.classify r
  | .normal => if t.critical ≤ r then .critical else if t.warm ≤ r then .warm else .normal
  | .warm => if t.critical ≤ r then .critical else if r < t.warm - t.hysteresis then .normal else .warm
  | .critical => if r < t.critical - t.hysteresis then .warm else .critical

/-- The reading and the state change at one instant (R210): readers, the ESU, the event, the status record. The ESU's events of
the change stand in the ring before TEMP_STATE: a DESIGN CHOICE, since R210 allows either order (log entry 38). -/
def Part.setTemp (st : TempState) (reading : Option Int) (time : Word) (p : Part) : Part :=
  let changed := decide (st ≠ p.tsm.temp)
  let q : Part := { p with tsm := { p.tsm with temp := st, reading := reading } }
  let q := if changed && decide (st = .critical) then q.toldCritical else q
  let q := if changed then q.emitAt time .tempState 0 [natWord st.code, intWord (reading.getD 0)] else q
  if changed || decide (reading ≠ p.tsm.reading) then q.statusDirty else q

/-- A missed reading (R208). -/
def Part.missedReading (time : Word) (p : Part) : Part :=
  let q : Part := { p with tsm := { p.tsm with transaction := none, recovering := true, missed := min 3 (p.tsm.missed + 1) } }
  if p.tsm.missed = 2 ∧ p.tsm.temp ≠ .fault then q.setTemp .fault none time else q

/-- A good reading (R208, R209). -/
def Part.goodReading (r : Int) (time : Word) (p : Part) : Part :=
  let q : Part := { p with tsm := { p.tsm with transaction := none, missed := 0 } }
  q.setTemp (q.tsm.next r) (some r) time

/-- Quarter degrees of a probe value in sixteenths (R207). -/
def quarterDegrees (v : Half) : Int := v.toInt / 4

/-- TEMP_READING_END (R207). -/
def Part.tempReadingEnd (acknowledged : Bool) (value : Half) (p : Part) : Part :=
  match p.tsm.transaction with
  | none => p
  | some t =>
    let r := quarterDegrees value
    if Config.probeLimit < (p.now - t.start).toNat then p.missedReading t.expiry
    else if acknowledged ∧ -160 ≤ r ∧ r ≤ 500 then p.goodReading r p.now
    else p.missedReading p.now

/-- TEMP_READING_TIMEOUT (R207). -/
def Part.tempReadingTimeout (p : Part) : Part :=
  match p.tsm.transaction with
  | none => p
  | some t => if t.due p.now then p.missedReading t.expiry else p

/-! ## Limits (R211) -/

/-- SET_LIMITS (R211). All three words are read as signed, so a hysteresis word of 2^31 or more is clamped to 1. Of the hysteresis this
is a DESIGN CHOICE: R215 calls temperatures signed and does not say whether a difference of two is (log entry 52). -/
def cmdSetLimits (n : Fin 8) (args : List Word) (p : Part) : Part :=
  let warm := clampInt 80 280 (argInt args 0)
  let critical := clampInt (warm + 8) 320 (argInt args 1)
  let hysteresis := clampInt 1 20 (argInt args 2)
  let adjusted := warm != argInt args 0 || critical != argInt args 1 || hysteresis != argInt args 2
  Part.doneOr n adjusted
    [intWord warm, intWord critical, intWord hysteresis, natWord p.tsm.temp.code, intWord (p.tsm.reading.getD 0)]
    { p with tsm := { p.tsm with warm := warm, critical := critical, hysteresis := hysteresis } }

/-! ## Supply (R212) -/

/-- The supply state a level of SUPPLY_LOW_IN stands for. -/
def supplyOf (high : Bool) : Supply := if high then .low else .normal

/-- SUPPLY_TRANSITION (R212). -/
def Part.supplyTransition (high : Bool) (p : Part) : Part :=
  let q : Part := { p with pins := { p.pins with supply := high } }
  if p.phase = .asserted then q
  else if supplyOf high = q.tsm.supply then { q with tsm := { q.tsm with supplyTimer := none } }
  else if q.tsm.supplyTimer.isSome then q
  else { q with tsm := { q.tsm with supplyTimer := some ⟨q.now, Config.supplyDebounce⟩ } }

def Supply.other : Supply → Supply
  | .normal => .low
  | .low => .normal

/-- SUPPLY_STATE (R212): the ESU and the DFL are told, the event is emitted, the status record rewritten. The ESU's and the DFL's
events of the change stand in the ring before SUPPLY_STATE: a DESIGN CHOICE, since events of different blocks that fall together
are accepted in either order (log entry 38). -/
def Part.supplyChange (p : Part) : Part :=
  match p.tsm.supplyTimer with
  | none => p
  | some t =>
    if t.due p.now then
      let st := p.tsm.supply.other
      let q : Part := { p with tsm := { p.tsm with supply := st, supplyTimer := none } }
      let q := if st = .low then (q.toldLowSupply t.expiry).endCapture .lowSupply .nothing else q
      (q.emitAt t.expiry .supplyState 0 [natWord st.code]).statusDirty
    else p

/-! ## Meanings -/

def execTempReadingStart (s : State) : Host.Outcome State Fault Refusal := s.onPart Part.tempReadingStart
def execTempReadingEnd (acknowledged : Bool) (value : Half) (s : State) : Host.Outcome State Fault Refusal :=
  s.onPart (Part.tempReadingEnd acknowledged value)
def execTempReadingTimeout (s : State) : Host.Outcome State Fault Refusal := s.onPart Part.tempReadingTimeout
def execSetLimits (w : SlotWrite) (s : State) : Host.Outcome State Fault Refusal := s.onPart (Part.hostVerb .setLimits cmdSetLimits w)
def execSupplyTransition (high : Bool) (s : State) : Host.Outcome State Fault Refusal := s.onPart (Part.supplyTransition high)
def execSupplyState (s : State) : Host.Outcome State Fault Refusal := s.onPart Part.supplyChange

end Sys2Proof.Machine
end

