-- ==== Sys2Proof/Machine/ControlPage.lean ====
section
/-! DEFINITION. The Control Page Agent: its own commands, RESET_SHOTS, ABORT, and the host writes it observes (R20 to R40). -/

namespace Sys2Proof.Machine

/-! ## START, STATUS, CLEAR_FLAGS, SET_EVENT_MASK (R28, R33, R36, R37) -/

/-- START (R28): the preconditions, then OPERATIONAL with S fixed. -/
def cmdStart (n : Fin 8) (_ : List Word) (p : Part) : Part :=
  match p.missing with
  | some data => p.refuse n .notReady data
  | none =>
    let q : Part := Part.fixSlots { p with cpa := { p.cpa with mode := .operational } }
    q.statusDirty.done n [natWord q.sht.slots.length, natWord q.geo.slotPages]

/-- STATUS (R36): ends when the status write has completed. -/
def cmdStatus (n : Fin 8) (_ : List Word) (p : Part) : Part := p.statusFor n

/-- CLEAR_FLAGS (R37): the selections are a set of items in one word (DEDUCED, log entry 12). -/
def cmdClearFlags (n : Fin 8) (args : List Word) (p : Part) : Part :=
  let sel := argWord args 0
  let before := [flagWord p.cpa.dropped, p.icr.strayCount, p.sht.guardCount]
  let q : Part :=
    { p with
      cpa := { p.cpa with dropped := p.cpa.dropped && !sel.getLsbD 0 }
      icr := { p.icr with strayCount := if sel.getLsbD 1 then 0 else p.icr.strayCount }
      sht := { p.sht with guardCount := if sel.getLsbD 2 then 0 else p.sht.guardCount } }
  (if sel.getLsbD 0 || sel.getLsbD 1 || sel.getLsbD 2 then q.statusDirty else q).done n before

/-- SET_EVENT_MASK (R33). -/
def cmdSetEventMask (n : Fin 8) (args : List Word) (p : Part) : Part :=
  Part.done n [p.cpa.mask.setWidth 32] { p with cpa := { p.cpa with mask := (argWord args 0).setWidth 22 } }

/-! ## RESET_SHOTS (R38, R39, R76, R108, R127) -/

/-- The ESU stops (R108): lines low, timers and strobe stopped, IDLE. Settings, debounces and timebase stay. -/
def Part.stopEsu (p : Part) : Part :=
  let q := p.stopSequence.setSeq .idle
  { q with
    esu :=
      { q.esu with flushLine := false, readLine := false, strobeLine := false, flushPulse := none, readPulse := none, strobePulse := none } }

/-- A command that waited for the end of a capture is cut short (R39). -/
def Part.abortAfter (a : After) (p : Part) : Part :=
  match a with
  | .nothing => p
  | .arm n _ => p.fail n .aborted []
  | .skip n _ => p.fail n .aborted []
  | .release n _ => p.fail n .aborted []

/-- So are the ARMs that waited for it (R39). -/
def Part.abortArms : List (Fin 8 × List Word) → Part → Part
  | [], p => p
  | (n, _) :: rest, p => Part.abortArms rest (p.fail n .aborted [])

/-- The DFL stops (R127): capture, library and transient darks are dropped; the policy stays. The library entry count of the
status record falls to 0 (R34). -/
def Part.stopDfl (p : Part) : Part :=
  let q := match p.dfl.ending with
    | none => p
    | some e => (p.abortAfter e.after).abortArms e.arms
  let q : Part := { q with dfl := { q.dfl with entries := [], transients := [], capture := none, ending := none } }
  if p.dfl.entries = [] then q else q.statusDirty

/-- The DPE's burst in flight, if any, is waited for (R166). -/
def Part.dpeInFlight (p : Part) : Bool :=
  match p.port.busy with
  | none => false
  | some b => decide (b.who = .internal .dpe)

/-- The blocks are told to stop: ESU, DFL and CAL stop at once; ICR, DPE, PRN and CDE when their work under way has ended
(R38). -/
def Part.stopBlocks (p : Part) : Part :=
  let p := p.stopEsu.stopDfl.stopCal
  let p := if p.icr.work.isNone then p.icrStopped else p
  let p := if p.dpeInFlight then p else p.dpeStopped
  let p := if p.prn.work.isNone then p.prnStopped else p
  p.checkCdeStop

/-- RESET_SHOTS (R38). -/
def cmdResetShots (n : Fin 8) (_ : List Word) (p : Part) : Part :=
  Part.stopBlocks { p with cpa := { p.cpa with resetting := some ⟨n, false, false, false, false, false, 0, 0⟩ } }

/-- The shot table with no record and every slot FREE (R76). -/
def Sht.cleared (t : Sht) : Sht := { t with records := [], slots := t.slots.map fun _ => .free, protectedCount := 0 }

/-- SHT_RESET_CLEAR (R76): every other block has stopped. The status record is rewritten if its free slot count or its protected
count changes (R34). -/
def Part.shtResetClear (p : Part) : Part :=
  match p.cpa.resetting with
  | none => p
  | some r =>
    if r.icr && r.dpe && r.prn && r.cde && !r.sht then
      let q : Part :=
        { p with
          sht := p.sht.cleared
          cpa := { p.cpa with resetting := some { r with sht := true, shots := p.sht.records.length } } }
      if p.sht.freeCount = p.sht.slots.length ∧ p.sht.protectedCount = 0 then q else q.statusDirty
    else p

/-- RESET_SHOTS_DONE (R39): status record, RESET_DONE, the command's end. -/
def Part.resetShotsDone (p : Part) : Part :=
  match p.cpa.resetting with
  | none => p
  | some r =>
    if r.sht then
      let counts := [natWord r.shots, natWord r.requests]
      let q : Part := { p with cpa := { p.cpa with resetting := none } }
      (q.statusDirty.emit .resetDone 0 counts).done r.slot counts
    else p

/-! ## ABORT (R24) -/

/-- ABORT in an IDLE slot: a command of its own; its data marks that nothing was aborted. -/
def cmdAbort (n : Fin 8) (_ : List Word) (p : Part) : Part := p.done n [1]

def Part.markAborting (n : Fin 8) (c : Latched) (p : Part) : Part := p.setCmd n (some { c with aborting := true })

/-- ABORT in a BUSY slot: a CARD_INIT or LOAD_CLOSE in flight is aborted, anything else goes on. -/
def Part.abortBusy (n : Fin 8) (c : Latched) (p : Part) : Part :=
  if c.ended || c.aborting then p
  else
    match c.verb with
    | some .cardInit => (p.markAborting n c).abortBringup
    | some .loadClose => (p.markAborting n c).abortClose
    | _ => p

/-- ABORT observed in a slot (R24). -/
def Part.abortSlot (n : Fin 8) (p : Part) : Part :=
  match p.cmdIn n with
  | some c => p.abortBusy n c
  | none => p.takeVerb .abort n cmdAbort

/-- The ABORT row: the copy is updated, then ABORT acts on the slot. -/
def Part.hostAbort (w : SlotWrite) (p : Part) : Part :=
  if p.phase = .running then (p.noteWrite w).abortSlot w.slot else p

/-! ## Host writes to the control page (R20, R21, R23) -/

/-- The owner's part of each command (R21), without the CDE's choice, which one burst has once (R192). -/
def bodyOf : Verb → Fin 8 → List Word → Part → Part
  | .setGeometry => cmdSetGeometry
  | .setWindow => cmdSetWindow
  | .start => cmdStart
  | .status => cmdStatus
  | .clearFlags => cmdClearFlags
  | .setEventMask => cmdSetEventMask
  | .resetShots => cmdResetShots
  | .abort => cmdAbort
  | .loadOpen => cmdLoadOpen
  | .loadClose => cmdLoadClose
  | .loadCancel => cmdLoadCancel
  | .arm => cmdArm
  | .disarm => disarmShot
  | .setSync => cmdSetSync
  | .snapshot => cmdSnapshot
  | .setDarkPolicy => cmdSetDarkPolicy
  | .skipDark => cmdSkipDark
  | .protect => cmdProtect
  | .unprotect => cmdUnprotect
  | .release => cmdRelease
  | .queryShot => cmdQueryShot
  | .viewSelect => cmdViewSelect
  | .cardInit => cmdCardInit
  | .store => cmdStore
  | .cardWrite => joinTransfer Work.write
  | .cardRead => joinTransfer Work.read
  | .cardCancel => cancelById
  | .cardResume => cmdCardResume
  | .setLimits => cmdSetLimits

/-- A verb word observed in a slot (R21, R23, R24). -/
def Part.verbWord (n : Fin 8) (w : Word) (p : Part) : Part :=
  if w = 0 then p
  else
    match verbOf w with
    | some .abort => p.abortSlot n
    | v =>
      match p.cmdIn n with
      | some _ => p
      | none =>
        match v with
        | some v => p.takeVerb v n (bodyOf v)
        | none => (p.latch none n).refuse n .unknownVerb []

/-- The command slot an offset of the page lies in, and the offset within it (R19). -/
def slotPlace (off : Nat) : Option (Fin 8 × Nat) :=
  if h : Config.slotArea ≤ off ∧ (off - Config.slotArea) / 128 < 8 then
    some (⟨(off - Config.slotArea) / 128, h.2⟩, (off - Config.slotArea) % 128)
  else none

/-- The bytes written, beat by beat, with the page offset of each. -/
def pageBeats : Nat → Nat → List Byte → List (Nat × List Byte)
  | 0, _, _ => []
  | fuel + 1, off, bytes => if bytes.length < 16 then [] else (off, bytes.take 16) :: pageBeats fuel (off + 16) (bytes.drop 16)

def beatsOf (off : Nat) (bytes : List Byte) : List (Nat × List Byte) := pageBeats bytes.length off bytes

def wordAt (bytes : List Byte) (i : Nat) : Word := BitVec.ofNat 32 (leNat (slice i 4 bytes))

def Part.putSlot (n : Fin 8) (f : Slot → Slot) (p : Part) : Part :=
  { p with cpa := { p.cpa with slots := p.cpa.slots.set n (f p.cpa.slots[n]) } }

/-- The slot copy takes a beat: the tag of the first beat, four words of the argument area of the next six (R20). -/
def Part.noteBeat (p : Part) (b : Nat × List Byte) : Part :=
  match slotPlace b.1 with
  | none => p
  | some (n, 0) => p.putSlot n fun s => { s with tag := wordAt b.2 4 }
  | some (n, i) => if i < 112 then p.putSlot n fun s => { s with args := overlay s.args (i / 4 - 4) (bytesWords b.2) } else p

/-- What the CPA does for a beat once the copies hold the whole write (R20, R21). -/
def Part.actBeat (p : Part) (b : Nat × List Byte) : Part :=
  if b.1 < 256 then p.statusDirty
  else if b.1 = Config.producerArea then p.pushWrite .producerRewrite
  else if b.1 = Config.consumerArea then p.consumerSeen (wordAt b.2 0)
  else
    match slotPlace b.1 with
    | some (n, 0) => p.verbWord n (wordAt b.2 0)
    | _ => p

/-- A host write to the control page is observed (R20). A burst that covers the first beats of two slots, or several areas,
hands them over in ascending offset order: a DESIGN CHOICE, since R21 lets two commands so written be taken in either order
(log entry 36). What falls together in it leads to a single choice of the CDE (R192). -/
def Part.observe (off : Nat) (bytes : List Byte) (p : Part) : Part :=
  let beats := beatsOf off bytes
  Part.choosing (beats.foldl Part.actBeat) (beats.foldl Part.noteBeat p)

/-- The rows that stand for an observed host write act once the port is open (R17). -/
def Part.observed (f : Part → Part) (p : Part) : Part := if p.phase = .running then f p else p

/-! ## Meanings -/

def execControlPageWrite (offset : Nat) (data : List Byte) (s : State) : Host.Outcome State Fault Refusal :=
  s.onPart (Part.observed (Part.observe offset data))
def execProducerBeatWrite (s : State) : Host.Outcome State Fault Refusal := s.onPart (Part.observed (Part.pushWrite .producerRewrite))
def execConsumerWrite (word : Word) (s : State) : Host.Outcome State Fault Refusal := s.onPart (Part.observed (Part.consumerSeen word))
def execStatusRecordHostWrite (s : State) : Host.Outcome State Fault Refusal := s.onPart (Part.observed Part.statusDirty)
def execEventRecordWritten (s : State) : Host.Outcome State Fault Refusal := s.onPart Part.eventRecordDone
def execProducerWritten (s : State) : Host.Outcome State Fault Refusal := s.onPart Part.producerDone
def execResultDataWritten (s : State) : Host.Outcome State Fault Refusal := s.onPart Part.resultDataDone
def execSlotResultWritten (s : State) : Host.Outcome State Fault Refusal := s.onPart Part.slotResultDone
def execStart (w : SlotWrite) (s : State) : Host.Outcome State Fault Refusal := s.onPart (Part.hostVerb .start cmdStart w)
def execStatus (w : SlotWrite) (s : State) : Host.Outcome State Fault Refusal := s.onPart (Part.hostVerb .status cmdStatus w)
def execClearFlags (w : SlotWrite) (s : State) : Host.Outcome State Fault Refusal := s.onPart (Part.hostVerb .clearFlags cmdClearFlags w)
def execSetEventMask (w : SlotWrite) (s : State) : Host.Outcome State Fault Refusal :=
  s.onPart (Part.hostVerb .setEventMask cmdSetEventMask w)
def execResetShots (w : SlotWrite) (s : State) : Host.Outcome State Fault Refusal := s.onPart (Part.hostVerb .resetShots cmdResetShots w)
def execAbort (w : SlotWrite) (s : State) : Host.Outcome State Fault Refusal := s.onPart (Part.hostAbort w)
def execShtResetClear (s : State) : Host.Outcome State Fault Refusal := s.onPart Part.shtResetClear
def execResetShotsDone (s : State) : Host.Outcome State Fault Refusal := s.onPart Part.resetShotsDone

end Sys2Proof.Machine
end

