-- ==== Sys2Proof/Machine/Resets.lean ====
section
/-! DEFINITION. Hard reset and the sequence after it (R17, R18, R40, R77, R78, R109, R182, R206, R213). -/

namespace Sys2Proof.Machine

/-- A write that RESET_IN ends: each of its beats keeps its old value or takes its new one, by a free value (R18). -/
def tornWrite (free : Nat) (m : Memory) (addr : Nat) : List (Nat × List Byte) → Memory
  | [] => m
  | (_, beat) :: rest =>
    tornWrite (free + 1) (if Config.tornBeat free then m.writeBytes addr beat else m) (addr + beat.length) rest

/-- Frame memory after RESET_IN has ended the burst in progress. -/
def State.tornMemory (s : State) : Memory :=
  match s.part.port.busy with
  | none => s.mem
  | some b => if b.write then tornWrite s.part.free s.mem b.addr (beatsOf 0 b.data) else s.mem

/-- The free values that the assertion uses up. -/
def Part.freeAfterReset (p : Part) : Nat :=
  match p.port.busy with
  | none => p.free
  | some b => if b.write then p.free + (beatsOf 0 b.data).length else p.free

/-- The state from RESET_IN assertion, with the straps sampled (R17, R18, R40, R109). -/
def State.hardReset (straps : Straps) (s : State) : State :=
  { s with mem := s.tornMemory, part := .reset straps s.part.pins s.part.freeAfterReset }

/-- RESET_RELEASE: the lines are sampled as the debounced levels, the timebase begins to count and the first probe
transaction starts (R78, R81, R86, R182, R207, R212). -/
def Part.resetRelease (p : Part) : Part :=
  if p.phase = .asserted then
    { p with
      phase := .released
      esu := { p.esu with contact := p.pins.sync, button := p.pins.arm }
      cde := { p.cde with seated := p.pins.card, card := if p.pins.card then .present else .absent }
      tsm :=
        { p.tsm with
          supply := supplyOf p.pins.supply, schedule := some ⟨p.now, Config.probePeriod⟩
          transaction := some ⟨p.now, Config.probeLimit⟩ } }
  else p

def gib : Nat := 1073741824

def capacityBytes : Capacity → Nat
  | .gib1 => gib
  | .gib2 => 2 * gib
  | .gib4 => 4 * gib
  | .gib8 => 8 * gib
  | .gib16 => 16 * gib

/-- The reset writes in order (R40). -/
def resetWriteList : List CpaWrite := [.resetStatus] ++ (List.finRange 8).map CpaWrite.resetSlot ++ [.resetProducer, .resetConsumer]

/-- CAPACITY_OBTAINED (R17): the capacity is kept, and the CPA's reset writes become due. -/
def Part.capacityObtained (c : Capacity) (p : Part) : Part :=
  if p.phase = .released then
    { p with
      phase := .resetWrites
      pts := { p.pts with capacity := capacityBytes c }
      resetWrites := resetWriteList.length
      cpa := { p.cpa with writes := resetWriteList ++ p.cpa.writes } }
  else p

/-- RESET_WRITES_DONE (R17, R40): the system memory port opens. -/
def Part.resetWritesDone (p : Part) : Part :=
  if p.phase = .resetWrites ∧ p.resetWrites = 0 then { p with phase := .running } else p

/-! ## The timebase (R78) -/

/-- REFCLK cycles in a microsecond, as the REFCLK_SEL straps select. -/
def prescaler (refclkSel : BitVec 2) : Nat :=
  match refclkSel.toNat with
  | 0 => 24
  | 1 => 27
  | _ => 48

/-- One REFCLK cycle: the prescaler counts, and at its wrap the timebase advances. From RESET_IN assertion to its release it
holds 0. -/
def Part.tick (p : Part) : Part :=
  if p.phase = .asserted then p
  else if p.clock.prescale + 1 < prescaler p.straps.refclkSel then { p with clock := { p.clock with prescale := p.clock.prescale + 1 } }
  else { p with clock := ⟨0, p.clock.time + 1⟩ }

/-- The step taken when no command waits (DESIGN CHOICE, log entry 1): one REFCLK cycle passes. -/
def State.idle (s : State) : State := { s with part := s.part.tick }

/-! ## Meanings -/

def execHardReset (straps : Straps) (s : State) : Host.Outcome State Fault Refusal := .next (s.hardReset straps)
def execResetRelease (s : State) : Host.Outcome State Fault Refusal := s.onPart Part.resetRelease
def execCapacityObtained (c : Capacity) (s : State) : Host.Outcome State Fault Refusal := s.onPart (Part.capacityObtained c)
def execResetWritesDone (s : State) : Host.Outcome State Fault Refusal := s.onPart Part.resetWritesDone

end Sys2Proof.Machine
end

