-- ==== Sys2Proof/Machine/FramePort.lean ====
section
/-! DEFINITION. The frame memory port: the requests that wait, the arbiter's grant, and the end of a burst (R7, R13 to R16, R30, R34 to R36). -/

namespace Sys2Proof.Machine

/-! ## Requests -/

/-- The page offset of a slot (R19). -/
def slotOffset (n : Fin 8) : Nat := Config.slotArea + 128 * n.val

/-- The tag latched by the command in a slot. -/
def Part.latchedTag (n : Fin 8) (p : Part) : Word :=
  match p.cmdIn n with
  | none => 0
  | some c => c.tag

/-- The burst of a CPA write with the values standing at its grant; status writes are counted before (R34). -/
def CpaWrite.access (w : CpaWrite) (p : Part) : Access :=
  let base := p.pts.controlBase
  match w with
  | .resultData n words _ _ => .writeOf (base + slotOffset n + 16) (wordsBytes words)
  | .slotBeat n cls code => .writeOf (base + slotOffset n) (slotBeatBytes 0 (p.latchedTag n) cls code)
  | .eventRecord i e => .writeOf (base + Config.ringArea + 32 * (i.toNat % 64)) (eventBytes e)
  | .producerBeat v => .writeOf (base + Config.producerArea) (indexBeatBytes v)
  | .producerRewrite => .writeOf (base + Config.producerArea) (indexBeatBytes p.cpa.written)
  | .consumerRewrite => .writeOf (base + Config.consumerArea) (indexBeatBytes p.cpa.consumer)
  | .status _ => .writeOf base p.statusBytes
  | .image addr bytes _ => .writeOf addr bytes
  | .resetStatus => .writeOf base p.statusBytes
  | .resetSlot n => .writeOf (base + slotOffset n) (slotBeatBytes 0 0 .none .ok)
  | .resetProducer => .writeOf (base + Config.producerArea) (indexBeatBytes 0)
  | .resetConsumer => .writeOf (base + Config.consumerArea) (indexBeatBytes 0)

/-- The result data of the STATUS commands that a status write serves (R36). -/
def Part.statusValues (p : Part) : List Word :=
  [natWord p.cpa.mode.code, p.cpa.producer, p.cpa.consumer, flagWord p.cpa.dropped, p.cpa.updates]

/-- The request of the pass-through side (R5, R14): the forwarded head burst, or the access of the ICR's work. -/
def Part.passRequest (p : Part) : Option Access :=
  match p.headBurst with
  | some (b, .forwarding _) => some (if b.write then .writeOf b.addr b.data else .readOf b.addr (Burst.bytes b))
  | some (_, .owned) => p.icr.work.bind fun w => w.request p.sht.slotAddr
  | _ => none

/-- The request of an internal master (R14). The CPA's is the head of its queue, with the present values, once the installed
capacity has been obtained (R17). A master that has work presents its next request as soon as its last burst has ended, never
later: a DESIGN CHOICE, since R14 gives no time for it (log entry 42). -/
def Part.requestOf (m : Master) (p : Part) : Option Access :=
  match m with
  | .cpa => if p.phase = .resetWrites ∨ p.phase = .running then p.cpa.writes.head?.map fun w => w.access p else none
  | .dpe => p.dpe.pass.bind fun s => s.request p.geo p.sht.slotAddr
  | .prn => p.prn.work.bind fun w => w.rendering.bind fun r => r.request p.geo p.sht.slotAddr
  | .cde => p.cde.request

/-! ## Arbitration (R14, R15) -/

/-- The cyclic order that starts after a master. -/
def Master.after : Master → List Master
  | .cpa => [.dpe, .prn, .cde, .cpa]
  | .dpe => [.prn, .cde, .cpa, .dpe]
  | .prn => [.cde, .cpa, .dpe, .prn]
  | .cde => [.cpa, .dpe, .prn, .cde]

/-- The internal master that a grant to the internal side goes to (R15). -/
def Part.waitingMaster (p : Part) : Option Master := p.port.last.after.find? fun m => (p.requestOf m).isSome

/-- The grant and the starvation counter after it (R14). -/
def Part.arbitrate (p : Part) : Option (Requester × Nat) :=
  match p.passRequest.isSome, p.waitingMaster with
  | true, none => some (.passThrough, 0)
  | true, some m =>
    if p.port.starvation < Config.starvationLimit then some (.passThrough, p.port.starvation + 1) else some (.internal m, 0)
  | false, some m => some (.internal m, 0)
  | false, none => none

/-- The port carries a burst. -/
def Part.carry (who : Requester) (a : Access) (cpa : Option CpaWrite) (values : List Word) (list : Bool) (p : Part) : Part :=
  { p with port := { p.port with busy := some ⟨who, a.write, a.addr, a.length, a.data, cpa, values, list⟩ } }

/-- The CPA's write is granted: it leaves the queue; a status write is counted and takes the values now standing (R34). -/
def Part.grantCpa (w : CpaWrite) (p : Part) : Part :=
  let q : Part := { p with cpa := { p.cpa with writes := p.cpa.writes.tail } }
  let q : Part := if w.isStatus then { q with cpa := { q.cpa with updates := q.cpa.updates + 1 } } else q
  q.carry (.internal .cpa) (w.access q) (some w) q.statusValues false

/-- A grant is carried out. -/
def Part.grant (who : Requester) (p : Part) : Part :=
  match who with
  | .passThrough =>
    match p.passRequest with
    | none => p
    | some a => p.carry who a none [] false
  | .internal m =>
    let p : Part := { p with port := { p.port with last := m } }
    match m with
    | .cpa =>
      match p.cpa.writes with
      | [] => p
      | w :: _ => p.grantCpa w
    | .cde =>
      match p.cde.request with
      | none => p
      | some a => p.carry who a none [] p.cde.openList.isSome
    | m =>
      match p.requestOf m with
      | none => p
      | some a => p.carry who a none [] false

/-- The granted burst leaves the installed memory. -/
def Part.strays (p : Part) : Option Nat :=
  match p.port.busy with
  | none => none
  | some b => if p.pts.capacity < b.addr + b.length then some b.addr else none

/-- ARBITER_GRANT (R14): the port is free and a request waits. A CPA write whose end is still to be followed up holds the port
(DESIGN CHOICE, log entry 6). -/
def execArbiterGrant (s : State) : Host.Outcome State Fault Refusal :=
  if s.part.port.busy.isSome || s.part.cpa.ended.isSome then .next s
  else
    match s.part.arbitrate with
    | none => .next s
    | some (who, counter) =>
      let p := Part.grant who { s.part with port := { s.part.port with starvation := counter } }
      match p.strays with
      | some addr => .fault (.outsideMemory addr)
      | none => .next { s with part := p }

/-! ## The end of a burst (R7, R13) -/

/-- Each STATUS command that a status write served ends (R36). -/
def Part.endWaiters (values : List Word) : List (Fin 8) → Part → Part
  | [], p => p
  | n :: ns, p => Part.endWaiters values ns (p.done n values)

def Part.resetWriteDone (p : Part) : Part := { p with resetWrites := p.resetWrites - 1 }

def Part.setEnded (w : CpaWrite) (p : Part) : Part := { p with cpa := { p.cpa with ended := some w } }

/-- A CPA write has completed: the slot copy takes the CPA's own bytes (R20), and what the write ends is ended or left to its
own row. -/
def Part.cpaBurstDone (w : CpaWrite) (values : List Word) (p : Part) : Part :=
  match w with
  | .resultData n words _ _ => (p.putSlot n fun s => { s with args := words }).setEnded w
  | .slotBeat n _ _ => (p.putSlot n fun s => { s with tag := p.latchedTag n }).setEnded w
  | .eventRecord _ _ => p.setEnded w
  | .producerBeat _ => p.setEnded w
  | .producerRewrite => p
  | .consumerRewrite => p
  | .status waiters => p.endWaiters values waiters
  | .image _ _ none => p
  | .image _ _ (some (n, data)) => p.done n data
  | .resetStatus => p.resetWriteDone
  | .resetSlot _ => p.resetWriteDone
  | .resetProducer => p.resetWriteDone
  | .resetConsumer => p.resetWriteDone

/-- The pass-through burst has ended: a forwarded burst is observed and answered (R2, R7), the ICR's work goes on (R134). -/
def Part.passBurstDone (b : InFlight) (read : List Byte) (p : Part) : Part :=
  match p.headBurst with
  | some (_, .forwarding control) =>
    if b.write then (if control then p.observe (b.addr - p.pts.controlBase) b.data else p).answer true []
    else p.answer true read
  | some (_, .owned) => p.ingestBurstDone read
  | _ => p

/-- What follows the end of the burst in progress; `read` holds a read's data. -/
def Part.burstDone (b : InFlight) (read : List Byte) (p : Part) : Part :=
  match b.who with
  | .passThrough => p.passBurstDone b read
  | .internal .cpa =>
    match b.cpa with
    | none => p
    | some w => p.cpaBurstDone w b.values
  | .internal .dpe => p.dpeBurstDone b.write b.addr b.length read
  | .internal .prn => p.sourceRead read
  | .internal .cde => p.cdeBurstDone b.write b.list b.addr read

/-- FRAME_BURST_END (R13): a write's bytes are in memory, a read's data returned. -/
def execFrameBurstEnd (s : State) : Host.Outcome State Fault Refusal :=
  match s.part.port.busy with
  | none => .next s
  | some b =>
    let p : Part := { s.part with port := { s.part.port with busy := none } }
    if b.write then .next { s with mem := s.mem.writeBytes b.addr b.data, part := p.burstDone b [] }
    else .next { s with part := p.burstDone b (s.mem.readBytes b.addr b.length) }

end Sys2Proof.Machine
end

