-- ==== Sys2Proof/Machine/Dispatch.lean ====
section
/-! DEFINITION. Every command and its meaning. -/

namespace Sys2Proof.Machine

def exec (i : Instr) (s : State) : Host.Outcome State Fault Refusal :=
  match i with
  | .hardReset straps => Sys2Proof.Machine.execHardReset straps s
  | .resetRelease => Sys2Proof.Machine.execResetRelease s
  | .capacityObtained capacity => Sys2Proof.Machine.execCapacityObtained capacity s
  | .resetWritesDone => Sys2Proof.Machine.execResetWritesDone s
  | .burstAccept burst => Sys2Proof.Machine.execBurstAccept burst s
  | .burstClassify => Sys2Proof.Machine.execBurstClassify s
  | .forwardedBurst => Sys2Proof.Machine.execForwardedBurst s
  | .guardWrite => Sys2Proof.Machine.execGuardWrite s
  | .ingestWrite => Sys2Proof.Machine.execIngestWrite s
  | .ingestRead => Sys2Proof.Machine.execIngestRead s
  | .viewRead => Sys2Proof.Machine.execViewRead s
  | .viewWrite => Sys2Proof.Machine.execViewWrite s
  | .bundleWrite => Sys2Proof.Machine.execBundleWrite s
  | .bundleRead => Sys2Proof.Machine.execBundleRead s
  | .arbiterGrant => Sys2Proof.Machine.execArbiterGrant s
  | .frameBurstEnd => Sys2Proof.Machine.execFrameBurstEnd s
  | .controlPageWrite offset data => Sys2Proof.Machine.execControlPageWrite offset data s
  | .producerBeatWrite => Sys2Proof.Machine.execProducerBeatWrite s
  | .consumerWrite word => Sys2Proof.Machine.execConsumerWrite word s
  | .statusRecordHostWrite => Sys2Proof.Machine.execStatusRecordHostWrite s
  | .eventRecordWritten => Sys2Proof.Machine.execEventRecordWritten s
  | .producerWritten => Sys2Proof.Machine.execProducerWritten s
  | .resultDataWritten => Sys2Proof.Machine.execResultDataWritten s
  | .slotResultWritten => Sys2Proof.Machine.execSlotResultWritten s
  | .setGeometry w => Sys2Proof.Machine.execSetGeometry w s
  | .setWindow w => Sys2Proof.Machine.execSetWindow w s
  | .start w => Sys2Proof.Machine.execStart w s
  | .status w => Sys2Proof.Machine.execStatus w s
  | .clearFlags w => Sys2Proof.Machine.execClearFlags w s
  | .setEventMask w => Sys2Proof.Machine.execSetEventMask w s
  | .resetShots w => Sys2Proof.Machine.execResetShots w s
  | .abort w => Sys2Proof.Machine.execAbort w s
  | .loadOpen w => Sys2Proof.Machine.execLoadOpen w s
  | .loadClose w => Sys2Proof.Machine.execLoadClose w s
  | .loadChecksDone => Sys2Proof.Machine.execLoadChecksDone s
  | .loadCancel w => Sys2Proof.Machine.execLoadCancel w s
  | .loadTimeout => Sys2Proof.Machine.execLoadTimeout s
  | .arm w => Sys2Proof.Machine.execArm w s
  | .disarm w => Sys2Proof.Machine.execDisarm w s
  | .setSync w => Sys2Proof.Machine.execSetSync w s
  | .snapshot w => Sys2Proof.Machine.execSnapshot w s
  | .setDarkPolicy w => Sys2Proof.Machine.execSetDarkPolicy w s
  | .skipDark w => Sys2Proof.Machine.execSkipDark w s
  | .protect w => Sys2Proof.Machine.execProtect w s
  | .unprotect w => Sys2Proof.Machine.execUnprotect w s
  | .release w => Sys2Proof.Machine.execRelease w s
  | .queryShot w => Sys2Proof.Machine.execQueryShot w s
  | .viewSelect w => Sys2Proof.Machine.execViewSelect w s
  | .cardInit w => Sys2Proof.Machine.execCardInit w s
  | .store w => Sys2Proof.Machine.execStore w s
  | .extentListRead => Sys2Proof.Machine.execExtentListRead s
  | .cardWrite w => Sys2Proof.Machine.execCardWrite w s
  | .cardRead w => Sys2Proof.Machine.execCardRead w s
  | .cardCancel w => Sys2Proof.Machine.execCardCancel w s
  | .cardResume w => Sys2Proof.Machine.execCardResume w s
  | .setLimits w => Sys2Proof.Machine.execSetLimits w s
  | .syncTransition closed => Sys2Proof.Machine.execSyncTransition closed s
  | .syncEdgeAccept => Sys2Proof.Machine.execSyncEdgeAccept s
  | .armInTransition pressed => Sys2Proof.Machine.execArmInTransition pressed s
  | .armInAccept => Sys2Proof.Machine.execArmInAccept s
  | .sensorPulseEnd => Sys2Proof.Machine.execSensorPulseEnd s
  | .flushEnd => Sys2Proof.Machine.execFlushEnd s
  | .armWindowExpiry => Sys2Proof.Machine.execArmWindowExpiry s
  | .settleGuardExpiry => Sys2Proof.Machine.execSettleGuardExpiry s
  | .programmedTimeExpiry => Sys2Proof.Machine.execProgrammedTimeExpiry s
  | .integrationLimit => Sys2Proof.Machine.execIntegrationLimit s
  | .strobeFire => Sys2Proof.Machine.execStrobeFire s
  | .strobePulseEnd => Sys2Proof.Machine.execStrobePulseEnd s
  | .darkFlushEnd => Sys2Proof.Machine.execDarkFlushEnd s
  | .darkIntegrationExpiry => Sys2Proof.Machine.execDarkIntegrationExpiry s
  | .ingestCommit => Sys2Proof.Machine.execIngestCommit s
  | .readoutTimeout => Sys2Proof.Machine.execReadoutTimeout s
  | .stage1End => Sys2Proof.Machine.execStage1End s
  | .stage3End => Sys2Proof.Machine.execStage3End s
  | .passEnd => Sys2Proof.Machine.execPassEnd s
  | .rowRendered => Sys2Proof.Machine.execRowRendered s
  | .cardDetectTransition seated => Sys2Proof.Machine.execCardDetectTransition seated s
  | .cardInserted => Sys2Proof.Machine.execCardInserted s
  | .cardRemoval => Sys2Proof.Machine.execCardRemoval s
  | .cardResetWaitExpiry => Sys2Proof.Machine.execCardResetWaitExpiry s
  | .powerUpPollTimer => Sys2Proof.Machine.execPowerUpPollTimer s
  | .powerUpTimeout => Sys2Proof.Machine.execPowerUpTimeout s
  | .cardResponse reply => Sys2Proof.Machine.execCardResponse reply s
  | .cardResponseTimeout => Sys2Proof.Machine.execCardResponseTimeout s
  | .cardDataStatus status => Sys2Proof.Machine.execCardDataStatus status s
  | .cardBusyEnd => Sys2Proof.Machine.execCardBusyEnd s
  | .cardBusyTimeout => Sys2Proof.Machine.execCardBusyTimeout s
  | .cardReadBlock crcGood data => Sys2Proof.Machine.execCardReadBlock crcGood data s
  | .cardDataTimeout => Sys2Proof.Machine.execCardDataTimeout s
  | .runAttemptFailed => Sys2Proof.Machine.execRunAttemptFailed s
  | .tempReadingStart => Sys2Proof.Machine.execTempReadingStart s
  | .tempReadingEnd acknowledged value => Sys2Proof.Machine.execTempReadingEnd acknowledged value s
  | .tempReadingTimeout => Sys2Proof.Machine.execTempReadingTimeout s
  | .supplyTransition high => Sys2Proof.Machine.execSupplyTransition high s
  | .supplyState => Sys2Proof.Machine.execSupplyState s
  | .shtResetClear => Sys2Proof.Machine.execShtResetClear s
  | .resetShotsDone => Sys2Proof.Machine.execResetShotsDone s

end Sys2Proof.Machine
end

