-- ==== Sys2Proof/WellFormed.lean ====
section
/-! DEFINITION. Which operands a command can carry: the shapes the ports, the card and the control page give them. -/

namespace Sys2Proof

/-- A burst begins on a beat of the 36-bit address space, has 1 to 16 beats, and a write carries whole beats (spec/01, The
system memory port). A burst that crosses its page is well formed: the part itself answers it (R3). -/
def Burst.wf (b : Burst) : Bool :=
  b.addr % 16 == 0 && decide (b.addr < 2 ^ 36) && decide (1 ≤ b.beats) && decide (b.beats ≤ 16) &&
    b.data.length == (if b.write then 16 * b.beats else 0)

/-- The argument words of one burst are whole beats and lie in the 96-byte argument area (R19, R217). -/
def SlotWrite.wf (w : SlotWrite) : Bool := w.args.length % 4 == 0 && decide (w.args.length ≤ 24)

/-- A host write to the control page as it is observed: whole beats, at most 16 of them, inside the page (R7, R13, R19). -/
def pageWriteWf (offset : Nat) (data : List Byte) : Bool :=
  offset % 16 == 0 && data.length % 16 == 0 && decide (16 ≤ data.length) && decide (data.length ≤ 256) &&
    decide (offset % 4096 + data.length ≤ 4096) && decide (offset + data.length ≤ Config.controlBytes)

namespace Instr

/-- The operands of a command are ones its source can send. -/
def wf : Instr → Bool
  | .burstAccept b => b.wf
  | .controlPageWrite off d => pageWriteWf off d
  | .cardReadBlock _ d => d.length == Config.sectorBytes
  | .setGeometry w | .setWindow w | .start w | .status w | .clearFlags w | .setEventMask w | .resetShots w | .abort w => w.wf
  | .loadOpen w | .loadClose w | .loadCancel w | .arm w | .disarm w | .setSync w | .snapshot w | .setDarkPolicy w => w.wf
  | .skipDark w | .protect w | .unprotect w | .release w | .queryShot w | .viewSelect w | .cardInit w | .store w => w.wf
  | .cardWrite w | .cardRead w | .cardCancel w | .cardResume w | .setLimits w => w.wf
  | .hardReset _ | .resetRelease | .capacityObtained _ | .resetWritesDone | .burstClassify | .forwardedBurst | .guardWrite => true
  | .ingestWrite | .ingestRead | .viewRead | .viewWrite | .bundleWrite | .bundleRead | .arbiterGrant | .frameBurstEnd => true
  | .producerBeatWrite | .consumerWrite _ | .statusRecordHostWrite | .eventRecordWritten | .producerWritten => true
  | .resultDataWritten | .slotResultWritten | .loadChecksDone | .loadTimeout | .extentListRead => true
  | .syncTransition _ | .syncEdgeAccept | .armInTransition _ | .armInAccept | .sensorPulseEnd | .flushEnd => true
  | .armWindowExpiry | .settleGuardExpiry | .programmedTimeExpiry | .integrationLimit | .strobeFire | .strobePulseEnd => true
  | .darkFlushEnd | .darkIntegrationExpiry | .ingestCommit | .readoutTimeout | .stage1End | .stage3End | .passEnd => true
  | .rowRendered | .cardDetectTransition _ | .cardInserted | .cardRemoval | .cardResetWaitExpiry | .powerUpPollTimer => true
  | .powerUpTimeout | .cardResponse _ | .cardResponseTimeout | .cardDataStatus _ | .cardBusyEnd | .cardBusyTimeout => true
  | .cardDataTimeout | .runAttemptFailed | .tempReadingStart | .tempReadingEnd _ _ | .tempReadingTimeout => true
  | .supplyTransition _ | .supplyState | .shtResetClear | .resetShotsDone => true

end Instr
end Sys2Proof
end

