-- ==== Sys2Proof/Safety.lean ====
section
/-! DEFINITION. What counts as a safe step, what it is for a host command to be taken, how a command that has been taken and ended leaves its slot, and the invariants the statements speak of. -/

namespace Sys2Proof.Machine

/-! ## Safe steps -/

/-- A step goes on: it neither faults nor refuses. -/
def State.safe (s : State) : Prop := ∃ t, step s = .next t

/-! ## Host commands (R20 to R22, R26, R27, R38) -/

/-- The command `v` that the host write `w` carries is taken and passes the checks made before its owner's: the port is open,
the slot IDLE, the mode accepts it, RESET_SHOTS does not hold it off, and in SERVICE a shot command finds the preconditions
of START. -/
abbrev Part.takes (v : Verb) (w : SlotWrite) (p : Part) : Prop :=
  p.phase = .running ∧ p.cpa.slots[w.slot].cmd = none ∧ v.accepted p.cpa.mode = true ∧
    (p.cpa.resetting = none ∨ v.duringReset = true) ∧ (v.isShot = true → p.cpa.mode = .service → p.missing = none)

/-- The argument area a command is taken with: the slot copy with the words of its own write over it. -/
def Part.words (w : SlotWrite) (p : Part) : List Word := overlay p.cpa.slots[w.slot].args 0 w.args

/-- The slot that holds the command taken from `w`. -/
def Part.holding (v : Verb) (w : SlotWrite) (ended : Bool) (p : Part) : Slot :=
  ⟨w.tag, p.words w, some ⟨some v, w.tag, p.words w, ended, false⟩⟩

/-- The part with the command in its slot, as its owner finds it. -/
def Part.taken (v : Verb) (w : SlotWrite) (p : Part) : Part :=
  { p with cpa := { p.cpa with slots := p.cpa.slots.set w.slot (p.holding v w false) } }

/-- The part with the command in its slot and its end taken: its result data, zero filled to 24 words, is the last write the
CPA has queued. -/
def Part.answered (v : Verb) (w : SlotWrite) (cls : ResultClass) (code : ResultCode) (data : List Word) (p : Part) : Part :=
  { p with
    cpa :=
      { p.cpa with
        slots := p.cpa.slots.set w.slot (p.holding v w true)
        writes := p.cpa.writes ++ [.resultData w.slot (padTo 24 0 data) cls code] } }

/-- The first shot command that passes in SERVICE fixes the slot count (R27). -/
def Part.entered (v : Verb) (p : Part) : Part := if v.isShot && decide (p.cpa.mode = .service) then p.fixSlots else p

/-- The row whose command a host write of a verb is. -/
def Verb.row (v : Verb) (w : SlotWrite) : Instr :=
  match v with
  | .setGeometry => .setGeometry w
  | .setWindow => .setWindow w
  | .start => .start w
  | .status => .status w
  | .clearFlags => .clearFlags w
  | .setEventMask => .setEventMask w
  | .resetShots => .resetShots w
  | .abort => .abort w
  | .loadOpen => .loadOpen w
  | .loadClose => .loadClose w
  | .loadCancel => .loadCancel w
  | .arm => .arm w
  | .disarm => .disarm w
  | .setSync => .setSync w
  | .snapshot => .snapshot w
  | .setDarkPolicy => .setDarkPolicy w
  | .skipDark => .skipDark w
  | .protect => .protect w
  | .unprotect => .unprotect w
  | .release => .release w
  | .queryShot => .queryShot w
  | .viewSelect => .viewSelect w
  | .cardInit => .cardInit w
  | .store => .store w
  | .cardWrite => .cardWrite w
  | .cardRead => .cardRead w
  | .cardCancel => .cardCancel w
  | .cardResume => .cardResume w
  | .setLimits => .setLimits w

/-- A command of the slot has ended: its result data waits in the CPA's queue, and its end is taken (R22). -/
def Part.hasEnded (n : Fin 8) (cls : ResultClass) (code : ResultCode) (data : List Word) (p : Part) : Prop :=
  CpaWrite.resultData n (padTo 24 0 data) cls code ∈ p.cpa.writes ∧ p.cpa.slots[n].cmd.map Latched.ended = some true

/-! ## Events that several rows report alike -/

/-- The events of an integration end (R100): EXPOSURE_END with the integration time and the set of flags, DARK_DECIDED with the
source's kind, its reason or entry id, and K, READOUT_BEGIN of a SHOT with the frame bytes. Absent values are 0. -/
def Part.integrationReported (n at_ : Word) (ts flags : Nat) (d : DarkSource) (p : Part) : Part :=
  let second : Nat × Nat :=
    match d with
    | .none r => (r.code, 0)
    | .library id k => (id, k)
    | .capture _ k => (0, k.getD 0)
    | .skipped r => (r.code, 0)
  Part.emitAt at_ .readoutBegin n [0, natWord (p.geo.width * p.geo.height * 2)]
    (Part.emitAt at_ .darkDecided n [natWord d.code, natWord second.1, natWord second.2]
      (Part.emitAt at_ .exposureEnd n [natWord ts, natWord flags] p))

/-- The flags that EXPOSURE_END carries (R100, R217): EARLY, OVERLONG, TRUNCATED and HOT, from bit 0. -/
def Exposure.flagSet (early overlong truncated hot : Bool) : Nat :=
  early.toNat + 2 * overlong.toNat + 4 * truncated.toNat + 8 * hot.toNat

/-- What a capture's failure reports (R61, R120, R123): its slot FREE, with SLOT_RELEASED of a DARK, then DARK_FAILED with the
reason and the elapsed integration, which is 0 in FLUSH, the time since the integration start in INTEGRATE, and T_d in READ. -/
def Part.captureFailureReported (c : Capture) (reason : DarkReason) (p : Part) : Part :=
  let elapsed : Nat :=
    match c.phase with
    | .flush => 0
    | .integrate => (p.clock.time - c.integStart.getD p.clock.time).toNat
    | .read => c.td
  Part.emit .darkFailed c.shot [natWord reason.code, natWord elapsed]
    (Part.emit .slotReleased c.shot [natWord c.slot, 1] p.statusDirty)

/-! ## Allocation -/

/-- The slot that an allocation takes, and the part with it given up (R60, R115): the lowest FREE one, or, with none FREE, that of
the library entry with refcount 0 and the lowest last-use stamp, which leaves the library. -/
def Part.givesSlot (p : Part) (slot : Nat) (q : Part) : Prop :=
  (q = p ∧ p.sht.slots[slot]? = some .free ∧ ∀ j < slot, p.sht.slots[j]? ≠ some .free) ∨
  ((∀ h ∈ p.sht.slots, h ≠ .free) ∧
    ∃ e ∈ p.dfl.entries, e.refs = 0 ∧ (∀ f ∈ p.dfl.entries, f.refs = 0 → f = e ∨ e.stamp.toNat < f.stamp.toNat) ∧
      slot = e.slot ∧ q = { p with dfl := { p.dfl with entries := p.dfl.entries.erase e } })

/-- An allocation fails (R60): no slot is FREE and no library entry has refcount 0. -/
abbrev Part.givesNoSlot (p : Part) : Prop := (∀ h ∈ p.sht.slots, h ≠ .free) ∧ ∀ e ∈ p.dfl.entries, e.refs ≠ 0

/-! ## Invariants -/

/-- IRQ_OUT has the level that R32 gives it. -/
abbrev Part.irqRight (p : Part) : Prop := p.cpa.irq = decide (p.cpa.written ≠ p.cpa.consumer)

/-- The ring holds at most 64 unconsumed records (R29). -/
abbrev Part.ringFits (p : Part) : Prop := (p.cpa.producer - p.cpa.consumer).toNat ≤ 64

/-- At most 8 bursts wait upstream (R1), and the starvation counter is at most 16 (R14). -/
abbrev Part.portsFit (p : Part) : Prop := p.pts.queue.length ≤ 8 ∧ p.port.starvation ≤ 16

/-- The card queue has at most 16 requests (R189). -/
abbrev Part.cardQueueFits (p : Part) : Prop := p.cde.requests.length ≤ 16

/-- The card queue stands in the order of arrival, and the arrival count is beyond every request's (R189). -/
abbrev Part.cardQueueInOrder (p : Part) : Prop :=
  p.cde.requests.Pairwise (fun a b => a.arrival < b.arrival) ∧ ∀ r ∈ p.cde.requests, r.arrival < p.cde.arrivals

/-- The load pointer does not pass the declared length (R46), and a close in flight is some slot's (R50). -/
abbrev Part.loadFits (p : Part) : Prop :=
  p.cal.pointer ≤ p.cal.declared ∧ (p.cal.session = .closing → p.cal.closer.isSome = true)

/-- At most S − 2 shots are counted protected, and no slot exists before S is fixed (R58, R72). -/
abbrev Part.protectionFits (p : Part) : Prop :=
  (p.sht.layout = none → p.sht.slots = []) ∧ p.sht.protectedCount ≤ p.sht.slots.length - 2

/-- The twelve sync settings are in their ranges (R79). -/
abbrev SyncSettings.inRange (x : SyncSettings) : Prop :=
  x.debounce ≤ 1000 ∧ 500 ≤ x.flush ∧ x.flush ≤ 20000 ∧ 1 ≤ x.armWindow ∧ x.armWindow ≤ 600 ∧ x.guard ≤ 100000 ∧
    100 ≤ x.readTimeout ∧ x.readTimeout ≤ 10000 ∧ 10 ≤ x.pulse ∧ x.pulse ≤ 1000 ∧ x.delay ≤ 10000 ∧ x.lineGain ≤ 7 ∧
    1000 ≤ x.lineTime ∧ x.lineTime ≤ 1800000000 ∧ (x.lineMode = .sync → x.linePlan ≠ .last) ∧ x.lineLead ≤ 1800000000

/-- The values that SET_SYNC, SET_DARK_POLICY and SET_LIMITS clamp are in their ranges (R79, R110, R211). -/
abbrev Part.settingsInRange (p : Part) : Prop :=
  p.esu.active.inRange ∧ (∀ x ∈ p.esu.staged, x.inRange) ∧
    (1 ≤ p.dfl.policy.threshold ∧ p.dfl.policy.threshold ≤ 60 ∧ p.dfl.policy.size ≤ 4 ∧ p.dfl.policy.pedestal ≤ 4095) ∧
    (80 ≤ p.tsm.warm ∧ p.tsm.warm ≤ 280 ∧ p.tsm.warm + 8 ≤ p.tsm.critical ∧ p.tsm.critical ≤ 320 ∧
      1 ≤ p.tsm.hysteresis ∧ p.tsm.hysteresis ≤ 20)

/-- What an invariant of the part says of a state. -/
abbrev State.meets (I : Part → Prop) (s : State) : Prop := I s.part

/-- A property of the part is kept by every step: from every state that has it, not only those a run from reset reaches. -/
def KeptByStep (I : Part → Prop) : Prop := ∀ s t : State, s.meets I → step s = .next t → t.meets I

end Sys2Proof.Machine
end

