-- ==== Sys2Proof/Certificates/Slice0/Obligations.lean ====
section
/-! DEFINITION. The statements for the provers: what the KB614's commands do, from the numbered rules of the spec. -/

open Sys2Proof Sys2Proof.Machine

/-! ## The queue, the clock, reset -/

/-- Tier 1. A step runs the command at the front of the queue on the state with the queue's rest. -/
def Obligations.StepRunsTheFrontCommand : Prop :=
  ∀ (c : Instr) (rest : List Instr) (s : State), s.pending = c :: rest → step s = exec c { s with pending := rest }

/-- Tier 1. With no command waiting, one REFCLK cycle passes (the model's choice, log entry 1): the prescaler counts to 24, 27
or 48 cycles by the REFCLK_SEL straps and the timebase then advances by one (R78); while RESET_IN is asserted neither moves. The
reset sequence (R17, R40, R78, R81, R86, R182, R207, R212): RESET_RELEASE samples the lines and starts the first probe reading;
CAPACITY_OBTAINED keeps the capacity and queues the reset writes in order; RESET_WRITES_DONE, once all have completed, opens the
system memory port. That there are eleven, the two index beats being two bursts, and that they go ahead of any earlier write is
the model's choice (log entry 17). -/
def Obligations.ClockAndResetSequenceAdvance : Prop :=
  (∀ s : State, s.pending = [] →
    (s.part.phase = .asserted → step s = .next s) ∧
    (s.part.phase ≠ .asserted →
      step s = .next
        { s with
          part :=
            { s.part with
              clock :=
                if s.part.clock.prescale + 1 < (if s.part.straps.refclkSel = 0 then 24 else if s.part.straps.refclkSel = 1 then 27 else 48)
                then ⟨s.part.clock.prescale + 1, s.part.clock.time⟩ else ⟨0, s.part.clock.time + 1⟩ } })) ∧
  ((∀ s : State, s.part.phase = .asserted →
    exec .resetRelease s = .next
      { s with
        part :=
          { s.part with
            phase := .released
            esu := { s.part.esu with contact := s.part.pins.sync, button := s.part.pins.arm }
            cde := { s.part.cde with seated := s.part.pins.card, card := if s.part.pins.card then .present else .absent }
            tsm :=
              { s.part.tsm with
                supply := if s.part.pins.supply then .low else .normal
                schedule := some ⟨s.part.clock.time, 250000⟩, transaction := some ⟨s.part.clock.time, 10000⟩ } } }) ∧
  (∀ (c : Capacity) (s : State), s.part.phase = .released →
    exec (.capacityObtained c) s = .next
      { s with
        part :=
          { s.part with
            phase := .resetWrites
            pts := { s.part.pts with capacity := capacityBytes c }
            resetWrites := 11
            cpa :=
              { s.part.cpa with
                writes :=
                  [.resetStatus, .resetSlot 0, .resetSlot 1, .resetSlot 2, .resetSlot 3, .resetSlot 4, .resetSlot 5, .resetSlot 6,
                    .resetSlot 7, .resetProducer, .resetConsumer] ++ s.part.cpa.writes } } }) ∧
  ([Capacity.gib1, .gib2, .gib4, .gib8, .gib16].map capacityBytes = [1, 2, 4, 8, 16].map (· * 2 ^ 30)) ∧
  (∀ s : State, s.part.phase = .resetWrites → s.part.resetWrites = 0 →
    exec .resetWritesDone s = .next { s with part := { s.part with phase := .running } }))

/-- Tier 1. What the spec gives the machine at hard reset (R4, R15, R17, R40, R41, R42, R57, R58, R62, R77, R79, R109, R110,
R128, R151, R182, R206, R213), at State.reset. R4 and R26 give the mode and the base of entry 0 by the straps: that State.reset
has them at 0 and SERVICE low, hence LOADER and base 0, is the model's choice (log entry 2). -/
def Obligations.ResetStateHoldsTheSpecsValues : Prop :=
  let p := State.reset.part
  p.pts.queue = [] ∧ p.pts.geometry = none ∧ p.pts.windows[0] = ⟨true, .control, 0, 65536⟩ ∧
  (∀ i : Fin 16, i ≠ 0 → p.pts.windows[i].present = false) ∧ p.port.starvation = 0 ∧ p.port.last = .cde ∧ p.port.busy = none ∧
  p.cpa.mode = .loader ∧ (∀ n : Fin 8, p.cpa.slots[n] = ⟨0, List.replicate 24 0, none⟩) ∧ p.cpa.writes = [] ∧
  p.cpa.producer = 0 ∧ p.cpa.consumer = 0 ∧ p.cpa.irq = false ∧ p.cpa.mask = BitVec.allOnes 22 ∧ p.cpa.dropped = false ∧
  p.cpa.updates = 0 ∧ p.icr.strayCount = 0 ∧ p.sht.guardCount = 0 ∧
  p.cal.tables = ⟨none, none, [], [], none, [(List.range 1024).map (· / 4)], [(4096, 4096, 4096)]⟩ ∧
  p.cal.committed = ⟨false, false, false, false, false⟩ ∧ p.cal.session = .none ∧ p.cal.timer = none ∧
  p.sht.layout = none ∧ p.sht.slots = [] ∧ p.sht.records = [] ∧ p.sht.counter = 1 ∧ p.sht.protectedCount = 0 ∧
  p.esu.active = ⟨200, 2000, 30, 5000, 3000, 100, 0, .sync, 0, 1000000, .first, 0⟩ ∧ p.esu.staged = none ∧ p.esu.seq = .idle ∧
  p.esu.flushLine = false ∧ p.esu.integLine = false ∧ p.esu.readLine = false ∧ p.esu.strobeLine = false ∧
  p.dfl.policy = ⟨.capture, 2, 2, 256⟩ ∧ p.dfl.entries = [] ∧ p.dfl.transients = [] ∧ p.dfl.capture = none ∧
  p.icr.target = none ∧ p.dpe.queue = [] ∧ p.dpe.pass = none ∧ p.prn.selection = none ∧ p.prn.cache = none ∧
  p.cde.policy = .fixed ∧ p.cde.lastClass = .shot ∧ p.cde.nextId = 1 ∧ p.cde.requests = [] ∧ p.cde.capacity = none ∧
  p.cde.clock = .low ∧ p.tsm.temp = .fault ∧ p.tsm.reading = none ∧ p.tsm.warm = 180 ∧ p.tsm.critical = 240 ∧ p.tsm.hysteresis = 8

/-- Tier 1. The state after reset has every invariant that the statements below say each step keeps. -/
def Obligations.ResetStateHasTheInvariants : Prop :=
  State.reset.mem.wf = true ∧ State.reset.meets Part.irqRight ∧ State.reset.meets Part.ringFits ∧ State.reset.meets Part.portsFit ∧
    State.reset.meets Part.cardQueueFits ∧ State.reset.meets Part.cardQueueInOrder ∧ State.reset.meets Part.loadFits ∧ State.reset.meets Part.protectionFits ∧
    State.reset.meets Part.settingsInRange

/-- Tier 2. HARD_RESET (R17, R18, R40): every part register takes its reset value, the mode that of the SERVICE strap; the raw
input lines stay as they are; commands waiting in the model's queue stay. Frame memory keeps its contents (R13), but for a write
in progress: each byte of it holds its old or its new value, and every byte outside it its old one. -/
def Obligations.HardResetResetsThePartAndKeepsMemory : Prop :=
  ∀ (straps : Straps) (s : State), ∃ t, exec (.hardReset straps) s = .next t ∧ t.pending = s.pending ∧
    (∃ free, t.part = Part.reset straps s.part.pins free) ∧
    t.part.cpa.mode = (if straps.service then .service else .loader) ∧
    (s.part.port.busy = none → t.mem = s.mem) ∧
    (∀ b, s.part.port.busy = some b → b.write = false → t.mem = s.mem) ∧
    (s.mem.wf = true → ∀ b, s.part.port.busy = some b → b.write = true → ∀ a,
      (a < b.addr ∨ b.addr + b.data.length ≤ a → t.mem.read a = s.mem.read a) ∧
      (b.addr ≤ a → t.mem.read a = s.mem.read a ∨ some (t.mem.read a) = b.data[a - b.addr]?))

/-! ## Frame memory -/

/-- Tier 3. Every step keeps frame memory in its canonical form: addresses strictly rising, no listed byte equal to what an
unlisted address reads as (the form is the model's, log entry 3). -/
def Obligations.EveryStepKeepsMemoryCanonical : Prop :=
  ∀ s t : State, s.mem.wf = true → step s = .next t → t.mem.wf = true

/-- Tier 2. Every command answers a next state in every state, its queue as it was, but ARBITER_GRANT, which answers a next
state or faults on a burst beyond the installed memory (log entry 31); no command is refused. That a row whose event cannot come
about in a state answers next and changes nothing is the model's choice (log entry 4). Frame memory is changed by the end of a
write burst and by hard reset only (R13, R18): every other command leaves every byte as it was. -/
def Obligations.EveryCommandCompletesAndFewWriteMemory : Prop :=
  (∀ (c : Instr) (s : State),
    (∃ t, exec c s = .next t ∧ t.pending = s.pending) ∨ (c = .arbiterGrant ∧ ∃ a, exec c s = .fault (.outsideMemory a))) ∧
  (∀ (c : Instr) (s t : State), c ≠ .frameBurstEnd → (∀ straps, c ≠ .hardReset straps) → exec c s = .next t → t.mem = s.mem)

/-- Tier 2. A run of bytes written to frame memory is read back, and every other address reads as before. A run of bytes in
frame memory is carried in bursts of 1 to 256 bytes, each within one 4 KiB page and each at the run's address plus the bytes
before it, and together they are the run (R13); each is the longest that the rest of the run, 256 bytes and the page allow (log
entry 44). QUERY_SHOT (R74): BAD_BUFFER unless the address is a multiple of 16 and the 512 bytes from it lie in one present PASS
window; NOT_FOUND if no record has the number; otherwise the CPA has the 512 bytes of the image to write, in address order:
bursts that each lie at the buffer's address plus the image bytes before them, at most 256 bytes within one page, of which the
last ends the command with the number, the state and 512 (each the longest that the rest, 256 bytes and the page allow: log
entry 44). The numbering of argument words and the order of result words are those of log entries 11 and 13. -/
def Obligations.MemoryRunsAndImagesAreCarriedInBursts : Prop :=
  (∀ (m : Memory) (x : Nat) (bytes : List Byte) (a : Nat), m.wf = true →
    (m.writeBytes x bytes).read a = if x ≤ a then bytes.getD (a - x) (m.read a) else m.read a) ∧
  (∀ (addr fuel : Nat) (bytes : List Byte), bytes.length ≤ fuel ∨ (bytes.length ≤ 512 ∧ 4 ≤ fuel) →
    (cutBursts fuel addr bytes).flatMap Prod.snd = bytes ∧
    ∀ pre b post, cutBursts fuel addr bytes = pre ++ b :: post →
      b.1 = addr + (pre.flatMap Prod.snd).length ∧ 0 < b.2.length ∧ b.2.length ≤ 256 ∧ b.1 % 4096 + b.2.length ≤ 4096 ∧
        b.2.length = min (bytes.length - (pre.flatMap Prod.snd).length) (min 256 (4096 - b.1 % 4096))) ∧
  (∀ (w : SlotWrite) (s : State), s.part.takes .queryShot w →
    let p := s.part.entered .queryShot
    let args := s.part.words w
    let n := args.getD 0 0
    let addr := (args.getD 1 0).toNat + (args.getD 2 0).toNat % 16 * 4294967296
    let inPass := ∃ x ∈ p.pts.windows.toList, x.present = true ∧ x.kind = .pass ∧ x.base ≤ addr ∧ addr + 512 ≤ x.base + x.size
    let carried (x : CpaWrite) : List Byte :=
      match x with
      | .image _ bytes _ => bytes
      | _ => []
    (addr % 16 ≠ 0 ∨ ¬inPass → exec (.queryShot w) s = .next { s with part := p.answered .queryShot w .refused .badBuffer [] }) ∧
    (addr % 16 = 0 → inPass →
      (p.shot? n = none → exec (.queryShot w) s = .next { s with part := p.answered .queryShot w .refused .notFound [] }) ∧
      (∀ x, p.shot? n = some x → x.image.length = 512 →
        ∃ ws, exec (.queryShot w) s = .next
            { s with part := { p.taken .queryShot w with cpa := { (p.taken .queryShot w).cpa with writes := p.cpa.writes ++ ws } } } ∧
          ws.flatMap carried = x.image ∧
          ∀ pre y post, ws = pre ++ y :: post →
            ∃ bytes, y =
                .image (addr + (pre.flatMap carried).length) bytes
                  (if post = [] then some (w.slot, [n, natWord x.state.code, 512]) else none) ∧
              0 < bytes.length ∧ bytes.length ≤ 256 ∧ (addr + (pre.flatMap carried).length) % 4096 + bytes.length ≤ 4096 ∧
              bytes.length = min (512 - (pre.flatMap carried).length) (min 256 (4096 - (addr + (pre.flatMap carried).length) % 4096)))))

/-! ## Invariants of every step -/

/-- Tier 3. IRQ_OUT is asserted while the producer word as last written differs from the consumer copy (R32): every step keeps
it so. -/
def Obligations.EveryStepKeepsIrqRight : Prop := KeptByStep Part.irqRight

/-- Tier 3. The ring never holds more than 64 unconsumed records (R29, R31). The upstream queue holds at most 8 bursts (R1) and
the starvation counter stands from 0 to 16 (R14). The card queue holds at most 16 requests (R189, R190, R191). The card queue
stands in the order of arrival, every arrival count below the next (R189). -/
def Obligations.EveryStepKeepsTheQueuesBounded : Prop :=
  (KeptByStep Part.ringFits) ∧
  (KeptByStep Part.portsFit) ∧
  (KeptByStep Part.cardQueueFits) ∧
  (KeptByStep Part.cardQueueInOrder)

/-- Tier 3. The load pointer never passes the declared length (R44 to R46). The protected count never exceeds S − 2, and there
is no slot before S is fixed (R58, R72). Sync settings, dark policy and temperature limits stay in their ranges (R79, R110,
R211). -/
def Obligations.EveryStepKeepsLoadProtectionAndSettingsInBounds : Prop :=
  (KeptByStep Part.loadFits) ∧
  (KeptByStep Part.protectionFits) ∧
  (KeptByStep Part.settingsInRange)

/-- Tier 3. The part leaves SERVICE or OPERATIONAL only by hard reset (R26): a step that does not take HARD_RESET keeps SERVICE
and OPERATIONAL, and takes LOADER to LOADER or OPERATIONAL. Entry 0 of the window table stays as reset set it until the next
hard reset (R4), and so do the straps and, while the port is open, the installed capacity (R13). -/
def Obligations.OnlyHardResetEndsModeAndControlWindow : Prop :=
  (∀ s t : State, (∀ straps, s.pending.head? ≠ some (.hardReset straps)) → step s = .next t →
    (s.part.cpa.mode ≠ .loader → t.part.cpa.mode = s.part.cpa.mode) ∧ (s.part.cpa.mode = .loader → t.part.cpa.mode ≠ .service)) ∧
  (∀ s t : State, (∀ straps, s.pending.head? ≠ some (.hardReset straps)) → step s = .next t →
    t.part.pts.windows[0] = s.part.pts.windows[0] ∧ t.part.straps = s.part.straps ∧
      (s.part.phase = .running → t.part.pts.capacity = s.part.pts.capacity))

/-! ## The pass-through path -/

/-- Tier 2. A burst offered while the port is open and a queue place is free joins the queue's end; otherwise nothing changes
and the burst waits at the port (R1, R17). Classification of the head burst (R3, R5): past the end of its page, or beyond the
installed capacity, it is answered ERROR and leaves the queue; in the window of a present entry it is treated as the kind
requires; in none, as PASS. FORWARDED_BURST then presents a forwarded burst to the arbiter. -/
def Obligations.HostBurstsAreAcceptedAndClassified : Prop :=
  (∀ (b : Burst) (s : State),
    (s.part.phase = .running → s.part.pts.queue.length < 8 →
      exec (.burstAccept b) s =
        .next { s with part := { s.part with pts := { s.part.pts with queue := s.part.pts.queue ++ [b] } } }) ∧
    (s.part.phase ≠ .running ∨ 8 ≤ s.part.pts.queue.length → exec (.burstAccept b) s = .next s)) ∧
  ((∀ (b : Burst) (rest : List Burst) (s : State), s.part.pts.queue = b :: rest → s.part.pts.head = none →
    ∃ t, exec .burstClassify s = .next t ∧
      t = { s with part := { s.part with pts := { s.part.pts with queue := t.part.pts.queue, head := t.part.pts.head, answer := t.part.pts.answer } } } ∧
      (4096 < b.addr % 4096 + 16 * b.beats ∨ s.part.pts.capacity < b.addr + 16 * b.beats →
        t.part.pts.queue = rest ∧ t.part.pts.head = none ∧
          t.part.pts.answer = some ⟨false, if b.write then [] else List.replicate (16 * b.beats) 0⟩) ∧
      (b.addr % 4096 + 16 * b.beats ≤ 4096 → b.addr + 16 * b.beats ≤ s.part.pts.capacity →
        t.part.pts.queue = b :: rest ∧ t.part.pts.answer = s.part.pts.answer ∧
        ((∀ x ∈ s.part.pts.windows.toList, x.contains b.addr = false) → t.part.pts.head = some (.forward false)) ∧
        (∀ x ∈ s.part.pts.windows.toList, x.contains b.addr = true →
          (∀ y ∈ s.part.pts.windows.toList, y.contains b.addr = true → y = x) →
          t.part.pts.head = some
            (match x.kind with
              | .pass => .forward false
              | .control => .forward b.write
              | .ingest => if b.write then .ingestWrite x.base else .ingestRead
              | .view => if b.write then .viewWrite else .viewRead x.base
              | .bundle => if b.write then .bundleWrite else .bundleRead
              | .frameStore => if b.write then .guardWrite else .forward false)))) ∧
  (∀ (b : Burst) (rest : List Burst) (control : Bool) (s : State), s.part.pts.queue = b :: rest →
    s.part.pts.head = some (.forward control) →
    exec .forwardedBurst s = .next { s with part := { s.part with pts := { s.part.pts with head := some (.forwarding control) } } }))

/-- Tier 1. The bursts that an owner answers ERROR without taking anything: a read of the INGEST window (R136), a write of the
VIEW window (R172), a read of the BUNDLE window (R47). A read returns zero bytes (R2); nothing else changes. A host write into
the FRAME_STORE window (R6, R75): ERROR, none of its bytes written, the guard-write count raised by one up to 4,294,967,295, the
status record due, and GUARD_WRITE with the burst's address and the number of the shot whose slot, of those laid out from the
window's base (R58), holds that address, 0 if none does (the two in this order: log entry 43). A write into the BUNDLE window
(R45, R46, R47): with no load open it is answered ERROR and discarded; in OPEN it restarts the timer, and is staged at the load
pointer and answered OKAY, or, after an overrun or when it would pass the declared length, answered ERROR with none of its bytes
staged and the load marked OVERRUN. -/
def Obligations.OwnersAnswerRefusedAndBundleBursts : Prop :=
  (∀ (b : Burst) (rest : List Burst) (s : State), s.part.pts.queue = b :: rest →
    let after : State :=
      { s with
        part :=
          { s.part with
            pts :=
              { s.part.pts with
                queue := rest, head := none, answer := some ⟨false, if b.write then [] else List.replicate (16 * b.beats) 0⟩ } } }
    (s.part.pts.head = some .ingestRead → exec .ingestRead s = .next after) ∧
    (s.part.pts.head = some .viewWrite → exec .viewWrite s = .next after) ∧
    (s.part.pts.head = some .bundleRead → exec .bundleRead s = .next after)) ∧
  (∀ (b : Burst) (rest : List Burst) (s : State) (shot : Word), s.part.pts.queue = b :: rest → s.part.pts.head = some .guardWrite →
    (∀ l, s.part.sht.layout = some l → 0 < l.slotSize) →
    (let holds (i : Nat) (n : Word) : Prop :=
      ∃ l, s.part.sht.layout = some l ∧ l.base + i * l.slotSize ≤ b.addr ∧ b.addr < l.base + (i + 1) * l.slotSize ∧
        s.part.sht.slots[i]? = some (.shot n)
    (∃ i, holds i shot) ∨ (shot = 0 ∧ ∀ i n, ¬holds i n)) →
    exec .guardWrite s = .next
      { s with
        part :=
          Part.answer false (if b.write then [] else List.replicate (16 * b.beats) 0)
            (Part.emit .guardWrite shot
              [BitVec.ofNat 32 b.addr, BitVec.ofNat 32 (b.addr / 4294967296)]
              (Part.statusDirty
                { s.part with
                  sht :=
                    { s.part.sht with
                      guardCount := if s.part.sht.guardCount = 4294967295 then 4294967295 else s.part.sht.guardCount + 1 } })) }) ∧
  (∀ (b : Burst) (rest : List Burst) (s : State), s.part.pts.queue = b :: rest → s.part.pts.head = some .bundleWrite →
    b.write = true →
    let c := s.part.cal
    let timer : Option Timer := some ⟨s.part.clock.time, c.timeout * 100000⟩
    let answered (okay : Bool) (cal : Cal) : State :=
      { s with
        part := { s.part with cal := cal, pts := { s.part.pts with queue := rest, head := none, answer := some ⟨okay, []⟩ } } }
    (c.session ≠ .open_ → exec .bundleWrite s = .next (answered false c)) ∧
    (c.session = .open_ → c.overrun = true → exec .bundleWrite s = .next (answered false { c with timer := timer })) ∧
    (c.session = .open_ → c.overrun = false → c.declared < c.pointer + 16 * b.beats →
      exec .bundleWrite s = .next (answered false { c with timer := timer, overrun := true })) ∧
    (c.session = .open_ → c.overrun = false → c.pointer + 16 * b.beats ≤ c.declared →
      exec .bundleWrite s = .next
        (answered true
          { c with
            timer := timer, pointer := c.pointer + 16 * b.beats
            staged := c.staged.take c.pointer ++ b.data ++ c.staged.drop (c.pointer + 16 * b.beats) })))

/-! ## The frame memory port -/

/-- Tier 2. The arbiter's grant (R13, R14, R15), at a free port with no CPA completion to follow up (log entry 6): the table of
R14 decides between the pass-through side and the internal masters by the starvation counter, and R15 among the masters, in the
order CPA, DPE, PRN, CDE from the one after the last granted. That a master with a burst to make is always waiting is log entry
42. The granted burst is carried as the requester presents it, if it lies in the installed memory; with no request nothing
changes. The CPA's oldest write leaves its queue, a status write being counted first (R34, R35). It carries the values that
stand at the grant: those of STATUS's result data (R36) by log entry 14, those of the beat rewrites (R31) by log entry 15, both
DEDUCED. What each master presents, and what the end of its burst does with the bytes. ICR (R134): the dark's bytes, then the
slot write; the dark bytes correct the taken ones, the slot write leaves the burst to its commit. PRN (R174): the source row at
ascending offsets. CDE (R190): the extent list takes its bytes, ahead of its other accesses (log entry 21). DPE (R154): stage 1
reads shot and dark, corrects and writes back, moving on over the gaps (R155); stage 2 fills each gap with the pedestal (R157);
stage 3 reads the beats of a repair that it has not read, one by one (log entry 23), then writes the pixel's beat (R159, R160);
stage 4 counts (R162). Bursts are the longest that range, page and 256 bytes allow (log entry 44). A DPE that RESET_SHOTS stops
drops its work (R166). -/
def Obligations.GrantsAndBurstEndsCarryTheWork : Prop :=
  (let cyclic (m : Master) : List Master :=
    match m with
    | .cpa => [.dpe, .prn, .cde, .cpa]
    | .dpe => [.prn, .cde, .cpa, .dpe]
    | .prn => [.cde, .cpa, .dpe, .prn]
    | .cde => [.cpa, .dpe, .prn, .cde]
  ∀ s : State, s.part.port.busy = none → s.part.cpa.ended = none →
    (s.part.passRequest = none → (∀ m, s.part.requestOf m = none) → exec .arbiterGrant s = .next s) ∧
    (∀ a, s.part.passRequest = some a → a.addr + a.length ≤ s.part.pts.capacity →
      ∀ counter,
      ((∀ m, s.part.requestOf m = none) ∧ counter = 0) ∨
          ((∃ m, s.part.requestOf m ≠ none) ∧ s.part.port.starvation < 16 ∧ counter = s.part.port.starvation + 1) →
      exec .arbiterGrant s = .next
        { s with
          part :=
            { s.part with
              port :=
                { s.part.port with
                  busy := some ⟨.passThrough, a.write, a.addr, a.length, a.data, none, [], false⟩
                  starvation := counter } } }) ∧
    (∀ m a, s.part.requestOf m = some a → a.addr + a.length ≤ s.part.pts.capacity →
      s.part.passRequest = none ∨ 16 ≤ s.part.port.starvation →
      (∀ x ∈ ((cyclic s.part.port.last).takeWhile fun x => decide (x ≠ m)), s.part.requestOf x = none) →
      ∃ t b, exec .arbiterGrant s = .next t ∧ t.mem = s.mem ∧ t.pending = s.pending ∧ t.part.port = ⟨0, m, some b⟩ ∧
        b.who = .internal m ∧ b.write = a.write ∧ b.addr = a.addr ∧ b.length = a.length ∧
        { t.part with port := s.part.port, cpa := s.part.cpa } = s.part ∧
        (m ≠ .cpa →
          b.data = a.data ∧ b.cpa = none ∧ b.values = [] ∧ b.list = (decide (m = .cde) && s.part.cde.openList.isSome) ∧
            t.part.cpa = s.part.cpa) ∧
        (∀ x rest, m = .cpa → s.part.cpa.writes = x :: rest →
          let counted := s.part.cpa.updates + (if x.isStatus then 1 else 0)
          let q : Part := { s.part with cpa := { s.part.cpa with writes := rest, updates := counted } }
          t.part.cpa = q.cpa ∧ b.data = (x.access q).data ∧ b.cpa = some x ∧ b.list = false ∧
            b.values = [natWord q.cpa.mode.code, q.cpa.producer, q.cpa.consumer, flagWord q.cpa.dropped, counted]))) ∧
  ((∀ (s : State) (b : InFlight), s.part.port.busy = some b →
    let g := s.part.geo
    let read := if b.write then [] else s.mem.readBytes b.addr b.length
    let ends (p : Part) : Prop :=
      exec .frameBurstEnd s = .next
        ⟨s.pending, if b.write then s.mem.writeBytes b.addr b.data else s.mem, { p with port := { s.part.port with busy := none } }⟩
    (∀ h rest w t, b.who = .passThrough → s.part.pts.queue = h :: rest → s.part.pts.head = some .owned → s.part.icr.work = some w →
      s.part.icr.target = some t →
      (w.stage = .needDark →
        let o :=
          correctBytes g (s.part.cal.tables.gainGrid.getD []) (s.part.cal.tables.corrector s.part.dfl.policy.pedestal t.gain t.dark)
            w.from_ w.bytes (some read)
        ends
          { s.part with
            icr :=
              { s.part.icr with
                work := some { w with bytes := o.bytes, low := o.low, high := o.high, stage := .needWrite } } }) ∧
      (w.stage = .needWrite → ends { s.part with icr := { s.part.icr with work := some { w with stage := .written } } })) ∧
    (∀ v r, b.who = .internal .prn → s.part.prn.work = some v → v.rendering = some r →
      ends
        { s.part with
          prn := { s.part.prn with work := some { v with rendering := some { r with source := r.source ++ read } } } }) ∧
    (∀ before l after, b.who = .internal .cde → b.write = false → b.list = true →
      s.part.cde.listReads = before ++ l :: after → (∀ x ∈ before, (8 * x.count + 15) / 16 * 16 ≤ x.got.length) →
      l.got.length < (8 * l.count + 15) / 16 * 16 →
      ends { s.part with cde := { s.part.cde with listReads := before ++ { l with got := l.got ++ read } :: after } }) ∧
    (b.who = .internal .dpe →
      (∀ r, s.part.cpa.resetting = some r → r.dpe = false →
        ends { s.part with dpe := ⟨[], none⟩, cpa := { s.part.cpa with resetting := some { r with dpe := true } } }) ∧
      (∀ a, s.part.cpa.resetting = none → s.part.dpe.pass = some a →
        let goes (a' : Pass) : Prop := ends { s.part with dpe := { s.part.dpe with pass := some a' } }
        let corrected (raw : List Byte) (dark : Option (List Byte)) : Prop :=
          let o := correctBytes g a.grid a.corrector a.pos raw dark
          goes { a with raw := some raw, out := some o.bytes, low := a.low + o.low, high := a.high + o.high }
        (a.stage = 1 → b.write = false → a.raw = none → a.dark = none → corrected read none) ∧
        (∀ u, a.stage = 1 → b.write = false → a.raw = none → a.dark = some u → goes { a with raw := some read }) ∧
        (∀ u raw, a.stage = 1 → b.write = false → a.raw = some raw → a.dark = some u → corrected raw (some read)) ∧
        (a.stage = 1 → b.write = true →
          let q := skipGaps (a.pos + b.length) a.gapsLeft
          goes { a with pos := q.1, gapsLeft := q.2, raw := none, out := none }) ∧
        (∀ x y rest, a.stage = 2 → a.gapsLeft = (x, y) :: rest →
          (a.pos + b.length < y → goes { a with pos := a.pos + b.length }) ∧
          (y ≤ a.pos + b.length →
            (rest = [] →
              goes
                { a with
                  stage := 3, pos := 0, beats := []
                  repairs := ⟨a.columns, 0, a.defects.filter fun d => !a.columns.contains d.1⟩ }) ∧
            (∀ z w tail, rest = (z, w) :: tail → goes { a with pos := z, gapsLeft := rest }))) ∧
        (a.stage = 3 →
          (b.write = false → goes { a with beats := a.beats ++ [(b.addr - s.part.sht.slotAddr a.slot, read)] }) ∧
          (b.write = true → goes { a with beats := [], repaired := a.repaired + 1, repairs := a.repairs.advance g })) ∧
        (a.stage = 4 →
          let vs := bytesHalves read
          goes
            { a with
              pos := a.pos + read.length, histogram := countValues g (a.pos / 2) vs a.histogram
              full := a.full + vs.count 65535 })))) ∧
  (∀ p : Part,
    let g := p.geo
    let at_ := p.sht.slotAddr
    let span (addr length : Nat) : Nat := min length (min 256 (4096 - addr % 4096))
    (∀ h rest w, p.pts.queue = h :: rest → p.pts.head = some .owned → p.icr.work = some w →
      (∀ d, w.stage = .needDark → w.dark = some d →
        p.passRequest = some ⟨false, at_ d.slot + w.from_, w.to_ - w.from_, []⟩) ∧
      (w.stage = .needWrite → p.passRequest = some ⟨true, at_ w.slot + w.from_, w.bytes.length, w.bytes⟩)) ∧
    (∀ v r, p.prn.work = some v → v.rendering = some r → r.source.length < 16 * g.width →
      let addr := at_ r.slot + r.row * (16 * g.width) + r.source.length
      p.requestOf .prn = some ⟨false, addr, span addr (16 * g.width - r.source.length), []⟩) ∧
    (∀ before l after, p.cde.listReads = before ++ l :: after → (∀ x ∈ before, (8 * x.count + 15) / 16 * 16 ≤ x.got.length) →
      l.got.length < (8 * l.count + 15) / 16 * 16 →
      p.requestOf .cde =
        some
          ⟨false, l.addr + l.got.length, span (l.addr + l.got.length) ((8 * l.count + 15) / 16 * 16 - l.got.length), []⟩) ∧
    (∀ a, p.dpe.pass = some a →
      let addr := at_ a.slot + a.pos
      let frame := g.width * g.height * 2
      let presents (x : Access) : Prop := p.requestOf .dpe = some x
      (∀ limit, a.stage = 1 → (a.gapsLeft = [] ∧ limit = frame ∨ ∃ x y rest, a.gapsLeft = (x, y) :: rest ∧ limit = min x frame) →
        a.pos < limit →
        (∀ bytes, a.out = some bytes → presents ⟨true, addr, bytes.length, bytes⟩) ∧
        (a.out = none → a.raw = none → presents ⟨false, addr, span addr (limit - a.pos), []⟩) ∧
        (∀ raw u, a.out = none → a.raw = some raw → a.dark = some u →
          presents ⟨false, at_ u.slot + a.pos, span addr (limit - a.pos), []⟩)) ∧
      (∀ x y rest, a.stage = 2 → a.gapsLeft = (x, y) :: rest →
        let bytes := (List.replicate (span addr (y - a.pos) / 2) (leBytes 2 a.pedestal)).flatten
        presents ⟨true, addr, bytes.length, bytes⟩) ∧
      (∀ r, a.stage = 3 → a.repairs.next g ⟨a.columns, a.defects⟩ = some r →
        let needed := beatOf g r.x r.y :: r.from_.map fun n => beatOf g n.1 n.2
        let bytes := r.newBeat g a.pedestal a.beats
        (∀ before c after, needed = before ++ c :: after → (∀ x ∈ before, x ∈ a.beats.map Prod.fst) → c ∉ a.beats.map Prod.fst →
          presents ⟨false, at_ a.slot + c, 16, []⟩) ∧
        ((∀ x ∈ needed, x ∈ a.beats.map Prod.fst) →
          presents ⟨true, at_ a.slot + beatOf g r.x r.y, bytes.length, bytes⟩)) ∧
      (a.stage = 4 → a.pos < frame → presents ⟨false, addr, span addr (frame - a.pos), []⟩))))

/-- Tier 2. The end of the burst in progress (R13, R2, R7): the port is free; a write's bytes are in frame memory, every other
byte as before, and a read changes none. A forwarded host burst is answered OKAY, a read with the bytes of frame memory; a write
to the control page is observed first. An event record's and a producer beat's follow-up is left to their own rows: the model's
choice (log entry 6). -/
def Obligations.BurstEndCompletesTheBurst : Prop :=
  ∀ (s : State) (b : InFlight), s.part.port.busy = some b →
    ∃ t, exec .frameBurstEnd s = .next t ∧ t.pending = s.pending ∧ t.part.port = { s.part.port with busy := none } ∧
      t.mem = (if b.write then s.mem.writeBytes b.addr b.data else s.mem) ∧
      (b.write = true → s.mem.wf = true → ∀ a, a < b.addr ∨ b.addr + b.data.length ≤ a → t.mem.read a = s.mem.read a) ∧
      (∀ h rest, b.who = .passThrough → s.part.pts.queue = h :: rest → s.part.pts.head = some (.forwarding false) →
        t.part =
          { s.part with
            port := { s.part.port with busy := none }
            pts :=
              { s.part.pts with
                queue := rest, head := none
                answer := some ⟨true, if b.write then [] else s.mem.readBytes b.addr b.length⟩ } }) ∧
      (∀ h rest, b.who = .passThrough → b.write = true → s.part.pts.queue = h :: rest →
        s.part.pts.head = some (.forwarding true) →
        t.part =
          Part.answer true []
            (Part.observe (b.addr - s.part.pts.controlBase) b.data { s.part with port := { s.part.port with busy := none } })) ∧
      (∀ i e, b.who = .internal .cpa → b.cpa = some (.eventRecord i e) →
        t.part = { s.part with port := { s.part.port with busy := none }, cpa := { s.part.cpa with ended := b.cpa } }) ∧
      (∀ w, b.who = .internal .cpa → b.cpa = some (.producerBeat w) →
        t.part = { s.part with port := { s.part.port with busy := none }, cpa := { s.part.cpa with ended := b.cpa } })

/-! ## The control page -/

/-- Tier 2. Every write of the CPA to the control page goes to its area, whole beats long, with the bytes of R217 (R19, R22,
R30, R34, R40): result data 16 bytes into slot n, the slot's first beat with verb 0, the latched tag, class and code; event i's
record at 4,096 + 32 (i modulo 64); the producer and consumer beats; the status record at 0; of the reset writes the status
record, the eight first beats and both index beats, all zero but for the record. The codes are those of R216. The status
record's 256 bytes (R217), the 512 of a shot record's image whose lists are within their bounds (R218), the file's header,
header image and trailer (R195, R220), field by field, little-endian, absent values and the rest zero (R214). A host write to
the control page, as a burst's end has it observed (R20, R21, R23): a beat of a slot's argument area goes to its copy, BUSY or
not; the rest of the page has no effect; a first beat with a zero verb only gives the copy its tag, as one with an unknown verb
does in a BUSY slot; in an IDLE one that ends REFUSED/UNKNOWN_VERB; a known verb acts as its row. A burst over two slots copies
all of both, then hands the slots' verbs over in ascending order (log entry 36), with one choice of the CDE (R192). The end of a
CPA write to a slot puts its own bytes in the copy (R20) and leaves the rest to a later row (log entry 6). The numbering of
argument words and the order of result words are those of log entries 11 and 13. -/
def Obligations.ControlPageIsWrittenAndObserved : Prop :=
  ((∀ (p : Part) (n : Fin 8),
    let base := p.pts.controlBase
    let slot := base + 1024 + 128 * n.val
    let holds (bytes : List Byte) (fields : List (Nat × Nat × Nat)) : Prop :=
      ∀ f ∈ fields, slice f.1 f.2.1 bytes = leBytes f.2.1 f.2.2
    let index (at_ : Nat) (w : Word) : Access := ⟨true, base + at_, 16, leBytes 4 w.toNat ++ List.replicate 12 0⟩
    (∀ words cls code, words.length = 24 →
      let a := (CpaWrite.resultData n words cls code).access p
      a.write = true ∧ a.addr = slot + 16 ∧ a.length = 96 ∧ a.data.length = 96 ∧
        ∀ i < 24, slice (4 * i) 4 a.data = leBytes 4 (words.getD i 0).toNat) ∧
    (∀ cls code c, p.cpa.slots[n].cmd = some c →
      let a := (CpaWrite.slotBeat n cls code).access p
      a.write = true ∧ a.addr = slot ∧ a.length = 16 ∧ a.data.length = 16 ∧
        holds a.data [(0, 4, 0), (4, 4, c.tag.toNat), (8, 1, cls.code), (9, 1, 0), (10, 2, code.code), (12, 4, 0)]) ∧
    (∀ i e,
      let a := (CpaWrite.eventRecord i e).access p
      a.write = true ∧ a.addr = base + 4096 + 32 * (i.toNat % 64) ∧ a.length = 32 ∧ a.data.length = 32 ∧
        holds a.data
          [(0, 2, e.kind.code), (2, 2, 0), (4, 4, e.shot.toNat), (8, 4, e.time.toNat), (12, 4, 0), (16, 4, (e.data.getD 0 0).toNat),
            (20, 4, (e.data.getD 1 0).toNat), (24, 4, (e.data.getD 2 0).toNat), (28, 4, (e.data.getD 3 0).toNat)]) ∧
    (∀ w, (CpaWrite.producerBeat w).access p = index 3840 w) ∧ CpaWrite.consumerRewrite.access p = index 3856 p.cpa.consumer ∧
    CpaWrite.producerRewrite.access p = index 3840 p.cpa.written ∧
    (∀ x : CpaWrite, (x = .resetStatus ∨ ∃ waiters, x = .status waiters) → x.access p = ⟨true, base, 256, p.statusBytes⟩) ∧
    (CpaWrite.resetSlot n).access p = ⟨true, slot, 16, List.replicate 16 0⟩ ∧ CpaWrite.resetProducer.access p = index 3840 0 ∧
    CpaWrite.resetConsumer.access p = index 3856 0) ∧
  ([ResultClass.none, .done, .doneAdjusted, .refused, .failed].map ResultClass.code = [0, 1, 2, 3, 4] ∧
  [ResultCode.ok, .adjusted, .wrongMode, .notReady, .badArg, .unknownVerb, .busy, .noSlot, .sensorBusy, .alreadyArmed, .tooHot,
    .lowSupply, .notFound, .protected_, .protectLimit, .inQueue, .alreadyQueued, .queueFull, .badExtents, .badBuffer, .outOfRange,
    .noCard, .sectionLocked, .bundleCrc, .bundleSize, .bundleFormat, .loadTimeout, .noLoad, .aborted].map ResultCode.code =
    List.range 29 ∧
  [EventKind.shotArmed, .shotMissed, .shotDisarmed, .exposureBegin, .exposureEnd, .readoutBegin, .readoutEnd, .darkDecided, .darkDone,
    .darkFailed, .developed, .slotReleased, .cardRequestDone, .cardHalted, .cardState, .unarmedRelease, .guardWrite, .strayIngest,
    .tempState, .supplyState, .loadDone, .resetDone].map EventKind.code = (List.range 22).map (· + 1))) ∧
  (let holds (bytes : List Byte) (fields : List (Nat × Nat × Nat)) : Prop := ∀ f ∈ fields, slice f.1 f.2.1 bytes = leBytes f.2.1 f.2.2
  let signed (t : Option Int) : Nat := (BitVec.ofInt 16 (t.getD 0)).toNat
  let opt (w : Option Word) : Nat := (w.getD 0).toNat
  let bit (b : Bool) (k : Nat) : Nat := if b then 2 ^ k else 0
  (∀ p : Part,
    p.statusBytes.length = 256 ∧ slice 36 220 p.statusBytes = List.replicate 220 0 ∧
      holds p.statusBytes
        [(0, 2, 614), (2, 1, 1), (3, 1, p.cpa.mode.code), (4, 4, p.cpa.updates.toNat), (8, 2, signed p.tsm.reading),
          (10, 1, p.tsm.temp.code), (11, 1, p.tsm.supply.code), (12, 1, bit p.cpa.dropped 0 + bit p.tsm.reading.isSome 1), (13, 3, 0),
          (16, 1, p.sht.slots.length), (17, 1, (p.sht.slots.filter fun h => decide (h = .free)).length), (18, 1, p.sht.protectedCount),
          (19, 1, p.dfl.entries.length), (20, 1, p.cde.card.code), (21, 1, p.cde.requests.length),
          (22, 2, ((p.cde.requests.find? fun r => decide (r.state = .halted)).map Request.id).getD 0),
          (24, 4, p.sht.counter.toNat), (28, 4, p.icr.strayCount.toNat), (32, 4, p.sht.guardCount.toNat)]) ∧
  (∀ x : Shot, x.exposure.edges.length ≤ 16 → x.progress.gaps.length ≤ 8 → x.progress.histogram.length = 64 →
    let a := x.arming
    let e := x.exposure
    let g := x.progress
    let k := g.dark.bind DarkSource.k?
    x.image.length = 512 ∧
    holds x.image
      [(0, 4, x.number.toNat), (4, 1, x.state.code), (5, 1, x.slot), (6, 1, a.mode.code), (7, 1, a.gain),
        (8, 4,
          bit e.integStart.isSome 0 + bit e.integEnd.isSome 1 + bit e.integTime.isSome 2 + bit e.openTime.isSome 3 +
            bit e.closeTime.isSome 4 + bit e.measured.isSome 5 + bit e.strobeTime.isSome 6 + bit a.tempAtArm.isSome 7 +
            bit e.tempAtRead.isSome 8 + bit a.programmed.isSome 9 + bit g.dark.isSome 10 + bit k.isSome 11 +
            bit g.correction.isSome 12 + bit g.fileSectors.isSome 13 + bit g.pendingStore.isSome 14),
        (12, 4,
          bit e.early 0 + bit e.overlong 1 + bit e.truncated 2 + bit e.hot 3 + bit e.abandoned 4 + bit g.readTimeout 5 +
            bit g.ingestGap 6 + bit g.gapMerged 7 + bit x.prot 8 + bit a.autoRelease 9),
        (16, 4, a.programmed.getD 0), (20, 1, a.plan.code), (21, 1, (g.correction.map Correction.code).getD 0), (22, 1, e.edges.length),
        (23, 1, g.gaps.length), (24, 4, a.planTime), (28, 4, a.armTime.toNat), (32, 4, opt e.integStart), (36, 4, opt e.integEnd),
        (40, 4, e.integTime.getD 0), (44, 4, opt e.openTime), (48, 4, opt e.closeTime), (52, 4, e.measured.getD 0),
        (56, 4, opt e.strobeTime), (60, 2, signed a.tempAtArm), (62, 2, signed e.tempAtRead), (64, 4, e.late.toNat),
        (68, 4, e.edgeOverflow.toNat), (72, 2, edgeMask 0 e.edges), (74, 2, 0), (76, 1, (g.dark.map DarkSource.code).getD 0),
        (77, 1, ((g.dark.bind DarkSource.reason?).map DarkReason.code).getD 0), (78, 1, (g.dark.map DarkSource.entryCode).getD 0),
        (79, 1, 0), (80, 4, k.getD 0), (84, 4, g.cursor), (88, 4, g.lowClamps), (92, 4, g.highClamps), (96, 4, g.saturated),
        (100, 4, g.repaired), (104, 4, g.fileSectors.getD 0), (108, 4, g.storeCount), (112, 2, g.pendingStore.getD 0), (114, 2, 0),
        (116, 4, g.sectorsStored), (120, 8, 0)] ∧
    (∀ i < 16, slice (128 + 4 * i) 4 x.image = leBytes 4 ((e.edges[i]?.map fun y => y.time.toNat).getD 0)) ∧
    (∀ i < 8,
      slice (192 + 8 * i) 4 x.image = leBytes 4 (g.gaps.getD i (0, 0)).1 ∧
        slice (196 + 8 * i) 4 x.image = leBytes 4 (g.gaps.getD i (0, 0)).2) ∧
    (∀ i < 64, slice (256 + 4 * i) 4 x.image = leBytes 4 (g.histogram.getD i 0)) ∧
    (∀ (geo : Geometry) (id : Nat) (time : Word),
      let header := headerImage geo x id time
      header.length = 4096 ∧ slice 512 512 header = x.image ∧ slice 1024 3072 header = List.replicate 3072 0 ∧
        slice 36 476 header = List.replicate 476 0 ∧
        holds header
          [(0, 4, 0x4B424631), (4, 2, 1), (6, 2, 614), (8, 2, geo.width), (10, 2, geo.height), (12, 1, geo.cfa.code),
            (13, 1, geo.depth), (14, 2, 0), (16, 4, geo.width * geo.height * 2),
            (20, 4, 8 + (geo.width * geo.height * 2 + 511) / 512 + 1), (24, 4, x.number.toNat), (28, 2, id), (30, 2, 0),
            (32, 4, time.toNat)])) ∧
  (∀ (edges : List Edge) (n : Nat), (edgeMask 0 edges).testBit n = (edges[n]?.map Edge.closing).getD false) ∧
  (∀ (crc : Word) (g : Geometry) (n : Word),
    let trailer := fileTrailer crc g n
    trailer.length = 512 ∧ slice 12 500 trailer = List.replicate 500 0 ∧
      holds trailer [(0, 4, (~~~crc).toNat), (4, 4, 4096 + g.width * g.height * 2), (8, 4, n.toNat)])) ∧
  ((∀ (n : Fin 8) (data : List Byte) (s : State), s.part.phase = .running → data.length = 16 →
    let sl := s.part.cpa.slots[n]
    let tag := natWord (leNat (slice 4 4 data))
    let verb := leNat (slice 0 4 data)
    let slot := 1024 + 128 * n.val
    let copied (x : Slot) (writes : List CpaWrite) : State :=
      { s with part := { s.part with cpa := { s.part.cpa with slots := s.part.cpa.slots.set n x, writes := writes } } }
    (∀ j, 1 ≤ j → j ≤ 6 → sl.args.length = 24 →
      ∃ args, exec (.controlPageWrite (slot + 16 * j) data) s = .next (copied { sl with args := args } s.part.cpa.writes) ∧
        args.length = 24 ∧
        ∀ k < 24,
          args.getD k 0 =
            if 4 * (j - 1) ≤ k ∧ k < 4 * j then natWord (leNat (slice (4 * (k - 4 * (j - 1))) 4 data)) else sl.args.getD k 0) ∧
    (exec (.controlPageWrite (slot + 112) data) s = .next s) ∧
    (verb = 0 ∨ (29 < verb ∧ sl.cmd.isSome = true) →
      exec (.controlPageWrite slot data) s = .next (copied { sl with tag := tag } s.part.cpa.writes)) ∧
    (29 < verb → sl.cmd = none →
      exec (.controlPageWrite slot data) s =
        .next
          (copied ⟨tag, sl.args, some ⟨none, tag, sl.args, true, false⟩⟩
            (s.part.cpa.writes ++ [.resultData n (List.replicate 24 0) .refused .unknownVerb]))) ∧
    (∀ v : Verb, verb = v.code → exec (.controlPageWrite slot data) s = exec (v.row ⟨n, tag, []⟩) s) ∧
    (∀ off, off % 16 = 0 → (256 ≤ off ∧ off < 1024) ∨ (2048 ≤ off ∧ off < 3840) ∨ 3872 ≤ off →
      exec (.controlPageWrite off data) s = .next s)) ∧
  (∀ (n m : Fin 8) (data : List Byte) (s : State), s.part.phase = .running → m.val = n.val + 1 → data.length = 256 →
    s.part.cpa.slots[n].args.length = 24 → s.part.cpa.slots[m].args.length = 24 →
    let word (i : Nat) : Word := natWord (leNat (slice i 4 data))
    let copy (k : Fin 8) (at_ : Nat) : Slot :=
      ⟨word (at_ + 4), (List.range 24).map fun i => word (at_ + 16 + 4 * i), s.part.cpa.slots[k].cmd⟩
    let p : Part := { s.part with cpa := { s.part.cpa with slots := (s.part.cpa.slots.set n (copy n 0)).set m (copy m 128) } }
    exec (.controlPageWrite (1024 + 128 * n.val) data) s =
      .next { s with part := Part.choosing (fun q => Part.verbWord m (word 128) (Part.verbWord n (word 0) q)) p }) ∧
  (∀ (b : InFlight) (w : CpaWrite) (n : Fin 8) (s : State), s.part.port.busy = some b → b.write = true → b.who = .internal .cpa →
    b.cpa = some w →
    let sl := s.part.cpa.slots[n]
    let ends (p : Part) : Prop :=
      exec .frameBurstEnd s = .next ⟨s.pending, s.mem.writeBytes b.addr b.data, { p with port := { s.part.port with busy := none } }⟩
    let copied (x : Slot) : Part := { s.part with cpa := { s.part.cpa with slots := s.part.cpa.slots.set n x, ended := some w } }
    (∀ words cls code, w = .resultData n words cls code → ends (copied { sl with args := words })) ∧
    (∀ cls code c, w = .slotBeat n cls code → sl.cmd = some c → ends (copied { sl with tag := c.tag })) ∧
    (w ∈ [.resetStatus, .resetSlot n, .resetProducer, .resetConsumer] → ends { s.part with resetWrites := s.part.resetWrites - 1 }) ∧
    (w ∈ [.producerRewrite, .consumerRewrite] ∨ (∃ a bytes, w = .image a bytes none) → ends s.part) ∧
    (∀ a bytes data, w = .image a bytes (some (n, data)) → ends (Part.endCommand n .done .ok data s.part))))

/-- Tier 1. A block hands the CPA an event (R29): a disabled kind is dropped without a trace; with 64 records unconsumed the
event is dropped and the events-dropped flag set, the status record rewritten if it was clear; otherwise the event takes the
producer count as its index, the count advances by one, and its record is queued at once or after those before it (R30). A
change of the status record makes one status write due: none is queued while another is queued and not granted (R34, R35), or
before the reset sequence has the capacity (R17). -/
def Obligations.EventsAndStatusWritesBecomeDue : Prop :=
  (∀ (e : Event) (p : Part),
    (p.cpa.mask.getLsbD (e.kind.code - 1) = false → p.emitEvent e = p) ∧
    (p.cpa.mask.getLsbD (e.kind.code - 1) = true → (p.cpa.producer - p.cpa.consumer).toNat = 64 →
      (p.cpa.dropped = true → p.emitEvent e = p) ∧
      (p.cpa.dropped = false → p.emitEvent e = Part.statusDirty { p with cpa := { p.cpa with dropped := true } })) ∧
    (p.cpa.mask.getLsbD (e.kind.code - 1) = true → (p.cpa.producer - p.cpa.consumer).toNat ≠ 64 →
      (p.cpa.eventBusy = true →
        p.emitEvent e =
          { p with cpa := { p.cpa with producer := p.cpa.producer + 1, events := p.cpa.events ++ [(p.cpa.producer, e)] } }) ∧
      (p.cpa.eventBusy = false →
        p.emitEvent e =
          { p with
            cpa :=
              { p.cpa with
                producer := p.cpa.producer + 1, eventBusy := true
                writes := p.cpa.writes ++ [.eventRecord p.cpa.producer e] } }))) ∧
  (∀ p : Part,
    (p.phase ≠ .resetWrites → p.phase ≠ .running → p.statusDirty = p) ∧
    (p.phase = .resetWrites ∨ p.phase = .running →
      (∀ ws, CpaWrite.status ws ∈ p.cpa.writes → p.statusDirty = p) ∧
      ((∀ x ∈ p.cpa.writes, x.isStatus = false) →
        p.statusDirty = { p with cpa := { p.cpa with writes := p.cpa.writes ++ [.status []] } })))

/-- Tier 1. Host writes to the control page as the CPA observes them (R20, R31): a status record or producer beat write has the
record or the beat rewritten; a consumer word within 64 of the producer count becomes the consumer copy and IRQ_OUT follows it,
any other leaves the copy and has the consumer beat rewritten. CONTROL_PAGE_WRITE of one such beat does the same. -/
def Obligations.HostWritesToTheRingAndStatusAreObserved : Prop :=
  ∀ s : State, s.part.phase = .running →
    let consumed (c : Word) : State :=
      if (s.part.cpa.producer - c).toNat ≤ 64 then
        { s with part := { s.part with cpa := { s.part.cpa with consumer := c, irq := decide (s.part.cpa.written ≠ c) } } }
      else { s with part := { s.part with cpa := { s.part.cpa with writes := s.part.cpa.writes ++ [.consumerRewrite] } } }
    let producerBeat : State :=
      { s with part := { s.part with cpa := { s.part.cpa with writes := s.part.cpa.writes ++ [.producerRewrite] } } }
    exec .statusRecordHostWrite s = .next { s with part := s.part.statusDirty } ∧
    exec .producerBeatWrite s = .next producerBeat ∧
    (∀ c, exec (.consumerWrite c) s = .next (consumed c)) ∧
    (∀ data : List Byte, data.length = 16 →
      exec (.controlPageWrite 3840 data) s = .next producerBeat ∧
      exec (.controlPageWrite 3856 data) s = .next (consumed (BitVec.ofNat 32 (leNat (data.take 4)))) ∧
      exec (.controlPageWrite 0 data) s = .next { s with part := s.part.statusDirty } ∧
      exec (.controlPageWrite 4096 data) s = .next s)

/-- Tier 1. The four completions of the CPA's own writes (R22, R30, R32): result data written, the slot's first beat becomes
due; the first beat written, the slot is IDLE; an event record written, the producer beat becomes due with the next word; the
producer beat written, IRQ_OUT follows and the next accepted event's record becomes due. -/
def Obligations.CpaCompletionsFollowInOrder : Prop :=
  (∀ (s : State) (n : Fin 8) words cls code, s.part.cpa.ended = some (.resultData n words cls code) →
    exec .resultDataWritten s = .next
      { s with
        part := { s.part with cpa := { s.part.cpa with ended := none, writes := s.part.cpa.writes ++ [.slotBeat n cls code] } } }) ∧
  (∀ (s : State) (n : Fin 8) cls code, s.part.cpa.ended = some (.slotBeat n cls code) →
    exec .slotResultWritten s = .next
      { s with
        part :=
          { s.part with
            cpa := { s.part.cpa with ended := none, slots := s.part.cpa.slots.set n { s.part.cpa.slots[n] with cmd := none } } } }) ∧
  (∀ (s : State) (i : Word) e, s.part.cpa.ended = some (.eventRecord i e) →
    exec .eventRecordWritten s = .next
      { s with
        part := { s.part with cpa := { s.part.cpa with ended := none, writes := s.part.cpa.writes ++ [.producerBeat (i + 1)] } } }) ∧
  (∀ (s : State) (w : Word), s.part.cpa.ended = some (.producerBeat w) →
    let c : Cpa := { s.part.cpa with ended := none, written := w, irq := decide (w ≠ s.part.cpa.consumer) }
    (s.part.cpa.events = [] →
      exec .producerWritten s = .next { s with part := { s.part with cpa := { c with eventBusy := false } } }) ∧
    (∀ i e rest, s.part.cpa.events = (i, e) :: rest →
      exec .producerWritten s = .next
        { s with
          part :=
            { s.part with
              cpa := { c with events := rest, eventBusy := true, writes := s.part.cpa.writes ++ [.eventRecord i e] } } }))

/-! ## Host commands: the slot protocol -/

/-- Tier 2. The mode table of R26. The checks made before a command's owner (R21, R23, R26, R27, R38), for every verb but ABORT,
on a host write that carries it (its row): a BUSY slot only takes the words into its copy; an IDLE one latches the command and,
where the mode does not accept it, ends it REFUSED/WRONG_MODE, while RESET_SHOTS is in progress REFUSED/BUSY, and in SERVICE
without the preconditions of START a shot command REFUSED/NOT_READY with the first missing item. The numbering of argument words
and the order of result words are those of log entries 11 and 13. -/
def Obligations.CommandsAreCheckedByModeBeforeTheirOwners : Prop :=
  ((∀ v ∈ [Verb.setGeometry, .setWindow], ∀ m, v.accepted m = decide (m ≠ .operational)) ∧
  (∀ m, Verb.accepted .start m = decide (m = .loader)) ∧
  (∀ v ∈ [Verb.status, .clearFlags, .setEventMask, .abort, .loadOpen, .loadClose, .loadCancel, .setLimits, .cardInit, .cardWrite,
    .cardRead, .cardCancel, .cardResume], ∀ m, v.accepted m = true) ∧
  (∀ v ∈ [Verb.arm, .disarm, .setSync, .snapshot, .setDarkPolicy, .skipDark, .protect, .unprotect, .release, .queryShot,
    .viewSelect, .store], ∀ m, v.accepted m = decide (m ≠ .loader) ∧ v.isShot = true) ∧
  (∀ m, Verb.accepted .resetShots m = decide (m ≠ .loader)) ∧
  (∀ v : Verb, v.duringReset = true ↔ v ∈ [Verb.status, .clearFlags, .setEventMask, .setLimits, .abort])) ∧
  (∀ (v : Verb) (w : SlotWrite) (s : State), v ≠ .abort → s.part.phase = .running →
    (∀ c, s.part.cpa.slots[w.slot].cmd = some c →
      exec (v.row w) s = .next
        { s with
          part :=
            { s.part with cpa := { s.part.cpa with slots := s.part.cpa.slots.set w.slot ⟨w.tag, s.part.words w, some c⟩ } } }) ∧
    (s.part.cpa.slots[w.slot].cmd = none →
      (v.accepted s.part.cpa.mode = false →
        exec (v.row w) s = .next { s with part := s.part.answered v w .refused .wrongMode [] }) ∧
      (v.accepted s.part.cpa.mode = true → s.part.cpa.resetting.isSome = true → v.duringReset = false →
        exec (v.row w) s = .next { s with part := s.part.answered v w .refused .busy [1] }) ∧
      (∀ data, v.accepted s.part.cpa.mode = true → s.part.cpa.resetting = none → v.isShot = true →
        s.part.cpa.mode = .service → s.part.missing = some data →
        exec (v.row w) s = .next { s with part := s.part.answered v w .refused .notReady data })))

/-- Tier 2. STATUS (R36): it joins the status write that is queued and not yet granted, or, with none queued, has one queued
(R35); the write is granted with the update count it makes and the mode, counts and flag then standing (log entry 14); and at
its end the command ends DONE with those five values. It is accepted in every mode and while RESET_SHOTS is in progress. -/
def Obligations.StatusEndsWithItsStatusWrite : Prop :=
  let cyclic (m : Master) : List Master :=
    match m with
    | .cpa => [.dpe, .prn, .cde, .cpa]
    | .dpe => [.prn, .cde, .cpa, .dpe]
    | .prn => [.cde, .cpa, .dpe, .prn]
    | .cde => [.cpa, .dpe, .prn, .cde]
  (∀ (w : SlotWrite) (s : State), s.part.takes .status w → ∃ ws,
    exec (.status w) s = .next
      { s with part := { s.part.taken .status w with cpa := { (s.part.taken .status w).cpa with writes := ws } } } ∧
    ∃ pre waiters post, ws = pre ++ .status (waiters ++ [w.slot]) :: post ∧
      (s.part.cpa.writes = pre ++ .status waiters :: post ∨
        (waiters = [] ∧ post = [] ∧ s.part.cpa.writes = pre ∧ ∀ x ∈ s.part.cpa.writes, ∀ ns, x ≠ .status ns))) ∧
  (∀ (s : State) waiters rest, s.part.port.busy = none → s.part.cpa.ended = none → s.part.phase = .running →
    s.part.cpa.writes = .status waiters :: rest →
    s.part.passRequest = none ∨ 16 ≤ s.part.port.starvation →
    (∀ x ∈ ((cyclic s.part.port.last).takeWhile fun x => decide (x ≠ .cpa)), s.part.requestOf x = none) →
    s.part.pts.controlBase + 256 ≤ s.part.pts.capacity →
    ∃ t b, exec .arbiterGrant s = .next t ∧ t.part.port.busy = some b ∧ b.cpa = some (.status waiters) ∧
      b.addr = s.part.pts.controlBase ∧ b.data = t.part.statusBytes ∧ t.part.cpa.updates = s.part.cpa.updates + 1 ∧
      t.part.cpa.writes = rest ∧
      b.values =
        [natWord s.part.cpa.mode.code, s.part.cpa.producer, s.part.cpa.consumer, flagWord s.part.cpa.dropped,
          s.part.cpa.updates + 1]) ∧
  (∀ (s : State) (b : InFlight) (n : Fin 8) c, s.part.port.busy = some b → b.who = .internal .cpa → b.write = true →
    b.cpa = some (.status [n]) → b.values.length ≤ 24 → s.part.cpa.slots[n].cmd = some c → c.ended = false →
    exec .frameBurstEnd s = .next
      { s with
        mem := s.mem.writeBytes b.addr b.data
        part :=
          { s.part with
            port := { s.part.port with busy := none }
            cpa :=
              { s.part.cpa with
                slots := s.part.cpa.slots.set n { s.part.cpa.slots[n] with cmd := some { c with ended := true } }
                writes := s.part.cpa.writes ++ [.resultData n (padTo 24 0 b.values) .done .ok] } } }) ∧
  (∀ m, Verb.accepted .status m = true) ∧ Verb.duringReset .status = true

/-- Tier 1. SET_EVENT_MASK (R33) and CLEAR_FLAGS (R37): the mask is replaced whole and the previous one is the result; each item
selected is cleared, the status record becomes due, and the three values before are the result; with nothing selected nothing
changes. That CLEAR_FLAGS selects by bits 0 to 2 of one word is the model's reading (log entry 12). The numbering of argument
words and the order of result words are those of log entries 11 and 13. -/
def Obligations.MaskAndFlagCommandsEnd : Prop :=
  (∀ (w : SlotWrite) (s : State), s.part.takes .setEventMask w →
    exec (.setEventMask w) s = .next
      { s with
        part :=
          Part.answered .setEventMask w .done .ok [s.part.cpa.mask.setWidth 32]
            { s.part with cpa := { s.part.cpa with mask := ((s.part.words w).getD 0 0).setWidth 22 } } }) ∧
  (∀ (w : SlotWrite) (s : State), s.part.takes .clearFlags w →
    let sel := (s.part.words w).getD 0 0
    let before := [flagWord s.part.cpa.dropped, s.part.icr.strayCount, s.part.sht.guardCount]
    (sel.getLsbD 0 = false → sel.getLsbD 1 = false → sel.getLsbD 2 = false →
      exec (.clearFlags w) s = .next { s with part := s.part.answered .clearFlags w .done .ok before }) ∧
    (sel.getLsbD 0 = true ∨ sel.getLsbD 1 = true ∨ sel.getLsbD 2 = true →
      exec (.clearFlags w) s = .next
        { s with
          part :=
            Part.answered .clearFlags w .done .ok before
              (Part.statusDirty
                { s.part with
                  cpa := { s.part.cpa with dropped := if sel.getLsbD 0 then false else s.part.cpa.dropped }
                  icr := { s.part.icr with strayCount := if sel.getLsbD 1 then 0 else s.part.icr.strayCount }
                  sht := { s.part.sht with guardCount := if sel.getLsbD 2 then 0 else s.part.sht.guardCount } }) }))

/-- Tier 2. START (R28, R58): the eight preconditions are those of R28; without one START is refused NOT_READY with the first
missing item and nothing else changes; with all of them the mode becomes OPERATIONAL, S is min(12, floor(size / slot size)) with
every slot FREE, the status record becomes due, and the result gives S and the slot size in pages. The numbering of argument
words and the order of result words are those of log entries 11 and 13. -/
def Obligations.StartFixesTheSlots : Prop :=
  (∀ p : Part, p.missing = none ↔
    (∃ g x, p.pts.geometry = some g ∧ p.pts.windowOf .frameStore = some x ∧ 3 ≤ min 12 (x.size / g.slotSize)) ∧
    (p.pts.windowOf .ingest).isSome = true ∧ (p.pts.windowOf .view).isSome = true ∧ (p.pts.windowOf .bundle).isSome = true ∧
    p.cal.committed.blackSat = true ∧ p.cal.committed.gainGrid = true ∧ p.cal.committed.darkTemp = true) ∧
  (∀ (w : SlotWrite) (s : State), s.part.takes .start w →
    (∀ data, s.part.missing = some data → data.length ≤ 24 ∧
      exec (.start w) s = .next { s with part := s.part.answered .start w .refused .notReady data }) ∧
    (∀ g x, s.part.missing = none → s.part.sht.layout = none → s.part.pts.geometry = some g →
      s.part.pts.windowOf .frameStore = some x →
      exec (.start w) s = .next
        { s with
          part :=
            Part.answered .start w .done .ok
              [natWord (min 12 (x.size / g.slotSize)), natWord (ceilDiv (g.width * g.height * 2) 4096)]
              (Part.statusDirty
                { s.part with
                  cpa := { s.part.cpa with mode := .operational }
                  sht :=
                    { s.part.sht with
                      layout := some ⟨x.base, g.slotSize⟩, slots := List.replicate (min 12 (x.size / g.slotSize)) .free } }) }))

/-- Tier 2. ABORT (R24): in an IDLE slot it is a command that ends DONE with the mark that nothing was aborted; for a CARD_INIT
at rest it ends the bring-up FAILED/ABORTED with the card PRESENT, and between exchanges waits for the one in progress; for a
LOAD_CLOSE it ends the session and the command FAILED/ABORTED; a command of another verb, one whose end is taken, and one
already being aborted go on, the copy alone taking the words. The numbering of argument words and the order of result words are
those of log entries 11 and 13. -/
def Obligations.AbortEndsOnlyWhatCanBeAborted : Prop :=
  ∀ (w : SlotWrite) (s : State), s.part.phase = .running →
    let copied (c : Latched) : Part :=
      { s.part with cpa := { s.part.cpa with slots := s.part.cpa.slots.set w.slot ⟨w.tag, s.part.words w, some c⟩ } }
    (s.part.cpa.slots[w.slot].cmd = none →
      exec (.abort w) s = .next { s with part := s.part.answered .abort w .done .ok [1] }) ∧
    (∀ c, s.part.cpa.slots[w.slot].cmd = some c →
      (c.ended = true ∨ c.aborting = true ∨ (c.verb ≠ some .cardInit ∧ c.verb ≠ some .loadClose) →
        exec (.abort w) s = .next { s with part := copied c }) ∧
      (∀ b, c.ended = false → c.aborting = false → c.verb = some .cardInit → s.part.cde.bringup = some b →
        ¬(b.step = .query ∧ b.response = none) →
        exec (.abort w) s = .next
          { s with
            part :=
              { copied { c with aborting := true } with
                cde := { s.part.cde with bringup := some { b with aborting := true } } } }) ∧
      (∀ b, c.ended = false → c.aborting = false → c.verb = some .cardInit → s.part.cde.bringup = some b → b.slot = w.slot →
        b.step = .query → b.response = none →
        ∃ t, exec (.abort w) s = .next t ∧ t.mem = s.mem ∧ t.pending = s.pending ∧ t.part.cde.bringup = none ∧
          t.part.cde.card = .present ∧ t.part.hasEnded w.slot .failed .aborted [1]) ∧
      (c.ended = false → c.aborting = false → c.verb = some .loadClose → s.part.cal.closer = some w.slot →
        exec (.abort w) s = .next
          { s with
            part :=
              { s.part with
                cal := { s.part.cal with session := .none, timer := none, closer := none }
                cpa :=
                  { s.part.cpa with
                    slots :=
                      s.part.cpa.slots.set w.slot
                        ⟨w.tag, s.part.words w, some { c with aborting := true, ended := true }⟩
                    writes := s.part.cpa.writes ++ [.resultData w.slot (List.replicate 24 0) .failed .aborted] } } }))

/-! ## Windows and geometry -/

/-- Tier 2. SET_WINDOW (R8, R9, R10), for ABSENT and for PRESENT, outside OPERATIONAL: with the entry index in 1 to 15 and no
live state in the way, ABSENT clears the entry; PRESENT of a window that passes checks 2 and 4 to 7 replaces the entry whole. It
ends DONE with the entry as it stands and the installed capacity, and for a FRAME_STORE window with a geometry the slots it
holds. SET_WINDOW refused (R9 checks 3 to 5, R10), of arguments that pass check 2: a live state of R10 ends it REFUSED/BUSY with
that state's number; a window past the installed capacity, REFUSED/BAD_ARG with the capacity; one that overlaps a present entry
other than its own, with the lowest such index. A live state that ABSENT meets refuses it BUSY with that state's number: S fixed
and the entry's FRAME_STORE window, an ingest target and its INGEST window, a load session (log entry 29) and its BUNDLE window.
Each leaves the table, and all else, as it was. The numbering of argument words and the order of result words are those of log
entries 11 and 13. -/
def Obligations.SetWindowReplacesOrRefuses : Prop :=
  (∀ (w : SlotWrite) (i : Fin 16) (s : State), s.part.takes .setWindow w →
    let arg (k : Nat) : Nat := ((s.part.words w).getD k 0).toNat
    let capacity := [natWord s.part.pts.capacity, natWord (s.part.pts.capacity / 4294967296)]
    let put (x : Window) : Part := { s.part with pts := { s.part.pts with windows := s.part.pts.windows.set i x } }
    i ≠ 0 → arg 0 = i.val →
    (arg 1 = 1 → s.part.windowBusy ⟨i, none⟩ = none →
      exec (.setWindow w) s = .next
        { s with part := Part.answered .setWindow w .done .ok ([0, 0, 0, 0, 0, 0] ++ capacity) (put ⟨false, .pass, 0, 0⟩) }) ∧
    (∀ kind base size, arg 1 = 0 → windowKindOf (arg 2) = some kind → kind ≠ .control →
      base = arg 3 + arg 4 % 16 * 4294967296 → size = arg 5 + arg 6 * 4294967296 →
      base % 4096 = 0 → size % 4096 = 0 → 4096 ≤ size → size ≤ 17179869184 → base + size ≤ s.part.pts.capacity →
      s.part.windowBusy ⟨i, some ⟨true, kind, base, size⟩⟩ = none →
      (∀ j : Fin 16, j ≠ i → s.part.pts.windows[j].present = true →
        (s.part.pts.windows[j].base + s.part.pts.windows[j].size ≤ base ∨ base + size ≤ s.part.pts.windows[j].base) ∧
          (kind ≠ .pass → s.part.pts.windows[j].kind ≠ kind)) →
      (∀ g, s.part.pts.geometry = some g → kind.minimum g ≤ size) →
      exec (.setWindow w) s = .next
        { s with
          part :=
            Part.answered .setWindow w .done .ok
              ([1, natWord kind.code, natWord base, natWord (base / 4294967296), natWord size, natWord (size / 4294967296)] ++ capacity
                ++ (if kind = .frameStore then (s.part.pts.geometry.map fun g => natWord (min 12 (size / g.slotSize))).toList else []))
              (put ⟨true, kind, base, size⟩) })) ∧
  ((∀ (w : SlotWrite) (i : Fin 16) (s : State), s.part.takes .setWindow w → i ≠ 0 →
    ((s.part.words w).getD 0 0).toNat = i.val → (s.part.words w).getD 1 0 = 1 →
    let refused (k : Nat) : Prop :=
      exec (.setWindow w) s = .next { s with part := s.part.answered .setWindow w .refused .busy [natWord k] }
    let held (k : WindowKind) : Prop := s.part.pts.windows[i].present = true ∧ s.part.pts.windows[i].kind = k
    (∀ k, s.part.windowBusy ⟨i, none⟩ = some k → refused k) ∧
    (s.part.sht.layout.isSome = true → held .frameStore → refused 0) ∧
    (s.part.icr.target.isSome = true → held .ingest → refused 1) ∧
    (s.part.cal.session ≠ .none → held .bundle → refused 2)) ∧
  ∀ (w : SlotWrite) (i : Fin 16) (x : Window) (s : State), s.part.takes .setWindow w →
    parseWindow (s.part.words w) = .ok ⟨i, some x⟩ →
    (∀ k, s.part.windowBusy ⟨i, some x⟩ = some k →
      exec (.setWindow w) s = .next { s with part := s.part.answered .setWindow w .refused .busy [natWord k] }) ∧
    (s.part.windowBusy ⟨i, some x⟩ = none →
      (s.part.pts.capacity < x.base + x.size →
        exec (.setWindow w) s = .next
          { s with
            part :=
              s.part.answered .setWindow w .refused .badArg
                [natWord s.part.pts.capacity, natWord (s.part.pts.capacity / 4294967296)] }) ∧
      (∀ j : Fin 16, x.base + x.size ≤ s.part.pts.capacity → j ≠ i → x.overlaps s.part.pts.windows[j] = true →
        (∀ k : Fin 16, k < j → k ≠ i → x.overlaps s.part.pts.windows[k] = false) →
        exec (.setWindow w) s = .next { s with part := s.part.answered .setWindow w .refused .badArg [natWord j.val] })))

/-- Tier 2. SET_WINDOW's checks 2, 3, 6 and 7 (R9): the number of the first malformed argument; the live states of R10, of which
the first that holds is named: S fixed and a FRAME_STORE window held or asked for, an ingest target and the INGEST window, a
load session, OPEN or CLOSING (log entry 29), and the BUNDLE window; the index of the lowest other entry that holds a kind only
one may hold; the least size in pages under the geometry. Each leaves the table, and all else, as it was. The first START item
that does not hold (R28), as NOT_READY names it, by its position: GEOMETRY 0; FRAME_STORE 1 with the slots its window holds, 0
if it is absent, below 3; INGEST 2; VIEW 3; BUNDLE 4; BLACK_SAT 5; GAIN_GRID 6; DARK_TEMP 7; none if all hold (R58). The
numbering of argument words and the order of result words are those of log entries 11 and 13. -/
def Obligations.SetWindowRefusalsAndStartItems : Prop :=
  ((∀ (w : SlotWrite) (s : State), s.part.takes .setWindow w →
    let arg (k : Nat) : Nat := ((s.part.words w).getD k 0).toNat
    let base := arg 3 + arg 4 % 16 * 4294967296
    let size := arg 5 + arg 6 * 4294967296
    let refused (data : List Word) : Prop :=
      exec (.setWindow w) s = .next { s with part := s.part.answered .setWindow w .refused .badArg data }
    (arg 0 = 0 ∨ 16 ≤ arg 0 → refused [0]) ∧
    (1 ≤ arg 0 → arg 0 < 16 →
      (2 ≤ arg 1 → refused [1]) ∧
      (arg 1 = 0 →
        (arg 2 = 1 ∨ 6 ≤ arg 2 → refused [2]) ∧
        (arg 2 ∈ [0, 2, 3, 4, 5] →
          (base % 4096 ≠ 0 → refused [3]) ∧
          (base % 4096 = 0 → size % 4096 ≠ 0 ∨ size < 4096 ∨ 17179869184 < size → refused [4]))))) ∧
  (∀ (p : Part) (i : Fin 16) (x : Option Window),
    let holds (k : WindowKind) : Prop := p.pts.windows[i].present = true ∧ p.pts.windows[i].kind = k
    let fixed := p.sht.layout.isSome = true ∧ (holds .frameStore ∨ ∃ y, x = some y ∧ y.kind = .frameStore)
    let ingesting := p.icr.target.isSome = true ∧ holds .ingest
    let loading := p.cal.session ≠ .none ∧ holds .bundle
    (fixed → p.windowBusy ⟨i, x⟩ = some 0) ∧ (¬fixed → ingesting → p.windowBusy ⟨i, x⟩ = some 1) ∧
      (¬fixed → ¬ingesting → loading → p.windowBusy ⟨i, x⟩ = some 2) ∧
      (¬fixed → ¬ingesting → ¬loading → p.windowBusy ⟨i, x⟩ = none)) ∧
  (∀ (w : SlotWrite) (i : Fin 16) (x : Window) (s : State), s.part.takes .setWindow w →
    parseWindow (s.part.words w) = .ok ⟨i, some x⟩ → s.part.windowBusy ⟨i, some x⟩ = none →
    x.base + x.size ≤ s.part.pts.capacity → (∀ j : Fin 16, j ≠ i → x.overlaps s.part.pts.windows[j] = false) →
    let refused (data : List Word) : Prop :=
      exec (.setWindow w) s = .next { s with part := s.part.answered .setWindow w .refused .badArg data }
    let other (j : Fin 16) : Prop :=
      x.kind ≠ .pass ∧ j ≠ i ∧ s.part.pts.windows[j].present = true ∧ s.part.pts.windows[j].kind = x.kind
    (∀ j : Fin 16, other j → (∀ k : Fin 16, k < j → ¬other k) → refused [natWord j.val]) ∧
    (∀ g, (∀ j, ¬other j) → s.part.pts.geometry = some g →
      let frame := g.width * g.height * 2
      (x.kind = .ingest → x.size < frame → refused [natWord ((frame + 4095) / 4096)]) ∧
      (x.kind = .view → x.size < g.width / 8 * (g.height / 8) * 3 →
        refused [natWord ((g.width / 8 * (g.height / 8) * 3 + 4095) / 4096)]) ∧
      (x.kind = .frameStore → x.size < (frame + 4095) / 4096 * 4096 → refused [natWord ((frame + 4095) / 4096)])))) ∧
  (∀ p : Part,
    let present (k : WindowKind) : Prop := ∃ x ∈ p.pts.windows.toList, x.present = true ∧ x.kind = k
    let c := p.cal.committed
    (p.pts.geometry = none → p.missing = some [0]) ∧
    (∀ g, p.pts.geometry = some g →
      (¬present .frameStore → p.missing = some [1, 0]) ∧
      (∀ i : Fin 16, p.pts.windows[i].present = true → p.pts.windows[i].kind = .frameStore →
        (∀ j : Fin 16, j < i → ¬(p.pts.windows[j].present = true ∧ p.pts.windows[j].kind = .frameStore)) →
        let slots := min 12 (p.pts.windows[i].size / ((g.width * g.height * 2 + 4095) / 4096 * 4096))
        (slots < 3 → p.missing = some [1, natWord slots]) ∧
        (3 ≤ slots →
          (¬present .ingest → p.missing = some [2]) ∧
          (present .ingest → ¬present .view → p.missing = some [3]) ∧
          (present .ingest → present .view → ¬present .bundle → p.missing = some [4]) ∧
          (present .ingest → present .view → present .bundle →
            (c.blackSat = false → p.missing = some [5]) ∧
            (c.blackSat = true → c.gainGrid = false → p.missing = some [6]) ∧
            (c.blackSat = true → c.gainGrid = true → c.darkTemp = false → p.missing = some [7]) ∧
            (c.blackSat = true → c.gainGrid = true → c.darkTemp = true → p.missing = none))))))

/-- Tier 2. SET_GEOMETRY (R11, R12), before S is fixed: a geometry within its ranges under which no present window is too small
replaces the old one whole and ends DONE with the frame bytes, the slot size in pages, the preview bytes and the slots a
FRAME_STORE window holds; a window too small, the first by index, refuses it BAD_ARG with that index and the pages it needs; a
width, height, phase or depth out of its range refuses it BAD_ARG with the number of the first that is, and nothing is clamped.
The numbering of argument words and the order of result words are those of log entries 11 and 13. -/
def Obligations.SetGeometryChecksTheWindows : Prop :=
  (∀ (w : SlotWrite) (s : State), s.part.takes .setGeometry w → s.part.sht.layout = none →
    let arg (k : Nat) : Nat := ((s.part.words w).getD k 0).toNat
    let refused (k : Word) : Prop :=
      exec (.setGeometry w) s = .next { s with part := s.part.answered .setGeometry w .refused .badArg [k] }
    let width := arg 0 % 16 = 0 ∧ 2048 ≤ arg 0 ∧ arg 0 ≤ 12288
    let height := arg 1 % 8 = 0 ∧ 1536 ≤ arg 1 ∧ arg 1 ≤ 9216
    (¬width → refused 0) ∧ (width → ¬height → refused 1) ∧ (width → height → 4 ≤ arg 2 → refused 2) ∧
      (width → height → arg 2 < 4 → arg 3 ≠ 12 → arg 3 ≠ 14 → arg 3 ≠ 16 → refused 3)) ∧
  ∀ (w : SlotWrite) (g : Geometry) (s : State), s.part.takes .setGeometry w → s.part.sht.layout = none →
    (s.part.words w).getD 0 0 = natWord g.width → (s.part.words w).getD 1 0 = natWord g.height →
    (s.part.words w).getD 2 0 = natWord g.cfa.code → (s.part.words w).getD 3 0 = natWord g.depth →
    g.width % 16 = 0 → 2048 ≤ g.width → g.width ≤ 12288 → g.height % 8 = 0 → 1536 ≤ g.height → g.height ≤ 9216 →
    (g.depth = 12 ∨ g.depth = 14 ∨ g.depth = 16) →
    ((∀ i : Fin 16, s.part.pts.windows[i].present = true → s.part.pts.windows[i].kind.minimum g ≤ s.part.pts.windows[i].size) →
      exec (.setGeometry w) s = .next
        { s with
          part :=
            Part.answered .setGeometry w .done .ok
              ([natWord (g.width * g.height * 2), natWord (ceilDiv (g.width * g.height * 2) 4096),
                natWord (g.width / 8 * (g.height / 8) * 3)]
                ++ ((s.part.pts.windowOf .frameStore).map fun x => natWord (min 12 (x.size / g.slotSize))).toList)
              { s.part with pts := { s.part.pts with geometry := some g } } }) ∧
    (∀ i : Fin 16, s.part.pts.windows[i].present = true → s.part.pts.windows[i].size < s.part.pts.windows[i].kind.minimum g →
      (∀ j : Fin 16, j < i → s.part.pts.windows[j].present = true →
        s.part.pts.windows[j].kind.minimum g ≤ s.part.pts.windows[j].size) →
      exec (.setGeometry w) s = .next
        { s with
          part :=
            s.part.answered .setGeometry w .refused .badArg
              [natWord i.val, natWord (ceilDiv (s.part.pts.windows[i].kind.minimum g) 4096)] })

/-! ## The load session -/

/-- Tier 1. LOAD_OPEN (R44) checks the declared length, the BUNDLE window and the session, and limits the timeout to 1 to 63;
accepted, it opens the session with the pointer at 0, no overrun and the timer running. LOAD_CANCEL (R49) ends an OPEN session
and LOAD_CLOSE (R50) makes it CLOSING; in NONE both are refused NO_LOAD, in CLOSING BUSY. LOAD_TIMEOUT (R48) ends an OPEN
session whose timer has run, with a LOAD_DONE event of outcome LOAD_TIMEOUT. The numbering of argument words and the order of
result words are those of log entries 11 and 13. -/
def Obligations.LoadSessionOpensAndEnds : Prop :=
  (∀ (w : SlotWrite) (s : State), s.part.takes .loadOpen w →
    let declared := ((s.part.words w).getD 0 0).toNat
    let asked := ((s.part.words w).getD 1 0).toNat
    let used := if asked < 1 then 1 else if 63 < asked then 63 else asked
    (declared < 64 ∨ 1048576 < declared ∨ declared % 16 ≠ 0 →
      exec (.loadOpen w) s = .next { s with part := s.part.answered .loadOpen w .refused .badArg [0] }) ∧
    (64 ≤ declared → declared ≤ 1048576 → declared % 16 = 0 →
      (s.part.pts.windowOf .bundle = none →
        exec (.loadOpen w) s = .next { s with part := s.part.answered .loadOpen w .refused .notReady [4] }) ∧
      ((s.part.pts.windowOf .bundle).isSome = true →
        (s.part.cal.session = .closing →
          exec (.loadOpen w) s = .next { s with part := s.part.answered .loadOpen w .refused .busy [] }) ∧
        (s.part.cal.session ≠ .closing →
          exec (.loadOpen w) s = .next
            { s with
              part :=
                Part.answered .loadOpen w (if used = asked then .done else .doneAdjusted) (if used = asked then .ok else .adjusted)
                  [natWord declared, natWord used, s.part.cal.committed.word]
                  { s.part with
                    cal :=
                      { s.part.cal with
                        session := .open_, declared := declared, timeout := used, pointer := 0, overrun := false
                        timer := some ⟨s.part.clock.time, used * 100000⟩ } } })))) ∧
  ((∀ (w : SlotWrite) (s : State), s.part.takes .loadCancel w →
    (s.part.cal.session = .none →
      exec (.loadCancel w) s = .next { s with part := s.part.answered .loadCancel w .refused .noLoad [] }) ∧
    (s.part.cal.session = .closing →
      exec (.loadCancel w) s = .next { s with part := s.part.answered .loadCancel w .refused .busy [] }) ∧
    (s.part.cal.session = .open_ →
      exec (.loadCancel w) s = .next
        { s with
          part :=
            Part.answered .loadCancel w .done .ok [natWord s.part.cal.pointer]
              { s.part with cal := { s.part.cal with session := .none, timer := none, closer := none } } })) ∧
  (∀ (w : SlotWrite) (s : State), s.part.takes .loadClose w →
    (s.part.cal.session = .none →
      exec (.loadClose w) s = .next { s with part := s.part.answered .loadClose w .refused .noLoad [] }) ∧
    (s.part.cal.session = .closing →
      exec (.loadClose w) s = .next { s with part := s.part.answered .loadClose w .refused .busy [] }) ∧
    (s.part.cal.session = .open_ →
      exec (.loadClose w) s = .next
        { s with
          part :=
            Part.taken .loadClose w
              { s.part with cal := { s.part.cal with session := .closing, timer := none, closer := some w.slot } } })) ∧
  (∀ (timer : Timer) (s : State), s.part.cal.session = .open_ → s.part.cal.timer = some timer → timer.due s.part.clock.time = true →
    exec .loadTimeout s = .next
      { s with
        part :=
          Part.emit .loadDone 0 [26]
            { s.part with cal := { s.part.cal with session := .none, timer := none, closer := none } } }))

/-- Tier 2. LOAD_CHECKS_DONE of a close in flight (R50, R51, R54 to R56): a load of the wrong size fails BUNDLE_SIZE, whatever
its bytes; when the first failing check is the busy check the session returns to OPEN with its bytes and the command ends
REFUSED/BUSY; when all pass, every section carried replaces its table whole by its values in order (R41, R219) and sets its flag
at one instant, tables of kinds not carried stay, the session ends, and the command ends DONE. A failure leaves every table and
flag. (The order of LOAD_DONE and the result is log entry 43; it is not stated.) The numbering of argument words and the order
of result words are those of log entries 11 and 13. -/
def Obligations.LoadChecksCommitOrLeaveTheTables : Prop :=
  ∀ (n : Fin 8) (s : State) (c : Latched), s.part.cal.session = .closing → s.part.cal.closer = some n →
    s.part.cpa.slots[n].cmd = some c → c.ended = false →
    ∃ t, exec .loadChecksDone s = .next t ∧ t.mem = s.mem ∧ t.pending = s.pending ∧
      { t.part with cpa := s.part.cpa, cal := s.part.cal, prn := s.part.prn } = s.part ∧ t.part.cal.closer = none ∧
      (s.part.cal.overrun = true ∨ s.part.cal.pointer ≠ s.part.cal.declared →
        t.part.hasEnded n .failed .bundleSize
          [natWord s.part.cal.pointer, natWord s.part.cal.declared, flagWord s.part.cal.overrun]) ∧
      (∀ code data event, s.part.closeResult = .failed code data event →
        t.part.cal = { s.part.cal with session := .none, timer := none, closer := none } ∧ t.part.prn = s.part.prn ∧
          t.part.hasEnded n .failed code data) ∧
      (∀ data, s.part.closeResult = .busy data →
        t.part.cal =
          { s.part.cal with session := .open_, closer := none, timer := some ⟨s.part.clock.time, s.part.cal.timeout * 100000⟩ } ∧
        t.part.hasEnded n .refused .busy data) ∧
      (∀ ss, s.part.closeResult = .commit ss →
        t.part.cal.session = .none ∧
        (∀ x ∈ ss,
          let value (i : Nat) : Nat := leNat (slice (2 * i) 2 x.bytes)
          let count := leNat (slice 0 4 x.bytes)
          let item (i : Nat) : Nat := leNat (slice (4 + 2 * i) 2 x.bytes)
          let entry (i : Nat) : Nat := ((x.bytes[4 + i]?).getD 0).toNat
          match x.kind with
          | .blackSat => t.part.cal.tables.blackSat = some ((List.range 8).map fun g => (value (2 * g), value (2 * g + 1)))
          | .gainGrid => t.part.cal.tables.gainGrid = some ((List.range 3072).map value)
          | .defects => t.part.cal.tables.defects = (List.range count).map fun i => (item (2 * i), item (2 * i + 1))
          | .columns => t.part.cal.tables.columns = (List.range count).map item
          | .darkTemp => t.part.cal.tables.darkTemp = some ((List.range 17).map value)
          | .tone => t.part.cal.tables.tone = (List.range count).map fun c => (List.range 1024).map fun i => entry (1024 * c + i)
          | .wb => t.part.cal.tables.wb = (List.range count).map fun i => (item (3 * i), item (3 * i + 1), item (3 * i + 2))) ∧
        (∀ k, (∀ x ∈ ss, x.kind ≠ k) → t.part.cal.committed.has k = s.part.cal.committed.has k) ∧
        (∀ x ∈ ss, x.kind.factory = true → t.part.cal.committed.has x.kind = true) ∧
        ((∀ x ∈ ss, x.kind ≠ .blackSat) → t.part.cal.tables.blackSat = s.part.cal.tables.blackSat) ∧
        ((∀ x ∈ ss, x.kind ≠ .gainGrid) → t.part.cal.tables.gainGrid = s.part.cal.tables.gainGrid) ∧
        ((∀ x ∈ ss, x.kind ≠ .defects) → t.part.cal.tables.defects = s.part.cal.tables.defects) ∧
        ((∀ x ∈ ss, x.kind ≠ .columns) → t.part.cal.tables.columns = s.part.cal.tables.columns) ∧
        ((∀ x ∈ ss, x.kind ≠ .darkTemp) → t.part.cal.tables.darkTemp = s.part.cal.tables.darkTemp) ∧
        ((∀ x ∈ ss, x.kind ≠ .tone) → t.part.cal.tables.tone = s.part.cal.tables.tone) ∧
        ((∀ x ∈ ss, x.kind ≠ .wb) → t.part.cal.tables.wb = s.part.cal.tables.wb) ∧
        ((∀ x ∈ ss, x.kind ≠ .tone ∧ x.kind ≠ .wb) → t.part.prn = s.part.prn) ∧
        ((∃ x ∈ ss, x.kind = .tone ∨ x.kind = .wb) → t.part.prn.cache = none) ∧
        t.part.hasEnded n .done .ok (ss.map (fun x => natWord x.kind.code) ++ [t.part.cal.committed.word]))

/-- Tier 2. The checks of a close in flight (R50 to R56, R219), the first that fails deciding: of the header and the section
table MAGIC, VERSION, LENGTH, COUNT, KIND, DUPLICATE, PLACEMENT, OVERLAP, for an entry with its index (the order of conditions
over entries, the later entry of a pair and COUNT for a table too long are log entry 37); the CRC-32 with both values; the rules
of the sections, in table order; outside SERVICE the first factory section already committed; for a bundle with a factory
section the first shot in READING, AWAIT_DARK or DEVELOPING or the dark capture, whichever comes first in shot number order, in
a word each (R215, log entry 30). A bundle that passes all commits its sections. A section's own rules (R53, R219), by its kind:
LENGTH where it is not as long as its content, a count in its range, then BLACK and THRESHOLD, GAIN, NO_GEOMETRY with POSITION
and ORDER, FACTOR, or CURVE, the first rule that fails. -/
def Obligations.LoadCloseChecksAndSectionRules : Prop :=
  (∀ p : Part, p.cal.overrun = false → p.cal.pointer = p.cal.declared →
    let bytes := p.cal.staged.take p.cal.pointer
    let field (off n : Nat) : Nat := leNat (slice off n bytes)
    let total := field 8 4
    let count := field 6 2
    let kind (i : Nat) : Nat := field (16 + 16 * i) 2
    let start (i : Nat) : Nat := field (20 + 16 * i) 4
    let size (i : Nat) : Nat := field (24 + 16 * i) 4
    let content (i : Nat) : List Byte := slice (start i) (size i) bytes
    let unknown (i : Nat) : Prop := kind i = 0 ∨ 7 < kind i
    let misplaced (i : Nat) : Prop := size i = 0 ∨ start i % 4 ≠ 0 ∨ start i < 16 + 16 * count ∨ total - 4 < start i + size i
    let overlap (i j : Nat) : Prop := start i < start j + size j ∧ start j < start i + size i
    let fails (data : List Word) : Prop := p.closeResult = .failed .bundleFormat data []
    let first (bad : Nat → Prop) (i : Nat) : Prop := i < count ∧ bad i ∧ ∀ j < i, ¬bad j
    let none_ (bad : Nat → Prop) : Prop := ∀ i < count, ¬bad i
    let twice (i : Nat) : Prop := ∃ j < i, kind j = kind i
    let over_ (i : Nat) : Prop := ∃ j < i, overlap j i
    let factory (i : Nat) : Prop := kind i ≤ 5
    let faulty (i : Nat) : Prop := ∃ k r, sectionKindOf (kind i) = some k ∧ sectionFault p.pts.geometry k (content i) = some r
    let locked (i : Nat) : Prop := p.cpa.mode ≠ .service ∧ ∃ k, sectionKindOf (kind i) = some k ∧ p.cal.committed.has k = true
    let crc := crc32 (bytes.take (p.cal.declared - 4))
    let trailer := natWord (field (p.cal.declared - 4) 4)
    let headed := field 0 4 = 0x4B424C31 ∧ field 4 2 = 1 ∧ total = p.cal.declared
    let counted := headed ∧ 1 ≤ count ∧ count ≤ 8 ∧ 16 + 16 * count + 4 ≤ total
    let laidOut := counted ∧ none_ unknown ∧ none_ twice ∧ none_ misplaced ∧ none_ over_
    let sound := laidOut ∧ crc = trailer ∧ none_ faulty
    (field 0 4 ≠ 0x4B424C31 → fails [0]) ∧
    (field 0 4 = 0x4B424C31 → field 4 2 ≠ 1 → fails [1]) ∧
    (field 0 4 = 0x4B424C31 → field 4 2 = 1 → total ≠ p.cal.declared → fails [2]) ∧
    (headed → count = 0 ∨ 8 < count ∨ total < 16 + 16 * count + 4 → fails [3]) ∧
    (∀ i, counted → first unknown i → fails [4, natWord i]) ∧
    (∀ i, counted → none_ unknown → first twice i → fails [5, natWord i]) ∧
    (∀ i, counted → none_ unknown → none_ twice → first misplaced i → fails [6, natWord i]) ∧
    (∀ i, counted → none_ unknown → none_ twice → none_ misplaced → first over_ i → fails [7, natWord i]) ∧
    (laidOut → crc ≠ trailer → p.closeResult = .failed .bundleCrc [crc, trailer] []) ∧
    (∀ i k r, laidOut → crc = trailer → first faulty i → sectionKindOf (kind i) = some k →
      sectionFault p.pts.geometry k (content i) = some r →
      p.closeResult = .failed .bundleFormat [natWord i, natWord r.code] [natWord i]) ∧
    (∀ i, sound → first locked i → p.closeResult = .failed .sectionLocked [natWord i, natWord (kind i)] []) ∧
    (∀ i, sound → none_ locked → i < count → factory i →
      (∀ x, p.sht.records.find? (fun y => decide (y.state ∈ [ShotState.reading, .awaitDark, .developing])) = some x →
        (∀ c, p.dfl.capture = some c → x.number.toNat ≤ c.shot.toNat) → p.closeResult = .busy [x.number, natWord x.state.code, 0]) ∧
      (∀ c, p.dfl.capture = some c →
        (∀ x, p.sht.records.find? (fun y => decide (y.state ∈ [ShotState.reading, .awaitDark, .developing])) = some x →
          c.shot.toNat < x.number.toNat) →
        p.closeResult = .busy [0, 0, c.shot])) ∧
    (sound → none_ locked →
      (∀ i < count, ¬factory i) ∨
        ((∀ x ∈ p.sht.records, x.state ∉ [ShotState.reading, .awaitDark, .developing]) ∧ p.dfl.capture = none) →
      ∃ ss, p.closeResult = .commit ss ∧ ss.length = count ∧
        ∀ i < count, ∃ k, sectionKindOf (kind i) = some k ∧ ss[i]? = some ⟨i, k, content i⟩)) ∧
  (∀ (geo : Option Geometry) (bytes : List Byte),
    let value (i : Nat) : Nat := leNat (slice (2 * i) 2 bytes)
    let n := leNat (slice 0 4 bytes)
    let item (i : Nat) : Nat := leNat (slice (4 + 2 * i) 2 bytes)
    let byte (i : Nat) : Nat := (bytes.getD i 0).toNat
    let limit := match geo with
      | none => 65535
      | some g => 2 ^ g.depth - 1
    let some_ (k : Nat) (bad : Nat → Bool) : Bool := (List.range k).any bad
    let outside (lo hi v : Nat) : Bool := decide (v < lo) || decide (hi < v)
    (sectionFault geo .blackSat bytes =
      if bytes.length ≠ 32 then some .length
      else if some_ 8 fun i => outside 0 4095 (value (2 * i)) then some .black
      else if some_ 8 fun i => outside (value (2 * i) + 256) limit (value (2 * i + 1)) then some .threshold
      else none) ∧
    (sectionFault geo .gainGrid bytes =
      if bytes.length ≠ 6144 then some .length else if some_ 3072 fun i => outside 2048 16383 (value i) then some .gain else none) ∧
    (sectionFault geo .darkTemp bytes =
      if bytes.length ≠ 34 then some .length else if some_ 17 fun i => outside 8192 32767 (value i) then some .factor else none) ∧
    (sectionFault geo .wb bytes =
      if bytes.length ≠ 4 + 6 * n then some .length
      else if n < 1 ∨ 8 < n then some .count
      else if some_ (3 * n) fun i => outside 2048 16383 (item i) then some .gain
      else none) ∧
    (sectionFault geo .tone bytes =
      if bytes.length ≠ 4 + 1024 * n then some .length
      else if n < 1 ∨ 4 < n then some .count
      else if some_ n fun c => some_ 1023 fun i => decide (byte (4 + 1024 * c + i + 1) < byte (4 + 1024 * c + i)) then some .curve
      else none) ∧
    (sectionFault geo .defects bytes =
      if bytes.length ≠ 4 + 4 * n then some .length
      else if 4096 < n then some .count
      else
        match geo with
        | none => some .noGeometry
        | some g =>
          if some_ n fun i => decide (g.width ≤ item (2 * i)) || decide (g.height ≤ item (2 * i + 1)) then some .position
          else if some_ (n - 1) fun i =>
            decide (item (2 * i + 3) < item (2 * i + 1)) ||
              (decide (item (2 * i + 3) = item (2 * i + 1)) && decide (item (2 * i + 2) ≤ item (2 * i))) then some .order
          else none) ∧
    (sectionFault geo .columns bytes =
      if bytes.length ≠ 4 + 2 * n then some .length
      else if 64 < n then some .count
      else
        match geo with
        | none => some .noGeometry
        | some g =>
          if some_ n fun i => decide (g.width ≤ item i) then some .position
          else if some_ (n - 1) fun i => decide (item (i + 1) ≤ item i) then some .order
          else none))

/-! ## RESET_SHOTS -/

/-- Tier 2. RESET_SHOTS (R38, R39, R57, R76, R108, R127, R150, R166, R180, R205): the ESU, the DFL and the CAL stop at once, and
each other block with nothing under way reports stopped; SHT_RESET_CLEAR, once they all have, empties the shot table and counts
the records, and has the status record rewritten if its free slot or protected count changes (R34); RESET_SHOTS_DONE rewrites
the status record, emits RESET_DONE and ends the command DONE with the two counts. The numbering of argument words and the order
of result words are those of log entries 11 and 13. -/
def Obligations.ResetShotsStopsClearsAndReports : Prop :=
  (∀ (w : SlotWrite) (s : State), s.part.takes .resetShots w → s.part.loadFits →
    ∃ t r, exec (.resetShots w) s = .next t ∧ t.mem = s.mem ∧ t.pending = s.pending ∧
      t.part.cpa.resetting = some r ∧ r.slot = w.slot ∧ r.sht = false ∧
      { t.part with
        cpa := s.part.cpa, cal := s.part.cal, esu := s.part.esu, dfl := s.part.dfl, icr := s.part.icr, dpe := s.part.dpe
        prn := s.part.prn, cde := s.part.cde } = s.part ∧
      t.part.esu =
        { s.part.esu with
          seq := .idle, strobe := none, flushTimer := none, armTimer := none, guardTimer := none, progTimer := none, darkTimer := none
          flushLine := false, integLine := false, readLine := false, strobeLine := false, flushPulse := none, readPulse := none
          strobePulse := none } ∧
      t.part.dfl = ⟨s.part.dfl.policy, [], [], none, none⟩ ∧
      t.part.cal = { s.part.cal with session := .none, timer := none, closer := none } ∧
      (s.part.icr.work = none →
        r.icr = true ∧ t.part.icr = { s.part.icr with target := none, deadline := none, strayReported := false }) ∧
      (s.part.port.busy = none → r.dpe = true ∧ t.part.dpe = ⟨[], none⟩) ∧
      (s.part.prn.work = none → r.prn = true ∧ t.part.prn = ⟨none, none, none⟩) ∧
      (s.part.cde.run = none → s.part.cde.listReads = [] → s.part.cde.bufWrites = [] →
        r.cde = true ∧ r.requests = s.part.cde.requests.length ∧ t.part.cde = { s.part.cde with requests := [] })) ∧
  (∀ (r : ResetWork) (s : State), s.part.cpa.resetting = some r → r.sht = false →
    r.icr = true → r.dpe = true → r.prn = true → r.cde = true →
    let q : Part :=
      { s.part with
        sht := { s.part.sht with records := [], slots := List.replicate s.part.sht.slots.length .free, protectedCount := 0 }
        cpa := { s.part.cpa with resetting := some { r with sht := true, shots := s.part.sht.records.length } } }
    let kept := (∀ h ∈ s.part.sht.slots, h = .free) ∧ s.part.sht.protectedCount = 0
    (kept → exec .shtResetClear s = .next { s with part := q }) ∧
      (¬kept → exec .shtResetClear s = .next { s with part := q.statusDirty })) ∧
  (∀ (r : ResetWork) (s : State), s.part.cpa.resetting = some r → r.sht = true →
    exec .resetShotsDone s = .next
      { s with
        part :=
          Part.endCommand r.slot .done .ok [natWord r.shots, natWord r.requests]
            (Part.emit .resetDone 0 [natWord r.shots, natWord r.requests]
              (Part.statusDirty { s.part with cpa := { s.part.cpa with resetting := none } })) })

/-! ## Arming -/

/-- Tier 2. An arming request that no check of R85 refuses (R60, R63, R64, R80, R84, R87, R89), with no dark capture in
progress: ARM, its times clamped and a SYNC plan of LAST taken as FIRST, and a debounced press of the ARM_IN button with the
line-arm defaults (R86). The lowest FREE slot is the shot's, or, with none FREE, that of the unreferenced library entry last
used the longest ago, which leaves the library with no event (R115); its record, in ARMING, takes the shot counter's number,
which advances; a staged set becomes active; SENSOR_FLUSH rises and the flush time runs; SHOT_ARMED is all that the CPA is
handed, beside the status write (before it: log entry 43). ARM ends DONE, or DONE_ADJUSTED if a value was changed. ARM with
PREEMPT_DARK, past checks 1 to 9, while a dark capture is in progress (R88, R123): the capture ends PREEMPTED, its slot FREE and
its shot, SKIPPED(PREEMPTED), in development; then the ARM is carried out (R87) in the lowest slot then FREE. With an ingest
burst of the dark under way both wait for its commit (R143; log entry 18). The numbering of argument words and the order of
result words are those of log entries 11 and 13. -/
def Obligations.ArmingCreatesTheShot : Prop :=
  (let armed (p : Part) (slot : Nat) (mode : ShotMode) (gain time : Nat) (plan : StrobePlan) (planTime : Nat) (auto : Bool)
      (q : Part) : Prop :=
    let settings := p.esu.staged.getD p.esu.active
    { q with cpa := p.cpa, sht := p.sht, esu := p.esu } = p ∧
    (∃ x, q.sht =
        { p.sht with
          slots := p.sht.slots.set slot (.shot p.sht.counter), counter := p.sht.counter + 1, records := p.sht.records ++ [x] } ∧
      x.number = p.sht.counter ∧ x.state = .arming ∧ x.slot = slot ∧ x.prot = false ∧
      x.arming =
        ⟨mode, gain, if mode = .timed then some time else none, plan, planTime, auto, p.clock.time,
          if p.tsm.temp = .fault then none else p.tsm.reading⟩ ∧
      x.exposure.edges = [] ∧ x.exposure.integStart = none ∧ x.progress.dark = none ∧ x.progress.gaps = [] ∧
      x.progress.histogram = List.replicate 64 0) ∧
    q.esu =
      { p.esu with
        active := settings, staged := none, seq := .shotFlush, flushLine := true, flushPulse := some ⟨p.clock.time, 10⟩
        flushTimer := some ⟨p.clock.time, settings.flush⟩ }
  let reported (p : Part) (slot : Nat) (mode : ShotMode) (gain : Nat) : Part :=
    Part.emit .shotArmed p.sht.counter [natWord slot, natWord mode.code, natWord gain] p.statusDirty
  let ready (p : Part) (mode : ShotMode) (time : Nat) : Prop :=
    p.sht.counter ≠ 0 ∧ (∀ x ∈ p.sht.records, x.state.live = false) ∧ p.dfl.capture = none ∧ p.tsm.temp ≠ .critical ∧
      (mode = .timed → time ≤ 60000000 ∨ p.tsm.supply = .normal)
  let planTime (plan : StrobePlan) (lead : Nat) (settings : SyncSettings) : Nat :=
    match plan with
    | .none => 0
    | .first => settings.delay
    | .last => lead
  (∀ (w : SlotWrite) (mode : ShotMode) (gain : Nat) (asked : StrobePlan) (slot : Nat) (q : Part) (s : State), s.part.takes .arm w →
    let p := s.part.entered .arm
    let args := s.part.words w
    let time := if mode = .timed then max 1000 (min (args.getD 2 0).toNat 1800000000) else 0
    let plan := if mode = .sync ∧ asked = .last then .first else asked
    let lead := min (args.getD 4 0).toNat 1800000000
    let adjusted := (mode = .timed ∧ time ≠ (args.getD 2 0).toNat) ∨ plan ≠ asked ∨ (plan = .last ∧ lead ≠ (args.getD 4 0).toNat)
    let at_ := planTime plan lead (p.esu.staged.getD p.esu.active)
    args.getD 0 0 = natWord mode.code → args.getD 1 0 = natWord gain → gain ≤ 7 → args.getD 3 0 = natWord asked.code →
    ready p mode time → p.givesSlot slot q →
    ∃ t, exec (.arm w) s = .next t ∧ t.mem = s.mem ∧ t.pending = s.pending ∧
      armed q slot mode gain time plan at_ ((args.getD 5 0).getLsbD 0) t.part ∧
      t.part.cpa =
        (Part.answered .arm w (if adjusted then .doneAdjusted else .done) (if adjusted then .adjusted else .ok)
          [p.sht.counter, natWord slot, natWord time, natWord plan.code, natWord at_, flagWord p.esu.staged.isSome]
          (reported p slot mode gain)).cpa) ∧
  (∀ (timer : Timer) (slot : Nat) (q : Part) (s : State), s.part.esu.buttonTimer = some timer →
    timer.due s.part.clock.time = true → s.part.cpa.mode = .operational → s.part.cpa.resetting = none →
    let d := s.part.esu.staged.getD s.part.esu.active
    let p : Part := { s.part with esu := { s.part.esu with button := !s.part.esu.button, buttonTimer := none } }
    (s.part.esu.button = true → exec .armInAccept s = .next { s with part := p }) ∧
    (s.part.esu.button = false → d.inRange → ready p d.lineMode d.lineTime → p.givesSlot slot q →
      ∃ t, exec .armInAccept s = .next t ∧ t.mem = s.mem ∧ t.pending = s.pending ∧
        armed q slot d.lineMode d.lineGain d.lineTime d.linePlan (planTime d.linePlan d.lineLead d) true t.part ∧
        t.part.cpa = (reported p slot d.lineMode d.lineGain).cpa))) ∧
  (∀ (mode : ShotMode) (gain : Nat) (asked : StrobePlan) (args : List Word) (c : Capture) (x : Shot) (p : Part),
    let time := if mode = .timed then max 1000 (min (args.getD 2 0).toNat 1800000000) else 0
    let plan : StrobePlan := if mode = .sync ∧ asked = .last then .first else asked
    let lead := min (args.getD 4 0).toNat 1800000000
    let adjusted := (mode = .timed ∧ time ≠ (args.getD 2 0).toNat) ∨ plan ≠ asked ∨ (plan = .last ∧ lead ≠ (args.getD 4 0).toNat)
    let cls : ResultClass := if adjusted then .doneAdjusted else .done
    let code : ResultCode := if adjusted then .adjusted else .ok
    let settings := p.esu.staged.getD p.esu.active
    let at_ := match plan with
      | .none => 0
      | .first => settings.delay
      | .last => lead
    let words (slot : Nat) : List Word :=
      [p.sht.counter, natWord slot, natWord time, natWord plan.code, natWord at_, flagWord p.esu.staged.isSome]
    let freed := p.sht.slots.set c.slot .free
    let stopped : Esu :=
      { p.esu with
        integLine := false, strobe := none, flushTimer := none, armTimer := none, guardTimer := none, progTimer := none
        darkTimer := none }
    let carriedOut (slot : Nat) (t : Part) : Prop :=
      t.dfl = { p.dfl with capture := none, ending := none } ∧
      t.esu =
        { stopped with
          active := settings, staged := none, seq := .shotFlush, flushLine := true, flushPulse := some ⟨p.clock.time, 10⟩
          flushTimer := some ⟨p.clock.time, settings.flush⟩ } ∧
      t.sht.slots = freed.set slot (.shot p.sht.counter) ∧ t.sht.counter = p.sht.counter + 1 ∧
      t.dpe.queue = p.dpe.queue ++ [c.shot] ∧
      (∃ y, t.shot? c.shot = some y ∧ y.state = .developing ∧ y.progress.dark = some (.skipped .preempted)) ∧
      (∃ z, t.shot? p.sht.counter = some z ∧ z.state = .arming ∧ z.slot = slot ∧ z.progress.dark = none ∧
        z.arming =
          ⟨mode, gain, if mode = .timed then some time else none, plan, at_, (args.getD 5 0).getLsbD 0, p.clock.time,
            if p.tsm.temp = .fault then none else p.tsm.reading⟩) ∧
      ∀ n, n ≠ c.shot → n ≠ p.sht.counter → t.shot? n = p.shot? n
    args.getD 0 0 = natWord mode.code → args.getD 1 0 = natWord gain → gain ≤ 7 → args.getD 3 0 = natWord asked.code →
    p.dfl.capture = some c → p.shot? c.shot = some x → p.shot? p.sht.counter = none →
    (∀ (w : SlotWrite) (s : State), s.part.takes .arm w → p = s.part.entered .arm → args = s.part.words w →
      (args.getD 6 0).getLsbD 0 = true → p.sht.counter ≠ 0 → p.dfl.ending = none → (∀ y ∈ p.sht.records, y.state.live = false) →
      p.tsm.temp ≠ .critical → (mode = .timed → time ≤ 60000000 ∨ p.tsm.supply = .normal) →
      (c.phase ≠ .read ∨ p.icr.work = none → ∀ slot, freed[slot]? = some .free → (∀ j < slot, freed[j]? ≠ some .free) →
        ∃ t, exec (.arm w) s = .next t ∧ t.mem = s.mem ∧ t.pending = s.pending ∧
          { t.part with cpa := p.cpa, sht := p.sht, esu := p.esu, dfl := p.dfl, icr := p.icr, dpe := p.dpe } = p ∧
          t.part.icr = (if c.phase = .read then { p.icr with target := none, deadline := none, strayReported := false } else p.icr) ∧
          carriedOut slot t.part ∧
          t.part.cpa =
            (Part.answered .arm w cls code (words slot)
              (Part.emit .shotArmed p.sht.counter [natWord slot, natWord mode.code, natWord gain]
                (Part.statusDirty (p.captureFailureReported c .preempted)))).cpa) ∧
      (c.phase = .read → p.icr.work.isSome = true →
        exec (.arm w) s = .next
          { s with
            part :=
              { p.taken .arm w with
                esu := { stopped with seq := .idle }
                dfl := { p.dfl with ending := some ⟨.preempted, c.td, .arm w.slot args, []⟩ } } })) ∧
    (∀ (s : State) (k : IngestWork) (g : Target) (e : Ending) (n : Fin 8) (l : Latched), p = s.part →
      s.part.icr.work = some k → k.stage = .written → s.part.icr.target = some g → g.kind = .dark → s.part.cpa.resetting = none →
      s.part.dfl.ending = some e → e.reason = .preempted → e.after = .arm n args → e.arms = [] →
      s.part.cpa.slots[n].cmd = some l → l.ended = false →
      ∀ slot, freed[slot]? = some .free → (∀ j < slot, freed[j]? ≠ some .free) →
      ∃ t, exec .ingestCommit s = .next t ∧ t.mem = s.mem ∧ t.pending = s.pending ∧ t.part.icr.target = none ∧
        t.part.icr.work = none ∧ t.part.dfl = { p.dfl with capture := none, ending := none } ∧ t.part.esu.seq = .shotFlush ∧
        t.part.sht.slots = freed.set slot (.shot p.sht.counter) ∧ t.part.sht.counter = p.sht.counter + 1 ∧
        (∃ y, t.part.shot? c.shot = some y ∧ y.state = .developing ∧ y.progress.dark = some (.skipped .preempted)) ∧
        (∃ z, t.part.shot? p.sht.counter = some z ∧ z.state = .arming ∧ z.slot = slot) ∧
        t.part.hasEnded n cls code (words slot)))

/-- Tier 2. Where ARM is refused (R62, R85), by the first check that fails: the counter at 0 (shot numbers used up; the word
that says so is a free value, log entry 10), a malformed argument, the first in list order (log entry 50), a shot in ARMING to
READING, a dark capture with PREEMPT_DARK clear, CRITICAL, a TIMED shot of more than 60 s with the supply LOW, and, with no slot
FREE and no library entry unreferenced, NO_SLOT. Each leaves all but the command's own slot, and a dark capture in progress goes
on, with PREEMPT_DARK set too (R88). The numbering of argument words and the order of result words are those of log entries 11
and 13. -/
def Obligations.ArmIsRefusedByItsChecks : Prop :=
  ∀ (w : SlotWrite) (s : State), s.part.takes .arm w →
    let p := s.part.entered .arm
    let args := s.part.words w
    let refused (code : ResultCode) (data : List Word) : Prop :=
      exec (.arm w) s = .next { s with part := p.answered .arm w .refused code data }
    (p.sht.counter = 0 → refused .notReady [Config.shotNumbersCode]) ∧
    (p.sht.counter ≠ 0 →
      (2 ≤ (args.getD 0 0).toNat → refused .badArg [0]) ∧
      ((args.getD 0 0).toNat < 2 → 7 < (args.getD 1 0).toNat → refused .badArg [1]) ∧
      ((args.getD 0 0).toNat < 2 → (args.getD 1 0).toNat ≤ 7 → 3 ≤ (args.getD 3 0).toNat → refused .badArg [3]) ∧
      ((args.getD 0 0).toNat < 2 → (args.getD 1 0).toNat ≤ 7 → (args.getD 3 0).toNat < 3 →
        (∀ x, p.currentShot = some x → refused .alreadyArmed [x.number]) ∧
        (p.currentShot = none →
          (∀ c, p.dfl.capture = some c → (args.getD 6 0).getLsbD 0 = false → refused .sensorBusy [c.shot]) ∧
          (p.dfl.capture = none ∨ (args.getD 6 0).getLsbD 0 = true → p.tsm.temp = .critical → refused .tooHot []) ∧
          (p.dfl.capture = none ∨ (args.getD 6 0).getLsbD 0 = true → p.tsm.temp ≠ .critical → args.getD 0 0 = 1 →
            60000000 < (args.getD 2 0).toNat → p.tsm.supply = .low → refused .lowSupply []) ∧
          (p.dfl.capture = none → p.tsm.temp ≠ .critical → (args.getD 0 0 = 0 ∨ (args.getD 2 0).toNat ≤ 60000000) →
            (∀ x ∈ p.sht.slots, x ≠ .free) → (∀ e ∈ p.dfl.entries, e.refs ≠ 0) → refused .noSlot []))))

/-- Tier 2. DISARM (R102): a shot in ARMING to SETTLING is removed (R67): the sequence stops with SENSOR_INTEG low,
SHOT_DISARMED with the state and the SLOT_RELEASED of its slot are emitted (their order and that of the writes are log entries
38 and 43); one in READING is marked ABANDONED once, with SHOT_DISARMED; one further on is refused BUSY, an unknown number
NOT_FOUND. SET_DARK_POLICY (R110, R111): the policy, its numbers clamped, replaces the old one; where the size falls,
unreferenced entries go, lowest stamp first, their slots FREE with SLOT_RELEASED, until the library fits or all are referenced;
it ends DONE, or DONE_ADJUSTED, with its four values and the count removed. A mode outside its list is BAD_ARG; a change of
pedestal while a shot in READING, AWAIT_DARK or DEVELOPING exists, or a dark capture, is refused BUSY with the first such shot
and its state, or with the capture, by the shot it serves, when that comes first in shot number order (log entry 30): a word
each, the words not used zero (R215). SKIP_DARK (R125, R123): of a shot in READING whose source is a capture to come, the source
becomes SKIPPED(CANCELLED) and DARK_FAILED has 0 elapsed; of the shot in AWAIT_DARK that a capture serves, the sequence stops,
in READ the target is cleared, the dark's slot becomes FREE, and the shot, SKIPPED(CANCELLED), goes to development; with an
ingest burst under way in READ all that waits for its commit (R143). The command ends DONE, with the phase. Any other shot, one
in READING with another source among them, is refused NOT_FOUND with its state, an unknown number NOT_FOUND. A capture whose end
is pending counts as none (log entry 18). The numbering of argument words and the order of result words are those of log entries
11 and 13. -/
def Obligations.DisarmDarkPolicyAndSkipDark : Prop :=
  (∀ (w : SlotWrite) (s : State), s.part.takes .disarm w →
    let p := s.part.entered .disarm
    let n := (s.part.words w).getD 0 0
    (p.shot? n = none → exec (.disarm w) s = .next { s with part := p.answered .disarm w .refused .notFound [] }) ∧
    (∀ x, p.shot? n = some x →
      (x.state ∈ [.arming, .armed, .exposing, .settling] → x.progress.dark = none → (∀ r ∈ p.cde.requests, r.names n = false) →
        (∀ v, p.prn.selection = some v → v.shot ≠ n) →
        let gone : Part :=
          { p with
            esu :=
              { p.esu with
                seq := .idle, integLine := false, strobe := none, flushTimer := none, armTimer := none, guardTimer := none
                progTimer := none, darkTimer := none }
            sht :=
              { p.sht with
                slots := p.sht.slots.set x.slot .free, records := p.sht.records.filter fun y => decide (y.number ≠ n)
                protectedCount := p.sht.protectedCount - (if x.prot then 1 else 0) } }
        exec (.disarm w) s = .next
          { s with
            part :=
              Part.answered .disarm w .done .ok [natWord x.state.code]
                (Part.emit .slotReleased n [natWord x.slot, 0]
                  (Part.statusDirty (Part.emit .shotDisarmed n [natWord x.state.code] gone))) }) ∧
      (x.state = .reading → x.exposure.abandoned = true →
        exec (.disarm w) s = .next { s with part := p.answered .disarm w .done .ok [natWord 4] }) ∧
      (x.state = .reading → x.exposure.abandoned = false →
        exec (.disarm w) s = .next
          { s with
            part :=
              Part.answered .disarm w .done .ok [natWord 4]
                (Part.emit .shotDisarmed n [natWord 4]
                  { p with
                    sht :=
                      { p.sht with
                        records :=
                          p.sht.records.map fun y =>
                            if y.number = n then { y with exposure := { y.exposure with abandoned := true } } else y } }) }) ∧
      (x.state ∈ [.awaitDark, .developing, .developed, .storing, .stored] →
        exec (.disarm w) s = .next { s with part := p.answered .disarm w .refused .busy [natWord x.state.code] }))) ∧
  (∀ (w : SlotWrite) (s : State), s.part.takes .setDarkPolicy w →
    let p := s.part.entered .setDarkPolicy
    let args := s.part.words w
    let arg (k : Nat) : Nat := (args.getD k 0).toNat
    (3 ≤ arg 0 → exec (.setDarkPolicy w) s = .next { s with part := p.answered .setDarkPolicy w .refused .badArg [0] }) ∧
    (∀ mode : DarkMode, arg 0 = mode.code →
      let x : Policy := ⟨mode, max 1 (min (arg 1) 60), min (arg 2) 4, min (arg 3) 4095⟩
      let adjusted := x.threshold ≠ arg 1 ∨ x.size ≠ arg 2 ∨ x.pedestal ≠ arg 3
      let cls : ResultClass := if adjusted then .doneAdjusted else .done
      let code : ResultCode := if adjusted then .adjusted else .ok
      let words := [natWord mode.code, natWord x.threshold, natWord x.size, natWord x.pedestal]
      (∀ y, x.pedestal ≠ p.dfl.policy.pedestal → p.sht.records.find? (fun r => r.state.inCorrection) = some y →
        (∀ c, p.dfl.capture = some c → y.number.toNat ≤ c.shot.toNat) →
        exec (.setDarkPolicy w) s = .next
          { s with part := p.answered .setDarkPolicy w .refused .busy [y.number, natWord y.state.code, 0] }) ∧
      (∀ c, x.pedestal ≠ p.dfl.policy.pedestal → p.dfl.capture = some c →
        (∀ y, p.sht.records.find? (fun r => r.state.inCorrection) = some y → c.shot.toNat < y.number.toNat) →
        exec (.setDarkPolicy w) s = .next
          { s with part := p.answered .setDarkPolicy w .refused .busy [0, 0, c.shot] }) ∧
      (x.pedestal = p.dfl.policy.pedestal ∨ ((∀ y ∈ p.sht.records, y.state.inCorrection = false) ∧ p.dfl.capture = none) →
        ∃ removed : List Dark,
          let left := removed.foldl List.erase p.dfl.entries
          exec (.setDarkPolicy w) s = .next
            { s with
              part :=
                Part.answered .setDarkPolicy w cls code (words ++ [natWord removed.length])
                  (removed.foldl
                    (fun q e =>
                      Part.emit .slotReleased e.origin [natWord e.slot, 1]
                        (Part.statusDirty
                          { q with
                            dfl := { q.dfl with entries := q.dfl.entries.erase e }
                            sht := { q.sht with slots := q.sht.slots.set e.slot .free } }))
                    { p with dfl := { p.dfl with policy := x } }) } ∧
            (∀ e ∈ removed, e ∈ p.dfl.entries ∧ e.refs = 0) ∧ removed.length + left.length = p.dfl.entries.length ∧
            removed.Pairwise (fun e f => e.stamp.toNat ≤ f.stamp.toNat) ∧
            (∀ e ∈ removed, ∀ f ∈ left, f.refs = 0 → e.stamp.toNat ≤ f.stamp.toNat) ∧
            (p.dfl.policy.size ≤ x.size → removed = []) ∧ (removed ≠ [] → x.size ≤ left.length) ∧
            (x.size < p.dfl.policy.size → left.length ≤ x.size ∨ ∀ f ∈ left, f.refs ≠ 0)))) ∧
  ((∀ (w : SlotWrite) (s : State), s.part.takes .skipDark w →
    let p := s.part.entered .skipDark
    let n := (s.part.words w).getD 0 0
    let stopped : Esu :=
      { p.esu with
        seq := .idle, integLine := false, strobe := none, flushTimer := none, armTimer := none, guardTimer := none, progTimer := none
        darkTimer := none }
    (p.shot? n = none → exec (.skipDark w) s = .next { s with part := p.answered .skipDark w .refused .notFound [] }) ∧
    (∀ x, p.shot? n = some x →
      (x.state = .reading → x.progress.dark = some (.capture .capturing none) →
        exec (.skipDark w) s = .next
          { s with
            part :=
              Part.answered .skipDark w .done .ok []
                (Part.emit .darkFailed n [natWord DarkReason.cancelled.code, 0]
                  { p with
                    sht :=
                      { p.sht with
                        records :=
                          p.sht.records.map fun y =>
                            if y.number = n then { y with progress := { y.progress with dark := some (.skipped .cancelled) } } else y } }) }) ∧
      (x.state ∉ [.reading, .awaitDark] ∨ (x.state = .reading ∧ x.progress.dark ≠ some (.capture .capturing none)) ∨
          (x.state = .awaitDark ∧ (p.dfl.capture = none ∨ p.dfl.ending.isSome = true)) →
        exec (.skipDark w) s = .next { s with part := p.answered .skipDark w .refused .notFound [natWord x.state.code] }) ∧
      (∀ c, x.state = .awaitDark → p.dfl.capture = some c → c.shot = n → p.dfl.ending = none →
        (c.phase ≠ .read ∨ p.icr.work = none →
          ∃ t y, exec (.skipDark w) s = .next t ∧ t.mem = s.mem ∧ t.pending = s.pending ∧
            { t.part with cpa := p.cpa, sht := p.sht, esu := p.esu, dfl := p.dfl, icr := p.icr, dpe := p.dpe } = p ∧
            t.part.dfl = { p.dfl with capture := none, ending := none } ∧ t.part.esu = stopped ∧
            t.part.icr = (if c.phase = .read then { p.icr with target := none, deadline := none, strayReported := false } else p.icr) ∧
            t.part.sht.slots = p.sht.slots.set c.slot .free ∧ t.part.dpe.queue = p.dpe.queue ++ [n] ∧
            t.part.shot? n = some y ∧ y.state = .developing ∧ y.progress.dark = some (.skipped .cancelled) ∧
            t.part.hasEnded w.slot .done .ok [natWord c.phase.code]) ∧
        (c.phase = .read → p.icr.work.isSome = true →
          exec (.skipDark w) s = .next
            { s with
              part :=
                { p.taken .skipDark w with
                  esu := stopped, dfl := { p.dfl with ending := some ⟨.cancelled, c.td, .skip w.slot .read, []⟩ } } })))) ∧
  (∀ (s : State) (x : IngestWork) (g : Target) (c : Capture) (e : Ending) (n : Fin 8) (l : Latched) (z : Shot),
    s.part.icr.work = some x → x.stage = .written → s.part.icr.target = some g → s.part.cpa.resetting = none →
    s.part.dfl.capture = some c → s.part.dfl.ending = some e → e.after = .skip n .read → e.arms = [] →
    s.part.cpa.slots[n].cmd = some l → l.ended = false → s.part.shot? c.shot = some z →
    ∃ t y, exec .ingestCommit s = .next t ∧ t.mem = s.mem ∧ t.pending = s.pending ∧ t.part.icr.target = none ∧
      t.part.icr.work = none ∧ t.part.dfl.capture = none ∧ t.part.dfl.ending = none ∧
      t.part.sht.slots = s.part.sht.slots.set c.slot .free ∧ t.part.shot? c.shot = some y ∧ y.state = .developing ∧
      y.progress.dark = some (.skipped e.reason) ∧ t.part.pts.answer = some ⟨true, []⟩ ∧
      t.part.hasEnded n .done .ok [natWord CapturePhase.read.code]))

/-- Tier 2. SET_SYNC (R79, R80): with its line-arm mode, gain code and plan in their lists, the twelve values, clamped and a
SYNC plan of LAST taken as FIRST, are active at once with the sequencer IDLE, and staged otherwise in place of any staged set;
the result gives them and which of the two, and the class says whether any was changed; else BAD_ARG with the first malformed
argument in list order (log entry 50). SNAPSHOT (R104) changes nothing and ends DONE with the picture (its word order is log
entry 13): the timebase, the sequence state, number and state of the shot it serves, or for which it takes a dark, the elapsed
integration while SENSOR_INTEG is high, the contact, the last four edges, oldest first, the list's length and overflow count,
and the staged flag; zeros in IDLE, and no edges in a dark phase. The numbering of argument words and the order of result words
are those of log entries 11 and 13. -/
def Obligations.SetSyncAndSnapshot : Prop :=
  (∀ (w : SlotWrite) (mode : ShotMode) (plan : StrobePlan) (s : State), s.part.takes .setSync w →
    let p := s.part.entered .setSync
    let arg (k : Nat) : Nat := ((s.part.words w).getD k 0).toNat
    let limited (k lo hi : Nat) : Nat := max lo (min (arg k) hi)
    let x : SyncSettings :=
      ⟨limited 0 0 1000, limited 1 500 20000, limited 2 1 600, limited 3 0 100000, limited 4 100 10000, limited 5 10 1000,
        limited 6 0 10000, mode, arg 8, limited 9 1000 1800000000, if mode = .sync ∧ plan = .last then .first else plan,
        limited 11 0 1800000000⟩
    let words := [natWord x.debounce, natWord x.flush, natWord x.armWindow, natWord x.guard, natWord x.readTimeout, natWord x.pulse,
      natWord x.delay, natWord x.lineMode.code, natWord x.lineGain, natWord x.lineTime, natWord x.linePlan.code, natWord x.lineLead]
    let changed := ∃ i < 12, words.getD i 0 ≠ (s.part.words w).getD i 0
    arg 7 = mode.code → arg 8 ≤ 7 → arg 10 = plan.code →
    ∃ cls code, (changed → cls = .doneAdjusted ∧ code = .adjusted) ∧ (¬changed → cls = .done ∧ code = .ok) ∧
      exec (.setSync w) s = .next
        { s with
          part :=
            if p.esu.seq = .idle then
              Part.answered .setSync w cls code (words ++ [0]) { p with esu := { p.esu with active := x, staged := none } }
            else Part.answered .setSync w cls code (words ++ [1]) { p with esu := { p.esu with staged := some x } } }) ∧
  (∀ (w : SlotWrite) (s : State), s.part.takes .setSync w →
    let args := s.part.words w
    let bad (k : Word) : Prop :=
      exec (.setSync w) s = .next { s with part := (s.part.entered .setSync).answered .setSync w .refused .badArg [k] }
    (2 ≤ (args.getD 7 0).toNat → bad 7) ∧ ((args.getD 7 0).toNat < 2 → 7 < (args.getD 8 0).toNat → bad 8) ∧
      ((args.getD 7 0).toNat < 2 → (args.getD 8 0).toNat ≤ 7 → 3 ≤ (args.getD 10 0).toNat → bad 10)) ∧
  (∀ (w : SlotWrite) (s : State), s.part.takes .snapshot w →
    let p := s.part.entered .snapshot
    let pair (edges : List Edge) (i : Nat) : List Word :=
      match edges[edges.length - 4 + i]? with
      | some e => [e.time, if e.closing then 1 else 0]
      | none => [0, 0]
    let shows (number state elapsed : Word) (edges : List Edge) (overflow : Word) : Prop :=
      exec (.snapshot w) s = .next
        { s with
          part :=
            p.answered .snapshot w .done .ok
              ([p.clock.time, natWord p.esu.seq.code, number, state, elapsed, if p.esu.contact then 0 else 1] ++ pair edges 0
                ++ pair edges 1 ++ pair edges 2 ++ pair edges 3
                ++ [natWord edges.length, overflow, if p.esu.staged.isSome then 1 else 0]) }
    (p.esu.seq = .idle → shows 0 0 0 [] 0) ∧
    (∀ x, p.esu.seq ∈ [.shotFlush, .shotIntegrate, .shotRead] → p.currentShot = some x →
      let shot (elapsed : Word) : Prop := shows x.number (natWord x.state.code) elapsed x.exposure.edges x.exposure.edgeOverflow
      (p.esu.integLine = false → shot 0) ∧
      (∀ start, p.esu.integLine = true → p.esu.seq = .shotIntegrate → x.exposure.integStart = some start →
        shot (p.clock.time - start))) ∧
    (∀ c x, p.esu.seq ∈ [.darkFlush, .darkIntegrate, .darkRead] → p.dfl.capture = some c → p.shot? c.shot = some x →
      let dark (elapsed : Word) : Prop := shows x.number (natWord x.state.code) elapsed [] 0
      (p.esu.integLine = false → dark 0) ∧
      (∀ start, p.esu.integLine = true → p.esu.seq = .darkIntegrate → c.integStart = some start → dark (p.clock.time - start))))

/-! ## The dark policy -/

/-! ## The shot table's commands -/

/-- Tier 2. PROTECT (R72) and UNPROTECT (R73): the flag, the protected count and its limit of S − 2, and auto-release (R71). A
shot that an accepted RELEASE is about to remove is NOT_FOUND (R69's table; log entry 18). The result words of PROTECT of a
protected shot and UNPROTECT of an unprotected one are the model's reading (log entry 34). The numbering of argument words and
the order of result words are those of log entries 11 and 13. -/
def Obligations.ProtectAndUnprotect : Prop :=
  (∀ (w : SlotWrite) (s : State), s.part.takes .protect w →
    let p := s.part.entered .protect
    let n := (s.part.words w).getD 0 0
    let count := p.sht.protectedCount
    let limit := p.sht.slots.length - 2
    let leaving := ∃ e m, p.dfl.ending = some e ∧ e.after = .release m n
    (p.shot? n = none ∨ leaving → exec (.protect w) s = .next { s with part := p.answered .protect w .refused .notFound [] }) ∧
    (∀ x, p.shot? n = some x → ¬leaving →
      (x.prot = true → exec (.protect w) s = .next { s with part := p.answered .protect w .done .ok [natWord count] }) ∧
      (x.prot = false → limit < count + 1 →
        exec (.protect w) s = .next
          { s with part := p.answered .protect w .refused .protectLimit [natWord count, natWord limit] }) ∧
      (x.prot = false → count + 1 ≤ limit →
        exec (.protect w) s = .next
          { s with
            part :=
              Part.answered .protect w .done .ok [natWord (count + 1)]
                (Part.statusDirty
                  { p with
                    sht :=
                      { p.sht with
                        records := p.sht.records.map fun y => if y.number = n then { y with prot := true } else y
                        protectedCount := count + 1 } }) }))) ∧
  (∀ (w : SlotWrite) (s : State), s.part.takes .unprotect w →
    let p := s.part.entered .unprotect
    let n := (s.part.words w).getD 0 0
    let count := p.sht.protectedCount
    let cleared : Part :=
      Part.statusDirty
        { p with
          sht :=
            { p.sht with
              records := p.sht.records.map fun y => if y.number = n then { y with prot := false } else y
              protectedCount := count - 1 } }
    let leaving := ∃ e m, p.dfl.ending = some e ∧ e.after = .release m n
    (p.shot? n = none ∨ leaving → exec (.unprotect w) s = .next { s with part := p.answered .unprotect w .refused .notFound [] }) ∧
    (∀ x, p.shot? n = some x → ¬leaving →
      (x.prot = false → exec (.unprotect w) s = .next { s with part := p.answered .unprotect w .done .ok [natWord count, 0] }) ∧
      (x.prot = true → (x.state ≠ .stored ∨ x.arming.autoRelease = false ∨ ∃ r ∈ p.cde.requests, r.names n = true) →
        exec (.unprotect w) s = .next
          { s with part := cleared.answered .unprotect w .done .ok [natWord (count - 1), 0] }) ∧
      (x.prot = true → x.state = .stored → x.arming.autoRelease = true → (∀ r ∈ p.cde.requests, r.names n = false) →
        ∃ t, exec (.unprotect w) s = .next t ∧ t.mem = s.mem ∧ t.pending = s.pending ∧
          { t.part with cpa := p.cpa, sht := p.sht, prn := p.prn } = p ∧
          t.part.sht =
            { p.sht with
              records := p.sht.records.filter fun y => decide (y.number ≠ n)
              slots := p.sht.slots.set x.slot .free, protectedCount := count - 1 } ∧
          t.part.hasEnded w.slot .done .ok [natWord (count - 1), 1])))

/-- Tier 2. RELEASE (R69, R70): refused NOT_FOUND, PROTECTED, IN_QUEUE with the request's id, or BUSY with the state; a
DEVELOPED or STORED shot's record is removed and its slot FREE, the view of it cleared, and the result gives number, slot, state
and store count (events before the result: log entry 43). For a shot in AWAIT_DARK the capture is cancelled first (R123): its
slot becomes FREE and DARK_FAILED(CANCELLED) is emitted, then the shot's record and slot go; in READ the target is cleared too
(R143). With an ingest burst under way in READ the sequence stops, and the rest, the removal of the record among it, waits for
that burst's commit (R143); until then a second RELEASE of the shot is refused NOT_FOUND, and one of a shot whose capture ends
for another cause BUSY (log entry 18). The numbering of argument words and the order of result words are those of log entries 11
and 13. -/
def Obligations.ReleaseRemovesTheShot : Prop :=
  let viewCleared (n : Word) (p q : Part) : Prop :=
    (∀ v, p.prn.selection = some v → v.shot = n → q.prn.selection = none ∧ q.prn.cache = none) ∧
      ((∀ v, p.prn.selection = some v → v.shot ≠ n) → q.prn = p.prn)
  (∀ (w : SlotWrite) (s : State), s.part.takes .release w →
    let p := s.part.entered .release
    let n := (s.part.words w).getD 0 0
    let leaving := ∃ e m, p.dfl.ending = some e ∧ e.after = .release m n
    let stopped : Esu :=
      { p.esu with
        seq := .idle, integLine := false, strobe := none, flushTimer := none, armTimer := none, guardTimer := none, progTimer := none
        darkTimer := none }
    (p.shot? n = none ∨ leaving → exec (.release w) s = .next { s with part := p.answered .release w .refused .notFound [] }) ∧
    (∀ x, p.shot? n = some x → ¬leaving →
      (x.prot = true → exec (.release w) s = .next { s with part := p.answered .release w .refused .protected_ [] }) ∧
      (x.prot = false →
        (∀ r, p.requestFor n = some r →
          exec (.release w) s = .next { s with part := p.answered .release w .refused .inQueue [natWord r.id] }) ∧
        (p.requestFor n = none →
          (x.state ∈ [.arming, .armed, .exposing, .settling, .reading, .developing] ∨
              (x.state = .awaitDark ∧ (p.dfl.capture = none ∨ p.dfl.ending.isSome = true)) →
            exec (.release w) s = .next { s with part := p.answered .release w .refused .busy [natWord x.state.code] }) ∧
          (x.state = .developed ∨ x.state = .stored →
            ∃ t, exec (.release w) s = .next t ∧ t.mem = s.mem ∧ t.pending = s.pending ∧
              { t.part with cpa := p.cpa, sht := p.sht, prn := p.prn } = p ∧
              t.part.sht =
                { p.sht with
                  records := p.sht.records.filter fun y => decide (y.number ≠ n), slots := p.sht.slots.set x.slot .free } ∧
              viewCleared n p t.part ∧
              t.part.hasEnded w.slot .done .ok
                [x.number, natWord x.slot, natWord x.state.code, natWord x.progress.storeCount]) ∧
          (∀ c, x.state = .awaitDark → p.dfl.capture = some c → p.dfl.ending = none →
            x.progress.dark = some (.capture .capturing none) →
            (c.phase ≠ .read ∨ p.icr.work = none →
              ∃ t, exec (.release w) s = .next t ∧ t.mem = s.mem ∧ t.pending = s.pending ∧
                { t.part with cpa := p.cpa, sht := p.sht, prn := p.prn, esu := p.esu, dfl := p.dfl, icr := p.icr } = p ∧
                viewCleared n p t.part ∧ t.part.dfl = { p.dfl with capture := none, ending := none } ∧ t.part.esu = stopped ∧
                t.part.icr =
                  (if c.phase = .read then { p.icr with target := none, deadline := none, strayReported := false } else p.icr) ∧
                t.part.sht =
                  { p.sht with
                    records := p.sht.records.filter fun y => decide (y.number ≠ n)
                    slots := (p.sht.slots.set c.slot .free).set x.slot .free } ∧
                t.part.cpa =
                  (Part.answered .release w .done .ok [n, natWord x.slot, natWord x.state.code, natWord x.progress.storeCount]
                    (Part.emit .slotReleased n [natWord x.slot, 0]
                      (Part.statusDirty
                        (p.captureFailureReported c .cancelled)))).cpa) ∧
            (c.phase = .read → p.icr.work.isSome = true →
              exec (.release w) s = .next
                { s with
                  part :=
                    { p.taken .release w with
                      esu := stopped, dfl := { p.dfl with ending := some ⟨.cancelled, c.td, .release w.slot n, []⟩ } } })))))) ∧
  (∀ (s : State) (x : IngestWork) (g : Target) (c : Capture) (e : Ending) (n : Fin 8) (m : Word) (l : Latched) (z : Shot),
    s.part.icr.work = some x → x.stage = .written → s.part.icr.target = some g → g.kind = .dark → s.part.cpa.resetting = none →
    s.part.dfl.capture = some c → s.part.dfl.ending = some e → e.after = .release n m → e.arms = [] →
    s.part.cpa.slots[n].cmd = some l → l.ended = false → s.part.shot? m = some z → z.state = .awaitDark →
    z.progress.dark = some (.capture .capturing none) → z.prot = false → s.part.requestFor m = none →
    ∃ t, exec .ingestCommit s = .next t ∧ t.mem = s.mem ∧ t.pending = s.pending ∧
      { t.part with cpa := s.part.cpa, sht := s.part.sht, prn := s.part.prn, dfl := s.part.dfl, icr := s.part.icr, pts := s.part.pts } =
        s.part ∧
      viewCleared m s.part t.part ∧ t.part.icr.target = none ∧ t.part.icr.work = none ∧ t.part.dfl = { s.part.dfl with capture := none, ending := none } ∧
      t.part.sht =
        { s.part.sht with
          records := s.part.sht.records.filter fun y => decide (y.number ≠ m)
          slots := (s.part.sht.slots.set c.slot .free).set z.slot .free } ∧
      t.part.pts.answer = some ⟨true, []⟩ ∧
      t.part.hasEnded n .done .ok [m, natWord z.slot, natWord z.state.code, natWord z.progress.storeCount])

/-! ## The view -/

/-- Tier 2. VIEW_SELECT (R168, R169): number 0 clears the selection, with no result words (log entry 39); the checks in order;
an accepted one replaces the selection, empties the cache, keeps the rows of a burst under way from it (log entry 45 where shot
and parameters are the same) and gives the shot's state, the curve, the gains in force, the preview bytes and the row length.
The numbering of argument words and the order of result words are those of log entries 11 and 13. -/
def Obligations.ViewSelectReplacesTheSelection : Prop :=
  ∀ (w : SlotWrite) (s : State), s.part.takes .viewSelect w →
    let p := s.part.entered .viewSelect
    let args := s.part.words w
    let n := args.getD 0 0
    let arg (k : Nat) : Nat := (args.getD k 0).toNat
    let refused (code : ResultCode) (data : List Word) : Prop :=
      exec (.viewSelect w) s = .next { s with part := p.answered .viewSelect w .refused code data }
    let with_ (v : Option Selection) : Part :=
      { p with prn := ⟨v, none, p.prn.work.map fun x => { x with stale := true }⟩ }
    (n = 0 → exec (.viewSelect w) s = .next { s with part := Part.answered .viewSelect w .done .ok [] (with_ none) }) ∧
    (n ≠ 0 → p.shot? n = none → refused .notFound []) ∧
    (∀ x, n ≠ 0 → p.shot? n = some x →
      (x.state ∈ [.arming, .armed, .exposing, .settling] → refused .busy [natWord x.state.code]) ∧
      (x.state ∉ [.arming, .armed, .exposing, .settling] →
        (p.cal.tables.tone.length ≤ arg 1 → refused .badArg [1, natWord p.cal.tables.tone.length]) ∧
        (arg 1 < p.cal.tables.tone.length →
          (2 ≤ arg 2 → refused .badArg [2]) ∧
          (arg 2 = 0 → p.cal.tables.wb.length ≤ arg 3 → refused .badArg [3, natWord p.cal.tables.wb.length]) ∧
          (∀ g, arg 2 = 0 → p.cal.tables.wb[arg 3]? = some g →
            exec (.viewSelect w) s = .next
              { s with
                part :=
                  Part.answered .viewSelect w .done .ok
                    [n, natWord x.state.code, natWord (arg 1), natWord g.1, natWord g.2.1, natWord g.2.2,
                      natWord (p.geo.width / 8 * (p.geo.height / 8) * 3), natWord (p.geo.width / 8 * 3)]
                    (with_ (some ⟨n, arg 1, .preset (arg 3)⟩)) }) ∧
          (arg 2 = 1 →
            let gain (k : Nat) : Nat := max 2048 (min (arg k) 16383)
            let adjusted := gain 4 ≠ arg 4 ∨ gain 5 ≠ arg 5 ∨ gain 6 ≠ arg 6
            exec (.viewSelect w) s = .next
              { s with
                part :=
                  Part.answered .viewSelect w (if adjusted then .doneAdjusted else .done) (if adjusted then .adjusted else .ok)
                    [n, natWord x.state.code, natWord (arg 1), natWord (gain 4), natWord (gain 5), natWord (gain 6),
                      natWord (p.geo.width / 8 * (p.geo.height / 8) * 3), natWord (p.geo.width / 8 * 3)]
                    (with_ (some ⟨n, arg 1, .direct (gain 4) (gain 5) (gain 6)⟩)) }))))

/-- Tier 2. Reads of the VIEW window (R172 to R175, R177 to R180), one or several rows each: with no selection, or wholly beyond
the preview, OKAY and zero bytes at once; else, row by row in ascending order, the cached row is used if it is that row of that
shot, settled, and otherwise its rendering begins with the values of R174, while the burst stays at the head. A row rendered is
kept in the cache if R177 and R179 allow, and no VIEW_SELECT was taken during the burst (log entry 45); after the last row the
burst is answered OKAY with the bytes at its offsets, zero beyond the preview, and a PRN that RESET_SHOTS stops then stops. The
preview row (R174, R176): output pixel i's three bytes, from the sums of its block's R, Gr and Gb, and B samples, each the
slot's value or 0 at or beyond the mask: the average rounded, less the black but not below 0, times the gain in 4,096ths rounded
and limited to 65,535, then the curve's entry for its 64th, 1,023 at most. The arithmetic of the pass. Over an ascending list of
gaps the sweep moves from a position over exactly the gaps that begin at or before it (R155). A repaired value is the rounded
mean of two neighbours, the one, or the pedestal, and the beat written holds it in the pixel's two bytes and the other fourteen
as read (R154, R158, R159, R160). Each bin of the histogram rises by the number of pixels counted whose channel and value fall
in it (R162). The saturated count is the count of 65535 less the high clamps, and not below 0 (R163). -/
def Obligations.ViewReadsAndPixelArithmetic : Prop :=
  (let settled (x : Shot) : Bool := decide (x.state ∈ [ShotState.developed, .storing, .stored])
  let answer (p : Part) (rest : List Burst) (w : ViewWork) (prn : Prn) : Part :=
    let width := p.geo.width / 8 * 3
    let preview := p.geo.width / 8 * (p.geo.height / 8) * 3
    let bytes := slice (w.offset - w.offset / width * width) (min w.length (preview - w.offset)) (w.got.flatMap Prod.snd)
    { p with
      prn := prn
      pts := { p.pts with queue := rest, head := none, answer := some ⟨true, bytes ++ List.replicate (w.length - bytes.length) 0⟩ } }
  let inCache (p : Part) (shot : Word) (c : Option RowCache) (row : Nat) (bytes : List Byte) : Prop :=
    c = some ⟨row, shot, bytes⟩ ∧ ∃ x, p.shot? shot = some x ∧ settled x = true
  let begins (p : Part) (v : Selection) (old : Correction) (x : Shot) (row : Nat) (w : ViewWork) : Prop :=
    w.slot = x.slot ∧ w.gain = x.arming.gain ∧ w.correction = x.progress.correction.getD old ∧
    ∃ r, w.rendering = some r ∧ r.row = row ∧ r.slot = x.slot ∧ r.source = [] ∧ r.outdated = false ∧ r.settled = settled x ∧
      r.black = (if w.correction = .corrected then p.dfl.policy.pedestal else ((p.cal.tables.blackSat.getD []).getD w.gain (0, 0)).1) ∧
      (∀ i g, v.wb = .preset i → p.cal.tables.wb[i]? = some g → r.gains = g) ∧ (∀ a b c, v.wb = .direct a b c → r.gains = (a, b, c)) ∧
      (∀ c, p.cal.tables.tone[v.curve]? = some c → r.curve = c) ∧
      (∀ t, p.icr.target = some t → t.kind = .shot → t.number = v.shot → r.mask = some x.progress.cursor) ∧
      ((∀ t, p.icr.target = some t → t.kind = .dark ∨ t.number ≠ v.shot) → r.mask = none)
  (∀ (b : Burst) (rest : List Burst) (base : Nat) (s : State), s.part.pts.queue = b :: rest → s.part.pts.head = some (.viewRead base) →
    let p := s.part
    let off := b.addr - base
    let width := p.geo.width / 8 * 3
    let preview := p.geo.width / 8 * (p.geo.height / 8) * 3
    let first := off / width
    let last := (min (off + 16 * b.beats) preview - 1) / width
    (p.prn.selection = none ∨ preview ≤ off →
      exec .viewRead s = .next
        { s with
          part :=
            { p with pts := { p.pts with queue := rest, head := none, answer := some ⟨true, List.replicate (16 * b.beats) 0⟩ } } }) ∧
    (∀ v x, p.prn.selection = some v → off < preview → 1 ≤ b.beats → p.shot? v.shot = some x → p.cpa.resetting = none →
      let goesOn (row : Nat) (got : List (Nat × List Byte)) : Prop :=
        ∃ w, exec .viewRead s = .next
            { s with part := { p with pts := { p.pts with head := some .owned }, prn := { p.prn with work := some w } } } ∧
          w.offset = off ∧ w.length = 16 * b.beats ∧ w.selection = v ∧ w.got = got ∧ w.stale = false ∧
          w.rows = (List.range (last - row)).map (row + 1 + ·) ∧ begins p v .raw x row w
      ((∀ bytes, ¬inCache p v.shot p.prn.cache first bytes) → goesOn first []) ∧
      (∀ bytes, inCache p v.shot p.prn.cache first bytes →
        (last = first →
          exec .viewRead s = .next
            { s with
              part :=
                answer p rest ⟨off, 16 * b.beats, v, 0, 0, .raw, [], [(first, bytes)], none, false⟩ { p.prn with work := none } }) ∧
        (first < last → goesOn (first + 1) [(first, bytes)])))) ∧
  (∀ (b : Burst) (rest : List Burst) (y : ViewWork) (r : Rendering) (s : State), s.part.pts.queue = b :: rest →
    s.part.prn.work = some y → y.rendering = some r → 16 * s.part.geo.width ≤ r.source.length →
    let p := s.part
    let shot := y.selection.shot
    let bytes := previewRow p.geo r
    let got := y.got ++ [(r.row, bytes)]
    let kept :=
      r.settled = true ∧ r.outdated = false ∧ y.stale = false ∧ p.prn.selection = some y.selection ∧ p.cpa.resetting = none
    let cache := if kept then some ⟨r.row, shot, bytes⟩ else p.prn.cache
    let goesOn (x : Shot) (row : Nat) (rows : List Nat) (got : List (Nat × List Byte)) : Prop :=
      ∃ w, exec .rowRendered s = .next { s with part := { p with prn := { p.prn with cache := cache, work := some w } } } ∧
        w.offset = y.offset ∧ w.length = y.length ∧ w.selection = y.selection ∧ w.got = got ∧ w.stale = y.stale ∧ w.rows = rows ∧
        begins p y.selection y.correction x row w
    let ends (got : List (Nat × List Byte)) : Prop :=
      (p.cpa.resetting = none →
        exec .rowRendered s = .next
          { s with part := answer p rest { y with got := got } { p.prn with cache := cache, work := none } }) ∧
      (∀ k, p.cpa.resetting = some k → k.prn = false →
        exec .rowRendered s = .next
          { s with
            part :=
              { answer p rest { y with got := got } ⟨none, none, none⟩ with
                cpa := { p.cpa with resetting := some { k with prn := true } } } })
    (y.rows = [] → ends got) ∧
    (∀ x row tail, y.rows = row :: tail → p.shot? shot = some x →
      ((∀ c, ¬inCache p shot cache row c) → goesOn x row tail got) ∧
      (∀ c, inCache p shot cache row c → tail = [] → ends (got ++ [(row, c)]))))) ∧
  (∀ (g : Geometry) (r : Rendering) (i : Nat), i < g.width / 8 →
    let values := bytesHalves r.source
    let sample (k : Nat) : Nat :=
      let x := 8 * i + k % 8
      let y := 8 * r.row + k / 8
      match r.mask with
      | none => values.getD (k / 8 * g.width + x) 0
      | some c => if (y * g.width + x) * 2 < c then values.getD (k / 8 * g.width + x) 0 else 0
    let sum (channels : List Channel) : Nat :=
      (((List.range 64).filter fun k => decide (channelOf g.cfa (8 * i + k % 8) (8 * r.row + k / 8) ∈ channels)).map sample).sum
    let byte (channels : List Channel) (n gain : Nat) : Byte :=
      let a := (2 * sum channels + n) / (2 * n)
      let w := min 65535 (((a - r.black) * gain + 2048) / 4096)
      BitVec.ofNat 8 (r.curve.getD (min 1023 (w / 64)) 0)
    (previewRow g r).length = g.width / 8 * 3 ∧
      slice (3 * i) 3 (previewRow g r) = [byte [.r] 16 r.gains.1, byte [.gr, .gb] 32 r.gains.2.1, byte [.b] 16 r.gains.2.2]) ∧
  ((∀ (pos : Nat) (gaps : List (Nat × Nat)), (∀ g ∈ gaps, g.1 < g.2) → gaps.Pairwise (fun g h => g.2 ≤ h.1) →
    let q := skipGaps pos gaps
    pos ≤ q.1 ∧ (∀ g ∈ q.2, q.1 < g.1) ∧ (∀ o, pos ≤ o → o < q.1 → ∃ g ∈ gaps, g.1 ≤ o ∧ o < g.2) ∧
      ∃ past, gaps = past ++ q.2 ∧ ∀ g ∈ past, g.2 ≤ q.1) ∧
  (∀ (pedestal a b : Nat),
    repairValue pedestal [a, b] = (a + b + 1) / 2 ∧ repairValue pedestal [a] = a ∧ repairValue pedestal [] = pedestal) ∧
  (∀ (g : Geometry) (pedestal : Nat) (r : Repair) (beats : List (Nat × List Byte)) (own : List Byte),
    beats.find? (fun b => b.1 == beatOf g r.x r.y) = some (beatOf g r.x r.y, own) → own.length = 16 →
    let k := (r.y * g.width + r.x) * 2 % 16
    let value := repairValue pedestal (r.from_.map (pixelIn g beats))
    let new := r.newBeat g pedestal beats
    new.length = 16 ∧ slice k 2 new = leBytes 2 value ∧ ∀ i, i < 16 → i ≠ k → i ≠ k + 1 → new[i]? = own[i]?) ∧
  (∀ (g : Geometry) (beats : List (Nat × List Byte)) (x y : Nat) (bytes : List Byte),
    beats.find? (fun b => b.1 == beatOf g x y) = some (beatOf g x y, bytes) →
    pixelIn g beats (x, y) = leNat (slice ((y * g.width + x) * 2 % 16) 2 bytes)) ∧
  (∀ (g : Geometry) (i : Nat) (vs hist : List Nat) (k : Nat), k < hist.length →
    (countValues g i vs hist).getD k 0 =
      hist.getD k 0 +
        (List.range vs.length).countP fun j =>
          decide ((channelOf g.cfa ((i + j) % g.width) ((i + j) / g.width)).index * 16 + vs.getD j 0 / 4096 = k)) ∧
  (∀ full high : Nat, saturatedCount full high = (if full < high then 0 else full - high)))

/-! ## The card -/

/-- Tier 2. CARD_INIT (R184): refused BAD_ARG, NO_CARD, BUSY, or BUSY with the id of the ACTIVE request; accepted, it replaces
the policy, forgets the capacity, makes the card INITIALIZING with CARD_STATE (after the status write: log entry 43), clocks it
slowly and begins the reset step's wait of 1 ms. The numbering of argument words and the order of result words are those of log
entries 11 and 13. -/
def Obligations.CardInitBeginsTheBringUp : Prop :=
  ∀ (w : SlotWrite) (s : State), s.part.takes .cardInit w →
    let arg := (s.part.words w).getD 0 0
    let refused (code : ResultCode) (data : List Word) : Prop :=
      exec (.cardInit w) s = .next { s with part := s.part.answered .cardInit w .refused code data }
    (2 ≤ arg.toNat → refused .badArg []) ∧
    (∀ policy : CardPolicy, arg = natWord policy.code →
      (s.part.cde.card = .absent → refused .noCard []) ∧
      (s.part.cde.card = .initializing → refused .busy []) ∧
      (∀ r, s.part.cde.card = .ready → s.part.cde.activeRequest = some r → refused .busy [natWord r.id]) ∧
      (s.part.cde.card = .present ∨ s.part.cde.card = .fault ∨ (s.part.cde.card = .ready ∧ s.part.cde.activeRequest = none) →
        exec (.cardInit w) s = .next
          { s with
            part :=
              Part.emit .cardState 0 [2]
                (Part.statusDirty
                  { s.part.taken .cardInit w with
                    cde :=
                      { s.part.cde with
                        policy := policy, clock := .slow, card := .initializing, capacity := none
                        bringup := some ⟨w.slot, .reset, some ⟨s.part.clock.time, 1000⟩, none, none, 0, false⟩ } }) }))

/-- Tier 2. The bring-up (R185, R186, R188), no ABORT waiting, its exchanges as log entry 19 reads R185 and their 100 ms from
the sending step (log entry 20): after the reset wait each good response sends the next exchange's command, due within 100 ms;
the query is sent again every 10 ms until the card has powered up; the step 6 clock is the fast one; a response in error, none
in time, a failed echo, an unsupported range, no power-up within 1,000 ms, and a capacity of 0 make the card FAULT and end
CARD_INIT FAILED/NOT_READY with step and kind; the last good response makes it READY with the capacity, ends CARD_INIT DONE, and
a request may start (R192). A condition response with a failed echo is reported as ECHO whatever range it reports (log entry
51). A bring-up that an ABORT has marked (R187) ends with the exchange in progress, whatever its outcome, a response or none in
time, or with the reset step's wait: the card is PRESENT and CARD_INIT ends FAILED/ABORTED with the step reached; the policy and
the rate of CARD_CLK stay (log entry 46). That CARD_STATE's record becomes due before the result is log entry 43, and that the
power-up limit ends it at once log entry 40. The numbering of argument words and the order of result words are those of log
entries 11 and 13. -/
def Obligations.BringUpFollowsItsSteps : Prop :=
  (∀ (b : Bringup) (s : State), s.part.cde.bringup = some b → b.aborting = false →
    let now := s.part.clock.time
    let sent (c : CardReply) (step : BringStep) (clock : CardClock) (sectors : Nat) : Prop :=
      exec (.cardResponse c) s = .next
        { s with
          part :=
            { s.part with
              cde :=
                { s.part.cde with
                  clock := clock, bringup := some ⟨b.slot, step, none, some ⟨now, 100000⟩, none, sectors, false⟩ } } }
    let failed (o : Host.Outcome State Fault Refusal) (step kind : Word) : Prop :=
      ∃ t, o = .next t ∧ t.mem = s.mem ∧ t.pending = s.pending ∧ { t.part with cpa := s.part.cpa, cde := s.part.cde } = s.part ∧
        t.part.cde = { s.part.cde with card := .fault, capacity := none, bringup := none } ∧
        (∀ c, s.part.cpa.slots[b.slot].cmd = some c → c.ended = false → t.part.hasEnded b.slot .failed .notReady [step, kind])
    let query : Option Bringup :=
      some
        ⟨b.slot, .query, some ⟨now, 10000⟩, some ⟨now, 100000⟩,
          if b.powerUp.isSome then b.powerUp else some ⟨now, 1000000⟩, b.sectors, false⟩
    (∀ timer, b.step = .reset → b.wait = some timer → timer.due now = true →
      exec .cardResetWaitExpiry s = .next
        { s with
          part :=
            { s.part with
              cde :=
                { s.part.cde with
                  bringup := some ⟨b.slot, .condition, none, some ⟨timer.expiry, 100000⟩, none, b.sectors, false⟩ } } }) ∧
    (b.response.isSome = true →
      (∀ range powered n, b.step = .condition → failed (exec (.cardResponse (.good false range powered n)) s) 1 2) ∧
      (∀ powered n, b.step = .condition → failed (exec (.cardResponse (.good true false powered n)) s) 1 3) ∧
      (∀ powered n, b.step = .condition →
        exec (.cardResponse (.good true true powered n)) s = .next
          { s with part := { s.part with cde := { s.part.cde with bringup := query } } }) ∧
      (∀ echo range n, b.step = .query →
        exec (.cardResponse (.good echo range false n)) s = .next
          { s with part := { s.part with cde := { s.part.cde with bringup := some { b with response := none } } } }) ∧
      (∀ echo range n, b.step = .query → sent (.good echo range true n) .identity s.part.cde.clock b.sectors) ∧
      (∀ echo range powered n, b.step = .identity →
        sent (.good echo range powered n) .address s.part.cde.clock b.sectors) ∧
      (∀ echo range powered n, b.step = .address →
        sent (.good echo range powered n) .capacity s.part.cde.clock b.sectors) ∧
      (∀ echo range powered, b.step = .capacity → failed (exec (.cardResponse (.good echo range powered 0)) s) 3 5) ∧
      (∀ echo range powered n, b.step = .capacity → n ≠ 0 →
        sent (.good echo range powered n) .select s.part.cde.clock (min n 4294967296)) ∧
      (∀ echo range powered n, b.step = .select → sent (.good echo range powered n) .width s.part.cde.clock b.sectors) ∧
      (∀ echo range powered n, b.step = .width → sent (.good echo range powered n) .blockLength .fast b.sectors) ∧
      (b.step ≠ .reset → failed (exec (.cardResponse .bad) s) (natWord b.step.code) 1) ∧
      (∀ echo range powered n, b.step = .blockLength →
        exec (.cardResponse (.good echo range powered n)) s = .next
          { s with
            part :=
              Part.choose
                (Part.endCommand b.slot .done .ok
                  [natWord b.sectors, natWord (b.sectors / 4294967296), natWord s.part.cde.policy.code,
                    natWord s.part.cde.requests.length]
                  (Part.emit .cardState 0 [3]
                    (Part.statusDirty
                      { s.part with cde := { s.part.cde with card := .ready, capacity := some b.sectors, bringup := none } }))) } ∧
        ∃ t, exec (.cardResponse (.good echo range powered n)) s = .next t ∧ t.mem = s.mem ∧ t.pending = s.pending ∧
          t.part.cde.card = .ready ∧ t.part.cde.capacity = some b.sectors ∧ t.part.cde.bringup = none ∧
          (∀ c, s.part.cpa.slots[b.slot].cmd = some c → c.ended = false →
            t.part.hasEnded b.slot .done .ok
              [natWord b.sectors, natWord (b.sectors / 4294967296), natWord s.part.cde.policy.code,
                natWord s.part.cde.requests.length]))) ∧
    (∀ timer, b.response = some timer → timer.due now = true → failed (exec .cardResponseTimeout s) (natWord b.step.code) 0) ∧
    (∀ timer, b.step = .query → b.response = none → b.wait = some timer → timer.due now = true →
      exec .powerUpPollTimer s = .next { s with part := { s.part with cde := { s.part.cde with bringup := query } } }) ∧
    (∀ timer, b.step = .query → b.powerUp = some timer → timer.due now = true → failed (exec .powerUpTimeout s) 1 4)) ∧
  (∀ (b : Bringup) (s : State), s.part.cde.bringup = some b → b.aborting = true →
    let now := s.part.clock.time
    let aborted (i : Instr) : Prop :=
      exec i s = .next
        { s with
          part :=
            Part.endCommand b.slot .failed .aborted [natWord b.step.code]
              (Part.emit .cardState 0 [1]
                (Part.statusDirty
                  { s.part with cde := { s.part.cde with card := .present, capacity := none, bringup := none } })) }
    (b.response.isSome = true → ∀ c, aborted (.cardResponse c)) ∧
    (∀ timer, b.response = some timer → timer.due now = true → aborted .cardResponseTimeout) ∧
    (∀ timer, b.step = .reset → b.wait = some timer → timer.due now = true → aborted .cardResetWaitExpiry) ∧
    (∀ timer, b.step = .query → b.powerUp = some timer → timer.due now = true → aborted .powerUpTimeout))

/-- Tier 2. STORE's arguments and its extent list (R190): 1 to 32 extents and a list inside one present PASS window, else
BAD_ARG or BAD_BUFFER; the read of the list is queued; once it has returned, QUEUE_FULL, NOT_FOUND and ALREADY_QUEUED are
checked, and a list that passes the rest joins the queue with the id counter's value, which the result gives with the state and
the length, and which becomes the shot's pending store request id (status write before the result: log entry 43); then a request
may start (R192). An extent is 8 bytes of the list, start sector, then sector count (R215). A shot that an accepted RELEASE is
about to remove is NOT_FOUND (R69's table; log entry 18). Check 6 of R190: extents that are not empty, stay below sector
4,294,967,296, share no sector and sum to 8 + ceil(frame bytes / 512) + 1 pass it, and, with the card not READY or all of them
below the capacity, check 7; another sum ends BAD_EXTENTS with both, each in one word (log entry 47) after a zero for the index
(R215); the first extent that is empty, ends above sector 4,294,967,296 or shares a sector with an earlier one, the later of two
being the one that fails (log entry 37), BAD_EXTENTS with its index and zeros for the sums; with the card READY the first that
does not lie below the capacity OUT_OF_RANGE, with its index and the capacity in two words. The numbering of argument words and
the order of result words are those of log entries 11 and 13. -/
def Obligations.StoreChecksItsListAndJoinsTheQueue : Prop :=
  ((∀ (w : SlotWrite) (s : State), s.part.takes .store w →
    let p := s.part.entered .store
    let args := s.part.words w
    let addr := (args.getD 1 0).toNat + (args.getD 2 0).toNat % 16 * 4294967296
    let count := (args.getD 3 0).toNat
    let inPass := ∃ x ∈ p.pts.windows.toList, x.present = true ∧ x.kind = .pass ∧ x.base ≤ addr ∧ addr + 8 * count ≤ x.base + x.size
    (count = 0 ∨ 32 < count → exec (.store w) s = .next { s with part := p.answered .store w .refused .badArg [] }) ∧
    (1 ≤ count → count ≤ 32 →
      (addr % 16 ≠ 0 ∨ ¬inPass → exec (.store w) s = .next { s with part := p.answered .store w .refused .badBuffer [] }) ∧
      (addr % 16 = 0 → inPass →
        exec (.store w) s = .next
          { s with
            part :=
              { p.taken .store w with
                cde := { p.cde with listReads := p.cde.listReads ++ [⟨w.slot, args.getD 0 0, addr, count, []⟩] } } }))) ∧
  (∀ (l : ListRead) (rest : List ListRead) (s : State), s.part.cde.listReads = l :: rest →
    (8 * l.count + 15) / 16 * 16 ≤ l.got.length →
    s.part.cpa.resetting = none →
    let p : Part := { s.part with cde := { s.part.cde with listReads := rest } }
    let es := (List.range l.count).map fun i => (leNat (slice (8 * i) 4 l.got), leNat (slice (8 * i + 4) 4 l.got))
    let leaving := ∃ e m, p.dfl.ending = some e ∧ e.after = .release m l.shot
    let ends (code : ResultCode) (data : List Word) : Prop :=
      exec .extentListRead s = .next { s with part := p.endCommand l.slot .refused code data }
    (16 ≤ p.cde.requests.length → ends .queueFull []) ∧
    (p.cde.requests.length < 16 →
      (p.shot? l.shot = none ∨ leaving → ends .notFound []) ∧
      (∀ x, p.shot? l.shot = some x → ¬leaving →
        (∀ r, p.requestFor l.shot = some r → ends .alreadyQueued [natWord r.id]) ∧
        (p.requestFor l.shot = none →
          (∀ code data, p.extentsUnfit es = some (code, data) → ends code data) ∧
          (p.extentsUnfit es = none →
            (∃ next,
              exec .extentListRead s = .next
                { s with
                  part :=
                    Part.choose
                      (Part.endCommand l.slot .done .ok
                        [natWord p.cde.nextId,
                          natWord (if x.state ∈ [.developed, .storing, .stored] then RequestState.queued else .waiting).code,
                          natWord (p.cde.requests.length + 1)]
                        (Part.statusDirty
                          { p with
                            cde :=
                              { p.cde with
                                requests :=
                                  p.cde.requests
                                    ++ [⟨p.cde.nextId, p.cde.arrivals, .store l.shot es,
                                        if x.state ∈ [.developed, .storing, .stored] then .queued else .waiting, none, 4294967295#32,
                                        0, 0, 0, 0, none, false⟩]
                                nextId := next, arrivals := p.cde.arrivals + 1 }
                            sht :=
                              { p.sht with
                                records :=
                                  p.sht.records.map fun y =>
                                    if y.number = l.shot then
                                      { y with progress := { y.progress with pendingStore := some p.cde.nextId } }
                                    else y } })) } ∧
              1 ≤ next ∧ next ≤ 65535 ∧ next ≠ p.cde.nextId ∧ (∀ r ∈ p.cde.requests, r.id ≠ next)) ∧
            ∃ t r, exec .extentListRead s = .next t ∧ t.mem = s.mem ∧ t.pending = s.pending ∧ r ∈ t.part.cde.requests ∧
              r.id = p.cde.nextId ∧ r.work = .store l.shot es ∧ t.part.cde.requests.length = p.cde.requests.length + 1 ∧
              t.part.cde.listReads = rest ∧ t.part.cde.arrivals = p.cde.arrivals + 1 ∧
              (∀ c, s.part.cpa.slots[l.slot].cmd = some c → c.ended = false →
                t.part.hasEnded l.slot .done .ok
                  [natWord p.cde.nextId,
                    natWord (if x.state ∈ [.developed, .storing, .stored] then RequestState.queued else .waiting).code,
                    natWord (p.cde.requests.length + 1)]))))))) ∧
  ((∀ (es : List (Nat × Nat)) (i : Nat) (e : Nat × Nat) (p : Part), es[i]? = some e →
    let shares (a b : Nat × Nat) : Prop := a.1 < b.1 + b.2 ∧ b.1 < a.1 + a.2
    let fits (j : Nat) (a : Nat × Nat) : Prop :=
      0 < a.2 ∧ a.1 + a.2 ≤ 4294967296 ∧ ∀ k b, k < j → es[k]? = some b → ¬shares a b
    (∀ j a, j < i → es[j]? = some a → fits j a) → ¬fits i e → p.extentsUnfit es = some (.badExtents, [natWord i, 0, 0])) ∧
  (∀ (es : List (Nat × Nat)) (i : Nat) (e : Nat × Nat) (p : Part), es[i]? = some e →
    (∀ a ∈ es, 0 < a.2 ∧ a.1 + a.2 ≤ 4294967296) → es.Pairwise (fun a b => a.1 + a.2 ≤ b.1 ∨ b.1 + b.2 ≤ a.1) →
    (es.map Prod.snd).sum = 8 + (p.geo.width * p.geo.height * 2 + 511) / 512 + 1 → p.cde.card = .ready →
    let capacity := p.cde.capacity.getD 0
    capacity < e.1 + e.2 → (∀ j a, j < i → es[j]? = some a → a.1 + a.2 ≤ capacity) →
    p.extentsUnfit es = some (.outOfRange, [natWord i, natWord capacity, natWord (capacity / 4294967296)])) ∧
  ∀ (es : List (Nat × Nat)) (p : Part),
    let needed := 8 + (p.geo.width * p.geo.height * 2 + 511) / 512 + 1
    let sum := (es.map Prod.snd).sum
    (∀ e ∈ es, 0 < e.2 ∧ e.1 + e.2 ≤ 4294967296) → es.Pairwise (fun a b => a.1 + a.2 ≤ b.1 ∨ b.1 + b.2 ≤ a.1) →
    (sum ≠ needed → p.extentsUnfit es = some (.badExtents, [0, natWord sum, natWord needed])) ∧
    (sum = needed → (p.cde.card = .ready → ∀ e ∈ es, e.1 + e.2 ≤ p.cde.capacity.getD 0) → p.extentsUnfit es = none))

/-- Tier 2. CARD_WRITE and CARD_READ (R191): BAD_ARG, BAD_BUFFER, QUEUE_FULL and OUT_OF_RANGE in that order; accepted, the
request joins the queue, QUEUED, with the id counter's value and the arrival count, both of which advance, and the result gives
the id and the length (status write first: log entry 43); then a request may start (R192). The id counter goes on by one where
no request holds that id, from 65,535 on to 1 (R189). Which request starts (R192, R193): none while the card is not READY, a
request is HALTED or one ACTIVE, or none is QUEUED; else the QUEUED one of the earliest arrival in the preferred class, TRANSFER
under FIXED and, under ROTATING, the class other than that of the last request completed, and of the other class if the
preferred one has none. Its activation (R194): with a sector at or beyond the capacity it halts OUT_OF_RANGE (R201) and its shot
stays as it is, but that one in STORING returns to DEVELOPED; else it is ACTIVE and its first run not yet confirmed begins; a
STORE's shot enters STORING, and at the first activation its sectors stored are 0, the header image is built with the record as
it then stands (R195) and the CRC register is all ones. The numbering of argument words and the order of result words are those
of log entries 11 and 13. -/
def Obligations.TransfersJoinTheQueue : Prop :=
  (∀ (w : SlotWrite) (s : State) (v : Verb) (i : Instr) (work : Nat → Nat → Nat → Work),
    (v = .cardWrite ∧ i = .cardWrite w ∧ work = Work.write) ∨ (v = .cardRead ∧ i = .cardRead w ∧ work = Work.read) →
    s.part.takes v w →
    let args := s.part.words w
    let start := (args.getD 0 0).toNat
    let count := (args.getD 1 0).toNat
    let buffer := (args.getD 2 0).toNat + (args.getD 3 0).toNat % 16 * 4294967296
    let inPass :=
      ∃ x ∈ s.part.pts.windows.toList, x.present = true ∧ x.kind = .pass ∧ x.base ≤ buffer ∧ buffer + count * 512 ≤ x.base + x.size
    let refused (code : ResultCode) (data : List Word) : Prop :=
      exec i s = .next { s with part := s.part.answered v w .refused code data }
    let capacity := s.part.cde.capacity.getD 0
    (count = 0 ∨ 65536 < count ∨ 4294967296 < start + count → refused .badArg []) ∧
    (1 ≤ count → count ≤ 65536 → start + count ≤ 4294967296 →
      (buffer % 16 ≠ 0 ∨ ¬inPass → refused .badBuffer []) ∧
      (buffer % 16 = 0 → inPass →
        (16 ≤ s.part.cde.requests.length → refused .queueFull []) ∧
        (s.part.cde.requests.length < 16 →
          (s.part.cde.card = .ready → capacity < start + count →
            refused .outOfRange [natWord capacity, natWord (capacity / 4294967296)]) ∧
          (s.part.cde.card ≠ .ready ∨ start + count ≤ capacity →
            let id := s.part.cde.nextId
            (∃ next,
              exec i s = .next
                { s with
                  part :=
                    Part.choose
                      (Part.answered v w .done .ok [natWord id, natWord (s.part.cde.requests.length + 1)]
                        (Part.statusDirty
                          { s.part with
                            cde :=
                              { s.part.cde with
                                requests :=
                                  s.part.cde.requests
                                    ++ [⟨id, s.part.cde.arrivals, work start count buffer, .queued, none, 4294967295#32, 0, 0, 0, 0, none,
                                        false⟩]
                                nextId := next, arrivals := s.part.cde.arrivals + 1 } })) } ∧
              1 ≤ next ∧ next ≤ 65535 ∧ next ≠ id ∧ (∀ r ∈ s.part.cde.requests, r.id ≠ next) ∧
              (1 ≤ id → id < 65535 → (∀ r ∈ s.part.cde.requests, r.id ≠ id + 1) → next = id + 1) ∧
              (id = 65535 → (∀ r ∈ s.part.cde.requests, r.id ≠ 1) → next = 1)) ∧
            ∃ t r, exec i s = .next t ∧ t.mem = s.mem ∧ t.pending = s.pending ∧ r ∈ t.part.cde.requests ∧
              r.id = s.part.cde.nextId ∧ r.arrival = s.part.cde.arrivals ∧ r.work = work start count buffer ∧
              t.part.cde.requests.length = s.part.cde.requests.length + 1 ∧ t.part.cde.arrivals = s.part.cde.arrivals + 1 ∧
              t.part.hasEnded w.slot .done .ok [natWord s.part.cde.nextId, natWord (s.part.cde.requests.length + 1)] ∧
              (s.part.cde.card ≠ .ready →
                { t.part with cpa := s.part.cpa, cde := s.part.cde } = s.part ∧ r.state = .queued)))))) ∧
  ((∀ p : Part,
    let requests := p.cde.requests
    (p.cde.card ≠ .ready ∨ (∃ r ∈ requests, r.state = .halted ∨ r.state = .active) ∨ (∀ r ∈ requests, r.state ≠ .queued) →
      p.choose = p) ∧
    (∀ r, p.cardQueueInOrder → p.cde.card = .ready → p.cpa.resetting = none →
      (∀ x ∈ requests, x.state ≠ .halted ∧ x.state ≠ .active) → r ∈ requests → r.state = .queued →
      let transfer (x : Request) : Bool :=
        match x.work with
        | .store _ _ => false
        | _ => true
      let preferred (x : Request) : Prop :=
        match p.cde.policy with
        | .fixed => transfer x = true
        | .rotating => if p.cde.lastClass = .shot then transfer x = true else transfer x = false
      (∀ x ∈ requests, x.state = .queued → transfer x = transfer r → r.arrival ≤ x.arrival) →
      (preferred r ∨ ∀ x ∈ requests, x.state = .queued → ¬preferred x) → p.choose = p.activate r.id)) ∧
  (∀ (r : Request) (p : Part), (p.cde.requests.filter fun x => decide (x.id = r.id)) = [r] →
    let capacity := p.cde.capacity.getD 0
    let frame := p.geo.width * p.geo.height * 2
    let with_ (f : Request → Request) (run : Option Run) : Cde :=
      { p.cde with requests := p.cde.requests.map (fun x => if x.id = r.id then f x else x), run := run }
    let starts (run : Run) : Prop :=
      run.first = r.position.1 ∧ run.count = min 64 r.position.2 ∧ run.got = [] ∧
      (∀ a n buffer, r.work = .write a n buffer →
        run.source = buffer + r.done * 512 ∧ run.sourceEnd = buffer + (r.done + run.count) * 512) ∧
      (∀ a n buffer, r.work = .read a n buffer → run.sourceEnd ≤ run.source) ∧
      (∀ n es y, r.work = .store n es → p.shot? n = some y →
        run.source = p.sht.slotAddr y.slot + min ((r.done - 8) * 512) frame ∧
          run.sourceEnd = p.sht.slotAddr y.slot + min ((r.done + run.count - 8) * 512) frame) ∧
      (run.source < run.sourceEnd → run.phase = .assemble ∧ run.timer = none ∧ run.data = []) ∧
      (run.sourceEnd ≤ run.source → run.phase = .startCommand ∧ run.timer = some ⟨p.clock.time, 100000⟩)
    ((∃ e ∈ r.work.extents, capacity < e.1 + e.2) →
      let halted := with_ (fun x => { x with state := .halted, cause := some .outOfRange }) none
      (r.work.isStore = false →
        p.activate r.id = Part.emit .cardHalted 0 [natWord r.id, 6] (Part.statusDirty { p with cde := halted })) ∧
      (∀ n es, r.work = .store n es →
        p.activate r.id =
          Part.emit .cardHalted n [natWord r.id, 6]
            (Part.statusDirty
              { p with
                cde := halted
                sht :=
                  { p.sht with
                    records :=
                      p.sht.records.map fun y =>
                        if y.number = n then (if y.state = .storing then { y with state := .developed } else y) else y } }))) ∧
    ((∀ e ∈ r.work.extents, e.1 + e.2 ≤ capacity) →
      (r.work.isStore = false →
        ∃ run, starts run ∧ run.crc = r.crc ∧
          p.activate r.id = { p with cde := with_ (fun x => { x with state := .active }) (some run) }) ∧
      (∀ n es y, r.work = .store n es → p.shot? n = some y →
        let stored (first : Bool) (z : Shot) : Shot :=
          { z with
            state := .storing
            progress := { z.progress with sectorsStored := if first then 0 else z.progress.sectorsStored } }
        let sht (first : Bool) : Sht :=
          { p.sht with records := p.sht.records.map fun z => if z.number = n then stored first z else z }
        (r.header = none →
          ∃ run, starts run ∧ (run.source < run.sourceEnd → run.crc = 4294967295#32) ∧
            p.activate r.id =
              { p with
                sht := sht true
                cde :=
                  with_
                    (fun x =>
                      { x with
                        state := .active, crc := 4294967295#32
                        header := some (headerImage p.geo (stored true y) r.id p.clock.time) })
                    (some run) }) ∧
        (r.header.isSome = true →
          ∃ run, starts run ∧ (run.source < run.sourceEnd → run.crc = r.crc) ∧
            p.activate r.id = { p with sht := sht false, cde := with_ (fun x => { x with state := .active }) (some run) })))))

/-- Tier 2. CARD_CANCEL (R203): NOT_FOUND for an id no request holds; an ACTIVE request is marked and ends after its run; a
QUEUED, WAITING or HALTED one is removed, a transfer with CARD_REQUEST_DONE, CANCELLED, and then a request may start (R192).
CARD_RESUME (R202): refused NOT_FOUND, NO_CARD, BUSY or NOT_READY; accepted, the request leaves HALTED with no retry counted and
is activated (R194), so that it is ACTIVE, or HALTED again by the range check; the halted id's status write becomes due and the
command ends DONE (events and status write before results: log entry 43). The numbering of argument words and the order of
result words are those of log entries 11 and 13. -/
def Obligations.CancelAndResume : Prop :=
  (∀ (w : SlotWrite) (s : State), s.part.takes .cardCancel w →
    let id := ((s.part.words w).getD 0 0).toNat
    let found := s.part.cde.requests.find? fun r => decide (r.id = id)
    (found = none → exec (.cardCancel w) s = .next { s with part := s.part.answered .cardCancel w .refused .notFound [] }) ∧
    (∀ r, found = some r →
      (r.state = .active →
        exec (.cardCancel w) s = .next
          { s with
            part :=
              Part.answered .cardCancel w .done .ok [1]
                { s.part with
                  cde :=
                    { s.part.cde with
                      requests := s.part.cde.requests.map fun x => if x.id = r.id then { x with cancel := true } else x } } }) ∧
      (r.state ≠ .active → r.work.isStore = false →
        exec (.cardCancel w) s = .next
          { s with
            part :=
              Part.choose
                (Part.answered .cardCancel w .done .ok [0]
                  (Part.emit .cardRequestDone 0 [natWord r.id, 1, natWord (if r.state = .halted then r.done else 0)]
                    (Part.statusDirty
                      { s.part with
                        cde := { s.part.cde with requests := s.part.cde.requests.filter fun x => decide (x.id ≠ r.id) } }))) }) ∧
      (r.state ≠ .active →
        ∃ t, exec (.cardCancel w) s = .next t ∧ t.mem = s.mem ∧ t.pending = s.pending ∧
          (∀ x ∈ t.part.cde.requests, x.id ≠ id) ∧
          t.part.cde.requests.map (·.id) = (s.part.cde.requests.map (·.id)).filter (fun k => decide (k ≠ id)) ∧
          t.part.hasEnded w.slot .done .ok [0]))) ∧
  (∀ (w : SlotWrite) (s : State), s.part.takes .cardResume w →
    let refused (code : ResultCode) (data : List Word) : Prop :=
      exec (.cardResume w) s = .next { s with part := s.part.answered .cardResume w .refused code data }
    (s.part.cde.halted = none → refused .notFound []) ∧
    (∀ r, s.part.cde.halted = some r →
      (s.part.cde.card = .absent → refused .noCard []) ∧
      (s.part.cde.card = .initializing → refused .busy []) ∧
      (s.part.cde.card = .present → refused .notReady [1]) ∧
      (s.part.cde.card = .fault → refused .notReady [4]) ∧
      (s.part.cde.card = .ready →
        exec (.cardResume w) s = .next
          { s with
            part :=
              Part.answered .cardResume w .done .ok [natWord r.id, natWord r.done]
                (Part.statusDirty
                  (Part.activate r.id
                    { s.part with
                      cde :=
                        { s.part.cde with
                          requests :=
                            s.part.cde.requests.map fun x => if x.id = r.id then { x with retries := 0 } else x } })) }) ∧
      (s.part.cde.card = .ready → (s.part.cde.requests.filter fun x => decide (x.id = r.id)) = [r] →
        ∃ t x, exec (.cardResume w) s = .next t ∧ t.mem = s.mem ∧ t.pending = s.pending ∧
          t.part.cde.requests.find? (fun y => decide (y.id = r.id)) = some x ∧ x.retries = 0 ∧ x.done = r.done ∧
          ((∀ e ∈ r.work.extents, e.1 + e.2 ≤ s.part.cde.capacity.getD 0) → x.state = .active) ∧
          (¬(∀ e ∈ r.work.extents, e.1 + e.2 ≤ s.part.cde.capacity.getD 0) → x.state = .halted ∧ x.cause = some .outOfRange) ∧
          t.part.hasEnded w.slot .done .ok [natWord r.id, natWord r.done])))

/-- Tier 2. The exchange of a run (R188, R196, R199, R200), its 100 ms from the sending step (log entry 20): a good start
response leads to the first block; an accepted block to its busy; its end to the next block or the stop command; a read block
that passes its CRC to the next or the stop command, its bytes to be written at the buffer's address of that block, cut at
pages; any failure outcome to the cleanup's stop command with that cause; after it, whether a response comes, good or bad, or
none, and after its busy the attempt has failed, and is retried whole up to three times, or the request halts with the cause,
its STORE's shot DEVELOPED again, with CARD_HALTED (R201). A run is confirmed (R197, R198) by the end of the busy after the stop
command, and a READ run by the good stop response or the last write of its blocks, whichever is later: the progress moves on by
the run, and the next begins, its memory range that of its sectors; or, at its end, the request leaves the queue DONE, with a
STORE's shot STORED, or auto-released (R71), its class becomes that of the last request completed, and the next one may start
(R192, R193); a request marked for cancellation leaves it CANCELLED after a confirmed run or a failed attempt, its shot
DEVELOPED (R203). Bursts are the longest allowed (log entry 44). The CDE writes a READ run's blocks before it reads a source
(log entry 21). -/
def Obligations.RunsFollowTheCardExchange : Prop :=
  ∀ (run : Run) (r : Request) (s : State), s.part.cde.run = some run → s.part.cde.activeRequest = some r →
    s.part.cde.bringup = none →
    let now := s.part.clock.time
    let cde := s.part.cde
    let frame := s.part.geo.width * s.part.geo.height * 2
    let goes (i : Instr) (ph : RunPhase) (timer : Option Timer) : Prop :=
      exec i s = .next { s with part := { s.part with cde := { cde with run := some { run with phase := ph, timer := timer } } } }
    let reads := ∃ a n buffer, r.work = .read a n buffer
    let starts (x : Request) (again : Run) : Prop :=
      again.first = x.position.1 ∧ again.count = min 64 x.position.2 ∧ again.got = [] ∧
      (∀ a n buffer, x.work = .write a n buffer →
        again.source = buffer + x.done * 512 ∧ again.sourceEnd = buffer + (x.done + again.count) * 512) ∧
      (∀ n es y, x.work = .store n es → s.part.shot? n = some y →
        again.source = s.part.sht.slotAddr y.slot + min ((x.done - 8) * 512) frame ∧
          again.sourceEnd = s.part.sht.slotAddr y.slot + min ((x.done + again.count - 8) * 512) frame) ∧
      (again.source < again.sourceEnd → again.phase = .assemble) ∧
      (again.sourceEnd ≤ again.source → again.phase = .startCommand ∧ again.timer = some ⟨now, 100000⟩)
    let leaves (i : Instr) (mem : Memory) (base : Part) (cancelled : Bool) (done : Nat) : Prop :=
      ∃ t, exec i s = .next t ∧ t.mem = mem ∧ t.pending = s.pending ∧
        t.part.cde.lastClass = (if cancelled then cde.lastClass else if r.work.isStore then .shot else .transfer) ∧
        (r.work.isStore = false →
          t.part =
            Part.choose
              (Part.emit .cardRequestDone 0 [natWord r.id, flagWord cancelled, natWord done]
                (Part.statusDirty
                  { base with
                    cde :=
                      { base.cde with
                        requests := cde.requests.filter fun x => decide (x.id ≠ r.id)
                        run := none, lastClass := if cancelled then cde.lastClass else .transfer } }))) ∧
        t.part.cde.requests.map (·.id) = (cde.requests.map (·.id)).filter (fun k => decide (k ≠ r.id)) ∧
        (s.part.cpa.mask.getLsbD 12 = true → (s.part.cpa.producer - s.part.cpa.consumer).toNat ≠ 64 →
          let e : Event := ⟨.cardRequestDone, r.shot, now, [natWord r.id, flagWord cancelled, natWord done]⟩
          CpaWrite.eventRecord s.part.cpa.producer e ∈ t.part.cpa.writes ∨ (s.part.cpa.producer, e) ∈ t.part.cpa.events) ∧
        (∀ n es x, r.work = .store n es → s.part.shot? n = some x → (∀ q ∈ cde.requests, q.names n = true → q.id = r.id) →
          (cancelled = true → x.state = .storing →
            ∃ y, t.part.shot? n = some y ∧ y.state = .developed ∧ y.progress.storeCount = x.progress.storeCount ∧
              y.progress.pendingStore = none) ∧
          (cancelled = false → x.arming.autoRelease = false ∨ x.prot = true →
            ∃ y, t.part.shot? n = some y ∧ y.state = .stored ∧ y.progress.storeCount = x.progress.storeCount + 1 ∧
              y.progress.sectorsStored = done ∧ y.progress.pendingStore = none) ∧
          (cancelled = false → x.arming.autoRelease = true → x.prot = false →
            t.part.shot? n = none ∧ t.part.sht.slots = s.part.sht.slots.set x.slot .free))
    let alone := (cde.requests.filter fun x => decide (x.id = r.id)) = [r]
    let confirms (i : Instr) (mem : Memory) (base : Part) : Prop :=
      ∀ e, s.part.cpa.resetting = none → r.work.extents[r.extent]? = some e → alone →
        let past := e.2 ≤ r.sector + run.count
        let x : Request :=
          { r with
            done := r.done + run.count, extent := if past then r.extent + 1 else r.extent
            sector := if past then 0 else r.sector + run.count, crc := if r.work.isStore then run.crc else r.crc, retries := 0 }
        (¬past ∨ r.extent + 1 < r.work.extents.length →
          (r.cancel = false →
            ∃ t again, exec i s = .next t ∧ t.mem = mem ∧ t.pending = s.pending ∧
              t.part.cde.requests.find? (fun y => decide (y.id = r.id)) = some x ∧ t.part.cde.run = some again ∧ starts x again) ∧
          (r.cancel = true → leaves i mem base true x.done)) ∧
        (past → r.work.extents.length ≤ r.extent + 1 → leaves i mem base false x.done)
    (run.phase = .startCommand →
      (∀ echo range powered n,
        (reads → goes (.cardResponse (.good echo range powered n)) (.readBlock 0) (some ⟨now, 100000⟩)) ∧
        (¬reads → goes (.cardResponse (.good echo range powered n)) (.blockStatus 0) (some ⟨now, 100000⟩))) ∧
      goes (.cardResponse .bad) (.cleanupCommand .responseError) (some ⟨now, 100000⟩)) ∧
    (∀ k, run.phase = .blockStatus k →
      goes (.cardDataStatus .accepted) (.blockBusy k) (some ⟨now, 500000⟩) ∧
      goes (.cardDataStatus .crcError) (.cleanupCommand .dataCrc) (some ⟨now, 100000⟩) ∧
      goes (.cardDataStatus .writeError) (.cleanupCommand .writeError) (some ⟨now, 100000⟩)) ∧
    (∀ k, run.phase = .blockBusy k →
      (k + 1 < run.count → goes .cardBusyEnd (.blockStatus (k + 1)) (some ⟨now, 100000⟩)) ∧
      (run.count ≤ k + 1 → goes .cardBusyEnd .stopCommand (some ⟨now, 100000⟩))) ∧
    (∀ k data, run.phase = .readBlock k →
      goes (.cardReadBlock false data) (.cleanupCommand .dataCrc) (some ⟨now, 100000⟩) ∧
      (∀ a n buffer, r.work = .read a n buffer →
        exec (.cardReadBlock true data) s = .next
          { s with
            part :=
              { s.part with
                cde :=
                  { cde with
                    bufWrites := cde.bufWrites ++ cutBursts 4 (buffer + (r.done + k) * 512) data
                    run :=
                      some
                        { run with
                          phase := if k + 1 < run.count then .readBlock (k + 1) else .stopCommand
                          timer := some ⟨now, 100000⟩ } } } })) ∧
    (∀ timer, run.timer = some timer → timer.due now = true →
      ((run.phase = .startCommand ∨ run.phase = .stopCommand ∨ ∃ k, run.phase = .blockStatus k) →
        goes .cardResponseTimeout (.cleanupCommand .responseTimeout) (some ⟨now, 100000⟩)) ∧
      ((run.phase = .stopBusy ∨ ∃ k, run.phase = .blockBusy k) →
        goes .cardBusyTimeout (.cleanupCommand .busyTimeout) (some ⟨now, 100000⟩)) ∧
      (∀ k, run.phase = .readBlock k → goes .cardDataTimeout (.cleanupCommand .dataTimeout) (some ⟨now, 100000⟩)) ∧
      (∀ cause, run.phase = .cleanupCommand cause → goes .cardResponseTimeout (.cleanupBusy cause) (some ⟨now, 500000⟩)) ∧
      (∀ cause, run.phase = .cleanupBusy cause → goes .cardBusyTimeout (.failed cause) none)) ∧
    (∀ cause response, run.phase = .cleanupCommand cause → goes (.cardResponse response) (.cleanupBusy cause) (some ⟨now, 500000⟩)) ∧
    (∀ cause, run.phase = .cleanupBusy cause → goes .cardBusyEnd (.failed cause) none) ∧
    (run.phase = .stopCommand →
      (∀ echo range powered n,
        let good : Instr := .cardResponse (.good echo range powered n)
        (¬reads → goes good .stopBusy (some ⟨now, 500000⟩)) ∧ (reads → cde.bufWrites ≠ [] → goes good .storing none) ∧
        (reads → cde.bufWrites = [] → confirms good s.mem s.part)) ∧
      goes (.cardResponse .bad) (.cleanupCommand .responseError) (some ⟨now, 100000⟩)) ∧
    (run.phase = .stopBusy → confirms .cardBusyEnd s.mem s.part) ∧
    (∀ cause, run.phase = .failed cause → s.part.cpa.resetting = none → alone →
      (r.cancel = false → r.retries < 3 →
        ∃ t x again, exec .runAttemptFailed s = .next t ∧ t.mem = s.mem ∧ t.pending = s.pending ∧
          { t.part with cde := s.part.cde } = s.part ∧
          t.part.cde.requests.find? (fun y => decide (y.id = r.id)) = some x ∧ x = { r with retries := r.retries + 1 } ∧
          t.part.cde.run = some again ∧ starts x again) ∧
      (r.cancel = false → 3 ≤ r.retries →
        ∃ t x, exec .runAttemptFailed s = .next t ∧ t.mem = s.mem ∧ t.pending = s.pending ∧ t.part.cde.run = none ∧
          t.part.cde.requests.find? (fun y => decide (y.id = r.id)) = some x ∧
          x = { r with state := .halted, cause := some cause } ∧
          t.part.cpa = (Part.emit .cardHalted r.shot [natWord r.id, natWord cause.code] s.part.statusDirty).cpa ∧
          { t.part with cpa := s.part.cpa, cde := s.part.cde, sht := s.part.sht } = s.part ∧
          (∀ n es y, r.work = .store n es → s.part.shot? n = some y →
            t.part.shot? n = some (if y.state = .storing then { y with state := .developed } else y)) ∧
          (r.work.isStore = false → t.part.sht = s.part.sht)) ∧
      (r.cancel = true → leaves .runAttemptFailed s.mem s.part true r.done)) ∧
    (∀ b, s.part.port.busy = some b → b.who = .internal .cde →
      let p : Part := { s.part with port := { s.part.port with busy := none } }
      let mem := s.mem.writeBytes b.addr b.data
      let written : Part := { p with cde := { cde with bufWrites := cde.bufWrites.tail } }
      (b.write = true →
        (run.phase = .storing → cde.bufWrites.length = 1 → confirms .frameBurstEnd mem written) ∧
        (run.phase ≠ .storing ∨ 2 ≤ cde.bufWrites.length → exec .frameBurstEnd s = .next ⟨s.pending, mem, written⟩)) ∧
      (b.write = false → b.list = false → run.phase = .assemble → run.source = b.addr →
        let got := run.got ++ s.mem.readBytes b.addr b.length
        let goesOn (x : Run) : Prop := exec .frameBurstEnd s = .next ⟨s.pending, s.mem, { p with cde := { cde with run := some x } }⟩
        let read : Run := { run with source := run.source + b.length, got := got }
        (read.source < run.sourceEnd → goesOn read) ∧
        (run.sourceEnd ≤ read.source →
          let sent : Run := { read with phase := .startCommand, timer := some ⟨now, 100000⟩ }
          (∀ a n buffer, r.work = .write a n buffer → goesOn { sent with data := got }) ∧
          (∀ n es, r.work = .store n es →
            let body := slice (r.done * 512) (run.count * 512) (r.header.getD []) ++ got
            let crc := crcBytes r.crc body
            let last := 8 + (frame + 511) / 512 + 1 ≤ r.done + run.count
            let room := run.count * 512 - (if last then 512 else 0)
            goesOn
              { sent with
                data := body ++ List.replicate (room - body.length) 0 ++ (if last then fileTrailer crc s.part.geo n else [])
                crc := crc })))) ∧
    (cde.openList = none →
      (∀ addr bytes rest, cde.bufWrites = (addr, bytes) :: rest →
        s.part.requestOf .cde = some ⟨true, addr, bytes.length, bytes⟩) ∧
      (cde.bufWrites = [] → run.phase = .assemble → run.source < run.sourceEnd →
        s.part.requestOf .cde =
          some ⟨false, run.source, min (run.sourceEnd - run.source) (min 256 (4096 - run.source % 4096)), []⟩))

/-! ## Input lines and the exposure -/

/-- Tier 2. The debounce of each input line (R81, R86, R182, R212), once RESET_IN has been released: a raw level that first
differs from the debounced one starts the debounce, SYNC_IN's for the active setting (with one of 0 the edge is accepted at
once), ARM_IN's for 20 ms, CARD_DETECT's for 50 ms, SUPPLY_LOW_IN's for 10 ms; one that returns discards it; a line that keeps
differing lets it run. -/
def Obligations.InputLinesAreDebounced : Prop :=
  ∀ s : State, s.part.phase ≠ .asserted →
    let now := s.part.clock.time
    let line (i : Bool → Instr) (level : Bool) (timer : Option Timer) (dur : Nat) (after : Bool → Option Timer → Part) : Prop :=
      exec (i level) s = .next { s with part := after level none } ∧
        exec (i (!level)) s = .next { s with part := after (!level) (some (timer.getD ⟨now, dur⟩)) }
    (s.part.esu.contactTimer.isSome = true ∨ s.part.esu.active.debounce ≠ 0 →
      line .syncTransition s.part.esu.contact s.part.esu.contactTimer s.part.esu.active.debounce fun v timer =>
        { s.part with pins := { s.part.pins with sync := v }, esu := { s.part.esu with contactTimer := timer } }) ∧
    (s.part.esu.contactTimer = none → s.part.esu.active.debounce = 0 →
      exec (.syncTransition (!s.part.esu.contact)) s =
        exec .syncEdgeAccept
          { s with
            part :=
              { s.part with
                pins := { s.part.pins with sync := !s.part.esu.contact }
                esu := { s.part.esu with contactTimer := some ⟨now, 0⟩ } } }) ∧
    (line .armInTransition s.part.esu.button s.part.esu.buttonTimer 20000 fun v timer =>
      { s.part with pins := { s.part.pins with arm := v }, esu := { s.part.esu with buttonTimer := timer } }) ∧
    (line .cardDetectTransition s.part.cde.seated s.part.cde.detectTimer 50000 fun v timer =>
      { s.part with pins := { s.part.pins with card := v }, cde := { s.part.cde with detectTimer := timer } }) ∧
    (line .supplyTransition (decide (s.part.tsm.supply = .low)) s.part.tsm.supplyTimer 10000 fun v timer =>
      { s.part with pins := { s.part.pins with supply := v }, tsm := { s.part.tsm with supplyTimer := timer } })

/-- Tier 2. Accepted changes of CARD_DETECT and SUPPLY_LOW_IN (R182, R183, R212): a card seated while ABSENT is PRESENT; a
removal makes it ABSENT and forgets the capacity, ends a bring-up FAILED/NO_CARD and halts the ACTIVE request CARD_ABSENT, with
CARD_HALTED after CARD_STATE, or, if it is marked for cancellation, removes it CANCELLED (a transfer stated whole); a supply
change is in force, SUPPLY_STATE carries the time of acceptance, and the status record becomes due; a change to LOW reaches the
limit of a shot that has integrated for 60 s, ended OVERLONG with the events of an integration end, or, standing ARMED, missed
(R98), and leaves one below it; it ends a dark capture LOW_SUPPLY (R123, R124), with those of its failure, in READ with the
target cleared, and there with an ingest burst under way at that burst's commit (R143); they stand before SUPPLY_STATE (log
entry 38; status writes and results: log entry 43). The numbering of argument words and the order of result words are those of
log entries 11 and 13. -/
def Obligations.CardAndSupplyChangesAreAccepted : Prop :=
  (∀ (timer : Timer) (s : State), s.part.cde.detectTimer = some timer → timer.due s.part.clock.time = true →
    (s.part.cde.seated = false → s.part.cde.card = .absent →
      exec .cardInserted s = .next
        { s with
          part :=
            Part.emit .cardState 0 [1]
              (Part.statusDirty
                { s.part with
                  cde := { s.part.cde with seated := true, detectTimer := none, card := .present, capacity := none } }) }) ∧
    (s.part.cde.seated = true →
      let gone : Part :=
        Part.emit .cardState 0 [0]
          (Part.statusDirty
            { s.part with
              cde := { s.part.cde with seated := false, detectTimer := none, card := .absent, capacity := none } })
      (s.part.cde.bringup = none → s.part.cde.activeRequest = none → exec .cardRemoval s = .next { s with part := gone }) ∧
      (∀ b, s.part.cde.bringup = some b →
        exec .cardRemoval s = .next
          { s with
            part :=
              Part.endCommand b.slot .failed (if b.aborting then .aborted else .noCard) [natWord b.step.code]
                { gone with cde := { gone.cde with bringup := none } } }) ∧
      (∀ r, s.part.cde.bringup = none → s.part.cde.activeRequest = some r → r.cancel = false → s.part.cpa.resetting = none →
        (s.part.cde.requests.filter fun x => decide (x.id = r.id)) = [r] →
        ∃ t, exec .cardRemoval s = .next t ∧ t.mem = s.mem ∧ t.pending = s.pending ∧ t.part.cde.card = .absent ∧
          t.part.cde.capacity = none ∧ t.part.cde.run = none ∧
          t.part.cde.requests.find? (fun x => decide (x.id = r.id)) =
            some { r with state := .halted, cause := some .cardAbsent } ∧
          t.part.cpa = (Part.emit .cardHalted r.shot [natWord r.id, 7] gone.statusDirty).cpa ∧
          (∀ n es y, r.work = .store n es → s.part.shot? n = some y →
            t.part.shot? n = some (if y.state = .storing then { y with state := .developed } else y))) ∧
      (∀ r, s.part.cde.bringup = none → s.part.cde.activeRequest = some r → r.cancel = true → s.part.cpa.resetting = none →
        r.work.isStore = false →
        exec .cardRemoval s = .next
          { s with
            part :=
              Part.emit .cardRequestDone 0 [natWord r.id, 1, natWord r.done]
                (Part.statusDirty
                  { gone with
                    cde :=
                      { gone.cde with requests := s.part.cde.requests.filter (fun x => decide (x.id ≠ r.id)), run := none } }) }))) ∧
  (∀ (timer : Timer) (s : State), s.part.tsm.supplyTimer = some timer → timer.due s.part.clock.time = true →
    let st := if s.part.tsm.supply = .normal then Supply.low else .normal
    let stopped : Esu :=
      { s.part.esu with
        seq := .idle, integLine := false, strobe := none, flushTimer := none, armTimer := none, guardTimer := none, progTimer := none
        darkTimer := none }
    ((s.part.tsm.supply = .normal →
        (s.part.currentShot = none ∨ s.part.esu.seq ≠ .shotIntegrate ∨
          ∃ x start, s.part.currentShot = some x ∧ x.exposure.integStart = some start ∧ (timer.expiry - start).toNat < 60000000) ∧
        s.part.dfl.capture = none) →
      exec .supplyState s = .next
        { s with
          part :=
            Part.statusDirty
              (Part.emitAt timer.expiry .supplyState 0 [if s.part.tsm.supply = .normal then 1 else 0]
                { s.part with tsm := { s.part.tsm with supply := st, supplyTimer := none } }) }) ∧
    (∀ x start, s.part.tsm.supply = .normal → s.part.esu.seq = .shotIntegrate → s.part.dfl.capture = none →
      s.part.currentShot = some x → s.part.shot? x.number = some x → x.state = .exposing ∨ x.state = .settling →
      x.exposure.integStart = some start → notLater start timer.expiry = true →
      60000000 ≤ (timer.expiry - start).toNat →
      ∃ t y, exec .supplyState s = .next t ∧ t.mem = s.mem ∧ t.pending = s.pending ∧ t.part.tsm.supply = .low ∧
        t.part.esu.seq = .shotRead ∧ t.part.esu.integLine = false ∧ t.part.shot? x.number = some y ∧ y.state = .reading ∧
        y.exposure.overlong = true ∧ y.exposure.integEnd = some timer.expiry ∧ y.exposure.integTime = some (timer.expiry - start).toNat ∧
        ∃ d, y.progress.dark = some d ∧
          t.part.cpa =
            (Part.statusDirty
              (Part.emitAt timer.expiry .supplyState 0 [1]
                (s.part.integrationReported x.number timer.expiry (timer.expiry - start).toNat
                  (Exposure.flagSet x.exposure.early true x.exposure.truncated x.exposure.hot) d))).cpa) ∧
    (∀ x start, s.part.tsm.supply = .normal → s.part.esu.seq = .shotIntegrate → s.part.dfl.capture = none →
      s.part.currentShot = some x → s.part.shot? x.number = some x → x.state = .armed → x.progress.dark = none →
      s.part.requestFor x.number = none → x.exposure.integStart = some start → notLater start timer.expiry = true →
      60000000 ≤ (timer.expiry - start).toNat →
      ∃ t, exec .supplyState s = .next t ∧ t.mem = s.mem ∧ t.pending = s.pending ∧ t.part.tsm.supply = .low ∧ t.part.esu = stopped ∧
        t.part.sht.records = s.part.sht.records.filter (fun y => decide (y.number ≠ x.number)) ∧
        t.part.sht.slots = s.part.sht.slots.set x.slot .free ∧
        t.part.cpa =
          (Part.statusDirty
            (Part.emitAt timer.expiry .supplyState 0 [1]
              (Part.emit .slotReleased x.number [natWord x.slot, 0]
                (Part.statusDirty (Part.emitAt timer.expiry .shotMissed x.number [natWord x.slot] s.part))))).cpa) ∧
    (∀ c x, s.part.tsm.supply = .normal → s.part.currentShot = none → s.part.dfl.capture = some c → s.part.dfl.ending = none →
      s.part.shot? c.shot = some x →
      (c.phase ≠ .read ∨ s.part.icr.work = none →
        ∃ t, exec .supplyState s = .next t ∧ t.mem = s.mem ∧ t.pending = s.pending ∧
          t.part.tsm = { s.part.tsm with supply := .low, supplyTimer := none } ∧
          t.part.dfl = { s.part.dfl with capture := none, ending := none } ∧ t.part.esu = stopped ∧
          t.part.icr =
            (if c.phase = .read then { s.part.icr with target := none, deadline := none, strayReported := false } else s.part.icr) ∧
          t.part.sht.slots = s.part.sht.slots.set c.slot .free ∧ t.part.dpe.queue = s.part.dpe.queue ++ [c.shot] ∧
          t.part.shot? c.shot =
            some { x with state := .developing, progress := { x.progress with dark := some (.skipped .lowSupply) } } ∧
          (∀ n, n ≠ c.shot → t.part.shot? n = s.part.shot? n) ∧
          t.part.cpa =
            (Part.statusDirty (Part.emitAt timer.expiry .supplyState 0 [1] (s.part.captureFailureReported c .lowSupply))).cpa) ∧
      (c.phase = .read → s.part.icr.work.isSome = true →
        exec .supplyState s = .next
          { s with
            part :=
              Part.statusDirty
                (Part.emitAt timer.expiry .supplyState 0 [1]
                  { s.part with
                    tsm := { s.part.tsm with supply := .low, supplyTimer := none }
                    esu := stopped, dfl := { s.part.dfl with ending := some ⟨.lowSupply, c.td, .nothing, []⟩ } }) })))

/-- Tier 2. An edge of SYNC_IN accepted (R81 to R83, R91, R93, R94): UNARMED_RELEASE for a closing edge in IDLE and DARK_FLUSH;
against the current shot it is recorded, up to 16 edges, and, with its own time, sets EARLY in ARMING, opens the exposure in
ARMED, with EXPOSURE_BEGIN, closes it in EXPOSING and starts the settle guard (one of 0 ends integration at once, with its
events), reopens it in SETTLING, counts as late in READING, and has no other effect elsewhere, and no other event; a closing
edge while a dark integrates or is read ends its capture DISTURBED (R123, R124), with the events of its failure (order of
writes: log entry 43), in DARK_READ with the target cleared; with an ingest burst under way there the sequence stops, and the
rest waits for that burst's commit, as it does for a LOW supply (R143). The late and overflow counts wrap (log entry 49). -/
def Obligations.EdgesActOnTheShot : Prop :=
  (∀ (timer : Timer) (s : State), s.part.esu.contactTimer = some timer → timer.due s.part.clock.time = true →
    let closing := !s.part.esu.contact
    let esu : Esu := { s.part.esu with contact := closing, contactTimer := none }
    (s.part.esu.seq = .idle ∨ s.part.esu.seq = .darkFlush →
      exec .syncEdgeAccept s = .next
        { s with
          part :=
            if closing then Part.emitAt timer.start .unarmedRelease 0 [] { s.part with esu := esu } else { s.part with esu := esu } }) ∧
    ((s.part.esu.seq = .darkIntegrate ∨ s.part.esu.seq = .darkRead) → closing = false →
      exec .syncEdgeAccept s = .next { s with part := { s.part with esu := esu } }) ∧
    (∀ c x, (s.part.esu.seq = .darkIntegrate ∧ c.phase = .integrate) ∨ (s.part.esu.seq = .darkRead ∧ c.phase = .read) →
      closing = true → s.part.dfl.capture = some c → s.part.dfl.ending = none → s.part.shot? c.shot = some x →
      let stopped : Esu :=
        { esu with
          seq := .idle, integLine := false, strobe := none, flushTimer := none, armTimer := none, guardTimer := none
          progTimer := none, darkTimer := none }
      (c.phase ≠ .read ∨ s.part.icr.work = none →
        ∃ t, exec .syncEdgeAccept s = .next t ∧ t.mem = s.mem ∧ t.pending = s.pending ∧
          { t.part with
            cpa := s.part.cpa, sht := s.part.sht, esu := s.part.esu, dfl := s.part.dfl, icr := s.part.icr, dpe := s.part.dpe } = s.part ∧
          t.part.dfl = { s.part.dfl with capture := none, ending := none } ∧ t.part.esu = stopped ∧
          t.part.icr =
            (if c.phase = .read then { s.part.icr with target := none, deadline := none, strayReported := false } else s.part.icr) ∧
          t.part.sht.slots = s.part.sht.slots.set c.slot .free ∧ t.part.dpe.queue = s.part.dpe.queue ++ [c.shot] ∧
          t.part.shot? c.shot =
            some { x with state := .developing, progress := { x.progress with dark := some (.skipped .disturbed) } } ∧
          (∀ n, n ≠ c.shot → t.part.shot? n = s.part.shot? n) ∧
          t.part.cpa = (s.part.captureFailureReported c .disturbed).cpa) ∧
      (c.phase = .read → s.part.icr.work.isSome = true →
        exec .syncEdgeAccept s = .next
          { s with
            part :=
              { s.part with
                esu := stopped, dfl := { s.part.dfl with ending := some ⟨.disturbed, c.td, .nothing, []⟩ } } })) ∧
    (∀ x, s.part.esu.seq ∈ [.shotFlush, .shotIntegrate, .shotRead] → s.part.currentShot = some x →
      s.part.shot? x.number = some x →
      let rec_ : Exposure :=
        if x.exposure.edges.length < 16 then { x.exposure with edges := x.exposure.edges ++ [⟨timer.start, closing⟩] }
        else { x.exposure with edgeOverflow := x.exposure.edgeOverflow + 1 }
      let becomes (y : Shot) (esu' : Esu) : Prop :=
        ∃ t, exec .syncEdgeAccept s = .next t ∧ t.mem = s.mem ∧ t.pending = s.pending ∧
          { t.part with cpa := s.part.cpa, sht := s.part.sht, esu := s.part.esu } = s.part ∧ t.part.esu = esu' ∧
          t.part.cpa =
            (if x.state = .armed ∧ y.state = .exposing then
              (Part.emitAt timer.expiry .exposureBegin x.number [timer.start] s.part).cpa
            else s.part.cpa) ∧
          t.part.shot? x.number = some y ∧
          (∀ n, n ≠ x.number → t.part.shot? n = s.part.shot? n)
      (x.state = .arming → closing = true → becomes { x with exposure := { rec_ with early := true } } esu) ∧
      (x.state = .armed → x.arming.mode = .sync → closing = true → x.arming.plan ≠ .first →
        becomes { x with state := .exposing, exposure := { rec_ with openTime := some timer.start } }
          { esu with armTimer := none }) ∧
      (x.state = .armed → x.arming.mode = .sync → closing = true → x.arming.plan = .first →
        let fire := timer.start + natWord x.arming.planTime
        (notLater fire timer.expiry = true →
          becomes
            { x with
              state := .exposing, exposure := { rec_ with openTime := some timer.start, strobeTime := some timer.expiry } }
            { esu with
              armTimer := none, strobe := none, strobeLine := true, strobePulse := some ⟨timer.expiry, esu.active.pulse⟩ }) ∧
        (notLater fire timer.expiry = false →
          becomes { x with state := .exposing, exposure := { rec_ with openTime := some timer.start } }
            { esu with armTimer := none, strobe := some fire })) ∧
      (x.state = .exposing → x.arming.mode = .sync → closing = false → s.part.esu.active.guard ≠ 0 →
        becomes
          { x with
            state := .settling
            exposure :=
              { rec_ with
                closeTime := some timer.start
                measured := some (timer.start - x.exposure.openTime.getD timer.start).toNat } }
          { esu with strobe := none, guardTimer := some ⟨timer.expiry, s.part.esu.active.guard⟩ }) ∧
      (x.state = .exposing → x.arming.mode = .sync → closing = false → s.part.esu.active.guard = 0 →
        ∃ t y, exec .syncEdgeAccept s = .next t ∧ t.mem = s.mem ∧ t.pending = s.pending ∧ t.part.esu.seq = .shotRead ∧
          t.part.esu.integLine = false ∧ t.part.esu.strobe = none ∧ t.part.shot? x.number = some y ∧ y.state = .reading ∧
          y.exposure.closeTime = some timer.start ∧ y.exposure.integEnd = some timer.expiry ∧
          ∃ d, y.progress.dark = some d ∧
            t.part.cpa =
              (s.part.integrationReported x.number timer.expiry
                (timer.expiry - x.exposure.integStart.getD timer.expiry).toNat
                (Exposure.flagSet x.exposure.early x.exposure.overlong x.exposure.truncated x.exposure.hot) d).cpa) ∧
      (x.state = .settling → x.arming.mode = .sync → closing = true →
        becomes { x with state := .exposing, exposure := { rec_ with closeTime := none, measured := none } }
          { esu with guardTimer := none }) ∧
      (x.state = .reading → closing = true → becomes { x with exposure := { rec_ with late := rec_.late + 1 } } esu) ∧
      ((x.arming.mode = .timed ∧ x.state = .exposing) ∨ (x.state ∈ [.arming, .armed, .settling, .reading] ∧ closing = false) ∨
          (x.state = .exposing ∧ closing = true) →
        becomes { x with exposure := rec_ } esu))) ∧
  (∀ (s : State) (w : IngestWork) (g : Target) (c : Capture) (e : Ending) (x : Shot),
    s.part.icr.work = some w → w.stage = .written → s.part.icr.target = some g → g.kind = .dark → s.part.cpa.resetting = none →
    s.part.dfl.capture = some c → s.part.dfl.ending = some e → e.after = .nothing → e.arms = [] → s.part.shot? c.shot = some x →
    ∃ t, exec .ingestCommit s = .next t ∧ t.mem = s.mem ∧ t.pending = s.pending ∧ t.part.icr.target = none ∧
      t.part.icr.work = none ∧ t.part.icr.deadline = none ∧ t.part.dfl = { s.part.dfl with capture := none, ending := none } ∧
      t.part.esu = s.part.esu ∧ t.part.sht.slots = s.part.sht.slots.set c.slot .free ∧
      t.part.dpe.queue = s.part.dpe.queue ++ [c.shot] ∧
      t.part.shot? c.shot =
        some { x with state := .developing, progress := { x.progress with dark := some (.skipped e.reason) } } ∧
      (∀ n, n ≠ c.shot → t.part.shot? n = s.part.shot? n) ∧ t.part.pts.answer = some ⟨true, []⟩ ∧
      t.part.cpa =
        (Part.emit .darkFailed c.shot [natWord e.reason.code, natWord e.elapsed]
          (Part.emit .slotReleased c.shot [natWord c.slot, 1] s.part.statusDirty)).cpa)

/-- Tier 2. The lines fall when their pulses have run, and a pending strobe fires at its time (R89, R96, R97, R100). The end of
the flush (R90, R99): SENSOR_INTEG rises and the integration start is the flush's end; a SYNC shot without EARLY is ARMED with
its arm window running; one with EARLY is EXPOSING with the contact closed, its FIRST strobe scheduled, and SETTLING with it
open; a TIMED shot below CRITICAL is EXPOSING with its programmed time running and its strobe, if it has one, scheduled (R96);
in CRITICAL its integration ends at once, TRUNCATED, before any strobe due at its start (log entry 48), and so does that of an
EARLY SYNC shot with the contact open and a settle guard of 0, each with the events of an integration end. EXPOSURE_BEGIN, with
the flush's end as its time, is emitted but for a shot that is ARMED. -/
def Obligations.PulsesEndAndFlushEndStartsIntegration : Prop :=
  ((∀ (timer : Timer) (s : State), timer.due s.part.clock.time = true →
    (s.part.esu.flushPulse = some timer → s.part.esu.readPulse = none →
      exec .sensorPulseEnd s = .next
        { s with part := { s.part with esu := { s.part.esu with flushLine := false, flushPulse := none } } }) ∧
    (s.part.esu.readPulse = some timer → s.part.esu.flushPulse = none →
      exec .sensorPulseEnd s = .next
        { s with part := { s.part with esu := { s.part.esu with readLine := false, readPulse := none } } }) ∧
    (s.part.esu.strobePulse = some timer →
      exec .strobePulseEnd s = .next
        { s with part := { s.part with esu := { s.part.esu with strobeLine := false, strobePulse := none } } })) ∧
  (∀ (fire : Word) (x : Shot) (s : State), s.part.esu.strobe = some fire → s.part.currentShot = some x →
    (notLater fire s.part.clock.time = false → exec .strobeFire s = .next s) ∧
    (notLater fire s.part.clock.time = true →
      exec .strobeFire s = .next
        { s with
          part :=
            { s.part with
              esu :=
                { s.part.esu with strobe := none, strobeLine := true, strobePulse := some ⟨fire, s.part.esu.active.pulse⟩ }
              sht :=
                { s.part.sht with
                  records :=
                    s.part.sht.records.map fun y =>
                      if y.number = x.number then { y with exposure := { y.exposure with strobeTime := some fire } } else y } } }))) ∧
  (∀ (timer : Timer) (x : Shot) (s : State), s.part.esu.flushTimer = some timer → timer.due s.part.clock.time = true →
    s.part.esu.seq = .shotFlush → s.part.currentShot = some x → s.part.shot? x.number = some x → x.state = .arming →
    let at_ := timer.expiry
    let esu : Esu := { s.part.esu with seq := .shotIntegrate, flushTimer := none, integLine := true }
    let started : Exposure := { x.exposure with integStart := some at_ }
    let begun : Part := Part.emitAt at_ .exposureBegin x.number [at_] s.part
    let becomes (y : Shot) (esu' : Esu) : Prop :=
      ∃ t, exec .flushEnd s = .next t ∧ t.mem = s.mem ∧ t.pending = s.pending ∧
        { t.part with cpa := s.part.cpa, sht := s.part.sht, esu := s.part.esu } = s.part ∧ t.part.esu = esu' ∧
        t.part.cpa = (if y.state = .armed then s.part.cpa else begun.cpa) ∧
        t.part.shot? x.number = some y ∧ (∀ n, n ≠ x.number → t.part.shot? n = s.part.shot? n)
    (x.arming.mode = .sync → x.exposure.early = false →
      becomes { x with state := .armed, exposure := started }
        { esu with armTimer := some ⟨at_, s.part.esu.active.armWindow * 1000000⟩ }) ∧
    (x.arming.mode = .sync → x.exposure.early = true → s.part.esu.contact = true →
      let fire := at_ + natWord x.arming.planTime
      (x.arming.plan ≠ .first → becomes { x with state := .exposing, exposure := { started with openTime := some at_ } } esu) ∧
      (x.arming.plan = .first → notLater fire at_ = true →
        becomes { x with state := .exposing, exposure := { started with openTime := some at_, strobeTime := some at_ } }
          { esu with strobe := none, strobeLine := true, strobePulse := some ⟨at_, s.part.esu.active.pulse⟩ }) ∧
      (x.arming.plan = .first → notLater fire at_ = false →
        becomes { x with state := .exposing, exposure := { started with openTime := some at_ } } { esu with strobe := some fire })) ∧
    (x.arming.mode = .sync → x.exposure.early = true → s.part.esu.contact = false → s.part.esu.active.guard ≠ 0 →
      becomes
        { x with state := .settling, exposure := { started with openTime := some at_, closeTime := some at_, measured := some 0 } }
        { esu with strobe := none, guardTimer := some ⟨at_, s.part.esu.active.guard⟩ }) ∧
    (x.arming.mode = .timed → s.part.tsm.temp ≠ .critical →
      let running : Esu := { esu with progTimer := some ⟨at_, x.arming.programmed.getD 0⟩ }
      let fire :=
        at_ + natWord (if x.arming.plan = .first then x.arming.planTime else x.arming.programmed.getD 0 - x.arming.planTime)
      (x.arming.plan = .none → becomes { x with state := .exposing, exposure := started } running) ∧
      (x.arming.plan ≠ .none → notLater fire at_ = true →
        becomes { x with state := .exposing, exposure := { started with strobeTime := some at_ } }
          { running with strobe := none, strobeLine := true, strobePulse := some ⟨at_, s.part.esu.active.pulse⟩ }) ∧
      (x.arming.plan ≠ .none → notLater fire at_ = false →
        becomes { x with state := .exposing, exposure := started } { running with strobe := some fire })) ∧
    (x.arming.mode = .timed → s.part.tsm.temp = .critical →
      ∃ t y, exec .flushEnd s = .next t ∧ t.mem = s.mem ∧ t.pending = s.pending ∧ t.part.esu.seq = .shotRead ∧
        t.part.esu.integLine = false ∧ t.part.shot? x.number = some y ∧ y.state = .reading ∧ y.exposure.truncated = true ∧
        y.exposure.integStart = some at_ ∧ y.exposure.integEnd = some at_ ∧ y.exposure.integTime = some 0 ∧
        ∃ d, y.progress.dark = some d ∧
          t.part.cpa =
            (begun.integrationReported x.number at_ 0
              (Exposure.flagSet x.exposure.early x.exposure.overlong true x.exposure.hot) d).cpa) ∧
    (x.arming.mode = .sync → x.exposure.early = true → s.part.esu.contact = false → s.part.esu.active.guard = 0 →
      ∃ t y d, exec .flushEnd s = .next t ∧ t.mem = s.mem ∧ t.pending = s.pending ∧ t.part.esu.seq = .shotRead ∧
        t.part.esu.integLine = false ∧ t.part.shot? x.number = some y ∧ y.state = .reading ∧
        y.exposure.openTime = some at_ ∧ y.exposure.closeTime = some at_ ∧ y.exposure.measured = some 0 ∧
        y.exposure.integStart = some at_ ∧ y.exposure.integEnd = some at_ ∧ y.exposure.integTime = some 0 ∧
        y.progress.dark = some d ∧
        t.part.cpa =
          (begun.integrationReported x.number at_ 0
            (Exposure.flagSet true x.exposure.overlong x.exposure.truncated x.exposure.hot) d).cpa))

/-- Tier 2. Integration ends at the guard's expiry, the programmed time's, or the limit (R94, R95, R98, R100): SENSOR_INTEG
falls, timers and strobe stop, the end, the time and the temperature are recorded, the dark source is decided, the ICR has the
shot as target with the readout deadline, SENSOR_READ is pulsed and the shot is READING; the CPA is handed EXPOSURE_END,
DARK_DECIDED and READOUT_BEGIN. The arm window's expiry, or the limit in ARMED, misses the shot (R92): the sequence is IDLE and
the record gone; with no dark source, SHOT_MISSED, the CARD_REQUEST_DONE of a request that named it (R68) and SLOT_RELEASED are
emitted (their order and that of the writes: log entries 38 and 43). -/
def Obligations.IntegrationEndsInReadingOrMissed : Prop :=
  ∀ (x : Shot) (s : State), s.part.currentShot = some x → s.part.shot? x.number = some x →
    let stopped : Esu :=
      { s.part.esu with
        integLine := false, strobe := none, flushTimer := none, armTimer := none, guardTimer := none, progTimer := none, darkTimer := none }
    let read (i : Instr) (at_ : Word) (overlong : Bool) : Prop :=
      ∃ t y tg, exec i s = .next t ∧ t.mem = s.mem ∧ t.pending = s.pending ∧
        { t.part with cpa := s.part.cpa, sht := s.part.sht, esu := s.part.esu, dfl := s.part.dfl, icr := s.part.icr } = s.part ∧
        t.part.esu = { stopped with seq := .shotRead, readLine := true, readPulse := some ⟨at_, 10⟩ } ∧
        t.part.shot? x.number = some y ∧ y.state = .reading ∧ y.slot = x.slot ∧ y.arming = x.arming ∧
        y.exposure =
          { x.exposure with
            integEnd := some at_, integTime := some (at_ - x.exposure.integStart.getD at_).toNat
            tempAtRead := if s.part.tsm.temp = .fault then none else s.part.tsm.reading
            overlong := x.exposure.overlong || overlong } ∧
        y.progress.cursor = 0 ∧ y.progress.gaps = [] ∧ y.progress.dark.isSome = true ∧
        t.part.icr = { s.part.icr with target := some tg, deadline := some ⟨at_, s.part.esu.active.readTimeout * 1000⟩ } ∧
        tg.kind = .shot ∧ tg.number = x.number ∧ tg.slot = x.slot ∧ tg.gain = x.arming.gain ∧
        (tg.path = .raw ↔ y.progress.dark = some (.capture .capturing none)) ∧
        y.progress.correction = some (if tg.path = .raw then .raw else .corrected) ∧
        ∃ d, y.progress.dark = some d ∧
          t.part.cpa =
            (s.part.integrationReported x.number at_ (at_ - x.exposure.integStart.getD at_).toNat
              (Exposure.flagSet x.exposure.early (x.exposure.overlong || overlong) x.exposure.truncated x.exposure.hot) d).cpa
    let missed (i : Instr) (at_ : Word) : Prop :=
      ∃ t, exec i s = .next t ∧ t.mem = s.mem ∧ t.pending = s.pending ∧ t.part.esu = { stopped with seq := .idle } ∧
        t.part.sht.records = s.part.sht.records.filter (fun y => decide (y.number ≠ x.number)) ∧
        (x.progress.dark = none → t.part.sht.slots = s.part.sht.slots.set x.slot .free ∧
          let told := Part.emitAt at_ .shotMissed x.number [natWord x.slot] s.part
          let released (p : Part) : Part := Part.emit .slotReleased x.number [natWord x.slot, 0] p.statusDirty
          (s.part.requestFor x.number = none → t.part.cpa = (released told).cpa) ∧
          (∀ r, s.part.requestFor x.number = some r →
            (∀ q ∈ t.part.cde.requests, q.id ≠ r.id) ∧
            t.part.cpa = (released (Part.emit .cardRequestDone x.number [natWord r.id, 1, 0] told.statusDirty)).cpa))
    (∀ timer, s.part.esu.guardTimer = some timer → timer.due s.part.clock.time = true → x.state = .settling →
      read .settleGuardExpiry timer.expiry false) ∧
    (∀ timer, s.part.esu.progTimer = some timer → timer.due s.part.clock.time = true → x.state = .exposing →
      read .programmedTimeExpiry timer.expiry false) ∧
    (∀ timer, s.part.esu.armTimer = some timer → timer.due s.part.clock.time = true → x.state = .armed →
      missed .armWindowExpiry timer.expiry) ∧
    (∀ start, s.part.esu.seq = .shotIntegrate → x.exposure.integStart = some start → notLater start s.part.clock.time = true →
      let limit := if s.part.tsm.supply = .normal then 1800000000 else 60000000
      (limit ≤ (s.part.clock.time - start).toNat →
        (x.state = .exposing ∨ x.state = .settling → read .integrationLimit (start + natWord limit) true) ∧
        (x.state = .armed → missed .integrationLimit (start + natWord limit))) ∧
      ((s.part.clock.time - start).toNat < limit → exec .integrationLimit s = .next s))

/-! ## The dark frame library -/

/-- Tier 2. The dark decision (R117, R118): by policy and threshold, a library entry that matches, a capture with the supply
NORMAL, or none. An entry matches by gain code, a time within a factor of 2 and a temperature within 8; of several the nearest
in temperature is chosen, then the nearest in time, then the one of the highest last-use stamp, and K is that of R116 for the
two times and temperatures. -/
def Obligations.DarkDecisionFollowsItsTable : Prop :=
  ∀ (gain ts : Nat) (temp : Option Int) (p : Part),
    let d := p.darkDecision gain ts temp
    let near (e : Dark) : Prop :=
      e.gain = gain ∧ e.td ≤ 2 * ts ∧ ts ≤ 2 * e.td ∧ ∃ a b, temp = some a ∧ e.temp = some b ∧ (a - b).natAbs ≤ 8
    (p.dfl.policy.mode = .off → d.source = .none .policyOff ∧ d.entry = none) ∧
    (p.dfl.policy.mode ≠ .off → ts < p.dfl.policy.threshold * 1000000 → d.source = .none .belowThreshold ∧ d.entry = none) ∧
    (p.dfl.policy.mode ≠ .off → p.dfl.policy.threshold * 1000000 ≤ ts →
      ((∃ e ∈ p.dfl.entries, near e) →
        ∃ e k, d.entry = some e ∧ e ∈ p.dfl.entries ∧ near e ∧ d.source = .library e.id k ∧
          ∀ a b, temp = some a → e.temp = some b →
            k =
              min 65535
                (((ts * 16384 + e.td / 2) / e.td * (p.cal.tables.darkTemp.getD []).getD (a - b + 8).toNat 0 + 8192) / 16384) ∧
            ∀ f ∈ p.dfl.entries, near f → ∀ c, f.temp = some c →
              let gap (x : Dark) : Nat := ((ts : Int) - x.td).natAbs
              (a - b).natAbs ≤ (a - c).natAbs ∧
              ((a - b).natAbs = (a - c).natAbs → gap e ≤ gap f ∧ (gap e = gap f → f.stamp.toNat ≤ e.stamp.toNat))) ∧
      ((∀ e ∈ p.dfl.entries, ¬near e) →
        d.entry = none ∧
        (p.dfl.policy.mode = .capture → p.tsm.supply = .normal → d.source = .capture .capturing none) ∧
        (p.dfl.policy.mode = .capture → p.tsm.supply = .low → d.source = .skipped .lowSupply) ∧
        (p.dfl.policy.mode = .libraryOnly → d.source = .skipped .libraryMiss)))

/-- Tier 2. The dark sequence (R105, R106): at the end of the flush with the contact open SENSOR_INTEG rises for T_d; with it
closed the capture fails, its slot becomes FREE and the waiting shot is SKIPPED(DISTURBED) and goes to development; when T_d has
run, SENSOR_INTEG falls, the temperature is taken, the ICR has the dark as RAW target and SENSOR_READ is pulsed. At the commit
that completes its readout with no gap (R138, R122) the dark joins the library, if its temperature is known and there is room,
and is the shot's transient dark otherwise; the shot's source takes K and the shot goes to development, with READOUT_END and
then DARK_DONE; a capture that fails reports its slot and DARK_FAILED (order of writes: log entry 43). -/
def Obligations.DarkSequenceRuns : Prop :=
  (∀ (timer : Timer) (c : Capture) (s : State), timer.due s.part.clock.time = true → s.part.dfl.capture = some c →
    let at_ := timer.expiry
    (s.part.esu.flushTimer = some timer → s.part.esu.seq = .darkFlush → s.part.esu.contact = false →
      exec .darkFlushEnd s = .next
        { s with
          part :=
            { s.part with
              esu := { s.part.esu with seq := .darkIntegrate, flushTimer := none, integLine := true, darkTimer := some ⟨at_, c.td⟩ }
              dfl := { s.part.dfl with capture := some { c with phase := .integrate, integStart := some at_ } } } }) ∧
    (∀ x, s.part.esu.flushTimer = some timer → s.part.esu.seq = .darkFlush → s.part.esu.contact = true → c.phase = .flush →
      s.part.dfl.ending = none → s.part.shot? c.shot = some x →
      ∃ t y, exec .darkFlushEnd s = .next t ∧ t.mem = s.mem ∧ t.pending = s.pending ∧ t.part.dfl.capture = none ∧
        t.part.esu.seq = .idle ∧ t.part.esu.integLine = false ∧ t.part.sht.slots = s.part.sht.slots.set c.slot .free ∧
        t.part.shot? c.shot = some y ∧ y.state = .developing ∧ y.progress.dark = some (.skipped .disturbed) ∧
        t.part.dpe.queue = s.part.dpe.queue ++ [c.shot] ∧ t.part.cpa = (s.part.captureFailureReported c .disturbed).cpa) ∧
    (s.part.esu.darkTimer = some timer → s.part.esu.seq = .darkIntegrate →
      exec .darkIntegrationExpiry s = .next
        { s with
          part :=
            Part.emitAt at_ .readoutBegin c.shot [1, natWord (s.part.geo.width * s.part.geo.height * 2)]
              { s.part with
                esu :=
                  { s.part.esu with
                    integLine := false, strobe := none, flushTimer := none, armTimer := none, guardTimer := none, progTimer := none
                    darkTimer := none, seq := .darkRead, readLine := true, readPulse := some ⟨at_, 10⟩ }
                dfl :=
                  { s.part.dfl with
                    capture :=
                      some
                        { c with
                          phase := .read, darkTemp := if s.part.tsm.temp = .fault then none else s.part.tsm.reading } }
                icr :=
                  { s.part.icr with
                    target := some ⟨.dark, c.shot, c.slot, .raw, c.gain, none, 0, []⟩
                    deadline := some ⟨at_, s.part.esu.active.readTimeout * 1000⟩ } } })) ∧
  (∀ (c : Capture) (g : Target) (w : IngestWork) (x : Shot) (s : State), s.part.dfl.capture = some c → s.part.icr.target = some g →
    g.kind = .dark → g.gaps = [] → s.part.icr.work = some w → w.stage = .written → w.gap = none →
    s.part.geo.width * s.part.geo.height * 2 ≤ w.to_ → s.part.cpa.resetting = none → s.part.dfl.ending = none →
    s.part.shot? c.shot = some x →
    let k := scaleFactor (s.part.cal.tables.darkTemp.getD []) c.td c.td (tempDelta c.shotTemp c.darkTemp)
    let ended : Part := Part.emit .readoutEnd g.number [1, 0, 0] s.part
    ∃ t y, exec .ingestCommit s = .next t ∧ t.mem = s.mem ∧ t.pending = s.pending ∧ t.part.dfl.capture = none ∧
      t.part.icr.target = none ∧ t.part.icr.work = none ∧ t.part.esu.seq = .idle ∧ t.part.shot? c.shot = some y ∧
      y.state = .developing ∧ t.part.dpe.queue = s.part.dpe.queue ++ [c.shot] ∧
      (c.darkTemp.isSome = true → s.part.dfl.entries.length < s.part.dfl.policy.size →
        ∃ id, (s.part.dfl.entries.length < 4 → id < 4 ∧ ∀ e ∈ s.part.dfl.entries, e.id ≠ id) ∧
          t.part.dfl.entries = s.part.dfl.entries ++ [⟨id, c.slot, c.td, c.darkTemp, c.gain, 1, c.shot, c.shot⟩] ∧
          t.part.dfl.transients = s.part.dfl.transients ∧ t.part.sht.slots = s.part.sht.slots.set c.slot (.entry id) ∧
          y.progress.dark = some (.capture (.entry id) (some k)) ∧
          t.part.cpa = (Part.emit .darkDone c.shot [natWord id, natWord k] ended.statusDirty).cpa) ∧
      (c.darkTemp = none ∨ s.part.dfl.policy.size ≤ s.part.dfl.entries.length →
        ∃ d, t.part.dfl.transients = s.part.dfl.transients ++ [d] ∧ d.slot = c.slot ∧ d.origin = c.shot ∧ d.refs = 1 ∧
          t.part.dfl.entries = s.part.dfl.entries ∧ t.part.sht.slots = s.part.sht.slots ∧
          y.progress.dark = some (.capture .transient (some k)) ∧
          t.part.cpa = (Part.emit .darkDone c.shot [255, natWord k] ended).cpa))

/-! ## Temperature -/

/-- Tier 2. The probe (R207 to R210): a reading starts every 250 ms; a good one becomes the latest and moves the state by the
table of R209, or, from FAULT, by the reading alone; a third missed one in a row, by a bad value, no acknowledgement or the 10
ms, makes the state FAULT and the latest reading absent. A change of the state emits TEMP_STATE with the new one and the
reading, and a change of either makes a status write due, after it (log entry 43). A change to CRITICAL sets HOT in a shot
before READING, and ends the integration of a TIMED shot in EXPOSING, TRUNCATED (R99), whose events stand before TEMP_STATE (log
entry 38). SET_LIMITS (R211): warm limited to 80..280, critical to warm + 8..320, hysteresis to 1..20, in that order; the limits
replaced whole, DONE or DONE_ADJUSTED with them, the state and the latest reading; the state is not re-evaluated. The hysteresis
word is read as signed (log entry 52). The numbering of argument words and the order of result words are those of log entries 11
and 13. -/
def Obligations.TemperatureReadingsAndLimits : Prop :=
  ((∀ (timer : Timer) (s : State), s.part.tsm.schedule = some timer → s.part.tsm.transaction = none →
    timer.due s.part.clock.time = true →
    exec .tempReadingStart s = .next
      { s with
        part :=
          { s.part with
            tsm :=
              { s.part.tsm with
                schedule := some ⟨timer.expiry, 250000⟩, transaction := some ⟨timer.expiry, 10000⟩, recovering := false } } }) ∧
  (∀ (timer : Timer) (v : Half) (s : State), s.part.tsm.transaction = some timer →
    (s.part.clock.time - timer.start).toNat ≤ 10000 →
    let r := v.toInt / 4
    let m := s.part.tsm
    let next :=
      match m.temp with
      | .fault => if m.critical ≤ r then .critical else if m.warm ≤ r then .warm else .normal
      | .normal => if m.critical ≤ r then .critical else if m.warm ≤ r then TempState.warm else .normal
      | .warm => if m.critical ≤ r then .critical else if r < m.warm - m.hysteresis then .normal else .warm
      | .critical => if r < m.critical - m.hysteresis then .warm else .critical
    let after : Tsm := { m with transaction := none, missed := 0, temp := next, reading := some r }
    let told (p : Part) : Part := Part.statusDirty (Part.emit .tempState 0 [natWord next.code, BitVec.ofInt 32 r] p)
    (-160 ≤ r → r ≤ 500 →
      (s.part.currentShot = none ∨ (∃ x, s.part.currentShot = some x ∧ x.state = .reading) ∨ next ≠ .critical ∨ m.temp = .critical ∨
        s.part.esu.seq ∉ [.shotFlush, .shotIntegrate]) →
      ∃ t, exec (.tempReadingEnd true v) s = .next t ∧ t.mem = s.mem ∧ t.pending = s.pending ∧
        { t.part with cpa := s.part.cpa, tsm := s.part.tsm } = s.part ∧ t.part.tsm = after ∧
        t.part.cpa =
          (if next ≠ m.temp then (told s.part).cpa else if m.reading = some r then s.part.cpa else s.part.statusDirty.cpa)) ∧
    (∀ x, -160 ≤ r → r ≤ 500 → next = .critical → m.temp ≠ .critical → s.part.currentShot = some x →
      s.part.shot? x.number = some x → x.state ≠ .reading → s.part.esu.seq ∈ [.shotFlush, .shotIntegrate] →
      ∃ t y, exec (.tempReadingEnd true v) s = .next t ∧ t.mem = s.mem ∧ t.pending = s.pending ∧ t.part.tsm = after ∧
        t.part.shot? x.number = some y ∧
        (¬(x.arming.mode = .timed ∧ x.state = .exposing) →
          y = { x with exposure := { x.exposure with hot := true } } ∧ t.part.cpa = (told s.part).cpa) ∧
        (x.arming.mode = .timed → x.state = .exposing →
          y.state = .reading ∧ y.exposure.hot = true ∧ y.exposure.truncated = true ∧
            y.exposure.integEnd = some s.part.clock.time ∧ t.part.esu.integLine = false ∧ t.part.esu.seq = .shotRead ∧
            ∃ d, y.progress.dark = some d ∧
              t.part.cpa =
                (told
                  (s.part.integrationReported x.number s.part.clock.time
                    (s.part.clock.time - x.exposure.integStart.getD s.part.clock.time).toNat
                    (Exposure.flagSet x.exposure.early x.exposure.overlong true true) d)).cpa)) ∧
    (∀ acknowledged, acknowledged = false ∨ r < -160 ∨ 500 < r →
      (m.missed < 2 ∨ m.temp = .fault →
        exec (.tempReadingEnd acknowledged v) s = .next
          { s with
            part :=
              { s.part with
                tsm := { m with transaction := none, recovering := true, missed := min 3 (m.missed + 1) } } }) ∧
      (m.missed = 2 → m.temp ≠ .fault →
        exec (.tempReadingEnd acknowledged v) s = .next
          { s with
            part :=
              Part.statusDirty
                (Part.emit .tempState 0 [3, 0]
                  { s.part with
                    tsm := { m with transaction := none, recovering := true, missed := 3, temp := .fault, reading := none } }) }))) ∧
  (∀ (timer : Timer) (s : State), s.part.tsm.transaction = some timer → timer.due s.part.clock.time = true →
    let missed : Tsm := { s.part.tsm with transaction := none, recovering := true, missed := min 3 (s.part.tsm.missed + 1) }
    (s.part.tsm.missed < 2 ∨ s.part.tsm.temp = .fault →
      exec .tempReadingTimeout s = .next { s with part := { s.part with tsm := missed } }) ∧
    (s.part.tsm.missed = 2 → s.part.tsm.temp ≠ .fault →
      exec .tempReadingTimeout s = .next
        { s with
          part :=
            Part.statusDirty
              (Part.emitAt timer.expiry .tempState 0 [3, 0]
                { s.part with tsm := { missed with temp := .fault, reading := none } }) }))) ∧
  (∀ (w : SlotWrite) (s : State), s.part.takes .setLimits w →
    let arg (k : Nat) : Int := ((s.part.words w).getD k 0).toInt
    let warm : Int := max 80 (min (arg 0) 280)
    let critical : Int := max (warm + 8) (min (arg 1) 320)
    let hysteresis : Int := max 1 (min (arg 2) 20)
    let adjusted := warm ≠ arg 0 ∨ critical ≠ arg 1 ∨ hysteresis ≠ arg 2
    exec (.setLimits w) s = .next
      { s with
        part :=
          Part.answered .setLimits w (if adjusted then .doneAdjusted else .done) (if adjusted then .adjusted else .ok)
            [BitVec.ofInt 32 warm, BitVec.ofInt 32 critical, BitVec.ofInt 32 hysteresis, natWord s.part.tsm.temp.code,
              BitVec.ofInt 32 (s.part.tsm.reading.getD 0)]
            { s.part with tsm := { s.part.tsm with warm := warm, critical := critical, hysteresis := hysteresis } } })

/-! ## Ingest -/

/-- Tier 2. A write burst into the INGEST window (R131, R134, R135, R142): with no target it is stray, answered ERROR, counted
up to 4,294,967,295, and reported once in each readout-less period (status write first: log entry 43); for a shot that is not
ABANDONED the first case of R131's table that applies decides: beyond the frame ERROR, a rewrite OKAY at once, else the work on
the bytes from the cursor, or from the burst's start with a gap, begins, raw on the RAW path, corrected on the INLINE path with
no dark, after a dark read with one. For an ABANDONED shot the cursor and the gap list move at once and the burst is answered
OKAY, and at the frame's end the record is removed (R142). For a DARK the same cases hold of its own cursor, and the bytes are
written as they came (R149). The numbering of argument words and the order of result words are those of log entries 11 and 13.
-/
def Obligations.IngestBurstsFollowTheirCases : Prop :=
  ∀ (b : Burst) (rest : List Burst) (base : Nat) (s : State), s.part.pts.queue = b :: rest →
    s.part.pts.head = some (.ingestWrite base) →
    let answered (okay : Bool) (p : Part) : State :=
      { s with
        part :=
          { p with
            pts :=
              { p.pts with
                queue := rest, head := none
                answer := some ⟨okay, if okay || b.write then [] else List.replicate (16 * b.beats) 0⟩ } } }
    (s.part.icr.target = none →
      let counted : Part :=
        Part.statusDirty
          { s.part with
            icr :=
              { s.part.icr with
                strayCount := if s.part.icr.strayCount = 4294967295 then 4294967295 else s.part.icr.strayCount + 1 } }
      (s.part.icr.strayReported = true → exec .ingestWrite s = .next (answered false counted)) ∧
      (s.part.icr.strayReported = false →
        exec .ingestWrite s = .next
          (answered false
            (Part.emit .strayIngest 0 [natWord b.addr, natWord (b.addr / 4294967296)]
              { counted with icr := { counted.icr with strayReported := true } })))) ∧
    (∀ (t : Target) (x : Shot), s.part.icr.target = some t → t.kind = .shot → s.part.shot? t.number = some x →
      let o := b.addr - base
      let frame := s.part.geo.width * s.part.geo.height * 2
      let c := x.progress.cursor
      let e := min (o + 16 * b.beats) frame
      (frame ≤ o → exec .ingestWrite s = .next (answered false s.part)) ∧
      (o < frame → e ≤ c → exec .ingestWrite s = .next (answered true s.part)) ∧
      (o < frame → c < e → x.exposure.abandoned = false →
        let from_ := max o c
        let gap := if c < o then some (c, o) else none
        let raw := slice (from_ - o) (e - from_) b.data
        let owned (bytes : List Byte) (dark : Option DarkUse) (low high : Nat) (stage : IngestStage) : State :=
          { s with
            part :=
              { s.part with
                pts := { s.part.pts with head := some .owned }
                icr := { s.part.icr with work := some ⟨from_, e, gap, t.slot, bytes, dark, low, high, stage⟩ } } }
        (t.path = .raw → exec .ingestWrite s = .next (owned raw none 0 0 .needWrite)) ∧
        (∀ d, t.path = .inline → t.dark = some d → exec .ingestWrite s = .next (owned raw (some d) 0 0 .needDark)) ∧
        (t.path = .inline → t.dark = none →
          let out :=
            correctBytes s.part.geo (s.part.cal.tables.gainGrid.getD [])
              (s.part.cal.tables.corrector s.part.dfl.policy.pedestal t.gain none) from_ raw none
          exec .ingestWrite s = .next (owned out.bytes none out.low out.high .needWrite))) ∧
      (o < frame → c < e → x.exposure.abandoned = true →
        ∃ u, exec .ingestWrite s = .next u ∧ u.mem = s.mem ∧ u.pending = s.pending ∧ u.part.icr.work = s.part.icr.work ∧
          u.part.pts = { s.part.pts with queue := rest, head := none, answer := some ⟨true, []⟩ } ∧
          (e < frame →
            u.part.icr = s.part.icr ∧
            ∃ y, u.part.shot? t.number = some y ∧ y.state = x.state ∧ y.exposure = x.exposure ∧ y.progress.cursor = e ∧
              y.progress.gaps = (if c < o then addGap x.progress.gaps (c, o) else x.progress.gaps)) ∧
          (e = frame → u.part.icr.target = none ∧ u.part.esu.seq = .idle ∧ u.part.shot? t.number = none))) ∧
    (∀ t : Target, s.part.icr.target = some t → t.kind = .dark →
      let o := b.addr - base
      let frame := s.part.geo.width * s.part.geo.height * 2
      let e := min (o + 16 * b.beats) frame
      (frame ≤ o → exec .ingestWrite s = .next (answered false s.part)) ∧
      (o < frame → e ≤ t.cursor → exec .ingestWrite s = .next (answered true s.part)) ∧
      (o < frame → t.cursor < e →
        let from_ := max o t.cursor
        exec .ingestWrite s = .next
          { s with
            part :=
              { s.part with
                pts := { s.part.pts with head := some .owned }
                icr :=
                  { s.part.icr with
                    work :=
                      some
                        ⟨from_, e, if t.cursor < o then some (t.cursor, o) else none, t.slot,
                          slice (from_ - o) (e - from_) b.data, none, 0, 0, .needWrite⟩ } } }))

/-- Tier 2. The end of an ingest burst and of a readout (R130, R132, R133, R137, R139 to R141): at the commit the cursor, the
gap list, the flags and the clamp counts change at once and the burst is answered OKAY; below the frame bytes, with the deadline
not expired, that is all; the commit that reaches them, and the deadline's expiry after a final gap to the frame's end, taken
between bursts or, if it came while a burst was worked on, once that is answered, end the readout: no target, the sequencer
IDLE, READOUT_END with the outcome and the number of gaps, and an INLINE shot in DEVELOPING in the development queue. A RAW
shot's dark capture starts (R120): in the slot that R60 gives, TRANSIENT, with the shot's integration time, gain code and
temperature, phase FLUSH, the shot in AWAIT_DARK and DARK_FLUSH begun (R105); with the source SKIPPED(CANCELLED) none starts and
the shot is in DEVELOPING; with the supply LOW, or no slot, the same with the source SKIPPED(LOW_SUPPLY) or SKIPPED(NO_SLOT) and
DARK_FAILED (order of writes: log entry 43). -/
def Obligations.IngestCommitsAndReadoutsEnd : Prop :=
  ∀ (t : Target) (x : Shot) (s : State), s.part.icr.target = some t → t.kind = .shot → s.part.shot? t.number = some x →
    x.exposure.abandoned = false → s.part.cpa.resetting = none → s.part.dfl.ending = none →
    let frame := s.part.geo.width * s.part.geo.height * 2
    let added (gaps : List (Nat × Nat)) (g : Option (Nat × Nat)) : List (Nat × Nat) :=
      match g with
      | none => gaps
      | some g => if gaps.length < 8 then gaps ++ [g] else gaps.take 7 ++ [((gaps.getD 7 (0, 0)).1, g.2)]
    let timedOut (y : Progress) : Progress :=
      { y with
        cursor := frame, gaps := added y.gaps (some (y.cursor, frame)), readTimeout := true
        gapMerged := y.gapMerged || decide (8 ≤ y.gaps.length) }
    let ended (i : Instr) (outcome : Word) (y : Progress) : Prop :=
      let reported : Part := Part.emit .readoutEnd t.number [0, outcome, natWord y.gaps.length] s.part
      ∃ u z, exec i s = .next u ∧ u.mem = s.mem ∧ u.pending = s.pending ∧ u.part.icr.target = none ∧ u.part.icr.deadline = none ∧
        u.part.icr.strayReported = false ∧ u.part.shot? t.number = some z ∧
        (t.path = .inline →
          u.part.esu = { s.part.esu with seq := .idle } ∧ z = { x with state := .developing, progress := y } ∧
            u.part.dpe.queue = s.part.dpe.queue ++ [t.number] ∧ u.part.cpa = reported.cpa) ∧
        (t.path = .raw →
          ((z.state = .awaitDark ∨ z.state = .developing) ∧ (z.state = .awaitDark ↔ u.part.dfl.capture.isSome = true)) ∧
          (let goesOn (dark : DarkSource) (cpa : Cpa) : Prop :=
            z = { x with state := .developing, progress := { y with dark := some dark } } ∧ u.part.dfl = s.part.dfl ∧
              u.part.sht.slots = s.part.sht.slots ∧ u.part.esu = { s.part.esu with seq := .idle } ∧
              u.part.dpe.queue = s.part.dpe.queue ++ [t.number] ∧ u.part.cpa = cpa
          let failed (reason : DarkReason) : Prop :=
            goesOn (.skipped reason) (Part.emit .darkFailed t.number [natWord reason.code, 0] reported).cpa
          (x.progress.dark = some (.skipped .cancelled) → goesOn (.skipped .cancelled) reported.cpa) ∧
          (x.progress.dark = some (.capture .capturing none) →
            (s.part.tsm.supply = .low → failed .lowSupply) ∧
            (s.part.tsm.supply = .normal → s.part.givesNoSlot → failed .noSlot) ∧
            (∀ slot q, s.part.tsm.supply = .normal → s.part.givesSlot slot q →
              z = { x with state := .awaitDark, progress := y } ∧ u.part.sht.slots = s.part.sht.slots.set slot .transient ∧
              u.part.dfl =
                { q.dfl with
                  capture :=
                    some
                      ⟨t.number, slot, x.exposure.integTime.getD 0, x.arming.gain, x.exposure.tempAtRead, none, .flush, none⟩ } ∧
              u.part.esu =
                { s.part.esu with
                  seq := .darkFlush, flushLine := true, flushPulse := some ⟨s.part.clock.time, 10⟩
                  flushTimer := some ⟨s.part.clock.time, s.part.esu.active.flush⟩ } ∧
              u.part.dpe = s.part.dpe ∧ u.part.cpa = reported.statusDirty.cpa))))
    (∀ w, s.part.icr.work = some w → w.stage = .written →
      let y : Progress :=
        { x.progress with
          cursor := w.to_, gaps := added x.progress.gaps w.gap, lowClamps := x.progress.lowClamps + w.low
          highClamps := x.progress.highClamps + w.high
          ingestGap := x.progress.ingestGap || w.gap.isSome
          gapMerged := x.progress.gapMerged || (w.gap.isSome && decide (8 ≤ x.progress.gaps.length)) }
      (w.to_ < frame → (∀ timer, s.part.icr.deadline = some timer → timer.due s.part.clock.time = false) →
        ∃ u, exec .ingestCommit s = .next u ∧ u.mem = s.mem ∧ u.pending = s.pending ∧
          u.part =
            { s.part with
              sht := u.part.sht, icr := { s.part.icr with work := none }
              pts := { s.part.pts with queue := s.part.pts.queue.tail, head := none, answer := some ⟨true, []⟩ } } ∧
          u.part.shot? t.number = some { x with progress := y } ∧
          (∀ n, n ≠ t.number → u.part.shot? n = s.part.shot? n)) ∧
      (frame ≤ w.to_ → s.part.dfl.capture = none → ended .ingestCommit 0 y) ∧
      (∀ timer, w.to_ < frame → s.part.icr.deadline = some timer → timer.due s.part.clock.time = true →
        s.part.dfl.capture = none → ended .ingestCommit 1 (timedOut y))) ∧
    (∀ timer, s.part.icr.deadline = some timer → timer.due s.part.clock.time = true → s.part.icr.work = none →
      s.part.dfl.capture = none →
      ended .readoutTimeout 1 (timedOut x.progress))

/-! ## Pixels and development -/

/-- Tier 1. The channel of a pixel (R145): by the phase and the parities of x and y, as the table of R145 gives it; the geometry
in force gives the phase, and once S is fixed SET_GEOMETRY is refused BUSY and leaves it. -/
def Obligations.ChannelsFollowThePhase : Prop :=
  (∀ x y : Nat,
    (x % 2 = 0 → y % 2 = 0 →
      channelOf .rggb x y = .r ∧ channelOf .grbg x y = .gr ∧ channelOf .gbrg x y = .gb ∧ channelOf .bggr x y = .b) ∧
    (x % 2 = 1 → y % 2 = 0 →
      channelOf .rggb x y = .gr ∧ channelOf .grbg x y = .r ∧ channelOf .gbrg x y = .b ∧ channelOf .bggr x y = .gb) ∧
    (x % 2 = 0 → y % 2 = 1 →
      channelOf .rggb x y = .gb ∧ channelOf .grbg x y = .b ∧ channelOf .gbrg x y = .r ∧ channelOf .bggr x y = .gr) ∧
    (x % 2 = 1 → y % 2 = 1 →
      channelOf .rggb x y = .b ∧ channelOf .grbg x y = .gb ∧ channelOf .gbrg x y = .gr ∧ channelOf .bggr x y = .r)) ∧
  (∀ (w : SlotWrite) (s : State), s.part.takes .setGeometry w → s.part.sht.layout.isSome = true →
    ∃ data, exec (.setGeometry w) s = .next { s with part := s.part.answered .setGeometry w .refused .busy data })

/-- Tier 2. Correction (R144 to R148). Of one pixel: at or above the threshold 65535 with nothing counted; else the dark
contribution, the gain and the pedestal, rounded toward minus infinity, limited to 0 and 65535 with the clamp counted. Of a run
of frame bytes: each pixel, with the raw and the dark value at its place, the gain of its zone and channel (R144, R145), in
order; the clamps are those of its pixels. Black level and threshold are the table's for the gain code, the dark's black level
for its own gain code, K the dark's (R144, R155), taken from the tables in force or, in a pass, from those taken at its start
(R153). -/
def Obligations.PixelsAreCorrected : Prop :=
  (∀ (g : Geometry) (grid : List Nat) (c : Corrector) (offset : Nat) (bytes : List Byte) (dark : Option (List Byte)),
    bytes.length % 2 = 0 → (∀ d, dark = some d → d.length = bytes.length) →
    let o := correctBytes g grid c offset bytes dark
    let n := bytes.length / 2
    let value (l : List Byte) (i : Nat) : Nat := leNat (slice (2 * i) 2 l)
    let x (i : Nat) : Nat := (offset / 2 + i) % g.width
    let y (i : Nat) : Nat := (offset / 2 + i) / g.width
    let channel (i : Nat) : Nat :=
      match channelOf g.cfa (x i) (y i) with
      | .r => 0
      | .gr => 1
      | .gb => 2
      | .b => 3
    let gain (i : Nat) : Nat := grid.getD ((y i * 24 / g.height * 32 + x i * 32 / g.width) * 4 + channel i) 0
    let pixel (i : Nat) : Corrected := correctPixel c (gain i) (dark.map fun d => value d i) (value bytes i)
    o.bytes.length = bytes.length ∧ (∀ i < n, slice (2 * i) 2 o.bytes = leBytes 2 (pixel i).value) ∧
      o.low = ((List.range n).filter fun i => (pixel i).low).length ∧
      o.high = ((List.range n).filter fun i => (pixel i).high).length) ∧
  (∀ (tables : Tables) (levels : List (Nat × Nat)) (pedestal gain black threshold : Nat) (u : Option DarkUse),
    tables.blackSat = some levels → levels[gain]? = some (black, threshold) →
    let c := tables.corrector pedestal gain u
    c.black = black ∧ c.threshold = threshold ∧ c.pedestal = pedestal ∧
      (∀ use other, u = some use → levels[use.gain]? = some other → c.darkBlack = other.1 ∧ c.k = use.k)) ∧
  (∀ (a : Pass),
    a.corrector.black = a.black ∧ a.corrector.threshold = a.threshold ∧ a.corrector.pedestal = a.pedestal ∧
      a.corrector.darkBlack = a.darkBlack ∧ (∀ use, a.dark = some use → a.corrector.k = use.k)) ∧
  ∀ (c : Corrector) (gain r : Nat) (d : Option Nat),
    let o := correctPixel c gain d r
    (c.threshold ≤ r → o = ⟨65535, false, false⟩) ∧
    (r < c.threshold →
      ∃ ds out : Int,
        (d = none → ds = 0) ∧
        (∀ v, d = some v →
          (0 ≤ ds ∧ ((v : Int) - c.darkBlack) * c.k + 8192 < 16384 * (ds + 1)) ∧
          (0 < ds → 16384 * ds ≤ ((v : Int) - c.darkBlack) * c.k + 8192)) ∧
        (4096 * (out - c.pedestal) ≤ ((r : Int) - c.black - ds) * gain + 2048 ∧
          ((r : Int) - c.black - ds) * gain + 2048 < 4096 * (out - c.pedestal + 1)) ∧
        (out < 0 → o = ⟨0, true, false⟩) ∧ (65535 < out → o = ⟨65535, false, true⟩) ∧
        (0 ≤ out → out ≤ 65535 → (o.value : Int) = out ∧ o.low = false ∧ o.high = false))

/-- Tier 2. The scale factor (R116), the gap list (R133), repair (R158, R159, R160) and averages (R176): Δ is the difference of
the temperatures limited to -8..8, 0 with one absent; the factor for Δ is scaled by the ratio of the times in parts of 16384
rounded with floor(T_d / 2), and K is the product in parts of 16384, rounded, at most 65535; it lies within 4,096 and 65,534 for
inputs in their ranges and is the factor itself for equal times; an ascending gap list stays one of at most 8; of a pixel's
neighbours, two columns or two rows away and so of its own colour, a repair takes those inside the frame and in no list: a
column's pixel its horizontal ones, a single its horizontal or, without any, its vertical ones. The repairs visit every row of
each listed column, then each listed single, once each, in order. The rounded average is the nearest integer. -/
def Obligations.DevelopmentArithmetic : Prop :=
  (∀ a b : Int, tempDelta (some a) (some b) = max (-8) (min 8 (a - b)) ∧ tempDelta none (some b) = 0 ∧ tempDelta (some a) none = 0) ∧
  (∀ (factors : List Nat) (ts td ratio v : Nat) (delta : Int) (i : Nat), 0 < td → (i : Int) = delta + 8 →
    td * ratio ≤ ts * 16384 + td / 2 → ts * 16384 + td / 2 < td * (ratio + 1) →
    16384 * v ≤ ratio * factors.getD i 0 + 8192 → ratio * factors.getD i 0 + 8192 < 16384 * (v + 1) →
    scaleFactor factors ts td delta = if v ≤ 65535 then v else 65535) ∧
  (∀ (factors : List Nat) (ts td : Nat) (delta : Int), 0 < td → td ≤ 2 * ts → ts ≤ 2 * td → factors.length = 17 →
    (∀ f ∈ factors, 8192 ≤ f ∧ f ≤ 32767) → -8 ≤ delta → delta ≤ 8 →
    4096 ≤ scaleFactor factors ts td delta ∧ scaleFactor factors ts td delta ≤ 65534 ∧
      (ts = td → scaleFactor factors ts td delta = factors.getD (delta + 8).toNat 0)) ∧
  (∀ (gaps : List (Nat × Nat)) (a b : Nat), gaps.length ≤ 8 → (∀ g ∈ gaps, g.1 < g.2 ∧ g.2 ≤ a) →
    gaps.Pairwise (fun g h => g.2 ≤ h.1) → a < b →
    (addGap gaps (a, b)).length ≤ 8 ∧ (∀ g ∈ addGap gaps (a, b), g.1 < g.2 ∧ g.2 ≤ b) ∧
      (addGap gaps (a, b)).Pairwise (fun g h => g.2 ≤ h.1) ∧
      (∀ o, ((∃ g ∈ gaps, g.1 ≤ o ∧ o < g.2) ∨ (a ≤ o ∧ o < b)) → ∃ g ∈ addGap gaps (a, b), g.1 ≤ o ∧ o < g.2)) ∧
  (∀ (g : Geometry) (d : Defective) (l : RepairList) (r : Repair), l.next g d = some r → ∀ n ∈ r.from_,
    n.1 < g.width ∧ n.2 < g.height ∧ n.1 ∉ d.columns ∧ n ∉ d.singles ∧ channelOf g.cfa n.1 n.2 = channelOf g.cfa r.x r.y ∧
      ((n.2 = r.y ∧ (n.1 + 2 = r.x ∨ n.1 = r.x + 2)) ∨ (n.1 = r.x ∧ (n.2 + 2 = r.y ∨ n.2 = r.y + 2)))) ∧
  (∀ (g : Geometry) (d : Defective),
    let ok (n : Nat × Nat) : Bool :=
      decide (n.1 < g.width) && decide (n.2 < g.height) && !d.columns.contains n.1 && !d.singles.contains n
    let beside (x y : Nat) : List (Nat × Nat) := ((if 2 ≤ x then [(x - 2, y)] else []) ++ [(x + 2, y)]).filter ok
    let above (x y : Nat) : List (Nat × Nat) := ((if 2 ≤ y then [(x, y - 2)] else []) ++ [(x, y + 2)]).filter ok
    let single (x y : Nat) : Repair := ⟨x, y, if beside x y = [] then above x y else beside x y⟩
    ∀ (columns : List Nat) (singles : List (Nat × Nat)), 0 < g.height →
      let left (k : Nat) : RepairList := (List.range k).foldl (fun l _ => l.advance g) ⟨columns, 0, singles⟩
      (∀ i x y, columns[i]? = some x → y < g.height → (left (i * g.height + y)).next g d = some ⟨x, y, beside x y⟩) ∧
      (∀ i x y, singles[i]? = some (x, y) → (left (columns.length * g.height + i)).next g d = some (single x y)) ∧
      left (columns.length * g.height + singles.length) = ⟨[], 0, []⟩ ∧ RepairList.next g d ⟨[], 0, []⟩ = none) ∧
  (∀ sum n : Nat, 0 < n → 2 * sum < n * (2 * average sum n + 1) ∧ n * (2 * average sum n) ≤ 2 * sum + n)

/-- Tier 2. The ends of the stages and of the pass (R152, R156, R161 to R164, R192): stage 1's writes CORRECTED and its clamps;
stage 3's the count of repairs; at the end of stage 4 the shot is DEVELOPED with its histogram, saturated count and file
sectors, its number leaves the head of the queue, and the next shot's pass begins with the values in force (R153), a RAW one in
stage 1 past its first gaps, a CORRECTED one in stage 2 or 3. The refcount of the dark it names falls by one (R113, R114): a
transient one at 0 is freed, and so is a library entry at 0 that the library's size has no room for (R111); DEVELOPED is
emitted, after the SLOT_RELEASED of a dark so freed (log entries 38 and 43); a STORE WAITING for the shot is QUEUED, and a
request may start. -/
def Obligations.PassStagesEnd : Prop :=
  (∀ (a : Pass) (s : State), s.part.dpe.pass = some a → a.stage = 1 → s.part.geo.width * s.part.geo.height * 2 ≤ a.pos →
    ∃ q, exec .stage1End s = .next
        { s with
          part :=
            { s.part with
              dpe := { s.part.dpe with pass := some q }
              sht :=
                { s.part.sht with
                  records :=
                    s.part.sht.records.map fun y =>
                      if y.number = a.shot then
                        { y with
                          progress := { y.progress with correction := some .corrected, lowClamps := a.low, highClamps := a.high } }
                      else y } } } ∧
      q.shot = a.shot ∧
      (a.gaps = [] →
        q.stage = 3 ∧ q.beats = [] ∧ q.repairs = ⟨a.columns, 0, a.defects.filter fun d => !a.columns.contains d.1⟩) ∧
      (a.gaps ≠ [] → q.stage = 2 ∧ q.gapsLeft = a.gaps ∧ a.gaps.head?.map Prod.fst = some q.pos)) ∧
  (∀ (a : Pass) (s : State), s.part.dpe.pass = some a → a.stage = 3 → a.repairs.columns = [] → a.repairs.singles = [] →
    exec .stage3End s = .next
      { s with
        part :=
          { s.part with
            dpe := { s.part.dpe with pass := some { a with stage := 4, pos := 0 } }
            sht :=
              { s.part.sht with
                records :=
                  s.part.sht.records.map fun y =>
                    if y.number = a.shot then { y with progress := { y.progress with repaired := a.repaired } } else y } } }) ∧
  (∀ (a : Pass) (x : Shot) (rest : List Word) (s : State), s.part.dpe.pass = some a → a.stage = 4 →
    s.part.geo.width * s.part.geo.height * 2 ≤ a.pos → s.part.shot? a.shot = some x → s.part.dpe.queue = a.shot :: rest →
    a.shot ∉ rest →
    ∃ t y, exec .passEnd s = .next t ∧ t.mem = s.mem ∧ t.pending = s.pending ∧ t.part.shot? a.shot = some y ∧
      (s.part.requestFor a.shot = none → y.state = .developed) ∧ y.exposure = x.exposure ∧
      y.progress.histogram = a.histogram ∧ y.progress.saturated = a.full - x.progress.highClamps ∧
      y.progress.fileSectors = some (8 + (s.part.geo.width * s.part.geo.height * 2 + 511) / 512 + 1) ∧
      t.part.dpe.queue = rest ∧ (rest = [] → t.part.dpe.pass = none) ∧
      (∀ n tail z, rest = n :: tail → s.part.shot? n = some z →
        ∃ q, t.part.dpe.pass = some q ∧ q.shot = n ∧ q.slot = z.slot ∧ q.gain = z.arming.gain ∧ q.gaps = z.progress.gaps ∧
          q.grid = s.part.cal.tables.gainGrid.getD [] ∧ q.pedestal = s.part.dfl.policy.pedestal ∧
          q.defects = s.part.cal.tables.defects.filter (fun d => decide (d.1 < s.part.geo.width) && decide (d.2 < s.part.geo.height)) ∧
          q.columns = s.part.cal.tables.columns.filter (fun c => decide (c < s.part.geo.width)) ∧
          q.low = 0 ∧ q.high = 0 ∧ q.repaired = 0 ∧ q.full = 0 ∧ q.histogram = List.replicate 64 0 ∧ q.raw = none ∧ q.out = none ∧
          (∀ levels, s.part.cal.tables.blackSat = some levels →
            (∀ b, levels[z.arming.gain]? = some b → q.black = b.1 ∧ q.threshold = b.2) ∧
            (∀ use b, q.dark = some use → levels[use.gain]? = some b → q.darkBlack = b.1)) ∧
          ((z.progress.dark = none ∨ ∃ r, z.progress.dark = some (.none r) ∨ z.progress.dark = some (.skipped r)) → q.dark = none) ∧
          (∀ id k e, z.progress.dark = some (.library id k) ∨ z.progress.dark = some (.capture (.entry id) (some k)) →
            t.part.dfl.entries.find? (fun e => decide (e.id = id)) = some e → q.dark = some ⟨e.slot, e.gain, k⟩) ∧
          (∀ k e, z.progress.dark = some (.capture .transient (some k)) →
            t.part.dfl.transients.find? (fun e => decide (e.origin = n)) = some e → q.dark = some ⟨e.slot, e.gain, k⟩) ∧
          (z.progress.correction ≠ some .corrected → q.stage = 1 ∧ (q.pos, q.gapsLeft) = skipGaps 0 q.gaps) ∧
          (z.progress.correction = some .corrected → q.gaps ≠ [] → q.stage = 2 ∧ q.gapsLeft = q.gaps) ∧
          (z.progress.correction = some .corrected → q.gaps = [] →
            q.stage = 3 ∧ q.repairs = ⟨q.columns, 0, q.defects.filter fun d => !q.columns.contains d.1⟩)) ∧
      ∃ u : Part, t.part = u.choose ∧
        (let dark := x.progress.dark
        let dfl := s.part.dfl
        let developed (p : Part) : Prop :=
          u.cpa =
            (Part.emit .developed a.shot [natWord (8 + (s.part.geo.width * s.part.geo.height * 2 + 511) / 512 + 1)] p).cpa
        let freed (d : Dark) : Prop :=
          developed (Part.emit .slotReleased d.origin [natWord d.slot, 1] s.part.statusDirty) ∧
            u.sht.slots = s.part.sht.slots.set d.slot .free
        (s.part.requestFor a.shot = none → u.cde = s.part.cde) ∧
        (∀ r, s.part.requestFor a.shot = some r →
          u.cde =
            { s.part.cde with
              requests :=
                s.part.cde.requests.map fun z => if z.id = r.id ∧ r.state = .waiting then { z with state := .queued } else z }) ∧
        ((∀ id k, dark ≠ some (.library id k)) → (∀ ref k, dark ≠ some (.capture ref (some k))) → developed s.part ∧ u.dfl = dfl) ∧
        (∀ id k d, dark = some (.library id k) ∨ dark = some (.capture (.entry id) (some k)) →
          dfl.entries.find? (fun e => decide (e.id = id)) = some d →
          let lowered := dfl.entries.map fun e => if e.id = id then { e with refs := e.refs - 1 } else e
          (2 ≤ d.refs ∨ dfl.entries.length ≤ dfl.policy.size → developed s.part ∧ u.dfl = { dfl with entries := lowered }) ∧
          (d.refs ≤ 1 → dfl.policy.size < dfl.entries.length →
            freed d ∧ u.dfl = { dfl with entries := lowered.erase { d with refs := d.refs - 1 } })) ∧
        (∀ k d, dark = some (.capture .transient (some k)) → dfl.transients.find? (fun e => decide (e.origin = a.shot)) = some d →
          d.refs ≤ 1 →
          freed d ∧ u.dfl = { dfl with transients := dfl.transients.filter fun e => decide (e.origin ≠ a.shot) })))
end

