-- ==== Sys2Proof/Laws/Commands.lean ====
section
/-! SUPPORT. The command path: what taking a host command and ending it do, and what the CPA's shared operations leave alone. -/

namespace Sys2Proof.Machine

/-! ## The CPA's shared operations change the CPA only -/

/-- A queued write is the last one; nothing else changes. -/
theorem Part.pushWrite_eq (x : CpaWrite) (p : Part) :
    p.pushWrite x = { p with cpa := { p.cpa with writes := p.cpa.writes ++ [x] } } := rfl

/-- What a change of a status item does: nothing before the capacity is known or with a status write queued, else one write. -/
theorem Part.statusDirty_cases (p : Part) :
    p.statusDirty = p ∨ p.statusDirty = { p with cpa := { p.cpa with writes := p.cpa.writes ++ [.status []] } } := by
  unfold Part.statusDirty
  split
  · split
    · exact .inl rfl
    · exact .inr rfl
  · exact .inl rfl

/-- A status write joins the queue and nothing else changes. -/
theorem Part.statusDirty_frame (p : Part) : p.statusDirty = { p with cpa := { p.cpa with writes := p.statusDirty.cpa.writes } } := by
  rcases p.statusDirty_cases with h | h <;> rw [h]

/-- An event handed over: disabled, dropped or accepted (R29). -/
theorem Part.emitEvent_cases (e : Event) (p : Part) :
    p.emitEvent e = p ∨
      (p.cpa.unconsumed = Config.ringRecords ∧ p.emitEvent e = Part.statusDirty { p with cpa := { p.cpa with dropped := true } }) ∨
      (p.cpa.unconsumed ≠ Config.ringRecords ∧ p.emitEvent e = p.acceptEvent e) := by
  unfold Part.emitEvent
  split
  · split
    · split
      · exact .inl rfl
      · exact .inr (.inl ⟨‹_›, rfl⟩)
    · exact .inr (.inr ⟨‹_›, rfl⟩)
  · exact .inl rfl

/-- An event handed over changes the CPA only: its queue, the ring's producer side and the events-dropped flag. -/
theorem Part.emitEvent_frame (e : Event) (p : Part) :
    p.emitEvent e =
      { p with
        cpa :=
          { p.cpa with
            writes := (p.emitEvent e).cpa.writes, events := (p.emitEvent e).cpa.events
            eventBusy := (p.emitEvent e).cpa.eventBusy, producer := (p.emitEvent e).cpa.producer
            dropped := (p.emitEvent e).cpa.dropped } } := by
  rcases p.emitEvent_cases e with h | ⟨-, h⟩ | ⟨-, h⟩
  · rw [h]
  · rw [h, Part.statusDirty_frame]
  · rw [h]; unfold Part.acceptEvent; split <;> rfl

theorem Part.emitAt_frame (time : Word) (kind : EventKind) (shot : Word) (data : List Word) (p : Part) :
    p.emitAt time kind shot data =
      { p with
        cpa :=
          { p.cpa with
            writes := (p.emitAt time kind shot data).cpa.writes, events := (p.emitAt time kind shot data).cpa.events
            eventBusy := (p.emitAt time kind shot data).cpa.eventBusy, producer := (p.emitAt time kind shot data).cpa.producer
            dropped := (p.emitAt time kind shot data).cpa.dropped } } := Part.emitEvent_frame _ p

/-- The end of a command in a slot changes the slot and the CPA's queue only. -/
theorem Part.endCommand_frame (n : Fin 8) (cls : ResultClass) (code : ResultCode) (data : List Word) (p : Part) :
    p.endCommand n cls code data =
      { p with
        cpa :=
          { p.cpa with
            slots := (p.endCommand n cls code data).cpa.slots, writes := (p.endCommand n cls code data).cpa.writes } } := by
  unfold Part.endCommand
  split
  · rfl
  · split <;> rfl

/-- Work on the queue with its choice (R192): the work alone where the queue stays as it was, else the work and one choice. -/
theorem Part.choosing_cases (work : Part → Part) (p : Part) :
    ((work p).cde.requests = p.cde.requests ∧ Part.choosing work p = work p) ∨
      ((work p).cde.requests ≠ p.cde.requests ∧ Part.choosing work p = (work p).choose) := by
  unfold Part.choosing
  by_cases h : (work p).cde.requests = p.cde.requests
  · exact .inl ⟨h, if_pos h⟩
  · exact .inr ⟨h, if_neg h⟩

/-! ## The extent lists of the CDE (R190) -/

/-- Bytes returned go to the first list that still wants some. -/
theorem growList_first (bytes : List Byte) {before after : List ListRead} {l : ListRead}
    (hb : ∀ x ∈ before, listBytes x.count ≤ x.got.length) (hl : l.got.length < listBytes l.count) :
    growList bytes (before ++ l :: after) = before ++ { l with got := l.got ++ bytes } :: after := by
  induction before with
  | nil => simp [growList, hl]
  | cons x xs ih =>
    have hx : ¬ x.got.length < listBytes x.count := Nat.not_lt.mpr (hb x (by simp))
    simp only [List.cons_append, growList, hx, if_false]
    rw [ih fun y hy => hb y (by simp [hy])]

/-- The list the CDE reads is the first that still wants bytes. -/
theorem Cde.openList_first {c : Cde} {before after : List ListRead} {l : ListRead} (hc : c.listReads = before ++ l :: after)
    (hb : ∀ x ∈ before, listBytes x.count ≤ x.got.length) (hl : l.got.length < listBytes l.count) : c.openList = some l := by
  have hnone : before.find? (fun l => Nat.blt l.got.length (listBytes l.count)) = none := by
    rw [List.find?_eq_none]
    intro x hx
    have := hb x hx
    simp [Nat.blt]
    omega
  have hthis : Nat.blt l.got.length (listBytes l.count) = true := by
    simp [Nat.blt]
    omega
  rw [Cde.openList, hc, List.find?_append, hnone]
  simp [hthis]

/-! ## Taking and ending a host command -/

/-- The fields of the part other than the CPA do not matter to where a command stands in its slot. -/
theorem Part.taken_cpa (v : Verb) (w : SlotWrite) (p : Part) :
    (p.taken v w).cpa = { p.cpa with slots := p.cpa.slots.set w.slot (p.holding v w false) } := rfl

@[simp] theorem Part.taken_slot (v : Verb) (w : SlotWrite) (p : Part) : (p.taken v w).cpa.slots[w.slot] = p.holding v w false := by
  simp [Part.taken]

@[simp] theorem Part.taken_cmdIn (v : Verb) (w : SlotWrite) (p : Part) :
    (p.taken v w).cmdIn w.slot = some ⟨some v, w.tag, p.words w, false, false⟩ := by
  simp [Part.cmdIn, Part.taken, Part.holding]

/-- A host write whose verb is taken hands the owner the argument words and the part with the command in its slot. -/
theorem Part.hostVerb_takes {v : Verb} {w : SlotWrite} {p : Part} (body : Fin 8 → List Word → Part → Part) (h : p.takes v w) :
    p.hostVerb v body w = body w.slot (p.words w) ((p.taken v w).entered v) := by
  obtain ⟨h1, h2, h3, h4, h5⟩ := h
  have hset : (p.noteWrite w).latch (some v) w.slot = p.taken v w := by
    simp [Part.noteWrite, Part.latch, Part.setCmd, Part.taken, Part.holding, Part.words]
  have hcmd : (p.noteWrite w).cmdIn w.slot = none := by simpa [Part.cmdIn, Part.noteWrite] using h2
  have hargs : (p.noteWrite w).cpa.slots[w.slot].args = p.words w := by simp [Part.noteWrite, Part.words]
  have hmode : (p.taken v w).cpa.mode = p.cpa.mode := rfl
  have hres : (p.taken v w).cpa.resetting = p.cpa.resetting := rfl
  have hmiss : (p.taken v w).missing = p.missing := rfl
  have hg : (p.cpa.resetting.isSome && !v.duringReset) = false := by
    rcases h4 with h4 | h4 <;> simp [h4]
  unfold Part.hostVerb
  simp only [h1, if_true, hcmd]
  unfold Part.takeVerb Part.gate Part.entered
  rw [hset, hargs, hmode, hres, hmiss]
  simp only [h3, Bool.not_true, Bool.false_eq_true, if_false, hg]
  by_cases hs : (v.isShot && decide (p.cpa.mode = .service)) = true
  · simp only [Bool.and_eq_true, decide_eq_true_eq] at hs
    simp [hs.1, hs.2, h5 hs.1 hs.2]
  · simp [hs]

/-- A command just taken ends: the part is answered. -/
theorem Part.taken_endCommand (v : Verb) (w : SlotWrite) (cls : ResultClass) (code : ResultCode) (data : List Word) (p : Part)
    (hd : data.length ≤ 24) : (p.taken v w).endCommand w.slot cls code data = p.answered v w cls code data := by
  unfold Part.endCommand
  rw [Part.taken_cmdIn]
  simp only [Bool.false_eq_true, if_false, List.take_of_length_le hd, Part.setCmd, Part.pushWrite, Part.answered,
    Part.taken_slot]
  simp [Part.taken, Part.holding]

theorem Part.taken_statusDirty (v : Verb) (w : SlotWrite) (p : Part) : (p.taken v w).statusDirty = p.statusDirty.taken v w := by
  unfold Part.statusDirty
  by_cases h : p.phase = .resetWrites ∨ p.phase = .running
  · by_cases hw : p.cpa.writes.any CpaWrite.isStatus = true
    · simp only [Part.taken, h, hw, if_true]
    · simp only [Part.taken, h, hw, if_true, Part.pushWrite]; rfl
  · simp only [Part.taken, h, if_false]

theorem Part.taken_emitEvent (v : Verb) (w : SlotWrite) (e : Event) (p : Part) :
    (p.taken v w).emitEvent e = (p.emitEvent e).taken v w := by
  unfold Part.emitEvent
  show (if p.cpa.mask.getLsbD (e.kind.code - 1) then
      if p.cpa.unconsumed = Config.ringRecords then
        if p.cpa.dropped then p.taken v w
        else Part.statusDirty (Part.taken v w { p with cpa := { p.cpa with dropped := true } })
      else (p.taken v w).acceptEvent e else p.taken v w) = _
  split
  · split
    · split
      · rfl
      · exact Part.taken_statusDirty v w _
    · unfold Part.acceptEvent
      show (if p.cpa.eventBusy then _ else _) = _
      split <;> rfl
  · rfl

theorem Part.taken_emit (v : Verb) (w : SlotWrite) (k : EventKind) (shot : Word) (data : List Word) (p : Part) :
    (p.taken v w).emit k shot data = (p.emit k shot data).taken v w := Part.taken_emitEvent v w _ p

/-- Fixing the slot count looks at nothing of a slot. -/
theorem Part.taken_fixSlots (v : Verb) (w : SlotWrite) (p : Part) : (p.taken v w).fixSlots = p.fixSlots.taken v w := by
  have h1 : (p.taken v w).sht = p.sht := rfl
  have h2 : (p.taken v w).pts = p.pts := rfl
  unfold Part.fixSlots
  rw [h1, h2]
  rcases p.sht.layout with - | l
  · rcases p.pts.geometry with - | g
    · rfl
    · rcases p.pts.windowOf .frameStore with - | x
      · rfl
      · exact Part.taken_statusDirty v w
          { p with sht := { p.sht with layout := some ⟨x.base, g.slotSize⟩, slots := List.replicate (g.slotsIn x.size) .free } }
  · rfl

theorem Part.taken_entered (v : Verb) (w : SlotWrite) (p : Part) : (p.taken v w).entered v = (p.entered v).taken v w := by
  unfold Part.entered
  show (if v.isShot && decide (p.cpa.mode = .service) then (p.taken v w).fixSlots else p.taken v w) = _
  split
  · exact Part.taken_fixSlots v w p
  · rfl

/-- The verb's owner finds the command in its slot and, for a first shot command in SERVICE, the slot count fixed. -/
theorem Part.hostVerb_entered {v : Verb} {w : SlotWrite} {p : Part} (body : Fin 8 → List Word → Part → Part) (h : p.takes v w) :
    p.hostVerb v body w = body w.slot (p.words w) ((p.entered v).taken v w) := by
  rw [Part.hostVerb_takes body h, Part.taken_entered]

end Sys2Proof.Machine
end

