-- ==== Sys2Proof/Laws/State.lean ====
section
/-! SUPPORT. What the named updates of a part leave as it was, one lemma per field, for simp; and the CPA's shared operations,
which change the CPA only (Laws/Commands.lean says what they change there). -/

namespace Sys2Proof.Machine

/-! ## States -/

@[simp] theorem State.onPart_eq (f : Part → Part) (s : State) : s.onPart f = .next { s with part := f s.part } := rfl

/-! ## Updates of one component: true by definition -/

@[simp] theorem Part.pushWrite_phase (w : CpaWrite) (p : Part) : (p.pushWrite w).phase = p.phase := rfl
@[simp] theorem Part.pushWrite_clock (w : CpaWrite) (p : Part) : (p.pushWrite w).clock = p.clock := rfl
@[simp] theorem Part.pushWrite_pts (w : CpaWrite) (p : Part) : (p.pushWrite w).pts = p.pts := rfl
@[simp] theorem Part.pushWrite_port (w : CpaWrite) (p : Part) : (p.pushWrite w).port = p.port := rfl
@[simp] theorem Part.pushWrite_cal (w : CpaWrite) (p : Part) : (p.pushWrite w).cal = p.cal := rfl
@[simp] theorem Part.pushWrite_sht (w : CpaWrite) (p : Part) : (p.pushWrite w).sht = p.sht := rfl
@[simp] theorem Part.pushWrite_esu (w : CpaWrite) (p : Part) : (p.pushWrite w).esu = p.esu := rfl
@[simp] theorem Part.pushWrite_dfl (w : CpaWrite) (p : Part) : (p.pushWrite w).dfl = p.dfl := rfl
@[simp] theorem Part.pushWrite_icr (w : CpaWrite) (p : Part) : (p.pushWrite w).icr = p.icr := rfl
@[simp] theorem Part.pushWrite_dpe (w : CpaWrite) (p : Part) : (p.pushWrite w).dpe = p.dpe := rfl
@[simp] theorem Part.pushWrite_prn (w : CpaWrite) (p : Part) : (p.pushWrite w).prn = p.prn := rfl
@[simp] theorem Part.pushWrite_cde (w : CpaWrite) (p : Part) : (p.pushWrite w).cde = p.cde := rfl
@[simp] theorem Part.pushWrite_tsm (w : CpaWrite) (p : Part) : (p.pushWrite w).tsm = p.tsm := rfl

@[simp] theorem Part.statusFor_phase (n : Fin 8) (p : Part) : (p.statusFor n).phase = p.phase := rfl
@[simp] theorem Part.statusFor_clock (n : Fin 8) (p : Part) : (p.statusFor n).clock = p.clock := rfl
@[simp] theorem Part.statusFor_pts (n : Fin 8) (p : Part) : (p.statusFor n).pts = p.pts := rfl
@[simp] theorem Part.statusFor_port (n : Fin 8) (p : Part) : (p.statusFor n).port = p.port := rfl
@[simp] theorem Part.statusFor_cal (n : Fin 8) (p : Part) : (p.statusFor n).cal = p.cal := rfl
@[simp] theorem Part.statusFor_sht (n : Fin 8) (p : Part) : (p.statusFor n).sht = p.sht := rfl
@[simp] theorem Part.statusFor_esu (n : Fin 8) (p : Part) : (p.statusFor n).esu = p.esu := rfl
@[simp] theorem Part.statusFor_dfl (n : Fin 8) (p : Part) : (p.statusFor n).dfl = p.dfl := rfl
@[simp] theorem Part.statusFor_icr (n : Fin 8) (p : Part) : (p.statusFor n).icr = p.icr := rfl
@[simp] theorem Part.statusFor_dpe (n : Fin 8) (p : Part) : (p.statusFor n).dpe = p.dpe := rfl
@[simp] theorem Part.statusFor_prn (n : Fin 8) (p : Part) : (p.statusFor n).prn = p.prn := rfl
@[simp] theorem Part.statusFor_cde (n : Fin 8) (p : Part) : (p.statusFor n).cde = p.cde := rfl
@[simp] theorem Part.statusFor_tsm (n : Fin 8) (p : Part) : (p.statusFor n).tsm = p.tsm := rfl

@[simp] theorem Part.updateIrq_phase (p : Part) : (p.updateIrq).phase = p.phase := rfl
@[simp] theorem Part.updateIrq_clock (p : Part) : (p.updateIrq).clock = p.clock := rfl
@[simp] theorem Part.updateIrq_pts (p : Part) : (p.updateIrq).pts = p.pts := rfl
@[simp] theorem Part.updateIrq_port (p : Part) : (p.updateIrq).port = p.port := rfl
@[simp] theorem Part.updateIrq_cal (p : Part) : (p.updateIrq).cal = p.cal := rfl
@[simp] theorem Part.updateIrq_sht (p : Part) : (p.updateIrq).sht = p.sht := rfl
@[simp] theorem Part.updateIrq_esu (p : Part) : (p.updateIrq).esu = p.esu := rfl
@[simp] theorem Part.updateIrq_dfl (p : Part) : (p.updateIrq).dfl = p.dfl := rfl
@[simp] theorem Part.updateIrq_icr (p : Part) : (p.updateIrq).icr = p.icr := rfl
@[simp] theorem Part.updateIrq_dpe (p : Part) : (p.updateIrq).dpe = p.dpe := rfl
@[simp] theorem Part.updateIrq_prn (p : Part) : (p.updateIrq).prn = p.prn := rfl
@[simp] theorem Part.updateIrq_cde (p : Part) : (p.updateIrq).cde = p.cde := rfl
@[simp] theorem Part.updateIrq_tsm (p : Part) : (p.updateIrq).tsm = p.tsm := rfl

@[simp] theorem Part.setCmd_phase (n : Fin 8) (c : Option Latched) (p : Part) : (p.setCmd n c).phase = p.phase := rfl
@[simp] theorem Part.setCmd_clock (n : Fin 8) (c : Option Latched) (p : Part) : (p.setCmd n c).clock = p.clock := rfl
@[simp] theorem Part.setCmd_pts (n : Fin 8) (c : Option Latched) (p : Part) : (p.setCmd n c).pts = p.pts := rfl
@[simp] theorem Part.setCmd_port (n : Fin 8) (c : Option Latched) (p : Part) : (p.setCmd n c).port = p.port := rfl
@[simp] theorem Part.setCmd_cal (n : Fin 8) (c : Option Latched) (p : Part) : (p.setCmd n c).cal = p.cal := rfl
@[simp] theorem Part.setCmd_sht (n : Fin 8) (c : Option Latched) (p : Part) : (p.setCmd n c).sht = p.sht := rfl
@[simp] theorem Part.setCmd_esu (n : Fin 8) (c : Option Latched) (p : Part) : (p.setCmd n c).esu = p.esu := rfl
@[simp] theorem Part.setCmd_dfl (n : Fin 8) (c : Option Latched) (p : Part) : (p.setCmd n c).dfl = p.dfl := rfl
@[simp] theorem Part.setCmd_icr (n : Fin 8) (c : Option Latched) (p : Part) : (p.setCmd n c).icr = p.icr := rfl
@[simp] theorem Part.setCmd_dpe (n : Fin 8) (c : Option Latched) (p : Part) : (p.setCmd n c).dpe = p.dpe := rfl
@[simp] theorem Part.setCmd_prn (n : Fin 8) (c : Option Latched) (p : Part) : (p.setCmd n c).prn = p.prn := rfl
@[simp] theorem Part.setCmd_cde (n : Fin 8) (c : Option Latched) (p : Part) : (p.setCmd n c).cde = p.cde := rfl
@[simp] theorem Part.setCmd_tsm (n : Fin 8) (c : Option Latched) (p : Part) : (p.setCmd n c).tsm = p.tsm := rfl

@[simp] theorem Part.noteWrite_phase (w : SlotWrite) (p : Part) : (p.noteWrite w).phase = p.phase := rfl
@[simp] theorem Part.noteWrite_clock (w : SlotWrite) (p : Part) : (p.noteWrite w).clock = p.clock := rfl
@[simp] theorem Part.noteWrite_pts (w : SlotWrite) (p : Part) : (p.noteWrite w).pts = p.pts := rfl
@[simp] theorem Part.noteWrite_port (w : SlotWrite) (p : Part) : (p.noteWrite w).port = p.port := rfl
@[simp] theorem Part.noteWrite_cal (w : SlotWrite) (p : Part) : (p.noteWrite w).cal = p.cal := rfl
@[simp] theorem Part.noteWrite_sht (w : SlotWrite) (p : Part) : (p.noteWrite w).sht = p.sht := rfl
@[simp] theorem Part.noteWrite_esu (w : SlotWrite) (p : Part) : (p.noteWrite w).esu = p.esu := rfl
@[simp] theorem Part.noteWrite_dfl (w : SlotWrite) (p : Part) : (p.noteWrite w).dfl = p.dfl := rfl
@[simp] theorem Part.noteWrite_icr (w : SlotWrite) (p : Part) : (p.noteWrite w).icr = p.icr := rfl
@[simp] theorem Part.noteWrite_dpe (w : SlotWrite) (p : Part) : (p.noteWrite w).dpe = p.dpe := rfl
@[simp] theorem Part.noteWrite_prn (w : SlotWrite) (p : Part) : (p.noteWrite w).prn = p.prn := rfl
@[simp] theorem Part.noteWrite_cde (w : SlotWrite) (p : Part) : (p.noteWrite w).cde = p.cde := rfl
@[simp] theorem Part.noteWrite_tsm (w : SlotWrite) (p : Part) : (p.noteWrite w).tsm = p.tsm := rfl

@[simp] theorem Part.latch_phase (v : Option Verb) (n : Fin 8) (p : Part) : (p.latch v n).phase = p.phase := rfl
@[simp] theorem Part.latch_clock (v : Option Verb) (n : Fin 8) (p : Part) : (p.latch v n).clock = p.clock := rfl
@[simp] theorem Part.latch_pts (v : Option Verb) (n : Fin 8) (p : Part) : (p.latch v n).pts = p.pts := rfl
@[simp] theorem Part.latch_port (v : Option Verb) (n : Fin 8) (p : Part) : (p.latch v n).port = p.port := rfl
@[simp] theorem Part.latch_cal (v : Option Verb) (n : Fin 8) (p : Part) : (p.latch v n).cal = p.cal := rfl
@[simp] theorem Part.latch_sht (v : Option Verb) (n : Fin 8) (p : Part) : (p.latch v n).sht = p.sht := rfl
@[simp] theorem Part.latch_esu (v : Option Verb) (n : Fin 8) (p : Part) : (p.latch v n).esu = p.esu := rfl
@[simp] theorem Part.latch_dfl (v : Option Verb) (n : Fin 8) (p : Part) : (p.latch v n).dfl = p.dfl := rfl
@[simp] theorem Part.latch_icr (v : Option Verb) (n : Fin 8) (p : Part) : (p.latch v n).icr = p.icr := rfl
@[simp] theorem Part.latch_dpe (v : Option Verb) (n : Fin 8) (p : Part) : (p.latch v n).dpe = p.dpe := rfl
@[simp] theorem Part.latch_prn (v : Option Verb) (n : Fin 8) (p : Part) : (p.latch v n).prn = p.prn := rfl
@[simp] theorem Part.latch_cde (v : Option Verb) (n : Fin 8) (p : Part) : (p.latch v n).cde = p.cde := rfl
@[simp] theorem Part.latch_tsm (v : Option Verb) (n : Fin 8) (p : Part) : (p.latch v n).tsm = p.tsm := rfl

@[simp] theorem Part.taken_phase (v : Verb) (w : SlotWrite) (p : Part) : (p.taken v w).phase = p.phase := rfl
@[simp] theorem Part.taken_clock (v : Verb) (w : SlotWrite) (p : Part) : (p.taken v w).clock = p.clock := rfl
@[simp] theorem Part.taken_pts (v : Verb) (w : SlotWrite) (p : Part) : (p.taken v w).pts = p.pts := rfl
@[simp] theorem Part.taken_port (v : Verb) (w : SlotWrite) (p : Part) : (p.taken v w).port = p.port := rfl
@[simp] theorem Part.taken_cal (v : Verb) (w : SlotWrite) (p : Part) : (p.taken v w).cal = p.cal := rfl
@[simp] theorem Part.taken_sht (v : Verb) (w : SlotWrite) (p : Part) : (p.taken v w).sht = p.sht := rfl
@[simp] theorem Part.taken_esu (v : Verb) (w : SlotWrite) (p : Part) : (p.taken v w).esu = p.esu := rfl
@[simp] theorem Part.taken_dfl (v : Verb) (w : SlotWrite) (p : Part) : (p.taken v w).dfl = p.dfl := rfl
@[simp] theorem Part.taken_icr (v : Verb) (w : SlotWrite) (p : Part) : (p.taken v w).icr = p.icr := rfl
@[simp] theorem Part.taken_dpe (v : Verb) (w : SlotWrite) (p : Part) : (p.taken v w).dpe = p.dpe := rfl
@[simp] theorem Part.taken_prn (v : Verb) (w : SlotWrite) (p : Part) : (p.taken v w).prn = p.prn := rfl
@[simp] theorem Part.taken_cde (v : Verb) (w : SlotWrite) (p : Part) : (p.taken v w).cde = p.cde := rfl
@[simp] theorem Part.taken_tsm (v : Verb) (w : SlotWrite) (p : Part) : (p.taken v w).tsm = p.tsm := rfl

@[simp] theorem Part.answered_phase (v : Verb) (w : SlotWrite) (cls : ResultClass) (code : ResultCode) (data : List Word) (p : Part) : (p.answered v w cls code data).phase = p.phase := rfl
@[simp] theorem Part.answered_clock (v : Verb) (w : SlotWrite) (cls : ResultClass) (code : ResultCode) (data : List Word) (p : Part) : (p.answered v w cls code data).clock = p.clock := rfl
@[simp] theorem Part.answered_pts (v : Verb) (w : SlotWrite) (cls : ResultClass) (code : ResultCode) (data : List Word) (p : Part) : (p.answered v w cls code data).pts = p.pts := rfl
@[simp] theorem Part.answered_port (v : Verb) (w : SlotWrite) (cls : ResultClass) (code : ResultCode) (data : List Word) (p : Part) : (p.answered v w cls code data).port = p.port := rfl
@[simp] theorem Part.answered_cal (v : Verb) (w : SlotWrite) (cls : ResultClass) (code : ResultCode) (data : List Word) (p : Part) : (p.answered v w cls code data).cal = p.cal := rfl
@[simp] theorem Part.answered_sht (v : Verb) (w : SlotWrite) (cls : ResultClass) (code : ResultCode) (data : List Word) (p : Part) : (p.answered v w cls code data).sht = p.sht := rfl
@[simp] theorem Part.answered_esu (v : Verb) (w : SlotWrite) (cls : ResultClass) (code : ResultCode) (data : List Word) (p : Part) : (p.answered v w cls code data).esu = p.esu := rfl
@[simp] theorem Part.answered_dfl (v : Verb) (w : SlotWrite) (cls : ResultClass) (code : ResultCode) (data : List Word) (p : Part) : (p.answered v w cls code data).dfl = p.dfl := rfl
@[simp] theorem Part.answered_icr (v : Verb) (w : SlotWrite) (cls : ResultClass) (code : ResultCode) (data : List Word) (p : Part) : (p.answered v w cls code data).icr = p.icr := rfl
@[simp] theorem Part.answered_dpe (v : Verb) (w : SlotWrite) (cls : ResultClass) (code : ResultCode) (data : List Word) (p : Part) : (p.answered v w cls code data).dpe = p.dpe := rfl
@[simp] theorem Part.answered_prn (v : Verb) (w : SlotWrite) (cls : ResultClass) (code : ResultCode) (data : List Word) (p : Part) : (p.answered v w cls code data).prn = p.prn := rfl
@[simp] theorem Part.answered_cde (v : Verb) (w : SlotWrite) (cls : ResultClass) (code : ResultCode) (data : List Word) (p : Part) : (p.answered v w cls code data).cde = p.cde := rfl
@[simp] theorem Part.answered_tsm (v : Verb) (w : SlotWrite) (cls : ResultClass) (code : ResultCode) (data : List Word) (p : Part) : (p.answered v w cls code data).tsm = p.tsm := rfl

@[simp] theorem Part.putSlot_phase (n : Fin 8) (f : Slot → Slot) (p : Part) : (p.putSlot n f).phase = p.phase := rfl
@[simp] theorem Part.putSlot_clock (n : Fin 8) (f : Slot → Slot) (p : Part) : (p.putSlot n f).clock = p.clock := rfl
@[simp] theorem Part.putSlot_pts (n : Fin 8) (f : Slot → Slot) (p : Part) : (p.putSlot n f).pts = p.pts := rfl
@[simp] theorem Part.putSlot_port (n : Fin 8) (f : Slot → Slot) (p : Part) : (p.putSlot n f).port = p.port := rfl
@[simp] theorem Part.putSlot_cal (n : Fin 8) (f : Slot → Slot) (p : Part) : (p.putSlot n f).cal = p.cal := rfl
@[simp] theorem Part.putSlot_sht (n : Fin 8) (f : Slot → Slot) (p : Part) : (p.putSlot n f).sht = p.sht := rfl
@[simp] theorem Part.putSlot_esu (n : Fin 8) (f : Slot → Slot) (p : Part) : (p.putSlot n f).esu = p.esu := rfl
@[simp] theorem Part.putSlot_dfl (n : Fin 8) (f : Slot → Slot) (p : Part) : (p.putSlot n f).dfl = p.dfl := rfl
@[simp] theorem Part.putSlot_icr (n : Fin 8) (f : Slot → Slot) (p : Part) : (p.putSlot n f).icr = p.icr := rfl
@[simp] theorem Part.putSlot_dpe (n : Fin 8) (f : Slot → Slot) (p : Part) : (p.putSlot n f).dpe = p.dpe := rfl
@[simp] theorem Part.putSlot_prn (n : Fin 8) (f : Slot → Slot) (p : Part) : (p.putSlot n f).prn = p.prn := rfl
@[simp] theorem Part.putSlot_cde (n : Fin 8) (f : Slot → Slot) (p : Part) : (p.putSlot n f).cde = p.cde := rfl
@[simp] theorem Part.putSlot_tsm (n : Fin 8) (f : Slot → Slot) (p : Part) : (p.putSlot n f).tsm = p.tsm := rfl

@[simp] theorem Part.setEnded_phase (w : CpaWrite) (p : Part) : (p.setEnded w).phase = p.phase := rfl
@[simp] theorem Part.setEnded_clock (w : CpaWrite) (p : Part) : (p.setEnded w).clock = p.clock := rfl
@[simp] theorem Part.setEnded_pts (w : CpaWrite) (p : Part) : (p.setEnded w).pts = p.pts := rfl
@[simp] theorem Part.setEnded_port (w : CpaWrite) (p : Part) : (p.setEnded w).port = p.port := rfl
@[simp] theorem Part.setEnded_cal (w : CpaWrite) (p : Part) : (p.setEnded w).cal = p.cal := rfl
@[simp] theorem Part.setEnded_sht (w : CpaWrite) (p : Part) : (p.setEnded w).sht = p.sht := rfl
@[simp] theorem Part.setEnded_esu (w : CpaWrite) (p : Part) : (p.setEnded w).esu = p.esu := rfl
@[simp] theorem Part.setEnded_dfl (w : CpaWrite) (p : Part) : (p.setEnded w).dfl = p.dfl := rfl
@[simp] theorem Part.setEnded_icr (w : CpaWrite) (p : Part) : (p.setEnded w).icr = p.icr := rfl
@[simp] theorem Part.setEnded_dpe (w : CpaWrite) (p : Part) : (p.setEnded w).dpe = p.dpe := rfl
@[simp] theorem Part.setEnded_prn (w : CpaWrite) (p : Part) : (p.setEnded w).prn = p.prn := rfl
@[simp] theorem Part.setEnded_cde (w : CpaWrite) (p : Part) : (p.setEnded w).cde = p.cde := rfl
@[simp] theorem Part.setEnded_tsm (w : CpaWrite) (p : Part) : (p.setEnded w).tsm = p.tsm := rfl

@[simp] theorem Part.answer_phase (okay : Bool) (data : List Byte) (p : Part) : (p.answer okay data).phase = p.phase := rfl
@[simp] theorem Part.answer_clock (okay : Bool) (data : List Byte) (p : Part) : (p.answer okay data).clock = p.clock := rfl
@[simp] theorem Part.answer_port (okay : Bool) (data : List Byte) (p : Part) : (p.answer okay data).port = p.port := rfl
@[simp] theorem Part.answer_cpa (okay : Bool) (data : List Byte) (p : Part) : (p.answer okay data).cpa = p.cpa := rfl
@[simp] theorem Part.answer_cal (okay : Bool) (data : List Byte) (p : Part) : (p.answer okay data).cal = p.cal := rfl
@[simp] theorem Part.answer_sht (okay : Bool) (data : List Byte) (p : Part) : (p.answer okay data).sht = p.sht := rfl
@[simp] theorem Part.answer_esu (okay : Bool) (data : List Byte) (p : Part) : (p.answer okay data).esu = p.esu := rfl
@[simp] theorem Part.answer_dfl (okay : Bool) (data : List Byte) (p : Part) : (p.answer okay data).dfl = p.dfl := rfl
@[simp] theorem Part.answer_icr (okay : Bool) (data : List Byte) (p : Part) : (p.answer okay data).icr = p.icr := rfl
@[simp] theorem Part.answer_dpe (okay : Bool) (data : List Byte) (p : Part) : (p.answer okay data).dpe = p.dpe := rfl
@[simp] theorem Part.answer_prn (okay : Bool) (data : List Byte) (p : Part) : (p.answer okay data).prn = p.prn := rfl
@[simp] theorem Part.answer_cde (okay : Bool) (data : List Byte) (p : Part) : (p.answer okay data).cde = p.cde := rfl
@[simp] theorem Part.answer_tsm (okay : Bool) (data : List Byte) (p : Part) : (p.answer okay data).tsm = p.tsm := rfl

@[simp] theorem Part.setHead_phase (h : Head) (p : Part) : (p.setHead h).phase = p.phase := rfl
@[simp] theorem Part.setHead_clock (h : Head) (p : Part) : (p.setHead h).clock = p.clock := rfl
@[simp] theorem Part.setHead_port (h : Head) (p : Part) : (p.setHead h).port = p.port := rfl
@[simp] theorem Part.setHead_cpa (h : Head) (p : Part) : (p.setHead h).cpa = p.cpa := rfl
@[simp] theorem Part.setHead_cal (h : Head) (p : Part) : (p.setHead h).cal = p.cal := rfl
@[simp] theorem Part.setHead_sht (h : Head) (p : Part) : (p.setHead h).sht = p.sht := rfl
@[simp] theorem Part.setHead_esu (h : Head) (p : Part) : (p.setHead h).esu = p.esu := rfl
@[simp] theorem Part.setHead_dfl (h : Head) (p : Part) : (p.setHead h).dfl = p.dfl := rfl
@[simp] theorem Part.setHead_icr (h : Head) (p : Part) : (p.setHead h).icr = p.icr := rfl
@[simp] theorem Part.setHead_dpe (h : Head) (p : Part) : (p.setHead h).dpe = p.dpe := rfl
@[simp] theorem Part.setHead_prn (h : Head) (p : Part) : (p.setHead h).prn = p.prn := rfl
@[simp] theorem Part.setHead_cde (h : Head) (p : Part) : (p.setHead h).cde = p.cde := rfl
@[simp] theorem Part.setHead_tsm (h : Head) (p : Part) : (p.setHead h).tsm = p.tsm := rfl

@[simp] theorem Part.putWindow_phase (i : Fin 16) (w : Option Window) (p : Part) : (p.putWindow i w).phase = p.phase := rfl
@[simp] theorem Part.putWindow_clock (i : Fin 16) (w : Option Window) (p : Part) : (p.putWindow i w).clock = p.clock := rfl
@[simp] theorem Part.putWindow_port (i : Fin 16) (w : Option Window) (p : Part) : (p.putWindow i w).port = p.port := rfl
@[simp] theorem Part.putWindow_cpa (i : Fin 16) (w : Option Window) (p : Part) : (p.putWindow i w).cpa = p.cpa := rfl
@[simp] theorem Part.putWindow_cal (i : Fin 16) (w : Option Window) (p : Part) : (p.putWindow i w).cal = p.cal := rfl
@[simp] theorem Part.putWindow_sht (i : Fin 16) (w : Option Window) (p : Part) : (p.putWindow i w).sht = p.sht := rfl
@[simp] theorem Part.putWindow_esu (i : Fin 16) (w : Option Window) (p : Part) : (p.putWindow i w).esu = p.esu := rfl
@[simp] theorem Part.putWindow_dfl (i : Fin 16) (w : Option Window) (p : Part) : (p.putWindow i w).dfl = p.dfl := rfl
@[simp] theorem Part.putWindow_icr (i : Fin 16) (w : Option Window) (p : Part) : (p.putWindow i w).icr = p.icr := rfl
@[simp] theorem Part.putWindow_dpe (i : Fin 16) (w : Option Window) (p : Part) : (p.putWindow i w).dpe = p.dpe := rfl
@[simp] theorem Part.putWindow_prn (i : Fin 16) (w : Option Window) (p : Part) : (p.putWindow i w).prn = p.prn := rfl
@[simp] theorem Part.putWindow_cde (i : Fin 16) (w : Option Window) (p : Part) : (p.putWindow i w).cde = p.cde := rfl
@[simp] theorem Part.putWindow_tsm (i : Fin 16) (w : Option Window) (p : Part) : (p.putWindow i w).tsm = p.tsm := rfl

@[simp] theorem Part.dropEntry_phase (e : Dark) (p : Part) : (p.dropEntry e).phase = p.phase := rfl
@[simp] theorem Part.dropEntry_clock (e : Dark) (p : Part) : (p.dropEntry e).clock = p.clock := rfl
@[simp] theorem Part.dropEntry_pts (e : Dark) (p : Part) : (p.dropEntry e).pts = p.pts := rfl
@[simp] theorem Part.dropEntry_port (e : Dark) (p : Part) : (p.dropEntry e).port = p.port := rfl
@[simp] theorem Part.dropEntry_cpa (e : Dark) (p : Part) : (p.dropEntry e).cpa = p.cpa := rfl
@[simp] theorem Part.dropEntry_cal (e : Dark) (p : Part) : (p.dropEntry e).cal = p.cal := rfl
@[simp] theorem Part.dropEntry_sht (e : Dark) (p : Part) : (p.dropEntry e).sht = p.sht := rfl
@[simp] theorem Part.dropEntry_esu (e : Dark) (p : Part) : (p.dropEntry e).esu = p.esu := rfl
@[simp] theorem Part.dropEntry_icr (e : Dark) (p : Part) : (p.dropEntry e).icr = p.icr := rfl
@[simp] theorem Part.dropEntry_dpe (e : Dark) (p : Part) : (p.dropEntry e).dpe = p.dpe := rfl
@[simp] theorem Part.dropEntry_prn (e : Dark) (p : Part) : (p.dropEntry e).prn = p.prn := rfl
@[simp] theorem Part.dropEntry_cde (e : Dark) (p : Part) : (p.dropEntry e).cde = p.cde := rfl
@[simp] theorem Part.dropEntry_tsm (e : Dark) (p : Part) : (p.dropEntry e).tsm = p.tsm := rfl
@[simp] theorem Part.dropEntry_entries (e : Dark) (p : Part) : (p.dropEntry e).dfl.entries = p.dfl.entries.erase e := rfl

@[simp] theorem Part.setHolder_phase (slot : Nat) (h : Holder) (p : Part) : (p.setHolder slot h).phase = p.phase := rfl
@[simp] theorem Part.setHolder_clock (slot : Nat) (h : Holder) (p : Part) : (p.setHolder slot h).clock = p.clock := rfl
@[simp] theorem Part.setHolder_pts (slot : Nat) (h : Holder) (p : Part) : (p.setHolder slot h).pts = p.pts := rfl
@[simp] theorem Part.setHolder_port (slot : Nat) (h : Holder) (p : Part) : (p.setHolder slot h).port = p.port := rfl
@[simp] theorem Part.setHolder_cpa (slot : Nat) (h : Holder) (p : Part) : (p.setHolder slot h).cpa = p.cpa := rfl
@[simp] theorem Part.setHolder_cal (slot : Nat) (h : Holder) (p : Part) : (p.setHolder slot h).cal = p.cal := rfl
@[simp] theorem Part.setHolder_esu (slot : Nat) (h : Holder) (p : Part) : (p.setHolder slot h).esu = p.esu := rfl
@[simp] theorem Part.setHolder_dfl (slot : Nat) (h : Holder) (p : Part) : (p.setHolder slot h).dfl = p.dfl := rfl
@[simp] theorem Part.setHolder_icr (slot : Nat) (h : Holder) (p : Part) : (p.setHolder slot h).icr = p.icr := rfl
@[simp] theorem Part.setHolder_dpe (slot : Nat) (h : Holder) (p : Part) : (p.setHolder slot h).dpe = p.dpe := rfl
@[simp] theorem Part.setHolder_prn (slot : Nat) (h : Holder) (p : Part) : (p.setHolder slot h).prn = p.prn := rfl
@[simp] theorem Part.setHolder_cde (slot : Nat) (h : Holder) (p : Part) : (p.setHolder slot h).cde = p.cde := rfl
@[simp] theorem Part.setHolder_tsm (slot : Nat) (h : Holder) (p : Part) : (p.setHolder slot h).tsm = p.tsm := rfl

@[simp] theorem Part.modShot_phase (n : Word) (f : Shot → Shot) (p : Part) : (p.modShot n f).phase = p.phase := rfl
@[simp] theorem Part.modShot_clock (n : Word) (f : Shot → Shot) (p : Part) : (p.modShot n f).clock = p.clock := rfl
@[simp] theorem Part.modShot_pts (n : Word) (f : Shot → Shot) (p : Part) : (p.modShot n f).pts = p.pts := rfl
@[simp] theorem Part.modShot_port (n : Word) (f : Shot → Shot) (p : Part) : (p.modShot n f).port = p.port := rfl
@[simp] theorem Part.modShot_cpa (n : Word) (f : Shot → Shot) (p : Part) : (p.modShot n f).cpa = p.cpa := rfl
@[simp] theorem Part.modShot_cal (n : Word) (f : Shot → Shot) (p : Part) : (p.modShot n f).cal = p.cal := rfl
@[simp] theorem Part.modShot_esu (n : Word) (f : Shot → Shot) (p : Part) : (p.modShot n f).esu = p.esu := rfl
@[simp] theorem Part.modShot_dfl (n : Word) (f : Shot → Shot) (p : Part) : (p.modShot n f).dfl = p.dfl := rfl
@[simp] theorem Part.modShot_icr (n : Word) (f : Shot → Shot) (p : Part) : (p.modShot n f).icr = p.icr := rfl
@[simp] theorem Part.modShot_dpe (n : Word) (f : Shot → Shot) (p : Part) : (p.modShot n f).dpe = p.dpe := rfl
@[simp] theorem Part.modShot_prn (n : Word) (f : Shot → Shot) (p : Part) : (p.modShot n f).prn = p.prn := rfl
@[simp] theorem Part.modShot_cde (n : Word) (f : Shot → Shot) (p : Part) : (p.modShot n f).cde = p.cde := rfl
@[simp] theorem Part.modShot_tsm (n : Word) (f : Shot → Shot) (p : Part) : (p.modShot n f).tsm = p.tsm := rfl

@[simp] theorem Part.setProtectedCount_phase (c : Nat) (p : Part) : (p.setProtectedCount c).phase = p.phase := rfl
@[simp] theorem Part.setProtectedCount_clock (c : Nat) (p : Part) : (p.setProtectedCount c).clock = p.clock := rfl
@[simp] theorem Part.setProtectedCount_pts (c : Nat) (p : Part) : (p.setProtectedCount c).pts = p.pts := rfl
@[simp] theorem Part.setProtectedCount_port (c : Nat) (p : Part) : (p.setProtectedCount c).port = p.port := rfl
@[simp] theorem Part.setProtectedCount_cpa (c : Nat) (p : Part) : (p.setProtectedCount c).cpa = p.cpa := rfl
@[simp] theorem Part.setProtectedCount_cal (c : Nat) (p : Part) : (p.setProtectedCount c).cal = p.cal := rfl
@[simp] theorem Part.setProtectedCount_esu (c : Nat) (p : Part) : (p.setProtectedCount c).esu = p.esu := rfl
@[simp] theorem Part.setProtectedCount_dfl (c : Nat) (p : Part) : (p.setProtectedCount c).dfl = p.dfl := rfl
@[simp] theorem Part.setProtectedCount_icr (c : Nat) (p : Part) : (p.setProtectedCount c).icr = p.icr := rfl
@[simp] theorem Part.setProtectedCount_dpe (c : Nat) (p : Part) : (p.setProtectedCount c).dpe = p.dpe := rfl
@[simp] theorem Part.setProtectedCount_prn (c : Nat) (p : Part) : (p.setProtectedCount c).prn = p.prn := rfl
@[simp] theorem Part.setProtectedCount_cde (c : Nat) (p : Part) : (p.setProtectedCount c).cde = p.cde := rfl
@[simp] theorem Part.setProtectedCount_tsm (c : Nat) (p : Part) : (p.setProtectedCount c).tsm = p.tsm := rfl


@[simp] theorem Part.modCapture_phase (f : Capture → Capture) (p : Part) : (p.modCapture f).phase = p.phase := rfl
@[simp] theorem Part.modCapture_clock (f : Capture → Capture) (p : Part) : (p.modCapture f).clock = p.clock := rfl
@[simp] theorem Part.modCapture_pts (f : Capture → Capture) (p : Part) : (p.modCapture f).pts = p.pts := rfl
@[simp] theorem Part.modCapture_port (f : Capture → Capture) (p : Part) : (p.modCapture f).port = p.port := rfl
@[simp] theorem Part.modCapture_cpa (f : Capture → Capture) (p : Part) : (p.modCapture f).cpa = p.cpa := rfl
@[simp] theorem Part.modCapture_cal (f : Capture → Capture) (p : Part) : (p.modCapture f).cal = p.cal := rfl
@[simp] theorem Part.modCapture_sht (f : Capture → Capture) (p : Part) : (p.modCapture f).sht = p.sht := rfl
@[simp] theorem Part.modCapture_esu (f : Capture → Capture) (p : Part) : (p.modCapture f).esu = p.esu := rfl
@[simp] theorem Part.modCapture_icr (f : Capture → Capture) (p : Part) : (p.modCapture f).icr = p.icr := rfl
@[simp] theorem Part.modCapture_dpe (f : Capture → Capture) (p : Part) : (p.modCapture f).dpe = p.dpe := rfl
@[simp] theorem Part.modCapture_prn (f : Capture → Capture) (p : Part) : (p.modCapture f).prn = p.prn := rfl
@[simp] theorem Part.modCapture_cde (f : Capture → Capture) (p : Part) : (p.modCapture f).cde = p.cde := rfl
@[simp] theorem Part.modCapture_tsm (f : Capture → Capture) (p : Part) : (p.modCapture f).tsm = p.tsm := rfl

@[simp] theorem Part.clearView_phase (p : Part) : (p.clearView).phase = p.phase := rfl
@[simp] theorem Part.clearView_clock (p : Part) : (p.clearView).clock = p.clock := rfl
@[simp] theorem Part.clearView_pts (p : Part) : (p.clearView).pts = p.pts := rfl
@[simp] theorem Part.clearView_port (p : Part) : (p.clearView).port = p.port := rfl
@[simp] theorem Part.clearView_cpa (p : Part) : (p.clearView).cpa = p.cpa := rfl
@[simp] theorem Part.clearView_cal (p : Part) : (p.clearView).cal = p.cal := rfl
@[simp] theorem Part.clearView_sht (p : Part) : (p.clearView).sht = p.sht := rfl
@[simp] theorem Part.clearView_esu (p : Part) : (p.clearView).esu = p.esu := rfl
@[simp] theorem Part.clearView_dfl (p : Part) : (p.clearView).dfl = p.dfl := rfl
@[simp] theorem Part.clearView_icr (p : Part) : (p.clearView).icr = p.icr := rfl
@[simp] theorem Part.clearView_dpe (p : Part) : (p.clearView).dpe = p.dpe := rfl
@[simp] theorem Part.clearView_cde (p : Part) : (p.clearView).cde = p.cde := rfl
@[simp] theorem Part.clearView_tsm (p : Part) : (p.clearView).tsm = p.tsm := rfl

@[simp] theorem Part.modRequest_phase (id : Nat) (f : Request → Request) (p : Part) : (p.modRequest id f).phase = p.phase := rfl
@[simp] theorem Part.modRequest_clock (id : Nat) (f : Request → Request) (p : Part) : (p.modRequest id f).clock = p.clock := rfl
@[simp] theorem Part.modRequest_pts (id : Nat) (f : Request → Request) (p : Part) : (p.modRequest id f).pts = p.pts := rfl
@[simp] theorem Part.modRequest_port (id : Nat) (f : Request → Request) (p : Part) : (p.modRequest id f).port = p.port := rfl
@[simp] theorem Part.modRequest_cpa (id : Nat) (f : Request → Request) (p : Part) : (p.modRequest id f).cpa = p.cpa := rfl
@[simp] theorem Part.modRequest_cal (id : Nat) (f : Request → Request) (p : Part) : (p.modRequest id f).cal = p.cal := rfl
@[simp] theorem Part.modRequest_sht (id : Nat) (f : Request → Request) (p : Part) : (p.modRequest id f).sht = p.sht := rfl
@[simp] theorem Part.modRequest_esu (id : Nat) (f : Request → Request) (p : Part) : (p.modRequest id f).esu = p.esu := rfl
@[simp] theorem Part.modRequest_dfl (id : Nat) (f : Request → Request) (p : Part) : (p.modRequest id f).dfl = p.dfl := rfl
@[simp] theorem Part.modRequest_icr (id : Nat) (f : Request → Request) (p : Part) : (p.modRequest id f).icr = p.icr := rfl
@[simp] theorem Part.modRequest_dpe (id : Nat) (f : Request → Request) (p : Part) : (p.modRequest id f).dpe = p.dpe := rfl
@[simp] theorem Part.modRequest_prn (id : Nat) (f : Request → Request) (p : Part) : (p.modRequest id f).prn = p.prn := rfl
@[simp] theorem Part.modRequest_tsm (id : Nat) (f : Request → Request) (p : Part) : (p.modRequest id f).tsm = p.tsm := rfl

@[simp] theorem Part.setRun_phase (run : Option Run) (p : Part) : (p.setRun run).phase = p.phase := rfl
@[simp] theorem Part.setRun_clock (run : Option Run) (p : Part) : (p.setRun run).clock = p.clock := rfl
@[simp] theorem Part.setRun_pts (run : Option Run) (p : Part) : (p.setRun run).pts = p.pts := rfl
@[simp] theorem Part.setRun_port (run : Option Run) (p : Part) : (p.setRun run).port = p.port := rfl
@[simp] theorem Part.setRun_cpa (run : Option Run) (p : Part) : (p.setRun run).cpa = p.cpa := rfl
@[simp] theorem Part.setRun_cal (run : Option Run) (p : Part) : (p.setRun run).cal = p.cal := rfl
@[simp] theorem Part.setRun_sht (run : Option Run) (p : Part) : (p.setRun run).sht = p.sht := rfl
@[simp] theorem Part.setRun_esu (run : Option Run) (p : Part) : (p.setRun run).esu = p.esu := rfl
@[simp] theorem Part.setRun_dfl (run : Option Run) (p : Part) : (p.setRun run).dfl = p.dfl := rfl
@[simp] theorem Part.setRun_icr (run : Option Run) (p : Part) : (p.setRun run).icr = p.icr := rfl
@[simp] theorem Part.setRun_dpe (run : Option Run) (p : Part) : (p.setRun run).dpe = p.dpe := rfl
@[simp] theorem Part.setRun_prn (run : Option Run) (p : Part) : (p.setRun run).prn = p.prn := rfl
@[simp] theorem Part.setRun_tsm (run : Option Run) (p : Part) : (p.setRun run).tsm = p.tsm := rfl

@[simp] theorem Part.dropBringup_phase (p : Part) : (p.dropBringup).phase = p.phase := rfl
@[simp] theorem Part.dropBringup_clock (p : Part) : (p.dropBringup).clock = p.clock := rfl
@[simp] theorem Part.dropBringup_pts (p : Part) : (p.dropBringup).pts = p.pts := rfl
@[simp] theorem Part.dropBringup_port (p : Part) : (p.dropBringup).port = p.port := rfl
@[simp] theorem Part.dropBringup_cpa (p : Part) : (p.dropBringup).cpa = p.cpa := rfl
@[simp] theorem Part.dropBringup_cal (p : Part) : (p.dropBringup).cal = p.cal := rfl
@[simp] theorem Part.dropBringup_sht (p : Part) : (p.dropBringup).sht = p.sht := rfl
@[simp] theorem Part.dropBringup_esu (p : Part) : (p.dropBringup).esu = p.esu := rfl
@[simp] theorem Part.dropBringup_dfl (p : Part) : (p.dropBringup).dfl = p.dfl := rfl
@[simp] theorem Part.dropBringup_icr (p : Part) : (p.dropBringup).icr = p.icr := rfl
@[simp] theorem Part.dropBringup_dpe (p : Part) : (p.dropBringup).dpe = p.dpe := rfl
@[simp] theorem Part.dropBringup_prn (p : Part) : (p.dropBringup).prn = p.prn := rfl
@[simp] theorem Part.dropBringup_tsm (p : Part) : (p.dropBringup).tsm = p.tsm := rfl

@[simp] theorem Part.stopSequence_phase (p : Part) : (p.stopSequence).phase = p.phase := rfl
@[simp] theorem Part.stopSequence_clock (p : Part) : (p.stopSequence).clock = p.clock := rfl
@[simp] theorem Part.stopSequence_pts (p : Part) : (p.stopSequence).pts = p.pts := rfl
@[simp] theorem Part.stopSequence_port (p : Part) : (p.stopSequence).port = p.port := rfl
@[simp] theorem Part.stopSequence_cpa (p : Part) : (p.stopSequence).cpa = p.cpa := rfl
@[simp] theorem Part.stopSequence_cal (p : Part) : (p.stopSequence).cal = p.cal := rfl
@[simp] theorem Part.stopSequence_sht (p : Part) : (p.stopSequence).sht = p.sht := rfl
@[simp] theorem Part.stopSequence_dfl (p : Part) : (p.stopSequence).dfl = p.dfl := rfl
@[simp] theorem Part.stopSequence_icr (p : Part) : (p.stopSequence).icr = p.icr := rfl
@[simp] theorem Part.stopSequence_dpe (p : Part) : (p.stopSequence).dpe = p.dpe := rfl
@[simp] theorem Part.stopSequence_prn (p : Part) : (p.stopSequence).prn = p.prn := rfl
@[simp] theorem Part.stopSequence_cde (p : Part) : (p.stopSequence).cde = p.cde := rfl
@[simp] theorem Part.stopSequence_tsm (p : Part) : (p.stopSequence).tsm = p.tsm := rfl

@[simp] theorem Part.setSeq_phase (q : Seq) (p : Part) : (p.setSeq q).phase = p.phase := rfl
@[simp] theorem Part.setSeq_clock (q : Seq) (p : Part) : (p.setSeq q).clock = p.clock := rfl
@[simp] theorem Part.setSeq_pts (q : Seq) (p : Part) : (p.setSeq q).pts = p.pts := rfl
@[simp] theorem Part.setSeq_port (q : Seq) (p : Part) : (p.setSeq q).port = p.port := rfl
@[simp] theorem Part.setSeq_cpa (q : Seq) (p : Part) : (p.setSeq q).cpa = p.cpa := rfl
@[simp] theorem Part.setSeq_cal (q : Seq) (p : Part) : (p.setSeq q).cal = p.cal := rfl
@[simp] theorem Part.setSeq_sht (q : Seq) (p : Part) : (p.setSeq q).sht = p.sht := rfl
@[simp] theorem Part.setSeq_dfl (q : Seq) (p : Part) : (p.setSeq q).dfl = p.dfl := rfl
@[simp] theorem Part.setSeq_icr (q : Seq) (p : Part) : (p.setSeq q).icr = p.icr := rfl
@[simp] theorem Part.setSeq_dpe (q : Seq) (p : Part) : (p.setSeq q).dpe = p.dpe := rfl
@[simp] theorem Part.setSeq_prn (q : Seq) (p : Part) : (p.setSeq q).prn = p.prn := rfl
@[simp] theorem Part.setSeq_cde (q : Seq) (p : Part) : (p.setSeq q).cde = p.cde := rfl
@[simp] theorem Part.setSeq_tsm (q : Seq) (p : Part) : (p.setSeq q).tsm = p.tsm := rfl

@[simp] theorem Part.pulseFlush_phase (at_ : Word) (p : Part) : (p.pulseFlush at_).phase = p.phase := rfl
@[simp] theorem Part.pulseFlush_clock (at_ : Word) (p : Part) : (p.pulseFlush at_).clock = p.clock := rfl
@[simp] theorem Part.pulseFlush_pts (at_ : Word) (p : Part) : (p.pulseFlush at_).pts = p.pts := rfl
@[simp] theorem Part.pulseFlush_port (at_ : Word) (p : Part) : (p.pulseFlush at_).port = p.port := rfl
@[simp] theorem Part.pulseFlush_cpa (at_ : Word) (p : Part) : (p.pulseFlush at_).cpa = p.cpa := rfl
@[simp] theorem Part.pulseFlush_cal (at_ : Word) (p : Part) : (p.pulseFlush at_).cal = p.cal := rfl
@[simp] theorem Part.pulseFlush_sht (at_ : Word) (p : Part) : (p.pulseFlush at_).sht = p.sht := rfl
@[simp] theorem Part.pulseFlush_dfl (at_ : Word) (p : Part) : (p.pulseFlush at_).dfl = p.dfl := rfl
@[simp] theorem Part.pulseFlush_icr (at_ : Word) (p : Part) : (p.pulseFlush at_).icr = p.icr := rfl
@[simp] theorem Part.pulseFlush_dpe (at_ : Word) (p : Part) : (p.pulseFlush at_).dpe = p.dpe := rfl
@[simp] theorem Part.pulseFlush_prn (at_ : Word) (p : Part) : (p.pulseFlush at_).prn = p.prn := rfl
@[simp] theorem Part.pulseFlush_cde (at_ : Word) (p : Part) : (p.pulseFlush at_).cde = p.cde := rfl
@[simp] theorem Part.pulseFlush_tsm (at_ : Word) (p : Part) : (p.pulseFlush at_).tsm = p.tsm := rfl

@[simp] theorem Part.pulseRead_phase (at_ : Word) (p : Part) : (p.pulseRead at_).phase = p.phase := rfl
@[simp] theorem Part.pulseRead_clock (at_ : Word) (p : Part) : (p.pulseRead at_).clock = p.clock := rfl
@[simp] theorem Part.pulseRead_pts (at_ : Word) (p : Part) : (p.pulseRead at_).pts = p.pts := rfl
@[simp] theorem Part.pulseRead_port (at_ : Word) (p : Part) : (p.pulseRead at_).port = p.port := rfl
@[simp] theorem Part.pulseRead_cpa (at_ : Word) (p : Part) : (p.pulseRead at_).cpa = p.cpa := rfl
@[simp] theorem Part.pulseRead_cal (at_ : Word) (p : Part) : (p.pulseRead at_).cal = p.cal := rfl
@[simp] theorem Part.pulseRead_sht (at_ : Word) (p : Part) : (p.pulseRead at_).sht = p.sht := rfl
@[simp] theorem Part.pulseRead_dfl (at_ : Word) (p : Part) : (p.pulseRead at_).dfl = p.dfl := rfl
@[simp] theorem Part.pulseRead_icr (at_ : Word) (p : Part) : (p.pulseRead at_).icr = p.icr := rfl
@[simp] theorem Part.pulseRead_dpe (at_ : Word) (p : Part) : (p.pulseRead at_).dpe = p.dpe := rfl
@[simp] theorem Part.pulseRead_prn (at_ : Word) (p : Part) : (p.pulseRead at_).prn = p.prn := rfl
@[simp] theorem Part.pulseRead_cde (at_ : Word) (p : Part) : (p.pulseRead at_).cde = p.cde := rfl
@[simp] theorem Part.pulseRead_tsm (at_ : Word) (p : Part) : (p.pulseRead at_).tsm = p.tsm := rfl

@[simp] theorem Part.clearTarget_phase (p : Part) : (p.clearTarget).phase = p.phase := rfl
@[simp] theorem Part.clearTarget_clock (p : Part) : (p.clearTarget).clock = p.clock := rfl
@[simp] theorem Part.clearTarget_pts (p : Part) : (p.clearTarget).pts = p.pts := rfl
@[simp] theorem Part.clearTarget_port (p : Part) : (p.clearTarget).port = p.port := rfl
@[simp] theorem Part.clearTarget_cpa (p : Part) : (p.clearTarget).cpa = p.cpa := rfl
@[simp] theorem Part.clearTarget_cal (p : Part) : (p.clearTarget).cal = p.cal := rfl
@[simp] theorem Part.clearTarget_sht (p : Part) : (p.clearTarget).sht = p.sht := rfl
@[simp] theorem Part.clearTarget_esu (p : Part) : (p.clearTarget).esu = p.esu := rfl
@[simp] theorem Part.clearTarget_dfl (p : Part) : (p.clearTarget).dfl = p.dfl := rfl
@[simp] theorem Part.clearTarget_dpe (p : Part) : (p.clearTarget).dpe = p.dpe := rfl
@[simp] theorem Part.clearTarget_prn (p : Part) : (p.clearTarget).prn = p.prn := rfl
@[simp] theorem Part.clearTarget_cde (p : Part) : (p.clearTarget).cde = p.cde := rfl
@[simp] theorem Part.clearTarget_tsm (p : Part) : (p.clearTarget).tsm = p.tsm := rfl

@[simp] theorem Part.setPass_phase (s : Option Pass) (p : Part) : (p.setPass s).phase = p.phase := rfl
@[simp] theorem Part.setPass_clock (s : Option Pass) (p : Part) : (p.setPass s).clock = p.clock := rfl
@[simp] theorem Part.setPass_pts (s : Option Pass) (p : Part) : (p.setPass s).pts = p.pts := rfl
@[simp] theorem Part.setPass_port (s : Option Pass) (p : Part) : (p.setPass s).port = p.port := rfl
@[simp] theorem Part.setPass_cpa (s : Option Pass) (p : Part) : (p.setPass s).cpa = p.cpa := rfl
@[simp] theorem Part.setPass_cal (s : Option Pass) (p : Part) : (p.setPass s).cal = p.cal := rfl
@[simp] theorem Part.setPass_sht (s : Option Pass) (p : Part) : (p.setPass s).sht = p.sht := rfl
@[simp] theorem Part.setPass_esu (s : Option Pass) (p : Part) : (p.setPass s).esu = p.esu := rfl
@[simp] theorem Part.setPass_dfl (s : Option Pass) (p : Part) : (p.setPass s).dfl = p.dfl := rfl
@[simp] theorem Part.setPass_icr (s : Option Pass) (p : Part) : (p.setPass s).icr = p.icr := rfl
@[simp] theorem Part.setPass_prn (s : Option Pass) (p : Part) : (p.setPass s).prn = p.prn := rfl
@[simp] theorem Part.setPass_cde (s : Option Pass) (p : Part) : (p.setPass s).cde = p.cde := rfl
@[simp] theorem Part.setPass_tsm (s : Option Pass) (p : Part) : (p.setPass s).tsm = p.tsm := rfl

@[simp] theorem Part.endSession_phase (p : Part) : (p.endSession).phase = p.phase := rfl
@[simp] theorem Part.endSession_clock (p : Part) : (p.endSession).clock = p.clock := rfl
@[simp] theorem Part.endSession_pts (p : Part) : (p.endSession).pts = p.pts := rfl
@[simp] theorem Part.endSession_port (p : Part) : (p.endSession).port = p.port := rfl
@[simp] theorem Part.endSession_cpa (p : Part) : (p.endSession).cpa = p.cpa := rfl
@[simp] theorem Part.endSession_sht (p : Part) : (p.endSession).sht = p.sht := rfl
@[simp] theorem Part.endSession_esu (p : Part) : (p.endSession).esu = p.esu := rfl
@[simp] theorem Part.endSession_dfl (p : Part) : (p.endSession).dfl = p.dfl := rfl
@[simp] theorem Part.endSession_icr (p : Part) : (p.endSession).icr = p.icr := rfl
@[simp] theorem Part.endSession_dpe (p : Part) : (p.endSession).dpe = p.dpe := rfl
@[simp] theorem Part.endSession_prn (p : Part) : (p.endSession).prn = p.prn := rfl
@[simp] theorem Part.endSession_cde (p : Part) : (p.endSession).cde = p.cde := rfl
@[simp] theorem Part.endSession_tsm (p : Part) : (p.endSession).tsm = p.tsm := rfl

/-! ## The CPA's shared operations -/

@[simp] theorem Part.statusDirty_phase (p : Part) : (p.statusDirty).phase = p.phase := by
  unfold Part.statusDirty; split
  · split <;> rfl
  · rfl
@[simp] theorem Part.statusDirty_clock (p : Part) : (p.statusDirty).clock = p.clock := by
  unfold Part.statusDirty; split
  · split <;> rfl
  · rfl
@[simp] theorem Part.statusDirty_pts (p : Part) : (p.statusDirty).pts = p.pts := by
  unfold Part.statusDirty; split
  · split <;> rfl
  · rfl
@[simp] theorem Part.statusDirty_port (p : Part) : (p.statusDirty).port = p.port := by
  unfold Part.statusDirty; split
  · split <;> rfl
  · rfl
@[simp] theorem Part.statusDirty_cal (p : Part) : (p.statusDirty).cal = p.cal := by
  unfold Part.statusDirty; split
  · split <;> rfl
  · rfl
@[simp] theorem Part.statusDirty_sht (p : Part) : (p.statusDirty).sht = p.sht := by
  unfold Part.statusDirty; split
  · split <;> rfl
  · rfl
@[simp] theorem Part.statusDirty_esu (p : Part) : (p.statusDirty).esu = p.esu := by
  unfold Part.statusDirty; split
  · split <;> rfl
  · rfl
@[simp] theorem Part.statusDirty_dfl (p : Part) : (p.statusDirty).dfl = p.dfl := by
  unfold Part.statusDirty; split
  · split <;> rfl
  · rfl
@[simp] theorem Part.statusDirty_icr (p : Part) : (p.statusDirty).icr = p.icr := by
  unfold Part.statusDirty; split
  · split <;> rfl
  · rfl
@[simp] theorem Part.statusDirty_dpe (p : Part) : (p.statusDirty).dpe = p.dpe := by
  unfold Part.statusDirty; split
  · split <;> rfl
  · rfl
@[simp] theorem Part.statusDirty_prn (p : Part) : (p.statusDirty).prn = p.prn := by
  unfold Part.statusDirty; split
  · split <;> rfl
  · rfl
@[simp] theorem Part.statusDirty_cde (p : Part) : (p.statusDirty).cde = p.cde := by
  unfold Part.statusDirty; split
  · split <;> rfl
  · rfl
@[simp] theorem Part.statusDirty_tsm (p : Part) : (p.statusDirty).tsm = p.tsm := by
  unfold Part.statusDirty; split
  · split <;> rfl
  · rfl
@[simp] theorem Part.statusDirty_mode (p : Part) : (p.statusDirty).cpa.mode = p.cpa.mode := by
  unfold Part.statusDirty; split
  · split <;> rfl
  · rfl
@[simp] theorem Part.statusDirty_slots (p : Part) : (p.statusDirty).cpa.slots = p.cpa.slots := by
  unfold Part.statusDirty; split
  · split <;> rfl
  · rfl
@[simp] theorem Part.statusDirty_ended (p : Part) : (p.statusDirty).cpa.ended = p.cpa.ended := by
  unfold Part.statusDirty; split
  · split <;> rfl
  · rfl
@[simp] theorem Part.statusDirty_events (p : Part) : (p.statusDirty).cpa.events = p.cpa.events := by
  unfold Part.statusDirty; split
  · split <;> rfl
  · rfl
@[simp] theorem Part.statusDirty_eventBusy (p : Part) : (p.statusDirty).cpa.eventBusy = p.cpa.eventBusy := by
  unfold Part.statusDirty; split
  · split <;> rfl
  · rfl
@[simp] theorem Part.statusDirty_producer (p : Part) : (p.statusDirty).cpa.producer = p.cpa.producer := by
  unfold Part.statusDirty; split
  · split <;> rfl
  · rfl
@[simp] theorem Part.statusDirty_written (p : Part) : (p.statusDirty).cpa.written = p.cpa.written := by
  unfold Part.statusDirty; split
  · split <;> rfl
  · rfl
@[simp] theorem Part.statusDirty_consumer (p : Part) : (p.statusDirty).cpa.consumer = p.cpa.consumer := by
  unfold Part.statusDirty; split
  · split <;> rfl
  · rfl
@[simp] theorem Part.statusDirty_irq (p : Part) : (p.statusDirty).cpa.irq = p.cpa.irq := by
  unfold Part.statusDirty; split
  · split <;> rfl
  · rfl
@[simp] theorem Part.statusDirty_mask (p : Part) : (p.statusDirty).cpa.mask = p.cpa.mask := by
  unfold Part.statusDirty; split
  · split <;> rfl
  · rfl
@[simp] theorem Part.statusDirty_dropped (p : Part) : (p.statusDirty).cpa.dropped = p.cpa.dropped := by
  unfold Part.statusDirty; split
  · split <;> rfl
  · rfl
@[simp] theorem Part.statusDirty_updates (p : Part) : (p.statusDirty).cpa.updates = p.cpa.updates := by
  unfold Part.statusDirty; split
  · split <;> rfl
  · rfl
@[simp] theorem Part.statusDirty_resetting (p : Part) : (p.statusDirty).cpa.resetting = p.cpa.resetting := by
  unfold Part.statusDirty; split
  · split <;> rfl
  · rfl

@[simp] theorem Part.emitEvent_phase (e : Event) (p : Part) : (p.emitEvent e).phase = p.phase := by
  unfold Part.emitEvent; split
  · split
    · split
      · rfl
      · exact Part.statusDirty_phase _
    · unfold Part.acceptEvent; split <;> rfl
  · rfl
@[simp] theorem Part.emitEvent_clock (e : Event) (p : Part) : (p.emitEvent e).clock = p.clock := by
  unfold Part.emitEvent; split
  · split
    · split
      · rfl
      · exact Part.statusDirty_clock _
    · unfold Part.acceptEvent; split <;> rfl
  · rfl
@[simp] theorem Part.emitEvent_pts (e : Event) (p : Part) : (p.emitEvent e).pts = p.pts := by
  unfold Part.emitEvent; split
  · split
    · split
      · rfl
      · exact Part.statusDirty_pts _
    · unfold Part.acceptEvent; split <;> rfl
  · rfl
@[simp] theorem Part.emitEvent_port (e : Event) (p : Part) : (p.emitEvent e).port = p.port := by
  unfold Part.emitEvent; split
  · split
    · split
      · rfl
      · exact Part.statusDirty_port _
    · unfold Part.acceptEvent; split <;> rfl
  · rfl
@[simp] theorem Part.emitEvent_cal (e : Event) (p : Part) : (p.emitEvent e).cal = p.cal := by
  unfold Part.emitEvent; split
  · split
    · split
      · rfl
      · exact Part.statusDirty_cal _
    · unfold Part.acceptEvent; split <;> rfl
  · rfl
@[simp] theorem Part.emitEvent_sht (e : Event) (p : Part) : (p.emitEvent e).sht = p.sht := by
  unfold Part.emitEvent; split
  · split
    · split
      · rfl
      · exact Part.statusDirty_sht _
    · unfold Part.acceptEvent; split <;> rfl
  · rfl
@[simp] theorem Part.emitEvent_esu (e : Event) (p : Part) : (p.emitEvent e).esu = p.esu := by
  unfold Part.emitEvent; split
  · split
    · split
      · rfl
      · exact Part.statusDirty_esu _
    · unfold Part.acceptEvent; split <;> rfl
  · rfl
@[simp] theorem Part.emitEvent_dfl (e : Event) (p : Part) : (p.emitEvent e).dfl = p.dfl := by
  unfold Part.emitEvent; split
  · split
    · split
      · rfl
      · exact Part.statusDirty_dfl _
    · unfold Part.acceptEvent; split <;> rfl
  · rfl
@[simp] theorem Part.emitEvent_icr (e : Event) (p : Part) : (p.emitEvent e).icr = p.icr := by
  unfold Part.emitEvent; split
  · split
    · split
      · rfl
      · exact Part.statusDirty_icr _
    · unfold Part.acceptEvent; split <;> rfl
  · rfl
@[simp] theorem Part.emitEvent_dpe (e : Event) (p : Part) : (p.emitEvent e).dpe = p.dpe := by
  unfold Part.emitEvent; split
  · split
    · split
      · rfl
      · exact Part.statusDirty_dpe _
    · unfold Part.acceptEvent; split <;> rfl
  · rfl
@[simp] theorem Part.emitEvent_prn (e : Event) (p : Part) : (p.emitEvent e).prn = p.prn := by
  unfold Part.emitEvent; split
  · split
    · split
      · rfl
      · exact Part.statusDirty_prn _
    · unfold Part.acceptEvent; split <;> rfl
  · rfl
@[simp] theorem Part.emitEvent_cde (e : Event) (p : Part) : (p.emitEvent e).cde = p.cde := by
  unfold Part.emitEvent; split
  · split
    · split
      · rfl
      · exact Part.statusDirty_cde _
    · unfold Part.acceptEvent; split <;> rfl
  · rfl
@[simp] theorem Part.emitEvent_tsm (e : Event) (p : Part) : (p.emitEvent e).tsm = p.tsm := by
  unfold Part.emitEvent; split
  · split
    · split
      · rfl
      · exact Part.statusDirty_tsm _
    · unfold Part.acceptEvent; split <;> rfl
  · rfl
@[simp] theorem Part.emitEvent_mode (e : Event) (p : Part) : (p.emitEvent e).cpa.mode = p.cpa.mode := by
  unfold Part.emitEvent; split
  · split
    · split
      · rfl
      · exact Part.statusDirty_mode _
    · unfold Part.acceptEvent; split <;> rfl
  · rfl
@[simp] theorem Part.emitEvent_slots (e : Event) (p : Part) : (p.emitEvent e).cpa.slots = p.cpa.slots := by
  unfold Part.emitEvent; split
  · split
    · split
      · rfl
      · exact Part.statusDirty_slots _
    · unfold Part.acceptEvent; split <;> rfl
  · rfl
@[simp] theorem Part.emitEvent_ended (e : Event) (p : Part) : (p.emitEvent e).cpa.ended = p.cpa.ended := by
  unfold Part.emitEvent; split
  · split
    · split
      · rfl
      · exact Part.statusDirty_ended _
    · unfold Part.acceptEvent; split <;> rfl
  · rfl
@[simp] theorem Part.emitEvent_written (e : Event) (p : Part) : (p.emitEvent e).cpa.written = p.cpa.written := by
  unfold Part.emitEvent; split
  · split
    · split
      · rfl
      · exact Part.statusDirty_written _
    · unfold Part.acceptEvent; split <;> rfl
  · rfl
@[simp] theorem Part.emitEvent_consumer (e : Event) (p : Part) : (p.emitEvent e).cpa.consumer = p.cpa.consumer := by
  unfold Part.emitEvent; split
  · split
    · split
      · rfl
      · exact Part.statusDirty_consumer _
    · unfold Part.acceptEvent; split <;> rfl
  · rfl
@[simp] theorem Part.emitEvent_irq (e : Event) (p : Part) : (p.emitEvent e).cpa.irq = p.cpa.irq := by
  unfold Part.emitEvent; split
  · split
    · split
      · rfl
      · exact Part.statusDirty_irq _
    · unfold Part.acceptEvent; split <;> rfl
  · rfl
@[simp] theorem Part.emitEvent_mask (e : Event) (p : Part) : (p.emitEvent e).cpa.mask = p.cpa.mask := by
  unfold Part.emitEvent; split
  · split
    · split
      · rfl
      · exact Part.statusDirty_mask _
    · unfold Part.acceptEvent; split <;> rfl
  · rfl
@[simp] theorem Part.emitEvent_updates (e : Event) (p : Part) : (p.emitEvent e).cpa.updates = p.cpa.updates := by
  unfold Part.emitEvent; split
  · split
    · split
      · rfl
      · exact Part.statusDirty_updates _
    · unfold Part.acceptEvent; split <;> rfl
  · rfl
@[simp] theorem Part.emitEvent_resetting (e : Event) (p : Part) : (p.emitEvent e).cpa.resetting = p.cpa.resetting := by
  unfold Part.emitEvent; split
  · split
    · split
      · rfl
      · exact Part.statusDirty_resetting _
    · unfold Part.acceptEvent; split <;> rfl
  · rfl

@[simp] theorem Part.emitAt_phase (time : Word) (kind : EventKind) (shot : Word) (data : List Word) (p : Part) : (p.emitAt time kind shot data).phase = p.phase := Part.emitEvent_phase _ _
@[simp] theorem Part.emitAt_clock (time : Word) (kind : EventKind) (shot : Word) (data : List Word) (p : Part) : (p.emitAt time kind shot data).clock = p.clock := Part.emitEvent_clock _ _
@[simp] theorem Part.emitAt_pts (time : Word) (kind : EventKind) (shot : Word) (data : List Word) (p : Part) : (p.emitAt time kind shot data).pts = p.pts := Part.emitEvent_pts _ _
@[simp] theorem Part.emitAt_port (time : Word) (kind : EventKind) (shot : Word) (data : List Word) (p : Part) : (p.emitAt time kind shot data).port = p.port := Part.emitEvent_port _ _
@[simp] theorem Part.emitAt_cal (time : Word) (kind : EventKind) (shot : Word) (data : List Word) (p : Part) : (p.emitAt time kind shot data).cal = p.cal := Part.emitEvent_cal _ _
@[simp] theorem Part.emitAt_sht (time : Word) (kind : EventKind) (shot : Word) (data : List Word) (p : Part) : (p.emitAt time kind shot data).sht = p.sht := Part.emitEvent_sht _ _
@[simp] theorem Part.emitAt_esu (time : Word) (kind : EventKind) (shot : Word) (data : List Word) (p : Part) : (p.emitAt time kind shot data).esu = p.esu := Part.emitEvent_esu _ _
@[simp] theorem Part.emitAt_dfl (time : Word) (kind : EventKind) (shot : Word) (data : List Word) (p : Part) : (p.emitAt time kind shot data).dfl = p.dfl := Part.emitEvent_dfl _ _
@[simp] theorem Part.emitAt_icr (time : Word) (kind : EventKind) (shot : Word) (data : List Word) (p : Part) : (p.emitAt time kind shot data).icr = p.icr := Part.emitEvent_icr _ _
@[simp] theorem Part.emitAt_dpe (time : Word) (kind : EventKind) (shot : Word) (data : List Word) (p : Part) : (p.emitAt time kind shot data).dpe = p.dpe := Part.emitEvent_dpe _ _
@[simp] theorem Part.emitAt_prn (time : Word) (kind : EventKind) (shot : Word) (data : List Word) (p : Part) : (p.emitAt time kind shot data).prn = p.prn := Part.emitEvent_prn _ _
@[simp] theorem Part.emitAt_cde (time : Word) (kind : EventKind) (shot : Word) (data : List Word) (p : Part) : (p.emitAt time kind shot data).cde = p.cde := Part.emitEvent_cde _ _
@[simp] theorem Part.emitAt_tsm (time : Word) (kind : EventKind) (shot : Word) (data : List Word) (p : Part) : (p.emitAt time kind shot data).tsm = p.tsm := Part.emitEvent_tsm _ _
@[simp] theorem Part.emitAt_mode (time : Word) (kind : EventKind) (shot : Word) (data : List Word) (p : Part) : (p.emitAt time kind shot data).cpa.mode = p.cpa.mode := Part.emitEvent_mode _ _
@[simp] theorem Part.emitAt_slots (time : Word) (kind : EventKind) (shot : Word) (data : List Word) (p : Part) : (p.emitAt time kind shot data).cpa.slots = p.cpa.slots := Part.emitEvent_slots _ _
@[simp] theorem Part.emitAt_ended (time : Word) (kind : EventKind) (shot : Word) (data : List Word) (p : Part) : (p.emitAt time kind shot data).cpa.ended = p.cpa.ended := Part.emitEvent_ended _ _
@[simp] theorem Part.emitAt_written (time : Word) (kind : EventKind) (shot : Word) (data : List Word) (p : Part) : (p.emitAt time kind shot data).cpa.written = p.cpa.written := Part.emitEvent_written _ _
@[simp] theorem Part.emitAt_consumer (time : Word) (kind : EventKind) (shot : Word) (data : List Word) (p : Part) : (p.emitAt time kind shot data).cpa.consumer = p.cpa.consumer := Part.emitEvent_consumer _ _
@[simp] theorem Part.emitAt_irq (time : Word) (kind : EventKind) (shot : Word) (data : List Word) (p : Part) : (p.emitAt time kind shot data).cpa.irq = p.cpa.irq := Part.emitEvent_irq _ _
@[simp] theorem Part.emitAt_mask (time : Word) (kind : EventKind) (shot : Word) (data : List Word) (p : Part) : (p.emitAt time kind shot data).cpa.mask = p.cpa.mask := Part.emitEvent_mask _ _
@[simp] theorem Part.emitAt_updates (time : Word) (kind : EventKind) (shot : Word) (data : List Word) (p : Part) : (p.emitAt time kind shot data).cpa.updates = p.cpa.updates := Part.emitEvent_updates _ _
@[simp] theorem Part.emitAt_resetting (time : Word) (kind : EventKind) (shot : Word) (data : List Word) (p : Part) : (p.emitAt time kind shot data).cpa.resetting = p.cpa.resetting := Part.emitEvent_resetting _ _

@[simp] theorem Part.emit_phase (kind : EventKind) (shot : Word) (data : List Word) (p : Part) : (p.emit kind shot data).phase = p.phase := Part.emitEvent_phase _ _
@[simp] theorem Part.emit_clock (kind : EventKind) (shot : Word) (data : List Word) (p : Part) : (p.emit kind shot data).clock = p.clock := Part.emitEvent_clock _ _
@[simp] theorem Part.emit_pts (kind : EventKind) (shot : Word) (data : List Word) (p : Part) : (p.emit kind shot data).pts = p.pts := Part.emitEvent_pts _ _
@[simp] theorem Part.emit_port (kind : EventKind) (shot : Word) (data : List Word) (p : Part) : (p.emit kind shot data).port = p.port := Part.emitEvent_port _ _
@[simp] theorem Part.emit_cal (kind : EventKind) (shot : Word) (data : List Word) (p : Part) : (p.emit kind shot data).cal = p.cal := Part.emitEvent_cal _ _
@[simp] theorem Part.emit_sht (kind : EventKind) (shot : Word) (data : List Word) (p : Part) : (p.emit kind shot data).sht = p.sht := Part.emitEvent_sht _ _
@[simp] theorem Part.emit_esu (kind : EventKind) (shot : Word) (data : List Word) (p : Part) : (p.emit kind shot data).esu = p.esu := Part.emitEvent_esu _ _
@[simp] theorem Part.emit_dfl (kind : EventKind) (shot : Word) (data : List Word) (p : Part) : (p.emit kind shot data).dfl = p.dfl := Part.emitEvent_dfl _ _
@[simp] theorem Part.emit_icr (kind : EventKind) (shot : Word) (data : List Word) (p : Part) : (p.emit kind shot data).icr = p.icr := Part.emitEvent_icr _ _
@[simp] theorem Part.emit_dpe (kind : EventKind) (shot : Word) (data : List Word) (p : Part) : (p.emit kind shot data).dpe = p.dpe := Part.emitEvent_dpe _ _
@[simp] theorem Part.emit_prn (kind : EventKind) (shot : Word) (data : List Word) (p : Part) : (p.emit kind shot data).prn = p.prn := Part.emitEvent_prn _ _
@[simp] theorem Part.emit_cde (kind : EventKind) (shot : Word) (data : List Word) (p : Part) : (p.emit kind shot data).cde = p.cde := Part.emitEvent_cde _ _
@[simp] theorem Part.emit_tsm (kind : EventKind) (shot : Word) (data : List Word) (p : Part) : (p.emit kind shot data).tsm = p.tsm := Part.emitEvent_tsm _ _
@[simp] theorem Part.emit_mode (kind : EventKind) (shot : Word) (data : List Word) (p : Part) : (p.emit kind shot data).cpa.mode = p.cpa.mode := Part.emitEvent_mode _ _
@[simp] theorem Part.emit_slots (kind : EventKind) (shot : Word) (data : List Word) (p : Part) : (p.emit kind shot data).cpa.slots = p.cpa.slots := Part.emitEvent_slots _ _
@[simp] theorem Part.emit_ended (kind : EventKind) (shot : Word) (data : List Word) (p : Part) : (p.emit kind shot data).cpa.ended = p.cpa.ended := Part.emitEvent_ended _ _
@[simp] theorem Part.emit_written (kind : EventKind) (shot : Word) (data : List Word) (p : Part) : (p.emit kind shot data).cpa.written = p.cpa.written := Part.emitEvent_written _ _
@[simp] theorem Part.emit_consumer (kind : EventKind) (shot : Word) (data : List Word) (p : Part) : (p.emit kind shot data).cpa.consumer = p.cpa.consumer := Part.emitEvent_consumer _ _
@[simp] theorem Part.emit_irq (kind : EventKind) (shot : Word) (data : List Word) (p : Part) : (p.emit kind shot data).cpa.irq = p.cpa.irq := Part.emitEvent_irq _ _
@[simp] theorem Part.emit_mask (kind : EventKind) (shot : Word) (data : List Word) (p : Part) : (p.emit kind shot data).cpa.mask = p.cpa.mask := Part.emitEvent_mask _ _
@[simp] theorem Part.emit_updates (kind : EventKind) (shot : Word) (data : List Word) (p : Part) : (p.emit kind shot data).cpa.updates = p.cpa.updates := Part.emitEvent_updates _ _
@[simp] theorem Part.emit_resetting (kind : EventKind) (shot : Word) (data : List Word) (p : Part) : (p.emit kind shot data).cpa.resetting = p.cpa.resetting := Part.emitEvent_resetting _ _

@[simp] theorem Part.endCommand_phase (n : Fin 8) (cls : ResultClass) (code : ResultCode) (data : List Word) (p : Part) : (p.endCommand n cls code data).phase = p.phase := by
  unfold Part.endCommand; split
  · rfl
  · split <;> rfl
@[simp] theorem Part.endCommand_clock (n : Fin 8) (cls : ResultClass) (code : ResultCode) (data : List Word) (p : Part) : (p.endCommand n cls code data).clock = p.clock := by
  unfold Part.endCommand; split
  · rfl
  · split <;> rfl
@[simp] theorem Part.endCommand_pts (n : Fin 8) (cls : ResultClass) (code : ResultCode) (data : List Word) (p : Part) : (p.endCommand n cls code data).pts = p.pts := by
  unfold Part.endCommand; split
  · rfl
  · split <;> rfl
@[simp] theorem Part.endCommand_port (n : Fin 8) (cls : ResultClass) (code : ResultCode) (data : List Word) (p : Part) : (p.endCommand n cls code data).port = p.port := by
  unfold Part.endCommand; split
  · rfl
  · split <;> rfl
@[simp] theorem Part.endCommand_cal (n : Fin 8) (cls : ResultClass) (code : ResultCode) (data : List Word) (p : Part) : (p.endCommand n cls code data).cal = p.cal := by
  unfold Part.endCommand; split
  · rfl
  · split <;> rfl
@[simp] theorem Part.endCommand_sht (n : Fin 8) (cls : ResultClass) (code : ResultCode) (data : List Word) (p : Part) : (p.endCommand n cls code data).sht = p.sht := by
  unfold Part.endCommand; split
  · rfl
  · split <;> rfl
@[simp] theorem Part.endCommand_esu (n : Fin 8) (cls : ResultClass) (code : ResultCode) (data : List Word) (p : Part) : (p.endCommand n cls code data).esu = p.esu := by
  unfold Part.endCommand; split
  · rfl
  · split <;> rfl
@[simp] theorem Part.endCommand_dfl (n : Fin 8) (cls : ResultClass) (code : ResultCode) (data : List Word) (p : Part) : (p.endCommand n cls code data).dfl = p.dfl := by
  unfold Part.endCommand; split
  · rfl
  · split <;> rfl
@[simp] theorem Part.endCommand_icr (n : Fin 8) (cls : ResultClass) (code : ResultCode) (data : List Word) (p : Part) : (p.endCommand n cls code data).icr = p.icr := by
  unfold Part.endCommand; split
  · rfl
  · split <;> rfl
@[simp] theorem Part.endCommand_dpe (n : Fin 8) (cls : ResultClass) (code : ResultCode) (data : List Word) (p : Part) : (p.endCommand n cls code data).dpe = p.dpe := by
  unfold Part.endCommand; split
  · rfl
  · split <;> rfl
@[simp] theorem Part.endCommand_prn (n : Fin 8) (cls : ResultClass) (code : ResultCode) (data : List Word) (p : Part) : (p.endCommand n cls code data).prn = p.prn := by
  unfold Part.endCommand; split
  · rfl
  · split <;> rfl
@[simp] theorem Part.endCommand_cde (n : Fin 8) (cls : ResultClass) (code : ResultCode) (data : List Word) (p : Part) : (p.endCommand n cls code data).cde = p.cde := by
  unfold Part.endCommand; split
  · rfl
  · split <;> rfl
@[simp] theorem Part.endCommand_tsm (n : Fin 8) (cls : ResultClass) (code : ResultCode) (data : List Word) (p : Part) : (p.endCommand n cls code data).tsm = p.tsm := by
  unfold Part.endCommand; split
  · rfl
  · split <;> rfl
@[simp] theorem Part.endCommand_mode (n : Fin 8) (cls : ResultClass) (code : ResultCode) (data : List Word) (p : Part) : (p.endCommand n cls code data).cpa.mode = p.cpa.mode := by
  unfold Part.endCommand; split
  · rfl
  · split <;> rfl
@[simp] theorem Part.endCommand_ended (n : Fin 8) (cls : ResultClass) (code : ResultCode) (data : List Word) (p : Part) : (p.endCommand n cls code data).cpa.ended = p.cpa.ended := by
  unfold Part.endCommand; split
  · rfl
  · split <;> rfl
@[simp] theorem Part.endCommand_events (n : Fin 8) (cls : ResultClass) (code : ResultCode) (data : List Word) (p : Part) : (p.endCommand n cls code data).cpa.events = p.cpa.events := by
  unfold Part.endCommand; split
  · rfl
  · split <;> rfl
@[simp] theorem Part.endCommand_eventBusy (n : Fin 8) (cls : ResultClass) (code : ResultCode) (data : List Word) (p : Part) : (p.endCommand n cls code data).cpa.eventBusy = p.cpa.eventBusy := by
  unfold Part.endCommand; split
  · rfl
  · split <;> rfl
@[simp] theorem Part.endCommand_producer (n : Fin 8) (cls : ResultClass) (code : ResultCode) (data : List Word) (p : Part) : (p.endCommand n cls code data).cpa.producer = p.cpa.producer := by
  unfold Part.endCommand; split
  · rfl
  · split <;> rfl
@[simp] theorem Part.endCommand_written (n : Fin 8) (cls : ResultClass) (code : ResultCode) (data : List Word) (p : Part) : (p.endCommand n cls code data).cpa.written = p.cpa.written := by
  unfold Part.endCommand; split
  · rfl
  · split <;> rfl
@[simp] theorem Part.endCommand_consumer (n : Fin 8) (cls : ResultClass) (code : ResultCode) (data : List Word) (p : Part) : (p.endCommand n cls code data).cpa.consumer = p.cpa.consumer := by
  unfold Part.endCommand; split
  · rfl
  · split <;> rfl
@[simp] theorem Part.endCommand_irq (n : Fin 8) (cls : ResultClass) (code : ResultCode) (data : List Word) (p : Part) : (p.endCommand n cls code data).cpa.irq = p.cpa.irq := by
  unfold Part.endCommand; split
  · rfl
  · split <;> rfl
@[simp] theorem Part.endCommand_mask (n : Fin 8) (cls : ResultClass) (code : ResultCode) (data : List Word) (p : Part) : (p.endCommand n cls code data).cpa.mask = p.cpa.mask := by
  unfold Part.endCommand; split
  · rfl
  · split <;> rfl
@[simp] theorem Part.endCommand_dropped (n : Fin 8) (cls : ResultClass) (code : ResultCode) (data : List Word) (p : Part) : (p.endCommand n cls code data).cpa.dropped = p.cpa.dropped := by
  unfold Part.endCommand; split
  · rfl
  · split <;> rfl
@[simp] theorem Part.endCommand_updates (n : Fin 8) (cls : ResultClass) (code : ResultCode) (data : List Word) (p : Part) : (p.endCommand n cls code data).cpa.updates = p.cpa.updates := by
  unfold Part.endCommand; split
  · rfl
  · split <;> rfl
@[simp] theorem Part.endCommand_resetting (n : Fin 8) (cls : ResultClass) (code : ResultCode) (data : List Word) (p : Part) : (p.endCommand n cls code data).cpa.resetting = p.cpa.resetting := by
  unfold Part.endCommand; split
  · rfl
  · split <;> rfl

@[simp] theorem Part.done_phase (n : Fin 8) (data : List Word) (p : Part) : (p.done n data).phase = p.phase := Part.endCommand_phase _ _ _ _ _
@[simp] theorem Part.done_clock (n : Fin 8) (data : List Word) (p : Part) : (p.done n data).clock = p.clock := Part.endCommand_clock _ _ _ _ _
@[simp] theorem Part.done_pts (n : Fin 8) (data : List Word) (p : Part) : (p.done n data).pts = p.pts := Part.endCommand_pts _ _ _ _ _
@[simp] theorem Part.done_port (n : Fin 8) (data : List Word) (p : Part) : (p.done n data).port = p.port := Part.endCommand_port _ _ _ _ _
@[simp] theorem Part.done_cal (n : Fin 8) (data : List Word) (p : Part) : (p.done n data).cal = p.cal := Part.endCommand_cal _ _ _ _ _
@[simp] theorem Part.done_sht (n : Fin 8) (data : List Word) (p : Part) : (p.done n data).sht = p.sht := Part.endCommand_sht _ _ _ _ _
@[simp] theorem Part.done_esu (n : Fin 8) (data : List Word) (p : Part) : (p.done n data).esu = p.esu := Part.endCommand_esu _ _ _ _ _
@[simp] theorem Part.done_dfl (n : Fin 8) (data : List Word) (p : Part) : (p.done n data).dfl = p.dfl := Part.endCommand_dfl _ _ _ _ _
@[simp] theorem Part.done_icr (n : Fin 8) (data : List Word) (p : Part) : (p.done n data).icr = p.icr := Part.endCommand_icr _ _ _ _ _
@[simp] theorem Part.done_dpe (n : Fin 8) (data : List Word) (p : Part) : (p.done n data).dpe = p.dpe := Part.endCommand_dpe _ _ _ _ _
@[simp] theorem Part.done_prn (n : Fin 8) (data : List Word) (p : Part) : (p.done n data).prn = p.prn := Part.endCommand_prn _ _ _ _ _
@[simp] theorem Part.done_cde (n : Fin 8) (data : List Word) (p : Part) : (p.done n data).cde = p.cde := Part.endCommand_cde _ _ _ _ _
@[simp] theorem Part.done_tsm (n : Fin 8) (data : List Word) (p : Part) : (p.done n data).tsm = p.tsm := Part.endCommand_tsm _ _ _ _ _
@[simp] theorem Part.done_mode (n : Fin 8) (data : List Word) (p : Part) : (p.done n data).cpa.mode = p.cpa.mode := Part.endCommand_mode _ _ _ _ _
@[simp] theorem Part.done_ended (n : Fin 8) (data : List Word) (p : Part) : (p.done n data).cpa.ended = p.cpa.ended := Part.endCommand_ended _ _ _ _ _
@[simp] theorem Part.done_events (n : Fin 8) (data : List Word) (p : Part) : (p.done n data).cpa.events = p.cpa.events := Part.endCommand_events _ _ _ _ _
@[simp] theorem Part.done_eventBusy (n : Fin 8) (data : List Word) (p : Part) : (p.done n data).cpa.eventBusy = p.cpa.eventBusy := Part.endCommand_eventBusy _ _ _ _ _
@[simp] theorem Part.done_producer (n : Fin 8) (data : List Word) (p : Part) : (p.done n data).cpa.producer = p.cpa.producer := Part.endCommand_producer _ _ _ _ _
@[simp] theorem Part.done_written (n : Fin 8) (data : List Word) (p : Part) : (p.done n data).cpa.written = p.cpa.written := Part.endCommand_written _ _ _ _ _
@[simp] theorem Part.done_consumer (n : Fin 8) (data : List Word) (p : Part) : (p.done n data).cpa.consumer = p.cpa.consumer := Part.endCommand_consumer _ _ _ _ _
@[simp] theorem Part.done_irq (n : Fin 8) (data : List Word) (p : Part) : (p.done n data).cpa.irq = p.cpa.irq := Part.endCommand_irq _ _ _ _ _
@[simp] theorem Part.done_mask (n : Fin 8) (data : List Word) (p : Part) : (p.done n data).cpa.mask = p.cpa.mask := Part.endCommand_mask _ _ _ _ _
@[simp] theorem Part.done_dropped (n : Fin 8) (data : List Word) (p : Part) : (p.done n data).cpa.dropped = p.cpa.dropped := Part.endCommand_dropped _ _ _ _ _
@[simp] theorem Part.done_updates (n : Fin 8) (data : List Word) (p : Part) : (p.done n data).cpa.updates = p.cpa.updates := Part.endCommand_updates _ _ _ _ _
@[simp] theorem Part.done_resetting (n : Fin 8) (data : List Word) (p : Part) : (p.done n data).cpa.resetting = p.cpa.resetting := Part.endCommand_resetting _ _ _ _ _

@[simp] theorem Part.doneOr_phase (n : Fin 8) (adjusted : Bool) (data : List Word) (p : Part) : (p.doneOr n adjusted data).phase = p.phase := by
  unfold Part.doneOr; split
  · exact Part.endCommand_phase _ _ _ _ _
  · exact Part.endCommand_phase _ _ _ _ _
@[simp] theorem Part.doneOr_clock (n : Fin 8) (adjusted : Bool) (data : List Word) (p : Part) : (p.doneOr n adjusted data).clock = p.clock := by
  unfold Part.doneOr; split
  · exact Part.endCommand_clock _ _ _ _ _
  · exact Part.endCommand_clock _ _ _ _ _
@[simp] theorem Part.doneOr_pts (n : Fin 8) (adjusted : Bool) (data : List Word) (p : Part) : (p.doneOr n adjusted data).pts = p.pts := by
  unfold Part.doneOr; split
  · exact Part.endCommand_pts _ _ _ _ _
  · exact Part.endCommand_pts _ _ _ _ _
@[simp] theorem Part.doneOr_port (n : Fin 8) (adjusted : Bool) (data : List Word) (p : Part) : (p.doneOr n adjusted data).port = p.port := by
  unfold Part.doneOr; split
  · exact Part.endCommand_port _ _ _ _ _
  · exact Part.endCommand_port _ _ _ _ _
@[simp] theorem Part.doneOr_cal (n : Fin 8) (adjusted : Bool) (data : List Word) (p : Part) : (p.doneOr n adjusted data).cal = p.cal := by
  unfold Part.doneOr; split
  · exact Part.endCommand_cal _ _ _ _ _
  · exact Part.endCommand_cal _ _ _ _ _
@[simp] theorem Part.doneOr_sht (n : Fin 8) (adjusted : Bool) (data : List Word) (p : Part) : (p.doneOr n adjusted data).sht = p.sht := by
  unfold Part.doneOr; split
  · exact Part.endCommand_sht _ _ _ _ _
  · exact Part.endCommand_sht _ _ _ _ _
@[simp] theorem Part.doneOr_esu (n : Fin 8) (adjusted : Bool) (data : List Word) (p : Part) : (p.doneOr n adjusted data).esu = p.esu := by
  unfold Part.doneOr; split
  · exact Part.endCommand_esu _ _ _ _ _
  · exact Part.endCommand_esu _ _ _ _ _
@[simp] theorem Part.doneOr_dfl (n : Fin 8) (adjusted : Bool) (data : List Word) (p : Part) : (p.doneOr n adjusted data).dfl = p.dfl := by
  unfold Part.doneOr; split
  · exact Part.endCommand_dfl _ _ _ _ _
  · exact Part.endCommand_dfl _ _ _ _ _
@[simp] theorem Part.doneOr_icr (n : Fin 8) (adjusted : Bool) (data : List Word) (p : Part) : (p.doneOr n adjusted data).icr = p.icr := by
  unfold Part.doneOr; split
  · exact Part.endCommand_icr _ _ _ _ _
  · exact Part.endCommand_icr _ _ _ _ _
@[simp] theorem Part.doneOr_dpe (n : Fin 8) (adjusted : Bool) (data : List Word) (p : Part) : (p.doneOr n adjusted data).dpe = p.dpe := by
  unfold Part.doneOr; split
  · exact Part.endCommand_dpe _ _ _ _ _
  · exact Part.endCommand_dpe _ _ _ _ _
@[simp] theorem Part.doneOr_prn (n : Fin 8) (adjusted : Bool) (data : List Word) (p : Part) : (p.doneOr n adjusted data).prn = p.prn := by
  unfold Part.doneOr; split
  · exact Part.endCommand_prn _ _ _ _ _
  · exact Part.endCommand_prn _ _ _ _ _
@[simp] theorem Part.doneOr_cde (n : Fin 8) (adjusted : Bool) (data : List Word) (p : Part) : (p.doneOr n adjusted data).cde = p.cde := by
  unfold Part.doneOr; split
  · exact Part.endCommand_cde _ _ _ _ _
  · exact Part.endCommand_cde _ _ _ _ _
@[simp] theorem Part.doneOr_tsm (n : Fin 8) (adjusted : Bool) (data : List Word) (p : Part) : (p.doneOr n adjusted data).tsm = p.tsm := by
  unfold Part.doneOr; split
  · exact Part.endCommand_tsm _ _ _ _ _
  · exact Part.endCommand_tsm _ _ _ _ _
@[simp] theorem Part.doneOr_mode (n : Fin 8) (adjusted : Bool) (data : List Word) (p : Part) : (p.doneOr n adjusted data).cpa.mode = p.cpa.mode := by
  unfold Part.doneOr; split
  · exact Part.endCommand_mode _ _ _ _ _
  · exact Part.endCommand_mode _ _ _ _ _
@[simp] theorem Part.doneOr_ended (n : Fin 8) (adjusted : Bool) (data : List Word) (p : Part) : (p.doneOr n adjusted data).cpa.ended = p.cpa.ended := by
  unfold Part.doneOr; split
  · exact Part.endCommand_ended _ _ _ _ _
  · exact Part.endCommand_ended _ _ _ _ _
@[simp] theorem Part.doneOr_events (n : Fin 8) (adjusted : Bool) (data : List Word) (p : Part) : (p.doneOr n adjusted data).cpa.events = p.cpa.events := by
  unfold Part.doneOr; split
  · exact Part.endCommand_events _ _ _ _ _
  · exact Part.endCommand_events _ _ _ _ _
@[simp] theorem Part.doneOr_eventBusy (n : Fin 8) (adjusted : Bool) (data : List Word) (p : Part) : (p.doneOr n adjusted data).cpa.eventBusy = p.cpa.eventBusy := by
  unfold Part.doneOr; split
  · exact Part.endCommand_eventBusy _ _ _ _ _
  · exact Part.endCommand_eventBusy _ _ _ _ _
@[simp] theorem Part.doneOr_producer (n : Fin 8) (adjusted : Bool) (data : List Word) (p : Part) : (p.doneOr n adjusted data).cpa.producer = p.cpa.producer := by
  unfold Part.doneOr; split
  · exact Part.endCommand_producer _ _ _ _ _
  · exact Part.endCommand_producer _ _ _ _ _
@[simp] theorem Part.doneOr_written (n : Fin 8) (adjusted : Bool) (data : List Word) (p : Part) : (p.doneOr n adjusted data).cpa.written = p.cpa.written := by
  unfold Part.doneOr; split
  · exact Part.endCommand_written _ _ _ _ _
  · exact Part.endCommand_written _ _ _ _ _
@[simp] theorem Part.doneOr_consumer (n : Fin 8) (adjusted : Bool) (data : List Word) (p : Part) : (p.doneOr n adjusted data).cpa.consumer = p.cpa.consumer := by
  unfold Part.doneOr; split
  · exact Part.endCommand_consumer _ _ _ _ _
  · exact Part.endCommand_consumer _ _ _ _ _
@[simp] theorem Part.doneOr_irq (n : Fin 8) (adjusted : Bool) (data : List Word) (p : Part) : (p.doneOr n adjusted data).cpa.irq = p.cpa.irq := by
  unfold Part.doneOr; split
  · exact Part.endCommand_irq _ _ _ _ _
  · exact Part.endCommand_irq _ _ _ _ _
@[simp] theorem Part.doneOr_mask (n : Fin 8) (adjusted : Bool) (data : List Word) (p : Part) : (p.doneOr n adjusted data).cpa.mask = p.cpa.mask := by
  unfold Part.doneOr; split
  · exact Part.endCommand_mask _ _ _ _ _
  · exact Part.endCommand_mask _ _ _ _ _
@[simp] theorem Part.doneOr_dropped (n : Fin 8) (adjusted : Bool) (data : List Word) (p : Part) : (p.doneOr n adjusted data).cpa.dropped = p.cpa.dropped := by
  unfold Part.doneOr; split
  · exact Part.endCommand_dropped _ _ _ _ _
  · exact Part.endCommand_dropped _ _ _ _ _
@[simp] theorem Part.doneOr_updates (n : Fin 8) (adjusted : Bool) (data : List Word) (p : Part) : (p.doneOr n adjusted data).cpa.updates = p.cpa.updates := by
  unfold Part.doneOr; split
  · exact Part.endCommand_updates _ _ _ _ _
  · exact Part.endCommand_updates _ _ _ _ _
@[simp] theorem Part.doneOr_resetting (n : Fin 8) (adjusted : Bool) (data : List Word) (p : Part) : (p.doneOr n adjusted data).cpa.resetting = p.cpa.resetting := by
  unfold Part.doneOr; split
  · exact Part.endCommand_resetting _ _ _ _ _
  · exact Part.endCommand_resetting _ _ _ _ _

@[simp] theorem Part.refuse_phase (n : Fin 8) (code : ResultCode) (data : List Word) (p : Part) : (p.refuse n code data).phase = p.phase := Part.endCommand_phase _ _ _ _ _
@[simp] theorem Part.refuse_clock (n : Fin 8) (code : ResultCode) (data : List Word) (p : Part) : (p.refuse n code data).clock = p.clock := Part.endCommand_clock _ _ _ _ _
@[simp] theorem Part.refuse_pts (n : Fin 8) (code : ResultCode) (data : List Word) (p : Part) : (p.refuse n code data).pts = p.pts := Part.endCommand_pts _ _ _ _ _
@[simp] theorem Part.refuse_port (n : Fin 8) (code : ResultCode) (data : List Word) (p : Part) : (p.refuse n code data).port = p.port := Part.endCommand_port _ _ _ _ _
@[simp] theorem Part.refuse_cal (n : Fin 8) (code : ResultCode) (data : List Word) (p : Part) : (p.refuse n code data).cal = p.cal := Part.endCommand_cal _ _ _ _ _
@[simp] theorem Part.refuse_sht (n : Fin 8) (code : ResultCode) (data : List Word) (p : Part) : (p.refuse n code data).sht = p.sht := Part.endCommand_sht _ _ _ _ _
@[simp] theorem Part.refuse_esu (n : Fin 8) (code : ResultCode) (data : List Word) (p : Part) : (p.refuse n code data).esu = p.esu := Part.endCommand_esu _ _ _ _ _
@[simp] theorem Part.refuse_dfl (n : Fin 8) (code : ResultCode) (data : List Word) (p : Part) : (p.refuse n code data).dfl = p.dfl := Part.endCommand_dfl _ _ _ _ _
@[simp] theorem Part.refuse_icr (n : Fin 8) (code : ResultCode) (data : List Word) (p : Part) : (p.refuse n code data).icr = p.icr := Part.endCommand_icr _ _ _ _ _
@[simp] theorem Part.refuse_dpe (n : Fin 8) (code : ResultCode) (data : List Word) (p : Part) : (p.refuse n code data).dpe = p.dpe := Part.endCommand_dpe _ _ _ _ _
@[simp] theorem Part.refuse_prn (n : Fin 8) (code : ResultCode) (data : List Word) (p : Part) : (p.refuse n code data).prn = p.prn := Part.endCommand_prn _ _ _ _ _
@[simp] theorem Part.refuse_cde (n : Fin 8) (code : ResultCode) (data : List Word) (p : Part) : (p.refuse n code data).cde = p.cde := Part.endCommand_cde _ _ _ _ _
@[simp] theorem Part.refuse_tsm (n : Fin 8) (code : ResultCode) (data : List Word) (p : Part) : (p.refuse n code data).tsm = p.tsm := Part.endCommand_tsm _ _ _ _ _
@[simp] theorem Part.refuse_mode (n : Fin 8) (code : ResultCode) (data : List Word) (p : Part) : (p.refuse n code data).cpa.mode = p.cpa.mode := Part.endCommand_mode _ _ _ _ _
@[simp] theorem Part.refuse_ended (n : Fin 8) (code : ResultCode) (data : List Word) (p : Part) : (p.refuse n code data).cpa.ended = p.cpa.ended := Part.endCommand_ended _ _ _ _ _
@[simp] theorem Part.refuse_events (n : Fin 8) (code : ResultCode) (data : List Word) (p : Part) : (p.refuse n code data).cpa.events = p.cpa.events := Part.endCommand_events _ _ _ _ _
@[simp] theorem Part.refuse_eventBusy (n : Fin 8) (code : ResultCode) (data : List Word) (p : Part) : (p.refuse n code data).cpa.eventBusy = p.cpa.eventBusy := Part.endCommand_eventBusy _ _ _ _ _
@[simp] theorem Part.refuse_producer (n : Fin 8) (code : ResultCode) (data : List Word) (p : Part) : (p.refuse n code data).cpa.producer = p.cpa.producer := Part.endCommand_producer _ _ _ _ _
@[simp] theorem Part.refuse_written (n : Fin 8) (code : ResultCode) (data : List Word) (p : Part) : (p.refuse n code data).cpa.written = p.cpa.written := Part.endCommand_written _ _ _ _ _
@[simp] theorem Part.refuse_consumer (n : Fin 8) (code : ResultCode) (data : List Word) (p : Part) : (p.refuse n code data).cpa.consumer = p.cpa.consumer := Part.endCommand_consumer _ _ _ _ _
@[simp] theorem Part.refuse_irq (n : Fin 8) (code : ResultCode) (data : List Word) (p : Part) : (p.refuse n code data).cpa.irq = p.cpa.irq := Part.endCommand_irq _ _ _ _ _
@[simp] theorem Part.refuse_mask (n : Fin 8) (code : ResultCode) (data : List Word) (p : Part) : (p.refuse n code data).cpa.mask = p.cpa.mask := Part.endCommand_mask _ _ _ _ _
@[simp] theorem Part.refuse_dropped (n : Fin 8) (code : ResultCode) (data : List Word) (p : Part) : (p.refuse n code data).cpa.dropped = p.cpa.dropped := Part.endCommand_dropped _ _ _ _ _
@[simp] theorem Part.refuse_updates (n : Fin 8) (code : ResultCode) (data : List Word) (p : Part) : (p.refuse n code data).cpa.updates = p.cpa.updates := Part.endCommand_updates _ _ _ _ _
@[simp] theorem Part.refuse_resetting (n : Fin 8) (code : ResultCode) (data : List Word) (p : Part) : (p.refuse n code data).cpa.resetting = p.cpa.resetting := Part.endCommand_resetting _ _ _ _ _

@[simp] theorem Part.fail_phase (n : Fin 8) (code : ResultCode) (data : List Word) (p : Part) : (p.fail n code data).phase = p.phase := Part.endCommand_phase _ _ _ _ _
@[simp] theorem Part.fail_clock (n : Fin 8) (code : ResultCode) (data : List Word) (p : Part) : (p.fail n code data).clock = p.clock := Part.endCommand_clock _ _ _ _ _
@[simp] theorem Part.fail_pts (n : Fin 8) (code : ResultCode) (data : List Word) (p : Part) : (p.fail n code data).pts = p.pts := Part.endCommand_pts _ _ _ _ _
@[simp] theorem Part.fail_port (n : Fin 8) (code : ResultCode) (data : List Word) (p : Part) : (p.fail n code data).port = p.port := Part.endCommand_port _ _ _ _ _
@[simp] theorem Part.fail_cal (n : Fin 8) (code : ResultCode) (data : List Word) (p : Part) : (p.fail n code data).cal = p.cal := Part.endCommand_cal _ _ _ _ _
@[simp] theorem Part.fail_sht (n : Fin 8) (code : ResultCode) (data : List Word) (p : Part) : (p.fail n code data).sht = p.sht := Part.endCommand_sht _ _ _ _ _
@[simp] theorem Part.fail_esu (n : Fin 8) (code : ResultCode) (data : List Word) (p : Part) : (p.fail n code data).esu = p.esu := Part.endCommand_esu _ _ _ _ _
@[simp] theorem Part.fail_dfl (n : Fin 8) (code : ResultCode) (data : List Word) (p : Part) : (p.fail n code data).dfl = p.dfl := Part.endCommand_dfl _ _ _ _ _
@[simp] theorem Part.fail_icr (n : Fin 8) (code : ResultCode) (data : List Word) (p : Part) : (p.fail n code data).icr = p.icr := Part.endCommand_icr _ _ _ _ _
@[simp] theorem Part.fail_dpe (n : Fin 8) (code : ResultCode) (data : List Word) (p : Part) : (p.fail n code data).dpe = p.dpe := Part.endCommand_dpe _ _ _ _ _
@[simp] theorem Part.fail_prn (n : Fin 8) (code : ResultCode) (data : List Word) (p : Part) : (p.fail n code data).prn = p.prn := Part.endCommand_prn _ _ _ _ _
@[simp] theorem Part.fail_cde (n : Fin 8) (code : ResultCode) (data : List Word) (p : Part) : (p.fail n code data).cde = p.cde := Part.endCommand_cde _ _ _ _ _
@[simp] theorem Part.fail_tsm (n : Fin 8) (code : ResultCode) (data : List Word) (p : Part) : (p.fail n code data).tsm = p.tsm := Part.endCommand_tsm _ _ _ _ _
@[simp] theorem Part.fail_mode (n : Fin 8) (code : ResultCode) (data : List Word) (p : Part) : (p.fail n code data).cpa.mode = p.cpa.mode := Part.endCommand_mode _ _ _ _ _
@[simp] theorem Part.fail_ended (n : Fin 8) (code : ResultCode) (data : List Word) (p : Part) : (p.fail n code data).cpa.ended = p.cpa.ended := Part.endCommand_ended _ _ _ _ _
@[simp] theorem Part.fail_events (n : Fin 8) (code : ResultCode) (data : List Word) (p : Part) : (p.fail n code data).cpa.events = p.cpa.events := Part.endCommand_events _ _ _ _ _
@[simp] theorem Part.fail_eventBusy (n : Fin 8) (code : ResultCode) (data : List Word) (p : Part) : (p.fail n code data).cpa.eventBusy = p.cpa.eventBusy := Part.endCommand_eventBusy _ _ _ _ _
@[simp] theorem Part.fail_producer (n : Fin 8) (code : ResultCode) (data : List Word) (p : Part) : (p.fail n code data).cpa.producer = p.cpa.producer := Part.endCommand_producer _ _ _ _ _
@[simp] theorem Part.fail_written (n : Fin 8) (code : ResultCode) (data : List Word) (p : Part) : (p.fail n code data).cpa.written = p.cpa.written := Part.endCommand_written _ _ _ _ _
@[simp] theorem Part.fail_consumer (n : Fin 8) (code : ResultCode) (data : List Word) (p : Part) : (p.fail n code data).cpa.consumer = p.cpa.consumer := Part.endCommand_consumer _ _ _ _ _
@[simp] theorem Part.fail_irq (n : Fin 8) (code : ResultCode) (data : List Word) (p : Part) : (p.fail n code data).cpa.irq = p.cpa.irq := Part.endCommand_irq _ _ _ _ _
@[simp] theorem Part.fail_mask (n : Fin 8) (code : ResultCode) (data : List Word) (p : Part) : (p.fail n code data).cpa.mask = p.cpa.mask := Part.endCommand_mask _ _ _ _ _
@[simp] theorem Part.fail_dropped (n : Fin 8) (code : ResultCode) (data : List Word) (p : Part) : (p.fail n code data).cpa.dropped = p.cpa.dropped := Part.endCommand_dropped _ _ _ _ _
@[simp] theorem Part.fail_updates (n : Fin 8) (code : ResultCode) (data : List Word) (p : Part) : (p.fail n code data).cpa.updates = p.cpa.updates := Part.endCommand_updates _ _ _ _ _
@[simp] theorem Part.fail_resetting (n : Fin 8) (code : ResultCode) (data : List Word) (p : Part) : (p.fail n code data).cpa.resetting = p.cpa.resetting := Part.endCommand_resetting _ _ _ _ _

end Sys2Proof.Machine
end

