-- ==== Sys2Proof/Laws/Fields.lean ====
section
/-! SUPPORT. The components that the shared operations on shots, slots, darks, the sensor and the card leave as they were, one
lemma per component, for simp. -/

namespace Sys2Proof.Machine

@[simp] theorem Part.modExposure_phase (n : Word) (f : Exposure → Exposure) (p : Part) : (Part.modExposure n f p).phase = p.phase := rfl
@[simp] theorem Part.modExposure_clock (n : Word) (f : Exposure → Exposure) (p : Part) : (Part.modExposure n f p).clock = p.clock := rfl
@[simp] theorem Part.modExposure_pts (n : Word) (f : Exposure → Exposure) (p : Part) : (Part.modExposure n f p).pts = p.pts := rfl
@[simp] theorem Part.modExposure_port (n : Word) (f : Exposure → Exposure) (p : Part) : (Part.modExposure n f p).port = p.port := rfl
@[simp] theorem Part.modExposure_cpa (n : Word) (f : Exposure → Exposure) (p : Part) : (Part.modExposure n f p).cpa = p.cpa := rfl
@[simp] theorem Part.modExposure_cal (n : Word) (f : Exposure → Exposure) (p : Part) : (Part.modExposure n f p).cal = p.cal := rfl
@[simp] theorem Part.modExposure_esu (n : Word) (f : Exposure → Exposure) (p : Part) : (Part.modExposure n f p).esu = p.esu := rfl
@[simp] theorem Part.modExposure_dfl (n : Word) (f : Exposure → Exposure) (p : Part) : (Part.modExposure n f p).dfl = p.dfl := rfl
@[simp] theorem Part.modExposure_icr (n : Word) (f : Exposure → Exposure) (p : Part) : (Part.modExposure n f p).icr = p.icr := rfl
@[simp] theorem Part.modExposure_dpe (n : Word) (f : Exposure → Exposure) (p : Part) : (Part.modExposure n f p).dpe = p.dpe := rfl
@[simp] theorem Part.modExposure_prn (n : Word) (f : Exposure → Exposure) (p : Part) : (Part.modExposure n f p).prn = p.prn := rfl
@[simp] theorem Part.modExposure_cde (n : Word) (f : Exposure → Exposure) (p : Part) : (Part.modExposure n f p).cde = p.cde := rfl
@[simp] theorem Part.modExposure_tsm (n : Word) (f : Exposure → Exposure) (p : Part) : (Part.modExposure n f p).tsm = p.tsm := rfl

@[simp] theorem Part.modProgress_phase (n : Word) (f : Progress → Progress) (p : Part) : (Part.modProgress n f p).phase = p.phase := rfl
@[simp] theorem Part.modProgress_clock (n : Word) (f : Progress → Progress) (p : Part) : (Part.modProgress n f p).clock = p.clock := rfl
@[simp] theorem Part.modProgress_pts (n : Word) (f : Progress → Progress) (p : Part) : (Part.modProgress n f p).pts = p.pts := rfl
@[simp] theorem Part.modProgress_port (n : Word) (f : Progress → Progress) (p : Part) : (Part.modProgress n f p).port = p.port := rfl
@[simp] theorem Part.modProgress_cpa (n : Word) (f : Progress → Progress) (p : Part) : (Part.modProgress n f p).cpa = p.cpa := rfl
@[simp] theorem Part.modProgress_cal (n : Word) (f : Progress → Progress) (p : Part) : (Part.modProgress n f p).cal = p.cal := rfl
@[simp] theorem Part.modProgress_esu (n : Word) (f : Progress → Progress) (p : Part) : (Part.modProgress n f p).esu = p.esu := rfl
@[simp] theorem Part.modProgress_dfl (n : Word) (f : Progress → Progress) (p : Part) : (Part.modProgress n f p).dfl = p.dfl := rfl
@[simp] theorem Part.modProgress_icr (n : Word) (f : Progress → Progress) (p : Part) : (Part.modProgress n f p).icr = p.icr := rfl
@[simp] theorem Part.modProgress_dpe (n : Word) (f : Progress → Progress) (p : Part) : (Part.modProgress n f p).dpe = p.dpe := rfl
@[simp] theorem Part.modProgress_prn (n : Word) (f : Progress → Progress) (p : Part) : (Part.modProgress n f p).prn = p.prn := rfl
@[simp] theorem Part.modProgress_cde (n : Word) (f : Progress → Progress) (p : Part) : (Part.modProgress n f p).cde = p.cde := rfl
@[simp] theorem Part.modProgress_tsm (n : Word) (f : Progress → Progress) (p : Part) : (Part.modProgress n f p).tsm = p.tsm := rfl

@[simp] theorem Part.setShotState_phase (n : Word) (st : ShotState) (p : Part) : (Part.setShotState n st p).phase = p.phase := rfl
@[simp] theorem Part.setShotState_clock (n : Word) (st : ShotState) (p : Part) : (Part.setShotState n st p).clock = p.clock := rfl
@[simp] theorem Part.setShotState_pts (n : Word) (st : ShotState) (p : Part) : (Part.setShotState n st p).pts = p.pts := rfl
@[simp] theorem Part.setShotState_port (n : Word) (st : ShotState) (p : Part) : (Part.setShotState n st p).port = p.port := rfl
@[simp] theorem Part.setShotState_cpa (n : Word) (st : ShotState) (p : Part) : (Part.setShotState n st p).cpa = p.cpa := rfl
@[simp] theorem Part.setShotState_cal (n : Word) (st : ShotState) (p : Part) : (Part.setShotState n st p).cal = p.cal := rfl
@[simp] theorem Part.setShotState_esu (n : Word) (st : ShotState) (p : Part) : (Part.setShotState n st p).esu = p.esu := rfl
@[simp] theorem Part.setShotState_dfl (n : Word) (st : ShotState) (p : Part) : (Part.setShotState n st p).dfl = p.dfl := rfl
@[simp] theorem Part.setShotState_icr (n : Word) (st : ShotState) (p : Part) : (Part.setShotState n st p).icr = p.icr := rfl
@[simp] theorem Part.setShotState_dpe (n : Word) (st : ShotState) (p : Part) : (Part.setShotState n st p).dpe = p.dpe := rfl
@[simp] theorem Part.setShotState_prn (n : Word) (st : ShotState) (p : Part) : (Part.setShotState n st p).prn = p.prn := rfl
@[simp] theorem Part.setShotState_cde (n : Word) (st : ShotState) (p : Part) : (Part.setShotState n st p).cde = p.cde := rfl
@[simp] theorem Part.setShotState_tsm (n : Word) (st : ShotState) (p : Part) : (Part.setShotState n st p).tsm = p.tsm := rfl

@[simp] theorem Part.freeSlot_phase (slot : Nat) (kind : FrameKind) (shot : Word) (p : Part) : (Part.freeSlot slot kind shot p).phase = p.phase := by
  unfold Part.freeSlot; (repeat' split) <;> simp
@[simp] theorem Part.freeSlot_clock (slot : Nat) (kind : FrameKind) (shot : Word) (p : Part) : (Part.freeSlot slot kind shot p).clock = p.clock := by
  unfold Part.freeSlot; (repeat' split) <;> simp
@[simp] theorem Part.freeSlot_pts (slot : Nat) (kind : FrameKind) (shot : Word) (p : Part) : (Part.freeSlot slot kind shot p).pts = p.pts := by
  unfold Part.freeSlot; (repeat' split) <;> simp
@[simp] theorem Part.freeSlot_port (slot : Nat) (kind : FrameKind) (shot : Word) (p : Part) : (Part.freeSlot slot kind shot p).port = p.port := by
  unfold Part.freeSlot; (repeat' split) <;> simp
@[simp] theorem Part.freeSlot_cal (slot : Nat) (kind : FrameKind) (shot : Word) (p : Part) : (Part.freeSlot slot kind shot p).cal = p.cal := by
  unfold Part.freeSlot; (repeat' split) <;> simp
@[simp] theorem Part.freeSlot_esu (slot : Nat) (kind : FrameKind) (shot : Word) (p : Part) : (Part.freeSlot slot kind shot p).esu = p.esu := by
  unfold Part.freeSlot; (repeat' split) <;> simp
@[simp] theorem Part.freeSlot_dfl (slot : Nat) (kind : FrameKind) (shot : Word) (p : Part) : (Part.freeSlot slot kind shot p).dfl = p.dfl := by
  unfold Part.freeSlot; (repeat' split) <;> simp
@[simp] theorem Part.freeSlot_icr (slot : Nat) (kind : FrameKind) (shot : Word) (p : Part) : (Part.freeSlot slot kind shot p).icr = p.icr := by
  unfold Part.freeSlot; (repeat' split) <;> simp
@[simp] theorem Part.freeSlot_dpe (slot : Nat) (kind : FrameKind) (shot : Word) (p : Part) : (Part.freeSlot slot kind shot p).dpe = p.dpe := by
  unfold Part.freeSlot; (repeat' split) <;> simp
@[simp] theorem Part.freeSlot_prn (slot : Nat) (kind : FrameKind) (shot : Word) (p : Part) : (Part.freeSlot slot kind shot p).prn = p.prn := by
  unfold Part.freeSlot; (repeat' split) <;> simp
@[simp] theorem Part.freeSlot_cde (slot : Nat) (kind : FrameKind) (shot : Word) (p : Part) : (Part.freeSlot slot kind shot p).cde = p.cde := by
  unfold Part.freeSlot; (repeat' split) <;> simp
@[simp] theorem Part.freeSlot_tsm (slot : Nat) (kind : FrameKind) (shot : Word) (p : Part) : (Part.freeSlot slot kind shot p).tsm = p.tsm := by
  unfold Part.freeSlot; (repeat' split) <;> simp

@[simp] theorem Part.removeEntry_phase (e : Dark) (p : Part) : (Part.removeEntry e p).phase = p.phase := by
  unfold Part.removeEntry; (repeat' split) <;> simp
@[simp] theorem Part.removeEntry_clock (e : Dark) (p : Part) : (Part.removeEntry e p).clock = p.clock := by
  unfold Part.removeEntry; (repeat' split) <;> simp
@[simp] theorem Part.removeEntry_pts (e : Dark) (p : Part) : (Part.removeEntry e p).pts = p.pts := by
  unfold Part.removeEntry; (repeat' split) <;> simp
@[simp] theorem Part.removeEntry_port (e : Dark) (p : Part) : (Part.removeEntry e p).port = p.port := by
  unfold Part.removeEntry; (repeat' split) <;> simp
@[simp] theorem Part.removeEntry_cal (e : Dark) (p : Part) : (Part.removeEntry e p).cal = p.cal := by
  unfold Part.removeEntry; (repeat' split) <;> simp
@[simp] theorem Part.removeEntry_esu (e : Dark) (p : Part) : (Part.removeEntry e p).esu = p.esu := by
  unfold Part.removeEntry; (repeat' split) <;> simp
@[simp] theorem Part.removeEntry_icr (e : Dark) (p : Part) : (Part.removeEntry e p).icr = p.icr := by
  unfold Part.removeEntry; (repeat' split) <;> simp
@[simp] theorem Part.removeEntry_dpe (e : Dark) (p : Part) : (Part.removeEntry e p).dpe = p.dpe := by
  unfold Part.removeEntry; (repeat' split) <;> simp
@[simp] theorem Part.removeEntry_prn (e : Dark) (p : Part) : (Part.removeEntry e p).prn = p.prn := by
  unfold Part.removeEntry; (repeat' split) <;> simp
@[simp] theorem Part.removeEntry_cde (e : Dark) (p : Part) : (Part.removeEntry e p).cde = p.cde := by
  unfold Part.removeEntry; (repeat' split) <;> simp
@[simp] theorem Part.removeEntry_tsm (e : Dark) (p : Part) : (Part.removeEntry e p).tsm = p.tsm := by
  unfold Part.removeEntry; (repeat' split) <;> simp

@[simp] theorem Part.trimLibrary_phase : ∀ (fuel : Nat) (p : Part), (Part.trimLibrary fuel p).phase = p.phase
  | 0, _ => rfl
  | fuel + 1, p => by
    unfold Part.trimLibrary
    split
    · split
      · rfl
      · rw [Part.trimLibrary_phase fuel, Part.removeEntry_phase]
    · rfl

@[simp] theorem Part.trimLibrary_clock : ∀ (fuel : Nat) (p : Part), (Part.trimLibrary fuel p).clock = p.clock
  | 0, _ => rfl
  | fuel + 1, p => by
    unfold Part.trimLibrary
    split
    · split
      · rfl
      · rw [Part.trimLibrary_clock fuel, Part.removeEntry_clock]
    · rfl

@[simp] theorem Part.trimLibrary_pts : ∀ (fuel : Nat) (p : Part), (Part.trimLibrary fuel p).pts = p.pts
  | 0, _ => rfl
  | fuel + 1, p => by
    unfold Part.trimLibrary
    split
    · split
      · rfl
      · rw [Part.trimLibrary_pts fuel, Part.removeEntry_pts]
    · rfl

@[simp] theorem Part.trimLibrary_port : ∀ (fuel : Nat) (p : Part), (Part.trimLibrary fuel p).port = p.port
  | 0, _ => rfl
  | fuel + 1, p => by
    unfold Part.trimLibrary
    split
    · split
      · rfl
      · rw [Part.trimLibrary_port fuel, Part.removeEntry_port]
    · rfl

@[simp] theorem Part.trimLibrary_cal : ∀ (fuel : Nat) (p : Part), (Part.trimLibrary fuel p).cal = p.cal
  | 0, _ => rfl
  | fuel + 1, p => by
    unfold Part.trimLibrary
    split
    · split
      · rfl
      · rw [Part.trimLibrary_cal fuel, Part.removeEntry_cal]
    · rfl

@[simp] theorem Part.trimLibrary_esu : ∀ (fuel : Nat) (p : Part), (Part.trimLibrary fuel p).esu = p.esu
  | 0, _ => rfl
  | fuel + 1, p => by
    unfold Part.trimLibrary
    split
    · split
      · rfl
      · rw [Part.trimLibrary_esu fuel, Part.removeEntry_esu]
    · rfl

@[simp] theorem Part.trimLibrary_icr : ∀ (fuel : Nat) (p : Part), (Part.trimLibrary fuel p).icr = p.icr
  | 0, _ => rfl
  | fuel + 1, p => by
    unfold Part.trimLibrary
    split
    · split
      · rfl
      · rw [Part.trimLibrary_icr fuel, Part.removeEntry_icr]
    · rfl

@[simp] theorem Part.trimLibrary_dpe : ∀ (fuel : Nat) (p : Part), (Part.trimLibrary fuel p).dpe = p.dpe
  | 0, _ => rfl
  | fuel + 1, p => by
    unfold Part.trimLibrary
    split
    · split
      · rfl
      · rw [Part.trimLibrary_dpe fuel, Part.removeEntry_dpe]
    · rfl

@[simp] theorem Part.trimLibrary_prn : ∀ (fuel : Nat) (p : Part), (Part.trimLibrary fuel p).prn = p.prn
  | 0, _ => rfl
  | fuel + 1, p => by
    unfold Part.trimLibrary
    split
    · split
      · rfl
      · rw [Part.trimLibrary_prn fuel, Part.removeEntry_prn]
    · rfl

@[simp] theorem Part.trimLibrary_cde : ∀ (fuel : Nat) (p : Part), (Part.trimLibrary fuel p).cde = p.cde
  | 0, _ => rfl
  | fuel + 1, p => by
    unfold Part.trimLibrary
    split
    · split
      · rfl
      · rw [Part.trimLibrary_cde fuel, Part.removeEntry_cde]
    · rfl

@[simp] theorem Part.trimLibrary_tsm : ∀ (fuel : Nat) (p : Part), (Part.trimLibrary fuel p).tsm = p.tsm
  | 0, _ => rfl
  | fuel + 1, p => by
    unfold Part.trimLibrary
    split
    · split
      · rfl
      · rw [Part.trimLibrary_tsm fuel, Part.removeEntry_tsm]
    · rfl

@[simp] theorem Part.lowerEntry_phase (id : Nat) (p : Part) : (Part.lowerEntry id p).phase = p.phase := by
  unfold Part.lowerEntry; dsimp only; (repeat' split) <;> simp
@[simp] theorem Part.lowerEntry_clock (id : Nat) (p : Part) : (Part.lowerEntry id p).clock = p.clock := by
  unfold Part.lowerEntry; dsimp only; (repeat' split) <;> simp
@[simp] theorem Part.lowerEntry_pts (id : Nat) (p : Part) : (Part.lowerEntry id p).pts = p.pts := by
  unfold Part.lowerEntry; dsimp only; (repeat' split) <;> simp
@[simp] theorem Part.lowerEntry_port (id : Nat) (p : Part) : (Part.lowerEntry id p).port = p.port := by
  unfold Part.lowerEntry; dsimp only; (repeat' split) <;> simp
@[simp] theorem Part.lowerEntry_cal (id : Nat) (p : Part) : (Part.lowerEntry id p).cal = p.cal := by
  unfold Part.lowerEntry; dsimp only; (repeat' split) <;> simp
@[simp] theorem Part.lowerEntry_esu (id : Nat) (p : Part) : (Part.lowerEntry id p).esu = p.esu := by
  unfold Part.lowerEntry; dsimp only; (repeat' split) <;> simp
@[simp] theorem Part.lowerEntry_icr (id : Nat) (p : Part) : (Part.lowerEntry id p).icr = p.icr := by
  unfold Part.lowerEntry; dsimp only; (repeat' split) <;> simp
@[simp] theorem Part.lowerEntry_dpe (id : Nat) (p : Part) : (Part.lowerEntry id p).dpe = p.dpe := by
  unfold Part.lowerEntry; dsimp only; (repeat' split) <;> simp
@[simp] theorem Part.lowerEntry_prn (id : Nat) (p : Part) : (Part.lowerEntry id p).prn = p.prn := by
  unfold Part.lowerEntry; dsimp only; (repeat' split) <;> simp
@[simp] theorem Part.lowerEntry_cde (id : Nat) (p : Part) : (Part.lowerEntry id p).cde = p.cde := by
  unfold Part.lowerEntry; dsimp only; (repeat' split) <;> simp
@[simp] theorem Part.lowerEntry_tsm (id : Nat) (p : Part) : (Part.lowerEntry id p).tsm = p.tsm := by
  unfold Part.lowerEntry; dsimp only; (repeat' split) <;> simp

@[simp] theorem Part.lowerTransient_phase (shot : Word) (p : Part) : (Part.lowerTransient shot p).phase = p.phase := by
  unfold Part.lowerTransient; (repeat' split) <;> simp
@[simp] theorem Part.lowerTransient_clock (shot : Word) (p : Part) : (Part.lowerTransient shot p).clock = p.clock := by
  unfold Part.lowerTransient; (repeat' split) <;> simp
@[simp] theorem Part.lowerTransient_pts (shot : Word) (p : Part) : (Part.lowerTransient shot p).pts = p.pts := by
  unfold Part.lowerTransient; (repeat' split) <;> simp
@[simp] theorem Part.lowerTransient_port (shot : Word) (p : Part) : (Part.lowerTransient shot p).port = p.port := by
  unfold Part.lowerTransient; (repeat' split) <;> simp
@[simp] theorem Part.lowerTransient_cal (shot : Word) (p : Part) : (Part.lowerTransient shot p).cal = p.cal := by
  unfold Part.lowerTransient; (repeat' split) <;> simp
@[simp] theorem Part.lowerTransient_esu (shot : Word) (p : Part) : (Part.lowerTransient shot p).esu = p.esu := by
  unfold Part.lowerTransient; (repeat' split) <;> simp
@[simp] theorem Part.lowerTransient_icr (shot : Word) (p : Part) : (Part.lowerTransient shot p).icr = p.icr := by
  unfold Part.lowerTransient; (repeat' split) <;> simp
@[simp] theorem Part.lowerTransient_dpe (shot : Word) (p : Part) : (Part.lowerTransient shot p).dpe = p.dpe := by
  unfold Part.lowerTransient; (repeat' split) <;> simp
@[simp] theorem Part.lowerTransient_prn (shot : Word) (p : Part) : (Part.lowerTransient shot p).prn = p.prn := by
  unfold Part.lowerTransient; (repeat' split) <;> simp
@[simp] theorem Part.lowerTransient_cde (shot : Word) (p : Part) : (Part.lowerTransient shot p).cde = p.cde := by
  unfold Part.lowerTransient; (repeat' split) <;> simp
@[simp] theorem Part.lowerTransient_tsm (shot : Word) (p : Part) : (Part.lowerTransient shot p).tsm = p.tsm := by
  unfold Part.lowerTransient; (repeat' split) <;> simp

@[simp] theorem Part.lowerDark_phase (shot : Word) (d : Option DarkSource) (p : Part) : (Part.lowerDark shot d p).phase = p.phase := by
  unfold Part.lowerDark; (repeat' split) <;> simp
@[simp] theorem Part.lowerDark_clock (shot : Word) (d : Option DarkSource) (p : Part) : (Part.lowerDark shot d p).clock = p.clock := by
  unfold Part.lowerDark; (repeat' split) <;> simp
@[simp] theorem Part.lowerDark_pts (shot : Word) (d : Option DarkSource) (p : Part) : (Part.lowerDark shot d p).pts = p.pts := by
  unfold Part.lowerDark; (repeat' split) <;> simp
@[simp] theorem Part.lowerDark_port (shot : Word) (d : Option DarkSource) (p : Part) : (Part.lowerDark shot d p).port = p.port := by
  unfold Part.lowerDark; (repeat' split) <;> simp
@[simp] theorem Part.lowerDark_cal (shot : Word) (d : Option DarkSource) (p : Part) : (Part.lowerDark shot d p).cal = p.cal := by
  unfold Part.lowerDark; (repeat' split) <;> simp
@[simp] theorem Part.lowerDark_esu (shot : Word) (d : Option DarkSource) (p : Part) : (Part.lowerDark shot d p).esu = p.esu := by
  unfold Part.lowerDark; (repeat' split) <;> simp
@[simp] theorem Part.lowerDark_icr (shot : Word) (d : Option DarkSource) (p : Part) : (Part.lowerDark shot d p).icr = p.icr := by
  unfold Part.lowerDark; (repeat' split) <;> simp
@[simp] theorem Part.lowerDark_dpe (shot : Word) (d : Option DarkSource) (p : Part) : (Part.lowerDark shot d p).dpe = p.dpe := by
  unfold Part.lowerDark; (repeat' split) <;> simp
@[simp] theorem Part.lowerDark_prn (shot : Word) (d : Option DarkSource) (p : Part) : (Part.lowerDark shot d p).prn = p.prn := by
  unfold Part.lowerDark; (repeat' split) <;> simp
@[simp] theorem Part.lowerDark_cde (shot : Word) (d : Option DarkSource) (p : Part) : (Part.lowerDark shot d p).cde = p.cde := by
  unfold Part.lowerDark; (repeat' split) <;> simp
@[simp] theorem Part.lowerDark_tsm (shot : Word) (d : Option DarkSource) (p : Part) : (Part.lowerDark shot d p).tsm = p.tsm := by
  unfold Part.lowerDark; (repeat' split) <;> simp

@[simp] theorem Part.clearViewOf_phase (shot : Word) (p : Part) : (Part.clearViewOf shot p).phase = p.phase := by
  unfold Part.clearViewOf; (repeat' split) <;> simp
@[simp] theorem Part.clearViewOf_clock (shot : Word) (p : Part) : (Part.clearViewOf shot p).clock = p.clock := by
  unfold Part.clearViewOf; (repeat' split) <;> simp
@[simp] theorem Part.clearViewOf_pts (shot : Word) (p : Part) : (Part.clearViewOf shot p).pts = p.pts := by
  unfold Part.clearViewOf; (repeat' split) <;> simp
@[simp] theorem Part.clearViewOf_port (shot : Word) (p : Part) : (Part.clearViewOf shot p).port = p.port := by
  unfold Part.clearViewOf; (repeat' split) <;> simp
@[simp] theorem Part.clearViewOf_cpa (shot : Word) (p : Part) : (Part.clearViewOf shot p).cpa = p.cpa := by
  unfold Part.clearViewOf; (repeat' split) <;> simp
@[simp] theorem Part.clearViewOf_cal (shot : Word) (p : Part) : (Part.clearViewOf shot p).cal = p.cal := by
  unfold Part.clearViewOf; (repeat' split) <;> simp
@[simp] theorem Part.clearViewOf_sht (shot : Word) (p : Part) : (Part.clearViewOf shot p).sht = p.sht := by
  unfold Part.clearViewOf; (repeat' split) <;> simp
@[simp] theorem Part.clearViewOf_esu (shot : Word) (p : Part) : (Part.clearViewOf shot p).esu = p.esu := by
  unfold Part.clearViewOf; (repeat' split) <;> simp
@[simp] theorem Part.clearViewOf_dfl (shot : Word) (p : Part) : (Part.clearViewOf shot p).dfl = p.dfl := by
  unfold Part.clearViewOf; (repeat' split) <;> simp
@[simp] theorem Part.clearViewOf_icr (shot : Word) (p : Part) : (Part.clearViewOf shot p).icr = p.icr := by
  unfold Part.clearViewOf; (repeat' split) <;> simp
@[simp] theorem Part.clearViewOf_dpe (shot : Word) (p : Part) : (Part.clearViewOf shot p).dpe = p.dpe := by
  unfold Part.clearViewOf; (repeat' split) <;> simp
@[simp] theorem Part.clearViewOf_cde (shot : Word) (p : Part) : (Part.clearViewOf shot p).cde = p.cde := by
  unfold Part.clearViewOf; (repeat' split) <;> simp
@[simp] theorem Part.clearViewOf_tsm (shot : Word) (p : Part) : (Part.clearViewOf shot p).tsm = p.tsm := by
  unfold Part.clearViewOf; (repeat' split) <;> simp

@[simp] theorem Part.dropRequest_phase (id : Nat) (p : Part) : (Part.dropRequest id p).phase = p.phase := by
  unfold Part.dropRequest; (repeat' split) <;> simp
@[simp] theorem Part.dropRequest_clock (id : Nat) (p : Part) : (Part.dropRequest id p).clock = p.clock := by
  unfold Part.dropRequest; (repeat' split) <;> simp
@[simp] theorem Part.dropRequest_pts (id : Nat) (p : Part) : (Part.dropRequest id p).pts = p.pts := by
  unfold Part.dropRequest; (repeat' split) <;> simp
@[simp] theorem Part.dropRequest_port (id : Nat) (p : Part) : (Part.dropRequest id p).port = p.port := by
  unfold Part.dropRequest; (repeat' split) <;> simp
@[simp] theorem Part.dropRequest_cal (id : Nat) (p : Part) : (Part.dropRequest id p).cal = p.cal := by
  unfold Part.dropRequest; (repeat' split) <;> simp
@[simp] theorem Part.dropRequest_sht (id : Nat) (p : Part) : (Part.dropRequest id p).sht = p.sht := by
  unfold Part.dropRequest; (repeat' split) <;> simp
@[simp] theorem Part.dropRequest_esu (id : Nat) (p : Part) : (Part.dropRequest id p).esu = p.esu := by
  unfold Part.dropRequest; (repeat' split) <;> simp
@[simp] theorem Part.dropRequest_dfl (id : Nat) (p : Part) : (Part.dropRequest id p).dfl = p.dfl := by
  unfold Part.dropRequest; (repeat' split) <;> simp
@[simp] theorem Part.dropRequest_icr (id : Nat) (p : Part) : (Part.dropRequest id p).icr = p.icr := by
  unfold Part.dropRequest; (repeat' split) <;> simp
@[simp] theorem Part.dropRequest_dpe (id : Nat) (p : Part) : (Part.dropRequest id p).dpe = p.dpe := by
  unfold Part.dropRequest; (repeat' split) <;> simp
@[simp] theorem Part.dropRequest_prn (id : Nat) (p : Part) : (Part.dropRequest id p).prn = p.prn := by
  unfold Part.dropRequest; (repeat' split) <;> simp
@[simp] theorem Part.dropRequest_tsm (id : Nat) (p : Part) : (Part.dropRequest id p).tsm = p.tsm := by
  unfold Part.dropRequest; (repeat' split) <;> simp

@[simp] theorem Part.cancelFor_phase (shot : Word) (p : Part) : (Part.cancelFor shot p).phase = p.phase := by
  unfold Part.cancelFor; (repeat' split) <;> simp
@[simp] theorem Part.cancelFor_clock (shot : Word) (p : Part) : (Part.cancelFor shot p).clock = p.clock := by
  unfold Part.cancelFor; (repeat' split) <;> simp
@[simp] theorem Part.cancelFor_pts (shot : Word) (p : Part) : (Part.cancelFor shot p).pts = p.pts := by
  unfold Part.cancelFor; (repeat' split) <;> simp
@[simp] theorem Part.cancelFor_port (shot : Word) (p : Part) : (Part.cancelFor shot p).port = p.port := by
  unfold Part.cancelFor; (repeat' split) <;> simp
@[simp] theorem Part.cancelFor_cal (shot : Word) (p : Part) : (Part.cancelFor shot p).cal = p.cal := by
  unfold Part.cancelFor; (repeat' split) <;> simp
@[simp] theorem Part.cancelFor_sht (shot : Word) (p : Part) : (Part.cancelFor shot p).sht = p.sht := by
  unfold Part.cancelFor; (repeat' split) <;> simp
@[simp] theorem Part.cancelFor_esu (shot : Word) (p : Part) : (Part.cancelFor shot p).esu = p.esu := by
  unfold Part.cancelFor; (repeat' split) <;> simp
@[simp] theorem Part.cancelFor_dfl (shot : Word) (p : Part) : (Part.cancelFor shot p).dfl = p.dfl := by
  unfold Part.cancelFor; (repeat' split) <;> simp
@[simp] theorem Part.cancelFor_icr (shot : Word) (p : Part) : (Part.cancelFor shot p).icr = p.icr := by
  unfold Part.cancelFor; (repeat' split) <;> simp
@[simp] theorem Part.cancelFor_dpe (shot : Word) (p : Part) : (Part.cancelFor shot p).dpe = p.dpe := by
  unfold Part.cancelFor; (repeat' split) <;> simp
@[simp] theorem Part.cancelFor_prn (shot : Word) (p : Part) : (Part.cancelFor shot p).prn = p.prn := by
  unfold Part.cancelFor; (repeat' split) <;> simp
@[simp] theorem Part.cancelFor_tsm (shot : Word) (p : Part) : (Part.cancelFor shot p).tsm = p.tsm := by
  unfold Part.cancelFor; (repeat' split) <;> simp

@[simp] theorem Part.dropRecord_phase (n : Word) (t : Shot) (p : Part) : (Part.dropRecord n t p).phase = p.phase := by
  unfold Part.dropRecord; dsimp only; split <;> split <;> simp
@[simp] theorem Part.dropRecord_clock (n : Word) (t : Shot) (p : Part) : (Part.dropRecord n t p).clock = p.clock := by
  unfold Part.dropRecord; dsimp only; split <;> split <;> simp
@[simp] theorem Part.dropRecord_pts (n : Word) (t : Shot) (p : Part) : (Part.dropRecord n t p).pts = p.pts := by
  unfold Part.dropRecord; dsimp only; split <;> split <;> simp
@[simp] theorem Part.dropRecord_port (n : Word) (t : Shot) (p : Part) : (Part.dropRecord n t p).port = p.port := by
  unfold Part.dropRecord; dsimp only; split <;> split <;> simp
@[simp] theorem Part.dropRecord_cal (n : Word) (t : Shot) (p : Part) : (Part.dropRecord n t p).cal = p.cal := by
  unfold Part.dropRecord; dsimp only; split <;> split <;> simp
@[simp] theorem Part.dropRecord_esu (n : Word) (t : Shot) (p : Part) : (Part.dropRecord n t p).esu = p.esu := by
  unfold Part.dropRecord; dsimp only; split <;> split <;> simp
@[simp] theorem Part.dropRecord_icr (n : Word) (t : Shot) (p : Part) : (Part.dropRecord n t p).icr = p.icr := by
  unfold Part.dropRecord; dsimp only; split <;> split <;> simp
@[simp] theorem Part.dropRecord_dpe (n : Word) (t : Shot) (p : Part) : (Part.dropRecord n t p).dpe = p.dpe := by
  unfold Part.dropRecord; dsimp only; split <;> split <;> simp
@[simp] theorem Part.dropRecord_tsm (n : Word) (t : Shot) (p : Part) : (Part.dropRecord n t p).tsm = p.tsm := by
  unfold Part.dropRecord; dsimp only; split <;> split <;> simp

@[simp] theorem Part.removeShot_phase (n : Word) (p : Part) : (Part.removeShot n p).phase = p.phase := by
  unfold Part.removeShot; split <;> simp
@[simp] theorem Part.removeShot_clock (n : Word) (p : Part) : (Part.removeShot n p).clock = p.clock := by
  unfold Part.removeShot; split <;> simp
@[simp] theorem Part.removeShot_pts (n : Word) (p : Part) : (Part.removeShot n p).pts = p.pts := by
  unfold Part.removeShot; split <;> simp
@[simp] theorem Part.removeShot_port (n : Word) (p : Part) : (Part.removeShot n p).port = p.port := by
  unfold Part.removeShot; split <;> simp
@[simp] theorem Part.removeShot_cal (n : Word) (p : Part) : (Part.removeShot n p).cal = p.cal := by
  unfold Part.removeShot; split <;> simp
@[simp] theorem Part.removeShot_esu (n : Word) (p : Part) : (Part.removeShot n p).esu = p.esu := by
  unfold Part.removeShot; split <;> simp
@[simp] theorem Part.removeShot_icr (n : Word) (p : Part) : (Part.removeShot n p).icr = p.icr := by
  unfold Part.removeShot; split <;> simp
@[simp] theorem Part.removeShot_dpe (n : Word) (p : Part) : (Part.removeShot n p).dpe = p.dpe := by
  unfold Part.removeShot; split <;> simp
@[simp] theorem Part.removeShot_tsm (n : Word) (p : Part) : (Part.removeShot n p).tsm = p.tsm := by
  unfold Part.removeShot; split <;> simp

@[simp] theorem Part.autoRelease_phase (n : Word) (p : Part) : (Part.autoRelease n p).phase = p.phase := by
  unfold Part.autoRelease; (repeat' split) <;> simp
@[simp] theorem Part.autoRelease_clock (n : Word) (p : Part) : (Part.autoRelease n p).clock = p.clock := by
  unfold Part.autoRelease; (repeat' split) <;> simp
@[simp] theorem Part.autoRelease_pts (n : Word) (p : Part) : (Part.autoRelease n p).pts = p.pts := by
  unfold Part.autoRelease; (repeat' split) <;> simp
@[simp] theorem Part.autoRelease_port (n : Word) (p : Part) : (Part.autoRelease n p).port = p.port := by
  unfold Part.autoRelease; (repeat' split) <;> simp
@[simp] theorem Part.autoRelease_cal (n : Word) (p : Part) : (Part.autoRelease n p).cal = p.cal := by
  unfold Part.autoRelease; (repeat' split) <;> simp
@[simp] theorem Part.autoRelease_esu (n : Word) (p : Part) : (Part.autoRelease n p).esu = p.esu := by
  unfold Part.autoRelease; (repeat' split) <;> simp
@[simp] theorem Part.autoRelease_icr (n : Word) (p : Part) : (Part.autoRelease n p).icr = p.icr := by
  unfold Part.autoRelease; (repeat' split) <;> simp
@[simp] theorem Part.autoRelease_dpe (n : Word) (p : Part) : (Part.autoRelease n p).dpe = p.dpe := by
  unfold Part.autoRelease; (repeat' split) <;> simp
@[simp] theorem Part.autoRelease_tsm (n : Word) (p : Part) : (Part.autoRelease n p).tsm = p.tsm := by
  unfold Part.autoRelease; (repeat' split) <;> simp

@[simp] theorem Part.setTarget_phase (t : Target) (at_ : Word) (p : Part) : (Part.setTarget t at_ p).phase = p.phase := by
  unfold Part.setTarget; (repeat' split) <;> simp
@[simp] theorem Part.setTarget_clock (t : Target) (at_ : Word) (p : Part) : (Part.setTarget t at_ p).clock = p.clock := by
  unfold Part.setTarget; (repeat' split) <;> simp
@[simp] theorem Part.setTarget_pts (t : Target) (at_ : Word) (p : Part) : (Part.setTarget t at_ p).pts = p.pts := by
  unfold Part.setTarget; (repeat' split) <;> simp
@[simp] theorem Part.setTarget_port (t : Target) (at_ : Word) (p : Part) : (Part.setTarget t at_ p).port = p.port := by
  unfold Part.setTarget; (repeat' split) <;> simp
@[simp] theorem Part.setTarget_cpa (t : Target) (at_ : Word) (p : Part) : (Part.setTarget t at_ p).cpa = p.cpa := by
  unfold Part.setTarget; (repeat' split) <;> simp
@[simp] theorem Part.setTarget_cal (t : Target) (at_ : Word) (p : Part) : (Part.setTarget t at_ p).cal = p.cal := by
  unfold Part.setTarget; (repeat' split) <;> simp
@[simp] theorem Part.setTarget_esu (t : Target) (at_ : Word) (p : Part) : (Part.setTarget t at_ p).esu = p.esu := by
  unfold Part.setTarget; (repeat' split) <;> simp
@[simp] theorem Part.setTarget_dfl (t : Target) (at_ : Word) (p : Part) : (Part.setTarget t at_ p).dfl = p.dfl := by
  unfold Part.setTarget; (repeat' split) <;> simp
@[simp] theorem Part.setTarget_dpe (t : Target) (at_ : Word) (p : Part) : (Part.setTarget t at_ p).dpe = p.dpe := by
  unfold Part.setTarget; (repeat' split) <;> simp
@[simp] theorem Part.setTarget_prn (t : Target) (at_ : Word) (p : Part) : (Part.setTarget t at_ p).prn = p.prn := by
  unfold Part.setTarget; (repeat' split) <;> simp
@[simp] theorem Part.setTarget_cde (t : Target) (at_ : Word) (p : Part) : (Part.setTarget t at_ p).cde = p.cde := by
  unfold Part.setTarget; (repeat' split) <;> simp
@[simp] theorem Part.setTarget_tsm (t : Target) (at_ : Word) (p : Part) : (Part.setTarget t at_ p).tsm = p.tsm := by
  unfold Part.setTarget; (repeat' split) <;> simp

@[simp] theorem Part.fireStrobe_phase (n : Word) (at_ : Word) (p : Part) : (Part.fireStrobe n at_ p).phase = p.phase := rfl
@[simp] theorem Part.fireStrobe_clock (n : Word) (at_ : Word) (p : Part) : (Part.fireStrobe n at_ p).clock = p.clock := rfl
@[simp] theorem Part.fireStrobe_pts (n : Word) (at_ : Word) (p : Part) : (Part.fireStrobe n at_ p).pts = p.pts := rfl
@[simp] theorem Part.fireStrobe_port (n : Word) (at_ : Word) (p : Part) : (Part.fireStrobe n at_ p).port = p.port := rfl
@[simp] theorem Part.fireStrobe_cpa (n : Word) (at_ : Word) (p : Part) : (Part.fireStrobe n at_ p).cpa = p.cpa := rfl
@[simp] theorem Part.fireStrobe_cal (n : Word) (at_ : Word) (p : Part) : (Part.fireStrobe n at_ p).cal = p.cal := rfl
@[simp] theorem Part.fireStrobe_dfl (n : Word) (at_ : Word) (p : Part) : (Part.fireStrobe n at_ p).dfl = p.dfl := rfl
@[simp] theorem Part.fireStrobe_icr (n : Word) (at_ : Word) (p : Part) : (Part.fireStrobe n at_ p).icr = p.icr := rfl
@[simp] theorem Part.fireStrobe_dpe (n : Word) (at_ : Word) (p : Part) : (Part.fireStrobe n at_ p).dpe = p.dpe := rfl
@[simp] theorem Part.fireStrobe_prn (n : Word) (at_ : Word) (p : Part) : (Part.fireStrobe n at_ p).prn = p.prn := rfl
@[simp] theorem Part.fireStrobe_cde (n : Word) (at_ : Word) (p : Part) : (Part.fireStrobe n at_ p).cde = p.cde := rfl
@[simp] theorem Part.fireStrobe_tsm (n : Word) (at_ : Word) (p : Part) : (Part.fireStrobe n at_ p).tsm = p.tsm := rfl

@[simp] theorem Part.scheduleStrobe_phase (n : Word) (fire at_ : Word) (p : Part) : (Part.scheduleStrobe n fire at_ p).phase = p.phase := by
  unfold Part.scheduleStrobe; (repeat' split) <;> simp
@[simp] theorem Part.scheduleStrobe_clock (n : Word) (fire at_ : Word) (p : Part) : (Part.scheduleStrobe n fire at_ p).clock = p.clock := by
  unfold Part.scheduleStrobe; (repeat' split) <;> simp
@[simp] theorem Part.scheduleStrobe_pts (n : Word) (fire at_ : Word) (p : Part) : (Part.scheduleStrobe n fire at_ p).pts = p.pts := by
  unfold Part.scheduleStrobe; (repeat' split) <;> simp
@[simp] theorem Part.scheduleStrobe_port (n : Word) (fire at_ : Word) (p : Part) : (Part.scheduleStrobe n fire at_ p).port = p.port := by
  unfold Part.scheduleStrobe; (repeat' split) <;> simp
@[simp] theorem Part.scheduleStrobe_cpa (n : Word) (fire at_ : Word) (p : Part) : (Part.scheduleStrobe n fire at_ p).cpa = p.cpa := by
  unfold Part.scheduleStrobe; (repeat' split) <;> simp
@[simp] theorem Part.scheduleStrobe_cal (n : Word) (fire at_ : Word) (p : Part) : (Part.scheduleStrobe n fire at_ p).cal = p.cal := by
  unfold Part.scheduleStrobe; (repeat' split) <;> simp
@[simp] theorem Part.scheduleStrobe_dfl (n : Word) (fire at_ : Word) (p : Part) : (Part.scheduleStrobe n fire at_ p).dfl = p.dfl := by
  unfold Part.scheduleStrobe; (repeat' split) <;> simp
@[simp] theorem Part.scheduleStrobe_icr (n : Word) (fire at_ : Word) (p : Part) : (Part.scheduleStrobe n fire at_ p).icr = p.icr := by
  unfold Part.scheduleStrobe; (repeat' split) <;> simp
@[simp] theorem Part.scheduleStrobe_dpe (n : Word) (fire at_ : Word) (p : Part) : (Part.scheduleStrobe n fire at_ p).dpe = p.dpe := by
  unfold Part.scheduleStrobe; (repeat' split) <;> simp
@[simp] theorem Part.scheduleStrobe_prn (n : Word) (fire at_ : Word) (p : Part) : (Part.scheduleStrobe n fire at_ p).prn = p.prn := by
  unfold Part.scheduleStrobe; (repeat' split) <;> simp
@[simp] theorem Part.scheduleStrobe_cde (n : Word) (fire at_ : Word) (p : Part) : (Part.scheduleStrobe n fire at_ p).cde = p.cde := by
  unfold Part.scheduleStrobe; (repeat' split) <;> simp
@[simp] theorem Part.scheduleStrobe_tsm (n : Word) (fire at_ : Word) (p : Part) : (Part.scheduleStrobe n fire at_ p).tsm = p.tsm := by
  unfold Part.scheduleStrobe; (repeat' split) <;> simp

@[simp] theorem Part.startPass_phase (p : Part) : (Part.startPass p).phase = p.phase := by
  unfold Part.startPass; (repeat' split) <;> simp
@[simp] theorem Part.startPass_clock (p : Part) : (Part.startPass p).clock = p.clock := by
  unfold Part.startPass; (repeat' split) <;> simp
@[simp] theorem Part.startPass_pts (p : Part) : (Part.startPass p).pts = p.pts := by
  unfold Part.startPass; (repeat' split) <;> simp
@[simp] theorem Part.startPass_port (p : Part) : (Part.startPass p).port = p.port := by
  unfold Part.startPass; (repeat' split) <;> simp
@[simp] theorem Part.startPass_cpa (p : Part) : (Part.startPass p).cpa = p.cpa := by
  unfold Part.startPass; (repeat' split) <;> simp
@[simp] theorem Part.startPass_cal (p : Part) : (Part.startPass p).cal = p.cal := by
  unfold Part.startPass; (repeat' split) <;> simp
@[simp] theorem Part.startPass_sht (p : Part) : (Part.startPass p).sht = p.sht := by
  unfold Part.startPass; (repeat' split) <;> simp
@[simp] theorem Part.startPass_esu (p : Part) : (Part.startPass p).esu = p.esu := by
  unfold Part.startPass; (repeat' split) <;> simp
@[simp] theorem Part.startPass_dfl (p : Part) : (Part.startPass p).dfl = p.dfl := by
  unfold Part.startPass; (repeat' split) <;> simp
@[simp] theorem Part.startPass_icr (p : Part) : (Part.startPass p).icr = p.icr := by
  unfold Part.startPass; (repeat' split) <;> simp
@[simp] theorem Part.startPass_prn (p : Part) : (Part.startPass p).prn = p.prn := by
  unfold Part.startPass; (repeat' split) <;> simp
@[simp] theorem Part.startPass_cde (p : Part) : (Part.startPass p).cde = p.cde := by
  unfold Part.startPass; (repeat' split) <;> simp
@[simp] theorem Part.startPass_tsm (p : Part) : (Part.startPass p).tsm = p.tsm := by
  unfold Part.startPass; (repeat' split) <;> simp

@[simp] theorem Part.handToDevelop_phase (n : Word) (p : Part) : (Part.handToDevelop n p).phase = p.phase := by
  unfold Part.handToDevelop; (repeat' split) <;> simp
@[simp] theorem Part.handToDevelop_clock (n : Word) (p : Part) : (Part.handToDevelop n p).clock = p.clock := by
  unfold Part.handToDevelop; (repeat' split) <;> simp
@[simp] theorem Part.handToDevelop_pts (n : Word) (p : Part) : (Part.handToDevelop n p).pts = p.pts := by
  unfold Part.handToDevelop; (repeat' split) <;> simp
@[simp] theorem Part.handToDevelop_port (n : Word) (p : Part) : (Part.handToDevelop n p).port = p.port := by
  unfold Part.handToDevelop; (repeat' split) <;> simp
@[simp] theorem Part.handToDevelop_cpa (n : Word) (p : Part) : (Part.handToDevelop n p).cpa = p.cpa := by
  unfold Part.handToDevelop; (repeat' split) <;> simp
@[simp] theorem Part.handToDevelop_cal (n : Word) (p : Part) : (Part.handToDevelop n p).cal = p.cal := by
  unfold Part.handToDevelop; (repeat' split) <;> simp
@[simp] theorem Part.handToDevelop_esu (n : Word) (p : Part) : (Part.handToDevelop n p).esu = p.esu := by
  unfold Part.handToDevelop; (repeat' split) <;> simp
@[simp] theorem Part.handToDevelop_dfl (n : Word) (p : Part) : (Part.handToDevelop n p).dfl = p.dfl := by
  unfold Part.handToDevelop; (repeat' split) <;> simp
@[simp] theorem Part.handToDevelop_icr (n : Word) (p : Part) : (Part.handToDevelop n p).icr = p.icr := by
  unfold Part.handToDevelop; (repeat' split) <;> simp
@[simp] theorem Part.handToDevelop_prn (n : Word) (p : Part) : (Part.handToDevelop n p).prn = p.prn := by
  unfold Part.handToDevelop; (repeat' split) <;> simp
@[simp] theorem Part.handToDevelop_cde (n : Word) (p : Part) : (Part.handToDevelop n p).cde = p.cde := by
  unfold Part.handToDevelop; (repeat' split) <;> simp
@[simp] theorem Part.handToDevelop_tsm (n : Word) (p : Part) : (Part.handToDevelop n p).tsm = p.tsm := by
  unfold Part.handToDevelop; (repeat' split) <;> simp

@[simp] theorem Part.skipDark_phase (n : Word) (reason : DarkReason) (elapsed : Nat) (p : Part) : (Part.skipDark n reason elapsed p).phase = p.phase := by
  unfold Part.skipDark; (repeat' split) <;> simp
@[simp] theorem Part.skipDark_clock (n : Word) (reason : DarkReason) (elapsed : Nat) (p : Part) : (Part.skipDark n reason elapsed p).clock = p.clock := by
  unfold Part.skipDark; (repeat' split) <;> simp
@[simp] theorem Part.skipDark_pts (n : Word) (reason : DarkReason) (elapsed : Nat) (p : Part) : (Part.skipDark n reason elapsed p).pts = p.pts := by
  unfold Part.skipDark; (repeat' split) <;> simp
@[simp] theorem Part.skipDark_port (n : Word) (reason : DarkReason) (elapsed : Nat) (p : Part) : (Part.skipDark n reason elapsed p).port = p.port := by
  unfold Part.skipDark; (repeat' split) <;> simp
@[simp] theorem Part.skipDark_cal (n : Word) (reason : DarkReason) (elapsed : Nat) (p : Part) : (Part.skipDark n reason elapsed p).cal = p.cal := by
  unfold Part.skipDark; (repeat' split) <;> simp
@[simp] theorem Part.skipDark_esu (n : Word) (reason : DarkReason) (elapsed : Nat) (p : Part) : (Part.skipDark n reason elapsed p).esu = p.esu := by
  unfold Part.skipDark; (repeat' split) <;> simp
@[simp] theorem Part.skipDark_dfl (n : Word) (reason : DarkReason) (elapsed : Nat) (p : Part) : (Part.skipDark n reason elapsed p).dfl = p.dfl := by
  unfold Part.skipDark; (repeat' split) <;> simp
@[simp] theorem Part.skipDark_icr (n : Word) (reason : DarkReason) (elapsed : Nat) (p : Part) : (Part.skipDark n reason elapsed p).icr = p.icr := by
  unfold Part.skipDark; (repeat' split) <;> simp
@[simp] theorem Part.skipDark_prn (n : Word) (reason : DarkReason) (elapsed : Nat) (p : Part) : (Part.skipDark n reason elapsed p).prn = p.prn := by
  unfold Part.skipDark; (repeat' split) <;> simp
@[simp] theorem Part.skipDark_cde (n : Word) (reason : DarkReason) (elapsed : Nat) (p : Part) : (Part.skipDark n reason elapsed p).cde = p.cde := by
  unfold Part.skipDark; (repeat' split) <;> simp
@[simp] theorem Part.skipDark_tsm (n : Word) (reason : DarkReason) (elapsed : Nat) (p : Part) : (Part.skipDark n reason elapsed p).tsm = p.tsm := by
  unfold Part.skipDark; (repeat' split) <;> simp

@[simp] theorem Part.takeDecision_phase (n : Word) (at_ : Word) (d : Decision) (p : Part) : (Part.takeDecision n at_ d p).phase = p.phase := by
  unfold Part.takeDecision; (repeat' split) <;> simp
@[simp] theorem Part.takeDecision_clock (n : Word) (at_ : Word) (d : Decision) (p : Part) : (Part.takeDecision n at_ d p).clock = p.clock := by
  unfold Part.takeDecision; (repeat' split) <;> simp
@[simp] theorem Part.takeDecision_pts (n : Word) (at_ : Word) (d : Decision) (p : Part) : (Part.takeDecision n at_ d p).pts = p.pts := by
  unfold Part.takeDecision; (repeat' split) <;> simp
@[simp] theorem Part.takeDecision_port (n : Word) (at_ : Word) (d : Decision) (p : Part) : (Part.takeDecision n at_ d p).port = p.port := by
  unfold Part.takeDecision; (repeat' split) <;> simp
@[simp] theorem Part.takeDecision_cal (n : Word) (at_ : Word) (d : Decision) (p : Part) : (Part.takeDecision n at_ d p).cal = p.cal := by
  unfold Part.takeDecision; (repeat' split) <;> simp
@[simp] theorem Part.takeDecision_esu (n : Word) (at_ : Word) (d : Decision) (p : Part) : (Part.takeDecision n at_ d p).esu = p.esu := by
  unfold Part.takeDecision; (repeat' split) <;> simp
@[simp] theorem Part.takeDecision_icr (n : Word) (at_ : Word) (d : Decision) (p : Part) : (Part.takeDecision n at_ d p).icr = p.icr := by
  unfold Part.takeDecision; (repeat' split) <;> simp
@[simp] theorem Part.takeDecision_dpe (n : Word) (at_ : Word) (d : Decision) (p : Part) : (Part.takeDecision n at_ d p).dpe = p.dpe := by
  unfold Part.takeDecision; (repeat' split) <;> simp
@[simp] theorem Part.takeDecision_prn (n : Word) (at_ : Word) (d : Decision) (p : Part) : (Part.takeDecision n at_ d p).prn = p.prn := by
  unfold Part.takeDecision; (repeat' split) <;> simp
@[simp] theorem Part.takeDecision_cde (n : Word) (at_ : Word) (d : Decision) (p : Part) : (Part.takeDecision n at_ d p).cde = p.cde := by
  unfold Part.takeDecision; (repeat' split) <;> simp
@[simp] theorem Part.takeDecision_tsm (n : Word) (at_ : Word) (d : Decision) (p : Part) : (Part.takeDecision n at_ d p).tsm = p.tsm := by
  unfold Part.takeDecision; (repeat' split) <;> simp

@[simp] theorem Part.beginRead_phase (t : Shot) (at_ : Word) (path : Path) (dark : Option DarkUse) (p : Part) : (Part.beginRead t at_ path dark p).phase = p.phase := by
  unfold Part.beginRead; (repeat' split) <;> simp
@[simp] theorem Part.beginRead_clock (t : Shot) (at_ : Word) (path : Path) (dark : Option DarkUse) (p : Part) : (Part.beginRead t at_ path dark p).clock = p.clock := by
  unfold Part.beginRead; (repeat' split) <;> simp
@[simp] theorem Part.beginRead_pts (t : Shot) (at_ : Word) (path : Path) (dark : Option DarkUse) (p : Part) : (Part.beginRead t at_ path dark p).pts = p.pts := by
  unfold Part.beginRead; (repeat' split) <;> simp
@[simp] theorem Part.beginRead_port (t : Shot) (at_ : Word) (path : Path) (dark : Option DarkUse) (p : Part) : (Part.beginRead t at_ path dark p).port = p.port := by
  unfold Part.beginRead; (repeat' split) <;> simp
@[simp] theorem Part.beginRead_cal (t : Shot) (at_ : Word) (path : Path) (dark : Option DarkUse) (p : Part) : (Part.beginRead t at_ path dark p).cal = p.cal := by
  unfold Part.beginRead; (repeat' split) <;> simp
@[simp] theorem Part.beginRead_dfl (t : Shot) (at_ : Word) (path : Path) (dark : Option DarkUse) (p : Part) : (Part.beginRead t at_ path dark p).dfl = p.dfl := by
  unfold Part.beginRead; (repeat' split) <;> simp
@[simp] theorem Part.beginRead_dpe (t : Shot) (at_ : Word) (path : Path) (dark : Option DarkUse) (p : Part) : (Part.beginRead t at_ path dark p).dpe = p.dpe := by
  unfold Part.beginRead; (repeat' split) <;> simp
@[simp] theorem Part.beginRead_prn (t : Shot) (at_ : Word) (path : Path) (dark : Option DarkUse) (p : Part) : (Part.beginRead t at_ path dark p).prn = p.prn := by
  unfold Part.beginRead; (repeat' split) <;> simp
@[simp] theorem Part.beginRead_cde (t : Shot) (at_ : Word) (path : Path) (dark : Option DarkUse) (p : Part) : (Part.beginRead t at_ path dark p).cde = p.cde := by
  unfold Part.beginRead; (repeat' split) <;> simp
@[simp] theorem Part.beginRead_tsm (t : Shot) (at_ : Word) (path : Path) (dark : Option DarkUse) (p : Part) : (Part.beginRead t at_ path dark p).tsm = p.tsm := by
  unfold Part.beginRead; (repeat' split) <;> simp

@[simp] theorem Part.integrationEnd_phase (n : Word) (at_ : Word) (p : Part) : (Part.integrationEnd n at_ p).phase = p.phase := by
  unfold Part.integrationEnd; (repeat' split) <;> simp
@[simp] theorem Part.integrationEnd_clock (n : Word) (at_ : Word) (p : Part) : (Part.integrationEnd n at_ p).clock = p.clock := by
  unfold Part.integrationEnd; (repeat' split) <;> simp
@[simp] theorem Part.integrationEnd_pts (n : Word) (at_ : Word) (p : Part) : (Part.integrationEnd n at_ p).pts = p.pts := by
  unfold Part.integrationEnd; (repeat' split) <;> simp
@[simp] theorem Part.integrationEnd_port (n : Word) (at_ : Word) (p : Part) : (Part.integrationEnd n at_ p).port = p.port := by
  unfold Part.integrationEnd; (repeat' split) <;> simp
@[simp] theorem Part.integrationEnd_cal (n : Word) (at_ : Word) (p : Part) : (Part.integrationEnd n at_ p).cal = p.cal := by
  unfold Part.integrationEnd; (repeat' split) <;> simp
@[simp] theorem Part.integrationEnd_dpe (n : Word) (at_ : Word) (p : Part) : (Part.integrationEnd n at_ p).dpe = p.dpe := by
  unfold Part.integrationEnd; (repeat' split) <;> simp
@[simp] theorem Part.integrationEnd_prn (n : Word) (at_ : Word) (p : Part) : (Part.integrationEnd n at_ p).prn = p.prn := by
  unfold Part.integrationEnd; (repeat' split) <;> simp
@[simp] theorem Part.integrationEnd_cde (n : Word) (at_ : Word) (p : Part) : (Part.integrationEnd n at_ p).cde = p.cde := by
  unfold Part.integrationEnd; (repeat' split) <;> simp
@[simp] theorem Part.integrationEnd_tsm (n : Word) (at_ : Word) (p : Part) : (Part.integrationEnd n at_ p).tsm = p.tsm := by
  unfold Part.integrationEnd; (repeat' split) <;> simp

@[simp] theorem Part.missShot_phase (t : Shot) (at_ : Word) (p : Part) : (Part.missShot t at_ p).phase = p.phase := by
  unfold Part.missShot; (repeat' split) <;> simp
@[simp] theorem Part.missShot_clock (t : Shot) (at_ : Word) (p : Part) : (Part.missShot t at_ p).clock = p.clock := by
  unfold Part.missShot; (repeat' split) <;> simp
@[simp] theorem Part.missShot_pts (t : Shot) (at_ : Word) (p : Part) : (Part.missShot t at_ p).pts = p.pts := by
  unfold Part.missShot; (repeat' split) <;> simp
@[simp] theorem Part.missShot_port (t : Shot) (at_ : Word) (p : Part) : (Part.missShot t at_ p).port = p.port := by
  unfold Part.missShot; (repeat' split) <;> simp
@[simp] theorem Part.missShot_cal (t : Shot) (at_ : Word) (p : Part) : (Part.missShot t at_ p).cal = p.cal := by
  unfold Part.missShot; (repeat' split) <;> simp
@[simp] theorem Part.missShot_icr (t : Shot) (at_ : Word) (p : Part) : (Part.missShot t at_ p).icr = p.icr := by
  unfold Part.missShot; (repeat' split) <;> simp
@[simp] theorem Part.missShot_dpe (t : Shot) (at_ : Word) (p : Part) : (Part.missShot t at_ p).dpe = p.dpe := by
  unfold Part.missShot; (repeat' split) <;> simp
@[simp] theorem Part.missShot_tsm (t : Shot) (at_ : Word) (p : Part) : (Part.missShot t at_ p).tsm = p.tsm := by
  unfold Part.missShot; (repeat' split) <;> simp

@[simp] theorem Part.setCard_phase (c : CardState) (step : List Word) (p : Part) : (Part.setCard c step p).phase = p.phase := by
  unfold Part.setCard; (repeat' split) <;> simp
@[simp] theorem Part.setCard_clock (c : CardState) (step : List Word) (p : Part) : (Part.setCard c step p).clock = p.clock := by
  unfold Part.setCard; (repeat' split) <;> simp
@[simp] theorem Part.setCard_pts (c : CardState) (step : List Word) (p : Part) : (Part.setCard c step p).pts = p.pts := by
  unfold Part.setCard; (repeat' split) <;> simp
@[simp] theorem Part.setCard_port (c : CardState) (step : List Word) (p : Part) : (Part.setCard c step p).port = p.port := by
  unfold Part.setCard; (repeat' split) <;> simp
@[simp] theorem Part.setCard_cal (c : CardState) (step : List Word) (p : Part) : (Part.setCard c step p).cal = p.cal := by
  unfold Part.setCard; (repeat' split) <;> simp
@[simp] theorem Part.setCard_sht (c : CardState) (step : List Word) (p : Part) : (Part.setCard c step p).sht = p.sht := by
  unfold Part.setCard; (repeat' split) <;> simp
@[simp] theorem Part.setCard_esu (c : CardState) (step : List Word) (p : Part) : (Part.setCard c step p).esu = p.esu := by
  unfold Part.setCard; (repeat' split) <;> simp
@[simp] theorem Part.setCard_dfl (c : CardState) (step : List Word) (p : Part) : (Part.setCard c step p).dfl = p.dfl := by
  unfold Part.setCard; (repeat' split) <;> simp
@[simp] theorem Part.setCard_icr (c : CardState) (step : List Word) (p : Part) : (Part.setCard c step p).icr = p.icr := by
  unfold Part.setCard; (repeat' split) <;> simp
@[simp] theorem Part.setCard_dpe (c : CardState) (step : List Word) (p : Part) : (Part.setCard c step p).dpe = p.dpe := by
  unfold Part.setCard; (repeat' split) <;> simp
@[simp] theorem Part.setCard_prn (c : CardState) (step : List Word) (p : Part) : (Part.setCard c step p).prn = p.prn := by
  unfold Part.setCard; (repeat' split) <;> simp
@[simp] theorem Part.setCard_tsm (c : CardState) (step : List Word) (p : Part) : (Part.setCard c step p).tsm = p.tsm := by
  unfold Part.setCard; (repeat' split) <;> simp

@[simp] theorem Part.leaveStoring_phase (n : Word) (p : Part) : (Part.leaveStoring n p).phase = p.phase := rfl
@[simp] theorem Part.leaveStoring_clock (n : Word) (p : Part) : (Part.leaveStoring n p).clock = p.clock := rfl
@[simp] theorem Part.leaveStoring_pts (n : Word) (p : Part) : (Part.leaveStoring n p).pts = p.pts := rfl
@[simp] theorem Part.leaveStoring_port (n : Word) (p : Part) : (Part.leaveStoring n p).port = p.port := rfl
@[simp] theorem Part.leaveStoring_cpa (n : Word) (p : Part) : (Part.leaveStoring n p).cpa = p.cpa := rfl
@[simp] theorem Part.leaveStoring_cal (n : Word) (p : Part) : (Part.leaveStoring n p).cal = p.cal := rfl
@[simp] theorem Part.leaveStoring_esu (n : Word) (p : Part) : (Part.leaveStoring n p).esu = p.esu := rfl
@[simp] theorem Part.leaveStoring_dfl (n : Word) (p : Part) : (Part.leaveStoring n p).dfl = p.dfl := rfl
@[simp] theorem Part.leaveStoring_icr (n : Word) (p : Part) : (Part.leaveStoring n p).icr = p.icr := rfl
@[simp] theorem Part.leaveStoring_dpe (n : Word) (p : Part) : (Part.leaveStoring n p).dpe = p.dpe := rfl
@[simp] theorem Part.leaveStoring_prn (n : Word) (p : Part) : (Part.leaveStoring n p).prn = p.prn := rfl
@[simp] theorem Part.leaveStoring_cde (n : Word) (p : Part) : (Part.leaveStoring n p).cde = p.cde := rfl
@[simp] theorem Part.leaveStoring_tsm (n : Word) (p : Part) : (Part.leaveStoring n p).tsm = p.tsm := rfl

@[simp] theorem Part.haltRequest_phase (id : Nat) (cause : Cause) (p : Part) : (Part.haltRequest id cause p).phase = p.phase := by
  unfold Part.haltRequest; (repeat' split) <;> simp
@[simp] theorem Part.haltRequest_clock (id : Nat) (cause : Cause) (p : Part) : (Part.haltRequest id cause p).clock = p.clock := by
  unfold Part.haltRequest; (repeat' split) <;> simp
@[simp] theorem Part.haltRequest_pts (id : Nat) (cause : Cause) (p : Part) : (Part.haltRequest id cause p).pts = p.pts := by
  unfold Part.haltRequest; (repeat' split) <;> simp
@[simp] theorem Part.haltRequest_port (id : Nat) (cause : Cause) (p : Part) : (Part.haltRequest id cause p).port = p.port := by
  unfold Part.haltRequest; (repeat' split) <;> simp
@[simp] theorem Part.haltRequest_cal (id : Nat) (cause : Cause) (p : Part) : (Part.haltRequest id cause p).cal = p.cal := by
  unfold Part.haltRequest; (repeat' split) <;> simp
@[simp] theorem Part.haltRequest_esu (id : Nat) (cause : Cause) (p : Part) : (Part.haltRequest id cause p).esu = p.esu := by
  unfold Part.haltRequest; (repeat' split) <;> simp
@[simp] theorem Part.haltRequest_dfl (id : Nat) (cause : Cause) (p : Part) : (Part.haltRequest id cause p).dfl = p.dfl := by
  unfold Part.haltRequest; (repeat' split) <;> simp
@[simp] theorem Part.haltRequest_icr (id : Nat) (cause : Cause) (p : Part) : (Part.haltRequest id cause p).icr = p.icr := by
  unfold Part.haltRequest; (repeat' split) <;> simp
@[simp] theorem Part.haltRequest_dpe (id : Nat) (cause : Cause) (p : Part) : (Part.haltRequest id cause p).dpe = p.dpe := by
  unfold Part.haltRequest; (repeat' split) <;> simp
@[simp] theorem Part.haltRequest_prn (id : Nat) (cause : Cause) (p : Part) : (Part.haltRequest id cause p).prn = p.prn := by
  unfold Part.haltRequest; (repeat' split) <;> simp
@[simp] theorem Part.haltRequest_tsm (id : Nat) (cause : Cause) (p : Part) : (Part.haltRequest id cause p).tsm = p.tsm := by
  unfold Part.haltRequest; (repeat' split) <;> simp

@[simp] theorem Part.requestDone_phase (r : Request) (cancelled : Bool) (done : Nat) (p : Part) : (Part.requestDone r cancelled done p).phase = p.phase := by
  unfold Part.requestDone; (repeat' split) <;> simp
@[simp] theorem Part.requestDone_clock (r : Request) (cancelled : Bool) (done : Nat) (p : Part) : (Part.requestDone r cancelled done p).clock = p.clock := by
  unfold Part.requestDone; (repeat' split) <;> simp
@[simp] theorem Part.requestDone_pts (r : Request) (cancelled : Bool) (done : Nat) (p : Part) : (Part.requestDone r cancelled done p).pts = p.pts := by
  unfold Part.requestDone; (repeat' split) <;> simp
@[simp] theorem Part.requestDone_port (r : Request) (cancelled : Bool) (done : Nat) (p : Part) : (Part.requestDone r cancelled done p).port = p.port := by
  unfold Part.requestDone; (repeat' split) <;> simp
@[simp] theorem Part.requestDone_cal (r : Request) (cancelled : Bool) (done : Nat) (p : Part) : (Part.requestDone r cancelled done p).cal = p.cal := by
  unfold Part.requestDone; (repeat' split) <;> simp
@[simp] theorem Part.requestDone_sht (r : Request) (cancelled : Bool) (done : Nat) (p : Part) : (Part.requestDone r cancelled done p).sht = p.sht := by
  unfold Part.requestDone; (repeat' split) <;> simp
@[simp] theorem Part.requestDone_esu (r : Request) (cancelled : Bool) (done : Nat) (p : Part) : (Part.requestDone r cancelled done p).esu = p.esu := by
  unfold Part.requestDone; (repeat' split) <;> simp
@[simp] theorem Part.requestDone_dfl (r : Request) (cancelled : Bool) (done : Nat) (p : Part) : (Part.requestDone r cancelled done p).dfl = p.dfl := by
  unfold Part.requestDone; (repeat' split) <;> simp
@[simp] theorem Part.requestDone_icr (r : Request) (cancelled : Bool) (done : Nat) (p : Part) : (Part.requestDone r cancelled done p).icr = p.icr := by
  unfold Part.requestDone; (repeat' split) <;> simp
@[simp] theorem Part.requestDone_dpe (r : Request) (cancelled : Bool) (done : Nat) (p : Part) : (Part.requestDone r cancelled done p).dpe = p.dpe := by
  unfold Part.requestDone; (repeat' split) <;> simp
@[simp] theorem Part.requestDone_prn (r : Request) (cancelled : Bool) (done : Nat) (p : Part) : (Part.requestDone r cancelled done p).prn = p.prn := by
  unfold Part.requestDone; (repeat' split) <;> simp
@[simp] theorem Part.requestDone_cde (r : Request) (cancelled : Bool) (done : Nat) (p : Part) : (Part.requestDone r cancelled done p).cde = p.cde := by
  unfold Part.requestDone; (repeat' split) <;> simp
@[simp] theorem Part.requestDone_tsm (r : Request) (cancelled : Bool) (done : Nat) (p : Part) : (Part.requestDone r cancelled done p).tsm = p.tsm := by
  unfold Part.requestDone; (repeat' split) <;> simp

@[simp] theorem Part.fixSlots_phase (p : Part) : (Part.fixSlots p).phase = p.phase := by
  unfold Part.fixSlots; (repeat' split) <;> simp
@[simp] theorem Part.fixSlots_clock (p : Part) : (Part.fixSlots p).clock = p.clock := by
  unfold Part.fixSlots; (repeat' split) <;> simp
@[simp] theorem Part.fixSlots_pts (p : Part) : (Part.fixSlots p).pts = p.pts := by
  unfold Part.fixSlots; (repeat' split) <;> simp
@[simp] theorem Part.fixSlots_port (p : Part) : (Part.fixSlots p).port = p.port := by
  unfold Part.fixSlots; (repeat' split) <;> simp
@[simp] theorem Part.fixSlots_cal (p : Part) : (Part.fixSlots p).cal = p.cal := by
  unfold Part.fixSlots; (repeat' split) <;> simp
@[simp] theorem Part.fixSlots_esu (p : Part) : (Part.fixSlots p).esu = p.esu := by
  unfold Part.fixSlots; (repeat' split) <;> simp
@[simp] theorem Part.fixSlots_dfl (p : Part) : (Part.fixSlots p).dfl = p.dfl := by
  unfold Part.fixSlots; (repeat' split) <;> simp
@[simp] theorem Part.fixSlots_icr (p : Part) : (Part.fixSlots p).icr = p.icr := by
  unfold Part.fixSlots; (repeat' split) <;> simp
@[simp] theorem Part.fixSlots_dpe (p : Part) : (Part.fixSlots p).dpe = p.dpe := by
  unfold Part.fixSlots; (repeat' split) <;> simp
@[simp] theorem Part.fixSlots_prn (p : Part) : (Part.fixSlots p).prn = p.prn := by
  unfold Part.fixSlots; (repeat' split) <;> simp
@[simp] theorem Part.fixSlots_cde (p : Part) : (Part.fixSlots p).cde = p.cde := by
  unfold Part.fixSlots; (repeat' split) <;> simp
@[simp] theorem Part.fixSlots_tsm (p : Part) : (Part.fixSlots p).tsm = p.tsm := by
  unfold Part.fixSlots; (repeat' split) <;> simp

@[simp] theorem Part.answerError_phase (b : Burst) (p : Part) : (Part.answerError b p).phase = p.phase := rfl
@[simp] theorem Part.answerError_clock (b : Burst) (p : Part) : (Part.answerError b p).clock = p.clock := rfl
@[simp] theorem Part.answerError_port (b : Burst) (p : Part) : (Part.answerError b p).port = p.port := rfl
@[simp] theorem Part.answerError_cpa (b : Burst) (p : Part) : (Part.answerError b p).cpa = p.cpa := rfl
@[simp] theorem Part.answerError_cal (b : Burst) (p : Part) : (Part.answerError b p).cal = p.cal := rfl
@[simp] theorem Part.answerError_sht (b : Burst) (p : Part) : (Part.answerError b p).sht = p.sht := rfl
@[simp] theorem Part.answerError_esu (b : Burst) (p : Part) : (Part.answerError b p).esu = p.esu := rfl
@[simp] theorem Part.answerError_dfl (b : Burst) (p : Part) : (Part.answerError b p).dfl = p.dfl := rfl
@[simp] theorem Part.answerError_icr (b : Burst) (p : Part) : (Part.answerError b p).icr = p.icr := rfl
@[simp] theorem Part.answerError_dpe (b : Burst) (p : Part) : (Part.answerError b p).dpe = p.dpe := rfl
@[simp] theorem Part.answerError_prn (b : Burst) (p : Part) : (Part.answerError b p).prn = p.prn := rfl
@[simp] theorem Part.answerError_cde (b : Burst) (p : Part) : (Part.answerError b p).cde = p.cde := rfl
@[simp] theorem Part.answerError_tsm (b : Burst) (p : Part) : (Part.answerError b p).tsm = p.tsm := rfl

end Sys2Proof.Machine
end

