-- ==== Sys2Proof/Laws/KeepsShared.lean ====
section
/-! SUPPORT. Every operation on the part keeps the invariants of Safety.lean, and the port: the relation `Keeps`, and its lemmas for the shared operations of the CPA and the shot table. A lemma `f_keeps` says that `f` carries a part that `o` has kept its invariants to, to another. -/

open Sys2Proof Sys2Proof.Machine
namespace Sys2Proof.Machine

/-- What every operation but the port's own does to a part: it keeps each invariant of Safety.lean, the modes left by hard
reset only, the control window, the straps, an open port's capacity, and the frame memory port as it was. -/
def Keeps (p q : Part) : Prop :=
  (p.irqRight → q.irqRight) ∧ (p.ringFits → q.ringFits) ∧ (p.portsFit → q.portsFit) ∧
    ((p.cardQueueFits → q.cardQueueFits) ∧ (p.cardQueueInOrder → q.cardQueueInOrder)) ∧
    (p.loadFits → q.loadFits) ∧ (p.protectionFits → q.protectionFits) ∧ (p.settingsInRange → q.settingsInRange) ∧
    ((p.cpa.mode ≠ .loader → q.cpa.mode = p.cpa.mode) ∧ (p.cpa.mode = .loader → q.cpa.mode ≠ .service)) ∧
    q.pts.windows[0] = p.pts.windows[0] ∧ q.straps = p.straps ∧
    (p.phase = .running → q.phase = .running ∧ q.pts.capacity = p.pts.capacity) ∧ q.port = p.port

theorem Keeps.rfl {p : Part} : Keeps p p :=
  ⟨id, id, id, ⟨id, id⟩, id, id, id, ⟨fun _ => Eq.refl _, fun h => by rw [h]; decide⟩, Eq.refl _, Eq.refl _, fun h => ⟨h, Eq.refl _⟩, Eq.refl _⟩

theorem Keeps.trans {p q r : Part} (h : Keeps p q) (k : Keeps q r) : Keeps p r := by
  obtain ⟨a1, a2, a3, a4, a5, a6, a7, ⟨a8, a9⟩, a10, a11, a12, a13⟩ := h
  obtain ⟨b1, b2, b3, b4, b5, b6, b7, ⟨b8, b9⟩, b10, b11, b12, b13⟩ := k
  refine ⟨b1 ∘ a1, b2 ∘ a2, b3 ∘ a3, ⟨b4.1 ∘ a4.1, b4.2 ∘ a4.2⟩, b5 ∘ a5, b6 ∘ a6, b7 ∘ a7, ⟨?_, ?_⟩, b10.trans a10, b11.trans a11, ?_, b13.trans a13⟩
  · intro h; rw [b8, a8 h]; rw [a8 h]; exact h
  · intro h; have := a9 h
    by_cases hl : q.cpa.mode = .loader
    · exact b9 hl
    · rw [b8 hl]; exact this
  · intro h; have := a12 h; have h2 := b12 this.1; exact ⟨h2.1, h2.2.trans this.2⟩

variable {o p : Part}


theorem statusDirty_keeps (h : Keeps o p) : Keeps o p.statusDirty := by
  rcases p.statusDirty_cases with e | e <;> rw [e] <;> exact h
theorem pushWrite_keeps (h : Keeps o p) (w) : Keeps o (p.pushWrite w) := h
theorem statusFor_keeps (h : Keeps o p) (w) : Keeps o (p.statusFor w) := h

theorem ring_next {a b : Word} (h : (a - b).toNat ≤ 64) (h2 : (a - b).toNat ≠ 64) : (a + 1 - b).toNat ≤ 64 := by
  have : a + 1 - b = (a - b) + 1 := by
    rw [BitVec.sub_eq_add_neg, BitVec.add_assoc, BitVec.add_comm 1, ← BitVec.add_assoc, ← BitVec.sub_eq_add_neg]
  rw [this, BitVec.toNat_add]; generalize a - b = c at *; have := c.isLt; simp; omega

theorem emitEvent_keeps (h : Keeps o p) (e) : Keeps o (p.emitEvent e) := by
  rcases p.emitEvent_cases e with h1 | ⟨h2, h1⟩ | ⟨h2, h1⟩
  · rw [h1]; exact h
  · rw [h1]; exact statusDirty_keeps (p := { p with cpa := { p.cpa with dropped := true } }) h
  · rw [h1]
    refine h.trans ?_
    unfold Part.acceptEvent
    have hr : p.ringFits → (p.cpa.producer + 1 - p.cpa.consumer).toNat ≤ 64 := fun h => ring_next h h2
    split <;> exact ⟨id, hr, id, ⟨id, id⟩, id, id, id, ⟨fun _ => Eq.refl _, fun h => by rw [h]; decide⟩, Eq.refl _, Eq.refl _, fun h => ⟨h, Eq.refl _⟩, Eq.refl _⟩
theorem emitAt_keeps (h : Keeps o p) (a b c d) : Keeps o (p.emitAt a b c d) := emitEvent_keeps h _
theorem emit_keeps (h : Keeps o p) (b c d) : Keeps o (p.emit b c d) := emitEvent_keeps h _
theorem setCmd_keeps (h : Keeps o p) (a b) : Keeps o (p.setCmd a b) := h
theorem endCommand_keeps (h : Keeps o p) (a b c d) : Keeps o (p.endCommand a b c d) := by
  unfold Part.endCommand
  split
  · exact h
  · split <;> exact h
theorem done_keeps (h : Keeps o p) (a b) : Keeps o (p.done a b) := endCommand_keeps h _ _ _ _
theorem refuse_keeps (h : Keeps o p) (a b c) : Keeps o (p.refuse a b c) := endCommand_keeps h _ _ _ _
theorem fail_keeps (h : Keeps o p) (a b c) : Keeps o (p.fail a b c) := endCommand_keeps h _ _ _ _
theorem doneOr_keeps (h : Keeps o p) (a b c) : Keeps o (p.doneOr a b c) := by
  unfold Part.doneOr; split; exact endCommand_keeps h _ _ _ _; exact done_keeps h _ _

theorem resultDataDone_keeps (h : Keeps o p) : Keeps o p.resultDataDone := by
  unfold Part.resultDataDone; split <;> exact h
theorem slotResultDone_keeps (h : Keeps o p) : Keeps o p.slotResultDone := by
  unfold Part.slotResultDone; split <;> exact h
theorem eventRecordDone_keeps (h : Keeps o p) : Keeps o p.eventRecordDone := by
  unfold Part.eventRecordDone; split <;> exact h
theorem updateIrq_keeps (h : Keeps o p) (w) : Keeps o (Part.updateIrq { p with cpa := { p.cpa with ended := none, written := w } }) := by
  refine h.trans ⟨fun _ => Eq.refl _, id, id, ⟨id, id⟩, id, id, id, ⟨fun _ => Eq.refl _, fun h => ?_⟩, Eq.refl _, Eq.refl _, fun h => ⟨h, Eq.refl _⟩, Eq.refl _⟩
  change p.cpa.mode ≠ _; rw [h]; decide
theorem nextEvent_keeps (h : Keeps o p) : Keeps o p.nextEvent := by
  unfold Part.nextEvent; split <;> exact h
theorem producerDone_keeps (h : Keeps o p) : Keeps o p.producerDone := by
  unfold Part.producerDone; split
  · exact nextEvent_keeps (updateIrq_keeps h _)
  · exact h
theorem consumerSeen_keeps (h : Keeps o p) (c) : Keeps o (p.consumerSeen c) := by
  unfold Part.consumerSeen; split
  · rename_i hc
    refine h.trans ⟨fun _ => Eq.refl _, fun _ => hc, id, ⟨id, id⟩, id, id, id, ⟨fun _ => Eq.refl _, fun h => ?_⟩, Eq.refl _, Eq.refl _, fun h => ⟨h, Eq.refl _⟩, Eq.refl _⟩
    change p.cpa.mode ≠ _; rw [h]; decide
  · exact h

/-! sht -/
theorem dfl_keeps (h : Keeps o p) (x : Dfl) (hx : x.policy = p.dfl.policy) : Keeps o { p with dfl := x } := by
  refine h.trans ⟨id, id, id, ⟨id, id⟩, id, id, fun hs => ?_, ⟨fun _ => Eq.refl _, fun h => ?_⟩, Eq.refl _, Eq.refl _, fun h => ⟨h, Eq.refl _⟩, Eq.refl _⟩
  · exact ⟨hs.1, hs.2.1, by rw [show ({ p with dfl := x } : Part).dfl = x from Eq.refl _, hx]; exact hs.2.2.1, hs.2.2.2⟩
  · change p.cpa.mode ≠ _; rw [h]; decide

theorem sht_keeps (h : Keeps o p) (x : Sht) (hx : (p.protectionFits → (x.layout = none → x.slots = []) ∧ x.protectedCount ≤ x.slots.length - 2)) :
    Keeps o { p with sht := x } := by
  refine h.trans ⟨id, id, id, ⟨id, id⟩, id, hx, id, ⟨fun _ => Eq.refl _, fun h => ?_⟩, Eq.refl _, Eq.refl _, fun h => ⟨h, Eq.refl _⟩, Eq.refl _⟩
  change p.cpa.mode ≠ _; rw [h]; decide
theorem fixSlots_keeps (h : Keeps o p) : Keeps o p.fixSlots := by
  unfold Part.fixSlots
  split
  · rename_i hl _ _
    apply statusDirty_keeps
    apply sht_keeps h
    intro hp
    have := hp.2; rw [hp.1 hl] at this
    refine ⟨fun h => (by cases h), ?_⟩
    simp at this ⊢; omega
  · exact h
theorem noteWrite_keeps (h : Keeps o p) (w) : Keeps o (p.noteWrite w) := h
theorem latch_keeps (h : Keeps o p) (v n) : Keeps o (p.latch v n) := h
theorem gate_keeps (h : Keeps o p) {v n} {body : Part → Part} (hb : ∀ q, Keeps o q → Keeps o (body q)) : Keeps o (p.gate v n body) := by
  unfold Part.gate
  split
  · exact refuse_keeps h _ _ _
  · split
    · exact refuse_keeps h _ _ _
    · split
      · split
        · exact refuse_keeps h _ _ _
        · exact hb _ (fixSlots_keeps h)
      · exact hb _ h
theorem takeVerb_keeps (h : Keeps o p) {v n} {body : Fin 8 → List Word → Part → Part} (hb : ∀ n a q, Keeps o q → Keeps o (body n a q)) :
    Keeps o (p.takeVerb v n body) := gate_keeps (latch_keeps h _ _) (hb _ _)
theorem hostVerb_keeps (h : Keeps o p) {v w} {body : Fin 8 → List Word → Part → Part} (hb : ∀ n a q, Keeps o q → Keeps o (body n a q)) :
    Keeps o (p.hostVerb v body w) := by
  unfold Part.hostVerb
  split
  · dsimp only; split
    · exact noteWrite_keeps h _
    · exact takeVerb_keeps (noteWrite_keeps h _) hb
  · exact h

theorem modShot_keeps (h : Keeps o p) (a b) : Keeps o (p.modShot a b) := h
theorem modExposure_keeps (h : Keeps o p) (a b) : Keeps o (p.modExposure a b) := h
theorem modProgress_keeps (h : Keeps o p) (a b) : Keeps o (p.modProgress a b) := h
theorem setShotState_keeps (h : Keeps o p) (a b) : Keeps o (p.setShotState a b) := h
theorem setHolder_keeps (h : Keeps o p) (a b) : Keeps o (p.setHolder a b) := by
  apply sht_keeps h
  intro hp
  refine ⟨fun hl => ?_, ?_⟩
  · show p.sht.slots.set a b = []; rw [hp.1 hl]; rfl
  · show _ ≤ (p.sht.slots.set a b).length - 2; rw [List.length_set]; exact hp.2
theorem freeSlot_keeps (h : Keeps o p) (a b c) : Keeps o (p.freeSlot a b c) := emit_keeps (statusDirty_keeps (setHolder_keeps h _ _)) _ _ _
theorem dropEntry_keeps (h : Keeps o p) (a) : Keeps o (p.dropEntry a) := dfl_keeps h _ (Eq.refl _)
theorem evict_keeps (h : Keeps o p) {r} (e : p.evict = some r) : Keeps o r.2 := by
  unfold Part.evict at e; split at e
  · cases e
  · cases e; exact statusDirty_keeps (dropEntry_keeps h _)
theorem allocate_keeps (h : Keeps o p) {hd r} (e : p.allocate hd = some r) : Keeps o r.2 := by
  unfold Part.allocate at e; split at e
  · cases e; exact statusDirty_keeps (setHolder_keeps h _ _)
  · split at e
    · cases e
    · cases e; exact setHolder_keeps (evict_keeps h (by assumption)) _ _
theorem removeEntry_keeps (h : Keeps o p) (a) : Keeps o (p.removeEntry a) := freeSlot_keeps (dropEntry_keeps h _) _ _ _
theorem trimLibrary_keeps : ∀ (n : Nat) {p : Part}, Keeps o p → Keeps o (Part.trimLibrary n p)
  | 0, _, h => h
  | n+1, p, h => by
    unfold Part.trimLibrary; split
    · split
      · exact h
      · exact trimLibrary_keeps n (removeEntry_keeps h _)
    · exact h
theorem setEntries_keeps (h : Keeps o p) (x) : Keeps o { p with dfl := { p.dfl with entries := x } } := dfl_keeps h _ (Eq.refl _)
theorem setTransients_keeps (h : Keeps o p) (x) : Keeps o { p with dfl := { p.dfl with transients := x } } := dfl_keeps h _ (Eq.refl _)
theorem lowerEntry_keeps (h : Keeps o p) (a) : Keeps o (p.lowerEntry a) := by
  unfold Part.lowerEntry
  extract_lets d q
  have hq : Keeps o q := setEntries_keeps h _
  clear_value q
  split
  · exact hq
  · split
    · exact removeEntry_keeps hq _
    · exact hq
theorem lowerTransient_keeps (h : Keeps o p) (a) : Keeps o (p.lowerTransient a) := by
  unfold Part.lowerTransient; split
  · exact h
  · split
    · exact freeSlot_keeps (setTransients_keeps h _) _ _ _
    · exact setTransients_keeps h _
theorem lowerDark_keeps (h : Keeps o p) (a b) : Keeps o (p.lowerDark a b) := by
  unfold Part.lowerDark; split
  · exact lowerEntry_keeps h _
  · exact lowerEntry_keeps h _
  · exact lowerTransient_keeps h _
  · exact h
theorem clearView_keeps (h : Keeps o p) : Keeps o p.clearView := h
theorem clearViewOf_keeps (h : Keeps o p) (a) : Keeps o (p.clearViewOf a) := by
  unfold Part.clearViewOf; split
  · exact h
  · split <;> exact h
theorem cde_keeps (h : Keeps o p) (x : Cde) (hx : x.requests.length ≤ p.cde.requests.length ∨ x.requests.length ≤ 16)
    (ho : p.cardQueueInOrder → Part.cardQueueInOrder { p with cde := x }) : Keeps o { p with cde := x } := by
  refine h.trans ⟨id, id, id, ⟨fun hq => ?_, ho⟩, id, id, id, ⟨fun _ => Eq.refl _, fun h => ?_⟩, Eq.refl _, Eq.refl _, fun h => ⟨h, Eq.refl _⟩, Eq.refl _⟩
  · change p.cde.requests.length ≤ 16 at hq; change x.requests.length ≤ 16; omega
  · change p.cpa.mode ≠ _; rw [h]; decide
theorem dropRequest_keeps (h : Keeps o p) (a) : Keeps o (p.dropRequest a) := by
  apply statusDirty_keeps; refine cde_keeps h _ (.inl (List.length_filter_le _ _)) fun hp => ⟨hp.1.filter _, fun r hr => hp.2 r ?_⟩
  exact (List.mem_filter.1 hr).1
theorem cancelFor_keeps (h : Keeps o p) (a) : Keeps o (p.cancelFor a) := by
  unfold Part.cancelFor; split
  · exact h
  · exact emit_keeps (dropRequest_keeps h _) _ _ _
theorem dropRecord_keeps (h : Keeps o p) (a t) : Keeps o (p.dropRecord a t) := by
  unfold Part.dropRecord; dsimp only
  refine sht_keeps (p := Part.cancelFor _ _) ?_ _ (fun hp => hp)
  apply cancelFor_keeps; apply clearViewOf_keeps
  have h1 : Keeps o (if t.state.undeveloped = true then p.lowerDark a t.progress.dark else p) := by
    split
    · exact lowerDark_keeps h _ _
    · exact h
  revert h1
  generalize (if t.state.undeveloped = true then p.lowerDark a t.progress.dark else p) = q
  intro h1
  split
  · apply sht_keeps h1; intro hp; refine ⟨hp.1, ?_⟩
    have := hp.2; dsimp only; omega
  · exact h1
theorem removeShot_keeps (h : Keeps o p) (a) : Keeps o (p.removeShot a) := by
  unfold Part.removeShot; split
  · exact h
  · exact freeSlot_keeps (dropRecord_keeps h _ _) _ _ _
theorem autoRelease_keeps (h : Keeps o p) (a) : Keeps o (p.autoRelease a) := by
  unfold Part.autoRelease; split
  · exact removeShot_keeps h _
  · exact h
end Sys2Proof.Machine
end

