-- ==== Sys2Proof/Laws/KeepsExposure.lean ====
section
/-! SUPPORT. The operations of the ESU and the DFL keep the invariants (see KeepsShared.lean). -/

open Sys2Proof Sys2Proof.Machine
namespace Sys2Proof.Machine
variable {o p : Part}

theorem pts_keeps (h : Keeps o p) (x : Pts) (h1 : x.windows[0] = p.pts.windows[0]) (h2 : x.capacity = p.pts.capacity)
    (h3 : x.queue.length ≤ p.pts.queue.length ∨ x.queue.length ≤ 8) : Keeps o { p with pts := x } := by
  refine h.trans ⟨id, id, fun hp => ?_, ⟨id, id⟩, id, id, id, ⟨fun _ => Eq.refl _, fun h => ?_⟩, h1, Eq.refl _, fun h => ⟨h, h2⟩, Eq.refl _⟩
  · change p.pts.queue.length ≤ 8 ∧ p.port.starvation ≤ 16 at hp; change x.queue.length ≤ 8 ∧ p.port.starvation ≤ 16; omega
  · change p.cpa.mode ≠ _; rw [h]; decide
theorem answer_keeps (h : Keeps o p) (a b) : Keeps o (p.answer a b) := pts_keeps h _ (Eq.refl _) (Eq.refl _) (by left; simp)
theorem answerError_keeps (h : Keeps o p) (a) : Keeps o (p.answerError a) := answer_keeps h _ _
theorem setHead_keeps (h : Keeps o p) (a) : Keeps o (p.setHead a) := h
theorem startPass_keeps (h : Keeps o p) : Keeps o p.startPass := by
  unfold Part.startPass; split
  · exact h
  · split <;> exact h
theorem handToDevelop_keeps (h : Keeps o p) (a) : Keeps o (p.handToDevelop a) := by
  unfold Part.handToDevelop; dsimp only
  have h1 : Keeps o (p.setShotState a .developing) := h
  split
  · apply startPass_keeps; exact h1
  · exact h1
theorem esu_keeps (h : Keeps o p) (x : Esu) (h1 : x.active = p.esu.active) (h2 : x.staged = p.esu.staged) : Keeps o { p with esu := x } := by
  refine h.trans ⟨id, id, id, ⟨id, id⟩, id, id, fun hs => ?_, ⟨fun _ => Eq.refl _, fun h => ?_⟩, Eq.refl _, Eq.refl _, fun h => ⟨h, Eq.refl _⟩, Eq.refl _⟩
  · change x.active.inRange ∧ (∀ y ∈ x.staged, y.inRange) ∧ _
    rw [h1, h2]; exact hs
  · change p.cpa.mode ≠ _; rw [h]; decide
theorem pulseFlush_keeps (h : Keeps o p) (a) : Keeps o (p.pulseFlush a) := h
theorem pulseRead_keeps (h : Keeps o p) (a) : Keeps o (p.pulseRead a) := h
theorem stopSequence_keeps (h : Keeps o p) : Keeps o p.stopSequence := h
theorem setSeq_keeps (h : Keeps o p) (a) : Keeps o (p.setSeq a) := h
theorem fireStrobe_keeps (h : Keeps o p) (a b) : Keeps o (p.fireStrobe a b) := h
theorem scheduleStrobe_keeps (h : Keeps o p) (a b c) : Keeps o (p.scheduleStrobe a b c) := by
  unfold Part.scheduleStrobe; split
  · exact fireStrobe_keeps h _ _
  · exact h
theorem setTarget_keeps (h : Keeps o p) (a b) : Keeps o (p.setTarget a b) := by
  unfold Part.setTarget; dsimp only; split
  · exact h
  · apply modProgress_keeps; exact h
theorem clearTarget_keeps (h : Keeps o p) : Keeps o p.clearTarget := h
theorem applyStaged_keeps (h : Keeps o p) : Keeps o p.applyStaged := by
  refine h.trans ⟨id, id, id, ⟨id, id⟩, id, id, fun hs => ?_, ⟨fun _ => Eq.refl _, fun h => ?_⟩, Eq.refl _, Eq.refl _, fun h => ⟨h, Eq.refl _⟩, Eq.refl _⟩
  · refine ⟨?_, ?_, hs.2.2⟩
    · show (p.esu.staged.getD p.esu.active).inRange
      cases hst : p.esu.staged with
      | none => exact hs.1
      | some y => exact hs.2.1 y (by simp [hst])
    · intro y hy; cases hy
  · change p.cpa.mode ≠ _; rw [h]; decide
theorem armInto_keeps (h : Keeps o p) (a b) : Keeps o (p.armInto a b) := by
  unfold Part.armInto
  have h0 := applyStaged_keeps h
  revert h0
  generalize p.applyStaged = q
  intro h0
  dsimp only
  apply emit_keeps
  refine esu_keeps ?_ _ (Eq.refl _) (Eq.refl _)
  apply pulseFlush_keeps
  apply statusDirty_keeps
  exact sht_keeps h0 _ id
theorem armAccept_keeps (h : Keeps o p) (a b) : Keeps o (p.armAccept a b) := by
  unfold Part.armAccept; split
  · split
    · exact h
    · exact refuse_keeps h _ _ _
  · rename_i e
    have := armInto_keeps (allocate_keeps h e)
    dsimp only
    split
    · exact this _ _
    · exact doneOr_keeps (this _ _) _ _ _

theorem takeDecision_keeps (h : Keeps o p) (a b c) : Keeps o (p.takeDecision a b c) := by
  unfold Part.takeDecision; dsimp only
  apply emitAt_keeps; apply modProgress_keeps
  split
  · exact h
  · exact setEntries_keeps h _
theorem skipDark_keeps (h : Keeps o p) (a b c) : Keeps o (p.skipDark a b c) := by
  unfold Part.skipDark
  exact handToDevelop_keeps (emit_keeps (modProgress_keeps h _ _) _ _ _) _
theorem setCapture_keeps (h : Keeps o p) (x) : Keeps o { p with dfl := { p.dfl with capture := x } } := dfl_keeps h _ (Eq.refl _)
theorem startCapture_keeps (h : Keeps o p) (a) : Keeps o (p.startCapture a) := by
  unfold Part.startCapture; split
  · exact h
  · split
    · exact handToDevelop_keeps h _
    · split
      · exact skipDark_keeps h _ _ _
      · split
        · exact skipDark_keeps h _ _ _
        · rename_i e
          have := allocate_keeps h e
          dsimp only at this ⊢
          refine esu_keeps ?_ _ (Eq.refl _) (Eq.refl _)
          apply pulseFlush_keeps; apply modProgress_keeps; exact setCapture_keeps this _
theorem completeCapture_keeps (h : Keeps o p) : Keeps o p.completeCapture := by
  unfold Part.completeCapture; split
  · exact h
  · dsimp only
    apply handToDevelop_keeps; apply emit_keeps; apply modProgress_keeps
    split
    · apply statusDirty_keeps; apply setHolder_keeps; exact dfl_keeps h _ (Eq.refl _)
    · exact dfl_keeps h _ (Eq.refl _)
theorem releaseNow_keeps (h : Keeps o p) (a b) : Keeps o (p.releaseNow a b) := done_keeps (removeShot_keeps h _) _ _
theorem afterCapture_keeps (h : Keeps o p) (a) : Keeps o (p.afterCapture a) := by
  unfold Part.afterCapture; split
  · exact h
  · split
    · exact h
    · exact armAccept_keeps h _ _
  · exact done_keeps h _ _
  · split
    · exact refuse_keeps h _ _ _
    · exact releaseNow_keeps h _ _
theorem checkedArm_keeps {go : ArmRequest → Part → Part} (hg : ∀ r, Keeps o (go r p)) (h : Keeps o p) (a b) :
    Keeps o (p.checkedArm a b go) := by
  unfold Part.checkedArm; split
  · exact refuse_keeps h _ _ _
  · split
    · exact refuse_keeps h _ _ _
    · split
      · exact refuse_keeps h _ _ _
      · exact hg _
theorem resumeArms_keeps : ∀ (l : List (Fin 8 × List Word)) {p : Part}, Keeps o p → Keeps o (Part.resumeArms l p)
  | [], _, h => h
  | _ :: l, _, h => resumeArms_keeps l (checkedArm_keeps (fun _ => armAccept_keeps h _ _) h _ _)
theorem finishEnding_keeps (h : Keeps o p) (a) : Keeps o (p.finishEnding a) := by
  unfold Part.finishEnding; split
  · exact h
  · dsimp only
    apply resumeArms_keeps; apply afterCapture_keeps
    split
    · apply emit_keeps; apply freeSlot_keeps; exact dfl_keeps h _ (Eq.refl _)
    · apply skipDark_keeps; apply freeSlot_keeps; exact dfl_keeps h _ (Eq.refl _)
theorem endCapture_keeps (h : Keeps o p) (a b) : Keeps o (p.endCapture a b) := by
  unfold Part.endCapture; split
  · exact h
  · split
    · exact h
    · dsimp only
      split
      · split
        · refine dfl_keeps ?_ _ (Eq.refl _); exact setSeq_keeps (stopSequence_keeps h) _
        · apply finishEnding_keeps; apply clearTarget_keeps; exact setSeq_keeps (stopSequence_keeps h) _
      · apply finishEnding_keeps; exact setSeq_keeps (stopSequence_keeps h) _

/-! Exposure -/
theorem beginRead_keeps (h : Keeps o p) (a b c d) : Keeps o (p.beginRead a b c d) := by
  unfold Part.beginRead; dsimp only
  apply emitAt_keeps; apply setShotState_keeps; apply setSeq_keeps; apply pulseRead_keeps; exact setTarget_keeps h _ _
theorem integrationEnd_keeps (h : Keeps o p) (a b) : Keeps o (p.integrationEnd a b) := by
  unfold Part.integrationEnd; split
  · exact h
  · dsimp only
    apply beginRead_keeps; apply takeDecision_keeps; apply emitAt_keeps; apply modExposure_keeps; exact stopSequence_keeps h
theorem missShot_keeps (h : Keeps o p) (a b) : Keeps o (p.missShot a b) :=
  removeShot_keeps (emitAt_keeps (setSeq_keeps (stopSequence_keeps h) _) _ _ _ _) _
theorem reachLimit_keeps (h : Keeps o p) (a b) : Keeps o (p.reachLimit a b) := by
  unfold Part.reachLimit; split
  · exact missShot_keeps h _ _
  · exact integrationEnd_keeps (modExposure_keeps h _ _) _ _
  · exact integrationEnd_keeps (modExposure_keeps h _ _) _ _
  · exact h
theorem integrationLimit_keeps (h : Keeps o p) : Keeps o p.integrationLimit := by
  unfold Part.integrationLimit; split
  · exact h
  · split
    · exact reachLimit_keeps h _ _
    · exact h
theorem toldCritical_keeps (h : Keeps o p) : Keeps o p.toldCritical := by
  unfold Part.toldCritical; split
  · exact h
  · split
    · exact h
    · split
      · exact integrationEnd_keeps (modExposure_keeps h _ _) _ _
      · exact modExposure_keeps h _ _
theorem toldLowSupply_keeps (h : Keeps o p) (a) : Keeps o (p.toldLowSupply a) := by
  unfold Part.toldLowSupply; split
  · exact h
  · split
    · exact reachLimit_keeps h _ _
    · exact h
theorem recordEdge_keeps (h : Keeps o p) (a b) : Keeps o (p.recordEdge a b) := h
theorem startGuard_keeps (h : Keeps o p) (a b) : Keeps o (p.startGuard a b) := by
  unfold Part.startGuard; split
  · exact integrationEnd_keeps h _ _
  · exact h
theorem closeExposure_keeps (h : Keeps o p) (a b c) : Keeps o (p.closeExposure a b c) := by
  unfold Part.closeExposure; dsimp only
  apply startGuard_keeps; refine esu_keeps ?_ _ (Eq.refl _) (Eq.refl _); exact h
theorem openExposure_keeps (h : Keeps o p) (a b c) : Keeps o (p.openExposure a b c) := by
  unfold Part.openExposure; apply emitAt_keeps; exact h
theorem firstStrobe_keeps (h : Keeps o p) (a b c) : Keeps o (p.firstStrobe a b c) := by
  unfold Part.firstStrobe; split
  · exact scheduleStrobe_keeps h _ _ _
  · exact h
theorem edgeOnShot_keeps (h : Keeps o p) (a b c) : Keeps o (p.edgeOnShot a b c) := by
  unfold Part.edgeOnShot
  have h1 := recordEdge_keeps h a.number b
  revert h1
  generalize p.recordEdge a.number b = q
  intro h1
  dsimp only
  split
  · exact modExposure_keeps h1 _ _
  · apply firstStrobe_keeps; apply openExposure_keeps; exact esu_keeps h1 _ (Eq.refl _) (Eq.refl _)
  · exact closeExposure_keeps h1 _ _ _
  · apply modExposure_keeps; apply setShotState_keeps; exact esu_keeps h1 _ (Eq.refl _) (Eq.refl _)
  · exact modExposure_keeps h1 _ _
  · exact h1
theorem edgeActs_keeps (h : Keeps o p) (a b) : Keeps o (p.edgeActs a b) := by
  unfold Part.edgeActs; split
  · split
    · exact emitAt_keeps h _ _ _ _
    · exact h
  · split
    · exact emitAt_keeps h _ _ _ _
    · exact h
  · split
    · exact h
    · exact edgeOnShot_keeps h _ _ _
  · split
    · exact h
    · exact edgeOnShot_keeps h _ _ _
  · split
    · exact h
    · exact edgeOnShot_keeps h _ _ _
  · split
    · exact endCapture_keeps h _ _
    · exact h
  · split
    · exact endCapture_keeps h _ _
    · exact h
theorem acceptEdge_keeps (h : Keeps o p) (a b) : Keeps o (p.acceptEdge a b) := by
  unfold Part.acceptEdge; apply edgeActs_keeps; exact esu_keeps h _ (Eq.refl _) (Eq.refl _)
theorem syncTransition_keeps (h : Keeps o p) (a) : Keeps o (p.syncTransition a) := by
  unfold Part.syncTransition; dsimp only
  have h1 : Keeps o { p with pins := { p.pins with sync := a } } := h
  split
  · exact h1
  · split
    · exact h1
    · split
      · exact h1
      · split
        · exact acceptEdge_keeps h1 _ _
        · exact h1
theorem syncEdgeAccept_keeps (h : Keeps o p) : Keeps o p.syncEdgeAccept := by
  unfold Part.syncEdgeAccept; split
  · exact h
  · split
    · exact acceptEdge_keeps h _ _
    · exact h
theorem armOrPreempt_keeps (h : Keeps o p) (a b r) : Keeps o (p.armOrPreempt a b r) := by
  unfold Part.armOrPreempt; split
  · split
    · exact endCapture_keeps h _ _
    · exact dfl_keeps h _ (Eq.refl _)
  · exact armAccept_keeps h _ _
theorem cmdArm_keeps (h : Keeps o p) (a b) : Keeps o (cmdArm a b p) := checkedArm_keeps (fun _ => armOrPreempt_keeps h _ _ _) h _ _
theorem lineArm_keeps (h : Keeps o p) : Keeps o p.lineArm := by
  unfold Part.lineArm; split
  · exact h
  · split
    · exact h
    · dsimp only
      have h1 : Keeps o (if p.cpa.mode = .service then p.fixSlots else p) := by
        split
        · exact fixSlots_keeps h
        · exact h
      revert h1
      generalize (if p.cpa.mode = .service then p.fixSlots else p) = q
      intro h1
      split
      · exact h1
      · exact armAccept_keeps h1 _ _
theorem armInTransition_keeps (h : Keeps o p) (a) : Keeps o (p.armInTransition a) := by
  unfold Part.armInTransition; dsimp only
  split
  · exact h
  · split
    · exact h
    · split <;> exact h
theorem armInAccept_keeps (h : Keeps o p) : Keeps o p.armInAccept := by
  unfold Part.armInAccept; split
  · dsimp only
    split
    · apply lineArm_keeps; exact esu_keeps h _ (Eq.refl _) (Eq.refl _)
    · exact esu_keeps h _ (Eq.refl _) (Eq.refl _)
  · exact h
theorem sensorPulseEnd_keeps (h : Keeps o p) : Keeps o p.sensorPulseEnd := h
theorem startTimed_keeps (h : Keeps o p) (a b) : Keeps o (p.startTimed a b) := by
  unfold Part.startTimed; dsimp only
  have h1 : Keeps o ((p.setShotState a.number .exposing).emitAt b .exposureBegin a.number [b]) := emitAt_keeps (setShotState_keeps h _ _) _ _ _ _
  revert h1
  generalize ((p.setShotState a.number .exposing).emitAt b .exposureBegin a.number [b]) = q
  intro h1
  split
  · exact integrationEnd_keeps (modExposure_keeps h1 _ _) _ _
  · split
    · exact esu_keeps h1 _ (Eq.refl _) (Eq.refl _)
    · apply scheduleStrobe_keeps; exact esu_keeps h1 _ (Eq.refl _) (Eq.refl _)
theorem startSync_keeps (h : Keeps o p) (a b) : Keeps o (p.startSync a b) := by
  unfold Part.startSync; dsimp only
  have h1 : Keeps o { p with esu := { p.esu with integLine := true } } := esu_keeps h _ (Eq.refl _) (Eq.refl _)
  revert h1
  generalize ({ p with esu := { p.esu with integLine := true } } : Part) = q
  intro h1
  split
  · split
    · exact firstStrobe_keeps (openExposure_keeps h1 _ _ _) _ _ _
    · exact closeExposure_keeps (openExposure_keeps h1 _ _ _) _ _ _
  · apply setShotState_keeps; exact esu_keeps h _ (Eq.refl _) (Eq.refl _)
theorem flushEnd_keeps (h : Keeps o p) : Keeps o p.flushEnd := by
  unfold Part.flushEnd; split
  · split
    · dsimp only
      split
      · apply startTimed_keeps; apply modExposure_keeps; exact esu_keeps h _ (Eq.refl _) (Eq.refl _)
      · apply startSync_keeps; apply modExposure_keeps; exact esu_keeps h _ (Eq.refl _) (Eq.refl _)
    · exact h
  · exact h
theorem armWindowExpiry_keeps (h : Keeps o p) : Keeps o p.armWindowExpiry := by
  unfold Part.armWindowExpiry; split
  · split
    · exact missShot_keeps h _ _
    · exact h
  · exact h
theorem settleGuardExpiry_keeps (h : Keeps o p) : Keeps o p.settleGuardExpiry := by
  unfold Part.settleGuardExpiry; split
  · split
    · exact integrationEnd_keeps h _ _
    · exact h
  · exact h
theorem programmedTimeExpiry_keeps (h : Keeps o p) : Keeps o p.programmedTimeExpiry := by
  unfold Part.programmedTimeExpiry; split
  · split
    · exact integrationEnd_keeps h _ _
    · exact h
  · exact h
theorem strobeFire_keeps (h : Keeps o p) : Keeps o p.strobeFire := by
  unfold Part.strobeFire; split
  · split
    · exact fireStrobe_keeps h _ _
    · exact h
  · exact h
theorem strobePulseEnd_keeps (h : Keeps o p) : Keeps o p.strobePulseEnd := by
  unfold Part.strobePulseEnd; split <;> exact h
theorem modCapture_keeps (h : Keeps o p) (f) : Keeps o (p.modCapture f) := h
theorem darkFlushEnd_keeps (h : Keeps o p) : Keeps o p.darkFlushEnd := by
  unfold Part.darkFlushEnd; split
  · split
    · split
      · exact endCapture_keeps h _ _
      · dsimp only; apply modCapture_keeps; exact esu_keeps h _ (Eq.refl _) (Eq.refl _)
    · exact h
  · exact h
theorem darkIntegrationExpiry_keeps (h : Keeps o p) : Keeps o p.darkIntegrationExpiry := by
  unfold Part.darkIntegrationExpiry; split
  · split
    · dsimp only; apply emitAt_keeps; apply setSeq_keeps; apply pulseRead_keeps; apply setTarget_keeps; exact modCapture_keeps (stopSequence_keeps h) _
    · exact h
  · exact h
theorem disarmShot_keeps (h : Keeps o p) (a b) : Keeps o (disarmShot a b p) := by
  unfold disarmShot; dsimp only; split
  · exact refuse_keeps h _ _ _
  · have h2 := setSeq_keeps (stopSequence_keeps h) .idle
    have h3 : ∀ k m d, Keeps o (Part.removeShot m (Part.emit k m d (p.stopSequence.setSeq .idle))) :=
      fun _ _ _ => removeShot_keeps (emit_keeps h2 _ _ _) _
    split <;> first
      | (split
         · exact done_keeps h _ _
         · exact done_keeps (emit_keeps (modExposure_keeps h _ _) _ _ _) _ _)
      | refine endCommand_keeps ?_ _ _ _ _
        first
          | with_reducible exact h
          | with_reducible exact h3 _ _ _
theorem clampNat_le {lo hi v : Nat} (h : lo ≤ hi) : lo ≤ clampNat lo hi v ∧ clampNat lo hi v ≤ hi := by
  unfold clampNat; split
  · omega
  · split <;> omega
theorem parseSync_range {args x} (h : parseSync args = .ok x) : x.inRange := by
  unfold parseSync at h
  split at h
  · cases h
  · split at h
    · cases h
    · split at h
      · cases h
      · cases h
        rename_i hg _ _ _
        have c1 : ∀ lo hi v, lo ≤ hi → lo ≤ clampNat lo hi v ∧ clampNat lo hi v ≤ hi := fun _ _ _ h => clampNat_le h
        refine ⟨(c1 0 1000 _ (by omega)).2, (c1 500 20000 _ (by omega)).1, (c1 500 20000 _ (by omega)).2, (c1 1 600 _ (by omega)).1, (c1 1 600 _ (by omega)).2,
          (c1 0 100000 _ (by omega)).2, (c1 100 10000 _ (by omega)).1, (c1 100 10000 _ (by omega)).2, (c1 10 1000 _ (by omega)).1, (c1 10 1000 _ (by omega)).2,
          (c1 0 10000 _ (by omega)).2, by dsimp only; omega, (c1 1000 1800000000 _ (by omega)).1, (c1 1000 1800000000 _ (by omega)).2, ?_, (c1 0 1800000000 _ (by omega)).2⟩
        dsimp only
        intro hm
        split
        · decide
        · rename_i hn; intro hl; exact hn ⟨hm, hl⟩
theorem esu_r (h : Keeps o p) (x : Esu) (h1 : p.settingsInRange → x.active.inRange ∧ (∀ y ∈ x.staged, y.inRange)) : Keeps o { p with esu := x } := by
  refine h.trans ⟨id, id, id, ⟨id, id⟩, id, id, fun hs => ?_, ⟨fun _ => Eq.refl _, fun h => ?_⟩, Eq.refl _, Eq.refl _, fun h => ⟨h, Eq.refl _⟩, Eq.refl _⟩
  · exact ⟨(h1 hs).1, (h1 hs).2, hs.2.2⟩
  · change p.cpa.mode ≠ _; rw [h]; decide
theorem cmdSetSync_keeps (h : Keeps o p) (a b) : Keeps o (cmdSetSync a b p) := by
  unfold cmdSetSync; split
  · exact refuse_keeps h _ _ _
  · rename_i x hx
    have hr := parseSync_range hx
    dsimp only
    split
    · apply doneOr_keeps; exact esu_r h _ fun _ => ⟨hr, fun y hy => by cases hy⟩
    · apply doneOr_keeps; exact esu_r h _ fun hs => ⟨hs.1, fun y hy => by cases hy; exact hr⟩
theorem cmdSnapshot_keeps (h : Keeps o p) (a b) : Keeps o (cmdSnapshot a b p) := done_keeps h _ _
end Sys2Proof.Machine
end

