-- ==== Sys2Proof/Laws/KeepsBlocks.lean ====
section
/-! SUPPORT. The operations of the ICR, the switch, the CAL, the shot table's commands and the PRN keep the invariants (see KeepsShared.lean). -/

open Sys2Proof Sys2Proof.Machine
namespace Sys2Proof.Machine
variable {o p : Part}
theorem cal_keeps (h : Keeps o p) (x : Cal) (hx : p.loadFits → x.pointer ≤ x.declared ∧ (x.session = .closing → x.closer.isSome = true)) : Keeps o { p with cal := x } := by
  refine h.trans ⟨id, id, id, ⟨id, id⟩, hx, id, id, ⟨fun _ => Eq.refl _, fun h => ?_⟩, Eq.refl _, Eq.refl _, fun h => ⟨h, Eq.refl _⟩, Eq.refl _⟩
  change p.cpa.mode ≠ _; rw [h]; decide
theorem cpa_keeps (h : Keeps o p) (x : Cpa) (h1 : x.mode = p.cpa.mode) (h2 : x.irq = p.cpa.irq) (h3 : x.written = p.cpa.written)
   (h4 : x.consumer = p.cpa.consumer) (h5 : x.producer = p.cpa.producer) : Keeps o { p with cpa := x } := by
  obtain ⟨a1,a2,a3,a4,a5,a6,a7,a8,a9,a10,a11,a12,a13,a14⟩ := x
  simp only at h1 h2 h3 h4 h5
  subst h1 h2 h3 h4 h5
  exact h
/-! Ingest -/
theorem moveCursor_keeps (h : Keeps o p) (a b c d e f) : Keeps o (p.moveCursor a b c d e f) := by
  unfold Part.moveCursor; split
  · exact modProgress_keeps h _ _
  · exact h
theorem shotReadoutEnd_keeps (h : Keeps o p) (a b) : Keeps o (p.shotReadoutEnd a b) := by
  unfold Part.shotReadoutEnd
  extract_lets g q r
  have h1 : Keeps o r := setSeq_keeps (emit_keeps (clearTarget_keeps h) _ _ _) _
  clear_value r
  split
  · exact h1
  · split
    · exact removeShot_keeps h1 _
    · split
      · exact handToDevelop_keeps h1 _
      · exact startCapture_keeps (setShotState_keeps h1 _ _) _
theorem darkReadoutEnd_keeps (h : Keeps o p) (a b) : Keeps o (p.darkReadoutEnd a b) := by
  unfold Part.darkReadoutEnd
  extract_lets q r
  have h1 : Keeps o r := setSeq_keeps (emit_keeps (clearTarget_keeps h) _ _ _) _
  clear_value r
  split
  · exact completeCapture_keeps h1
  · exact finishEnding_keeps h1 _
theorem readoutEnd_keeps (h : Keeps o p) (a) : Keeps o (p.readoutEnd a) := by
  unfold Part.readoutEnd; split
  · exact h
  · split
    · exact shotReadoutEnd_keeps h _ _
    · exact darkReadoutEnd_keeps h _ _
theorem completeIfWhole_keeps (h : Keeps o p) : Keeps o p.completeIfWhole := by
  unfold Part.completeIfWhole; split
  · exact h
  · split
    · exact readoutEnd_keeps h _
    · exact h
theorem strayWrite_keeps (h : Keeps o p) (a) : Keeps o (p.strayWrite a) := by
  unfold Part.strayWrite
  extract_lets d q d2 r
  have h1 : Keeps o q := statusDirty_keeps (p := { p with icr := _ }) h
  have h2 : Keeps o r := by
    show Keeps o (if q.icr.strayReported then q else _)
    split
    · exact h1
    · exact emit_keeps (p := { q with icr := { q.icr with strayReported := true } }) h1 _ _ _
  exact answerError_keeps h2 _
theorem targetWrite_keeps (h : Keeps o p) (a b c) : Keeps o (p.targetWrite a b c) := by
  unfold Part.targetWrite; dsimp only
  split
  · exact answerError_keeps h _
  · split
    · exact answer_keeps h _ _
    · split
      · exact completeIfWhole_keeps (answer_keeps (moveCursor_keeps h _ _ _ _ _ _) _ _)
      · exact setHead_keeps (p := { p with icr := _ }) h _
theorem ingestWrite_keeps (h : Keeps o p) : Keeps o p.ingestWrite := by
  unfold Part.ingestWrite; split
  · split
    · exact strayWrite_keeps h _
    · exact targetWrite_keeps h _ _ _
  · exact h
theorem ingestRead_keeps (h : Keeps o p) : Keeps o p.ingestRead := by
  unfold Part.ingestRead; split
  · exact answerError_keeps h _
  · exact h
theorem ingestBurstDone_keeps (h : Keeps o p) (a) : Keeps o (p.ingestBurstDone a) := by
  unfold Part.ingestBurstDone; split
  · split <;> exact h
  · exact h
theorem setResetting_keeps (h : Keeps o p) (x) : Keeps o { p with cpa := { p.cpa with resetting := x } } := h
theorem icrStopped_keeps (h : Keeps o p) : Keeps o p.icrStopped := setResetting_keeps (clearTarget_keeps h) _
theorem readoutTimeout_keeps (h : Keeps o p) : Keeps o p.readoutTimeout := by
  unfold Part.readoutTimeout; split
  · exact h
  · split
    · exact readoutEnd_keeps (moveCursor_keeps h _ _ _ _ _ _) _
    · exact h
theorem ingestCommit_keeps (h : Keeps o p) : Keeps o p.ingestCommit := by
  unfold Part.ingestCommit; split
  · rename_i w t _ _
    split
    · extract_lets q d r
      have h1 : Keeps o q := moveCursor_keeps h _ _ _ _ _ _
      clear_value q
      have h2 : Keeps o r := answer_keeps (p := { q with icr := _ }) h1 _ _
      clear_value r
      split
      · exact icrStopped_keeps h2
      · split
        · exact finishEnding_keeps (clearTarget_keeps h2) _
        · exact readoutTimeout_keeps (completeIfWhole_keeps h2)
    · exact h
  · exact h
/-! Pts -/
theorem parseWindow_index {a r} (h : parseWindow a = .ok r) : r.index ≠ 0 := by
  unfold parseWindow at h
  split at h
  · rename_i hi
    have key : (⟨argNat a 0, hi.2⟩ : Fin 16) ≠ 0 := by
      intro e; have := congrArg Fin.val e; simp at this; omega
    dsimp only at h
    split at h
    · split at h
      · cases h
      · split at h
        · cases h
        · split at h
          · cases h
          · split at h
            · cases h
            · cases h; exact key
    · cases h; exact key
    · cases h
  · cases h
theorem cmdSetWindow_keeps (h : Keeps o p) (a b) : Keeps o (cmdSetWindow a b p) := by
  unfold cmdSetWindow; split
  · exact refuse_keeps h _ _ _
  · rename_i r hr
    split
    · exact refuse_keeps h _ _ _
    · split
      · exact refuse_keeps h _ _ _
      · apply done_keeps
        refine pts_keeps h _ ?_ (Eq.refl _) (.inl (Nat.le_refl _))
        have := parseWindow_index hr
        have hv : r.index.val ≠ 0 := fun e => this (Fin.ext e)
        show (p.pts.windows.set r.index.val _ r.index.isLt)[0] = _
        rw [Vector.getElem_set_ne]; exact hv
theorem cmdSetGeometry_keeps (h : Keeps o p) (a b) : Keeps o (cmdSetGeometry a b p) := by
  unfold cmdSetGeometry; split
  · exact refuse_keeps h _ _ _
  · split
    · exact refuse_keeps h _ _ _
    · split
      · exact refuse_keeps h _ _ _
      · apply done_keeps; exact pts_keeps h _ (Eq.refl _) (Eq.refl _) (.inl (Nat.le_refl _))
theorem burstAccept_keeps (h : Keeps o p) (a) : Keeps o (p.burstAccept a) := by
  unfold Part.burstAccept; split
  · rename_i hc
    refine pts_keeps h _ (Eq.refl _) (Eq.refl _) (.inr ?_)
    have := hc.2
    simp [Config.upstreamPlaces] at this ⊢; omega
  · exact h
theorem burstClassify_keeps (h : Keeps o p) : Keeps o p.burstClassify := by
  unfold Part.burstClassify; split
  · split
    · exact answerError_keeps h _
    · split
      · exact answerError_keeps h _
      · exact setHead_keeps h _
  · exact h
theorem forwardedBurst_keeps (h : Keeps o p) : Keeps o p.forwardedBurst := by
  unfold Part.forwardedBurst; split
  · exact setHead_keeps h _
  · exact h
theorem guardWrite_keeps (h : Keeps o p) : Keeps o p.guardWrite := by
  unfold Part.guardWrite; split
  · apply answerError_keeps; apply emit_keeps; apply statusDirty_keeps; exact h
  · exact h
/-! Calibration -/
theorem cmdLoadOpen_keeps (h : Keeps o p) (a b) : Keeps o (cmdLoadOpen a b p) := by
  unfold cmdLoadOpen; dsimp only
  split
  · exact refuse_keeps h _ _ _
  · split
    · exact refuse_keeps h _ _ _
    · split
      · exact refuse_keeps h _ _ _
      · apply doneOr_keeps; exact cal_keeps h _ fun _ => ⟨Nat.zero_le _, fun e => by cases e⟩
theorem endSession_keeps (h : Keeps o p) : Keeps o p.endSession := cal_keeps h _ fun hp => ⟨hp.1, fun e => by cases e⟩
theorem loadDone_keeps (h : Keeps o p) (a b) : Keeps o (p.loadDone a b) := emit_keeps h _ _ _
theorem loadTimeout_keeps (h : Keeps o p) : Keeps o p.loadTimeout := by
  unfold Part.loadTimeout; split
  · exact loadDone_keeps (endSession_keeps h) _ _
  · exact h
theorem cmdLoadCancel_keeps (h : Keeps o p) (a b) : Keeps o (cmdLoadCancel a b p) := by
  unfold cmdLoadCancel; split
  · exact refuse_keeps h _ _ _
  · exact refuse_keeps h _ _ _
  · exact done_keeps (endSession_keeps h) _ _
theorem stageBurst_keeps (h : Keeps o p) (a) : Keeps o (p.stageBurst a) := by
  unfold Part.stageBurst; dsimp only
  split
  · apply answerError_keeps; exact cal_keeps h _ id
  · split
    · apply answerError_keeps; exact cal_keeps h _ id
    · apply answer_keeps; exact cal_keeps h _ fun hp => ⟨by dsimp only; omega, hp.2⟩
theorem bundleWrite_keeps (h : Keeps o p) : Keeps o p.bundleWrite := by
  unfold Part.bundleWrite; split
  · split
    · exact stageBurst_keeps h _
    · exact answerError_keeps h _
  · exact h
theorem bundleRead_keeps (h : Keeps o p) : Keeps o p.bundleRead := by
  unfold Part.bundleRead; split
  · exact answerError_keeps h _
  · exact h
theorem cmdLoadClose_keeps (h : Keeps o p) (a b) : Keeps o (cmdLoadClose a b p) := by
  unfold cmdLoadClose; split
  · exact refuse_keeps h _ _ _
  · exact refuse_keeps h _ _ _
  · exact cal_keeps h _ fun hp => ⟨hp.1, fun _ => Eq.refl _⟩
theorem toldTables_keeps (h : Keeps o p) : Keeps o p.toldTables := h
theorem commitBundle_keeps (h : Keeps o p) (a b) : Keeps o (p.commitBundle a b) := by
  unfold Part.commitBundle; dsimp only
  apply done_keeps; apply loadDone_keeps
  split
  · apply toldTables_keeps; apply endSession_keeps; exact cal_keeps h _ id
  · apply endSession_keeps; exact cal_keeps h _ id
theorem loadChecksDone_keeps (h : Keeps o p) : Keeps o p.loadChecksDone := by
  unfold Part.loadChecksDone; split
  · split
    · exact fail_keeps (loadDone_keeps (endSession_keeps h) _ _) _ _ _
    · dsimp only; apply refuse_keeps; apply loadDone_keeps; exact cal_keeps h _ fun hp => ⟨hp.1, fun e => by cases e⟩
    · exact commitBundle_keeps h _ _
  · exact h
theorem abortClose_keeps (h : Keeps o p) : Keeps o p.abortClose := by
  unfold Part.abortClose; split
  · exact h
  · exact fail_keeps (endSession_keeps h) _ _ _
theorem stopCal_keeps (h : Keeps o p) : Keeps o p.stopCal := by
  unfold Part.stopCal; split
  · exact abortClose_keeps h
  · exact endSession_keeps h
/-! ShotTable -/
theorem records_keeps (h : Keeps o p) (x) : Keeps o { p with sht := { p.sht with records := x } } := sht_keeps h _ id
theorem shot_find {n : Word} {t : Shot} (h : p.shot? n = some t) : t ∈ p.sht.records := List.mem_of_find?_eq_some h
theorem cmdProtect_keeps (h : Keeps o p) (a b) : Keeps o (cmdProtect a b p) := by
  unfold cmdProtect; dsimp only; split
  · exact refuse_keeps h _ _ _
  · split
    · exact done_keeps h _ _
    · split
      · exact refuse_keeps h _ _ _
      · apply done_keeps; apply statusDirty_keeps
        rename_i hc
        refine sht_keeps (p := p.setProtect _ true) (modShot_keeps h _ _) _ fun hp => ⟨hp.1, ?_⟩
        show p.sht.protectedCount + 1 ≤ p.sht.slots.length - 2; omega
theorem cmdUnprotect_keeps (h : Keeps o p) (a b) : Keeps o (cmdUnprotect a b p) := by
  unfold cmdUnprotect; dsimp only; split
  · exact refuse_keeps h _ _ _
  · split
    · apply done_keeps; apply autoRelease_keeps; apply statusDirty_keeps
      refine sht_keeps (p := p.setProtect _ false) (modShot_keeps h _ _) _ fun hp => ⟨hp.1, ?_⟩
      have := hp.2; change p.sht.protectedCount ≤ p.sht.slots.length - 2 at this
      show p.sht.protectedCount - 1 ≤ p.sht.slots.length - 2; omega
    · exact done_keeps h _ _
theorem cmdRelease_keeps (h : Keeps o p) (a b) : Keeps o (cmdRelease a b p) := by
  unfold cmdRelease; dsimp only; split
  · exact refuse_keeps h _ _ _
  · split
    · exact refuse_keeps h _ _ _
    · split
      · exact refuse_keeps h _ _ _
      · split
        · exact releaseNow_keeps h _ _
        · exact releaseNow_keeps h _ _
        · split
          · exact endCapture_keeps h _ _
          · exact refuse_keeps h _ _ _
        · exact refuse_keeps h _ _ _
theorem cmdQueryShot_keeps (h : Keeps o p) (a b) : Keeps o (cmdQueryShot a b p) := by
  unfold cmdQueryShot; dsimp only; split
  · exact refuse_keeps h _ _ _
  · split
    · exact refuse_keeps h _ _ _
    · exact h
/-! DarkFrames -/
theorem parsePolicy_range {a x} (h : parsePolicy a = .ok x) : 1 ≤ x.threshold ∧ x.threshold ≤ 60 ∧ x.size ≤ 4 ∧ x.pedestal ≤ 4095 := by
  unfold parsePolicy at h
  split at h
  · cases h
  · cases h
    have c1 : ∀ lo hi v, lo ≤ hi → lo ≤ clampNat lo hi v ∧ clampNat lo hi v ≤ hi := fun _ _ _ h => clampNat_le h
    exact ⟨(c1 1 60 _ (by omega)).1, (c1 1 60 _ (by omega)).2, (c1 0 4 _ (by omega)).2, (c1 0 4095 _ (by omega)).2⟩
theorem cmdSetDarkPolicy_keeps (h : Keeps o p) (a b) : Keeps o (cmdSetDarkPolicy a b p) := by
  unfold cmdSetDarkPolicy; split
  · exact refuse_keeps h _ _ _
  · rename_i x hx
    split
    · exact refuse_keeps h _ _ _
    · extract_lets d q r m
      have h1 : Keeps o q := by
        refine h.trans ⟨id, id, id, ⟨id, id⟩, id, id, fun hs => ⟨hs.1, hs.2.1, parsePolicy_range hx, hs.2.2.2⟩, ⟨fun _ => Eq.refl _, fun h => ?_⟩, Eq.refl _, Eq.refl _, fun h => ⟨h, Eq.refl _⟩, Eq.refl _⟩
        change p.cpa.mode ≠ _; rw [h]; decide
      clear_value q
      have h2 : Keeps o r := by
        show Keeps o (if _ then q.trimLibrary p.dfl.entries.length else q)
        split
        · exact trimLibrary_keeps _ h1
        · exact h1
      exact doneOr_keeps h2 _ _ _
theorem cmdSkipDark_keeps (h : Keeps o p) (a b) : Keeps o (cmdSkipDark a b p) := by
  unfold cmdSkipDark; dsimp only; split
  · exact refuse_keeps h _ _ _
  · split
    · split
      · split
        · exact refuse_keeps h _ _ _
        · exact endCapture_keeps h _ _
      · exact refuse_keeps h _ _ _
    · exact done_keeps (emit_keeps (modProgress_keeps h _ _) _ _ _) _ _
    · exact refuse_keeps h _ _ _
/-! Preview -/
theorem select_keeps (h : Keeps o p) (v) : Keeps o (p.select v) := h
theorem cmdViewSelect_keeps (h : Keeps o p) (a b) : Keeps o (cmdViewSelect a b p) := by
  unfold cmdViewSelect; dsimp only; split
  · exact done_keeps (select_keeps h _) _ _
  · split
    · exact refuse_keeps h _ _ _
    · split
      · exact refuse_keeps h _ _ _
      · split
        · exact refuse_keeps h _ _ _
        · split
          · exact refuse_keeps h _ _ _
          · exact doneOr_keeps (select_keeps h _) _ _ _
theorem prnStopped_keeps (h : Keeps o p) : Keeps o p.prnStopped := h
theorem answerView_keeps (h : Keeps o p) (a) : Keeps o (p.answerView a) := by
  unfold Part.answerView
  extract_lets d q
  have h1 : Keeps o q := answer_keeps (p := { p with prn := _ }) h _ _
  clear_value q
  split
  · exact prnStopped_keeps h1
  · exact h1
theorem serveRows_keeps : ∀ (rows : List Nat) (w : ViewWork) {p : Part}, Keeps o p → Keeps o (Part.serveRows w rows p)
  | [], w, p, h => answerView_keeps h _
  | row :: rest, w, p, h => by
    rw [Part.serveRows]; split
    · exact serveRows_keeps rest _ h
    · exact h
theorem viewRead_keeps (h : Keeps o p) : Keeps o p.viewRead := by
  unfold Part.viewRead; split
  · dsimp only; split
    · exact answer_keeps h _ _
    · split
      · exact answer_keeps h _ _
      · exact serveRows_keeps _ _ (setHead_keeps h _)
  · exact h
theorem viewWrite_keeps (h : Keeps o p) : Keeps o p.viewWrite := by
  unfold Part.viewWrite; split
  · exact answerError_keeps h _
  · exact h
theorem sourceRead_keeps (h : Keeps o p) (a) : Keeps o (p.sourceRead a) := h
theorem rowRendered_keeps (h : Keeps o p) : Keeps o p.rowRendered := by
  unfold Part.rowRendered; split
  · exact h
  · split
    · exact h
    · split
      · exact h
      · dsimp only
        apply serveRows_keeps
        split <;> exact h
end Sys2Proof.Machine
end

