-- ==== Sys2Proof/Laws/KeepsCard.lean ====
section
/-! SUPPORT. The operations of the CDE, the TSM and the DPE keep the invariants (see KeepsShared.lean). -/

open Sys2Proof Sys2Proof.Machine
namespace Sys2Proof.Machine
variable {o p : Part}
theorem setCard_keeps (h : Keeps o p) (a b) : Keeps o (p.setCard a b) := by
  unfold Part.setCard; dsimp only; apply emit_keeps; apply statusDirty_keeps; exact cde_keeps h _ (.inl (Nat.le_refl _)) id
theorem modRequest_keeps (h : Keeps o p) (a b) (hb : ∀ r, (b r).arrival = r.arrival) : Keeps o (p.modRequest a b) := by
  have key (r : Request) : (if r.id = a then b r else r).arrival = r.arrival := by split; exact hb r; rfl
  refine cde_keeps h _ (.inl (by simp)) fun hp => ⟨?_, fun r hr => ?_⟩
  · refine List.pairwise_map.2 (hp.1.imp fun {x y} hxy => ?_)
    rw [key, key]; exact hxy
  · obtain ⟨x, hx, rfl⟩ := List.mem_map.1 hr
    rw [key]; exact hp.2 x hx
theorem setRun_keeps (h : Keeps o p) (a) : Keeps o (p.setRun a) := h
theorem addRequest_keeps (h : Keeps o p) (a b) (hl : p.cde.requests.length < 16) : Keeps o (p.addRequest a b) := by
  unfold Part.addRequest; dsimp only; apply statusDirty_keeps
  refine cde_keeps h _ (.inr ?_) fun hp => ⟨?_, fun r hr => ?_⟩
  · simp; omega
  · refine List.pairwise_append.2 ⟨hp.1, List.pairwise_singleton _ _, fun x hx y hy => ?_⟩
    rw [List.mem_singleton.1 hy]; exact hp.2 x hx
  · rcases List.mem_append.1 hr with hr | hr
    · exact Nat.lt_succ_of_lt (hp.2 r hr)
    · rw [List.mem_singleton.1 hr]; exact Nat.lt_succ_self _
theorem runCommand_keeps (h : Keeps o p) (a b) : Keeps o (p.runCommand a b) := h
theorem runAssembled_keeps (h : Keeps o p) (a b) : Keeps o (p.runAssembled a b) := h
theorem startRun_keeps (h : Keeps o p) (a) : Keeps o (p.startRun a) := by
  unfold Part.startRun; split
  · exact h
  · dsimp only; split
    · exact setRun_keeps h _
    · exact runAssembled_keeps h _ _
theorem leaveStoring_keeps (h : Keeps o p) (a) : Keeps o (p.leaveStoring a) := h
theorem haltRequest_keeps (h : Keeps o p) (a b) : Keeps o (p.haltRequest a b) := by
  unfold Part.haltRequest; split
  · exact h
  · dsimp only; apply emit_keeps
    have h1 := statusDirty_keeps (setRun_keeps (modRequest_keeps h a (fun x => { x with state := .halted, cause := some b }) fun _ => rfl) none)
    split
    · exact leaveStoring_keeps h1 _
    · exact h1
theorem enterStoring_keeps (h : Keeps o p) (a b) : Keeps o (p.enterStoring a b) := by
  unfold Part.enterStoring; dsimp only; split
  · exact setShotState_keeps h _ _
  · split
    · exact modProgress_keeps (setShotState_keeps h _ _) _ _
    · exact modRequest_keeps (modProgress_keeps (setShotState_keeps h _ _) _ _) _ _ fun _ => rfl
theorem activate_keeps (h : Keeps o p) (a) : Keeps o (p.activate a) := by
  unfold Part.activate; split
  · exact h
  · split
    · dsimp only; apply startRun_keeps
      have h1 := modRequest_keeps h a (fun x => { x with state := .active }) fun _ => rfl
      split
      · exact enterStoring_keeps h1 _ _
      · exact h1
    · exact haltRequest_keeps h _ _
theorem choose_keeps (h : Keeps o p) : Keeps o p.choose := by
  unfold Part.choose; split
  · split
    · exact h
    · exact activate_keeps h _
  · exact h
theorem choosing_keeps {f : Part → Part} (h : Keeps o (f p)) : Keeps o (Part.choosing f p) := by
  unfold Part.choosing; dsimp only; split
  · exact h
  · exact choose_keeps h
theorem cmdDisarm_keeps (h : Keeps o p) (a b) : Keeps o (cmdDisarm a b p) := choosing_keeps (disarmShot_keeps h _ _)
theorem requestDone_keeps (h : Keeps o p) (a b c) : Keeps o (p.requestDone a b c) := emit_keeps h _ _ _
theorem completeRequest_keeps (h : Keeps o p) (a) : Keeps o (p.completeRequest a) := by
  unfold Part.completeRequest
  extract_lets q1 q2 d q3 q4
  have h1 : Keeps o q1 := by
    show Keeps o (match a.work with | .store n _ => _ | _ => p)
    split
    · exact modProgress_keeps (setShotState_keeps h _ _) _ _
    · exact h
  clear_value q1
  have h2 : Keeps o q2 := requestDone_keeps (setRun_keeps (dropRequest_keeps h1 _) _) _ _ _
  clear_value q2
  have h3 : Keeps o q3 := h2
  clear_value q3
  have h4 : Keeps o q4 := by
    show Keeps o (match a.work with | .store n _ => _ | _ => q3)
    split
    · exact autoRelease_keeps h3 _
    · exact h3
  exact choose_keeps h4
theorem cancelRequest_keeps (h : Keeps o p) (a b) : Keeps o (p.cancelRequest a b) := by
  unfold Part.cancelRequest
  extract_lets q1 q2 q3
  have h1 : Keeps o q1 := dropRequest_keeps h _
  clear_value q1
  have h2 : Keeps o q2 := by
    show Keeps o (match a.work with | .store n _ => _ | _ => q1)
    split
    · exact modProgress_keeps (leaveStoring_keeps h1 _) _ _
    · exact h1
  clear_value q2
  have h3 : Keeps o q3 := requestDone_keeps h2 _ _ _
  clear_value q3
  split
  · exact autoRelease_keeps h3 _
  · exact h3
theorem checkCdeStop_keeps (h : Keeps o p) : Keeps o p.checkCdeStop := by
  unfold Part.checkCdeStop; split
  · dsimp only; apply statusDirty_keeps
    refine setResetting_keeps (p := { p with cde := { p.cde with requests := [] } }) ?_ _
    exact cde_keeps h _ (.inl (Nat.zero_le _)) fun _ => ⟨.nil, nofun⟩
  · exact h
theorem confirmRun_keeps (h : Keeps o p) : Keeps o p.confirmRun := by
  unfold Part.confirmRun; split
  · rename_i run r _ _
    extract_lets a q1 q2
    have h1 : Keeps o q1 := modRequest_keeps (setRun_keeps h _) _ _ fun _ => rfl
    clear_value q1
    have h2 : Keeps o q2 := by
      show Keeps o (match r.work with | .store n _ => _ | _ => q1)
      split
      · exact modProgress_keeps h1 _ _
      · exact h1
    clear_value q2
    split
    · exact checkCdeStop_keeps h2
    · split
      · exact completeRequest_keeps h2 _
      · split
        · exact choose_keeps (cancelRequest_keeps h2 _ _)
        · exact startRun_keeps h2 _
  · exact h
theorem failRun_keeps (h : Keeps o p) (a b) : Keeps o (p.failRun a b) := h
theorem runAttemptFailed_keeps (h : Keeps o p) : Keeps o p.runAttemptFailed := by
  unfold Part.runAttemptFailed; split
  · split
    · split
      · exact checkCdeStop_keeps (setRun_keeps h _)
      · split
        · exact choose_keeps (cancelRequest_keeps (setRun_keeps h _) _ _)
        · split
          · exact startRun_keeps (modRequest_keeps (setRun_keeps h _) _ _ (by intro; rfl)) _
          · exact haltRequest_keeps h _ _
    · exact h
  · exact h
theorem runRead_keeps (h : Keeps o p) (a b) : Keeps o (p.runRead a b) := by
  unfold Part.runRead; split
  · split
    · dsimp only; split
      · exact setRun_keeps h _
      · exact runAssembled_keeps h _ _
    · exact h
  · exact h
theorem bufferWritten_keeps (h : Keeps o p) : Keeps o p.bufferWritten := by
  unfold Part.bufferWritten
  extract_lets d q
  have h1 : Keeps o q := h
  clear_value q
  split
  · split
    · exact confirmRun_keeps h1
    · exact h1
  · exact checkCdeStop_keeps h1
theorem cdeBurstDone_keeps (h : Keeps o p) (a b c d) : Keeps o (p.cdeBurstDone a b c d) := by
  unfold Part.cdeBurstDone; split
  · exact bufferWritten_keeps h
  · split
    · exact h
    · exact runRead_keeps h _ _
/-! CardEngine -/
theorem cardDetectTransition_keeps (h : Keeps o p) (a) : Keeps o (p.cardDetectTransition a) := by
  unfold Part.cardDetectTransition; dsimp only
  split
  · exact h
  · split
    · exact h
    · split <;> exact h
theorem cardInserted_keeps (h : Keeps o p) : Keeps o p.cardInserted := by
  unfold Part.cardInserted; split
  · dsimp only; split
    · exact setCard_keeps (p := { p with cde := { p.cde with seated := true, detectTimer := none } }) h _ _
    · exact h
  · exact h
theorem dropBringup_keeps (h : Keeps o p) : Keeps o p.dropBringup := h
theorem removalOf_keeps (h : Keeps o p) (a) : Keeps o (p.removalOf a) := by
  unfold Part.removalOf; dsimp only; apply checkCdeStop_keeps; split
  · exact cancelRequest_keeps (setRun_keeps h _) _ _
  · exact haltRequest_keeps (setRun_keeps h _) _ _
theorem cardRemoval_keeps (h : Keeps o p) : Keeps o p.cardRemoval := by
  unfold Part.cardRemoval; split
  · extract_lets d q1 q2
    have h1 : Keeps o q1 := h
    clear_value q1
    have h2 : Keeps o q2 := setCard_keeps h1 _ _
    clear_value q2
    split
    · exact fail_keeps (dropBringup_keeps h2) _ _ _
    · split
      · exact removalOf_keeps h2 _
      · exact h2
  · exact h
theorem cmdCardInit_keeps (h : Keeps o p) (a b) : Keeps o (cmdCardInit a b p) := by
  unfold cmdCardInit; split
  · exact refuse_keeps h _ _ _
  · split
    · exact refuse_keeps h _ _ _
    · split
      · exact refuse_keeps h _ _ _
      · split
        · exact refuse_keeps h _ _ _
        · dsimp only; apply setCard_keeps; exact h
theorem bringupAborted_keeps (h : Keeps o p) (a) : Keeps o (p.bringupAborted a) := fail_keeps (setCard_keeps (dropBringup_keeps h) _ _) _ _ _
theorem bringupFailed_keeps (h : Keeps o p) (a b) : Keeps o (p.bringupFailed a b) := by
  unfold Part.bringupFailed; split
  · exact bringupAborted_keeps h _
  · exact fail_keeps (setCard_keeps (dropBringup_keeps h) _ _) _ _ _
theorem bringupSend_keeps (h : Keeps o p) (a b c) : Keeps o (p.bringupSend a b c) := h
theorem bringupReady_keeps (h : Keeps o p) (a) : Keeps o (p.bringupReady a) := by
  unfold Part.bringupReady; dsimp only; apply choose_keeps; apply done_keeps; apply setCard_keeps; exact h
theorem bringupResponse_keeps (h : Keeps o p) (a b) : Keeps o (p.bringupResponse a b) := by
  unfold Part.bringupResponse; split
  · exact bringupAborted_keeps h _
  · split
    · exact bringupFailed_keeps h _ _
    · split
      · exact h
      · split
        · exact bringupFailed_keeps h _ _
        · split
          · exact bringupFailed_keeps h _ _
          · exact bringupSend_keeps h _ _ _
      · split
        · exact bringupSend_keeps h _ _ _
        · exact h
      · exact bringupSend_keeps h _ _ _
      · exact bringupSend_keeps h _ _ _
      · split
        · exact bringupFailed_keeps h _ _
        · exact bringupSend_keeps h _ _ _
      · exact bringupSend_keeps h _ _ _
      · exact bringupSend_keeps h _ _ _
      · exact bringupReady_keeps h _
theorem cardResetWaitExpiry_keeps (h : Keeps o p) : Keeps o p.cardResetWaitExpiry := by
  unfold Part.cardResetWaitExpiry; split
  · exact h
  · split
    · split
      · split
        · exact bringupAborted_keeps h _
        · exact bringupSend_keeps h _ _ _
      · exact h
    · exact h
theorem powerUpPollTimer_keeps (h : Keeps o p) : Keeps o p.powerUpPollTimer := by
  unfold Part.powerUpPollTimer; split
  · exact h
  · split
    · exact bringupSend_keeps h _ _ _
    · exact h
theorem powerUpTimeout_keeps (h : Keeps o p) : Keeps o p.powerUpTimeout := by
  unfold Part.powerUpTimeout; split
  · exact h
  · split
    · exact bringupFailed_keeps h _ _
    · exact h
theorem abortBringup_keeps (h : Keeps o p) : Keeps o p.abortBringup := by
  unfold Part.abortBringup; split
  · exact h
  · split
    · exact bringupAborted_keeps h _
    · exact h
theorem runPhase_keeps (h : Keeps o p) (a b c) : Keeps o (p.runPhase a b c) := h
theorem runResponse_keeps (h : Keeps o p) (a b) : Keeps o (p.runResponse a b) := by
  unfold Part.runResponse; split
  · split
    · exact failRun_keeps h _ _
    · split <;> exact runPhase_keeps h _ _ _
  · split
    · exact failRun_keeps h _ _
    · split
      · dsimp only; split
        · exact confirmRun_keeps (setRun_keeps h _)
        · exact setRun_keeps h _
      · exact runPhase_keeps h _ _ _
  · exact runPhase_keeps h _ _ _
  · exact h
theorem cardResponse_keeps (h : Keeps o p) (a) : Keeps o (p.cardResponse a) := by
  unfold Part.cardResponse; split
  · split
    · exact bringupResponse_keeps h _ _
    · exact h
  · split
    · exact h
    · exact runResponse_keeps h _ _
theorem cardResponseTimeout_keeps (h : Keeps o p) : Keeps o p.cardResponseTimeout := by
  unfold Part.cardResponseTimeout; split
  · split
    · exact bringupFailed_keeps h _ _
    · exact h
  · split
    · exact h
    · split
      · split <;> first | exact failRun_keeps h _ _ | exact runPhase_keeps h _ _ _ | exact h
      · exact h
theorem cardDataStatus_keeps (h : Keeps o p) (a) : Keeps o (p.cardDataStatus a) := by
  unfold Part.cardDataStatus; split
  · exact h
  · split
    · split <;> first | exact failRun_keeps h _ _ | exact runPhase_keeps h _ _ _
    · exact h
theorem cardBusyEnd_keeps (h : Keeps o p) : Keeps o p.cardBusyEnd := by
  unfold Part.cardBusyEnd; split
  · exact h
  · split
    · split
      · exact runPhase_keeps h _ _ _
      · exact runCommand_keeps h _ _
    · exact confirmRun_keeps h
    · exact setRun_keeps h _
    · exact h
theorem cardBusyTimeout_keeps (h : Keeps o p) : Keeps o p.cardBusyTimeout := by
  unfold Part.cardBusyTimeout; split
  · exact h
  · split
    · split <;> first | exact failRun_keeps h _ _ | exact setRun_keeps h _ | exact h
    · exact h
theorem cardReadBlock_keeps (h : Keeps o p) (a b) : Keeps o (p.cardReadBlock a b) := by
  unfold Part.cardReadBlock; split
  · split
    · split
      · extract_lets d q
        have h1 : Keeps o q := h
        clear_value q
        split
        · exact runPhase_keeps h1 _ _ _
        · exact runCommand_keeps h1 _ _
      · exact failRun_keeps h _ _
    · exact h
  · exact h
theorem cardDataTimeout_keeps (h : Keeps o p) : Keeps o p.cardDataTimeout := by
  unfold Part.cardDataTimeout; split
  · exact h
  · split
    · split
      · exact failRun_keeps h _ _
      · exact h
    · exact h
theorem cmdStore_keeps (h : Keeps o p) (a b) : Keeps o (cmdStore a b p) := by
  unfold cmdStore; dsimp only; split
  · exact refuse_keeps h _ _ _
  · split
    · exact refuse_keeps h _ _ _
    · exact h
theorem acceptStore_keeps (h : Keeps o p) (a) : Keeps o (p.acceptStore a) := by
  unfold Part.acceptStore; split
  · exact refuse_keeps h _ _ _
  · rename_i hl
    split
    · exact refuse_keeps h _ _ _
    · split
      · exact refuse_keeps h _ _ _
      · dsimp only; split
        · exact refuse_keeps h _ _ _
        · apply choose_keeps; apply done_keeps; apply modProgress_keeps; apply addRequest_keeps h
          simp [Config.cardQueuePlaces] at hl; omega
theorem extentListRead_keeps (h : Keeps o p) : Keeps o p.extentListRead := by
  unfold Part.extentListRead; split
  · exact h
  · split
    · exact h
    · extract_lets d q
      have h1 : Keeps o q := h
      clear_value q
      split
      · exact checkCdeStop_keeps (fail_keeps h1 _ _ _)
      · exact acceptStore_keeps h1 _
theorem joinTransfer_keeps (h : Keeps o p) (w a b) : Keeps o (joinTransfer w a b p) := by
  unfold joinTransfer; dsimp only; split
  · exact refuse_keeps h _ _ _
  · split
    · exact refuse_keeps h _ _ _
    · split
      · exact refuse_keeps h _ _ _
      · rename_i hl
        split
        · exact refuse_keeps h _ _ _
        · apply done_keeps; apply addRequest_keeps h
          simp [Config.cardQueuePlaces] at hl; omega
theorem cmdCardWrite_keeps (h : Keeps o p) (a b) : Keeps o (cmdCardWrite a b p) := choosing_keeps (joinTransfer_keeps h _ _ _)
theorem cmdCardRead_keeps (h : Keeps o p) (a b) : Keeps o (cmdCardRead a b p) := choosing_keeps (joinTransfer_keeps h _ _ _)
theorem cancelById_keeps (h : Keeps o p) (a b) : Keeps o (cancelById a b p) := by
  unfold cancelById; split
  · exact refuse_keeps h _ _ _
  · split
    · exact done_keeps (modRequest_keeps h _ _ (by intro; rfl)) _ _
    · exact done_keeps (cancelRequest_keeps h _ _) _ _
    · exact done_keeps (cancelRequest_keeps h _ _) _ _
    · exact done_keeps (cancelRequest_keeps h _ _) _ _
theorem cmdCardCancel_keeps (h : Keeps o p) (a b) : Keeps o (cmdCardCancel a b p) := choosing_keeps (cancelById_keeps h _ _)
theorem cmdCardResume_keeps (h : Keeps o p) (a b) : Keeps o (cmdCardResume a b p) := by
  unfold cmdCardResume; split
  · exact refuse_keeps h _ _ _
  · split <;> first | exact refuse_keeps h _ _ _ | exact done_keeps (statusDirty_keeps (activate_keeps (modRequest_keeps h _ _ (by intro; rfl)) _)) _ _
/-! Thermal -/
theorem tsm_keeps (h : Keeps o p) (x : Tsm) (h1 : x.warm = p.tsm.warm) (h2 : x.critical = p.tsm.critical) (h3 : x.hysteresis = p.tsm.hysteresis) : Keeps o { p with tsm := x } := by
  obtain ⟨a1,a2,a3,a4,a5,a6,a7,a8,a9,a10,a11⟩ := x
  simp only at h1 h2 h3
  subst h1 h2 h3
  exact h
theorem tempReadingStart_keeps (h : Keeps o p) : Keeps o p.tempReadingStart := by
  unfold Part.tempReadingStart; split
  · split <;> exact h
  · exact h
theorem setTemp_keeps (h : Keeps o p) (a b c) : Keeps o (p.setTemp a b c) := by
  unfold Part.setTemp
  extract_lets ch d q1 q2 q3
  have h1 : Keeps o q1 := tsm_keeps h _ (Eq.refl _) (Eq.refl _) (Eq.refl _)
  clear_value q1
  have h2 : Keeps o q2 := by
    show Keeps o (if _ then q1.toldCritical else q1)
    split
    · exact toldCritical_keeps h1
    · exact h1
  clear_value q2
  have h3 : Keeps o q3 := by
    show Keeps o (if _ then _ else q2)
    split
    · exact emitAt_keeps h2 _ _ _ _
    · exact h2
  clear_value q3
  split
  · exact statusDirty_keeps h3
  · exact h3
theorem missedReading_keeps (h : Keeps o p) (a) : Keeps o (p.missedReading a) := by
  unfold Part.missedReading; extract_lets d q
  have h1 : Keeps o q := tsm_keeps h _ (Eq.refl _) (Eq.refl _) (Eq.refl _)
  clear_value q
  split
  · exact setTemp_keeps h1 _ _ _
  · exact h1
theorem goodReading_keeps (h : Keeps o p) (a b) : Keeps o (p.goodReading a b) := by
  unfold Part.goodReading; dsimp only
  apply setTemp_keeps; exact tsm_keeps h _ (Eq.refl _) (Eq.refl _) (Eq.refl _)
theorem tempReadingEnd_keeps (h : Keeps o p) (a b) : Keeps o (p.tempReadingEnd a b) := by
  unfold Part.tempReadingEnd; split
  · exact h
  · dsimp only; split
    · exact missedReading_keeps h _
    · split
      · exact goodReading_keeps h _ _
      · exact missedReading_keeps h _
theorem tempReadingTimeout_keeps (h : Keeps o p) : Keeps o p.tempReadingTimeout := by
  unfold Part.tempReadingTimeout; split
  · exact h
  · split
    · exact missedReading_keeps h _
    · exact h
theorem clampInt_le {lo hi v : Int} (h : lo ≤ hi) : lo ≤ clampInt lo hi v ∧ clampInt lo hi v ≤ hi := by
  unfold clampInt; split
  · omega
  · split <;> omega
theorem cmdSetLimits_keeps (h : Keeps o p) (a b) : Keeps o (cmdSetLimits a b p) := by
  unfold cmdSetLimits; dsimp only; apply doneOr_keeps
  refine h.trans ⟨id, id, id, ⟨id, id⟩, id, id, fun hs => ⟨hs.1, hs.2.1, hs.2.2.1, ?_⟩, ⟨fun _ => Eq.refl _, fun h => ?_⟩, Eq.refl _, Eq.refl _, fun h => ⟨h, Eq.refl _⟩, Eq.refl _⟩
  · have h1 := clampInt_le (lo := 80) (hi := 280) (v := argInt b 0) (by omega)
    have h2 := clampInt_le (lo := clampInt 80 280 (argInt b 0) + 8) (hi := 320) (v := argInt b 1) (by omega)
    have h3 := clampInt_le (lo := 1) (hi := 20) (v := argInt b 2) (by omega)
    exact ⟨h1.1, h1.2, h2.1, h2.2, h3.1, h3.2⟩
  · change p.cpa.mode ≠ _; rw [h]; decide
theorem supplyTransition_keeps (h : Keeps o p) (a) : Keeps o (p.supplyTransition a) := by
  unfold Part.supplyTransition; dsimp only
  split
  · exact h
  · split
    · exact h
    · split <;> exact h
theorem supplyChange_keeps (h : Keeps o p) : Keeps o p.supplyChange := by
  unfold Part.supplyChange; split
  · exact h
  · split
    · extract_lets st d q1 q2
      have h1 : Keeps o q1 := tsm_keeps h _ (Eq.refl _) (Eq.refl _) (Eq.refl _)
      clear_value q1
      have h2 : Keeps o q2 := by
        show Keeps o (if _ then _ else q1)
        split
        · exact endCapture_keeps (toldLowSupply_keeps h1 _) _ _
        · exact h1
      clear_value q2
      exact statusDirty_keeps (emitAt_keeps h2 _ _ _ _)
    · exact h
/-! Develop -/
theorem setPass_keeps (h : Keeps o p) (a) : Keeps o (p.setPass a) := h
theorem stage1End_k (h : Keeps o p) : Keeps o p.stage1End := by
  unfold Part.stage1End; split
  · exact h
  · split
    · exact modProgress_keeps (setPass_keeps h _) _ _
    · exact h
theorem stage3End_k (h : Keeps o p) : Keeps o p.stage3End := by
  unfold Part.stage3End; split
  · exact h
  · split
    · exact modProgress_keeps (setPass_keeps h _) _ _
    · exact h
theorem wakeStore_keeps (h : Keeps o p) (a) : Keeps o (p.wakeStore a) := by
  unfold Part.wakeStore; split
  · exact h
  · split
    · exact modRequest_keeps h _ _ fun _ => rfl
    · exact h
theorem endPass_keeps (h : Keeps o p) (a b) : Keeps o (p.endPass a b) := by
  unfold Part.endPass; dsimp only
  apply choose_keeps; apply wakeStore_keeps; apply startPass_keeps
  have : Keeps o (((p.modProgress a.shot fun g => { g with histogram := a.histogram, saturated := saturatedCount a.full g.highClamps, fileSectors := some p.geo.fileSectors }).setShotState a.shot .developed).lowerDark a.shot b.progress.dark |>.emit .developed a.shot [natWord p.geo.fileSectors]) := by
    apply emit_keeps; apply lowerDark_keeps; apply setShotState_keeps; exact modProgress_keeps h _ _
  exact this
theorem passEnd_keeps (h : Keeps o p) : Keeps o p.passEnd := by
  unfold Part.passEnd; split
  · exact h
  · split
    · split
      · exact h
      · exact endPass_keeps h _ _
    · exact h
theorem dpeStopped_keeps (h : Keeps o p) : Keeps o p.dpeStopped := h
theorem dpeBurstDone_keeps (h : Keeps o p) (a b c d) : Keeps o (p.dpeBurstDone a b c d) := by
  unfold Part.dpeBurstDone; split
  · exact dpeStopped_keeps h
  · split
    · exact h
    · exact setPass_keeps h _
end Sys2Proof.Machine
end

