-- ==== Sys2Proof/Laws/KeepsPage.lean ====
section
/-! SUPPORT. The control page, the reset sequence and the end of a burst keep the invariants (see KeepsShared.lean). -/

open Sys2Proof Sys2Proof.Machine
namespace Sys2Proof.Machine
variable {o p : Part}
theorem cmdStart_keeps (h : Keeps o p) (hm : p.cpa.mode ≠ .service) (a b) : Keeps o (cmdStart a b p) := by
  unfold cmdStart; split
  · exact refuse_keeps h _ _ _
  · dsimp only
    apply done_keeps; apply statusDirty_keeps; apply fixSlots_keeps
    refine h.trans ⟨id, id, id, ⟨id, id⟩, id, id, id, ⟨fun hl => ?_, fun _ e => nomatch e⟩, Eq.refl _, Eq.refl _, fun h => ⟨h, Eq.refl _⟩, Eq.refl _⟩
    show Mode.operational = p.cpa.mode
    cases hmm : p.cpa.mode <;> simp_all
theorem cmdStatus_keeps (h : Keeps o p) (a b) : Keeps o (cmdStatus a b p) := statusFor_keeps h _
theorem cmdClearFlags_keeps (h : Keeps o p) (a b) : Keeps o (cmdClearFlags a b p) := by
  unfold cmdClearFlags
  extract_lets sel bef d1 d2 d3 q
  have h1 : Keeps o q := h
  clear_value q
  apply done_keeps
  split
  · exact statusDirty_keeps h1
  · exact h1
theorem cmdSetEventMask_keeps (h : Keeps o p) (a b) : Keeps o (cmdSetEventMask a b p) := by
  unfold cmdSetEventMask; apply done_keeps; exact h
theorem stopEsu_keeps (h : Keeps o p) : Keeps o p.stopEsu := esu_keeps (setSeq_keeps (stopSequence_keeps h) .idle) _ (Eq.refl _) (Eq.refl _)
theorem abortAfter_keeps (h : Keeps o p) (a) : Keeps o (p.abortAfter a) := by
  unfold Part.abortAfter; split <;> first | exact fail_keeps h _ _ _ | exact h
theorem abortArms_keeps : ∀ (l : List (Fin 8 × List Word)) {p : Part}, Keeps o p → Keeps o (Part.abortArms l p)
  | [], _, h => h
  | _ :: l, _, h => abortArms_keeps l (fail_keeps h _ _ _)
theorem stopDfl_keeps (h : Keeps o p) : Keeps o p.stopDfl := by
  unfold Part.stopDfl; extract_lets q d r
  have h1 : Keeps o q := by
    show Keeps o (match p.dfl.ending with | none => p | some e => _)
    split
    · exact h
    · exact abortArms_keeps _ (abortAfter_keeps h _)
  have h2 : Keeps o r := dfl_keeps h1 _ (Eq.refl _)
  clear_value r
  split
  · exact h2
  · exact statusDirty_keeps h2
theorem stopBlocks_keeps (h : Keeps o p) : Keeps o p.stopBlocks := by
  unfold Part.stopBlocks; extract_lets q1 q2 q3 q4
  have h1 : Keeps o q1 := stopCal_keeps (stopDfl_keeps (stopEsu_keeps h))
  clear_value q1
  have h2 : Keeps o q2 := by
    show Keeps o (if _ then _ else _); split
    · exact icrStopped_keeps h1
    · exact h1
  clear_value q2
  have h3 : Keeps o q3 := by
    show Keeps o (if _ then _ else _); split
    · exact h2
    · exact dpeStopped_keeps h2
  clear_value q3
  have h4 : Keeps o q4 := by
    show Keeps o (if _ then _ else _); split
    · exact prnStopped_keeps h3
    · exact h3
  exact checkCdeStop_keeps h4
theorem cmdResetShots_keeps (h : Keeps o p) (a b) : Keeps o (cmdResetShots a b p) := by
  unfold cmdResetShots; apply stopBlocks_keeps; exact h
theorem shtResetClear_keeps (h : Keeps o p) : Keeps o p.shtResetClear := by
  unfold Part.shtResetClear; split
  · exact h
  · split
    · extract_lets c q
      have h1 : Keeps o q := by
        refine setResetting_keeps (p := { p with sht := p.sht.cleared }) ?_ _
        apply sht_keeps h; intro hp; refine ⟨fun hl => ?_, Nat.zero_le _⟩
        show p.sht.slots.map _ = []; rw [hp.1 hl]; exact Eq.refl _
      clear_value q
      split
      · exact h1
      · exact statusDirty_keeps h1
    · exact h
theorem resetShotsDone_keeps (h : Keeps o p) : Keeps o p.resetShotsDone := by
  unfold Part.resetShotsDone; split
  · exact h
  · split
    · dsimp only; apply done_keeps; apply emit_keeps; apply statusDirty_keeps; exact h
    · exact h
theorem cmdAbort_keeps (h : Keeps o p) (a b) : Keeps o (cmdAbort a b p) := done_keeps h _ _
theorem markAborting_keeps (h : Keeps o p) (a b) : Keeps o (p.markAborting a b) := h
theorem abortBusy_keeps (h : Keeps o p) (a b) : Keeps o (p.abortBusy a b) := by
  unfold Part.abortBusy; split
  · exact h
  · split
    · exact abortBringup_keeps (markAborting_keeps h _ _)
    · exact abortClose_keeps (markAborting_keeps h _ _)
    · exact h
theorem abortSlot_keeps (h : Keeps o p) (a) : Keeps o (p.abortSlot a) := by
  unfold Part.abortSlot; split
  · exact abortBusy_keeps h _ _
  · exact takeVerb_keeps h fun _ _ _ h => cmdAbort_keeps h _ _
theorem hostAbort_keeps (h : Keeps o p) (a) : Keeps o (p.hostAbort a) := by
  unfold Part.hostAbort; split
  · exact abortSlot_keeps (noteWrite_keeps h _) _
  · exact h
theorem gate_start (h : Keeps o p) {n a} : Keeps o (p.gate .start n (cmdStart n a)) := by
  unfold Part.gate
  split
  · exact refuse_keeps h _ _ _
  · rename_i hm
    split
    · exact refuse_keeps h _ _ _
    · have : p.cpa.mode ≠ .service := by
        intro e; rw [e] at hm; simp [Verb.accepted] at hm
      simp only [this, decide_false, Bool.and_false, Bool.false_eq_true, if_false]
      exact cmdStart_keeps h this _ _
theorem body_keeps (h : Keeps o p) (v) (hv : v ≠ .start) (n a) : Keeps o (bodyOf v n a p) :=
  match v, hv with
  | .setGeometry, _ => cmdSetGeometry_keeps h n a
  | .setWindow, _ => cmdSetWindow_keeps h n a
  | .start, hv => absurd (Eq.refl _) hv
  | .status, _ => cmdStatus_keeps h n a
  | .clearFlags, _ => cmdClearFlags_keeps h n a
  | .setEventMask, _ => cmdSetEventMask_keeps h n a
  | .resetShots, _ => cmdResetShots_keeps h n a
  | .abort, _ => cmdAbort_keeps h n a
  | .loadOpen, _ => cmdLoadOpen_keeps h n a
  | .loadClose, _ => cmdLoadClose_keeps h n a
  | .loadCancel, _ => cmdLoadCancel_keeps h n a
  | .arm, _ => cmdArm_keeps h n a
  | .disarm, _ => disarmShot_keeps h n a
  | .setSync, _ => cmdSetSync_keeps h n a
  | .snapshot, _ => cmdSnapshot_keeps h n a
  | .setDarkPolicy, _ => cmdSetDarkPolicy_keeps h n a
  | .skipDark, _ => cmdSkipDark_keeps h n a
  | .protect, _ => cmdProtect_keeps h n a
  | .unprotect, _ => cmdUnprotect_keeps h n a
  | .release, _ => cmdRelease_keeps h n a
  | .queryShot, _ => cmdQueryShot_keeps h n a
  | .viewSelect, _ => cmdViewSelect_keeps h n a
  | .cardInit, _ => cmdCardInit_keeps h n a
  | .store, _ => cmdStore_keeps h n a
  | .cardWrite, _ => joinTransfer_keeps h _ n a
  | .cardRead, _ => joinTransfer_keeps h _ n a
  | .cardCancel, _ => cancelById_keeps h n a
  | .cardResume, _ => cmdCardResume_keeps h n a
  | .setLimits, _ => cmdSetLimits_keeps h n a
theorem verbWord_keeps (h : Keeps o p) (n w) : Keeps o (p.verbWord n w) := by
  unfold Part.verbWord; split
  · exact h
  · split
    · exact abortSlot_keeps h _
    · split
      · exact h
      · split
        · rename_i v _
          by_cases hv : v = .start
          · subst hv; exact gate_start (a := p.cpa.slots[n].args) (latch_keeps h _ _)
          · exact takeVerb_keeps h fun n a q hq => body_keeps hq v hv n a
        · exact refuse_keeps (latch_keeps h _ _) _ _ _
theorem putSlot_keeps (h : Keeps o p) (a b) : Keeps o (p.putSlot a b) := h
theorem noteBeat_keeps (h : Keeps o p) (b) : Keeps o (p.noteBeat b) := by
  unfold Part.noteBeat; split
  · exact h
  · exact putSlot_keeps h _ _
  · split
    · exact putSlot_keeps h _ _
    · exact h
theorem actBeat_keeps (h : Keeps o p) (b) : Keeps o (p.actBeat b) := by
  unfold Part.actBeat; split
  · exact statusDirty_keeps h
  · split
    · exact pushWrite_keeps h _
    · split
      · exact consumerSeen_keeps h _
      · split
        · exact verbWord_keeps h _ _
        · exact h
theorem foldl_keeps {f : Part → (Nat × List Byte) → Part} (hf : ∀ {p b}, Keeps o p → Keeps o (f p b)) : ∀ (l : List (Nat × List Byte)) {p : Part}, Keeps o p → Keeps o (l.foldl f p)
  | [], _, h => h
  | b :: l, p, h => foldl_keeps hf l (hf h)
theorem observe_keeps (h : Keeps o p) (a b) : Keeps o (p.observe a b) :=
  choosing_keeps (foldl_keeps (fun h => actBeat_keeps h _) _ (foldl_keeps (fun h => noteBeat_keeps h _) _ h))
theorem hostStart_keeps (h : Keeps o p) {w} : Keeps o (p.hostVerb .start cmdStart w) := by
  unfold Part.hostVerb
  split
  · dsimp only; split
    · exact noteWrite_keeps h _
    · exact gate_start (latch_keeps (noteWrite_keeps h _) _ _)
  · exact h
/-! FramePort -/
theorem phase_keeps (h : Keeps o p) (hp : p.phase ≠ .running) (x) : Keeps o { p with phase := x } := by
  refine h.trans ⟨id, id, id, ⟨id, id⟩, id, id, id, ⟨fun _ => Eq.refl _, fun h => ?_⟩, Eq.refl _, Eq.refl _, fun h => absurd h hp, Eq.refl _⟩
  change p.cpa.mode ≠ _; rw [h]; decide
theorem resetRelease_keeps (h : Keeps o p) : Keeps o p.resetRelease := by
  unfold Part.resetRelease; split
  · rename_i hp
    refine phase_keeps (p := { p with esu := _, cde := _, tsm := _ }) ?_ ?_ .released
    · exact h
    · show p.phase ≠ _; rw [hp]; decide
  · exact h
theorem capacityObtained_keeps (h : Keeps o p) (a) : Keeps o (p.capacityObtained a) := by
  unfold Part.capacityObtained; split
  · rename_i hp
    refine h.trans ⟨id, id, id, ⟨id, id⟩, id, id, id, ⟨fun _ => Eq.refl _, fun h => ?_⟩, Eq.refl _, Eq.refl _, fun h => ?_, Eq.refl _⟩
    · change p.cpa.mode ≠ _; rw [h]; decide
    · rw [hp] at h; cases h
  · exact h
theorem resetWritesDone_keeps (h : Keeps o p) : Keeps o p.resetWritesDone := by
  unfold Part.resetWritesDone; split
  · rename_i hp
    apply phase_keeps h; rw [hp.1]; decide
  · exact h
theorem endWaiters_keeps (v) : ∀ (l : List (Fin 8)) {p : Part}, Keeps o p → Keeps o (Part.endWaiters v l p)
  | [], _, h => h
  | n :: l, p, h => endWaiters_keeps v l (done_keeps h _ _)
theorem cpaBurstDone_keeps (h : Keeps o p) (a b) : Keeps o (p.cpaBurstDone a b) := by
  unfold Part.cpaBurstDone; split <;> first
    | exact h
    | exact endWaiters_keeps _ _ h
    | exact done_keeps h _ _
theorem passBurstDone_keeps (h : Keeps o p) (a b) : Keeps o (p.passBurstDone a b) := by
  unfold Part.passBurstDone; split
  · split
    · apply answer_keeps; split
      · exact observe_keeps h _ _
      · exact h
    · exact answer_keeps h _ _
  · exact ingestBurstDone_keeps h _
  · exact h
theorem burstDone_keeps (h : Keeps o p) (a b) : Keeps o (p.burstDone a b) := by
  unfold Part.burstDone; split
  · exact passBurstDone_keeps h _ _
  · split
    · exact h
    · exact cpaBurstDone_keeps h _ _
  · exact dpeBurstDone_keeps h _ _ _ _
  · exact sourceRead_keeps h _
  · exact cdeBurstDone_keeps h _ _ _ _
end Sys2Proof.Machine
end

