-- ==== Sys2Proof/Laws/Memory.lean ====
section
/-! SUPPORT. Frame memory: what one write changes, and that every operation keeps the canonical form. -/

namespace Sys2Proof.Machine

/-! ## One byte -/

/-- An address below every listed one reads 0. -/
theorem Memory.read_below : ∀ (m : Memory) (lo x : Nat), Memory.wfFrom lo m = true → x < lo → Memory.read m x = 0
  | [], _, _, _, _ => rfl
  | (a, v) :: m, lo, x, h, hx => by
    simp only [Memory.wfFrom, Bool.and_eq_true, decide_eq_true_eq] at h
    have hne : ¬ x = a := by omega
    rw [Memory.read, if_neg hne]
    exact Memory.read_below m (a + 1) x h.2 (by omega)

/-- The byte written is read back. -/
theorem Memory.read_write_same : ∀ (m : Memory) (lo x : Nat) (v : Byte), Memory.wfFrom lo m = true →
    Memory.read (Memory.write m x v) x = v
  | [], _, x, v, _ => by
    by_cases hv : v = 0#8 <;> simp [Memory.write, Memory.read, hv]
  | (a, w) :: m, lo, x, v, h => by
    simp only [Memory.wfFrom, Bool.and_eq_true, decide_eq_true_eq] at h
    by_cases h1 : x < a
    · by_cases hv : v = 0#8
      · have := Memory.read_below m (a + 1) x h.2 (by omega)
        simp [Memory.write, h1, hv, Memory.read, Nat.ne_of_lt h1, this]
      · simp [Memory.write, h1, hv, Memory.read]
    · by_cases h2 : x = a
      · by_cases hv : v = 0#8
        · have := Memory.read_below m (a + 1) x h.2 (by omega)
          simp [Memory.write, h2, hv]
          rw [← h2]; exact this
        · simp [Memory.write, h2, hv, Memory.read]
      · simp [Memory.write, h1, h2, Memory.read, Memory.read_write_same m (a + 1) x v h.2]

/-- No other byte changes. -/
theorem Memory.read_write_other : ∀ (m : Memory) (lo x y : Nat) (v : Byte), Memory.wfFrom lo m = true → y ≠ x →
    Memory.read (Memory.write m x v) y = Memory.read m y
  | [], _, x, y, v, _, hy => by
    by_cases hv : v = 0#8 <;> simp [Memory.write, Memory.read, hv, hy]
  | (a, w) :: m, lo, x, y, v, h, hy => by
    simp only [Memory.wfFrom, Bool.and_eq_true, decide_eq_true_eq] at h
    by_cases h1 : x < a
    · by_cases hv : v = 0#8 <;> simp [Memory.write, h1, hv, Memory.read, hy]
    · by_cases h2 : x = a
      · by_cases hv : v = 0#8
        · subst h2; simp [Memory.write, hv, Memory.read, hy]
        · subst h2; simp [Memory.write, hv, Memory.read, hy]
      · by_cases h3 : y = a
        · simp [Memory.write, h1, h2, Memory.read, h3]
        · simp [Memory.write, h1, h2, Memory.read, h3, Memory.read_write_other m (a + 1) x y v h.2 hy]

/-! ## The canonical form -/

theorem Memory.wfFrom_mono : ∀ (m : Memory) (lo lo' : Nat), lo' ≤ lo → Memory.wfFrom lo m = true → Memory.wfFrom lo' m = true
  | [], _, _, _, _ => rfl
  | (a, v) :: m, lo, lo', hl, h => by
    simp only [Memory.wfFrom, Bool.and_eq_true, decide_eq_true_eq] at h ⊢
    exact ⟨⟨by omega, h.1.2⟩, h.2⟩

theorem Memory.write_wfFrom : ∀ (m : Memory) (lo x : Nat) (v : Byte), lo ≤ x → Memory.wfFrom lo m = true →
    Memory.wfFrom lo (Memory.write m x v) = true
  | [], lo, x, v, hx, _ => by
    by_cases hv : v = 0#8 <;> simp [Memory.write, Memory.wfFrom, hv, hx]
  | (a, w) :: m, lo, x, v, hx, h => by
    have h' := h
    simp only [Memory.wfFrom, Bool.and_eq_true, decide_eq_true_eq] at h
    obtain ⟨⟨h1, h2⟩, h3⟩ := h
    by_cases ha : x < a
    · by_cases hv : v = 0#8
      · simpa [Memory.write, ha, hv] using h'
      · simpa [Memory.write, ha, hv, Memory.wfFrom, hx, h3, Nat.succ_le_of_lt ha] using h2
    · by_cases hb : x = a
      · by_cases hv : v = 0#8
        · simpa [Memory.write, hb, hv] using Memory.wfFrom_mono m (a + 1) lo (by omega) h3
        · simp [Memory.write, hb, hv, Memory.wfFrom, h1, h3]
      · have := Memory.write_wfFrom m (a + 1) x v (by omega) h3
        simpa [Memory.write, ha, hb, Memory.wfFrom, h1, this] using h2

theorem Memory.write_wf (m : Memory) (x : Nat) (v : Byte) (h : m.wf = true) : (m.write x v).wf = true :=
  Memory.write_wfFrom m 0 x v (Nat.zero_le x) h

theorem Memory.writeBytes_wf : ∀ (bs : List Byte) (m : Memory) (x : Nat), m.wf = true → (m.writeBytes x bs).wf = true
  | [], _, _, h => h
  | v :: vs, m, x, h => Memory.writeBytes_wf vs (m.write x v) (x + 1) (Memory.write_wf m x v h)

theorem tornWrite_wf : ∀ (beats : List (Nat × List Byte)) (free : Nat) (m : Memory) (addr : Nat), m.wf = true →
    (tornWrite free m addr beats).wf = true
  | [], _, _, _, h => h
  | (_, beat) :: rest, free, m, addr, h => by
    rw [tornWrite]
    refine tornWrite_wf rest _ _ _ ?_
    split
    · exact Memory.writeBytes_wf beat m addr h
    · exact h

theorem State.tornMemory_wf (s : State) (h : s.mem.wf = true) : s.tornMemory.wf = true := by
  unfold State.tornMemory
  split
  · exact h
  · split
    · exact tornWrite_wf _ _ _ _ h
    · exact h

/-- Memory after reset lists nothing. -/
theorem State.reset_wf : State.reset.mem.wf = true := rfl

end Sys2Proof.Machine
end

