-- ==== Sys2Proof/Laws/SharedOps.lean ====
section
/-! SUPPORT. What shared operations can do, each said once: status writes that follow one another, the record a later command finds, allocation, the choice of a card request. -/

namespace Sys2Proof.Machine

/-! ## Status writes that follow one another (R34, R35) -/

/-- With a status write queued no further one becomes due. -/
theorem Part.statusDirty_eq_self {p : Part} (h : p.cpa.writes.any CpaWrite.isStatus = true) : p.statusDirty = p := by
  unfold Part.statusDirty
  simp [h]

/-- Two status writes made due at once are one. -/
@[simp] theorem Part.statusDirty_statusDirty (p : Part) : p.statusDirty.statusDirty = p.statusDirty := by
  by_cases hp : p.phase = .resetWrites ∨ p.phase = .running
  · by_cases hw : p.cpa.writes.any CpaWrite.isStatus = true
    · simp [Part.statusDirty_eq_self hw]
    · apply Part.statusDirty_eq_self
      simp [Part.statusDirty, hp, hw, Part.pushWrite, CpaWrite.isStatus]
  · simp [Part.statusDirty, hp]

/-- A status write due before an event needs none after it. -/
@[simp] theorem Part.statusDirty_emitEvent_statusDirty (e : Event) (p : Part) :
    (Part.emitEvent e p.statusDirty).statusDirty = Part.emitEvent e p.statusDirty := by
  by_cases hp : p.phase = .resetWrites ∨ p.phase = .running
  · apply Part.statusDirty_eq_self
    have h : p.statusDirty.cpa.writes.any CpaWrite.isStatus = true := by
      by_cases hw : p.cpa.writes.any CpaWrite.isStatus = true
      · simp [Part.statusDirty_eq_self hw, hw]
      · simp [Part.statusDirty, hp, hw, Part.pushWrite, CpaWrite.isStatus]
    unfold Part.emitEvent Part.acceptEvent
    repeat' split
    all_goals first | exact h | simp [Part.statusDirty_eq_self, h]
  · have h : p.statusDirty = p := by simp [Part.statusDirty, hp]
    rw [h]
    have hq : (Part.emitEvent e p).phase = p.phase := by rw [Part.emitEvent_frame]
    simp [Part.statusDirty, hq, hp]

/-- A slot's holder and the status write that follows it do not meet. -/
theorem Part.setHolder_statusDirty (slot : Nat) (h : Holder) (p : Part) :
    p.statusDirty.setHolder slot h = (p.setHolder slot h).statusDirty := by
  by_cases hp : p.phase = .resetWrites ∨ p.phase = .running
  · by_cases hw : p.cpa.writes.any CpaWrite.isStatus = true <;> simp [Part.statusDirty, Part.setHolder, Part.pushWrite, hp, hw]
  · simp [Part.statusDirty, Part.setHolder, hp]

/-! ## The record that a later command finds (R69, R123) -/

/-- A shot is being released exactly when a capture's end waits whose cause is a RELEASE of it. -/
theorem Part.releasing_iff (n : Word) (p : Part) :
    p.releasing n = true ↔ ∃ e m, p.dfl.ending = some e ∧ e.after = .release m n := by
  unfold Part.releasing
  split
  · simp [*]
  · split <;> simp_all

/-- A record that is found is the record, and no RELEASE of its shot has been accepted. -/
theorem Part.keptShot?_eq_some {n : Word} {t : Shot} {p : Part} :
    p.keptShot? n = some t ↔ p.releasing n = false ∧ p.shot? n = some t := by
  unfold Part.keptShot?
  cases p.releasing n <;> simp

/-- While no capture's end waits, every record is found. -/
theorem Part.keptShot?_of_no_ending {p : Part} (h : p.dfl.ending = none) (n : Word) : p.keptShot? n = p.shot? n := by
  simp [Part.keptShot?, Part.releasing, h]

/-! ## Allocation (R60, R115) -/

/-- The entry that `leastUsed` gives is one of refcount 0 and the lowest stamp. -/
theorem leastUsed_of_lowest {es : List Dark} {e : Dark} (he : e ∈ es) (h0 : e.refs = 0)
    (hl : ∀ f ∈ es, f.refs = 0 → f = e ∨ e.stamp.toNat < f.stamp.toNat) : leastUsed es = some e := by
  suffices ∀ (l : List Dark) (b : Option Dark), (∀ f ∈ l, f.refs = 0 → f = e ∨ e.stamp.toNat < f.stamp.toNat) →
      (∀ x, b = some x → x = e ∨ e.stamp.toNat < x.stamp.toNat) → (e ∈ l ∨ b = some e) →
      l.foldl (fun best f =>
        if f.refs = 0 then
          match best with
          | none => some f
          | some b => if f.stamp.toNat < b.stamp.toNat then some f else some b
        else best) b = some e from this es none hl (by simp) (.inl he)
  intro l
  induction l with
  | nil => intro b _ _ h; simpa using h
  | cons f l ih =>
    intro b hl hb h
    rw [List.foldl_cons]
    apply ih _ (fun g hg => hl g (List.mem_cons_of_mem _ hg))
    · intro x hx
      split at hx
      · split at hx
        · cases hx; exact hl _ List.mem_cons_self ‹_›
        · split at hx
          · cases hx; exact hl _ List.mem_cons_self ‹_›
          · cases hx; exact hb _ rfl
      · exact hb x hx
    · rcases h with h | h
      · rcases List.mem_cons.1 h with rfl | h
        · right
          simp only [h0, if_true]
          cases b with
          | none => rfl
          | some x =>
            rcases hb x rfl with rfl | hx
            · simp
            · simp [hx]
        · exact .inl h
      · right
        subst h
        by_cases hf : f.refs = 0
        · rcases hl f List.mem_cons_self hf with rfl | hx
          · simp
          · simp [hf, Nat.not_lt.2 (Nat.le_of_lt hx)]
        · simp [hf]

/-- With every entry referenced none is given up. -/
theorem leastUsed_none {es : List Dark} (h : ∀ e ∈ es, e.refs ≠ 0) : leastUsed es = none := by
  unfold leastUsed
  suffices ∀ l : List Dark, (∀ e ∈ l, e.refs ≠ 0) → l.foldl (fun best e =>
      if e.refs = 0 then
        match best with
        | none => some e
        | some b => if e.stamp.toNat < b.stamp.toNat then some e else some b
      else best) none = (none : Option Dark) from this es h
  intro l
  induction l with
  | nil => intro _; rfl
  | cons f l ih =>
    intro h
    rw [List.foldl_cons, if_neg (h f List.mem_cons_self)]
    exact ih fun e he => h e (List.mem_cons_of_mem _ he)

/-- An allocation takes the slot that `givesSlot` names, gives it to the holder, and the status record is rewritten. -/
theorem Part.allocate_of_givesSlot {p q : Part} {slot : Nat} (h : Holder) (hg : p.givesSlot slot q) :
    p.allocate h = some (slot, (q.setHolder slot h).statusDirty) := by
  rcases hg with ⟨rfl, hs, hj⟩ | ⟨hf, e, he, h0, hl, rfl, rfl⟩
  · have : q.sht.slots.findIdx? (fun x => decide (x = .free)) = some slot := by
      rw [List.findIdx?_eq_some_iff_getElem]
      obtain ⟨hlt, hv⟩ := List.getElem?_eq_some_iff.1 hs
      refine ⟨hlt, by simp [hv], fun j hjs => ?_⟩
      have := hj j hjs
      rw [List.getElem?_eq_getElem (by omega)] at this
      simpa using this
    simp [Part.allocate, this]
  · have : p.sht.slots.findIdx? (fun x => decide (x = .free)) = none := by
      rw [List.findIdx?_eq_none_iff]
      intro x hx
      simpa using hf x hx
    have hu := leastUsed_of_lowest he h0 hl
    simp only [Part.allocate, this, Part.evict, hu, Part.setHolder_statusDirty]
    rfl

/-- An allocation fails where no slot can be given (R60). -/
theorem Part.allocate_of_givesNoSlot {p : Part} (h : Holder) (hg : p.givesNoSlot) : p.allocate h = none := by
  have : p.sht.slots.findIdx? (fun x => decide (x = .free)) = none := by
    rw [List.findIdx?_eq_none_iff]
    intro x hx
    simpa using hg.1 x hx
  simp [Part.allocate, this, Part.evict, leastUsed_none hg.2]

/-! ## The choice (R192, R193) -/

/-- Everything the choice can do: nothing, or the activation of a QUEUED request, with the card READY, none HALTED or ACTIVE. -/
theorem Part.choose_cases (p : Part) :
    p.choose = p ∨
      ∃ r, r ∈ p.cde.requests ∧ r.state = .queued ∧ p.cde.card = .ready ∧ p.cde.halted = none ∧ p.cde.activeRequest = none ∧
        p.choose = p.activate r.id := by
  unfold Part.choose
  split
  · rename_i h
    split
    · exact .inl rfl
    · rename_i r hr
      have hm : ∀ k, p.cde.eligible k = some r → r ∈ p.cde.requests ∧ r.state = .queued := fun k hk => by
        have h1 := List.mem_of_find?_eq_some hk
        have h2 := List.find?_some hk
        simp only [Bool.and_eq_true, decide_eq_true_eq] at h2
        exact ⟨h1, h2.1⟩
      have : r ∈ p.cde.requests ∧ r.state = .queued := by
        unfold Cde.choice at hr
        rcases Option.or_eq_some_iff.1 hr with h | ⟨-, h⟩ <;> exact hm _ h
      exact .inr ⟨r, this.1, this.2, h.1, h.2.1, h.2.2.1, rfl⟩
  · exact .inl rfl

end Sys2Proof.Machine
end

