-- ==== Sys2Proof/Tests/Slice0.lean ====
section
/-! SUPPORT. Tests: the well-formedness checks, worked examples and tables of the spec, and for every statement with hypotheses a state that meets them. -/

namespace Sys2Proof.Tests

-- The kernel evaluates each test in turn, not in a thread of its own.
set_option Elab.async false

open Sys2Proof.Machine

/-! ## Well-formedness: an ill-formed term for each check -/

theorem test_wf_burst_unaligned : Instr.wf (.burstAccept ⟨false, 8, 1, []⟩) = false := by decide
theorem test_wf_burst_beyond_the_address_space : Instr.wf (.burstAccept ⟨false, 2 ^ 36, 1, []⟩) = false := by decide
theorem test_wf_burst_of_no_beats : Instr.wf (.burstAccept ⟨false, 0, 0, []⟩) = false := by decide
theorem test_wf_burst_of_17_beats : Instr.wf (.burstAccept ⟨false, 0, 17, []⟩) = false := by decide
theorem test_wf_burst_data_not_whole_beats : Instr.wf (.burstAccept ⟨true, 0, 1, [1, 2]⟩) = false := by decide
theorem test_wf_burst_data_in_a_read : Instr.wf (.burstAccept ⟨false, 0, 1, [1]⟩) = false := by decide
theorem test_wf_burst : Instr.wf (.burstAccept ⟨true, 16, 1, List.replicate 16 7⟩) = true := by decide
theorem test_wf_words_not_whole_beats : Instr.wf (.start ⟨0, 1, [0]⟩) = false := by decide
theorem test_wf_words_beyond_the_slot : Instr.wf (.arm ⟨0, 1, List.replicate 28 0⟩) = false := by decide
theorem test_wf_words : Instr.wf (.arm ⟨7, 1, List.replicate 24 0⟩) = true := by decide
theorem test_wf_page_write_unaligned : Instr.wf (.controlPageWrite 8 (List.replicate 16 0)) = false := by decide
theorem test_wf_page_write_not_whole_beats : Instr.wf (.controlPageWrite 0 (List.replicate 20 0)) = false := by decide
theorem test_wf_page_write_empty : Instr.wf (.controlPageWrite 0 []) = false := by decide
theorem test_wf_page_write_too_long : Instr.wf (.controlPageWrite 0 (List.replicate 272 0)) = false := by decide +kernel
theorem test_wf_page_write_across_pages : Instr.wf (.controlPageWrite 4080 (List.replicate 32 0)) = false := by decide
theorem test_wf_page_write_beyond_the_page : Instr.wf (.controlPageWrite 65536 (List.replicate 16 0)) = false := by decide
theorem test_wf_read_block : Instr.wf (.cardReadBlock true [1, 2, 3]) = false := by decide

/-! ## Examples and tables of the spec -/

/-- R12: the reference geometry, 11,648 × 8,736. -/
def geo : Geometry := ⟨11648, 8736, .rggb, 14⟩

/-- R11, R58: sizes of the reference geometry, and 10 slots in 2 GiB. -/
theorem test_reference_geometry :
    geo.frameBytes = 203513856 ∧ geo.slotPages = 49686 ∧ geo.slotsIn 2147483648 = 10 := by decide
/-- R11: the largest geometry. -/
theorem test_largest_geometry :
    (Geometry.frameBytes ⟨12288, 9216, .bggr, 16⟩) = 226492416 ∧ (Geometry.slotPages ⟨12288, 9216, .bggr, 16⟩) = 55296 := by decide
/-- R147: a dark pixel at 65535 gives its full scaled value, 262,132. -/
theorem test_dark_full_scale : darkPart 0 65534 65535 = 262132 := by decide
/-- R147: a dark pixel below its black contributes 0. -/
theorem test_dark_below_black : darkPart 500 16384 100 = 0 := by decide
/-- R116: a captured dark of the same time has K = F. -/
theorem test_scale_of_a_captured_dark : scaleFactor (List.replicate 17 20000) 5000000 5000000 3 = 20000 := by decide
/-- R116: the bounds of K. -/
theorem test_scale_bounds :
    scaleFactor (List.replicate 17 8192) 1 2 0 = 4096 ∧ scaleFactor (List.replicate 17 32767) 2 1 0 = 65534 := by decide
/-- R209: with the default limits WARM is left at 171 and CRITICAL at 231. -/
theorem test_temperature_hysteresis :
    ({ State.reset.part.tsm with temp := .warm }).next 172 = .warm ∧ ({ State.reset.part.tsm with temp := .warm }).next 171 = .normal ∧
    ({ State.reset.part.tsm with temp := .critical }).next 232 = .critical ∧
    ({ State.reset.part.tsm with temp := .critical }).next 231 = .warm := by decide
/-- R190: the sectors of a file of the reference geometry: 8 + 397,488 + 1. -/
theorem test_file_sectors : geo.fileSectors = 397497 := by decide
/-- R52: the CRC-32 of the nine digits, the check value of the polynomial. -/
theorem test_crc_check_value : ~~~(crcBytes crcStart [0x31, 0x32, 0x33, 0x34, 0x35, 0x36, 0x37, 0x38, 0x39]) = 0xCBF43926 := by
  decide +kernel
/-- R145: Gr is the green of a row that carries red. -/
theorem test_channels : channelOf .rggb 1 0 = .gr ∧ channelOf .bggr 1 1 = .r := by decide

/-! ## States -/

/-- The part after a command that answers a next state. -/
def after (i : Instr) (s : State) : Part :=
  match exec i s with
  | .next t => t.part
  | _ => s.part

def onPart (f : Part → Part) (s : State) : State := { s with part := f s.part }

/-- Reset sequence done, nothing configured: LOADER. -/
def loader : State :=
  { State.reset with
    part := { State.reset.part with phase := .running, pts := { State.reset.part.pts with capacity := 4294967296 } } }

def kindWindow (kind : WindowKind) (base size : Nat) : Window := ⟨true, kind, base, size⟩

/-- Geometry, windows and factory tables in place. -/
def configured : State :=
  onPart
    (fun p =>
      { p with
        pts :=
          { p.pts with
            geometry := some geo
            windows :=
              ((((p.pts.windows.set 1 (kindWindow .frameStore 1073741824 2147483648)).set 2 (kindWindow .ingest 16777216 203517952)).set 3
                (kindWindow .view 268435456 4771840)).set 4 (kindWindow .bundle 314572800 4096)).set 5 (kindWindow .pass 335544320 67108864) }
        cal :=
          { p.cal with
            committed := ⟨true, true, false, false, true⟩
            tables :=
              { p.cal.tables with
                blackSat := some (List.replicate 8 (256, 16000)), gainGrid := some [4096]
                darkTemp := some (List.replicate 17 16384) } } })
    loader

/-- OPERATIONAL, ten FREE slots, no shot. -/
def ready : State :=
  onPart
    (fun p =>
      { p with
        cpa := { p.cpa with mode := .operational }
        sht := { p.sht with layout := some ⟨1073741824, 203513856⟩, slots := List.replicate 10 .free }
        tsm := { p.tsm with temp := .normal, reading := some 100 } })
    configured

/-- A SYNC shot with strobe plan NONE, in a state. -/
def shot (st : ShotState) : Shot :=
  { newShot 5 0 (.make .sync 3 0 .none 0 false false) 0 100 (some 100) with state := st }

def timed (x : Shot) : Shot := { x with arming := { x.arming with mode := .timed, programmed := some 2000000 } }

/-- The shot's record and slot in a state. -/
def holding (x : Shot) (s : State) : State :=
  onPart (fun p => { p with sht := { p.sht with records := [x], slots := p.sht.slots.set 0 (.shot x.number), counter := 6 } }) s

def w (args : List Word) : SlotWrite := ⟨2, 9, args⟩

/-- The timebase at a time. -/
def atTime (t : Word) (s : State) : State := onPart (fun p => { p with clock := ⟨0, t⟩ }) s

def onEsu (f : Esu → Esu) (s : State) : State := onPart (fun p => { p with esu := f p.esu }) s
def onCde (f : Cde → Cde) (s : State) : State := onPart (fun p => { p with cde := f p.cde }) s
def onCpa (f : Cpa → Cpa) (s : State) : State := onPart (fun p => { p with cpa := f p.cpa }) s
def onPts (f : Pts → Pts) (s : State) : State := onPart (fun p => { p with pts := f p.pts }) s
def onTsm (f : Tsm → Tsm) (s : State) : State := onPart (fun p => { p with tsm := f p.tsm }) s
def onDfl (f : Dfl → Dfl) (s : State) : State := onPart (fun p => { p with dfl := f p.dfl }) s
def onIcr (f : Icr → Icr) (s : State) : State := onPart (fun p => { p with icr := f p.icr }) s
def onCal (f : Cal → Cal) (s : State) : State := onPart (fun p => { p with cal := f p.cal }) s

def wburst (addr : Nat) : Burst := ⟨true, addr, 1, List.replicate 16 3⟩
def rburst (addr : Nat) : Burst := ⟨false, addr, 1, []⟩

/-- A burst at the head of the upstream queue, classified. -/
def atHead (b : Burst) (h : Option Head) (s : State) : State := onPts (fun p => { p with queue := [b], head := h }) s

/-- A command in flight in slot 2. -/
def inFlight (v : Verb) (s : State) : State :=
  onCpa (fun c => { c with slots := c.slots.set 2 ⟨9, List.replicate 24 0, some ⟨some v, 9, List.replicate 24 0, false, false⟩⟩ }) s

/-! ## Witnesses: for every statement with hypotheses, a state and operands that meet them -/

theorem witness_StepRunsTheFrontCommand :
    { ready with pending := [.burstClassify, .arbiterGrant] }.pending = .burstClassify :: [.arbiterGrant] := rfl

theorem witness_ClockAndResetSequenceAdvance :
    State.reset.pending = [] ∧ State.reset.part.phase = .asserted ∧ ready.pending = [] ∧ ready.part.phase ≠ .asserted ∧
    (onPart (fun p => { p with phase := .released }) State.reset).part.phase = .released ∧
    (onPart (fun p => { p with phase := .resetWrites }) State.reset).part.phase = .resetWrites ∧
    (onPart (fun p => { p with phase := .resetWrites }) State.reset).part.resetWrites = 0 := by decide +kernel
/-- R78: the 24th cycle of a 24 MHz REFCLK makes a microsecond, and the timebase wraps. -/
theorem test_tick_at_24_mhz :
    (onPart (fun p => { p with clock := ⟨23, 0xFFFFFFFF⟩ }) ready).idle.part.clock = ⟨0, 0⟩ ∧
    (onPart (fun p => { p with clock := ⟨22, 5⟩ }) ready).idle.part.clock = ⟨23, 5⟩ := by decide +kernel

def writing : InFlight := ⟨.passThrough, true, 4096, 16, List.replicate 16 9, none, [], false⟩
def carrying (b : InFlight) (s : State) : State := onPart (fun p => { p with port := ⟨0, .cde, some b⟩ }) s

theorem witness_HardResetResetsThePartAndKeepsMemory :
    ready.part.port.busy = none ∧ (carrying { writing with write := false } ready).part.port.busy = some { writing with write := false } ∧
    (carrying writing ready).mem.wf = true ∧ (carrying writing ready).part.port.busy = some writing ∧ writing.write = true ∧
    ((4095 < writing.addr ∨ writing.addr + writing.data.length ≤ 4112) ∧ writing.addr ≤ 4111) := by decide +kernel

theorem witness_EveryStepKeepsMemoryCanonical :
    ready.mem.wf = true ∧ step { ready with pending := [.frameBurstEnd] } = exec .frameBurstEnd ready ∧
    step ready = .next ready.idle := ⟨by decide +kernel, rfl, rfl⟩

theorem witness_EveryCommandCompletesAndFewWriteMemory :
    Instr.snapshot (w []) ≠ .frameBurstEnd ∧ (∀ straps, Instr.snapshot (w []) ≠ .hardReset straps) ∧
    exec .burstClassify ready = .next { ready with part := ready.part } := ⟨by decide +kernel, (fun _ h => by cases h), rfl⟩

/-- The second burst of a run that crosses a page lies at the page, and the image of a shot at a buffer that ends a PASS window. -/
theorem witness_MemoryRunsAndImagesAreCarriedInBursts :
    Memory.wf [(7, 1)] = true ∧ (Memory.writeBytes [(7, 1)] 6 [2, 0, 3]) = [(6, 2), (8, 3)] ∧ (List.replicate 300 (1 : Byte)).length ≤ 300 ∧
    cutBursts 2 4095 [1, 2] = [(4095, [1])] ++ (4096, [2]) :: [] ∧
    ready.part.takes .queryShot (w [5, 335544320, 0]) ∧ ((ready.part.words (w [5, 335544321, 0])).getD 1 0).toNat % 16 ≠ 0 ∧
    (∃ x ∈ ready.part.pts.windows.toList, x.present = true ∧ x.kind = .pass ∧ x.base ≤ 402652672 ∧ 402652672 + 512 ≤ x.base + x.size) ∧
    ¬(∃ x ∈ ready.part.pts.windows.toList, x.present = true ∧ x.kind = .pass ∧ x.base ≤ 402652688 ∧ 402652688 + 512 ≤ x.base + x.size) ∧
    ready.part.shot? 5 = none ∧ (holding (shot .developed) ready).part.shot? 5 = some (shot .developed) ∧
    (shot .developed).image.length = 512 := by decide +kernel
/-- R13: a run that crosses a page is carried in bursts that do not. -/
theorem test_cut_at_a_page : ((cutBursts 4 4000 (List.replicate 500 0)).map fun p => (p.1, p.2.length)) = [(4000, 96), (4096, 256), (4352, 148)] := by decide +kernel

theorem witness_invariants :
    State.reset.meets Part.irqRight ∧ State.reset.meets Part.ringFits ∧ State.reset.meets Part.portsFit ∧
    State.reset.meets Part.cardQueueFits ∧ State.reset.meets Part.loadFits ∧ State.reset.meets Part.protectionFits ∧
    State.reset.meets Part.settingsInRange := by decide +kernel
theorem witness_steps : step { ready with pending := [.arbiterGrant] } = exec .arbiterGrant ready ∧ step State.reset = .next State.reset.idle :=
  ⟨rfl, rfl⟩

theorem witness_EveryStepKeepsIrqRight :
    State.reset.meets Part.irqRight ∧ step State.reset = .next State.reset.idle ∧
    (onCpa (fun c => { c with producer := 2, written := 2, irq := true }) ready).meets Part.irqRight :=
  ⟨by decide +kernel, rfl, by decide +kernel⟩

/-- At the limits: 64 unconsumed records, 8 bursts upstream, a starvation counter of 16. -/
theorem witness_EveryStepKeepsTheQueuesBounded :
    let full : State := onCpa (fun c => { c with producer := 64 }) (onPts (fun p => { p with queue := List.replicate 8 (rburst 0) }) ready)
    let full : State := { full with part := { full.part with port := { full.part.port with starvation := 16 } } }
    full.meets Part.ringFits ∧ full.meets Part.portsFit ∧ full.meets Part.cardQueueFits ∧ step full = .next full.idle :=
  ⟨by decide +kernel, by decide +kernel, by decide +kernel, rfl⟩

/-- The load pointer at the declared length, and the settings at their defaults. -/
theorem witness_EveryStepKeepsLoadProtectionAndSettingsInBounds :
    let s : State := onCal (fun c => { c with declared := 64, pointer := 64 }) ready
    s.meets Part.loadFits ∧ s.meets Part.protectionFits ∧ s.meets Part.settingsInRange ∧ step s = .next s.idle :=
  ⟨by decide +kernel, by decide +kernel, by decide +kernel, rfl⟩

theorem witness_OnlyHardResetEndsModeAndControlWindow :
    (∀ straps, ready.pending.head? ≠ some (.hardReset straps)) ∧ step ready = .next ready.idle ∧ ready.part.cpa.mode ≠ .loader ∧
    loader.part.cpa.mode = .loader ∧ step loader = .next loader.idle ∧ ready.part.phase = .running :=
  ⟨(fun _ h => by cases h), rfl, by decide +kernel, by decide +kernel, rfl, by decide +kernel⟩

/-! ### The pass-through path -/

def fullQueue : State := onPts (fun p => { p with queue := List.replicate 8 (rburst 0) }) ready

theorem witness_HostBurstsAreAcceptedAndClassified :
    (ready.part.phase = .running ∧ ready.part.pts.queue.length < 8) ∧ 8 ≤ fullQueue.part.pts.queue.length ∧ State.reset.part.phase ≠ .running ∧
    ((atHead (rburst 0) none ready).part.pts.queue = rburst 0 :: [] ∧ (atHead (rburst 0) none ready).part.pts.head = none) ∧
    4096 < 4080 % 4096 + 16 * 2 ∧ ready.part.pts.capacity < 4294967296 + 16 * 1 ∧
    (4080 % 4096 + 16 * 1 ≤ 4096 ∧ 4080 + 16 * 1 ≤ ready.part.pts.capacity) ∧
    (∀ x ∈ ready.part.pts.windows.toList, x.contains 65536 = false) ∧
    (kindWindow .ingest 16777216 203517952 ∈ ready.part.pts.windows.toList ∧
      (kindWindow .ingest 16777216 203517952).contains 220295167 = true ∧
      ∀ y ∈ ready.part.pts.windows.toList, y.contains 220295167 = true → y = kindWindow .ingest 16777216 203517952) ∧
    ((atHead (rburst 0) (some (.forward true)) ready).part.pts.head = some (.forward true)) := by decide +kernel
/-- R3: a burst past its page is answered ERROR with zero data, and one in no window forwarded. -/
theorem test_classify :
    (after .burstClassify (atHead ⟨false, 4080, 2, []⟩ none ready)).pts.answer = some ⟨false, List.replicate 32 0⟩ ∧
    (after .burstClassify (atHead (rburst 4080) none ready)).pts.head = some (.forward false) := by decide +kernel

def loading (s : State) : State :=
  onCal (fun c => { c with session := .open_, declared := 64, timeout := 5, pointer := 48, staged := List.replicate 48 1 }) s

theorem witness_OwnersAnswerRefusedAndBundleBursts :
    (atHead (rburst 16777216) (some .ingestRead) ready).part.pts.queue = rburst 16777216 :: [] ∧
    (atHead (rburst 16777216) (some .ingestRead) ready).part.pts.head = some .ingestRead ∧
    (atHead (wburst 268435456) (some .viewWrite) ready).part.pts.head = some .viewWrite ∧
    (atHead (rburst 314572800) (some .bundleRead) ready).part.pts.head = some .bundleRead ∧
    (atHead (wburst 1073741824) (some .guardWrite) ready).part.pts.head = some .guardWrite ∧
    (atHead (wburst 314572800) (some .bundleWrite) ready).part.pts.head = some .bundleWrite ∧ (wburst 314572800).write = true ∧
    ready.part.cal.session ≠ .open_ ∧ (loading ready).part.cal.session = .open_ ∧ (loading ready).part.cal.overrun = false ∧
    (onCal (fun c => { c with overrun := true }) (loading ready)).part.cal.overrun = true ∧
    (loading ready).part.cal.pointer + 16 * 1 ≤ (loading ready).part.cal.declared ∧
    (loading ready).part.cal.declared < (loading ready).part.cal.pointer + 16 * 2 := by decide +kernel
/-- R75: the guard-write count stops at its maximum, and the write is answered ERROR. -/
theorem test_guard_write_count_stops :
    let s := onPart (fun p => { p with sht := { p.sht with guardCount := 0xFFFFFFFF } }) (atHead (wburst 1073741824) (some .guardWrite) ready)
    (after .guardWrite s).sht.guardCount = 0xFFFFFFFF ∧ (after .guardWrite s).pts.answer = some ⟨false, []⟩ := by decide +kernel

/-! ### The frame memory port -/

def forwarded : State := atHead (rburst 4096) (some (.forwarding false)) ready
def cpaWaits (s : State) : State := onCpa (fun c => { c with writes := [.producerRewrite] }) s

theorem witness_GrantsAndBurstEndsCarryTheWork :
    ready.part.port.busy = none ∧ ready.part.cpa.ended = none ∧ ready.part.passRequest = none ∧
    (∀ m, ready.part.requestOf m = none) ∧
    (forwarded.part.passRequest = some (.readOf 4096 16) ∧ 4096 + 16 ≤ forwarded.part.pts.capacity ∧ forwarded.part.port.starvation < 16) ∧
    ((cpaWaits ready).part.requestOf .cpa = some (.writeOf 3840 (List.replicate 16 0)) ∧ (cpaWaits ready).part.passRequest = none ∧
      (∀ x ∈ ((cpaWaits ready).part.port.last.after.takeWhile fun x => decide (x ≠ .cpa)), (cpaWaits ready).part.requestOf x = none)) := by
  refine ⟨by decide +kernel, by decide +kernel, by decide +kernel, fun m => by cases m <;> decide, by decide +kernel, by decide +kernel⟩
/-- R14: sixteen pass-through grants after which the waiting CPA is granted. -/
theorem test_starvation :
    let s (n : Nat) := onPart (fun p => { p with port := { p.port with starvation := n } }) (cpaWaits forwarded)
    (after .arbiterGrant (s 15)).port.starvation = 16 ∧ (after .arbiterGrant (s 15)).port.last = .cde ∧
    (after .arbiterGrant (s 16)).port.starvation = 0 ∧ (after .arbiterGrant (s 16)).port.last = .cpa := by decide +kernel

def cpaBurst (c : CpaWrite) : InFlight := ⟨.internal .cpa, true, 3840, 16, List.replicate 16 0, some c, [], false⟩

theorem witness_BurstEndCompletesTheBurst :
    (carrying writing ready).part.port.busy = some writing ∧ writing.write = true ∧ ready.mem.wf = true ∧
    (4111 < writing.addr ∨ writing.addr + writing.data.length ≤ 4112) ∧
    (carrying { writing with write := false } forwarded).part.pts.queue = rburst 4096 :: [] ∧
    (carrying { writing with write := false } forwarded).part.pts.head = some (.forwarding false) ∧
    (carrying writing (atHead (wburst 0) (some (.forwarding true)) ready)).part.pts.head = some (.forwarding true) ∧
    (cpaBurst (.producerBeat 4)).who = .internal .cpa ∧ (cpaBurst (.producerBeat 4)).cpa = some (.producerBeat 4) := by decide +kernel

/-! ### The control page -/

theorem witness_ControlPageIsWrittenAndObserved :
    (List.replicate 24 (0 : Word)).length = 24 ∧ (shot .developed).exposure.edges.length ≤ 16 ∧ (shot .developed).progress.gaps.length ≤ 8 ∧
    (shot .developed).progress.histogram.length = 64 ∧
    (inFlight .arm ready).part.cpa.slots[(2 : Fin 8)].cmd = some ⟨some .arm, 9, List.replicate 24 0, false, false⟩ ∧
    ready.part.phase = .running ∧ (List.replicate 16 (0 : Byte)).length = 16 ∧ (∀ n : Fin 8, ready.part.cpa.slots[n].args.length = 24) ∧
    leNat (slice 0 4 (List.replicate 16 (0 : Byte))) = 0 ∧ leNat (slice 0 4 ((30 : Byte) :: List.replicate 15 0)) = 30 ∧
    leNat (slice 0 4 ((29 : Byte) :: List.replicate 15 0)) = Verb.setLimits.code ∧ ready.part.cpa.slots[(0 : Fin 8)].cmd = none ∧
    (256 % 16 = 0 ∧ 1008 % 16 = 0 ∧ 1008 < 1024 ∧ 2048 % 16 = 0 ∧ 3824 % 16 = 0 ∧ 3824 < 3840 ∧ 3872 % 16 = 0) ∧
    ((7 : Fin 8).val = (6 : Fin 8).val + 1 ∧ (List.replicate 256 (0 : Byte)).length = 256) ∧
    (∀ c ∈ [CpaWrite.resultData 2 (List.replicate 24 0) .done .ok, .slotBeat 2 .done .ok, .resetSlot 7, .consumerRewrite, .image 16 [1] none,
        .image 16 [1] (some (2, [5]))],
      let s := carrying (cpaBurst c) (inFlight .queryShot ready)
      s.part.port.busy = some (cpaBurst c) ∧ (cpaBurst c).write = true ∧ (cpaBurst c).who = .internal .cpa ∧ (cpaBurst c).cpa = some c) := by
  decide +kernel
/-- R21, R23: a first beat with verb 30 in an IDLE slot ends REFUSED/UNKNOWN_VERB, one with verb 0 only gives the copy its tag. -/
theorem test_first_beats :
    (after (.controlPageWrite 1280 (leBytes 4 30 ++ leBytes 4 9 ++ leBytes 8 0)) ready).cpa.writes =
      [.resultData 2 (List.replicate 24 0) .refused .unknownVerb] ∧
    (after (.controlPageWrite 1280 (leBytes 4 0 ++ leBytes 4 9 ++ leBytes 8 0)) ready).cpa.slots[(2 : Fin 8)].tag = 9 ∧
    (after (.controlPageWrite 1280 (leBytes 4 0 ++ leBytes 4 9 ++ leBytes 8 0)) ready).cpa.slots[(2 : Fin 8)].cmd = none := by decide +kernel

def event : Event := ⟨.slotReleased, 1, 2, [3]⟩
def fullRing (s : State) : State := onCpa (fun c => { c with producer := 70, consumer := 6 }) s

theorem witness_EventsAndStatusWritesBecomeDue :
    (onCpa (fun c => { c with mask := 0 }) ready).part.cpa.mask.getLsbD (event.kind.code - 1) = false ∧
    ready.part.cpa.mask.getLsbD (event.kind.code - 1) = true ∧
    ((fullRing ready).part.cpa.producer - (fullRing ready).part.cpa.consumer).toNat = 64 ∧ (fullRing ready).part.cpa.dropped = false ∧
    (onCpa (fun c => { c with dropped := true }) (fullRing ready)).part.cpa.dropped = true ∧
    (ready.part.cpa.producer - ready.part.cpa.consumer).toNat ≠ 64 ∧ ready.part.cpa.eventBusy = false ∧
    (onCpa (fun c => { c with eventBusy := true }) ready).part.cpa.eventBusy = true ∧
    (State.reset.part.phase ≠ .resetWrites ∧ State.reset.part.phase ≠ .running) ∧ ready.part.phase = .running ∧
    CpaWrite.status [] ∈ (onCpa (fun c => { c with writes := [.status []] }) ready).part.cpa.writes ∧
    (∀ x ∈ ready.part.cpa.writes, x.isStatus = false) := by decide +kernel

theorem witness_HostWritesToTheRingAndStatusAreObserved : ready.part.phase = .running ∧ (List.replicate 16 (0 : Byte)).length = 16 := by decide +kernel
/-- R31: a consumer word 64 behind the producer count is taken, one 65 behind is not, and one ahead of it is not. -/
theorem test_consumer_word :
    (after (.consumerWrite 6) (onCpa (fun c => { c with producer := 70 }) ready)).cpa.consumer = 6 ∧
    (after (.consumerWrite 5) (onCpa (fun c => { c with producer := 70 }) ready)).cpa.consumer = 0 ∧
    (after (.consumerWrite 71) (onCpa (fun c => { c with producer := 70 }) ready)).cpa.writes = [.consumerRewrite] := by decide +kernel

theorem witness_CpaCompletionsFollowInOrder :
    (onCpa (fun c => { c with ended := some (.resultData 2 [] .done .ok) }) ready).part.cpa.ended = some (.resultData 2 [] .done .ok) ∧
    (onCpa (fun c => { c with ended := some (.slotBeat 2 .done .ok) }) ready).part.cpa.ended = some (.slotBeat 2 .done .ok) ∧
    (onCpa (fun c => { c with ended := some (.eventRecord 0 event) }) ready).part.cpa.ended = some (.eventRecord 0 event) ∧
    (onCpa (fun c => { c with ended := some (.producerBeat 1) }) ready).part.cpa.ended = some (.producerBeat 1) ∧
    ready.part.cpa.events = [] ∧
    (onCpa (fun c => { c with ended := some (.producerBeat 1), events := [(1, event)] }) ready).part.cpa.events = (1, event) :: [] := by decide +kernel

/-! ### Host commands -/

def service : State := onCpa (fun c => { c with mode := .service }) configured
def resettingAs (r : ResetWork) (s : State) : State := onCpa (fun c => { c with resetting := some r }) s
def nothingStopped : ResetWork := ⟨3, false, false, false, false, false, 0, 0⟩

theorem witness_CommandsAreCheckedByModeBeforeTheirOwners :
    Verb.arm ≠ .abort ∧ ready.part.phase = .running ∧
    (inFlight .arm ready).part.cpa.slots[2].cmd = some ⟨some .arm, 9, List.replicate 24 0, false, false⟩ ∧
    ready.part.cpa.slots[(w []).slot].cmd = none ∧ Verb.accepted .start ready.part.cpa.mode = false ∧
    (Verb.accepted .arm ready.part.cpa.mode = true ∧ (resettingAs nothingStopped ready).part.cpa.resetting.isSome = true ∧
      Verb.duringReset .arm = false) ∧
    (let s := onPts (fun p => { p with geometry := none }) service;
      Verb.accepted .arm s.part.cpa.mode = true ∧ s.part.cpa.resetting = none ∧ Verb.isShot .arm = true ∧ s.part.cpa.mode = .service ∧
        s.part.missing = some [0]) := by decide +kernel

def statusQueued (waiters : List (Fin 8)) (s : State) : State := onCpa (fun c => { c with writes := [.status waiters] }) s
def statusBurst : InFlight := ⟨.internal .cpa, true, 0, 256, List.replicate 256 0, some (.status [2]), [2, 0, 0, 0, 1], false⟩

theorem witness_StatusEndsWithItsStatusWrite :
    ready.part.takes .status (w []) ∧ (resettingAs nothingStopped ready).part.takes .status (w []) ∧ loader.part.takes .status (w []) ∧
    (let s := statusQueued [2] ready;
      s.part.port.busy = none ∧ s.part.cpa.ended = none ∧ s.part.phase = .running ∧ s.part.cpa.writes = .status [2] :: [] ∧
        s.part.passRequest = none ∧ s.part.port.last ≠ .cpa ∧
        (∀ x ∈ (s.part.port.last.after.takeWhile fun x => decide (x ≠ .cpa)), s.part.requestOf x = none) ∧
        s.part.pts.controlBase + 256 ≤ s.part.pts.capacity) ∧
    (let s := carrying statusBurst (inFlight .status ready);
      s.part.port.busy = some statusBurst ∧ statusBurst.who = .internal .cpa ∧ statusBurst.write = true ∧
        statusBurst.cpa = some (.status [2]) ∧ statusBurst.values.length ≤ 24 ∧
        s.part.cpa.slots[2].cmd = some ⟨some .status, 9, List.replicate 24 0, false, false⟩) := by decide +kernel

theorem witness_MaskAndFlagCommandsEnd :
    ready.part.takes .setEventMask (w [0]) ∧ ready.part.takes .clearFlags (w [0]) ∧
    ((ready.part.words (w [0])).getD 0 0).getLsbD 0 = false ∧ ((ready.part.words (w [0])).getD 0 0).getLsbD 1 = false ∧
    ((ready.part.words (w [0])).getD 0 0).getLsbD 2 = false ∧ ((ready.part.words (w [2])).getD 0 0).getLsbD 1 = true := by decide +kernel

theorem witness_StartFixesTheSlots :
    configured.part.takes .start (w []) ∧ configured.part.missing = none ∧ configured.part.sht.layout = none ∧
    configured.part.pts.geometry = some geo ∧
    configured.part.pts.windowOf .frameStore = some (kindWindow .frameStore 1073741824 2147483648) ∧
    loader.part.takes .start (w []) ∧ loader.part.missing = some [0] := by decide +kernel
/-- R28, R58: START with the reference geometry and 2 GiB gives S = 10. -/
theorem test_start : (after (.start (w [])) configured).sht.slots = List.replicate 10 .free ∧ (after (.start (w [])) configured).cpa.mode = .operational := by decide +kernel

def bringup (step : BringStep) : Bringup := ⟨2, step, none, none, none, 0, false⟩
def bringing (b : Bringup) (s : State) : State :=
  inFlight .cardInit (onCde (fun c => { c with seated := true, card := .initializing, bringup := some b }) s)

theorem witness_AbortEndsOnlyWhatCanBeAborted :
    ready.part.phase = .running ∧ ready.part.cpa.slots[(w []).slot].cmd = none ∧
    (inFlight .arm ready).part.cpa.slots[2].cmd = some ⟨some .arm, 9, List.replicate 24 0, false, false⟩ ∧
    (some Verb.arm ≠ some .cardInit ∧ some Verb.arm ≠ some .loadClose) ∧
    (let s := bringing (bringup .identity) ready;
      s.part.cpa.slots[2].cmd = some ⟨some .cardInit, 9, List.replicate 24 0, false, false⟩ ∧
        s.part.cde.bringup = some (bringup .identity) ∧ ¬((bringup .identity).step = .query ∧ (bringup .identity).response = none)) ∧
    (let s := bringing (bringup .query) ready;
      s.part.cde.bringup = some (bringup .query) ∧ (bringup .query).slot = (w []).slot ∧ (bringup .query).step = .query ∧
        (bringup .query).response = none) ∧
    (let s := inFlight .loadClose (onCal (fun c => { c with session := .closing, closer := some 2 }) ready);
      s.part.cpa.slots[2].cmd = some ⟨some .loadClose, 9, List.replicate 24 0, false, false⟩ ∧ s.part.cal.closer = some (w []).slot) := by decide +kernel

/-! ### Windows, geometry, loads -/

/-- The words of a SET_WINDOW. -/
def windowWords (i absent kind base size : Nat) : SlotWrite :=
  w [natWord i, natWord absent, natWord kind, natWord base, natWord (base / 4294967296), natWord size, natWord (size / 4294967296), 0]

theorem witness_SetWindowReplacesOrRefuses :
    configured.part.takes .setWindow (windowWords 15 1 0 0 0) ∧ ((15 : Fin 16) ≠ 0) ∧
    ((configured.part.words (windowWords 15 1 0 0 0)).getD 0 0).toNat = (15 : Fin 16).val ∧
    ((configured.part.words (windowWords 15 1 0 0 0)).getD 1 0).toNat = 1 ∧ configured.part.windowBusy ⟨15, none⟩ = none ∧
    (configured.part.takes .setWindow (windowWords 15 0 0 4294963200 4096) ∧
      ((configured.part.words (windowWords 15 0 0 4294963200 4096)).getD 3 0).toNat = 4294963200 ∧
      windowKindOf 0 = some .pass ∧ 4294963200 + 4096 ≤ configured.part.pts.capacity ∧
      configured.part.windowBusy ⟨15, some ⟨true, .pass, 4294963200, 4096⟩⟩ = none ∧
      (∀ j : Fin 16, j ≠ 15 → configured.part.pts.windows[j].present = true →
        configured.part.pts.windows[j].base + configured.part.pts.windows[j].size ≤ 4294963200 ∨
          4294963200 + 4096 ≤ configured.part.pts.windows[j].base) ∧
      WindowKind.pass.minimum geo ≤ 4096) := by decide +kernel
def lateService : State := onPart (fun p => { p with sht := { p.sht with layout := some ⟨0, 4096⟩ } }) service
def parsesTo (i : Fin 16) (x : Window) (words : List Word) : Bool :=
  match parseWindow words with
  | .ok r => decide (r.index = i) && decide (r.window = some x)
  | .bad _ => false
theorem witness_SetWindowReplacesOrRefuses_parsed :
    parsesTo 15 ⟨true, .pass, 4294963200, 8192⟩ (configured.part.words (windowWords 15 0 0 4294963200 8192)) = true ∧
    parsesTo 15 ⟨true, .pass, 0, 4096⟩ (configured.part.words (windowWords 15 0 0 0 4096)) = true ∧
    parsesTo 6 ⟨true, .frameStore, 4294963200, 4096⟩ (lateService.part.words (windowWords 6 0 5 4294963200 4096)) = true := by
  decide +kernel
theorem witness_SetWindowReplacesOrRefuses_refused :
    (configured.part.windowBusy ⟨15, some ⟨true, .pass, 4294963200, 8192⟩⟩ = none ∧ configured.part.pts.capacity < 4294963200 + 8192) ∧
    (configured.part.windowBusy ⟨15, some ⟨true, .pass, 0, 4096⟩⟩ = none ∧
      (Window.overlaps ⟨true, .pass, 0, 4096⟩ configured.part.pts.windows[(0 : Fin 16)]) = true ∧ (0 : Fin 16) ≠ 15 ∧
      (∀ k : Fin 16, k < 0 → k ≠ 15 → (Window.overlaps ⟨true, .pass, 0, 4096⟩ configured.part.pts.windows[k]) = false)) ∧
    (lateService.part.takes .setWindow (windowWords 6 0 5 4294963200 4096) ∧
      (lateService.part.windowBusy ⟨6, some ⟨true, .frameStore, 4294963200, 4096⟩⟩).isSome = true) := by decide +kernel

def geometryWords (width height phase depth : Nat) : SlotWrite := w [natWord width, natWord height, natWord phase, natWord depth]

theorem witness_SetGeometryChecksTheWindows :
    configured.part.takes .setGeometry (geometryWords 2048 1536 0 12) ∧ configured.part.sht.layout = none ∧
    (configured.part.words (geometryWords 2048 1536 0 12)).getD 0 0 = natWord 2048 ∧
    (configured.part.words (geometryWords 2048 1536 0 12)).getD 3 0 = natWord 12 ∧ Cfa.rggb.code = 0 ∧
    (∀ i : Fin 16, configured.part.pts.windows[i].present = true →
      configured.part.pts.windows[i].kind.minimum ⟨2048, 1536, .rggb, 12⟩ ≤ configured.part.pts.windows[i].size) ∧
    (configured.part.pts.windows[(2 : Fin 16)].present = true ∧
      configured.part.pts.windows[(2 : Fin 16)].size <
        configured.part.pts.windows[(2 : Fin 16)].kind.minimum ⟨12288, 9216, .rggb, 16⟩ ∧
      (∀ j : Fin 16, j < 2 → configured.part.pts.windows[j].present = true →
        configured.part.pts.windows[j].kind.minimum ⟨12288, 9216, .rggb, 16⟩ ≤ configured.part.pts.windows[j].size)) := by decide +kernel

theorem witness_LoadSessionOpensAndEnds :
    ready.part.takes .loadOpen (w [63, 1]) ∧ ((ready.part.words (w [63, 1])).getD 0 0).toNat < 64 ∧
    ((ready.part.words (w [64, 64])).getD 0 0).toNat = 64 ∧ ((ready.part.words (w [64, 64])).getD 1 0).toNat = 64 ∧
    loader.part.takes .loadOpen (w [64, 1]) ∧ loader.part.pts.windowOf .bundle = none ∧
    (ready.part.pts.windowOf .bundle).isSome = true ∧ ready.part.cal.session ≠ .closing ∧
    (onCal (fun c => { c with session := .closing }) ready).part.cal.session = .closing ∧ ready.part.cal.session = .none ∧
    ready.part.takes .loadCancel (w []) ∧ ready.part.takes .loadClose (w []) ∧ (loading ready).part.cal.session = .open_ ∧
    (let s := atTime 500000 (onCal (fun c => { c with timer := some ⟨0, 500000⟩ }) (loading ready));
      s.part.cal.session = .open_ ∧ s.part.cal.timer = some ⟨0, 500000⟩ ∧ (Timer.mk 0 500000).due s.part.clock.time = true) := by
  decide +kernel

/-- A close in flight of a load with the given bytes. -/
def closing (bytes : List Byte) (declared : Nat) (s : State) : State :=
  inFlight .loadClose
    (onCal (fun c => { c with session := .closing, closer := some 2, declared := declared, pointer := bytes.length, staged := bytes }) s)

/-- A bundle of one section (R219), with its CRC. -/
def bundle (kind : Nat) (body : List Byte) : List Byte :=
  let front :=
    leBytes 4 0x4B424C31 ++ leBytes 2 1 ++ leBytes 2 1 ++ leBytes 4 (36 + body.length) ++ leBytes 4 0 ++
      leBytes 2 kind ++ leBytes 2 0 ++ leBytes 4 32 ++ leBytes 4 body.length ++ leBytes 4 0 ++ body
  front ++ wordBytes (~~~(crcBytes crcStart front))

/-- Four white-balance presets. -/
def wbBundle : List Byte := bundle 7 (leBytes 4 4 ++ halvesBytes (List.replicate 12 5000))
/-- Twelve listed columns, a factory section. -/
def columnBundle : List Byte := bundle 4 (leBytes 4 12 ++ halvesBytes ((List.range 12).map fun k => 10 * k))

def shortLoad : State := closing wbBundle 80 ready

/-- R51: the overrun or short load, whatever its bytes; R55: a good one of 64 bytes; R52: one with a bad CRC; R54: one that waits. -/
theorem witness_LoadChecksCommitOrLeaveTheTables :
    (shortLoad.part.cal.session = .closing ∧ shortLoad.part.cal.closer = some 2 ∧
      shortLoad.part.cpa.slots[2].cmd = some ⟨some .loadClose, 9, List.replicate 24 0, false, false⟩ ∧
      shortLoad.part.cal.pointer ≠ shortLoad.part.cal.declared) ∧
    (match (closing wbBundle 64 ready).part.closeResult with | .commit _ => true | _ => false) = true ∧
    (match (closing (overlay wbBundle 40 [1]) 64 ready).part.closeResult with | .failed .bundleCrc _ _ => true | _ => false) = true ∧
    (match (closing columnBundle 64 (holding (shot .reading) ready)).part.closeResult with | .busy _ => true | _ => false) = true := by
  decide +kernel
/-- R55, R41: the presets replace the table; a bad CRC leaves it. -/
theorem test_load_close :
    (after .loadChecksDone (closing wbBundle 64 ready)).cal.tables.wb = List.replicate 4 (5000, 5000, 5000) ∧
    (after .loadChecksDone (closing (overlay wbBundle 40 [1]) 64 ready)).cal.tables.wb = [(4096, 4096, 4096)] ∧
    (after .loadChecksDone (closing columnBundle 64 ready)).cal.committed.columns = true := by decide +kernel

/-! ### RESET_SHOTS and arming -/

theorem witness_ResetShotsStopsClearsAndReports :
    (ready.part.takes .resetShots (w []) ∧ ready.part.loadFits ∧ ready.part.icr.work = none ∧ ready.part.port.busy = none ∧
      ready.part.prn.work = none ∧ ready.part.cde.run = none ∧ ready.part.cde.listReads = [] ∧ ready.part.cde.bufWrites = []) ∧
    (let s := resettingAs ⟨3, true, true, true, true, false, 0, 0⟩ ready;
      s.part.cpa.resetting = some ⟨3, true, true, true, true, false, 0, 0⟩ ∧ (∀ h ∈ s.part.sht.slots, h = .free) ∧ s.part.sht.protectedCount = 0) ∧
    (let s := resettingAs ⟨3, true, true, true, true, false, 0, 0⟩ (holding (shot .developed) ready);
      s.part.cpa.resetting = some ⟨3, true, true, true, true, false, 0, 0⟩ ∧ ¬(∀ h ∈ s.part.sht.slots, h = .free)) ∧
    (resettingAs ⟨3, true, true, true, true, true, 4, 1⟩ ready).part.cpa.resetting = some ⟨3, true, true, true, true, true, 4, 1⟩ := by
  decide +kernel
/-- R76: the shot table is emptied, every slot FREE, and the counter kept. -/
theorem test_reset_clear :
    let p := after .shtResetClear (resettingAs ⟨3, true, true, true, true, false, 0, 0⟩ (holding (shot .developed) ready))
    p.sht.records = [] ∧ p.sht.slots = List.replicate 10 .free ∧ p.sht.counter = 6 ∧ p.cpa.resetting = some ⟨3, true, true, true, true, true, 1, 0⟩ := by
  decide +kernel

/-- The words of an ARM. -/
def armWords (mode gain time plan lead auto preempt : Nat) : SlotWrite :=
  w [natWord mode, natWord gain, natWord time, natWord plan, natWord lead, natWord auto, natWord preempt, 0]

def pressed : State := atTime 20000 (onEsu (fun e => { e with buttonTimer := some ⟨0, 20000⟩ }) ready)

theorem witness_ArmingCreatesTheShot :
    (ready.part.takes .arm (armWords 1 7 1800000001 2 9 1 0) ∧
      (let args := ready.part.words (armWords 1 7 1800000001 2 9 1 0);
        args.getD 0 0 = natWord ShotMode.timed.code ∧ args.getD 1 0 = natWord 7 ∧ args.getD 3 0 = natWord StrobePlan.last.code) ∧
      ready.part.sht.counter ≠ 0 ∧ (∀ x ∈ ready.part.sht.records, x.state.live = false) ∧ ready.part.dfl.capture = none ∧
      ready.part.tsm.temp ≠ .critical ∧ ready.part.tsm.supply = .normal ∧ ready.part.sht.slots[0]? = some .free) ∧
    (service.part.takes .arm (armWords 0 0 0 2 0 0 0) ∧ (service.part.entered .arm).sht.slots[0]? = some .free) ∧
    (pressed.part.esu.buttonTimer = some ⟨0, 20000⟩ ∧ (Timer.mk 0 20000).due pressed.part.clock.time = true ∧
      pressed.part.cpa.mode = .operational ∧ pressed.part.cpa.resetting = none ∧ pressed.part.esu.button = false ∧
      pressed.part.esu.active.inRange ∧ pressed.part.sht.slots[0]? = some .free) ∧
    (onEsu (fun e => { e with button := true }) pressed).part.esu.button = true := by decide +kernel
/-- R84, R87: the programmed time is clamped, and the slot, number and timers are as accepted. -/
theorem test_arm :
    let p := after (.arm (armWords 1 7 1800000001 2 9 1 0)) ready
    (p.sht.records.map fun x => (x.number, x.slot, x.state, x.arming.programmed)) = [(1, 0, .arming, some 1800000000)] ∧
    p.sht.counter = 2 ∧ p.esu.flushTimer = some ⟨0, 2000⟩ ∧ p.esu.flushLine = true ∧
    p.cpa.writes.getLast? =
      some (.resultData 2 (padTo 24 0 [1, 0, 1800000000, 2, 9, 0]) .doneAdjusted .adjusted) := by decide +kernel
theorem test_button_arms :
    (after .armInAccept pressed).sht.records.map (fun x => (x.number, x.arming.plan, x.arming.autoRelease)) = [(1, .first, true)] := by
  decide +kernel

def capturing (phase : CapturePhase) (s : State) : State :=
  onDfl (fun d => { d with capture := some ⟨5, 1, 3000000, 3, some 100, none, phase, some 0⟩ }) s

theorem witness_ArmIsRefusedByItsChecks :
    ready.part.takes .arm (armWords 2 0 0 0 0 0 0) ∧ (ready.part.entered .arm).sht.counter ≠ 0 ∧
    (onPart (fun p => { p with sht := { p.sht with counter := 0 } }) ready).part.sht.counter = 0 ∧
    2 ≤ ((ready.part.words (armWords 2 0 0 0 0 0 0)).getD 0 0).toNat ∧ 7 < ((ready.part.words (armWords 0 8 0 0 0 0 0)).getD 1 0).toNat ∧
    3 ≤ ((ready.part.words (armWords 0 7 0 3 0 0 0)).getD 3 0).toNat ∧
    (holding (shot .reading) ready).part.currentShot = some (shot .reading) ∧ ready.part.currentShot = none ∧
    (capturing .flush ready).part.dfl.capture.isSome = true ∧ ((ready.part.words (armWords 0 0 0 0 0 0 0)).getD 6 0).getLsbD 0 = false ∧
    (onTsm (fun t => { t with temp := .critical }) ready).part.tsm.temp = .critical ∧
    ((ready.part.words (armWords 1 0 60000001 0 0 0 0)).getD 0 0 = 1 ∧
      60000000 < ((ready.part.words (armWords 1 0 60000001 0 0 0 0)).getD 2 0).toNat ∧
      (onTsm (fun t => { t with supply := .low }) ready).part.tsm.supply = .low) ∧
    (let s := onPart (fun p => { p with sht := { p.sht with slots := List.replicate 3 (.shot 1) } }) ready;
      (∀ x ∈ s.part.sht.slots, x ≠ .free) ∧ (∀ e ∈ s.part.dfl.entries, e.refs ≠ 0)) := by decide +kernel

theorem witness_DisarmDarkPolicyAndSkipDark :
    ready.part.takes .disarm (w [5]) ∧ (ready.part.words (w [5])).getD 0 0 = 5 ∧ ready.part.shot? 5 = none ∧
    ((holding (shot .armed) ready).part.shot? 5 = some (shot .armed) ∧ (shot .armed).progress.dark = none ∧
      (∀ r ∈ (holding (shot .armed) ready).part.cde.requests, r.names 5 = false) ∧
      (∀ v ∈ (holding (shot .armed) ready).part.prn.selection, v.shot ≠ 5)) ∧
    (shot .reading).exposure.abandoned = false ∧
    ({ shot .reading with exposure := { (shot .reading).exposure with abandoned := true } }).exposure.abandoned = true ∧
    (shot .stored).state ∈ [.awaitDark, .developing, .developed, .storing, ShotState.stored] := by decide +kernel
/-- R102: a shot in READING stays, ABANDONED; one in ARMED goes. -/
theorem test_disarm :
    ((after (.disarm (w [5])) (holding (shot .reading) ready)).sht.records.map fun x => x.exposure.abandoned) = [true] ∧
    (after (.disarm (w [5])) (holding (shot .armed) ready)).sht.records = [] ∧
    (after (.disarm (w [5])) (holding (shot .armed) ready)).sht.slots = List.replicate 10 .free := by decide +kernel

/-- SET_SYNC words with every value in range but the last two of its ranges' ends. -/
def syncWords (mode gain plan : Nat) : SlotWrite :=
  w [1000, 20000, 600, 100000, 10000, 1000, 10000, natWord mode, natWord gain, 1000, natWord plan, 0]

theorem witness_SetSyncAndSnapshot :
    ready.part.takes .setSync (syncWords 0 7 2) ∧
    ((ready.part.words (syncWords 0 7 2)).getD 7 0).toNat = ShotMode.sync.code ∧
    ((ready.part.words (syncWords 0 7 2)).getD 8 0).toNat ≤ 7 ∧ ((ready.part.words (syncWords 0 7 2)).getD 10 0).toNat = StrobePlan.last.code ∧
    2 ≤ ((ready.part.words (syncWords 2 0 0)).getD 7 0).toNat ∧ 7 < ((ready.part.words (syncWords 1 8 0)).getD 8 0).toNat ∧
    3 ≤ ((ready.part.words (syncWords 1 7 3)).getD 10 0).toNat ∧ ready.part.takes .snapshot (w []) := by decide +kernel
/-- R79: a SYNC plan of LAST is stored as FIRST, the command DONE_ADJUSTED. -/
theorem test_set_sync :
    (after (.setSync (syncWords 0 7 2)) ready).esu.active = ⟨1000, 20000, 600, 100000, 10000, 1000, 10000, .sync, 7, 1000, .first, 0⟩ ∧
    (after (.setSync (syncWords 0 7 2)) ready).cpa.writes =
      [.resultData 2 (padTo 24 0 [1000, 20000, 600, 100000, 10000, 1000, 10000, 0, 7, 1000, 1, 0, 0]) .doneAdjusted .adjusted] := by
  decide +kernel

/-! ### Darks and the shot table -/

def entry (id slot refs : Nat) : Dark := ⟨id, slot, 3000000, some 100, 3, refs, 4, 4⟩
def awaiting : Shot := { shot .awaitDark with progress := { (shot .awaitDark).progress with dark := some (.capture .capturing none) } }
def toCapture : Shot := { shot .reading with progress := { (shot .reading).progress with dark := some (.capture .capturing none) } }

theorem witness_DisarmDarkPolicyAndSkipDark_policy :
    ready.part.takes .setDarkPolicy (w [2, 60, 4, 4095]) ∧ 3 ≤ ((ready.part.words (w [3])).getD 0 0).toNat ∧
    ((ready.part.words (w [2, 60, 4, 4095])).getD 0 0).toNat = DarkMode.capture.code ∧
    (max 1 (min 60 60), min 4095 4095) ≠ (ready.part.dfl.policy.threshold, ready.part.dfl.policy.pedestal) ∧
    (holding (shot .reading) ready).part.sht.records.find? (fun r => r.state.inCorrection) = some (shot .reading) ∧
    ((∀ y ∈ (capturing .flush ready).part.sht.records, y.state.inCorrection = false) ∧ (capturing .flush ready).part.dfl.capture.isSome = true) ∧
    (ready.part.dfl.capture = none ∧ ready.part.dfl.policy.size ≤ 4 ∧ 1 < ready.part.dfl.policy.size) ∧
    (ready.part.takes .skipDark (w [5]) ∧ ready.part.shot? 5 = none) ∧
    ((holding toCapture ready).part.shot? 5 = some toCapture ∧ toCapture.state = .reading ∧
      toCapture.progress.dark = some (.capture .capturing none)) ∧ (shot .stored).state ∉ [.reading, ShotState.awaitDark] ∧
    ((shot .reading).state = .reading ∧ (shot .reading).progress.dark ≠ some (.capture .capturing none)) ∧
    ((holding awaiting ready).part.dfl.capture = none ∧
      (onDfl (fun d => { d with ending := some ⟨.cancelled, 3000000, .skip 2 .read, []⟩ }) (capturing .read (holding awaiting ready))).part.dfl.ending.isSome
        = true) ∧
    ((capturing .read (holding awaiting ready)).part.icr.work = none ∧
      (onIcr (fun i => { i with work := some ⟨0, 16, none, 1, [], none, 0, 0, .needWrite⟩ })
        (capturing .read (holding awaiting ready))).part.icr.work.isSome = true) ∧
    (let s := capturing .integrate (holding awaiting ready);
      s.part.shot? 5 = some awaiting ∧ awaiting.state = .awaitDark ∧ s.part.dfl.capture = some ⟨5, 1, 3000000, 3, some 100, none, .integrate, some 0⟩ ∧
        s.part.dfl.ending = none ∧ CapturePhase.integrate ≠ .read) := by decide +kernel
/-- R111: lowering the size removes the unreferenced entry, and its slot becomes FREE. -/
theorem test_smaller_library :
    let s := onDfl (fun d => { d with entries := [entry 0 3 1, entry 1 4 0] })
      (onPart (fun p => { p with sht := { p.sht with slots := (p.sht.slots.set 3 (.entry 0)).set 4 (.entry 1) } }) ready)
    (after (.setDarkPolicy (w [2, 2, 0, 256])) s).dfl.entries = [entry 0 3 1] ∧
    (after (.setDarkPolicy (w [2, 2, 0, 256])) s).sht.slots[4]? = some .free := by decide +kernel
/-- R125, R123: the capture ends, its slot is FREE, and the shot develops without a dark. -/
theorem test_skip_dark :
    let p := after (.skipDark (w [5])) (capturing .integrate (holding awaiting ready))
    p.dfl.capture = none ∧ (p.sht.records.map fun x => (x.state, x.progress.dark)) = [(.developing, some (.skipped .cancelled))] ∧ p.dpe.queue = [5] := by
  decide +kernel

def kept : Shot := { shot .stored with prot := true, arming := { (shot .stored).arming with autoRelease := true } }
def protectedOne (x : Shot) (s : State) : State :=
  onPart (fun p => { p with sht := { p.sht with protectedCount := 1 } }) (holding x s)
def storing (st : RequestState) : Request := ⟨7, 0, .store 5 [(0, 397497)], st, none, 0, 0, 0, 0, 0, none, false⟩
def queued (rs : List Request) (s : State) : State := onCde (fun c => { c with requests := rs, nextId := 8, arrivals := 3 }) s

theorem witness_ProtectAndUnprotect :
    ready.part.takes .protect (w [5]) ∧ ready.part.shot? 5 = none ∧ (holding (shot .armed) ready).part.shot? 5 = some (shot .armed) ∧
    (shot .armed).prot = false ∧ kept.prot = true ∧ 0 + 1 ≤ ready.part.sht.slots.length - 2 ∧
    (onPart (fun p => { p with sht := { p.sht with protectedCount := 8 } }) ready).part.sht.slots.length - 2 < 8 + 1 ∧
    ready.part.takes .unprotect (w [5]) ∧ kept.state = .stored ∧ kept.arming.autoRelease = true ∧
    (∀ r ∈ (protectedOne kept ready).part.cde.requests, r.names 5 = false) ∧
    (∃ r ∈ (queued [storing .queued] ready).part.cde.requests, r.names 5 = true) := by decide +kernel
/-- R72: with S = 10 the ninth is refused. -/
theorem test_protect_limit :
    (after (.protect (w [5])) (onPart (fun p => { p with sht := { p.sht with protectedCount := 8 } }) (holding (shot .armed) ready))).cpa.writes =
      [.resultData 2 (padTo 24 0 [8, 8]) .refused .protectLimit] := by decide +kernel
/-- R73, R71: unprotected, a STORED shot set to auto-release goes. -/
theorem test_unprotect_releases :
    (after (.unprotect (w [5])) (protectedOne kept ready)).sht.records = [] ∧
    (after (.unprotect (w [5])) (protectedOne kept ready)).sht.protectedCount = 0 := by decide +kernel

theorem witness_ReleaseRemovesTheShot :
    ready.part.takes .release (w [5]) ∧ ready.part.shot? 5 = none ∧ kept.prot = true ∧ (shot .developed).prot = false ∧
    (queued [storing .queued] ready).part.requestFor 5 = some (storing .queued) ∧ ready.part.requestFor 5 = none ∧
    (shot .developing).state ∈ [.arming, .armed, .exposing, .settling, .reading, ShotState.developing] ∧
    (holding (shot .developed) ready).part.shot? 5 = some (shot .developed) ∧
    (let s := capturing .flush (holding awaiting ready);
      s.part.shot? 5 = some awaiting ∧ s.part.dfl.ending = none ∧ CapturePhase.flush ≠ .read ∧
        awaiting.progress.dark = some (.capture .capturing none)) := by decide +kernel
theorem test_release :
    (after (.release (w [5])) (holding (shot .developed) ready)).sht.slots = List.replicate 10 .free ∧
    (after (.release (w [5])) (capturing .flush (holding awaiting ready))).sht.records = [] ∧
    (after (.release (w [5])) (capturing .flush (holding awaiting ready))).dfl.capture = none := by decide +kernel

theorem witness_ViewSelectReplacesTheSelection :
    ready.part.takes .viewSelect (w [0]) ∧ (ready.part.words (w [0])).getD 0 0 = 0 ∧ (5 : Word) ≠ 0 ∧ ready.part.shot? 5 = none ∧
    (holding (shot .armed) ready).part.shot? 5 = some (shot .armed) ∧
    (shot .reading).state ∉ [.arming, .armed, .exposing, ShotState.settling] ∧
    (ready.part.cal.tables.tone.length = 1 ∧ ready.part.cal.tables.wb.length = 1 ∧ ready.part.cal.tables.wb[0]? = some (4096, 4096, 4096)) ∧
    ((ready.part.words (w [5, 1, 2, 1])).getD 1 0).toNat = 1 ∧ ((ready.part.words (w [5, 1, 2, 1])).getD 2 0).toNat = 2 := by decide +kernel
/-- R168: a direct gain outside its range is clamped. -/
theorem test_view_select :
    (after (.viewSelect (w [5, 0, 1, 0, 2047, 16383, 16384])) (holding (shot .reading) ready)).prn.selection =
      some ⟨5, 0, .direct 2048 16383 16383⟩ := by decide +kernel

/-- A sensor of 16 by 8 pixels, whose preview is one row of two pixels (no SET_GEOMETRY accepts it). -/
def tiny (s : State) : State := onPts (fun p => { p with geometry := some ⟨16, 8, .rggb, 12⟩ }) s
def viewing (s : State) : State := onPart (fun p => { p with prn := { p.prn with selection := some ⟨5, 0, .preset 0⟩ } }) s
def rendering : Rendering := ⟨0, 0, 0, (4096, 4096, 4096), builtInCurve, none, true, false, List.replicate 256 64⟩
def rendered : State :=
  onPart
    (fun p => { p with prn := { p.prn with work := some ⟨0, 16, ⟨5, 0, .preset 0⟩, 0, 3, .corrected, [], [], some rendering, false⟩ } })
    (atHead (rburst 268435456) (some .owned) (viewing (tiny (holding (shot .developed) ready))))

theorem witness_ViewReadsAndPixelArithmetic :
    (atHead (rburst 268435456) (some (.viewRead 268435456)) ready).part.pts.head = some (.viewRead 268435456) ∧
    ready.part.prn.selection = none ∧ (viewing ready).part.prn.selection = some ⟨5, 0, .preset 0⟩ ∧
    268435456 - 268435456 < geo.width / 8 * (geo.height / 8) * 3 ∧ geo.width / 8 * (geo.height / 8) * 3 ≤ 4769856 ∧
    1 ≤ (rburst 268435456).beats ∧ ready.part.prn.cache = none ∧
    (rendered.part.prn.work.map fun x => (x.rendering, x.rows)) = some (some rendering, []) ∧ rendered.part.cpa.resetting = none ∧
    16 * rendered.part.geo.width ≤ rendering.source.length := by decide +kernel
/-- R176: every sample 16448, unit gain and the built-in curve give floor(floor(16448 / 64) / 4) = 64; the row is cached, the burst's bytes
beyond the preview zero. -/
theorem test_row_rendered :
    (after .rowRendered rendered).pts.answer = some ⟨true, List.replicate 6 64 ++ List.replicate 10 0⟩ ∧
    (after .rowRendered rendered).prn.cache = some ⟨0, 5, List.replicate 6 64⟩ := by decide +kernel

/-! ### The card -/

def withCard (c : CardState) (s : State) : State := onCde (fun d => { d with seated := true, card := c, capacity := some 1000000 }) s
def transferring (st : RequestState) : Request := ⟨7, 0, .write 100 70 335544320, st, none, 0, 0, 0, 0, 0, none, false⟩

theorem witness_CardInitBeginsTheBringUp :
    ready.part.takes .cardInit (w [1]) ∧ loader.part.takes .cardInit (w [1]) ∧ 2 ≤ ((ready.part.words (w [2])).getD 0 0).toNat ∧
    (ready.part.words (w [1])).getD 0 0 = natWord CardPolicy.rotating.code ∧ ready.part.cde.card = .absent ∧
    (withCard .initializing ready).part.cde.card = .initializing ∧ (withCard .present ready).part.cde.card = .present ∧
    (withCard .fault ready).part.cde.card = .fault ∧
    ((queued [transferring .active] (withCard .ready ready)).part.cde.activeRequest = some (transferring .active)) ∧
    ((withCard .ready ready).part.cde.card = .ready ∧ (withCard .ready ready).part.cde.activeRequest = none) := by decide +kernel
/-- R184: the policy is replaced, the capacity forgotten, and the card clocked for the reset step. -/
theorem test_card_init :
    let p := after (.cardInit (w [1])) (withCard .fault ready)
    p.cde.policy = .rotating ∧ p.cde.capacity = none ∧ p.cde.card = .initializing ∧ p.cde.clock = .slow := by decide +kernel

def asked (step : BringStep) : Bringup := ⟨2, step, none, some ⟨0, 100000⟩, none, 50, false⟩

theorem witness_BringUpFollowsItsSteps :
    (bringing (asked .condition) ready).part.cde.bringup = some (asked .condition) ∧ (asked .condition).aborting = false ∧
    (asked .condition).response.isSome = true ∧ (asked .capacity).step = .capacity ∧ (1 : Nat) ≠ 0 ∧
    (bringing (asked .condition) ready).part.cpa.slots[2].cmd = some ⟨some .cardInit, 9, List.replicate 24 0, false, false⟩ ∧
    (let b : Bringup := ⟨2, .reset, some ⟨0, 1000⟩, none, none, 0, false⟩;
      let s := atTime 1000 (bringing b ready);
      s.part.cde.bringup = some b ∧ (Timer.mk 0 1000).due s.part.clock.time = true) ∧
    (Timer.mk 0 100000).due (atTime 100000 (bringing (asked .select) ready)).part.clock.time = true ∧
    (let b : Bringup := ⟨2, .query, some ⟨0, 10000⟩, none, some ⟨0, 1000000⟩, 0, false⟩;
      b.response = none ∧ (Timer.mk 0 10000).due (atTime 10000 (bringing b ready)).part.clock.time = true ∧
        (Timer.mk 0 1000000).due (atTime 1000000 (bringing b ready)).part.clock.time = true) := by decide +kernel
/-- R186: a capacity of 0 fails step 3 with NO_CAPACITY; the last response of step 5 makes the card READY. -/
theorem test_bring_up :
    (after (.cardResponse (.good true true true 0)) (bringing (asked .capacity) ready)).cpa.writes.getLast? =
      some (.resultData 2 (padTo 24 0 [3, 5]) .failed .notReady) ∧
    (after (.cardResponse (.good true true true 0)) (bringing (asked .capacity) ready)).cde.card = .fault ∧
    (after (.cardResponse (.good true true true 0)) (bringing (asked .blockLength) ready)).cde.card = .ready ∧
    (after (.cardResponse (.good true true true 0)) (bringing (asked .blockLength) ready)).cde.capacity = some 50 := by decide +kernel

/-- An extent list read for slot 2. -/
def listed (es : List (Nat × Nat)) : ListRead :=
  ⟨2, 5, 335544320, es.length, padTo (listBytes es.length) 0 (es.flatMap fun e => leBytes 4 e.1 ++ leBytes 4 e.2)⟩
def reading (l : ListRead) (s : State) : State := inFlight .store (onCde (fun c => { c with listReads := [l] }) s)

theorem witness_StoreChecksItsListAndJoinsTheQueue :
    (ready.part.takes .store (w [5, 335544320, 0, 32]) ∧ ((ready.part.words (w [5, 335544320, 0, 33])).getD 3 0).toNat = 33 ∧
      (∃ x ∈ ready.part.pts.windows.toList, x.present = true ∧ x.kind = .pass ∧ x.base ≤ 335544320 ∧ 335544320 + 8 * 32 ≤ x.base + x.size) ∧
      ¬(∃ x ∈ ready.part.pts.windows.toList, x.present = true ∧ x.kind = .pass ∧ x.base ≤ 0 ∧ 0 + 8 * 32 ≤ x.base + x.size)) ∧
    (let l := listed [(0, 397497)];
      let s := reading l (holding (shot .developing) ready);
      s.part.cde.listReads = l :: [] ∧ listBytes l.count ≤ l.got.length ∧ s.part.cpa.resetting = none ∧ s.part.cde.requests.length < 16 ∧
        s.part.shot? l.shot = some (shot .developing) ∧ s.part.requestFor l.shot = none ∧
        s.part.extentsUnfit (extentsOf l.count l.got) = none ∧
        s.part.cpa.slots[2].cmd = some ⟨some .store, 9, List.replicate 24 0, false, false⟩) ∧
    (let l := listed [(0, 397496)]; (reading l ready).part.extentsUnfit (extentsOf l.count l.got) = some (.badExtents, [0, 397496, 397497])) ∧
    (queued (List.replicate 16 (transferring .queued)) ready).part.cde.requests.length = 16 ∧ ready.part.shot? 5 = none ∧
    (queued [storing .queued] ready).part.requestFor 5 = some (storing .queued) ∧
    ((∀ e ∈ [(4294967295, 1), (0, 397496)], 0 < e.2 ∧ e.1 + e.2 ≤ 4294967296) ∧
      [(4294967295, 1), (0, 397496)].Pairwise (fun a b => a.1 + a.2 ≤ b.1 ∨ b.1 + b.2 ≤ a.1) ∧
      ([(4294967295, 1), (0, 397496)].map Prod.snd).sum = 397497) := by decide +kernel
/-- R190: the list is taken, the request WAITS for the shot, and the result gives id, state and length. -/
theorem test_store :
    let p := after .extentListRead (reading (listed [(0, 397497)]) (holding (shot .developing) ready))
    (p.cde.requests.map fun r => (r.id, r.state, r.work)) = [(1, .waiting, .store 5 [(0, 397497)])] ∧ p.cde.nextId = 2 ∧
    p.cpa.writes.getLast? = some (.resultData 2 (padTo 24 0 [1, 1, 1]) .done .ok) := by decide +kernel

def transferWords (start count buffer : Nat) : SlotWrite := w [natWord start, natWord count, natWord buffer, 0]

theorem witness_TransfersJoinTheQueue :
    loader.part.takes .cardWrite (transferWords 0 1 0) ∧ ready.part.takes .cardRead (transferWords 4294901760 65536 335544320) ∧
    ((ready.part.words (transferWords 0 65537 0)).getD 1 0).toNat = 65537 ∧
    (4294901760 + 65536 ≤ 4294967296 ∧ (∃ x ∈ ready.part.pts.windows.toList, x.present = true ∧ x.kind = .pass ∧ x.base ≤ 335544320 ∧
      335544320 + 65536 * 512 ≤ x.base + x.size)) ∧
    (queued (List.replicate 16 (transferring .queued)) ready).part.cde.requests.length = 16 ∧ ready.part.cde.requests.length < 16 ∧
    ((withCard .ready ready).part.cde.card = .ready ∧ (withCard .ready ready).part.cde.capacity.getD 0 < 999999 + 2 ∧
      999998 + 2 ≤ (withCard .ready ready).part.cde.capacity.getD 0) ∧ ready.part.cde.card ≠ .ready := by decide +kernel
/-- R191, R192: with the card READY the accepted transfer starts at once. -/
theorem test_card_write :
    let p := after (.cardWrite (transferWords 100 70 335544320)) (withCard .ready ready)
    (p.cde.requests.map fun r => (r.id, r.state, r.work)) = [(1, .active, .write 100 70 335544320)] ∧
    (p.cde.run.map fun r => (r.first, r.count, r.source, r.sourceEnd)) = some (100, 64, 335544320, 335544320 + 64 * 512) := by decide +kernel

def haltedBy (c : Cause) : Request := { transferring .halted with cause := some c, done := 64, sector := 64, retries := 3 }

theorem witness_CancelAndResume :
    ready.part.takes .cardCancel (w [7]) ∧ (ready.part.cde.requests.find? fun r => decide (r.id = 7)) = none ∧
    ((queued [transferring .active] ready).part.cde.requests.find? fun r => decide (r.id = 7)) = some (transferring .active) ∧
    (transferring .queued).state ≠ .active ∧ ready.part.takes .cardResume (w []) ∧ ready.part.cde.halted = none ∧
    (queued [haltedBy .cardAbsent] ready).part.cde.halted = some (haltedBy .cardAbsent) ∧
    ((queued [haltedBy .cardAbsent] (withCard .ready ready)).part.cde.requests.filter fun x => decide (x.id = 7)) = [haltedBy .cardAbsent] ∧
    (∀ e ∈ (haltedBy .cardAbsent).work.extents, e.1 + e.2 ≤ (withCard .ready ready).part.cde.capacity.getD 0) ∧
    ¬(∀ e ∈ (haltedBy .cardAbsent).work.extents, e.1 + e.2 ≤ 100) := by decide +kernel
/-- R202: the transfer goes on from the first run not confirmed. -/
theorem test_card_resume :
    let p := after (.cardResume (w [])) (queued [haltedBy .dataCrc] (withCard .ready ready))
    (p.cde.requests.map fun r => (r.state, r.retries)) = [(.active, 0)] ∧ (p.cde.run.map fun r => (r.first, r.count)) = some (164, 6) := by
  decide +kernel
theorem test_card_cancel :
    (after (.cardCancel (w [7])) (queued [transferring .queued] ready)).cde.requests = [] ∧
    ((after (.cardCancel (w [7])) (queued [transferring .active] ready)).cde.requests.map fun r => r.cancel) = [true] := by decide +kernel

def running (ph : RunPhase) (timer : Option Timer) (r : Request) (s : State) : State :=
  queued [r] (onCde (fun c => { c with run := some ⟨100, 64, ph, timer, 0, 0, [], [], 0⟩ }) (withCard .ready s))
def active : Request := transferring .active

theorem witness_RunsFollowTheCardExchange :
    (let s := running .startCommand (some ⟨0, 100000⟩) active ready;
      (s.part.cde.run.map fun r => r.phase) = some .startCommand ∧ s.part.cde.activeRequest = some active ∧ s.part.cde.bringup = none ∧
        (s.part.cde.requests.filter fun x => decide (x.id = 7)) = [active] ∧ s.part.cpa.resetting = none ∧ active.cancel = false ∧
        active.retries < 3 ∧ active.work.extents[active.extent]? = some (100, 70) ∧ ¬(70 ≤ active.sector + 64)) ∧
    ((running (.failed .dataCrc) none { active with retries := 3 } ready).part.cde.activeRequest = some { active with retries := 3 } ∧
      3 ≤ { active with retries := 3 }.retries) ∧
    (Timer.mk 0 500000).due (atTime 500000 (running (.blockBusy 63) (some ⟨0, 500000⟩) active ready)).part.clock.time = true ∧
    62 + 1 < 64 ∧ 64 ≤ 63 + 1 ∧ (70 ≤ { active with sector := 64 }.sector + 6 ∧ active.work.extents.length ≤ active.extent + 1) ∧
    (let r : Request := { storing .active with sector := 397440, done := 397440 };
      r.work = .store 5 [(0, 397497)] ∧ (holding (shot .storing) ready).part.shot? 5 = some (shot .storing) ∧
        (shot .storing).arming.autoRelease = false ∧ (∀ q ∈ [r], q.names 5 = true → q.id = r.id)) := by decide +kernel
/-- R200: the fourth failure halts the request with its cause, an earlier one starts the run again. -/
theorem test_run_failures :
    (after .runAttemptFailed (running (.failed .dataCrc) none { active with retries := 3 } ready)).cde.requests.map (fun r => (r.state, r.cause)) =
      [(.halted, some .dataCrc)] ∧
    ((after .runAttemptFailed (running (.failed .dataCrc) none { active with retries := 2 } ready)).cde.run.map fun r => (r.phase, r.first, r.count)) =
      some (.assemble, 100, 64) := by decide +kernel
/-- R197, R198: the run is confirmed, the second one has the 6 sectors left; with those the request is complete. -/
theorem test_run_confirmed :
    ((after .cardBusyEnd (running .stopBusy none active ready)).cde.run.map fun r => (r.first, r.count)) = some (164, 6) ∧
    (after .cardBusyEnd (running .stopBusy none { active with sector := 64, done := 64 } ready)).cde.requests = [] := by decide +kernel
theorem test_read_block :
    let s := running (.readBlock 0) none { active with work := .read 100 70 335544320 } ready
    ((after (.cardReadBlock true (List.replicate 512 1)) s).cde.bufWrites.map fun x => (x.1, x.2.length)) = [(335544320, 256), (335544576, 256)] ∧
    ((after (.cardReadBlock false []) s).cde.run.map fun r => r.phase) = some (.cleanupCommand .dataCrc) := by decide +kernel

/-! ### Input lines and exposures -/

theorem witness_InputLinesAreDebounced :
    ready.part.phase ≠ .asserted ∧ ready.part.esu.active.debounce ≠ 0 ∧
    (onEsu (fun e => { e with contactTimer := some ⟨0, 200⟩ }) ready).part.esu.contactTimer.isSome = true ∧
    (ready.part.esu.contactTimer = none ∧ (onEsu (fun e => { e with active := { e.active with debounce := 0 } }) ready).part.esu.active.debounce = 0) := by
  decide +kernel

def detecting (seated : Bool) (s : State) : State := atTime 50000 (onCde (fun c => { c with seated := seated, detectTimer := some ⟨0, 50000⟩ }) s)
def integrating (x : Shot) (s : State) : State := onEsu (fun e => { e with seq := .shotIntegrate, integLine := true }) (holding x s)
def supplyMoved (t : Word) (s : State) : State := atTime t (onTsm (fun m => { m with supplyTimer := some ⟨t - 10000, 10000⟩ }) s)
def since (t : Word) (x : Shot) : Shot := { x with exposure := { x.exposure with integStart := some t } }

theorem witness_CardAndSupplyChangesAreAccepted :
    ((detecting false ready).part.cde.detectTimer = some ⟨0, 50000⟩ ∧ (Timer.mk 0 50000).due (detecting false ready).part.clock.time = true ∧
      (detecting false ready).part.cde.seated = false ∧ (detecting false ready).part.cde.card = .absent) ∧
    ((detecting true (withCard .ready ready)).part.cde.seated = true ∧ (withCard .ready ready).part.cde.bringup = none ∧
      (withCard .ready ready).part.cde.activeRequest = none) ∧
    (detecting true (bringing (asked .select) ready)).part.cde.bringup = some (asked .select) ∧
    ((detecting true (running .startCommand none active ready)).part.cde.activeRequest = some active ∧ active.cancel = false ∧
      ((detecting true (running .startCommand none active ready)).part.cde.requests.filter fun x => decide (x.id = active.id)) = [active]) ∧
    ((supplyMoved 60000000 ready).part.tsm.supplyTimer = some ⟨59990000, 10000⟩ ∧
      (Timer.mk 59990000 10000).due (supplyMoved 60000000 ready).part.clock.time = true ∧ ready.part.tsm.supply = .normal ∧
      ready.part.currentShot = none ∧ ready.part.dfl.capture = none) ∧
    (let x := since 0 (shot .exposing);
      let s := supplyMoved 60000000 (integrating x ready);
      s.part.esu.seq = .shotIntegrate ∧ s.part.currentShot = some x ∧ s.part.shot? x.number = some x ∧ x.exposure.integStart = some 0 ∧
        notLater 0 (Timer.mk 59990000 10000).expiry = true ∧ 60000000 ≤ ((Timer.mk 59990000 10000).expiry - 0).toNat) ∧
    (let s := capturing .integrate (holding awaiting ready);
      s.part.currentShot = none ∧ s.part.dfl.capture = some ⟨5, 1, 3000000, 3, some 100, none, .integrate, some 0⟩ ∧ s.part.dfl.ending = none ∧
        s.part.shot? 5 = some awaiting) := by decide +kernel
theorem test_card_removal :
    (after .cardRemoval (detecting true (running .startCommand none active ready))).cde.card = .absent ∧
    ((after .cardRemoval (detecting true (running .startCommand none active ready))).cde.requests.map fun r => (r.state, r.cause)) =
      [(.halted, some .cardAbsent)] := by decide +kernel
/-- R98: at a change to LOW after 60 s the shot is read; a microsecond earlier it is not. -/
theorem test_supply_low :
    (after .supplyState (supplyMoved 60000000 (integrating (since 0 (shot .exposing)) ready))).sht.records.map (fun x => (x.state, x.exposure.overlong)) =
      [(.reading, true)] ∧
    (after .supplyState (supplyMoved 60000000 (integrating (since 1 (shot .exposing)) ready))).sht.records.map (fun x => x.state) = [.exposing] ∧
    (after .supplyState (supplyMoved 60000000 (capturing .flush (holding awaiting ready)))).sht.records.map (fun x => (x.state, x.progress.dark)) =
      [(.developing, some (.skipped .lowSupply))] := by decide +kernel

/-- An edge ready to be accepted: the transition came at 1,000 and the debounce of 200 has run. -/
def edge (contact : Bool) (s : State) : State :=
  atTime 1200 (onEsu (fun e => { e with contact := contact, contactTimer := some ⟨1000, 200⟩ }) s)
def withPlan (pl : StrobePlan) (t : Nat) (x : Shot) : Shot := { x with arming := { x.arming with plan := pl, planTime := t } }

theorem witness_EdgesActOnTheShot :
    ((edge false ready).part.esu.contactTimer = some ⟨1000, 200⟩ ∧ (Timer.mk 1000 200).due (edge false ready).part.clock.time = true ∧
      (edge false ready).part.esu.seq = .idle ∧ (!(edge false ready).part.esu.contact) = true ∧ (!(edge true ready).part.esu.contact) = false) ∧
    (let s := edge false (onEsu (fun e => { e with seq := .darkIntegrate }) (capturing .integrate (holding awaiting ready)));
      s.part.esu.seq = .darkIntegrate ∧ s.part.dfl.ending = none ∧ s.part.shot? 5 = some awaiting) ∧
    (let s := edge false (integrating (shot .armed) ready);
      s.part.esu.seq ∈ [.shotFlush, .shotIntegrate, Seq.shotRead] ∧ s.part.currentShot = some (shot .armed) ∧
        s.part.shot? (shot .armed).number = some (shot .armed) ∧ (shot .armed).arming.mode = .sync ∧ (shot .armed).arming.plan ≠ .first) ∧
    (withPlan .first 200 (shot .armed)).arming.plan = .first ∧ notLater (1000 + natWord 200) (Timer.mk 1000 200).expiry = true ∧
    notLater (1000 + natWord 201) (Timer.mk 1000 200).expiry = false ∧ ready.part.esu.active.guard ≠ 0 ∧
    (onEsu (fun e => { e with active := { e.active with guard := 0 } }) ready).part.esu.active.guard = 0 ∧
    (timed (shot .exposing)).arming.mode = .timed := by decide +kernel
/-- R91, R96: the exposure opens at the edge's own time; a FIRST strobe due by the acceptance fires then, a later one waits. -/
theorem test_closing_edge :
    ((after .syncEdgeAccept (edge false (integrating (withPlan .first 200 (shot .armed)) ready))).sht.records.map fun x =>
      (x.state, x.exposure.openTime, x.exposure.strobeTime)) = [(.exposing, some 1000, some 1200)] ∧
    (after .syncEdgeAccept (edge false (integrating (withPlan .first 201 (shot .armed)) ready))).esu.strobe = some 1201 := by decide +kernel
/-- R93: the exposure is measured by the edges' times and the guard runs from the acceptance. -/
theorem test_opening_edge :
    let x : Shot := { since 0 (shot .exposing) with exposure := { (since 0 (shot .exposing)).exposure with openTime := some 400 } }
    let p := after .syncEdgeAccept (edge true (integrating x ready))
    (p.sht.records.map fun y => (y.state, y.exposure.measured)) = [(.settling, some 600)] ∧ p.esu.guardTimer = some ⟨1200, 5000⟩ := by
  decide +kernel

def flushed (x : Shot) (s : State) : State :=
  atTime 2000 (onEsu (fun e => { e with seq := .shotFlush, flushTimer := some ⟨0, 2000⟩ }) (holding x s))
def early (x : Shot) : Shot := { x with exposure := { x.exposure with early := true } }
def pulsing (s : State) : State :=
  atTime 10 (onEsu (fun e => { e with flushLine := true, flushPulse := some ⟨0, 10⟩, strobeLine := true, strobePulse := some ⟨0, 10⟩ }) s)

theorem witness_PulsesEndAndFlushEndStartsIntegration :
    ((Timer.mk 0 10).due (pulsing ready).part.clock.time = true ∧ (pulsing ready).part.esu.flushPulse = some ⟨0, 10⟩ ∧
      (pulsing ready).part.esu.readPulse = none ∧ (pulsing ready).part.esu.strobePulse = some ⟨0, 10⟩) ∧
    ((onEsu (fun e => { e with readPulse := some ⟨0, 10⟩ }) ready).part.esu.readPulse = some ⟨0, 10⟩ ∧ ready.part.esu.flushPulse = none) ∧
    (let s := atTime 50 (onEsu (fun e => { e with strobe := some 50 }) (integrating (shot .exposing) ready));
      s.part.esu.strobe = some 50 ∧ s.part.currentShot = some (shot .exposing) ∧ notLater 50 s.part.clock.time = true ∧
        notLater 51 s.part.clock.time = false) ∧
    (let s := flushed (shot .arming) ready;
      s.part.esu.flushTimer = some ⟨0, 2000⟩ ∧ (Timer.mk 0 2000).due s.part.clock.time = true ∧ s.part.esu.seq = .shotFlush ∧
        s.part.currentShot = some (shot .arming) ∧ s.part.shot? 5 = some (shot .arming) ∧ (shot .arming).exposure.early = false) ∧
    ((early (shot .arming)).exposure.early = true ∧ ready.part.esu.contact = false ∧ (edge true ready).part.esu.contact = true ∧
      ready.part.esu.active.guard ≠ 0 ∧ (withPlan .first 0 (early (shot .arming))).arming.plan = .first ∧
      notLater (2000 + natWord 0) 2000 = true ∧ notLater (2000 + natWord 1) 2000 = false) ∧
    ((timed (shot .arming)).arming.mode = .timed ∧ ready.part.tsm.temp ≠ .critical ∧ (timed (shot .arming)).arming.plan = .none ∧
      (withPlan .last 5 (timed (shot .arming))).arming.plan ≠ .none ∧
      (onTsm (fun t => { t with temp := .critical }) ready).part.tsm.temp = .critical) := by decide +kernel
/-- R90, R95, R96: a TIMED shot's LAST strobe stands its lead before the programmed time's end. -/
theorem test_flush_end :
    ((after .flushEnd (flushed (shot .arming) ready)).sht.records.map fun x => (x.state, x.exposure.integStart)) = [(.armed, some 2000)] ∧
    (after .flushEnd (flushed (shot .arming) ready)).esu.armTimer = some ⟨2000, 30000000⟩ ∧
    (after .flushEnd (flushed (withPlan .last 5 (timed (shot .arming))) ready)).esu.strobe = some 2001995 ∧
    (after .flushEnd (flushed (withPlan .last 5 (timed (shot .arming))) ready)).esu.progTimer = some ⟨2000, 2000000⟩ := by decide +kernel

def guarded (s : State) : State := atTime 9000 (onEsu (fun e => { e with guardTimer := some ⟨4000, 5000⟩ }) s)

theorem witness_IntegrationEndsInReadingOrMissed :
    (let x := since 100 (shot .settling);
      let s := guarded (integrating x ready);
      s.part.currentShot = some x ∧ s.part.shot? x.number = some x ∧ s.part.esu.guardTimer = some ⟨4000, 5000⟩ ∧
        (Timer.mk 4000 5000).due s.part.clock.time = true ∧ x.state = .settling) ∧
    (let x := timed (since 100 (shot .exposing));
      let s := atTime 2000100 (onEsu (fun e => { e with progTimer := some ⟨100, 2000000⟩ }) (integrating x ready));
      s.part.currentShot = some x ∧ (Timer.mk 100 2000000).due s.part.clock.time = true ∧ x.state = .exposing) ∧
    (let x := since 0 (shot .armed);
      let s := atTime 30000000 (onEsu (fun e => { e with armTimer := some ⟨0, 30000000⟩ }) (integrating x ready));
      s.part.currentShot = some x ∧ (Timer.mk 0 30000000).due s.part.clock.time = true ∧ x.state = .armed ∧ x.progress.dark = none ∧
        s.part.esu.seq = .shotIntegrate ∧ x.exposure.integStart = some 0 ∧ notLater 0 s.part.clock.time = true ∧
        (s.part.clock.time - 0).toNat < 1800000000) ∧
    1800000000 ≤ ((atTime 1800000000 ready).part.clock.time - 0).toNat := by decide +kernel
/-- R100: the end and the time of integration are the guard's expiry; the deadline runs from it. -/
theorem test_guard_expiry :
    let p := after .settleGuardExpiry (guarded (integrating (since 100 (shot .settling)) ready))
    (p.sht.records.map fun x => (x.state, x.exposure.integEnd, x.exposure.integTime, x.progress.dark)) =
      [(.reading, some 9000, some 8900, some (.none .belowThreshold))] ∧
    p.icr.deadline = some ⟨9000, 3000000⟩ ∧ p.icr.target = some ⟨.shot, 5, 0, .inline, 3, none, 0, []⟩ ∧ p.esu.integLine = false := by
  decide +kernel
theorem test_arm_window :
    let p := after .armWindowExpiry (atTime 30000000 (onEsu (fun e => { e with armTimer := some ⟨0, 30000000⟩ }) (integrating (since 0 (shot .armed)) ready)))
    p.sht.records = [] ∧ p.esu.seq = .idle ∧ p.sht.slots = List.replicate 10 .free := by decide +kernel
theorem test_integration_limit :
    let s (t : Word) := atTime t (integrating (since 0 (shot .exposing)) ready)
    (after .integrationLimit (s 1799999999)).sht.records.map (fun x => x.state) = [.exposing] ∧
    (after .integrationLimit (s 1800000000)).sht.records.map (fun x => (x.state, x.exposure.overlong)) = [(.reading, true)] := by
  decide +kernel

/-! ### Darks and temperature -/

def library (es : List Dark) (s : State) : State := onDfl (fun d => { d with entries := es }) s

theorem witness_DarkDecisionFollowsItsTable :
    (onDfl (fun d => { d with policy := ⟨.off, 2, 2, 256⟩ }) ready).part.dfl.policy.mode = .off ∧ ready.part.dfl.policy.mode ≠ .off ∧
    1999999 < ready.part.dfl.policy.threshold * 1000000 ∧ ready.part.dfl.policy.threshold * 1000000 ≤ 2000000 ∧
    (entry 0 3 0 ∈ (library [entry 0 3 0] ready).part.dfl.entries ∧ (entry 0 3 0).gain = 3 ∧ (entry 0 3 0).td ≤ 2 * 2000000 ∧
      2000000 ≤ 2 * (entry 0 3 0).td ∧ ((108 : Int) - 100).natAbs ≤ 8) ∧
    ready.part.dfl.entries = [] ∧ ready.part.dfl.policy.mode = .capture ∧ ready.part.tsm.supply = .normal ∧
    (onTsm (fun t => { t with supply := .low }) ready).part.tsm.supply = .low ∧
    (onDfl (fun d => { d with policy := ⟨.libraryOnly, 2, 2, 256⟩ }) ready).part.dfl.policy.mode = .libraryOnly := by decide +kernel
/-- R118: the nearer temperature, then the nearer time, then the later stamp. -/
theorem test_best_match :
    let e (id td stamp : Nat) (temp : Int) : Dark := ⟨id, id, td, some temp, 3, 0, natWord stamp, 1⟩
    (bestMatch 3 3000000 100 [e 0 3000000 9 104, e 1 6000000 8 103]).map (fun d => d.id) = some 1 ∧
    (bestMatch 3 3000000 100 [e 0 5000000 9 104, e 1 2900000 8 96]).map (fun d => d.id) = some 1 ∧
    (bestMatch 3 3000000 100 [e 0 3000000 8 104, e 1 3000000 9 104]).map (fun d => d.id) = some 1 ∧
    (bestMatch 3 3000000 100 [e 0 3000000 9 109, e 1 6000001 8 103]) = none := by decide +kernel

def darkFlush (contact : Bool) : State :=
  atTime 2000 (onEsu (fun e => { e with seq := .darkFlush, contact := contact, flushTimer := some ⟨0, 2000⟩ }) (capturing .flush (holding awaiting ready)))
def darkIntegrating : State :=
  atTime 3002000 (onEsu (fun e => { e with seq := .darkIntegrate, integLine := true, darkTimer := some ⟨2000, 3000000⟩ })
    (capturing .integrate (holding awaiting ready)))
/-- The last burst of a dark's readout has been written. -/
def darkWritten (temp : Option Int) : State :=
  onIcr
    (fun i =>
      { i with
        target := some ⟨.dark, 5, 1, .raw, 3, none, 0, []⟩
        work := some ⟨203513600, 203513856, none, 1, [], none, 0, 0, .written⟩ })
    (onDfl (fun d => { d with capture := some ⟨5, 1, 3000000, 3, some 100, temp, .read, some 0⟩ }) (holding awaiting ready))

theorem witness_DarkSequenceRuns :
    ((Timer.mk 0 2000).due (darkFlush false).part.clock.time = true ∧
      (darkFlush false).part.dfl.capture = some ⟨5, 1, 3000000, 3, some 100, none, .flush, some 0⟩ ∧
      (darkFlush false).part.esu.flushTimer = some ⟨0, 2000⟩ ∧ (darkFlush false).part.esu.seq = .darkFlush ∧
      (darkFlush false).part.esu.contact = false) ∧
    ((darkFlush true).part.esu.contact = true ∧ (darkFlush true).part.dfl.ending = none ∧ (darkFlush true).part.shot? 5 = some awaiting) ∧
    ((Timer.mk 2000 3000000).due darkIntegrating.part.clock.time = true ∧ darkIntegrating.part.esu.darkTimer = some ⟨2000, 3000000⟩ ∧
      darkIntegrating.part.esu.seq = .darkIntegrate) ∧
    ((darkWritten (some 96)).part.dfl.capture.isSome = true ∧ (darkWritten (some 96)).part.icr.target = some ⟨.dark, 5, 1, .raw, 3, none, 0, []⟩ ∧
      (darkWritten (some 96)).part.icr.work = some ⟨203513600, 203513856, none, 1, [], none, 0, 0, .written⟩ ∧
      (darkWritten (some 96)).part.geo.width * (darkWritten (some 96)).part.geo.height * 2 ≤ 203513856 ∧
      (darkWritten (some 96)).part.cpa.resetting = none ∧ (darkWritten (some 96)).part.dfl.ending = none ∧
      (darkWritten (some 96)).part.shot? 5 = some awaiting ∧
      (darkWritten (some 96)).part.dfl.entries.length < (darkWritten (some 96)).part.dfl.policy.size) := by decide +kernel
/-- R122: a dark of known temperature joins the library with K = F, here 1; one of unknown temperature is transient. -/
theorem test_dark_completes :
    (after .ingestCommit (darkWritten (some 96))).dfl.entries = [⟨0, 1, 3000000, some 96, 3, 1, 5, 5⟩] ∧
    ((after .ingestCommit (darkWritten (some 96))).sht.records.map fun x => (x.state, x.progress.dark)) =
      [(.developing, some (.capture (.entry 0) (some 16384)))] ∧
    (after .ingestCommit (darkWritten none)).dfl.transients = [⟨0, 1, 3000000, none, 3, 1, 5, 5⟩] ∧
    (after .ingestCommit (darkWritten none)).dfl.entries = [] := by decide +kernel
theorem test_dark_flush :
    (after .darkFlushEnd (darkFlush false)).esu.darkTimer = some ⟨2000, 3000000⟩ ∧ (after .darkFlushEnd (darkFlush true)).dfl.capture = none ∧
    (after .darkIntegrationExpiry darkIntegrating).icr.target = some ⟨.dark, 5, 1, .raw, 3, none, 0, []⟩ := by decide +kernel

def probing (s : State) : State := onTsm (fun t => { t with transaction := some ⟨0, 10000⟩ }) s
/-- A probe value for a number of quarter degrees. -/
def probe (q : Int) : Half := BitVec.ofInt 16 (4 * q)

theorem witness_TemperatureReadingsAndLimits :
    ((onTsm (fun t => { t with schedule := some ⟨0, 250000⟩ }) ready).part.tsm.schedule = some ⟨0, 250000⟩ ∧
      ready.part.tsm.transaction = none ∧ (Timer.mk 0 250000).due (atTime 250000 ready).part.clock.time = true) ∧
    ((probing ready).part.tsm.transaction = some ⟨0, 10000⟩ ∧ ((atTime 10000 (probing ready)).part.clock.time - 0).toNat ≤ 10000 ∧
      (probe (-160)).toInt / 4 = -160 ∧ (probe 500).toInt / 4 = 500 ∧ (probe 501).toInt / 4 = 501 ∧ ready.part.currentShot = none ∧
      ready.part.tsm.missed < 2 ∧ (onTsm (fun t => { t with missed := 2 }) ready).part.tsm.missed = 2 ∧ ready.part.tsm.temp ≠ .fault) ∧
    ((probing ready).part.tsm.transaction = some ⟨0, 10000⟩ ∧ (Timer.mk 0 10000).due (atTime 10000 (probing ready)).part.clock.time = true ∧
      (probing (onTsm (fun t => { t with missed := 2 }) ready)).part.tsm.missed = 2 ∧
      (probing (onTsm (fun t => { t with missed := 2 }) ready)).part.tsm.temp ≠ .fault) ∧
    ((probe 240).toInt / 4 = 240 ∧ ready.part.tsm.critical ≤ 240 ∧ (holding (timed (shot .exposing)) ready).part.currentShot = some (timed (shot .exposing)) ∧
      (timed (shot .exposing)).state ≠ .reading ∧
      (integrating (timed (shot .exposing)) ready).part.esu.seq ∈ [.shotFlush, Seq.shotIntegrate] ∧
      ready.part.esu.seq ∉ [.shotFlush, Seq.shotIntegrate] ∧ (shot .reading).state = .reading ∧ (holding (shot .reading) ready).part.currentShot = some (shot .reading)) ∧
    ready.part.takes .setLimits (w [80, 320, 1]) ∧ (resettingAs nothingStopped ready).part.takes .setLimits (w [80, 320, 1]) := by
  decide +kernel
/-- R207, R209: 45.00 degrees is WARM, a sixteenth below it is not; the reading is floor(v / 4). -/
theorem test_reading :
    (after (.tempReadingEnd true 720) (probing ready)).tsm.temp = .warm ∧ (after (.tempReadingEnd true 719) (probing ready)).tsm.temp = .normal ∧
    (after (.tempReadingEnd true (BitVec.ofInt 16 (-1))) (probing ready)).tsm.reading = some (-1) := by decide +kernel
/-- R208: the third missed reading makes FAULT and the reading absent. -/
theorem test_missed :
    let p := after (.tempReadingEnd false 0) (probing (onTsm (fun t => { t with missed := 2 }) ready))
    p.tsm.temp = .fault ∧ p.tsm.reading = none ∧ p.tsm.missed = 3 := by decide +kernel
/-- R211: the critical limit is raised to warm + 8. -/
theorem test_limits :
    let p := after (.setLimits (w [300, 0, 21])) ready
    (p.tsm.warm, p.tsm.critical, p.tsm.hysteresis) = (280, 288, 20) ∧
    p.cpa.writes = [.resultData 2 (padTo 24 0 [280, 288, 20, 0, 100]) .doneAdjusted .adjusted] := by decide +kernel
/-- R99: CRITICAL ends a TIMED exposure, TRUNCATED and HOT. -/
theorem test_critical :
    (after (.tempReadingEnd true (probe 240)) (probing (integrating (timed (since 0 (shot .exposing))) ready))).sht.records.map (fun x =>
      (x.state, x.exposure.hot, x.exposure.truncated)) = [(.reading, true, true)] := by decide +kernel

/-! ### Ingest and development -/

def readingShot (cursor : Nat) : Shot := { shot .reading with progress := { (shot .reading).progress with cursor := cursor, correction := some .corrected } }
def target (path : Path) (dark : Option DarkUse) (s : State) : State :=
  onIcr (fun i => { i with target := some ⟨.shot, 5, 0, path, 3, dark, 0, []⟩, deadline := some ⟨0, 3000000⟩ }) s
/-- A write burst of one beat at an offset of the INGEST window, classified. -/
def rows (offset : Nat) (s : State) : State := atHead (wburst (16777216 + offset)) (some (.ingestWrite 16777216)) s
def abandoned (x : Shot) : Shot := { x with exposure := { x.exposure with abandoned := true } }

theorem witness_IngestBurstsFollowTheirCases :
    ((rows 0 ready).part.pts.queue = wburst 16777216 :: [] ∧ (rows 0 ready).part.pts.head = some (.ingestWrite 16777216) ∧
      ready.part.icr.target = none ∧ ready.part.icr.strayReported = false ∧
      (onIcr (fun i => { i with strayReported := true }) ready).part.icr.strayReported = true) ∧
    ((target .raw none (holding (readingShot 4096) ready)).part.icr.target = some ⟨.shot, 5, 0, .raw, 3, none, 0, []⟩ ∧
      (target .raw none (holding (readingShot 4096) ready)).part.shot? 5 = some (readingShot 4096) ∧
      203513856 ≤ (wburst (16777216 + 203513856)).addr - 16777216 ∧ min (4080 + 16 * 1) 203513856 ≤ (readingShot 4096).progress.cursor ∧
      (readingShot 4096).progress.cursor < min (4096 + 16 * 1) 203513856 ∧ (readingShot 4096).exposure.abandoned = false) ∧
    (abandoned (readingShot 4096)).exposure.abandoned = true ∧ min (203513840 + 16 * 1) 203513856 = 203513856 ∧
    (target .inline (some ⟨3, 3, 16384⟩) ready).part.icr.target = some ⟨.shot, 5, 0, .inline, 3, some ⟨3, 3, 16384⟩, 0, []⟩ := by decide +kernel
def darkTarget (cursor : Nat) : State := onIcr (fun i => { i with target := some ⟨.dark, 5, 1, .inline, 3, some ⟨3, 3, 16384⟩, cursor, []⟩ }) ready
/-- R146 to R148: eight pixels of 771 with black 256, unit gain and pedestal 256 come out as they are; R149: a dark's bytes are
written as they came, after a gap. -/
theorem test_ingest_burst :
    ((after .ingestWrite (rows 0 (target .inline none (holding (readingShot 0) ready)))).icr.work.map fun x => (x.from_, x.to_, x.gap, x.bytes.take 2)) =
      some (0, 16, none, [3, 3]) ∧
    (after .ingestWrite (rows 64 (darkTarget 32))).icr.work = some ⟨64, 80, some (32, 64), 1, List.replicate 16 3, none, 0, 0, .needWrite⟩ := by
  decide +kernel
/-- R142: an abandoned readout takes no byte, and its end removes the record. -/
theorem test_abandoned :
    ((after .ingestWrite (rows 64 (target .raw none (holding (abandoned (readingShot 0)) ready)))).sht.records.map fun x => x.progress.gaps) = [[(0, 64)]] ∧
    (after .ingestWrite (rows 203513840 (target .raw none (holding (abandoned (readingShot 0)) ready)))).sht.records = [] := by decide +kernel

def written (from_ to_ : Nat) (s : State) : State :=
  onIcr (fun i => { i with work := some ⟨from_, to_, none, 0, [], none, 2, 1, .written⟩ }) s

theorem witness_IngestCommitsAndReadoutsEnd :
    (let s := written 203513840 203513856 (target .inline none (holding (readingShot 203513840) ready));
      s.part.icr.target = some ⟨.shot, 5, 0, .inline, 3, none, 0, []⟩ ∧ s.part.shot? 5 = some (readingShot 203513840) ∧
        (readingShot 0).exposure.abandoned = false ∧ s.part.cpa.resetting = none ∧ s.part.dfl.ending = none ∧ s.part.dfl.capture = none ∧
        s.part.icr.work = some ⟨203513840, 203513856, none, 0, [], none, 2, 1, .written⟩ ∧ s.part.geo.width * s.part.geo.height * 2 ≤ 203513856) ∧
    (let s := written 0 16 (target .inline none (holding (readingShot 0) ready));
      16 < geo.width * geo.height * 2 ∧ s.part.icr.deadline = some ⟨0, 3000000⟩ ∧
        (Timer.mk 0 3000000).due (atTime 2999999 s).part.clock.time = false ∧ (Timer.mk 0 3000000).due (atTime 3000000 s).part.clock.time = true ∧
        (atTime 3000000 s).part.dfl.capture = none) ∧
    (let s := atTime 3000000 (target .raw none (holding toCapture ready));
      s.part.icr.deadline = some ⟨0, 3000000⟩ ∧ (Timer.mk 0 3000000).due s.part.clock.time = true ∧ s.part.icr.work = none) := by decide +kernel
/-- R139, R152: the commit that reaches the frame bytes ends the readout, and the pass begins; R140: the deadline leaves a gap to the end. -/
theorem test_readout_ends :
    let p := after .ingestCommit (written 203513840 203513856 (target .inline none (holding (readingShot 203513840) ready)))
    let q := after .readoutTimeout (atTime 3000000 (target .inline none (holding (readingShot 512) ready)))
    (p.sht.records.map fun x => (x.state, x.progress.lowClamps, x.progress.highClamps)) = [(.developing, 2, 1)] ∧ p.dpe.queue = [5] ∧
    p.dpe.pass.isSome = true ∧ p.icr.target = none ∧ (q.sht.records.map fun x => x.progress.gaps) = [[(512, 203513856)]] := by decide +kernel
theorem witness_ChannelsFollowThePhase :
    lateService.part.takes .setGeometry (w [0]) ∧ lateService.part.sht.layout.isSome = true ∧ 4 % 2 = 0 ∧ 5 % 2 = 1 := by decide +kernel

def corrector : Corrector := ⟨256, 16000, 256, 200, 16384⟩
theorem witness_PixelsAreCorrected : corrector.threshold ≤ 16000 ∧ 15999 < corrector.threshold := by decide
/-- R146 to R148 by hand: saturation at the threshold; (1000 − 256 − 100) × 1 + 256; a negative result is clamped. -/
theorem test_correct_pixel :
    correctPixel corrector 4096 none 16000 = ⟨65535, false, false⟩ ∧ correctPixel corrector 4096 (some 300) 1000 = ⟨900, false, false⟩ ∧
    correctPixel ⟨256, 16000, 0, 0, 0⟩ 4096 none 255 = ⟨0, true, false⟩ ∧ correctPixel ⟨0, 65535, 0, 0, 0⟩ 16383 none 20000 = ⟨65535, false, true⟩ := by
  decide

theorem witness_DevelopmentArithmetic :
    (0 < 3 ∧ 3 ≤ 2 * 2 ∧ 2 ≤ 2 * 3 ∧ (List.replicate 17 8192).length = 17 ∧ (∀ f ∈ List.replicate 17 8192, 8192 ≤ f ∧ f ≤ 32767)) ∧
    ((List.replicate 8 ((0 : Nat), (0 : Nat))).length ≤ 8 ∧ (∀ g ∈ [((0 : Nat), (16 : Nat)), (32, 64)], g.1 < g.2 ∧ g.2 ≤ 64) ∧
      [((0 : Nat), (16 : Nat)), (32, 64)].Pairwise (fun g h => g.2 ≤ h.1) ∧ 64 < 80) ∧
    (RepairList.next geo ⟨[0, 2], []⟩ ⟨[0, 2], 3, []⟩ = some ⟨0, 3, []⟩ ∧
      RepairList.next geo ⟨[0], [(11647, 0)]⟩ ⟨[], 0, [(11647, 0)]⟩ = some ⟨11647, 0, [(11645, 0)]⟩ ∧ (11645, 0) ∈ [((11645 : Nat), (0 : Nat))]) ∧
    0 < 16 := by decide
/-- R133: with eight gaps listed the ninth extends the eighth. -/
theorem test_ninth_gap :
    addGap ((List.range 8).map fun k => (32 * k, 32 * k + 16)) (300, 332) = ((List.range 7).map fun k => (32 * k, 32 * k + 16)) ++ [(224, 332)] := by
  decide
/-- R158, R160: no horizontal neighbour is usable, so the vertical pair serves. -/
theorem test_single_repair :
    singleRepair geo ⟨[8, 12], [(10, 4)]⟩ 10 4 = ⟨10, 4, [(10, 2), (10, 6)]⟩ ∧ repairValue 256 [10, 13] = 12 ∧ repairValue 256 [] = 256 := by decide

/-- A pass over the shot, at the end of a stage. -/
def pass (stage : Nat) (gaps : List (Nat × Nat)) : Pass :=
  ⟨5, 0, 3, none, gaps, 256, 16000, 0, [4096], [], [], 256, stage, 203513856, [], ⟨[], 0, []⟩, none, none, [], 3, 4, 7, List.replicate 64 9, 12⟩
def developing (a : Pass) (s : State) : State := onPart (fun p => { p with dpe := ⟨[5], some a⟩ }) (holding (shot .developing) s)

theorem witness_PassStagesEnd :
    ((developing (pass 1 []) ready).part.dpe.pass = some (pass 1 []) ∧ (pass 1 []).stage = 1 ∧
      (developing (pass 1 []) ready).part.geo.width * (developing (pass 1 []) ready).part.geo.height * 2 ≤ (pass 1 []).pos ∧
      (pass 1 [(0, 16)]).gaps ≠ []) ∧
    ((pass 3 []).stage = 3 ∧ (pass 3 []).repairs.columns = [] ∧ (pass 3 []).repairs.singles = []) ∧
    ((pass 4 []).stage = 4 ∧ (developing (pass 4 []) ready).part.shot? 5 = some (shot .developing) ∧
      (developing (pass 4 []) ready).part.dpe.queue = (pass 4 []).shot :: [] ∧ (pass 4 []).shot ∉ ([] : List Word) ∧
      (developing (pass 4 []) ready).part.requestFor 5 = none) := by decide +kernel
/-- R156, R157, R164: the counts go to the record, a gap leads to stage 2, and the end of the pass gives DEVELOPED and 397,497 sectors. -/
theorem test_pass :
    ((after .stage1End (developing (pass 1 [(16, 32)]) ready)).dpe.pass.map fun a => (a.stage, a.pos)) = some (2, 16) ∧
    ((after .stage1End (developing (pass 1 []) ready)).sht.records.map fun x => (x.progress.correction, x.progress.lowClamps)) = [(some .corrected, 3)] ∧
    ((after .stage3End (developing (pass 3 []) ready)).sht.records.map fun x => x.progress.repaired) = [7] ∧
    ((after .passEnd (developing (pass 4 []) ready)).sht.records.map fun x => (x.state, x.progress.saturated, x.progress.fileSectors)) =
      [(.developed, 12, some 397497)] := by decide +kernel


/-! ### The middle of the work: burst ends, checks one by one, rows, runs -/

/-- A burst end of a master that reads. -/
def fetched (m : Master) (list : Bool) : InFlight := ⟨.internal m, false, 1073741824, 16, [], none, [], list⟩
/-- An ingest burst at the head of the upstream queue, at a stage. -/
def ingesting (stage : IngestStage) : State :=
  onIcr (fun i => { i with work := some ⟨0, 16, none, 0, List.replicate 16 3, some ⟨3, 3, 16384⟩, 0, 0, stage⟩ })
    (atHead (wburst 16777216) (some .owned) (target .inline (some ⟨3, 3, 16384⟩) (holding (readingShot 0) ready)))
def stage3 (columns : List Nat) (beats : List (Nat × List Byte)) : Pass :=
  { pass 3 [] with columns := columns, repairs := ⟨columns, 0, []⟩, beats := beats }

theorem witness_GrantsAndBurstEndsCarryTheWork_requests :
    (statusQueued [2] ready).part.cpa.writes = .status [2] :: [] ∧
    ((ingesting .needDark).part.pts.queue = wburst 16777216 :: [] ∧ (ingesting .needDark).part.pts.head = some .owned ∧
      (ingesting .needDark).part.icr.work = some ⟨0, 16, none, 0, List.replicate 16 3, some ⟨3, 3, 16384⟩, 0, 0, .needDark⟩ ∧
      (ingesting .needWrite).part.icr.work = some ⟨0, 16, none, 0, List.replicate 16 3, some ⟨3, 3, 16384⟩, 0, 0, .needWrite⟩ ∧
      (ingesting .needDark).part.icr.target = some ⟨.shot, 5, 0, .inline, 3, some ⟨3, 3, 16384⟩, 0, []⟩ ∧
      (carrying { fetched .dpe false with who := .passThrough } (ingesting .needDark)).part.port.busy =
        some { fetched .dpe false with who := .passThrough }) ∧
    ((rendered.part.prn.work.map fun x => x.rendering) = some (some rendering) ∧
      { rendering with source := List.replicate 255 0 }.source.length < 16 * rendered.part.geo.width) ∧
    (let l := listed [(0, 397497)];
      let first : ListRead := { l with got := [] };
      let s := carrying (fetched .cde true) (onCde (fun c => { c with listReads := [l, first] }) ready);
      s.part.cde.listReads = [l] ++ first :: [] ∧ (∀ x ∈ [l], (8 * x.count + 15) / 16 * 16 ≤ x.got.length) ∧
        first.got.length < (8 * first.count + 15) / 16 * 16 ∧ s.part.port.busy = some (fetched .cde true)) ∧
    ((resettingAs nothingStopped ready).part.cpa.resetting = some nothingStopped ∧ nothingStopped.dpe = false ∧
      (fetched .dpe false).who = .internal .dpe) := by decide +kernel
/-- Each stage of a pass at each of its bursts: at the first gap's edge, at the frame's last byte, between two gaps and after the last. -/
theorem witness_GrantsAndBurstEndsCarryTheWork_stages :
    (∀ a ∈ [pass 1 [], pass 2 [], pass 3 [], pass 4 []], (developing a ready).part.dpe.pass = some a ∧ (developing a ready).part.cpa.resetting = none) ∧
    ({ pass 1 [] with pos := 203513855 }.pos < geo.width * geo.height * 2 ∧ (pass 1 []).gapsLeft = [] ∧ (pass 1 []).raw = none ∧
      (pass 1 []).dark = none ∧ (pass 1 []).out = none) ∧
    (let a : Pass := { pass 1 [(16, 32)] with pos := 15, gapsLeft := [(16, 32)], dark := some ⟨3, 3, 16384⟩, raw := some [1] };
      a.gapsLeft = (16, 32) :: [] ∧ a.pos < min 16 (geo.width * geo.height * 2) ∧ a.dark = some ⟨3, 3, 16384⟩ ∧ a.raw = some [1] ∧
        { a with out := some [1] }.out = some [1]) ∧
    (let a : Pass := { pass 2 [(16, 32), (64, 80)] with pos := 16, gapsLeft := [(16, 32), (64, 80)] };
      a.gapsLeft = (16, 32) :: [(64, 80)] ∧ a.pos + 15 < 32 ∧ 32 ≤ a.pos + 16 ∧ [((64 : Nat), (80 : Nat))] = (64, 80) :: []) ∧
    ((stage3 [0] []).repairs.next geo ⟨[0], []⟩ = some ⟨0, 0, [(2, 0)]⟩ ∧ beatOf geo 0 0 = 0 ∧ beatOf geo 2 0 = 0 ∧
      0 ∉ (stage3 [0] []).beats.map Prod.fst ∧ 0 ∈ (stage3 [0] [(0, List.replicate 16 7)]).beats.map Prod.fst) ∧
    { pass 4 [] with pos := 203513854 }.pos < geo.width * geo.height * 2 := by decide +kernel

/-- The entry i of the window table absent. -/
def without (i : Fin 16) (s : State) : State := onPts (fun p => { p with windows := p.windows.set i ⟨false, .pass, 0, 0⟩ }) s

theorem witness_SetWindowRefusalsAndStartItems :
    (∀ a ∈ [windowWords 0 0 0 0 4096, windowWords 16 0 0 0 4096, windowWords 15 2 0 0 4096, windowWords 1 0 1 0 4096, windowWords 15 0 6 0 4096,
        windowWords 15 0 5 4095 4096, windowWords 15 0 5 4096 0, windowWords 15 0 5 4096 4097, windowWords 15 0 5 0 17179873280],
      configured.part.takes .setWindow a) ∧
    ((configured.part.words (windowWords 15 0 5 0 17179873280)).getD 5 0).toNat +
      ((configured.part.words (windowWords 15 0 5 0 17179873280)).getD 6 0).toNat * 4294967296 = 17179873280 ∧
    (lateService.part.sht.layout.isSome = true ∧ lateService.part.pts.windows[(1 : Fin 16)].present = true ∧
      lateService.part.pts.windows[(1 : Fin 16)].kind = .frameStore) ∧
    ((target .raw none ready).part.icr.target.isSome = true ∧ ready.part.pts.windows[(2 : Fin 16)].present = true ∧
      ready.part.pts.windows[(2 : Fin 16)].kind = .ingest) ∧
    ((loading ready).part.cal.session ≠ .none ∧ ready.part.pts.windows[(4 : Fin 16)].present = true ∧
      ready.part.pts.windows[(4 : Fin 16)].kind = .bundle ∧ ready.part.cal.session = .none ∧ ready.part.icr.target = none) ∧
    (parsesTo 6 ⟨true, .ingest, 4026531840, 4096⟩ (configured.part.words (windowWords 6 0 2 4026531840 4096)) = true ∧
      configured.part.windowBusy ⟨6, some ⟨true, .ingest, 4026531840, 4096⟩⟩ = none ∧
      (∀ j : Fin 16, j ≠ 6 → Window.overlaps ⟨true, .ingest, 4026531840, 4096⟩ configured.part.pts.windows[j] = false) ∧
      configured.part.pts.windows[(2 : Fin 16)].kind = .ingest ∧
      (∀ k : Fin 16, k < 2 → ¬(configured.part.pts.windows[k].present = true ∧ configured.part.pts.windows[k].kind = .ingest))) ∧
    (∀ k ∈ [((2 : Fin 16), (2 : Nat), WindowKind.ingest), (3, 3, .view), (1, 5, .frameStore)],
      let x : Window := ⟨true, k.2.2, 4026531840, 4096⟩
      parsesTo k.1 x (configured.part.words (windowWords k.1 0 k.2.1 4026531840 4096)) = true ∧
        configured.part.windowBusy ⟨k.1, some x⟩ = none ∧
        (∀ j : Fin 16, j ≠ k.1 → x.overlaps configured.part.pts.windows[j] = false ∧ configured.part.pts.windows[j].kind ≠ k.2.2) ∧
        4096 < WindowKind.minimum k.2.2 geo) := by decide +kernel
/-- R28: each item missing alone, and none. -/
theorem witness_SetWindowRefusalsAndStartItems_missing :
    configured.part.pts.geometry = some geo ∧ loader.part.pts.geometry = none ∧
    (∀ x ∈ (without 1 configured).part.pts.windows.toList, ¬(x.present = true ∧ x.kind = .frameStore)) ∧
    (configured.part.pts.windows[(1 : Fin 16)].kind = .frameStore ∧ configured.part.pts.windows[(0 : Fin 16)].kind ≠ .frameStore ∧
      3 ≤ geo.slotsIn 2147483648 ∧ geo.slotsIn (2 * (geo.slotPages * 4096)) < 3) ∧
    ((without 2 configured).part.missing = some [2] ∧ (without 3 configured).part.missing = some [3] ∧
      (without 4 configured).part.missing = some [4]) ∧
    (∀ k ∈ [((⟨false, true, true, true, true⟩ : Committed), (5 : Word)), (⟨true, false, true, true, true⟩, 6), (⟨true, true, true, true, false⟩, 7)],
      (onCal (fun c => { c with committed := k.1 }) configured).part.missing = some [k.2]) ∧ configured.part.missing = none := by
  decide +kernel

/-- The result of closing a load of these bytes in a state that is ready. -/
def closes (bytes : List Byte) : CloseResult := (closing bytes bytes.length ready).part.closeResult
/-- Two white-balance presets and two columns, the second entry's fields replaced. -/
def twoSections (kind start size : Nat) : List Byte :=
  let front :=
    leBytes 4 0x4B424C31 ++ leBytes 2 1 ++ leBytes 2 2 ++ leBytes 4 80 ++ leBytes 4 0 ++ leBytes 2 7 ++ leBytes 2 0 ++ leBytes 4 48 ++
      leBytes 4 16 ++ leBytes 4 0 ++ leBytes 2 kind ++ leBytes 2 0 ++ leBytes 4 start ++ leBytes 4 size ++ leBytes 4 0 ++ leBytes 4 2 ++
      halvesBytes (List.replicate 6 5000) ++ leBytes 4 2 ++ halvesBytes [3, 9, 0, 0]
  front ++ wordBytes (~~~(crcBytes crcStart front))
def failsWith (r : CloseResult) (code : ResultCode) (data : List Word) : Bool :=
  match r with
  | .failed c d _ => decide (c = code) && decide (d = data)
  | _ => false

/-- R51: each condition of the header and the table at its boundary: a count of 9, 8 entries in 64 bytes, kind 8, the first kind again, a
start one byte into the table, an end one byte into the CRC, sections that share a byte. -/
theorem witness_LoadCloseChecksAndSectionRules :
    ((closing wbBundle 64 ready).part.cal.overrun = false ∧ (closing wbBundle 64 ready).part.cal.pointer = 64) ∧
    (failsWith (closes (overlay wbBundle 0 [0])) .bundleFormat [0] && failsWith (closes (overlay wbBundle 4 [2])) .bundleFormat [1] &&
      failsWith (closes (overlay wbBundle 8 [65])) .bundleFormat [2] && failsWith (closes (overlay wbBundle 6 [0])) .bundleFormat [3] &&
      failsWith (closes (overlay wbBundle 6 [9])) .bundleFormat [3] && failsWith (closes (overlay wbBundle 6 [8])) .bundleFormat [3] &&
      failsWith (closes (overlay wbBundle 16 [0])) .bundleFormat [4, 0] && failsWith (closes (twoSections 8 64 8)) .bundleFormat [4, 1] &&
      failsWith (closes (twoSections 7 64 8)) .bundleFormat [5, 1] && failsWith (closes (twoSections 4 64 0)) .bundleFormat [6, 1] &&
      failsWith (closes (twoSections 4 44 8)) .bundleFormat [6, 1] && failsWith (closes (twoSections 4 72 8)) .bundleFormat [6, 1] &&
      failsWith (closes (twoSections 4 60 8)) .bundleFormat [7, 1]) = true ∧
    (failsWith (closes (bundle 7 (leBytes 4 4 ++ halvesBytes (List.replicate 12 2047)))) .bundleFormat [0, natWord FormatReason.gain.code] &&
      failsWith (closes (twoSections 4 64 7)) .bundleFormat [1, natWord FormatReason.length.code]) = true ∧
    (sectionKindOf 4 = some .columns ∧ sectionKindOf 7 = some .wb) ∧
    (failsWith ((onCal (fun c => { c with committed := ⟨true, true, true, true, true⟩ }) (closing columnBundle 64 ready)).part.closeResult)
      .sectionLocked [0, 4]) = true ∧
    (match (closing columnBundle 64 (holding (shot .developing) ready)).part.closeResult with | .busy d => decide (d = [5, 6, 0]) | _ => false) = true ∧
    (match (closing columnBundle 64 (capturing .flush ready)).part.closeResult with | .busy d => decide (d = [0, 0, 5]) | _ => false) = true ∧
    (match closes (twoSections 4 64 8) with | .commit ss => decide (ss.map (fun x => x.kind) = [.wb, .columns]) | _ => false) = true := by
  decide +kernel

/-- R143: a SKIP_DARK waits for the commit of a dark's burst. -/
theorem witness_DisarmDarkPolicyAndSkipDark_ending :
    let e : Ending := ⟨.cancelled, 3000000, .skip 2 .read, []⟩
    let s := inFlight .skipDark (onDfl (fun d => { d with ending := some e }) (darkWritten (some 96)))
    (s.part.icr.work.map fun x => x.stage) = some .written ∧ s.part.icr.target.isSome = true ∧ s.part.cpa.resetting = none ∧
    s.part.dfl.capture.isSome = true ∧ s.part.dfl.ending = some e ∧ e.after = .skip 2 .read ∧ e.arms = [] ∧
    s.part.cpa.slots[(2 : Fin 8)].cmd = some ⟨some .skipDark, 9, List.replicate 24 0, false, false⟩ ∧ s.part.shot? 5 = some awaiting := by
  decide +kernel

/-- A preview of two rows of two pixels. -/
def twoRows (s : State) : State := onPts (fun p => { p with geometry := some ⟨16, 16, .rggb, 12⟩ }) s
def cached (row : Nat) (s : State) : State :=
  onPart (fun p => { p with prn := { p.prn with cache := some ⟨row, 5, List.replicate 6 1⟩ } }) s
def firstOfTwo : State :=
  onPart
    (fun p => { p with prn := { p.prn with work := some ⟨0, 16, ⟨5, 0, .preset 0⟩, 0, 3, .corrected, [1], [], some rendering, false⟩ } })
    (atHead (rburst 268435456) (some .owned) (viewing (twoRows (holding (shot .developed) ready))))

theorem witness_ViewReadsAndPixelArithmetic_rows :
    (let s := atHead (rburst 268435456) (some (.viewRead 268435456)) (viewing (tiny (holding (shot .developed) (cached 0 ready))));
      s.part.pts.queue = rburst 268435456 :: [] ∧ s.part.prn.selection = some ⟨5, 0, .preset 0⟩ ∧ s.part.cpa.resetting = none ∧
        s.part.shot? 5 = some (shot .developed) ∧ s.part.prn.cache = some ⟨0, 5, List.replicate 6 1⟩ ∧
        (min (0 + 16 * 1) (16 / 8 * (8 / 8) * 3) - 1) / (16 / 8 * 3) = 0) ∧
    ((twoRows ready).part.geo.width / 8 * 3 = 6 ∧ 0 < (min (0 + 16 * 1) (16 / 8 * (16 / 8) * 3) - 1) / 6 ∧
      (shot .developed).state ∈ [.developed, .storing, ShotState.stored] ∧ (shot .developing).state ∉ [.developed, .storing, ShotState.stored]) ∧
    ((firstOfTwo.part.prn.work.map fun x => (x.rendering, x.rows)) = some (some rendering, 1 :: []) ∧
      firstOfTwo.part.shot? 5 = some (shot .developed) ∧ 16 * firstOfTwo.part.geo.width ≤ rendering.source.length) ∧
    ((resettingAs nothingStopped rendered).part.cpa.resetting = some nothingStopped ∧ nothingStopped.prn = false) ∧ 1 < 16 / 8 ∧
    ((∀ g ∈ [((0 : Nat), (16 : Nat)), (16, 64)], g.1 < g.2) ∧ [((0 : Nat), (16 : Nat)), (16, 64)].Pairwise (fun g h => g.2 ≤ h.1)) ∧
    ([((0 : Nat), List.replicate 16 (7 : Byte))].find? (fun b => b.1 == beatOf geo 7 0) = some (beatOf geo 7 0, List.replicate 16 7)) ∧
    63 < (List.replicate 64 (0 : Nat)).length := by decide +kernel
/-- R178: a cached row answers the burst at once, and one in two rows begins the other's rendering. -/
theorem test_cached_rows :
    (after .viewRead
      (atHead (rburst 268435456) (some (.viewRead 268435456)) (viewing (tiny (holding (shot .developed) (cached 0 ready)))))).pts.answer =
      some ⟨true, List.replicate 6 1 ++ List.replicate 10 0⟩ ∧
    (after .rowRendered firstOfTwo).prn.cache = some ⟨0, 5, List.replicate 6 64⟩ ∧
    ((after .rowRendered firstOfTwo).prn.work.bind fun x => x.rendering.map fun r => (r.row, x.got, x.rows)) =
      some (1, [(0, List.replicate 6 64)], []) := by decide +kernel

/-- A run of a READ at its stop command or its last buffer write. -/
def readingRun (ph : RunPhase) (left : List (Nat × List Byte)) : State :=
  onCde (fun c => { c with bufWrites := left }) (running ph none { active with work := .read 100 70 335544320 } ready)
def storeRun (x : Shot) (r : Request) (ph : RunPhase) (source stop : Nat) : State :=
  queued [r]
    (onCde (fun c => { c with run := some ⟨100, 64, ph, none, source, stop, [], [], 0⟩ }) (withCard .ready (holding x ready)))

theorem witness_RunsFollowTheCardExchange_bursts :
    (∀ left ∈ [[], [((335544320 : Nat), [(1 : Byte)])], [(335544320, [1]), (335544576, [2])]],
      (readingRun .stopCommand left).part.cde.bufWrites = left ∧
        ((readingRun .stopCommand left).part.cde.run.map fun r => r.phase) = some .stopCommand ∧
        (readingRun .storing left).part.cde.activeRequest = some { active with work := .read 100 70 335544320 } ∧
        (readingRun .storing left).part.cde.openList = none) ∧
    ((carrying { fetched .cde false with write := true } (readingRun .storing [(335544320, [1])])).part.port.busy =
        some { fetched .cde false with write := true } ∧ (fetched .cde false).who = .internal .cde) ∧
    (let r : Request := { active with cancel := true };
      r.cancel = true ∧ (running .stopBusy none r ready).part.cde.activeRequest = some r ∧ (running .stopBusy none r ready).part.cpa.resetting = none) ∧
    (let s := storeRun (shot .storing) (storing .active) .assemble 1073741824 1073741840;
      s.part.cde.activeRequest = some (storing .active) ∧ (s.part.cde.run.map fun r => (r.phase, r.source, r.sourceEnd)) =
        some (.assemble, (fetched .cde false).addr, (fetched .cde false).addr + 16) ∧ 1073741824 + 15 < 1073741840 ∧
        (storing .active).work = .store 5 [(0, 397497)]) ∧
    (let x : Shot := { shot .storing with arming := { (shot .storing).arming with autoRelease := true } };
      let r : Request := { storing .active with sector := 397440, done := 397440 };
      (storeRun x r .stopBusy 0 0).part.shot? 5 = some x ∧ x.prot = false ∧ (∀ q ∈ [r], q.names 5 = true → q.id = r.id)) ∧
    (ready.part.cpa.mask.getLsbD 12 = true ∧ (ready.part.cpa.producer - ready.part.cpa.consumer).toNat ≠ 64) := by decide +kernel
/-- R197, R203: the last write of a READ's blocks confirms its run; a request marked for cancellation leaves after the run. -/
theorem test_read_run_confirmed :
    ((after .frameBurstEnd (carrying { fetched .cde false with write := true } (readingRun .storing [(335544320, [1])]))).cde.requests.map fun r =>
      (r.done, r.sector)) = [(64, 64)] ∧
    (after .cardBusyEnd (running .stopBusy none { active with cancel := true } ready)).cde.requests = [] := by decide +kernel

/-! ### Allocation, preemption and the ends of captures -/

/-- Every slot held, two library entries unreferenced: the one in slot 4 was used last the longer ago. -/
def stored2 : List Dark := [⟨2, 9, 3000000, some 100, 3, 0, 4, 4⟩, ⟨1, 4, 3000000, some 100, 3, 0, 3, 4⟩, ⟨0, 7, 3000000, some 100, 3, 1, 2, 4⟩]
def full (es : List Dark) (s : State) : State :=
  library es (onPart (fun p => { p with sht := { p.sht with slots := List.replicate 10 (.shot 1) } }) s)
/-- What a part has once a library of these entries has given one up. -/
def leaving (es : List Dark) (s : State) : Part := { s.part with dfl := { s.part.dfl with entries := es } }

theorem witness_givesSlot :
    ready.part.givesSlot 0 ready.part ∧ (full stored2 ready).part.givesSlot 4
      (leaving [⟨2, 9, 3000000, some 100, 3, 0, 4, 4⟩, ⟨0, 7, 3000000, some 100, 3, 1, 2, 4⟩] (full stored2 ready)) ∧
    (full [⟨0, 7, 3000000, some 100, 3, 1, 2, 4⟩] ready).part.givesNoSlot := by
  unfold Part.givesSlot
  decide +kernel

/-- A dark capture in progress, its slot held, shot 5 waiting for it. -/
def waiting (phase : CapturePhase) (s : State) : State :=
  onPart (fun p => { p with sht := { p.sht with slots := p.sht.slots.set 1 .transient } }) (capturing phase (holding awaiting s))
def underBurst (s : State) : State :=
  onIcr
    (fun i => { i with target := some ⟨.dark, 5, 1, .raw, 3, none, 0, []⟩, work := some ⟨0, 16, none, 1, [], none, 0, 0, .written⟩ }) s
/-- The words of an ARM as its slot holds them. -/
def preempting : List Word := padTo 24 0 [0, 3, 0, 0, 0, 0, 1]

theorem witness_ArmingCreatesTheShot_preempting :
    (let s := waiting .flush ready;
      s.part.takes .arm (armWords 0 3 0 0 0 0 1) ∧ s.part.entered .arm = s.part ∧
      (let args := s.part.words (armWords 0 3 0 0 0 0 1);
        args.getD 0 0 = natWord ShotMode.sync.code ∧ args.getD 1 0 = natWord 3 ∧ args.getD 3 0 = natWord StrobePlan.none.code ∧
          (args.getD 6 0).getLsbD 0 = true) ∧
      s.part.dfl.capture = some ⟨5, 1, 3000000, 3, some 100, none, .flush, some 0⟩ ∧ s.part.dfl.ending = none ∧
      s.part.shot? 5 = some awaiting ∧ s.part.sht.counter = 6 ∧ s.part.shot? 6 = none ∧ (∀ y ∈ s.part.sht.records, y.state.live = false) ∧
      s.part.tsm.temp ≠ .critical ∧ (s.part.sht.slots.set 1 .free)[1]? = some .free ∧
      (∀ j < 1, (s.part.sht.slots.set 1 Holder.free)[j]? ≠ some .free)) ∧
    ((waiting .read ready).part.icr.work = none ∧ (underBurst (waiting .read ready)).part.icr.work.isSome = true ∧
      (underBurst (waiting .read ready)).part.dfl.ending = none) ∧
    (let e : Ending := ⟨.preempted, 3000000, .arm 2 preempting, []⟩;
      let s := onDfl (fun d => { d with ending := some e }) (underBurst (waiting .read (inFlight .arm ready)));
      s.part.icr.work = some ⟨0, 16, none, 1, [], none, 0, 0, .written⟩ ∧ s.part.icr.target = some ⟨.dark, 5, 1, .raw, 3, none, 0, []⟩ ∧
        s.part.cpa.resetting = none ∧ s.part.dfl.ending = some e ∧ preempting.getD 1 0 = natWord 3 ∧
        s.part.cpa.slots[(2 : Fin 8)].cmd = some ⟨some .arm, 9, List.replicate 24 0, false, false⟩) := by decide +kernel
/-- R60, R115: with no slot FREE the shot takes that of the entry used the longest ago, which leaves the library; R88, R123: a capture
ends PREEMPTED and the new shot takes the dark's slot. -/
theorem test_arm_evicts_and_preempts :
    (let p := after (.arm (armWords 0 3 0 0 0 0 0)) (full stored2 ready);
      p.sht.slots[4]? = some (.shot 1) ∧ p.dfl.entries.map (fun e => e.id) = [2, 0] ∧ (p.sht.records.map fun x => x.slot) = [4]) ∧
    (let p := after (.arm (armWords 0 3 0 0 0 0 1)) (waiting .integrate ready);
      (p.sht.records.map fun x => (x.number, x.slot, x.state)) = [(5, 0, .developing), (6, 1, .arming)] ∧ p.dfl.capture = none ∧
        (p.shot? 5).map (fun x => x.progress.dark) = some (some (.skipped .preempted)) ∧ p.esu.seq = .shotFlush) := by decide +kernel

theorem witness_ArmIsRefusedByItsChecks_preempting :
    (let s := onTsm (fun t => { t with temp := .critical }) (waiting .flush ready);
      s.part.takes .arm (armWords 0 3 0 0 0 0 1) ∧ s.part.currentShot = none ∧ s.part.tsm.temp = .critical ∧ s.part.dfl.capture.isSome = true ∧
        ((s.part.words (armWords 0 3 0 0 0 0 1)).getD 6 0).getLsbD 0 = true) ∧
    (let s := onTsm (fun t => { t with supply := .low }) (waiting .flush ready);
      s.part.tsm.temp ≠ .critical ∧ s.part.tsm.supply = .low ∧ (s.part.words (armWords 1 3 60000001 0 0 0 1)).getD 0 0 = 1 ∧
        60000000 < ((s.part.words (armWords 1 3 60000001 0 0 0 1)).getD 2 0).toNat) := by decide +kernel

/-! ### Windows and geometry refused -/

theorem witness_SetWindowReplacesOrRefuses_absent :
    (let s := onPart (fun p => { p with sht := { p.sht with layout := some ⟨1073741824, 203513856⟩ } }) service;
      s.part.takes .setWindow (windowWords 1 1 0 0 0) ∧ s.part.sht.layout.isSome = true ∧ s.part.pts.windows[(1 : Fin 16)].kind = .frameStore ∧
        s.part.pts.windows[(1 : Fin 16)].present = true ∧ s.part.windowBusy ⟨1, none⟩ = some 0) ∧
    (let s := target .raw none configured;
      s.part.takes .setWindow (windowWords 2 1 0 0 0) ∧ s.part.icr.target.isSome = true ∧ s.part.pts.windows[(2 : Fin 16)].kind = .ingest ∧
        s.part.windowBusy ⟨2, none⟩ = some 1) ∧
    (let s := loading configured;
      s.part.takes .setWindow (windowWords 4 1 0 0 0) ∧ s.part.cal.session ≠ .none ∧ s.part.pts.windows[(4 : Fin 16)].kind = .bundle ∧
        s.part.windowBusy ⟨4, none⟩ = some 2) ∧ ((4 : Fin 16) ≠ 0) := by decide +kernel
/-- R10: an ABSENT request that meets a live state is refused BUSY with its number. -/
theorem test_window_absent_busy :
    (after (.setWindow (windowWords 4 1 0 0 0)) (loading configured)).cpa.writes = [.resultData 2 (padTo 24 0 [2]) .refused .busy] := by decide +kernel

theorem witness_SetGeometryChecksTheWindows_badArg :
    (∀ g ∈ [geometryWords 2032 1536 0 12, geometryWords 12304 1536 0 12, geometryWords 2056 1536 0 12, geometryWords 2048 1528 0 12,
        geometryWords 2048 9224 0 12, geometryWords 2048 1540 0 12, geometryWords 2048 1536 4 12, geometryWords 2048 1536 3 13],
      configured.part.takes .setGeometry g) ∧ configured.part.sht.layout = none ∧
    (((configured.part.words (geometryWords 2048 1536 4 13)).getD 2 0).toNat = 4 ∧
      ((configured.part.words (geometryWords 2048 1536 3 13)).getD 3 0).toNat = 13) := by decide +kernel
/-- R11: W one step below its range, H not a multiple of 8, a phase of 4, a depth of 13. -/
theorem test_geometry_bad_arguments :
    ([geometryWords 2032 1540 4 13, geometryWords 2048 1540 4 13, geometryWords 2048 1536 4 13, geometryWords 2048 1536 3 13].map fun g =>
      (after (.setGeometry g) configured).cpa.writes) =
    ([0, 1, 2, 3].map fun k => [.resultData 2 (padTo 24 0 [k]) .refused .badArg]) := by decide +kernel

/-! ### The card -/

def aborting (b : Bringup) : Bringup := { b with aborting := true }

theorem witness_BringUpFollowsItsSteps_aborted :
    (let s := atTime 100000 (bringing (aborting (asked .select)) ready);
      s.part.cde.bringup = some (aborting (asked .select)) ∧ (aborting (asked .select)).aborting = true ∧
        (aborting (asked .select)).response = some ⟨0, 100000⟩ ∧ (Timer.mk 0 100000).due s.part.clock.time = true) ∧
    (let b : Bringup := ⟨2, .reset, some ⟨0, 1000⟩, none, none, 0, true⟩;
      (atTime 1000 (bringing b ready)).part.cde.bringup = some b ∧ (Timer.mk 0 1000).due (atTime 1000 ready).part.clock.time = true) ∧
    (let b : Bringup := ⟨2, .query, some ⟨0, 10000⟩, some ⟨0, 100000⟩, some ⟨0, 1000000⟩, 0, true⟩;
      (atTime 1000000 (bringing b ready)).part.cde.bringup = some b ∧ (Timer.mk 0 1000000).due (atTime 1000000 ready).part.clock.time = true) ∧
    (bringing (asked .blockLength) ready).part.cde.bringup = some (asked .blockLength) := by decide +kernel
/-- R187: the aborted bring-up leaves the card PRESENT, and CARD_INIT ends with the step reached. -/
theorem test_aborted_bring_up :
    let p := after (.cardResponse .bad) (bringing (aborting (asked .select)) ready)
    p.cde.card = .present ∧ p.cde.bringup = none ∧ p.cpa.writes.getLast? = some (.resultData 2 (padTo 24 0 [4]) .failed .aborted) := by decide +kernel

/-- The first failing extent: empty, past the last sector by one, sharing its first or last sector with an earlier one. -/
theorem witness_StoreChecksItsListAndJoinsTheQueue_extents :
    (let es : List (Nat × Nat) := [(100, 10), (109, 1), (50, 0)];
      es[1]? = some (109, 1) ∧ (109 < 100 + 10 ∧ 100 < 109 + 1) ∧ (0 < 10 ∧ 100 + 10 ≤ 4294967296)) ∧
    ([((4294967295 : Nat), (2 : Nat))][0]? = some (4294967295, 2) ∧ ¬(4294967295 + 2 ≤ 4294967296) ∧ ¬(0 < 0)) ∧
    (let es : List (Nat × Nat) := [(1000, 397496), (999999, 1)];
      let p := (withCard .ready ready).part;
      es[1]? = some (999999, 1) ∧ (∀ a ∈ es, 0 < a.2 ∧ a.1 + a.2 ≤ 4294967296) ∧ es.Pairwise (fun a b => a.1 + a.2 ≤ b.1 ∨ b.1 + b.2 ≤ a.1) ∧
        (es.map Prod.snd).sum = 8 + (p.geo.width * p.geo.height * 2 + 511) / 512 + 1 ∧ p.cde.card = .ready ∧
        ({ p.cde with capacity := some 999999 }.capacity.getD 0 < 999999 + 1 ∧ 1000 + 397496 ≤ 999999) ∧
        p.extentsUnfit es = none) ∧
    (reading (listed [(0, 397497)]) (holding (shot .stored) (withCard .ready ready))).part.extentsUnfit [(0, 397497)] = none := by decide +kernel
/-- R190 checks 6 and 7. -/
theorem test_extents_unfit :
    (let p := (withCard .ready ready).part;
      p.extentsUnfit [(100, 10), (109, 1)] = some (.badExtents, [1, 0, 0]) ∧ p.extentsUnfit [(100, 10), (110, 0)] = some (.badExtents, [1, 0, 0]) ∧
        p.extentsUnfit [(4294967295, 2)] = some (.badExtents, [0, 0, 0]) ∧
        { p with cde := { p.cde with capacity := some 397500 } }.extentsUnfit [(0, 397496), (397500, 1)] = some (.outOfRange, [1, 397500, 0])) := by
  decide +kernel

/-- A transfer and a STORE, both QUEUED, the STORE first. -/
def storeThenWrite : List Request := [{ storing .queued with id := 3, arrival := 1 }, { transferring .queued with arrival := 2 }]
def choosingBy (policy : CardPolicy) (last : CardClass) (rs : List Request) : State :=
  queued rs (onCde (fun c => { c with policy := policy, lastClass := last }) (withCard .ready (holding (shot .developed) ready)))

theorem witness_TransfersJoinTheQueue_choice :
    ((choosingBy .fixed .transfer storeThenWrite).part.cardQueueInOrder ∧ (choosingBy .fixed .transfer storeThenWrite).part.cde.card = .ready ∧
      (choosingBy .fixed .transfer storeThenWrite).part.cpa.resetting = none ∧
      (∀ x ∈ storeThenWrite, x.state ≠ .halted ∧ x.state ≠ .active ∧ x.state = .queued)) ∧
    ((choosingBy .rotating .transfer storeThenWrite).part.cde.policy = .rotating ∧
      (choosingBy .rotating .transfer storeThenWrite).part.cde.lastClass = .transfer ∧
      (choosingBy .rotating .shot storeThenWrite).part.cde.lastClass = .shot) ∧
    ((queued [haltedBy .dataCrc] (withCard .ready ready)).part.cde.requests = [haltedBy .dataCrc] ∧ (haltedBy .dataCrc).state = .halted ∧
      ready.part.cde.card ≠ .ready ∧ (∀ r ∈ [storing .waiting], r.state ≠ .queued)) ∧
    (∀ r ∈ storeThenWrite, (storeThenWrite.filter fun x => decide (x.id = r.id)) = [r] ∧ (∀ e ∈ r.work.extents, e.1 + e.2 ≤ 1000000)) ∧
    ((∃ e ∈ (transferring .queued).work.extents, 169 < e.1 + e.2) ∧ (∀ e ∈ (transferring .queued).work.extents, e.1 + e.2 ≤ 170)) ∧
    (choosingBy .fixed .shot storeThenWrite).part.shot? 5 = some (shot .developed) ∧ (storing .queued).header = none ∧
    ({ storing .queued with header := some [1] }).header.isSome = true := by decide +kernel
/-- R193: FIXED and ROTATING after a STORE take the transfer, ROTATING after a transfer the STORE, which enters STORING (R194). -/
theorem test_choice :
    ([choosingBy .fixed .transfer storeThenWrite, choosingBy .rotating .shot storeThenWrite, choosingBy .rotating .transfer storeThenWrite].map
      fun s => (s.part.choose.cde.requests.map fun r => (r.state, r.header.map List.length))) =
      [[(.queued, none), (.active, none)], [(.queued, none), (.active, none)], [(.active, some 4096), (.queued, none)]] ∧
    ((choosingBy .rotating .transfer storeThenWrite).part.choose.sht.records.map fun x => x.state) = [.storing] := by decide +kernel
/-- R194, R201: a transfer that does not lie below the capacity halts OUT_OF_RANGE. -/
theorem test_activation_out_of_range :
    let p := (onCde (fun c => { c with capacity := some 169 }) (choosingBy .fixed .shot storeThenWrite)).part.choose
    (p.cde.requests.map fun r => (r.state, r.cause)) = [(.queued, none), (.halted, some .outOfRange)] ∧ p.cde.run = none := by decide +kernel

theorem witness_CancelAndResume_queued :
    (let s := queued [{ transferring .queued with id := 6, arrival := 0 }, { transferring .queued with arrival := 1 }] (withCard .ready ready);
      s.part.takes .cardCancel (w [7]) ∧
        (s.part.cde.requests.find? fun r => decide (r.id = 7)) = some { transferring .queued with arrival := 1 } ∧
        (transferring .queued).work.isStore = false) ∧
    (let s := queued [haltedBy .dataCrc, { transferring .queued with id := 8, arrival := 1 }] (withCard .ready ready);
      (s.part.cde.requests.find? fun r => decide (r.id = 7)) = some (haltedBy .dataCrc) ∧ (haltedBy .dataCrc).state ≠ .active ∧
        s.part.takes .cardResume (w []) ∧ s.part.cde.halted = some (haltedBy .dataCrc) ∧ s.part.cde.card = .ready) := by decide +kernel
/-- R203, R192: with the HALTED request cancelled the queue goes on. -/
theorem test_cancel_halted :
    (after (.cardCancel (w [7])) (queued [haltedBy .dataCrc, { transferring .queued with id := 8, arrival := 1 }] (withCard .ready ready))).cde.requests.map
      (fun r => (r.id, r.state)) = [(8, .active)] := by decide +kernel

theorem witness_CardAndSupplyChangesAreAccepted_cancelled :
    let s := detecting true (running .startCommand none { active with cancel := true } ready)
    s.part.cde.activeRequest = some { active with cancel := true } ∧ s.part.cde.bringup = none ∧ s.part.cpa.resetting = none ∧
      s.part.cde.seated = true ∧ active.work.isStore = false := by decide +kernel
/-- R183, R203: a removal ends a request marked for cancellation. -/
theorem test_removal_cancels :
    (after .cardRemoval (detecting true (running .startCommand none { active with cancel := true } ready))).cde.requests = [] := by decide +kernel

/-! ### Exposures and darks -/

theorem witness_PulsesEndAndFlushEndStartsIntegration_guard :
    let s := onEsu (fun e => { e with active := { e.active with guard := 0 } }) (flushed (early (shot .arming)) ready)
    s.part.esu.flushTimer = some ⟨0, 2000⟩ ∧ (Timer.mk 0 2000).due s.part.clock.time = true ∧ s.part.currentShot = some (early (shot .arming)) ∧
      (early (shot .arming)).exposure.early = true ∧ s.part.esu.contact = false ∧ s.part.esu.active.guard = 0 := by decide +kernel
/-- R90, R93: with a guard of 0 the shot is read as its flush ends. -/
theorem test_flush_guard_zero :
    (after .flushEnd (onEsu (fun e => { e with active := { e.active with guard := 0 } }) (flushed (early (shot .arming)) ready))).sht.records.map
      (fun x => (x.state, x.exposure.integTime, x.exposure.measured)) = [(.reading, some 0, some 0)] := by decide +kernel

theorem witness_IntegrationEndsInReadingOrMissed_request :
    let s := queued [storing .waiting] (atTime 5000000 (onEsu (fun e => { e with armTimer := some ⟨0, 5000000⟩ }) (integrating (shot .armed) ready)))
    s.part.currentShot = some (shot .armed) ∧ s.part.shot? 5 = some (shot .armed) ∧ s.part.requestFor 5 = some (storing .waiting) ∧
      (Timer.mk 0 5000000).due s.part.clock.time = true ∧ (shot .armed).progress.dark = none ∧ ready.part.requestFor 5 = none := by decide +kernel
/-- R92, R67, R68: SHOT_MISSED, CARD_REQUEST_DONE and SLOT_RELEASED, in this order (log entry 38). -/
theorem test_missed_with_request :
    let s := queued [storing .waiting] (atTime 5000000 (onEsu (fun e => { e with armTimer := some ⟨0, 5000000⟩ }) (integrating (shot .armed) ready)))
    let p := after .armWindowExpiry s
    p.cde.requests = [] ∧ p.sht.records = [] ∧ (p.cpa.writes.length, p.cpa.events.map fun e => e.2.kind) = (2, [.cardRequestDone, .slotReleased]) := by
  decide +kernel

/-- The keys of R118 at their ties: times 1 apart on either side of the shot's, and stamps 1 apart. -/
theorem witness_DarkDecisionFollowsItsTable_keys :
    let e (id td stamp : Nat) (temp : Int) : Dark := ⟨id, id, td, some temp, 3, 0, natWord stamp, 1⟩
    let s := library [e 0 3000001 9 96, e 1 2999999 10 104, e 2 6000000 11 104, e 3 6000001 12 100] ready
    (s.part.dfl.policy.mode ≠ .off ∧ s.part.dfl.policy.threshold * 1000000 ≤ 3000000) ∧
    (∀ x ∈ s.part.dfl.entries.take 3, x.gain = 3 ∧ x.td ≤ 2 * 3000000 ∧ 3000000 ≤ 2 * x.td) ∧ ¬((e 3 6000001 12 100).td ≤ 2 * 3000000) ∧
    ((s.part.darkDecision 3 3000000 (some 100)).entry.map fun x => x.id) = some 1 ∧
    (s.part.cal.tables.darkTemp.getD []).length = 17 := by decide +kernel
/-- R116 by hand: T_s = 2 s, T_d = 3 s, F = 16384: the ratio is 10923 16384ths, and K the same; at twice the time and 32767 K is 65534. -/
theorem test_scale_of_unequal_times :
    scaleFactor (List.replicate 17 16384) 2000000 3000000 0 = 10923 ∧ scaleFactor (List.replicate 17 32767) 6000000 3000000 (-8) = 65534 := by
  decide

theorem witness_IngestBurstsFollowTheirCases_dark :
    (rows 64 (darkTarget 32)).part.pts.queue = wburst (16777216 + 64) :: [] ∧
    (rows 64 (darkTarget 32)).part.icr.target = some ⟨.dark, 5, 1, .inline, 3, some ⟨3, 3, 16384⟩, 32, []⟩ ∧
    (64 < 203513856 ∧ 32 < min (64 + 16 * 1) 203513856 ∧ min (16 + 16 * 1) 203513856 ≤ 32) := by decide +kernel

/-- A RAW readout whose deadline is reached. -/
def rawEnding (x : Shot) (s : State) : State := atTime 3000000 (target .raw none (holding x s))
def cancelled : Shot := { shot .reading with progress := { (shot .reading).progress with dark := some (.skipped .cancelled) } }
theorem witness_IngestCommitsAndReadoutsEnd_dark :
    ((rawEnding cancelled ready).part.shot? 5 = some cancelled ∧ cancelled.progress.dark = some (.skipped .cancelled)) ∧
    ((rawEnding toCapture ready).part.shot? 5 = some toCapture ∧ toCapture.progress.dark = some (.capture .capturing none) ∧
      (rawEnding toCapture ready).part.tsm.supply = .normal ∧ (rawEnding toCapture ready).part.dfl.capture = none) ∧
    (rawEnding toCapture (onTsm (fun t => { t with supply := .low }) ready)).part.tsm.supply = .low ∧
    ((∀ h ∈ (rawEnding toCapture (full [] ready)).part.sht.slots, h ≠ .free) ∧ (rawEnding toCapture (full [] ready)).part.dfl.entries = []) ∧
    ((∀ h ∈ (rawEnding toCapture (full stored2 ready)).part.sht.slots, h ≠ .free) ∧
      (rawEnding toCapture (full stored2 ready)).part.dfl.entries = stored2) := by decide +kernel
/-- R120: LOW_SUPPLY and NO_SLOT; and the capture in an evicted entry's slot. -/
theorem test_capture_start :
    ([onTsm (fun t => { t with supply := .low }) ready, full [] ready].map fun s =>
      (after .readoutTimeout (rawEnding toCapture s)).sht.records.map fun x => (x.state, x.progress.dark)) =
      [[(.developing, some (.skipped .lowSupply))], [(.developing, some (.skipped .noSlot))]] ∧
    ((after .readoutTimeout (rawEnding toCapture (full stored2 ready))).dfl.capture.map fun c => c.slot) = some 4 := by decide +kernel

/-- A pass about to end, of a shot that names a dark. -/
def endsWith (d : DarkSource) (s : State) : State :=
  onPart (fun p => { p with dpe := ⟨[5], some (pass 4 [])⟩ })
    (holding { shot .developing with progress := { (shot .developing).progress with dark := some d } } s)
theorem witness_PassStagesEnd_darks :
    ((library [entry 0 3 2] ready).part.dfl.entries.find? (fun e => decide (e.id = 0)) = some (entry 0 3 2) ∧ 2 ≤ (entry 0 3 2).refs) ∧
    ((library [entry 0 3 1, entry 1 4 1] ready).part.dfl.entries.length ≤ ready.part.dfl.policy.size) ∧
    ((library [entry 0 3 1, entry 1 4 1, entry 2 5 1] ready).part.dfl.policy.size < 3 ∧ (entry 0 3 1).refs ≤ 1) ∧
    ((onDfl (fun d => { d with transients := [{ entry 0 3 1 with origin := 5 }] }) ready).part.dfl.transients.find?
      (fun e => decide (e.origin = 5))) = some { entry 0 3 1 with origin := 5 } ∧
    ((queued [storing .waiting] (endsWith (.library 0 16384) ready)).part.requestFor 5 = some (storing .waiting) ∧
      (queued [storing .waiting] (endsWith (.library 0 16384) ready)).part.dpe.queue = [5]) := by decide +kernel
/-- R114, R111: the last reference to an entry beyond the library's size frees its slot; R192: the WAITING STORE starts. -/
theorem test_pass_end_darks :
    (let p := after .passEnd (endsWith (.library 0 16384) (library [entry 0 3 1, entry 1 4 1, entry 2 5 1] ready));
      p.dfl.entries.map (fun e => e.id) = [1, 2] ∧ p.sht.slots[3]? = some .free) ∧
    (after .passEnd (queued [storing .waiting] (endsWith (.library 0 16384) (withCard .ready ready)))).cde.requests.map (fun r => r.state) =
      [.active] := by decide +kernel

theorem witness_EveryStepKeepsTheQueuesBounded_order :
    (choosingBy .fixed .shot storeThenWrite).meets Part.cardQueueInOrder ∧ State.reset.meets Part.cardQueueInOrder := by decide +kernel

/-! ### A dark capture in READ, ended in each way (R123, R143) -/

def whileWorking (s : State) : State := onIcr (fun i => { i with work := some ⟨0, 16, none, 1, [], none, 0, 0, .needWrite⟩ }) s
def ends (reason : DarkReason) (then_ : After) (s : State) : State := onDfl (fun d => { d with ending := some ⟨reason, 3000000, then_, []⟩ }) s
/-- The capture of shot 5 in READ, a burst under way, a RELEASE of the shot accepted in slot 4. -/
def releasePending : State := ends .cancelled (.release 4 5) (whileWorking (capturing .read (holding awaiting ready)))

theorem witness_ReleaseRemovesTheShot_read :
    (let s := capturing .read (holding awaiting ready);
      s.part.shot? 5 = some awaiting ∧ s.part.dfl.ending = none ∧ s.part.icr.work = none ∧ awaiting.prot = false ∧
        s.part.requestFor 5 = none ∧ awaiting.state = .awaitDark ∧ awaiting.progress.dark = some (.capture .capturing none) ∧
        (whileWorking s).part.icr.work.isSome = true ∧ (whileWorking s).part.dfl.ending = none) ∧
    ((∃ e m, (releasePending.part.entered .release).dfl.ending = some e ∧ e.after = .release m 5) ∧ releasePending.part.shot? 5 = some awaiting) ∧
    ((ends .disturbed .nothing releasePending).part.dfl.ending.isSome = true ∧
      ∀ e m, (ends .disturbed .nothing releasePending).part.dfl.ending = some e → e.after ≠ .release m 5) ∧
    ((holding awaiting ready).part.dfl.capture = none ∧ (holding awaiting ready).part.dfl.ending = none) := by
  refine ⟨by decide +kernel, ⟨⟨_, _, rfl, rfl⟩, by decide +kernel⟩, ⟨rfl, ?_⟩, by decide +kernel⟩
  intro e m h; cases h; exact fun h => nomatch h
theorem witness_ReleaseRemovesTheShot_commit :
    let e : Ending := ⟨.cancelled, 3000000, .release 2 5, []⟩
    let s := inFlight .release (onDfl (fun d => { d with ending := some e }) (darkWritten (some 96)))
    (s.part.icr.work.map fun x => x.stage) = some .written ∧ (s.part.icr.target.map fun g => g.kind) = some .dark ∧
    s.part.cpa.resetting = none ∧ s.part.dfl.capture.isSome = true ∧ s.part.dfl.ending = some e ∧ e.after = .release 2 5 ∧ e.arms = [] ∧
    s.part.cpa.slots[(2 : Fin 8)].cmd = some ⟨some .release, 9, List.replicate 24 0, false, false⟩ ∧ s.part.shot? 5 = some awaiting ∧
    awaiting.state = .awaitDark ∧ awaiting.progress.dark = some (.capture .capturing none) ∧ awaiting.prot = false ∧
    s.part.requestFor 5 = none := by decide +kernel
/-- R123: the record stands until the burst has been committed, and RESET_SHOTS taken before that counts it. -/
theorem test_release_in_read :
    (after (.release (w [5])) (whileWorking (capturing .read (holding awaiting ready)))).sht.records = [awaiting] ∧
    (after .ingestCommit (ends .cancelled (.release 2 5) (inFlight .release (darkWritten (some 96))))).sht.records = [] ∧
    ((after (.resetShots ⟨1, 9, []⟩) releasePending).sht.records.length, (after (.resetShots ⟨1, 9, []⟩) releasePending).dfl.ending) = (1, none) := by
  decide +kernel
theorem witness_ProtectAndUnprotect_leaving :
    releasePending.part.takes .protect (w [5]) ∧ releasePending.part.takes .unprotect (w [5]) ∧
    (∃ e m, (releasePending.part.entered .protect).dfl.ending = some e ∧ e.after = .release m 5) ∧
    ∀ e m, (holding (shot .armed) ready).part.dfl.ending = some e → e.after ≠ .release m 5 :=
  ⟨by decide +kernel, by decide +kernel, ⟨_, _, rfl, rfl⟩, fun _ _ h => nomatch h⟩
/-- R69: PROTECT of a shot that an accepted RELEASE is about to remove. -/
theorem test_protect_of_a_releasing_shot :
    (after (.protect (w [5])) releasePending).cpa.writes = [.resultData 2 (padTo 24 0 []) .refused .notFound] := by decide +kernel
theorem witness_StoreChecksItsListAndJoinsTheQueue_leaving :
    let l := listed [(0, 397497)]
    let s := reading l releasePending
    s.part.cde.listReads = l :: [] ∧ (8 * l.count + 15) / 16 * 16 ≤ l.got.length ∧ s.part.cpa.resetting = none ∧
      s.part.cde.requests.length < 16 ∧ (∃ e m, s.part.dfl.ending = some e ∧ e.after = .release m l.shot) ∧
      (8 * 1 + 15) / 16 * 16 = 16 ∧ (8 * 2 + 15) / 16 * 16 = 16 ∧ (8 * 3 + 15) / 16 * 16 = 32 :=
  ⟨rfl, by decide +kernel, rfl, by decide +kernel, ⟨_, _, rfl, rfl⟩, rfl, rfl, rfl⟩

theorem witness_EdgesActOnTheShot_dark :
    (let s := edge false (onEsu (fun e => { e with seq := .darkRead }) (capturing .read (holding awaiting ready)));
      s.part.esu.seq = .darkRead ∧ (!s.part.esu.contact) = true ∧ s.part.dfl.capture.isSome = true ∧ s.part.dfl.ending = none ∧
        s.part.shot? 5 = some awaiting ∧ s.part.icr.work = none ∧ (whileWorking s).part.icr.work.isSome = true) ∧
    (let s := ends .disturbed .nothing (darkWritten (some 96));
      (s.part.icr.work.map fun x => x.stage) = some .written ∧ (s.part.icr.target.map fun g => g.kind) = some .dark ∧
        s.part.cpa.resetting = none ∧ s.part.dfl.capture.isSome = true ∧
        s.part.dfl.ending = some ⟨.disturbed, 3000000, .nothing, []⟩ ∧ s.part.shot? 5 = some awaiting) := by decide +kernel
theorem witness_CardAndSupplyChangesAreAccepted_supply :
    (let x := since 1 (shot .exposing);
      let s := supplyMoved 60000000 (integrating x ready);
      s.part.tsm.supply = .normal ∧ s.part.currentShot = some x ∧ x.exposure.integStart = some 1 ∧ s.part.dfl.capture = none ∧
        ((Timer.mk 59990000 10000).expiry - 1).toNat < 60000000) ∧
    (let x := since 0 (shot .armed);
      let s := supplyMoved 60000000 (integrating x ready);
      s.part.esu.seq = .shotIntegrate ∧ s.part.currentShot = some x ∧ s.part.shot? x.number = some x ∧ x.state = .armed ∧
        x.progress.dark = none ∧ s.part.requestFor x.number = none ∧ x.exposure.integStart = some 0 ∧
        60000000 ≤ ((Timer.mk 59990000 10000).expiry - 0).toNat) ∧
    (let s := supplyMoved 60000000 (capturing .read (holding awaiting ready));
      s.part.currentShot = none ∧ s.part.dfl.capture.isSome = true ∧ s.part.dfl.ending = none ∧ s.part.shot? 5 = some awaiting ∧
        s.part.icr.work = none ∧ (whileWorking s).part.icr.work.isSome = true) := by decide +kernel
/-- R98: a shot that stands ARMED for 60 s is missed at the change. -/
theorem test_supply_low_misses :
    (after .supplyState (supplyMoved 60000000 (integrating (since 0 (shot .armed)) ready))).sht.records = [] := by decide +kernel

/-! ### Statements widened: labels of work, tables, the picture, runs of pixels, repairs, the next pass -/

theorem witness_DisarmDarkPolicyAndSkipDark_work :
    (let s := capturing .flush (holding awaiting ready);
      s.part.sht.records.find? (fun r => r.state.inCorrection) = some awaiting ∧ s.part.dfl.capture.isSome = true ∧
        ∀ c, s.part.dfl.capture = some c → awaiting.number.toNat ≤ c.shot.toNat) ∧
    (let x := { shot .developing with number := 6 };
      let s := capturing .flush (holding x ready);
      s.part.sht.records.find? (fun r => r.state.inCorrection) = some x ∧ ∀ c, s.part.dfl.capture = some c → c.shot.toNat < x.number.toNat) := by
  refine ⟨⟨by decide +kernel, rfl, ?_⟩, by decide +kernel, ?_⟩ <;> · intro c h; cases h; decide
/-- R54, R215: a word each for the shot, its state and the dark capture. -/
theorem test_correction_work :
    (capturing .flush (holding awaiting ready)).part.correctionWork = some [5, 5, 0] ∧
    (capturing .flush ready).part.correctionWork = some [0, 0, 5] := by decide +kernel

def bundleOfKind (k : Nat) : List Byte :=
  bundle k
    (match k with
      | 1 => halvesBytes ((List.range 8).flatMap fun g => [100 + g, 9000 + g])
      | 3 => leBytes 4 2 ++ halvesBytes [3, 4, 11647, 8735]
      | 4 => leBytes 4 2 ++ halvesBytes [0, 11647]
      | 5 => halvesBytes ((List.range 17).map fun i => 16384 + i)
      | _ => leBytes 4 1 ++ halvesBytes [2048, 4096, 16383])
def commits (k : Nat) : Bool :=
  match (onPart (fun p => { p with cpa := { p.cpa with mode := .service } })
    (closing (bundleOfKind k) (bundleOfKind k).length ready)).part.closeResult with
  | .commit ss => decide (ss.map (fun x => some x.kind) = [sectionKindOf k])
  | _ => false
theorem witness_LoadChecksCommitOrLeaveTheTables_kinds : ([1, 3, 4, 5, 7].all commits) = true ∧
    sectionFault (some geo) .gainGrid (halvesBytes (List.replicate 3072 4096)) = none ∧
    sectionFault (some geo) .tone (leBytes 4 1 ++ List.replicate 1024 7) = none := by decide +kernel
/-- R219: presets hold R, G and B in order; a list of defects x, then y. -/
theorem test_tables_in_order :
    (ready.part.cal.tables.replace .wb (leBytes 4 1 ++ halvesBytes [2048, 4096, 16383])).wb = [(2048, 4096, 16383)] ∧
    (ready.part.cal.tables.replace .defects (leBytes 4 2 ++ halvesBytes [3, 4, 11647, 8735])).defects = [(3, 4), (11647, 8735)] := by
  decide +kernel

theorem witness_SetSyncAndSnapshot_picture :
    ready.part.takes .snapshot (w []) ∧ ready.part.esu.seq = .idle ∧
    (let x := { shot .exposing with exposure := { (shot .exposing).exposure with integStart := some 100 } };
      let s := onEsu (fun e => { e with seq := .shotIntegrate, integLine := true }) (holding x ready);
      s.part.currentShot = some x ∧ s.part.esu.integLine = true ∧ s.part.esu.seq = .shotIntegrate ∧ x.exposure.integStart = some 100 ∧
        (onEsu (fun e => { e with seq := .shotFlush }) (holding (shot .arming) ready)).part.esu.integLine = false) ∧
    (let s := onEsu (fun e => { e with seq := .darkIntegrate, integLine := true }) (capturing .integrate (holding awaiting ready));
      (s.part.dfl.capture.map fun c => (c.shot, c.integStart)) = some (5, some 0) ∧ s.part.shot? 5 = some awaiting ∧
        s.part.esu.seq ∈ [.darkFlush, .darkIntegrate, Seq.darkRead]) := by decide +kernel
/-- R104: the last four of five edges, oldest first, then the list's length. -/
theorem test_snapshot_edges :
    let edges : List Edge := (List.range 5).map fun i => ⟨natWord (10 * i), decide (i % 2 = 0)⟩
    let x := { shot .reading with exposure := { (shot .reading).exposure with edges := edges } }
    (onEsu (fun e => { e with seq := .shotRead }) (holding x ready)).part.snapshot =
      [0, 3, 5, 4, 0, 1, 10, 0, 20, 1, 30, 0, 40, 1, 5, 0, 0] := by decide +kernel

theorem witness_PixelsAreCorrected_runs :
    (List.replicate 32 (1 : Byte)).length % 2 = 0 ∧ ([] : List Byte).length % 2 = 0 ∧
    (List.replicate 32 (2 : Byte)).length = (List.replicate 32 (1 : Byte)).length ∧
    ready.part.cal.tables.blackSat = some (List.replicate 8 (256, 16000)) ∧
    (List.replicate 8 ((256 : Nat), (16000 : Nat)))[7]? = some (256, 16000) ∧ (List.replicate 8 ((256 : Nat), (16000 : Nat)))[0]? = some (256, 16000) := by
  decide +kernel
/-- R144, R145: two pixels of the last zone column and the first of the next row take the gains of their own zones and channels. -/
theorem test_corrected_run :
    (correctBytes ⟨16, 24, .rggb, 12⟩ ((List.range 3072).map fun i => 4096 + 4096 * (i % 2)) ⟨0, 60000, 0, 0, 0⟩ 28
        (halvesBytes [10, 10, 10, 60000]) none).bytes = halvesBytes [10, 20, 10, 65535] := by decide +kernel
theorem witness_DevelopmentArithmetic_repairs :
    0 < geo.height ∧ [0, 11647][1]? = some 11647 ∧ 8735 < geo.height ∧ [((3 : Nat), (4 : Nat))][0]? = some (3, 4) := by decide +kernel
/-- R158 to R160: a column at the edge takes its one neighbour; a single with a listed neighbour on each side its vertical pair. -/
theorem test_repair_neighbours :
    columnRepair geo ⟨[0], []⟩ 0 7 = ⟨0, 7, [(2, 7)]⟩ ∧
    singleRepair geo ⟨[8], [(10, 5), (12, 5)]⟩ 10 5 = ⟨10, 5, [(10, 3), (10, 7)]⟩ := by decide +kernel
theorem witness_PassStagesEnd_next :
    let z := { shot .developing with number := 6, slot := 2 }
    let s := onPart (fun p => { p with dpe := ⟨[5, 6], some (pass 4 [])⟩, sht := { p.sht with records := [shot .developing, z] } })
      (developing (pass 4 []) ready)
    s.part.dpe.queue = 5 :: [6] ∧ (5 : Word) ∉ [(6 : Word)] ∧ s.part.shot? 6 = some z ∧ z.progress.dark = none ∧
      z.progress.correction ≠ some .corrected ∧ s.part.cal.tables.blackSat = some (List.replicate 8 (256, 16000)) := by decide +kernel
/-- R153: the next pass takes its lists within the geometry. -/
theorem test_next_pass :
    let z := { shot .developing with number := 6, slot := 2 }
    let s := onCal (fun c => { c with tables := { c.tables with columns := [7, 11648] } })
      (onPart (fun p => { p with dpe := ⟨[5, 6], some (pass 4 [])⟩, sht := { p.sht with records := [shot .developing, z] } })
        (developing (pass 4 []) ready))
    ((after .passEnd s).dpe.pass.map fun q => (q.shot, q.slot, q.stage, q.columns)) = some (6, 2, 1, [7]) := by decide +kernel

theorem witness_RunsFollowTheCardExchange_cleanup :
    let s := running (.cleanupCommand .dataCrc) none active ready
    (s.part.cde.run.map fun r => r.phase) = some (.cleanupCommand .dataCrc) ∧ s.part.cde.activeRequest = some active ∧
      s.part.cde.bringup = none := by decide +kernel
/-- R200: a good response to the cleanup's stop command leads to its busy. -/
theorem test_cleanup_response :
    ((after (.cardResponse (.good true true true 0)) (running (.cleanupCommand .dataCrc) none active ready)).cde.run.map fun r =>
      (r.phase, r.timer)) = some (.cleanupBusy .dataCrc, some ⟨0, 500000⟩) := by decide +kernel

theorem witness_StatusEndsWithItsStatusWrite_grant :
    (let s := onPart (fun p => { p with port := { p.port with last := .cpa } }) (statusQueued [2] ready);
      s.part.passRequest = none ∧ s.part.port.last = .cpa ∧ (∀ x ∈ [Master.dpe, .prn, .cde], s.part.requestOf x = none) ∧
        s.part.cpa.ended = none ∧ s.part.phase = .running) ∧
    (let s := onPart (fun p => { p with port := { p.port with starvation := 16 } }) (statusQueued [2] forwarded);
      16 ≤ s.part.port.starvation ∧ s.part.passRequest.isSome = true) ∧
    (∀ x ∈ ready.part.cpa.writes, ∀ ns, x ≠ .status ns) := by
  refine ⟨by decide +kernel, by decide +kernel, ?_⟩
  intro x h; cases h
theorem witness_GrantsAndBurstEndsCarryTheWork_counter :
    ((∃ m, (cpaWaits forwarded).part.requestOf m ≠ none) ∧ (cpaWaits forwarded).part.port.starvation < 16) ∧
    (onPart (fun p => { p with port := { p.port with starvation := 15 } }) (cpaWaits forwarded)).part.port.starvation < 16 ∧
    (forwarded.part.requestOf .cpa = none ∧ forwarded.part.requestOf .dpe = none) :=
  ⟨⟨⟨.cpa, by decide +kernel⟩, by decide +kernel⟩, by decide +kernel, by decide +kernel⟩
theorem witness_OwnersAnswerRefusedAndBundleBursts_slots :
    (∀ l, ready.part.sht.layout = some l → 0 < l.slotSize) ∧
    (let s := holding (shot .stored) ready;
      s.part.sht.layout = some ⟨1073741824, 203513856⟩ ∧ s.part.sht.slots[0]? = some (.shot 5) ∧
        (1073741824 + 0 * 203513856 ≤ 1073741824 ∧ 1277255679 < 1073741824 + (0 + 1) * 203513856) ∧
        s.part.sht.slots[1]? = some .free ∧ 1073741824 + (0 + 1) * 203513856 = 1277255680) ∧
    configured.part.sht.layout = none := by
  refine ⟨?_, by decide +kernel, rfl⟩
  intro l h; cases h; decide
/-- R75: the last byte of slot 0, and the first of slot 1, which is FREE. -/
theorem test_guarded_shot :
    (holding (shot .stored) ready).part.sht.shotAt 1277255679 = 5 ∧ (holding (shot .stored) ready).part.sht.shotAt 1277255680 = 0 := by decide +kernel
theorem witness_MemoryRunsAndImagesAreCarriedInBursts_fuel :
    (List.replicate 512 (1 : Byte)).length ≤ 512 ∧ ([] : List Byte).length ≤ 0 := by decide +kernel
/-- R13: 512 bytes from 16 bytes before a page's end go in three bursts. -/
theorem test_cut_at_the_page :
    (cutBursts 4 4080 (List.replicate 512 1)).map (fun b => (b.1, b.2.length)) = [(4080, 16), (4096, 256), (4352, 240)] := by decide +kernel
end Sys2Proof.Tests
end

section
/-! PROOFS. What the CPA does with a host write to the control page outside the command slots (R19, R20, R31). -/

namespace Sys2Proof.Machine

/-! ## The rows of an observed host write -/

theorem State.onPart_observed_of_running {s : State} (h : s.part.phase = .running) (f : Part → Part) :
    s.onPart (Part.observed f) = .next { s with part := f s.part } := by
  rw [State.onPart, Part.observed, if_pos h]

theorem exec_statusRecordHostWrite_of_running {s : State} (h : s.part.phase = .running) :
    exec .statusRecordHostWrite s = .next { s with part := s.part.statusDirty } :=
  State.onPart_observed_of_running h _

theorem exec_producerBeatWrite_of_running {s : State} (h : s.part.phase = .running) :
    exec .producerBeatWrite s = .next { s with part := s.part.pushWrite .producerRewrite } :=
  State.onPart_observed_of_running h _

theorem exec_consumerWrite_of_running {s : State} (h : s.part.phase = .running) (c : Word) :
    exec (.consumerWrite c) s = .next { s with part := s.part.consumerSeen c } :=
  State.onPart_observed_of_running h _

theorem exec_controlPageWrite_of_running {s : State} (h : s.part.phase = .running) (off : Nat) (data : List Byte) :
    exec (.controlPageWrite off data) s = .next { s with part := s.part.observe off data } :=
  State.onPart_observed_of_running h _

@[simp] theorem Part.consumerSeen_cde (c : Word) (p : Part) : (p.consumerSeen c).cde = p.cde := by
  unfold Part.consumerSeen
  split <;> rfl

/-! ## A beat outside the command slots -/

theorem slotPlace_eq_none {off : Nat} (h : off < 1024 ∨ 2048 ≤ off) : slotPlace off = none := by
  have : ¬ (1024 ≤ off ∧ (off - 1024) / 128 < 8) := by omega
  exact dif_neg this

theorem beatsOf_one {data : List Byte} (off : Nat) (h : data.length = 16) : beatsOf off data = [(off, data)] := by
  have hfirst : data.take 16 = data := List.take_of_length_le (Nat.le_of_eq h)
  have hrest : data.drop 16 = [] := List.drop_eq_nil_of_le (Nat.le_of_eq h)
  have hfull : ¬ data.length < 16 := by omega
  rw [beatsOf, h, pageBeats, if_neg hfull, hfirst, hrest]
  rfl

theorem Part.noteBeat_of_outside {b : Nat × List Byte} (h : slotPlace b.1 = none) (p : Part) : p.noteBeat b = p := by
  simp only [Part.noteBeat, h]

/-- Only a verb word can bring work to the card queue. -/
theorem Part.actBeat_cde_of_outside {b : Nat × List Byte} (h : slotPlace b.1 = none) (p : Part) : (p.actBeat b).cde = p.cde := by
  unfold Part.actBeat
  split
  · exact p.statusDirty_cde
  split
  · exact p.pushWrite_cde _
  split
  · exact p.consumerSeen_cde _
  · simp only [h]

/-- One beat outside the slots notes nothing in a slot copy and leads to no choice of the CDE: it is only acted on. -/
theorem Part.observe_of_outside {off : Nat} {data : List Byte} (hlen : data.length = 16) (hoff : off < 1024 ∨ 2048 ≤ off) (p : Part) :
    p.observe off data = p.actBeat (off, data) := by
  have hout : slotPlace (off, data).1 = none := slotPlace_eq_none hoff
  have hobs : p.observe off data = Part.choosing (fun q => q.actBeat (off, data)) p := by
    simp only [Part.observe, beatsOf_one off hlen, List.foldl_cons, List.foldl_nil, Part.noteBeat_of_outside hout]
  rw [hobs]
  rcases Part.choosing_cases (fun q => q.actBeat (off, data)) p with ⟨-, h⟩ | ⟨h, -⟩
  · exact h
  · exact absurd (congrArg Cde.requests (Part.actBeat_cde_of_outside hout p)) h

theorem Part.actBeat_status {off : Nat} (h : off < 256) (data : List Byte) (p : Part) : p.actBeat (off, data) = p.statusDirty := by
  rw [Part.actBeat, if_pos h]

theorem Part.actBeat_producer (data : List Byte) (p : Part) : p.actBeat (3840, data) = p.pushWrite .producerRewrite := by
  rw [Part.actBeat, if_neg (by omega), if_pos rfl]

theorem Part.actBeat_consumer (data : List Byte) (p : Part) :
    p.actBeat (3856, data) = p.consumerSeen (BitVec.ofNat 32 (leNat (data.take 4))) := by
  have hproducer : (3856 : Nat) ≠ Config.producerArea := by decide
  rw [Part.actBeat, if_neg (by omega), if_neg hproducer, if_pos rfl]
  rfl

theorem Part.actBeat_ring {off : Nat} (h : 4096 ≤ off) (data : List Byte) (p : Part) : p.actBeat (off, data) = p := by
  have hstatus : ¬ off < 256 := by omega
  have hproducer : off ≠ 3840 := by omega
  have hconsumer : off ≠ 3856 := by omega
  have hslot : slotPlace off = none := slotPlace_eq_none (by omega)
  rw [Part.actBeat, if_neg hstatus, if_neg hproducer, if_neg hconsumer]
  simp only [hslot]

/-! ## The consumer word (R31, R32) -/

theorem Part.consumerSeen_of_near {c : Word} {p : Part} (h : (p.cpa.producer - c).toNat ≤ 64) :
    p.consumerSeen c = { p with cpa := { p.cpa with consumer := c, irq := decide (p.cpa.written ≠ c) } } :=
  if_pos h

theorem Part.consumerSeen_of_far {c : Word} {p : Part} (h : ¬ (p.cpa.producer - c).toNat ≤ 64) :
    p.consumerSeen c = p.pushWrite .consumerRewrite :=
  if_neg h

/-- Settles O19: each row acts by one operation of the CPA, and one beat of CONTROL_PAGE_WRITE outside the slots by the same one. -/
theorem hostWritesToTheRingAndStatusAreObserved : Obligations.HostWritesToTheRingAndStatusAreObserved := by
  intro s hrun consumed producerBeat
  have hconsumed (c : Word) : { s with part := s.part.consumerSeen c } = consumed c := by
    by_cases h : (s.part.cpa.producer - c).toNat ≤ 64
    · simp only [consumed, if_pos h, Part.consumerSeen_of_near h]
    · simp only [consumed, if_neg h, Part.consumerSeen_of_far h, Part.pushWrite]
  refine ⟨exec_statusRecordHostWrite_of_running hrun, exec_producerBeatWrite_of_running hrun, fun c => ?consumer,
    fun data hlen => ⟨?page_producer, ?page_consumer, ?page_status, ?page_ring⟩⟩
  case consumer => rw [exec_consumerWrite_of_running hrun, hconsumed]
  case page_producer =>
    rw [exec_controlPageWrite_of_running hrun, Part.observe_of_outside hlen (by omega), Part.actBeat_producer]
    rfl
  case page_consumer =>
    rw [exec_controlPageWrite_of_running hrun, Part.observe_of_outside hlen (by omega), Part.actBeat_consumer, hconsumed]
  case page_status =>
    rw [exec_controlPageWrite_of_running hrun, Part.observe_of_outside hlen (by omega), Part.actBeat_status (by omega)]
  case page_ring =>
    rw [exec_controlPageWrite_of_running hrun, Part.observe_of_outside hlen (by omega), Part.actBeat_ring (by omega)]

end Sys2Proof.Machine
end

section
/-! PROOFS. The colour filter array, and the geometry that gives its phase (R12, R145). -/

namespace Sys2Proof.Machine

/-! ## The colour filter array (R145) -/

/-- The array repeats every two columns and every two rows. -/
theorem channelOf_mod_two (c : Cfa) (x y : Nat) : channelOf c x y = channelOf c (x % 2) (y % 2) := by
  simp only [channelOf, Nat.mod_mod]

/-- A pixel has the channel of the place in the first two columns and rows with its parities. -/
theorem channelOf_of_parities {x y i j : Nat} (hx : x % 2 = i) (hy : y % 2 = j) (c : Cfa) : channelOf c x y = channelOf c i j := by
  rw [channelOf_mod_two, hx, hy]

/-! ## SET_GEOMETRY once S is fixed (R12) -/

theorem exec_setGeometry_of_takes {w : SlotWrite} {s : State} (h : s.part.takes .setGeometry w) :
    exec (.setGeometry w) s =
      .next { s with part := cmdSetGeometry w.slot (s.part.words w) (s.part.taken .setGeometry w) } := by
  have hpart : s.part.hostVerb .setGeometry cmdSetGeometry w =
      cmdSetGeometry w.slot (s.part.words w) (s.part.taken .setGeometry w) := Part.hostVerb_takes cmdSetGeometry h
  rw [← hpart]
  rfl

theorem cmdSetGeometry_of_fixed {p : Part} (h : p.sht.layout.isSome = true) (n : Fin 8) (args : List Word) :
    cmdSetGeometry n args p = p.refuse n .busy [0] :=
  if_pos h

theorem exec_setGeometry_of_fixed {w : SlotWrite} {s : State} (htakes : s.part.takes .setGeometry w)
    (hfixed : s.part.sht.layout.isSome = true) :
    exec (.setGeometry w) s = .next { s with part := s.part.answered .setGeometry w .refused .busy [0] } := by
  have hlayout : (s.part.taken .setGeometry w).sht.layout.isSome = true := hfixed
  rw [exec_setGeometry_of_takes htakes, cmdSetGeometry_of_fixed hlayout, Part.refuse,
    Part.taken_endCommand _ _ _ _ _ _ (by decide)]

/-- Settles O57: the table of R145 is that of the first two columns and rows, which the parities select; the fixed slot count is
the first thing SET_GEOMETRY looks at. -/
theorem channelsFollowThePhase : Obligations.ChannelsFollowThePhase := by
  refine ⟨fun x y => ⟨fun hx hy => ?even_even, fun hx hy => ?odd_even, fun hx hy => ?even_odd, fun hx hy => ?odd_odd⟩,
    fun w s htakes hfixed => ⟨[0], exec_setGeometry_of_fixed htakes hfixed⟩⟩
  all_goals
    simp only [channelOf_of_parities hx hy]
    exact ⟨rfl, rfl, rfl, rfl⟩

end Sys2Proof.Machine
end

section
/-! PROOFS. What every step keeps: frame memory's canonical form, the invariants of the part, the mode and the control window;
and what hard reset leaves of frame memory. -/

namespace Sys2Proof.Machine

/-! ## Every row but three acts on the part alone -/

theorem observed_keeps {f : Part → Part} {p : Part} (h : Keeps p (f p)) : Keeps p (p.observed f) := by
  unfold Part.observed
  split
  · exact h
  · exact .rfl

/-- Every row but HARD_RESET, ARBITER_GRANT and FRAME_BURST_END acts on the part alone, by an operation that keeps it well. -/
theorem exec_acts_on_part (c : Instr) (hreset : ∀ straps, c ≠ .hardReset straps) (hgrant : c ≠ .arbiterGrant)
    (hend : c ≠ .frameBurstEnd) :
    ∃ f : Part → Part, (∀ s, exec c s = .next { s with part := f s.part }) ∧ ∀ p, Keeps p (f p) := by
  cases c with
  | hardReset straps => exact absurd rfl (hreset straps)
  | arbiterGrant => exact absurd rfl hgrant
  | frameBurstEnd => exact absurd rfl hend
  | resetRelease => exact ⟨Part.resetRelease, fun _ => rfl, fun _ => resetRelease_keeps .rfl⟩
  | capacityObtained capacity => exact ⟨Part.capacityObtained capacity, fun _ => rfl, fun _ => capacityObtained_keeps .rfl capacity⟩
  | resetWritesDone => exact ⟨Part.resetWritesDone, fun _ => rfl, fun _ => resetWritesDone_keeps .rfl⟩
  | burstAccept burst => exact ⟨Part.burstAccept burst, fun _ => rfl, fun _ => burstAccept_keeps .rfl burst⟩
  | burstClassify => exact ⟨Part.burstClassify, fun _ => rfl, fun _ => burstClassify_keeps .rfl⟩
  | forwardedBurst => exact ⟨Part.forwardedBurst, fun _ => rfl, fun _ => forwardedBurst_keeps .rfl⟩
  | guardWrite => exact ⟨Part.guardWrite, fun _ => rfl, fun _ => guardWrite_keeps .rfl⟩
  | ingestWrite => exact ⟨Part.ingestWrite, fun _ => rfl, fun _ => ingestWrite_keeps .rfl⟩
  | ingestRead => exact ⟨Part.ingestRead, fun _ => rfl, fun _ => ingestRead_keeps .rfl⟩
  | viewRead => exact ⟨Part.viewRead, fun _ => rfl, fun _ => viewRead_keeps .rfl⟩
  | viewWrite => exact ⟨Part.viewWrite, fun _ => rfl, fun _ => viewWrite_keeps .rfl⟩
  | bundleWrite => exact ⟨Part.bundleWrite, fun _ => rfl, fun _ => bundleWrite_keeps .rfl⟩
  | bundleRead => exact ⟨Part.bundleRead, fun _ => rfl, fun _ => bundleRead_keeps .rfl⟩
  | controlPageWrite offset data => exact ⟨Part.observed (Part.observe offset data), fun _ => rfl, fun _ => observed_keeps (observe_keeps .rfl offset data)⟩
  | producerBeatWrite => exact ⟨Part.observed (Part.pushWrite .producerRewrite), fun _ => rfl, fun _ => observed_keeps (pushWrite_keeps .rfl .producerRewrite)⟩
  | consumerWrite word => exact ⟨Part.observed (Part.consumerSeen word), fun _ => rfl, fun _ => observed_keeps (consumerSeen_keeps .rfl word)⟩
  | statusRecordHostWrite => exact ⟨Part.observed Part.statusDirty, fun _ => rfl, fun _ => observed_keeps (statusDirty_keeps .rfl)⟩
  | eventRecordWritten => exact ⟨Part.eventRecordDone, fun _ => rfl, fun _ => eventRecordDone_keeps .rfl⟩
  | producerWritten => exact ⟨Part.producerDone, fun _ => rfl, fun _ => producerDone_keeps .rfl⟩
  | resultDataWritten => exact ⟨Part.resultDataDone, fun _ => rfl, fun _ => resultDataDone_keeps .rfl⟩
  | slotResultWritten => exact ⟨Part.slotResultDone, fun _ => rfl, fun _ => slotResultDone_keeps .rfl⟩
  | setGeometry w => exact ⟨Part.hostVerb .setGeometry cmdSetGeometry w, fun _ => rfl, fun _ => hostVerb_keeps .rfl fun n args _ h => cmdSetGeometry_keeps h n args⟩
  | setWindow w => exact ⟨Part.hostVerb .setWindow cmdSetWindow w, fun _ => rfl, fun _ => hostVerb_keeps .rfl fun n args _ h => cmdSetWindow_keeps h n args⟩
  | start w => exact ⟨Part.hostVerb .start cmdStart w, fun _ => rfl, fun _ => hostStart_keeps .rfl⟩
  | status w => exact ⟨Part.hostVerb .status cmdStatus w, fun _ => rfl, fun _ => hostVerb_keeps .rfl fun n args _ h => cmdStatus_keeps h n args⟩
  | clearFlags w => exact ⟨Part.hostVerb .clearFlags cmdClearFlags w, fun _ => rfl, fun _ => hostVerb_keeps .rfl fun n args _ h => cmdClearFlags_keeps h n args⟩
  | setEventMask w => exact ⟨Part.hostVerb .setEventMask cmdSetEventMask w, fun _ => rfl, fun _ => hostVerb_keeps .rfl fun n args _ h => cmdSetEventMask_keeps h n args⟩
  | resetShots w => exact ⟨Part.hostVerb .resetShots cmdResetShots w, fun _ => rfl, fun _ => hostVerb_keeps .rfl fun n args _ h => cmdResetShots_keeps h n args⟩
  | abort w => exact ⟨Part.hostAbort w, fun _ => rfl, fun _ => hostAbort_keeps .rfl w⟩
  | loadOpen w => exact ⟨Part.hostVerb .loadOpen cmdLoadOpen w, fun _ => rfl, fun _ => hostVerb_keeps .rfl fun n args _ h => cmdLoadOpen_keeps h n args⟩
  | loadClose w => exact ⟨Part.hostVerb .loadClose cmdLoadClose w, fun _ => rfl, fun _ => hostVerb_keeps .rfl fun n args _ h => cmdLoadClose_keeps h n args⟩
  | loadChecksDone => exact ⟨Part.loadChecksDone, fun _ => rfl, fun _ => loadChecksDone_keeps .rfl⟩
  | loadCancel w => exact ⟨Part.hostVerb .loadCancel cmdLoadCancel w, fun _ => rfl, fun _ => hostVerb_keeps .rfl fun n args _ h => cmdLoadCancel_keeps h n args⟩
  | loadTimeout => exact ⟨Part.loadTimeout, fun _ => rfl, fun _ => loadTimeout_keeps .rfl⟩
  | arm w => exact ⟨Part.hostVerb .arm cmdArm w, fun _ => rfl, fun _ => hostVerb_keeps .rfl fun n args _ h => cmdArm_keeps h n args⟩
  | disarm w => exact ⟨Part.hostVerb .disarm cmdDisarm w, fun _ => rfl, fun _ => hostVerb_keeps .rfl fun n args _ h => cmdDisarm_keeps h n args⟩
  | setSync w => exact ⟨Part.hostVerb .setSync cmdSetSync w, fun _ => rfl, fun _ => hostVerb_keeps .rfl fun n args _ h => cmdSetSync_keeps h n args⟩
  | snapshot w => exact ⟨Part.hostVerb .snapshot cmdSnapshot w, fun _ => rfl, fun _ => hostVerb_keeps .rfl fun n args _ h => cmdSnapshot_keeps h n args⟩
  | setDarkPolicy w => exact ⟨Part.hostVerb .setDarkPolicy cmdSetDarkPolicy w, fun _ => rfl, fun _ => hostVerb_keeps .rfl fun n args _ h => cmdSetDarkPolicy_keeps h n args⟩
  | skipDark w => exact ⟨Part.hostVerb .skipDark cmdSkipDark w, fun _ => rfl, fun _ => hostVerb_keeps .rfl fun n args _ h => cmdSkipDark_keeps h n args⟩
  | protect w => exact ⟨Part.hostVerb .protect cmdProtect w, fun _ => rfl, fun _ => hostVerb_keeps .rfl fun n args _ h => cmdProtect_keeps h n args⟩
  | unprotect w => exact ⟨Part.hostVerb .unprotect cmdUnprotect w, fun _ => rfl, fun _ => hostVerb_keeps .rfl fun n args _ h => cmdUnprotect_keeps h n args⟩
  | release w => exact ⟨Part.hostVerb .release cmdRelease w, fun _ => rfl, fun _ => hostVerb_keeps .rfl fun n args _ h => cmdRelease_keeps h n args⟩
  | queryShot w => exact ⟨Part.hostVerb .queryShot cmdQueryShot w, fun _ => rfl, fun _ => hostVerb_keeps .rfl fun n args _ h => cmdQueryShot_keeps h n args⟩
  | viewSelect w => exact ⟨Part.hostVerb .viewSelect cmdViewSelect w, fun _ => rfl, fun _ => hostVerb_keeps .rfl fun n args _ h => cmdViewSelect_keeps h n args⟩
  | cardInit w => exact ⟨Part.hostVerb .cardInit cmdCardInit w, fun _ => rfl, fun _ => hostVerb_keeps .rfl fun n args _ h => cmdCardInit_keeps h n args⟩
  | store w => exact ⟨Part.hostVerb .store cmdStore w, fun _ => rfl, fun _ => hostVerb_keeps .rfl fun n args _ h => cmdStore_keeps h n args⟩
  | extentListRead => exact ⟨Part.extentListRead, fun _ => rfl, fun _ => extentListRead_keeps .rfl⟩
  | cardWrite w => exact ⟨Part.hostVerb .cardWrite cmdCardWrite w, fun _ => rfl, fun _ => hostVerb_keeps .rfl fun n args _ h => cmdCardWrite_keeps h n args⟩
  | cardRead w => exact ⟨Part.hostVerb .cardRead cmdCardRead w, fun _ => rfl, fun _ => hostVerb_keeps .rfl fun n args _ h => cmdCardRead_keeps h n args⟩
  | cardCancel w => exact ⟨Part.hostVerb .cardCancel cmdCardCancel w, fun _ => rfl, fun _ => hostVerb_keeps .rfl fun n args _ h => cmdCardCancel_keeps h n args⟩
  | cardResume w => exact ⟨Part.hostVerb .cardResume cmdCardResume w, fun _ => rfl, fun _ => hostVerb_keeps .rfl fun n args _ h => cmdCardResume_keeps h n args⟩
  | setLimits w => exact ⟨Part.hostVerb .setLimits cmdSetLimits w, fun _ => rfl, fun _ => hostVerb_keeps .rfl fun n args _ h => cmdSetLimits_keeps h n args⟩
  | syncTransition closed => exact ⟨Part.syncTransition closed, fun _ => rfl, fun _ => syncTransition_keeps .rfl closed⟩
  | syncEdgeAccept => exact ⟨Part.syncEdgeAccept, fun _ => rfl, fun _ => syncEdgeAccept_keeps .rfl⟩
  | armInTransition pressed => exact ⟨Part.armInTransition pressed, fun _ => rfl, fun _ => armInTransition_keeps .rfl pressed⟩
  | armInAccept => exact ⟨Part.armInAccept, fun _ => rfl, fun _ => armInAccept_keeps .rfl⟩
  | sensorPulseEnd => exact ⟨Part.sensorPulseEnd, fun _ => rfl, fun _ => sensorPulseEnd_keeps .rfl⟩
  | flushEnd => exact ⟨Part.flushEnd, fun _ => rfl, fun _ => flushEnd_keeps .rfl⟩
  | armWindowExpiry => exact ⟨Part.armWindowExpiry, fun _ => rfl, fun _ => armWindowExpiry_keeps .rfl⟩
  | settleGuardExpiry => exact ⟨Part.settleGuardExpiry, fun _ => rfl, fun _ => settleGuardExpiry_keeps .rfl⟩
  | programmedTimeExpiry => exact ⟨Part.programmedTimeExpiry, fun _ => rfl, fun _ => programmedTimeExpiry_keeps .rfl⟩
  | integrationLimit => exact ⟨Part.integrationLimit, fun _ => rfl, fun _ => integrationLimit_keeps .rfl⟩
  | strobeFire => exact ⟨Part.strobeFire, fun _ => rfl, fun _ => strobeFire_keeps .rfl⟩
  | strobePulseEnd => exact ⟨Part.strobePulseEnd, fun _ => rfl, fun _ => strobePulseEnd_keeps .rfl⟩
  | darkFlushEnd => exact ⟨Part.darkFlushEnd, fun _ => rfl, fun _ => darkFlushEnd_keeps .rfl⟩
  | darkIntegrationExpiry => exact ⟨Part.darkIntegrationExpiry, fun _ => rfl, fun _ => darkIntegrationExpiry_keeps .rfl⟩
  | ingestCommit => exact ⟨Part.ingestCommit, fun _ => rfl, fun _ => ingestCommit_keeps .rfl⟩
  | readoutTimeout => exact ⟨Part.readoutTimeout, fun _ => rfl, fun _ => readoutTimeout_keeps .rfl⟩
  | stage1End => exact ⟨Part.stage1End, fun _ => rfl, fun _ => stage1End_k .rfl⟩
  | stage3End => exact ⟨Part.stage3End, fun _ => rfl, fun _ => stage3End_k .rfl⟩
  | passEnd => exact ⟨Part.passEnd, fun _ => rfl, fun _ => passEnd_keeps .rfl⟩
  | rowRendered => exact ⟨Part.rowRendered, fun _ => rfl, fun _ => rowRendered_keeps .rfl⟩
  | cardDetectTransition seated => exact ⟨Part.cardDetectTransition seated, fun _ => rfl, fun _ => cardDetectTransition_keeps .rfl seated⟩
  | cardInserted => exact ⟨Part.cardInserted, fun _ => rfl, fun _ => cardInserted_keeps .rfl⟩
  | cardRemoval => exact ⟨Part.cardRemoval, fun _ => rfl, fun _ => cardRemoval_keeps .rfl⟩
  | cardResetWaitExpiry => exact ⟨Part.cardResetWaitExpiry, fun _ => rfl, fun _ => cardResetWaitExpiry_keeps .rfl⟩
  | powerUpPollTimer => exact ⟨Part.powerUpPollTimer, fun _ => rfl, fun _ => powerUpPollTimer_keeps .rfl⟩
  | powerUpTimeout => exact ⟨Part.powerUpTimeout, fun _ => rfl, fun _ => powerUpTimeout_keeps .rfl⟩
  | cardResponse reply => exact ⟨Part.cardResponse reply, fun _ => rfl, fun _ => cardResponse_keeps .rfl reply⟩
  | cardResponseTimeout => exact ⟨Part.cardResponseTimeout, fun _ => rfl, fun _ => cardResponseTimeout_keeps .rfl⟩
  | cardDataStatus status => exact ⟨Part.cardDataStatus status, fun _ => rfl, fun _ => cardDataStatus_keeps .rfl status⟩
  | cardBusyEnd => exact ⟨Part.cardBusyEnd, fun _ => rfl, fun _ => cardBusyEnd_keeps .rfl⟩
  | cardBusyTimeout => exact ⟨Part.cardBusyTimeout, fun _ => rfl, fun _ => cardBusyTimeout_keeps .rfl⟩
  | cardReadBlock crcGood data => exact ⟨Part.cardReadBlock crcGood data, fun _ => rfl, fun _ => cardReadBlock_keeps .rfl crcGood data⟩
  | cardDataTimeout => exact ⟨Part.cardDataTimeout, fun _ => rfl, fun _ => cardDataTimeout_keeps .rfl⟩
  | runAttemptFailed => exact ⟨Part.runAttemptFailed, fun _ => rfl, fun _ => runAttemptFailed_keeps .rfl⟩
  | tempReadingStart => exact ⟨Part.tempReadingStart, fun _ => rfl, fun _ => tempReadingStart_keeps .rfl⟩
  | tempReadingEnd acknowledged value => exact ⟨Part.tempReadingEnd acknowledged value, fun _ => rfl, fun _ => tempReadingEnd_keeps .rfl acknowledged value⟩
  | tempReadingTimeout => exact ⟨Part.tempReadingTimeout, fun _ => rfl, fun _ => tempReadingTimeout_keeps .rfl⟩
  | supplyTransition high => exact ⟨Part.supplyTransition high, fun _ => rfl, fun _ => supplyTransition_keeps .rfl high⟩
  | supplyState => exact ⟨Part.supplyChange, fun _ => rfl, fun _ => supplyChange_keeps .rfl⟩
  | shtResetClear => exact ⟨Part.shtResetClear, fun _ => rfl, fun _ => shtResetClear_keeps .rfl⟩
  | resetShotsDone => exact ⟨Part.resetShotsDone, fun _ => rfl, fun _ => resetShotsDone_keeps .rfl⟩
/-! ## The grant -/

/-- The part with the port as it may be after a grant, and the CPA's queue and update count moved on. -/
def Part.granted (port : Port) (writes : List CpaWrite) (updates : Word) (p : Part) : Part :=
  { p with port := port, cpa := { p.cpa with writes := writes, updates := updates } }

/-- A grant fills the port and takes from the CPA's queue; the starvation counter is left as it stands. -/
theorem Part.grant_eq_granted (who : Requester) (p : Part) :
    ∃ port writes updates, p.grant who = p.granted port writes updates ∧ port.starvation = p.port.starvation := by
  unfold Part.grant
  split
  · split
    · exact ⟨_, _, _, rfl, rfl⟩
    · exact ⟨_, _, _, rfl, rfl⟩
  · next m =>
    cases m with
    | cpa =>
      dsimp only
      split
      · exact ⟨_, p.cpa.writes, p.cpa.updates, rfl, rfl⟩
      · unfold Part.grantCpa
        dsimp only
        split
        · exact ⟨_, _, _, rfl, rfl⟩
        · exact ⟨_, _, p.cpa.updates, rfl, rfl⟩
    | dpe | prn | cde =>
      dsimp only
      split
      · exact ⟨_, p.cpa.writes, p.cpa.updates, rfl, rfl⟩
      · exact ⟨_, p.cpa.writes, p.cpa.updates, rfl, rfl⟩

/-- The counter that the arbiter's table gives never passes 16 (R14). -/
theorem Part.arbitrate_counter_le {p : Part} {who : Requester} {counter : Nat} (h : p.arbitrate = some (who, counter)) :
    counter ≤ 16 := by
  unfold Part.arbitrate at h
  split at h
  · cases h; omega
  · split at h
    · next hlt =>
      cases h
      exact hlt
    · cases h; omega
  · cases h; omega
  · cases h

/-- What ARBITER_GRANT can answer: the state as it is, a grant within the installed memory, or the fault. -/
theorem exec_arbiterGrant_cases (s : State) :
    exec .arbiterGrant s = .next s ∨
      (∃ port writes updates, exec .arbiterGrant s = .next { s with part := s.part.granted port writes updates } ∧
        port.starvation ≤ 16) ∨
      ∃ a, exec .arbiterGrant s = .fault (.outsideMemory a) := by
  rw [show exec .arbiterGrant s = execArbiterGrant s from rfl, execArbiterGrant]
  split
  · exact .inl rfl
  · split
    · exact .inl rfl
    · next who counter harb =>
      have hle : counter ≤ 16 := Part.arbitrate_counter_le harb
      obtain ⟨port, writes, updates, hgrant, hcount⟩ :=
        Part.grant_eq_granted who { s.part with port := { s.part.port with starvation := counter } }
      dsimp only
      split
      · exact .inr (.inr ⟨_, rfl⟩)
      · refine .inr (.inl ⟨port, writes, updates, ?_, by rw [hcount]; exact hle⟩)
        rw [hgrant]
        rfl

/-! ## The end of a burst -/

/-- FRAME_BURST_END with a burst in progress: a write's bytes are in memory, and what follows its end has been done. -/
theorem exec_frameBurstEnd_of_busy {s : State} {b : InFlight} (h : s.part.port.busy = some b) :
    exec .frameBurstEnd s =
      .next
        { s with
          mem := if b.write then s.mem.writeBytes b.addr b.data else s.mem
          part :=
            Part.burstDone b (if b.write then [] else s.mem.readBytes b.addr b.length)
              { s.part with port := { s.part.port with busy := none } } } := by
  rw [show exec .frameBurstEnd s = execFrameBurstEnd s from rfl, execFrameBurstEnd]
  simp only [h]
  split <;> rfl

theorem exec_frameBurstEnd_of_free {s : State} (h : s.part.port.busy = none) : exec .frameBurstEnd s = .next s := by
  rw [show exec .frameBurstEnd s = execFrameBurstEnd s from rfl, execFrameBurstEnd]
  simp only [h]

/-! ## What a step keeps -/

/-- What a step that does not take HARD_RESET keeps: all that `Keeps` says but the port, of which the starvation counter stays
bounded. -/
def StepKeeps (p q : Part) : Prop :=
  Keeps p { q with port := p.port } ∧ (p.port.starvation ≤ 16 → q.port.starvation ≤ 16)

theorem StepKeeps.of_keeps {p q : Part} (h : Keeps p q) : StepKeeps p q := by
  have hport : q.port = p.port := by
    obtain ⟨-, -, -, -, -, -, -, -, -, -, -, hport⟩ := h
    exact hport
  refine ⟨?_, fun hle => by rwa [hport]⟩
  rw [← hport]
  exact h

theorem StepKeeps.granted {port : Port} (writes : List CpaWrite) (updates : Word) (p : Part) (h : port.starvation ≤ 16) :
    StepKeeps p (p.granted port writes updates) :=
  ⟨Keeps.rfl (p := p), fun _ => h⟩

theorem StepKeeps.burstDone (b : InFlight) (read : List Byte) (p : Part) :
    StepKeeps p (Part.burstDone b read { p with port := { p.port with busy := none } }) := by
  have h : Keeps { p with port := { p.port with busy := none } } (Part.burstDone b read { p with port := { p.port with busy := none } }) :=
    burstDone_keeps .rfl b read
  generalize Part.burstDone b read { p with port := { p.port with busy := none } } = q at h ⊢
  obtain ⟨irq, ring, ports, card, load, protection, settings, mode, window, straps, running, port⟩ := h
  have hle : p.port.starvation ≤ 16 → q.port.starvation ≤ 16 := fun h16 => by rw [port]; exact h16
  exact ⟨⟨irq, ring, fun hfit => ⟨(ports hfit).1, hfit.2⟩, card, load, protection, settings, mode, window, straps, running, rfl⟩, hle⟩

/-- Every command but HARD_RESET that answers a next state keeps the part well. -/
theorem exec_stepKeeps {c : Instr} (hreset : ∀ straps, c ≠ .hardReset straps) {s t : State} (h : exec c s = .next t) :
    StepKeeps s.part t.part := by
  by_cases hgrant : c = .arbiterGrant
  · subst hgrant
    rcases exec_arbiterGrant_cases s with hg | ⟨port, writes, updates, hg, hle⟩ | ⟨a, hg⟩
    · cases hg.symm.trans h
      exact .of_keeps .rfl
    · cases hg.symm.trans h
      exact .granted writes updates s.part hle
    · cases hg.symm.trans h
  by_cases hend : c = .frameBurstEnd
  · subst hend
    cases hb : s.part.port.busy with
    | none =>
      cases (exec_frameBurstEnd_of_free hb).symm.trans h
      exact .of_keeps .rfl
    | some b =>
      cases (exec_frameBurstEnd_of_busy hb).symm.trans h
      exact .burstDone b _ s.part
  obtain ⟨f, hexec, hkeeps⟩ := exec_acts_on_part c hreset hgrant hend
  cases (hexec s).symm.trans h
  exact .of_keeps (hkeeps s.part)

theorem tick_keeps (p : Part) : Keeps p p.tick := by
  unfold Part.tick
  split
  · exact .rfl
  · split
    · exact Keeps.rfl (p := p)
    · exact Keeps.rfl (p := p)

/-- A step whose front command is not HARD_RESET keeps the part well. -/
theorem step_stepKeeps {s t : State} (hreset : ∀ straps, s.pending.head? ≠ some (.hardReset straps)) (h : step s = .next t) :
    StepKeeps s.part t.part := by
  unfold step at h
  split at h
  · cases h
    exact .of_keeps (tick_keeps s.part)
  · next c rest hpending =>
    have hc : ∀ straps, c ≠ .hardReset straps := fun straps he => hreset straps (by rw [hpending, he]; rfl)
    exact exec_stepKeeps (s := { s with pending := rest }) hc h

/-- A step takes HARD_RESET, or its front command is another one. -/
theorem step_hardReset_or {s t : State} (h : step s = .next t) :
    (∃ straps rest, t = State.hardReset straps { s with pending := rest }) ∨ ∀ straps, s.pending.head? ≠ some (.hardReset straps) := by
  unfold step at h
  split at h
  · next hpending => exact .inr fun straps he => by rw [hpending] at he; cases he
  · next c rest hpending =>
    by_cases hc : ∃ straps, c = .hardReset straps
    · obtain ⟨straps, rfl⟩ := hc
      cases h
      exact .inl ⟨straps, rest, rfl⟩
    · exact .inr fun straps he => hc ⟨straps, by rw [hpending] at he; exact Option.some.inj he⟩

/-- A property of the part that hard reset establishes and every other step keeps is kept by every step. -/
theorem keptByStep_of {I : Part → Prop} (hreset : ∀ straps pins free, I (Part.reset straps pins free))
    (hkeeps : ∀ p q, StepKeeps p q → I p → I q) : KeptByStep I := by
  intro s t hs ht
  rcases step_hardReset_or ht with ⟨straps, rest, rfl⟩ | hne
  · exact hreset straps _ _
  · exact hkeeps _ _ (step_stepKeeps hne ht) hs

/-! ## The invariants at reset -/

theorem Part.reset_irqRight (straps : Straps) (pins : Pins) (free : Nat) : (Part.reset straps pins free).irqRight :=
  rfl

theorem Part.reset_ringFits (straps : Straps) (pins : Pins) (free : Nat) : (Part.reset straps pins free).ringFits :=
  (by decide : ((0 : Word) - 0).toNat ≤ 64)

theorem Part.reset_portsFit (straps : Straps) (pins : Pins) (free : Nat) : (Part.reset straps pins free).portsFit :=
  ⟨Nat.zero_le _, Nat.zero_le _⟩

theorem Part.reset_cardQueueFits (straps : Straps) (pins : Pins) (free : Nat) : (Part.reset straps pins free).cardQueueFits :=
  Nat.zero_le _

theorem Part.reset_cardQueueInOrder (straps : Straps) (pins : Pins) (free : Nat) :
    (Part.reset straps pins free).cardQueueInOrder :=
  ⟨.nil, fun _ hr => nomatch hr⟩

theorem Part.reset_loadFits (straps : Straps) (pins : Pins) (free : Nat) : (Part.reset straps pins free).loadFits :=
  ⟨Nat.le_refl _, fun hclosing => nomatch hclosing⟩

theorem Part.reset_protectionFits (straps : Straps) (pins : Pins) (free : Nat) : (Part.reset straps pins free).protectionFits :=
  ⟨fun _ => rfl, Nat.zero_le _⟩

theorem Part.reset_settingsInRange (straps : Straps) (pins : Pins) (free : Nat) : (Part.reset straps pins free).settingsInRange := by
  have hdefault : SyncSettings.default.inRange := by decide
  refine ⟨hdefault, ?_, ?_, ?_⟩
  · intro x hx
    cases hx
  · exact (by decide : 1 ≤ 2 ∧ 2 ≤ 60 ∧ 2 ≤ 4 ∧ 256 ≤ 4095)
  · exact (by decide : (80 : Int) ≤ 180 ∧ (180 : Int) ≤ 280 ∧ (180 + 8 : Int) ≤ 240 ∧ (240 : Int) ≤ 320 ∧ (1 : Int) ≤ 8 ∧ (8 : Int) ≤ 20)

/-- Settles O4. -/
theorem resetStateHasTheInvariants : Obligations.ResetStateHasTheInvariants :=
  ⟨State.reset_wf, Part.reset_irqRight _ _ _, Part.reset_ringFits _ _ _, Part.reset_portsFit _ _ _, Part.reset_cardQueueFits _ _ _,
    Part.reset_cardQueueInOrder _ _ _, Part.reset_loadFits _ _ _, Part.reset_protectionFits _ _ _, Part.reset_settingsInRange _ _ _⟩

/-! ## The invariants at every step -/

/-- Settles O9. -/
theorem everyStepKeepsIrqRight : Obligations.EveryStepKeepsIrqRight :=
  keptByStep_of Part.reset_irqRight fun _ _ ⟨⟨irq, _⟩, _⟩ => irq

/-- Settles O10. -/
theorem everyStepKeepsTheQueuesBounded : Obligations.EveryStepKeepsTheQueuesBounded :=
  ⟨keptByStep_of Part.reset_ringFits fun _ _ ⟨⟨_, ring, _⟩, _⟩ => ring,
    keptByStep_of Part.reset_portsFit fun _ _ ⟨⟨_, _, ports, _⟩, starvation⟩ hfit => ⟨(ports hfit).1, starvation hfit.2⟩,
    keptByStep_of Part.reset_cardQueueFits fun _ _ ⟨⟨_, _, _, ⟨fits, _⟩, _⟩, _⟩ => fits,
    keptByStep_of Part.reset_cardQueueInOrder fun _ _ ⟨⟨_, _, _, ⟨_, order⟩, _⟩, _⟩ => order⟩

/-- Settles O11. -/
theorem everyStepKeepsLoadProtectionAndSettingsInBounds : Obligations.EveryStepKeepsLoadProtectionAndSettingsInBounds :=
  ⟨keptByStep_of Part.reset_loadFits fun _ _ ⟨⟨_, _, _, _, load, _⟩, _⟩ => load,
    keptByStep_of Part.reset_protectionFits fun _ _ ⟨⟨_, _, _, _, _, protection, _⟩, _⟩ => protection,
    keptByStep_of Part.reset_settingsInRange fun _ _ ⟨⟨_, _, _, _, _, _, settings, _⟩, _⟩ => settings⟩

/-- Settles O12. -/
theorem onlyHardResetEndsModeAndControlWindow : Obligations.OnlyHardResetEndsModeAndControlWindow := by
  refine ⟨fun s t hreset h => ?mode, fun s t hreset h => ?window⟩
  all_goals obtain ⟨⟨-, -, -, -, -, -, -, mode, window, straps, running, -⟩, -⟩ := step_stepKeeps hreset h
  case mode => exact mode
  case window => exact ⟨window, straps, fun hrun => (running hrun).2⟩

/-! ## Frame memory -/

/-- Every command answers the state's queue as it was, but ARBITER_GRANT, which can fault; and memory as it was, but HARD_RESET and
FRAME_BURST_END. -/
theorem exec_frame (c : Instr) (s : State) :
    (∃ t, exec c s = .next t ∧ t.pending = s.pending ∧ (c ≠ .frameBurstEnd → (∀ straps, c ≠ .hardReset straps) → t.mem = s.mem)) ∨
      (c = .arbiterGrant ∧ ∃ a, exec c s = .fault (.outsideMemory a)) := by
  by_cases hreset : ∃ straps, c = .hardReset straps
  · obtain ⟨straps, rfl⟩ := hreset
    exact .inl ⟨_, rfl, rfl, fun _ hne => absurd rfl (hne straps)⟩
  by_cases hgrant : c = .arbiterGrant
  · subst hgrant
    rcases exec_arbiterGrant_cases s with h | ⟨port, writes, updates, h, -⟩ | ⟨a, h⟩
    · exact .inl ⟨_, h, rfl, fun _ _ => rfl⟩
    · exact .inl ⟨_, h, rfl, fun _ _ => rfl⟩
    · exact .inr ⟨rfl, a, h⟩
  by_cases hend : c = .frameBurstEnd
  · subst hend
    cases hb : s.part.port.busy with
    | none => exact .inl ⟨_, exec_frameBurstEnd_of_free hb, rfl, fun hne => absurd rfl hne⟩
    | some b => exact .inl ⟨_, exec_frameBurstEnd_of_busy hb, rfl, fun hne => absurd rfl hne⟩
  obtain ⟨f, hexec, -⟩ := exec_acts_on_part c (fun straps he => hreset ⟨straps, he⟩) hgrant hend
  exact .inl ⟨_, hexec s, rfl, fun _ _ => rfl⟩

/-- Settles O7. -/
theorem everyCommandCompletesAndFewWriteMemory : Obligations.EveryCommandCompletesAndFewWriteMemory := by
  refine ⟨fun c s => ?completes, fun c s t hend hreset h => ?memory⟩
  case completes =>
    rcases exec_frame c s with ⟨t, ht, hpending, -⟩ | hfault
    · exact .inl ⟨t, ht, hpending⟩
    · exact .inr hfault
  case memory =>
    rcases exec_frame c s with ⟨u, hu, -, hmem⟩ | ⟨-, a, hfault⟩
    · cases hu.symm.trans h
      exact hmem hend hreset
    · cases hfault.symm.trans h

/-- Every command keeps the canonical form of memory. -/
theorem exec_keeps_wf {c : Instr} {s t : State} (hwf : s.mem.wf = true) (h : exec c s = .next t) : t.mem.wf = true := by
  by_cases hreset : ∃ straps, c = .hardReset straps
  · obtain ⟨straps, rfl⟩ := hreset
    cases h
    exact State.tornMemory_wf s hwf
  by_cases hend : c = .frameBurstEnd
  · subst hend
    cases hb : s.part.port.busy with
    | none =>
      cases (exec_frameBurstEnd_of_free hb).symm.trans h
      exact hwf
    | some b =>
      cases (exec_frameBurstEnd_of_busy hb).symm.trans h
      dsimp only
      split
      · exact Memory.writeBytes_wf b.data s.mem b.addr hwf
      · exact hwf
  rw [everyCommandCompletesAndFewWriteMemory.2 c s t hend (fun straps he => hreset ⟨straps, he⟩) h]
  exact hwf

/-- Settles O6. -/
theorem everyStepKeepsMemoryCanonical : Obligations.EveryStepKeepsMemoryCanonical := by
  intro s t hwf h
  unfold step at h
  split at h
  · cases h
    exact hwf
  · next c rest _ => exact exec_keeps_wf (s := { s with pending := rest }) hwf h

/-- Settles O1. -/
theorem stepRunsTheFrontCommand : Obligations.StepRunsTheFrontCommand := by
  intro c rest s hpending
  rw [step, hpending]

/-! ## Hard reset of memory (R13, R18) -/

/-- A run of bytes written is read back, and every other address reads as before. -/
theorem Memory.read_writeBytes {m : Memory} (hwf : m.wf = true) (x : Nat) (bytes : List Byte) (a : Nat) :
    (m.writeBytes x bytes).read a = if x ≤ a then bytes.getD (a - x) (m.read a) else m.read a := by
  induction bytes generalizing m x with
  | nil => simp [Memory.writeBytes]
  | cons v vs ih =>
    have hsame : (m.write x v).read x = v := Memory.read_write_same m 0 x v hwf
    have hother (y : Nat) (hy : y ≠ x) : (m.write x v).read y = m.read y := Memory.read_write_other m 0 x y v hwf hy
    rw [Memory.writeBytes, ih (Memory.write_wf m x v hwf)]
    rcases Nat.lt_trichotomy a x with hlt | rfl | hgt
    · rw [if_neg (by omega), if_neg (by omega), hother a (by omega)]
    · rw [if_neg (by omega), if_pos (Nat.le_refl _), hsame]
      simp
    · have hsucc : a - x = (a - (x + 1)) + 1 := by omega
      rw [if_pos (by omega), if_pos (by omega), hother a (by omega), hsucc, List.getD_cons_succ]

/-- The beats of a run from `off` on, end to end, are a leading part of the run. -/
theorem pageBeats_prefix (fuel off : Nat) (bytes : List Byte) : (pageBeats fuel off bytes).flatMap Prod.snd <+: bytes := by
  induction fuel generalizing off bytes with
  | zero => exact List.nil_prefix
  | succ fuel ih =>
    rw [pageBeats]
    split
    · exact List.nil_prefix
    · rw [List.flatMap_cons]
      obtain ⟨rest, hrest⟩ := ih (off + 16) (bytes.drop 16)
      exact ⟨rest, by rw [List.append_assoc, hrest, List.take_append_drop]⟩

/-- A torn write leaves each byte of the run at its old or its new value, and every other byte as it was. -/
theorem tornWrite_read {m : Memory} (hwf : m.wf = true) (beats : List (Nat × List Byte)) (free addr a : Nat) :
    (tornWrite free m addr beats).read a = m.read a ∨
      addr ≤ a ∧ some ((tornWrite free m addr beats).read a) = (beats.flatMap Prod.snd)[a - addr]? := by
  induction beats generalizing m free addr with
  | nil => exact .inl rfl
  | cons b rest ih =>
    obtain ⟨off, beat⟩ := b
    rw [tornWrite, List.flatMap_cons]
    generalize hm' : (if Config.tornBeat free then m.writeBytes addr beat else m) = m'
    have hwf' : m'.wf = true := by
      rw [← hm']
      split
      · exact Memory.writeBytes_wf beat m addr hwf
      · exact hwf
    have hread : m'.read a = m.read a ∨ addr ≤ a ∧ some (m'.read a) = beat[a - addr]? := by
      rw [← hm']
      split
      · rw [Memory.read_writeBytes hwf]
        split
        · next hle =>
          by_cases hlt : a - addr < beat.length
          · exact .inr ⟨hle, by simp [hlt]⟩
          · exact .inl (by rw [List.getD_eq_getElem?_getD, List.getElem?_eq_none (by omega), Option.getD_none])
        · exact .inl rfl
      · exact .inl rfl
    rcases ih hwf' (free + 1) (addr + beat.length) with h | ⟨hle, h⟩
    · rw [h]
      rcases hread with hold | ⟨hle, hnew⟩
      · exact .inl hold
      · have hlt : a - addr < beat.length := by
          refine Classical.byContradiction fun hge => ?_
          rw [List.getElem?_eq_none (by omega)] at hnew
          cases hnew
        exact .inr ⟨hle, by rw [hnew, List.getElem?_append_left hlt]⟩
    · refine .inr ⟨by omega, ?_⟩
      rw [h, List.getElem?_append_right (Nat.le_sub_of_add_le' hle), Nat.sub_sub]

/-- Settles O5. -/
theorem hardResetResetsThePartAndKeepsMemory : Obligations.HardResetResetsThePartAndKeepsMemory := by
  intro straps s
  refine ⟨s.hardReset straps, rfl, rfl, ⟨_, rfl⟩, rfl, fun hnone => ?free, fun b hb hread => ?reading, fun hwf b hb hwrite a => ?writing⟩
  case free =>
    show s.tornMemory = s.mem
    rw [State.tornMemory, hnone]
  case reading =>
    show s.tornMemory = s.mem
    rw [State.tornMemory, hb]
    simp [hread]
  case writing =>
    have hmem : (s.hardReset straps).mem = tornWrite s.part.free s.mem b.addr (beatsOf 0 b.data) := by
      show s.tornMemory = _
      rw [State.tornMemory, hb]
      simp [hwrite]
    obtain ⟨rest, hrest⟩ : (beatsOf 0 b.data).flatMap Prod.snd <+: b.data := pageBeats_prefix _ _ _
    rw [hmem]
    generalize htaken : (beatsOf 0 b.data).flatMap Prod.snd = taken at hrest
    have hread := tornWrite_read hwf (beatsOf 0 b.data) s.part.free b.addr a
    rw [htaken] at hread
    rcases hread with hold | ⟨hle, hnew⟩
    · exact ⟨fun _ => hold, fun _ => .inl hold⟩
    · have hlt : a - b.addr < taken.length := by
        refine Classical.byContradiction fun hge => ?_
        rw [List.getElem?_eq_none (by omega)] at hnew
        cases hnew
      have hlen : taken.length ≤ b.data.length := by
        rw [← hrest, List.length_append]
        omega
      refine ⟨fun hout => by omega, fun _ => .inr ?_⟩
      rw [hnew, ← hrest, List.getElem?_append_left hlt]

end Sys2Proof.Machine
end

section
/-! PROOFS. The command path (R20 to R24, R26 to R28, R33, R37, R38), the reset sequence and the timebase (R17, R78), and what
the CPA makes due (R29, R30, R34). -/

namespace Sys2Proof.Machine

/-! ## The rows of host commands -/

/-- The owner's operation in the row of a verb: that of an observed burst, followed by the CDE's choice where it moves the card
queue (R192). -/
def Verb.body : Verb → Fin 8 → List Word → Part → Part
  | .disarm => cmdDisarm
  | .cardWrite => cmdCardWrite
  | .cardRead => cmdCardRead
  | .cardCancel => cmdCardCancel
  | v => bodyOf v

theorem State.next_part_congr {s : State} {p q : Part} (h : p = q) :
    (Host.Outcome.next { s with part := p } : Host.Outcome State Fault Refusal) = .next { s with part := q } := by
  rw [h]

/-- The row of every verb but ABORT is a host write of that verb. -/
theorem exec_row {v : Verb} (hv : v ≠ .abort) (w : SlotWrite) (s : State) :
    exec (v.row w) s = .next { s with part := s.part.hostVerb v v.body w } := by
  cases v with
  | abort => exact absurd rfl hv
  | _ => rfl

/-- A command that is taken is handed to its owner, with the slot count fixed by the first shot command in SERVICE (R27). -/
theorem exec_row_of_takes {v : Verb} {w : SlotWrite} {s : State} (hv : v ≠ .abort) (h : s.part.takes v w) :
    exec (v.row w) s = .next { s with part := v.body w.slot (s.part.words w) ((s.part.entered v).taken v w) } := by
  rw [exec_row hv, Part.hostVerb_entered v.body h]

theorem Part.entered_of_not_shot {v : Verb} (h : v.isShot = false) (p : Part) : p.entered v = p := by
  simp [Part.entered, h]

/-- The same for a command that is no shot command. -/
theorem exec_row_of_takes_other {v : Verb} {w : SlotWrite} {s : State} (hv : v ≠ .abort) (hshot : v.isShot = false)
    (h : s.part.takes v w) :
    exec (v.row w) s = .next { s with part := v.body w.slot (s.part.words w) (s.part.taken v w) } := by
  rw [exec_row_of_takes hv h, Part.entered_of_not_shot hshot]

/-! ## Ends of a command just taken -/

@[simp] theorem Part.taken_done (v : Verb) (w : SlotWrite) (data : List Word) (p : Part) (hd : data.length ≤ 24) :
    (p.taken v w).done w.slot data = p.answered v w .done .ok data := Part.taken_endCommand _ _ _ _ _ _ hd

@[simp] theorem Part.taken_refuse (v : Verb) (w : SlotWrite) (code : ResultCode) (data : List Word) (p : Part)
    (hd : data.length ≤ 24) : (p.taken v w).refuse w.slot code data = p.answered v w .refused code data :=
  Part.taken_endCommand _ _ _ _ _ _ hd

@[simp] theorem Part.taken_fail (v : Verb) (w : SlotWrite) (code : ResultCode) (data : List Word) (p : Part)
    (hd : data.length ≤ 24) : (p.taken v w).fail w.slot code data = p.answered v w .failed code data :=
  Part.taken_endCommand _ _ _ _ _ _ hd

@[simp] theorem Part.taken_doneOr (v : Verb) (w : SlotWrite) (adjusted : Bool) (data : List Word) (p : Part)
    (hd : data.length ≤ 24) :
    (p.taken v w).doneOr w.slot adjusted data =
      p.answered v w (if adjusted then .doneAdjusted else .done) (if adjusted then .adjusted else .ok) data := by
  unfold Part.doneOr
  split
  · exact Part.taken_endCommand _ _ _ _ _ _ hd
  · exact Part.taken_done _ _ _ _ hd

/-- A command in flight whose end is not taken ends: its result data waits, and its end is taken (R22). -/
theorem Part.endCommand_of_open {n : Fin 8} {c : Latched} {p : Part} (hcmd : p.cmdIn n = some c) (hopen : c.ended = false)
    (cls : ResultClass) (code : ResultCode) {data : List Word} (hd : data.length ≤ 24) :
    p.endCommand n cls code data =
      { p with
        cpa :=
          { p.cpa with
            slots := p.cpa.slots.set n { p.cpa.slots[n] with cmd := some { c with ended := true } }
            writes := p.cpa.writes ++ [.resultData n (padTo 24 0 data) cls code] } } := by
  unfold Part.endCommand
  simp only [hcmd, hopen, Bool.false_eq_true, if_false, List.take_of_length_le hd]
  rfl

theorem Part.endCommand_hasEnded {n : Fin 8} {c : Latched} {p : Part} (hcmd : p.cmdIn n = some c) (hopen : c.ended = false)
    (cls : ResultClass) (code : ResultCode) {data : List Word} (hd : data.length ≤ 24) :
    (p.endCommand n cls code data).hasEnded n cls code data := by
  rw [Part.endCommand_of_open hcmd hopen cls code hd]
  refine ⟨?_, ?_⟩
  · simp
  · simp

/-- A command whose end has been taken is left as it is. -/
theorem Part.endCommand_of_ended {n : Fin 8} {c : Latched} {p : Part} (hcmd : p.cmdIn n = some c) (hended : c.ended = true)
    (cls : ResultClass) (code : ResultCode) (data : List Word) : p.endCommand n cls code data = p := by
  unfold Part.endCommand
  simp only [hcmd, hended, if_true]

/-! ## Checks before the owner (R21, R23, R26, R27, R38) -/

/-- A BUSY slot takes the words of a host write into its copy. -/
theorem Part.noteWrite_of_busy {w : SlotWrite} {c : Latched} {p : Part} (h : p.cpa.slots[w.slot].cmd = some c) :
    p.noteWrite w = { p with cpa := { p.cpa with slots := p.cpa.slots.set w.slot ⟨w.tag, p.words w, some c⟩ } } := by
  show { p with cpa := { p.cpa with slots := p.cpa.slots.set w.slot ⟨w.tag, p.words w, p.cpa.slots[w.slot].cmd⟩ } } = _
  rw [h]

theorem Part.noteWrite_cmdIn (w : SlotWrite) (p : Part) : (p.noteWrite w).cmdIn w.slot = p.cpa.slots[w.slot].cmd := by
  simp [Part.noteWrite, Part.cmdIn]

/-- An IDLE slot latches the command of a host write. -/
theorem Part.noteWrite_latch (v : Verb) (w : SlotWrite) (p : Part) : (p.noteWrite w).latch (some v) w.slot = p.taken v w := by
  simp [Part.noteWrite, Part.latch, Part.setCmd, Part.taken, Part.holding, Part.words]

theorem Part.noteWrite_args (w : SlotWrite) (p : Part) : (p.noteWrite w).cpa.slots[w.slot].args = p.words w := by
  simp [Part.noteWrite, Part.words]

theorem Part.hostVerb_of_busy {v : Verb} {w : SlotWrite} {c : Latched} {p : Part} (hrun : p.phase = .running)
    (h : p.cpa.slots[w.slot].cmd = some c) (body : Fin 8 → List Word → Part → Part) :
    p.hostVerb v body w = { p with cpa := { p.cpa with slots := p.cpa.slots.set w.slot ⟨w.tag, p.words w, some c⟩ } } := by
  rw [← Part.noteWrite_of_busy h]
  unfold Part.hostVerb
  simp only [hrun, if_true, Part.noteWrite_cmdIn, h]

theorem Part.hostVerb_of_idle {v : Verb} {w : SlotWrite} {p : Part} (hrun : p.phase = .running)
    (h : p.cpa.slots[w.slot].cmd = none) (body : Fin 8 → List Word → Part → Part) :
    p.hostVerb v body w = (p.taken v w).gate v w.slot (body w.slot (p.words w)) := by
  unfold Part.hostVerb
  simp only [hrun, if_true, Part.noteWrite_cmdIn, h, Part.takeVerb, Part.noteWrite_latch, Part.noteWrite_args]

theorem Part.gate_of_wrongMode {v : Verb} {p : Part} (h : v.accepted p.cpa.mode = false) (n : Fin 8) (body : Part → Part) :
    p.gate v n body = p.refuse n .wrongMode [] := by
  simp [Part.gate, h]

theorem Part.gate_of_resetting {v : Verb} {p : Part} (hmode : v.accepted p.cpa.mode = true) (hres : p.cpa.resetting.isSome = true)
    (hduring : v.duringReset = false) (n : Fin 8) (body : Part → Part) : p.gate v n body = p.refuse n .busy [1] := by
  simp [Part.gate, hmode, hres, hduring]

theorem Part.gate_of_missing {v : Verb} {data : List Word} {p : Part} (hmode : v.accepted p.cpa.mode = true)
    (hres : p.cpa.resetting = none) (hshot : v.isShot = true) (hservice : p.cpa.mode = .service) (hmissing : p.missing = some data)
    (n : Fin 8) (body : Part → Part) : p.gate v n body = p.refuse n .notReady data := by
  rw [hservice] at hmode
  simp [Part.gate, hmode, hres, hshot, hservice, hmissing]

/-- A missing item is named in at most two words. -/
theorem Part.missing_length {data : List Word} {p : Part} (h : p.missing = some data) : data.length ≤ 24 := by
  unfold Part.missing at h
  split at h
  · cases h; simp
  · split at h
    · cases h; simp
    · repeat' split at h
      all_goals cases h
      all_goals simp

/-- Settles O21: each refusal is the gate's, of a command just latched. -/
theorem commandsAreCheckedByModeBeforeTheirOwners : Obligations.CommandsAreCheckedByModeBeforeTheirOwners := by
  refine ⟨⟨fun v hv m => ?_, fun m => by cases m <;> rfl, fun v hv m => ?_, fun v hv m => ?_, fun m => by cases m <;> rfl,
    fun v => by cases v <;> decide⟩, fun v w s hv hrun => ⟨fun c hc => ?busy, fun hidle => ⟨fun hmode => ?wrongMode, fun hmode hres hduring => ?resetting,
    fun data hmode hres hshot hservice hmissing => ?missing⟩⟩⟩
  · cases m <;> revert v <;> decide
  · cases m <;> revert v <;> decide
  · cases m <;> revert v <;> decide
  case busy => rw [exec_row hv, Part.hostVerb_of_busy hrun hc]
  all_goals rw [exec_row hv, Part.hostVerb_of_idle hrun hidle]
  case wrongMode => rw [Part.gate_of_wrongMode (p := s.part.taken v w) hmode, Part.taken_refuse _ _ _ _ _ (by simp)]
  case resetting => rw [Part.gate_of_resetting (p := s.part.taken v w) hmode hres hduring, Part.taken_refuse _ _ _ _ _ (by simp)]
  case missing =>
    rw [Part.gate_of_missing (p := s.part.taken v w) hmode hres hshot hservice hmissing,
      Part.taken_refuse _ _ _ _ _ (Part.missing_length hmissing)]

/-! ## SET_EVENT_MASK, CLEAR_FLAGS, START -/

/-- The part with the items selected by bits 0 to 2 cleared (R37). -/
def Part.clearItems (sel : Word) (p : Part) : Part :=
  { p with
    cpa := { p.cpa with dropped := if sel.getLsbD 0 then false else p.cpa.dropped }
    icr := { p.icr with strayCount := if sel.getLsbD 1 then 0 else p.icr.strayCount }
    sht := { p.sht with guardCount := if sel.getLsbD 2 then 0 else p.sht.guardCount } }

theorem Part.clearItems_of_none {sel : Word} (h0 : sel.getLsbD 0 = false) (h1 : sel.getLsbD 1 = false) (h2 : sel.getLsbD 2 = false)
    (p : Part) : p.clearItems sel = p := by
  simp only [Part.clearItems, h0, h1, h2, Bool.false_eq_true, if_false]

/-- CLEAR_FLAGS clears the items that its word selects, and the status record becomes due if there is one (R37). -/
theorem cmdClearFlags_eq (n : Fin 8) (args : List Word) (p : Part) :
    cmdClearFlags n args p =
      Part.done n [flagWord p.cpa.dropped, p.icr.strayCount, p.sht.guardCount]
        (if (argWord args 0).getLsbD 0 || (argWord args 0).getLsbD 1 || (argWord args 0).getLsbD 2
        then (p.clearItems (argWord args 0)).statusDirty else p.clearItems (argWord args 0)) := by
  have hdropped : (p.cpa.dropped && !(argWord args 0).getLsbD 0) = if (argWord args 0).getLsbD 0 then false else p.cpa.dropped := by
    cases (argWord args 0).getLsbD 0 <;> simp
  unfold cmdClearFlags
  dsimp only
  rw [hdropped]
  rfl

/-- Settles O23. -/
theorem maskAndFlagCommandsEnd : Obligations.MaskAndFlagCommandsEnd := by
  refine ⟨fun w s h => ?mask, fun w s h => ?flags⟩
  case' flags =>
    intro sel before
    refine ⟨fun h0 h1 h2 => ?nothing, fun hsel => ?cleared⟩
  case mask =>
    refine (exec_row_of_takes_other (v := .setEventMask) (by decide) rfl h).trans (State.next_part_congr ?_)
    exact Part.taken_done .setEventMask w [s.part.cpa.mask.setWidth 32]
      { s.part with cpa := { s.part.cpa with mask := ((s.part.words w).getD 0 0).setWidth 22 } } (by simp)
  all_goals
    refine (exec_row_of_takes_other (v := .clearFlags) (by decide) rfl h).trans (State.next_part_congr ?_)
    refine (cmdClearFlags_eq w.slot (s.part.words w) (s.part.taken .clearFlags w)).trans ?_
    change Part.done w.slot before
      (if sel.getLsbD 0 || sel.getLsbD 1 || sel.getLsbD 2 then (Part.taken .clearFlags w (s.part.clearItems sel)).statusDirty
        else Part.taken .clearFlags w (s.part.clearItems sel)) = _
  case nothing =>
    have hany : ¬ (sel.getLsbD 0 || sel.getLsbD 1 || sel.getLsbD 2) = true := by simp only [h0, h1, h2]; decide
    rw [if_neg hany, Part.taken_done _ _ _ _ (by simp [before]), Part.clearItems_of_none h0 h1 h2]
  case cleared =>
    have hany : (sel.getLsbD 0 || sel.getLsbD 1 || sel.getLsbD 2) = true := by
      rcases hsel with hsel | hsel | hsel <;> rw [hsel] <;> simp
    rw [if_pos hany, Part.taken_statusDirty, Part.taken_done _ _ _ _ (by simp [before])]
    rfl

/-- The preconditions of START, all of them (R28). -/
theorem Part.missing_eq_none_iff (p : Part) : p.missing = none ↔
    (∃ g x, p.pts.geometry = some g ∧ p.pts.windowOf .frameStore = some x ∧ 3 ≤ min 12 (x.size / g.slotSize)) ∧
    (p.pts.windowOf .ingest).isSome = true ∧ (p.pts.windowOf .view).isSome = true ∧ (p.pts.windowOf .bundle).isSome = true ∧
    p.cal.committed.blackSat = true ∧ p.cal.committed.gainGrid = true ∧ p.cal.committed.darkTemp = true := by
  unfold Part.missing
  cases hg : p.pts.geometry with
  | none => simp
  | some g =>
    cases hw : p.pts.windowOf .frameStore with
    | none => simp
    | some x =>
      have hslots : g.slotsIn x.size = min 12 (x.size / g.slotSize) := rfl
      simp only [hslots, Option.some.injEq, exists_and_left, exists_eq_left']
      by_cases h3 : min 12 (x.size / g.slotSize) < 3
      · simp only [h3, if_true]
        simp only [reduceCtorEq, false_iff]
        omega
      · have h3' : 3 ≤ min 12 (x.size / g.slotSize) := by omega
        simp only [h3, if_false, h3', true_and]
        cases p.pts.windowOf .ingest <;> simp
        cases p.pts.windowOf .view <;> simp
        cases p.pts.windowOf .bundle <;> simp
        cases p.cal.committed.blackSat <;> simp
        cases p.cal.committed.gainGrid <;> simp

/-- The slot count is fixed from the FRAME_STORE window and the geometry (R58). -/
theorem Part.fixSlots_of_free {g : Geometry} {x : Window} {p : Part} (hlayout : p.sht.layout = none)
    (hg : p.pts.geometry = some g) (hx : p.pts.windowOf .frameStore = some x) :
    p.fixSlots =
      Part.statusDirty
        { p with sht := { p.sht with layout := some ⟨x.base, g.slotSize⟩, slots := List.replicate (g.slotsIn x.size) .free } } := by
  unfold Part.fixSlots
  simp only [hlayout, hg, hx]

theorem cmdStart_of_missing {data : List Word} {p : Part} (h : p.missing = some data) (n : Fin 8) (args : List Word) :
    cmdStart n args p = p.refuse n .notReady data := by
  unfold cmdStart
  simp only [h]

theorem cmdStart_of_ready {p : Part} (h : p.missing = none) (n : Fin 8) (args : List Word) :
    cmdStart n args p =
      (Part.fixSlots { p with cpa := { p.cpa with mode := .operational } }).statusDirty.done n
        [natWord (Part.fixSlots { p with cpa := { p.cpa with mode := .operational } }).sht.slots.length, natWord p.geo.slotPages] := by
  unfold cmdStart
  simp only [h]
  have hgeo : (Part.fixSlots { p with cpa := { p.cpa with mode := .operational } }).geo = p.geo := by
    simp only [Part.geo, Part.fixSlots_pts]
  rw [hgeo]

/-- Settles O24. -/
theorem startFixesTheSlots : Obligations.StartFixesTheSlots := by
  refine ⟨Part.missing_eq_none_iff, fun w s h => ⟨fun data hmissing => ⟨Part.missing_length hmissing, ?refused⟩,
    fun g x hmissing hlayout hg hx => ?started⟩⟩
  all_goals
    have hrow := exec_row_of_takes_other (v := .start) (by decide) rfl h
    refine hrow.trans ?_
  case refused =>
    have hbody : Verb.body .start w.slot (s.part.words w) (s.part.taken .start w) =
        (s.part.taken .start w).refuse w.slot .notReady data := cmdStart_of_missing (p := s.part.taken .start w) hmissing w.slot []
    rw [hbody, Part.taken_refuse _ _ _ _ _ (Part.missing_length hmissing)]
  case started =>
    have hfix : Part.fixSlots { s.part.taken .start w with cpa := { (s.part.taken .start w).cpa with mode := .operational } } =
        Part.taken .start w
          (Part.statusDirty
            { s.part with
              cpa := { s.part.cpa with mode := .operational }
              sht :=
                { s.part.sht with
                  layout := some ⟨x.base, g.slotSize⟩, slots := List.replicate (g.slotsIn x.size) .free } }) := by
      rw [← Part.taken_statusDirty]
      exact Part.fixSlots_of_free (p := { s.part.taken .start w with cpa := { (s.part.taken .start w).cpa with mode := .operational } }) hlayout hg hx
    have hbody : Verb.body .start w.slot (s.part.words w) (s.part.taken .start w) = _ :=
      cmdStart_of_ready (p := s.part.taken .start w) hmissing w.slot []
    rw [hbody, hfix, Part.taken_statusDirty, Part.statusDirty_statusDirty, Part.taken_done _ _ _ _ (by simp)]
    have hgeo : (s.part.taken .start w).geo = g := by simp [Part.geo, hg]
    simp only [hgeo, Part.taken_sht, Part.statusDirty_sht, List.length_replicate]
    rfl

/-! ## ABORT (R24) -/

/-- The part with the words of a host write in the copy of a BUSY slot. -/
def Part.copied (w : SlotWrite) (c : Latched) (p : Part) : Part :=
  { p with cpa := { p.cpa with slots := p.cpa.slots.set w.slot ⟨w.tag, p.words w, some c⟩ } }

theorem Part.noteWrite_eq_copied {w : SlotWrite} {c : Latched} {p : Part} (h : p.cpa.slots[w.slot].cmd = some c) :
    p.noteWrite w = p.copied w c := Part.noteWrite_of_busy h

@[simp] theorem Part.copied_cmdIn (w : SlotWrite) (c : Latched) (p : Part) : (p.copied w c).cmdIn w.slot = some c := by
  simp [Part.copied, Part.cmdIn]

@[simp] theorem Part.copied_markAborting (w : SlotWrite) (c : Latched) (p : Part) :
    (p.copied w c).markAborting w.slot c = p.copied w { c with aborting := true } := by
  simp [Part.copied, Part.markAborting, Part.setCmd]

theorem exec_abort_of_idle {w : SlotWrite} {s : State} (hrun : s.part.phase = .running)
    (h : s.part.cpa.slots[w.slot].cmd = none) :
    exec (.abort w) s = .next { s with part := s.part.answered .abort w .done .ok [1] } := by
  have hpart : s.part.hostAbort w = (s.part.taken .abort w).gate .abort w.slot (cmdAbort w.slot (s.part.words w)) := by
    unfold Part.hostAbort Part.abortSlot
    simp only [hrun, if_true, Part.noteWrite_cmdIn, h, Part.takeVerb, Part.noteWrite_latch, Part.noteWrite_args]
  have hgate : (s.part.taken .abort w).gate .abort w.slot (cmdAbort w.slot (s.part.words w)) =
      (s.part.taken .abort w).done w.slot [1] := by
    simp [Part.gate, Verb.accepted, Verb.isShot, Verb.duringReset, cmdAbort]
  rw [show exec (.abort w) s = .next { s with part := s.part.hostAbort w } from rfl, hpart, hgate, Part.taken_done _ _ _ _ (by simp)]

theorem exec_abort_of_busy {w : SlotWrite} {c : Latched} {s : State} (hrun : s.part.phase = .running)
    (h : s.part.cpa.slots[w.slot].cmd = some c) :
    exec (.abort w) s = .next { s with part := (s.part.copied w c).abortBusy w.slot c } := by
  have hpart : s.part.hostAbort w = (s.part.copied w c).abortBusy w.slot c := by
    unfold Part.hostAbort Part.abortSlot
    simp only [hrun, if_true, Part.noteWrite_eq_copied h, Part.copied_cmdIn]
  rw [show exec (.abort w) s = .next { s with part := s.part.hostAbort w } from rfl, hpart]

theorem Part.abortBusy_of_goesOn {c : Latched} (h : c.ended = true ∨ c.aborting = true ∨ (c.verb ≠ some .cardInit ∧ c.verb ≠ some .loadClose))
    (n : Fin 8) (p : Part) : p.abortBusy n c = p := by
  unfold Part.abortBusy
  split
  · rfl
  · next hopen =>
    simp only [Bool.or_eq_true, not_or] at hopen
    rcases h with h | h | ⟨hinit, hclose⟩
    · exact absurd h hopen.1
    · exact absurd h hopen.2
    · split
      · exact absurd ‹_› hinit
      · exact absurd ‹_› hclose
      · rfl

theorem Part.abortBusy_of_cardInit {c : Latched} (hended : c.ended = false) (haborting : c.aborting = false)
    (hverb : c.verb = some .cardInit) (n : Fin 8) (p : Part) : p.abortBusy n c = (p.markAborting n c).abortBringup := by
  simp [Part.abortBusy, hended, haborting, hverb]

theorem Part.abortBusy_of_loadClose {c : Latched} (hended : c.ended = false) (haborting : c.aborting = false)
    (hverb : c.verb = some .loadClose) (n : Fin 8) (p : Part) : p.abortBusy n c = (p.markAborting n c).abortClose := by
  simp [Part.abortBusy, hended, haborting, hverb]

/-- A bring-up at rest ends aborted: the card is PRESENT and its CARD_INIT FAILED/ABORTED with the step. -/
theorem Part.bringupAborted_ends {b : Bringup} {c : Latched} {p : Part} (hcmd : p.cmdIn b.slot = some c) (hopen : c.ended = false) :
    (p.bringupAborted b).cde.bringup = none ∧ (p.bringupAborted b).cde.card = .present ∧
      (p.bringupAborted b).hasEnded b.slot .failed .aborted [natWord b.step.code] := by
  have hcmd' : (p.dropBringup.setCard .present []).cmdIn b.slot = some c := by
    rw [← hcmd]
    simp [Part.cmdIn, Part.setCard, Part.dropBringup]
  refine ⟨?_, ?_, Part.endCommand_hasEnded hcmd' hopen .failed .aborted (by simp)⟩
  · simp [Part.bringupAborted, Part.setCard, Part.dropBringup, Part.fail]
  · simp [Part.bringupAborted, Part.setCard, Part.dropBringup, Part.fail]

/-- Settles O25. -/
theorem abortEndsOnlyWhatCanBeAborted : Obligations.AbortEndsOnlyWhatCanBeAborted := by
  intro w s hrun copied
  refine ⟨exec_abort_of_idle hrun, fun c hc => ⟨fun hgoes => ?goesOn, fun b hended haborting hverb hb hrest => ?waits,
    fun b hended haborting hverb hb hslot hstep hresponse => ?cardInit, fun hended haborting hverb hcloser => ?loadClose⟩⟩
  all_goals rw [exec_abort_of_busy hrun hc]
  case goesOn => rw [Part.abortBusy_of_goesOn hgoes]; rfl
  case waits =>
    have hbringup : (s.part.copied w { c with aborting := true }).cde.bringup = some b := hb
    rw [Part.abortBusy_of_cardInit hended haborting hverb, Part.copied_markAborting, Part.abortBringup]
    simp only [hbringup, if_neg hrest]
    rfl
  case cardInit =>
    have hbringup : (s.part.copied w { c with aborting := true }).cde.bringup = some b := hb
    have hcmd : (s.part.copied w { c with aborting := true }).cmdIn b.slot = some { c with aborting := true } := by
      rw [hslot, Part.copied_cmdIn]
    obtain ⟨hnone, hcard, hend⟩ := Part.bringupAborted_ends hcmd hended
    rw [Part.abortBusy_of_cardInit hended haborting hverb, Part.copied_markAborting, Part.abortBringup]
    simp only [hbringup, if_pos (And.intro hstep hresponse)]
    rw [hslot, hstep] at hend
    exact ⟨_, rfl, rfl, rfl, hnone, hcard, hend⟩
  case loadClose =>
    have hcloser' : (s.part.copied w { c with aborting := true }).cal.closer = some w.slot := hcloser
    have hcmd : (s.part.copied w { c with aborting := true }).endSession.cmdIn w.slot = some { c with aborting := true } := by
      rw [← Part.copied_cmdIn w { c with aborting := true } s.part]
      rfl
    rw [Part.abortBusy_of_loadClose hended haborting hverb, Part.copied_markAborting, Part.abortClose]
    simp only [hcloser']
    rw [Part.fail, Part.endCommand_of_open hcmd hended _ _ (by simp)]
    simp [Part.copied, Part.endSession, padTo]

/-! ## Events and status writes (R29, R34, R35) -/

/-- Settles O18. -/
theorem eventsAndStatusWritesBecomeDue : Obligations.EventsAndStatusWritesBecomeDue := by
  refine ⟨fun e p => ⟨fun hmask => ?disabled, fun hmask hfull => ⟨fun hdropped => ?again, fun hdropped => ?first⟩,
    fun hmask hroom => ⟨fun hbusy => ?later, fun hbusy => ?now⟩⟩, fun p => ⟨fun hreset hrun => ?early, fun hphase => ⟨fun ws hws => ?queued,
    fun hnone => ?due⟩⟩⟩
  case disabled => simp [Part.emitEvent, hmask]
  case again => simp [Part.emitEvent, hmask, Cpa.unconsumed, hfull, hdropped, Config.ringRecords]
  case first => simp [Part.emitEvent, hmask, Cpa.unconsumed, hfull, hdropped, Config.ringRecords]
  case later => rw [Part.emitEvent, if_pos hmask, if_neg (show ¬p.cpa.unconsumed = Config.ringRecords from hroom), Part.acceptEvent, if_pos hbusy]
  case now => rw [Part.emitEvent, if_pos hmask, if_neg (show ¬p.cpa.unconsumed = Config.ringRecords from hroom), Part.acceptEvent, if_neg (by simp [hbusy])]
  case early => simp [Part.statusDirty, hreset, hrun]
  case queued => exact Part.statusDirty_eq_self (List.any_eq_true.mpr ⟨_, hws, rfl⟩)
  case due =>
    have hany : p.cpa.writes.any CpaWrite.isStatus = false := by
      rw [List.any_eq_false]
      intro x hx
      simp [hnone x hx]
    simp [Part.statusDirty, hphase, hany, Part.pushWrite]

/-! ## The CPA's completions (R22, R30, R32) -/

/-- Settles O20. -/
theorem cpaCompletionsFollowInOrder : Obligations.CpaCompletionsFollowInOrder := by
  refine ⟨fun s n words cls code h => ?resultData, fun s n cls code h => ?slotBeat, fun s i e h => ?eventRecord, fun s w h => ?producer⟩
  case resultData =>
    rw [show exec .resultDataWritten s = .next { s with part := s.part.resultDataDone } from rfl, Part.resultDataDone]
    simp only [h]
    rfl
  case slotBeat =>
    rw [show exec .slotResultWritten s = .next { s with part := s.part.slotResultDone } from rfl, Part.slotResultDone]
    simp only [h]
    rfl
  case eventRecord =>
    rw [show exec .eventRecordWritten s = .next { s with part := s.part.eventRecordDone } from rfl, Part.eventRecordDone]
    simp only [h]
    rfl
  case producer =>
    have hrow : exec .producerWritten s = .next { s with
        part := (Part.updateIrq { s.part with cpa := { s.part.cpa with ended := none, written := w } }).nextEvent } := by
      rw [show exec .producerWritten s = .next { s with part := s.part.producerDone } from rfl, Part.producerDone]
      simp only [h]
    refine ⟨fun hevents => ?_, fun i e rest hevents => ?_⟩
    all_goals
      rw [hrow, Part.nextEvent]
      simp only [Part.updateIrq, hevents, Part.pushWrite]

/-! ## The timebase and the reset sequence (R17, R40, R78) -/

theorem prescaler_eq (sel : BitVec 2) : prescaler sel = if sel = 0 then 24 else if sel = 1 then 27 else 48 := by
  revert sel
  decide

theorem step_of_idle {s : State} (h : s.pending = []) : step s = .next s.idle := by
  unfold step
  rw [h]

/-- Settles O2. -/
theorem clockAndResetSequenceAdvance : Obligations.ClockAndResetSequenceAdvance := by
  refine ⟨fun s hidle => ⟨fun hphase => ?held, fun hphase => ?counts⟩, fun s hphase => ?release, fun c s hphase => ?capacity, by decide,
    fun s hphase hzero => ?opens⟩
  case held =>
    rw [step_of_idle hidle]
    simp [State.idle, Part.tick, hphase]
  case counts =>
    rw [step_of_idle hidle]
    simp only [State.idle, Part.tick, if_neg hphase, prescaler_eq]
    by_cases hwrap : s.part.clock.prescale + 1 < (if s.part.straps.refclkSel = 0 then 24 else if s.part.straps.refclkSel = 1 then 27 else 48)
    · simp only [if_pos hwrap]
    · simp only [if_neg hwrap]
  case release =>
    rw [show exec .resetRelease s = .next { s with part := s.part.resetRelease } from rfl, Part.resetRelease, if_pos hphase]
    rfl
  case capacity =>
    rw [show exec (.capacityObtained c) s = .next { s with part := s.part.capacityObtained c } from rfl, Part.capacityObtained, if_pos hphase]
    rfl
  case opens =>
    rw [show exec .resetWritesDone s = .next { s with part := s.part.resetWritesDone } from rfl, Part.resetWritesDone,
      if_pos ⟨hphase, hzero⟩]

/-- Settles O3. -/
theorem resetStateHoldsTheSpecsValues : Obligations.ResetStateHoldsTheSpecsValues := by
  have hwindows : ∀ i : Fin 16, i ≠ 0 → State.reset.part.pts.windows[i].present = false := by decide
  have hslots : ∀ n : Fin 8, State.reset.part.cpa.slots[n] = ⟨0, List.replicate 24 0, none⟩ := by decide
  refine ⟨rfl, rfl, rfl, hwindows, rfl, rfl, rfl, rfl, hslots, ?_⟩
  repeat' constructor

end Sys2Proof.Machine
end

section
/-! PROOFS. The frame memory port: the arbiter's grant (R13 to R15), what the end of a burst does (R7, R13, R134, R154, R174,
R190), and STATUS, which ends with its status write (R36). -/

namespace Sys2Proof.Machine

/-! ## Lengths of byte runs (R214, R217) -/

@[simp] theorem leBytes_length (n v : Nat) : (leBytes n v).length = n := by
  induction n generalizing v with
  | zero => rfl
  | succ n ih => simp [leBytes, ih]

@[simp] theorem wordBytes_length (w : Word) : (wordBytes w).length = 4 := leBytes_length 4 _

/-- A list of equally long pieces is as long as they are together. -/
theorem length_flatMap_of_const {α β : Type} {f : α → List β} {c : Nat} (hf : ∀ x, (f x).length = c) (l : List α) :
    (l.flatMap f).length = c * l.length := by
  induction l with
  | nil => rfl
  | cons x l ih => rw [List.flatMap_cons, List.length_append, hf, ih, List.length_cons, Nat.mul_succ, Nat.add_comm]

@[simp] theorem wordsBytes_length (ws : List Word) : (wordsBytes ws).length = 4 * ws.length :=
  length_flatMap_of_const wordBytes_length ws

@[simp] theorem padTo_length {α : Type} (n : Nat) (x : α) (l : List α) : (padTo n x l).length = max n l.length := by
  simp only [padTo, List.length_append, List.length_replicate]
  omega

@[simp] theorem Part.statusBytes_length (p : Part) : p.statusBytes.length = 256 := by
  unfold Part.statusBytes
  rw [List.length_append, List.length_replicate]
  simp only [List.length_append, leBytes_length]

/-! ## The masters (R15) -/

/-- The first element that satisfies a test, when none before it does. -/
theorem find?_of_takeWhile {α : Type} [DecidableEq α] {l : List α} {m : α} {f : α → Bool} (hmem : m ∈ l) (hm : f m = true)
    (hbefore : ∀ x ∈ l.takeWhile (fun x => decide (x ≠ m)), f x = false) : l.find? f = some m := by
  induction l with
  | nil => cases hmem
  | cons y ys ih =>
    by_cases hy : y = m
    · subst hy
      simp [hm]
    · have hne : decide (y ≠ m) = true := by simp [hy]
      rw [List.takeWhile_cons, if_pos hne] at hbefore
      rw [List.find?_cons, hbefore y List.mem_cons_self]
      refine ih ?_ fun x hx => hbefore x (List.mem_cons_of_mem _ hx)
      rcases List.mem_cons.1 hmem with rfl | h
      · exact absurd rfl hy
      · exact h

theorem Master.mem_after (m last : Master) : m ∈ last.after := by
  cases m <;> cases last <;> decide

theorem Part.waitingMaster_eq_none {p : Part} (h : ∀ m, p.requestOf m = none) : p.waitingMaster = none := by
  rw [Part.waitingMaster, List.find?_eq_none]
  intro m _
  simp [h m]

theorem Part.waitingMaster_isSome {p : Part} (h : ∃ m, p.requestOf m ≠ none) : ∃ m, p.waitingMaster = some m := by
  obtain ⟨m, hm⟩ := h
  rw [← Option.isSome_iff_exists, Part.waitingMaster, List.find?_isSome]
  exact ⟨m, m.mem_after _, Option.isSome_iff_ne_none.mpr hm⟩

theorem Part.waitingMaster_of_first {m : Master} {a : Access} {p : Part} (h : p.requestOf m = some a)
    (hbefore : ∀ x ∈ p.port.last.after.takeWhile (fun x => decide (x ≠ m)), p.requestOf x = none) : p.waitingMaster = some m :=
  find?_of_takeWhile (m.mem_after _) (by simp [h]) fun x hx => by simp [hbefore x hx]

/-! ## Arbitration and grant (R14) -/

theorem Part.arbitrate_of_none {p : Part} (hpass : p.passRequest = none) (hmasters : ∀ m, p.requestOf m = none) :
    p.arbitrate = none := by
  simp [Part.arbitrate, hpass, Part.waitingMaster_eq_none hmasters]

theorem Part.arbitrate_of_pass {a : Access} {p : Part} (hpass : p.passRequest = some a) {counter : Nat}
    (hcounter : ((∀ m, p.requestOf m = none) ∧ counter = 0) ∨
      ((∃ m, p.requestOf m ≠ none) ∧ p.port.starvation < 16 ∧ counter = p.port.starvation + 1)) :
    p.arbitrate = some (.passThrough, counter) := by
  rcases hcounter with ⟨hmasters, rfl⟩ | ⟨hsome, hlt, rfl⟩
  · simp [Part.arbitrate, hpass, Part.waitingMaster_eq_none hmasters]
  · obtain ⟨m, hm⟩ := Part.waitingMaster_isSome hsome
    simp [Part.arbitrate, hpass, hm, Config.starvationLimit, hlt]

theorem Part.arbitrate_of_internal {m : Master} {p : Part} (hm : p.waitingMaster = some m)
    (hpass : p.passRequest = none ∨ 16 ≤ p.port.starvation) : p.arbitrate = some (.internal m, 0) := by
  unfold Part.arbitrate
  rw [hm]
  rcases hpass with hpass | hstarved
  · simp [hpass]
  · have hnot : ¬ p.port.starvation < Config.starvationLimit := Nat.not_lt.mpr hstarved
    cases p.passRequest with
    | none => rfl
    | some a => simp only [Option.isSome_some, if_neg hnot]

/-- The grant that the arbiter's table gives is carried out, if it lies in the installed memory. -/
theorem exec_arbiterGrant_of_arbitrate {s : State} {who : Requester} {counter : Nat} {q : Part} (hfree : s.part.port.busy = none)
    (hended : s.part.cpa.ended = none) (harb : s.part.arbitrate = some (who, counter))
    (hgrant : Part.grant who { s.part with port := { s.part.port with starvation := counter } } = q) (hin : q.strays = none) :
    exec .arbiterGrant s = .next { s with part := q } := by
  rw [show exec .arbiterGrant s = execArbiterGrant s from rfl, execArbiterGrant]
  rw [if_neg (by simp [hfree, hended]), harb]
  dsimp only
  rw [hgrant, hin]

theorem exec_arbiterGrant_of_none {s : State} (harb : s.part.arbitrate = none) : exec .arbiterGrant s = .next s := by
  rw [show exec .arbiterGrant s = execArbiterGrant s from rfl, execArbiterGrant, harb]
  split
  · rfl
  · rfl

theorem Part.strays_eq_none {p : Part} {b : InFlight} (hb : p.port.busy = some b) (hin : b.addr + b.length ≤ p.pts.capacity) :
    p.strays = none := by
  simp only [Part.strays, hb, if_neg (Nat.not_lt.mpr hin)]

/-- The burst as which a master other than the CPA carries its request. -/
def Master.burst (m : Master) (a : Access) (list : Bool) : InFlight :=
  ⟨.internal m, a.write, a.addr, a.length, a.data, none, [], list⟩

theorem Part.grant_internal {m : Master} {a : Access} {p : Part} (hm : m ≠ .cpa) (h : p.requestOf m = some a) :
    p.grant (.internal m) =
      { p with port := ⟨p.port.starvation, m, some (m.burst a (decide (m = .cde) && p.cde.openList.isSome))⟩ } := by
  cases m with
  | cpa => exact absurd rfl hm
  | dpe =>
    have h' : Part.requestOf .dpe { p with port := { p.port with last := .dpe } } = some a := h
    simp only [Part.grant, h']
    rfl
  | prn =>
    have h' : Part.requestOf .prn { p with port := { p.port with last := .prn } } = some a := h
    simp only [Part.grant, h']
    rfl
  | cde =>
    have h' : p.cde.request = some a := h
    simp only [Part.grant, h']
    rfl

/-- The part once a write of the CPA has left its queue, a status write counted (R34). -/
def Part.cpaGranted (x : CpaWrite) (rest : List CpaWrite) (p : Part) : Part :=
  { p with cpa := { p.cpa with writes := rest, updates := p.cpa.updates + (if x.isStatus then 1 else 0) } }

/-- The access of a CPA write does not depend on the port. -/
theorem CpaWrite.access_port (x : CpaWrite) (port : Port) (p : Part) : x.access { p with port := port } = x.access p := by
  cases x <;> rfl

/-- Nor does it depend on the queue and the update count, unless it carries the status record. -/
theorem CpaWrite.access_cpaGranted {x : CpaWrite} (hx : x.isStatus = false) (y : CpaWrite) (rest : List CpaWrite) (p : Part) :
    x.access (p.cpaGranted y rest) = x.access p := by
  cases x with
  | status waiters => cases hx
  | resetStatus => cases hx
  | _ => rfl

/-- A write of the status record is 256 bytes at the control page's base. -/
theorem CpaWrite.access_of_isStatus {x : CpaWrite} (hx : x.isStatus = true) (p : Part) :
    x.access p = ⟨true, p.pts.controlBase, 256, p.statusBytes⟩ := by
  have hstatus : Access.writeOf p.pts.controlBase p.statusBytes = ⟨true, p.pts.controlBase, 256, p.statusBytes⟩ := by
    rw [Access.writeOf, Part.statusBytes_length]
  cases x with
  | status waiters => exact hstatus
  | resetStatus => exact hstatus
  | _ => cases hx

/-- Its direction, place and length depend on neither. -/
theorem CpaWrite.access_cpaGranted_shape (x y : CpaWrite) (rest : List CpaWrite) (p : Part) :
    (x.access (p.cpaGranted y rest)).write = (x.access p).write ∧ (x.access (p.cpaGranted y rest)).addr = (x.access p).addr ∧
      (x.access (p.cpaGranted y rest)).length = (x.access p).length := by
  cases hx : x.isStatus with
  | false =>
    rw [CpaWrite.access_cpaGranted hx]
    exact ⟨rfl, rfl, rfl⟩
  | true =>
    rw [CpaWrite.access_of_isStatus hx, CpaWrite.access_of_isStatus hx]
    exact ⟨rfl, rfl, rfl⟩

/-- The burst as which a CPA write is carried. -/
def CpaWrite.burst (x : CpaWrite) (q : Part) : InFlight :=
  ⟨.internal .cpa, (x.access q).write, (x.access q).addr, (x.access q).length, (x.access q).data, some x, q.statusValues, false⟩

theorem Part.grant_cpa {x : CpaWrite} {rest : List CpaWrite} {p : Part} (h : p.cpa.writes = x :: rest) :
    p.grant (.internal .cpa) =
      { p.cpaGranted x rest with port := ⟨p.port.starvation, .cpa, some (x.burst (p.cpaGranted x rest))⟩ } := by
  have hgrant : p.grant (.internal .cpa) = Part.grantCpa x { p with port := { p.port with last := .cpa } } := by
    simp only [Part.grant, h]
  have hcounted :
      (if x.isStatus then { p with cpa := { p.cpa with writes := rest, updates := p.cpa.updates + 1 } }
        else { p with cpa := { p.cpa with writes := rest } }) = p.cpaGranted x rest := by
    unfold Part.cpaGranted
    split
    · rfl
    · simp
  have hport :
      (if x.isStatus then { p with port := { p.port with last := .cpa }, cpa := { p.cpa with writes := rest, updates := p.cpa.updates + 1 } }
        else { p with port := { p.port with last := .cpa }, cpa := { p.cpa with writes := rest } }) =
        { p.cpaGranted x rest with port := { p.port with last := .cpa } } := by
    rw [← hcounted]
    split
    · rfl
    · rfl
  have htail : p.cpa.writes.tail = rest := by rw [h]; rfl
  rw [hgrant, Part.grantCpa]
  simp only [htail, hport, CpaWrite.access_port]
  rfl

theorem Part.requestOf_cpa {a : Access} {p : Part} (h : p.requestOf .cpa = some a) :
    ∃ x rest, p.cpa.writes = x :: rest ∧ a = x.access p := by
  unfold Part.requestOf at h
  dsimp only at h
  split at h
  · cases hw : p.cpa.writes with
    | nil => rw [hw] at h; cases h
    | cons x rest =>
      rw [hw] at h
      exact ⟨x, rest, rfl, (Option.some.inj h).symm⟩
  · cases h

/-! ## ARBITER_GRANT, case by case -/

theorem exec_arbiterGrant_pass {s : State} {a : Access} {counter : Nat} (hfree : s.part.port.busy = none)
    (hended : s.part.cpa.ended = none) (hpass : s.part.passRequest = some a) (hin : a.addr + a.length ≤ s.part.pts.capacity)
    (hcounter : ((∀ m, s.part.requestOf m = none) ∧ counter = 0) ∨
      ((∃ m, s.part.requestOf m ≠ none) ∧ s.part.port.starvation < 16 ∧ counter = s.part.port.starvation + 1)) :
    exec .arbiterGrant s = .next
      { s with
        part :=
          { s.part with
            port :=
              { s.part.port with
                busy := some ⟨.passThrough, a.write, a.addr, a.length, a.data, none, [], false⟩
                starvation := counter } } } := by
  refine exec_arbiterGrant_of_arbitrate hfree hended (Part.arbitrate_of_pass hpass hcounter) ?_ (Part.strays_eq_none rfl hin)
  have hpass' : Part.passRequest { s.part with port := { s.part.port with starvation := counter } } = some a := hpass
  simp only [Part.grant, hpass']
  rfl

theorem exec_arbiterGrant_master {s : State} {m : Master} {a : Access} (hm : m ≠ .cpa) (hfree : s.part.port.busy = none)
    (hended : s.part.cpa.ended = none) (hreq : s.part.requestOf m = some a) (hin : a.addr + a.length ≤ s.part.pts.capacity)
    (hpass : s.part.passRequest = none ∨ 16 ≤ s.part.port.starvation)
    (hbefore : ∀ x ∈ s.part.port.last.after.takeWhile (fun x => decide (x ≠ m)), s.part.requestOf x = none) :
    exec .arbiterGrant s = .next
      { s with part := { s.part with port := ⟨0, m, some (m.burst a (decide (m = .cde) && s.part.cde.openList.isSome))⟩ } } := by
  refine exec_arbiterGrant_of_arbitrate hfree hended
    (Part.arbitrate_of_internal (Part.waitingMaster_of_first hreq hbefore) hpass) ?_ (Part.strays_eq_none rfl hin)
  have hreq' : Part.requestOf m { s.part with port := { s.part.port with starvation := 0 } } = some a := by
    rw [← hreq]
    cases m with
    | cpa => exact absurd rfl hm
    | _ => rfl
  rw [Part.grant_internal hm hreq']

theorem exec_arbiterGrant_cpa {s : State} {x : CpaWrite} {rest : List CpaWrite} {a : Access} (hfree : s.part.port.busy = none)
    (hended : s.part.cpa.ended = none) (hwrites : s.part.cpa.writes = x :: rest) (hreq : s.part.requestOf .cpa = some a)
    (hin : a.addr + a.length ≤ s.part.pts.capacity) (hpass : s.part.passRequest = none ∨ 16 ≤ s.part.port.starvation)
    (hbefore : ∀ y ∈ s.part.port.last.after.takeWhile (fun y => decide (y ≠ .cpa)), s.part.requestOf y = none) :
    exec .arbiterGrant s = .next
      { s with
        part := { s.part.cpaGranted x rest with port := ⟨0, .cpa, some (x.burst (s.part.cpaGranted x rest))⟩ } } := by
  obtain ⟨x', rest', hwrites', rfl⟩ := Part.requestOf_cpa hreq
  cases hwrites.symm.trans hwrites'
  obtain ⟨-, haddr, hlength⟩ := x.access_cpaGranted_shape x rest s.part
  have hin' : (x.burst (s.part.cpaGranted x rest)).addr + (x.burst (s.part.cpaGranted x rest)).length ≤ s.part.pts.capacity := by
    show (x.access (s.part.cpaGranted x rest)).addr + (x.access (s.part.cpaGranted x rest)).length ≤ _
    rw [haddr, hlength]
    exact hin
  refine exec_arbiterGrant_of_arbitrate hfree hended
    (Part.arbitrate_of_internal (Part.waitingMaster_of_first hreq hbefore) hpass) ?_ (Part.strays_eq_none rfl hin')
  rw [Part.grant_cpa (p := { s.part with port := { s.part.port with starvation := 0 } }) hwrites]
  have hburst : x.burst (Part.cpaGranted x rest { s.part with port := { s.part.port with starvation := 0 } }) =
      x.burst (s.part.cpaGranted x rest) := by
    have haccess := x.access_port { s.part.port with starvation := 0 } (s.part.cpaGranted x rest)
    unfold CpaWrite.burst
    rw [show Part.cpaGranted x rest { s.part with port := { s.part.port with starvation := 0 } } =
      { s.part.cpaGranted x rest with port := { s.part.port with starvation := 0 } } from rfl, haccess]
    rfl
  rw [hburst]
  rfl

/-! ## STATUS (R36) -/

/-- A STATUS command joins the queued status write, or one queued for it. -/
theorem addWaiter_spec (n : Fin 8) (writes : List CpaWrite) :
    ∃ pre waiters post, addWaiter n writes = pre ++ .status (waiters ++ [n]) :: post ∧
      (writes = pre ++ .status waiters :: post ∨
        (waiters = [] ∧ post = [] ∧ writes = pre ∧ ∀ x ∈ writes, ∀ ns, x ≠ .status ns)) := by
  induction writes with
  | nil => exact ⟨[], [], [], rfl, .inr ⟨rfl, rfl, rfl, fun _ hx => nomatch hx⟩⟩
  | cons w rest ih =>
    by_cases hw : ∃ ns, w = .status ns
    · obtain ⟨ns, rfl⟩ := hw
      exact ⟨[], ns, rest, rfl, .inl rfl⟩
    · have hcons : addWaiter n (w :: rest) = w :: addWaiter n rest := by
        cases w with
        | status ns => exact absurd ⟨ns, rfl⟩ hw
        | _ => rfl
      obtain ⟨pre, waiters, post, hadd, hcase⟩ := ih
      refine ⟨w :: pre, waiters, post, by rw [hcons, hadd]; rfl, ?_⟩
      rcases hcase with hqueued | ⟨hwaiters, hpost, hpre, hnone⟩
      · exact .inl (by rw [hqueued]; rfl)
      · refine .inr ⟨hwaiters, hpost, by rw [hpre], fun x hx ns => ?_⟩
        rcases List.mem_cons.1 hx with rfl | hx
        · exact fun he => hw ⟨ns, he⟩
        · exact hnone x hx ns

/-- The cyclic order of the masters after each, as the statements write it out. -/
theorem Master.after_eq (m : Master) :
    (match m with
      | .cpa => [Master.dpe, .prn, .cde, .cpa]
      | .dpe => [.prn, .cde, .cpa, .dpe]
      | .prn => [.cde, .cpa, .dpe, .prn]
      | .cde => [.cpa, .dpe, .prn, .cde]) = m.after := by
  cases m <;> rfl

/-- Settles O22. -/
theorem statusEndsWithItsStatusWrite : Obligations.StatusEndsWithItsStatusWrite := by
  unfold Obligations.StatusEndsWithItsStatusWrite
  intro cyclic
  have hcyclic (m : Master) : cyclic m = m.after := m.after_eq
  refine ⟨fun w s h => ?joins, fun s waiters rest hfree hended hrun hwrites hpass hbefore hin => ?granted,
    fun s b n c hb hwho hwrite hcpa hvalues hcmd hopen => ?ends, fun m => by cases m <;> rfl, rfl⟩
  case joins =>
    obtain ⟨pre, waiters, post, hadd, hcase⟩ := addWaiter_spec w.slot s.part.cpa.writes
    exact ⟨addWaiter w.slot s.part.cpa.writes, exec_row_of_takes_other (v := .status) (by decide) rfl h, pre, waiters, post, hadd, hcase⟩
  case granted =>
    have hreq : s.part.requestOf .cpa = some (CpaWrite.access (.status waiters) s.part) := by
      simp [Part.requestOf, hrun, hwrites]
    have hin' : (CpaWrite.access (.status waiters) s.part).addr + (CpaWrite.access (.status waiters) s.part).length ≤ s.part.pts.capacity := by
      rw [CpaWrite.access_of_isStatus rfl]
      exact hin
    rw [hcyclic] at hbefore
    exact ⟨_, _, exec_arbiterGrant_cpa hfree hended hwrites hreq hin' hpass hbefore, rfl, rfl, rfl, rfl, rfl, rfl, rfl⟩
  case ends =>
    rw [exec_frameBurstEnd_of_busy hb]
    have hdone : Part.burstDone b [] { s.part with port := { s.part.port with busy := none } } =
        Part.done n b.values { s.part with port := { s.part.port with busy := none } } := by
      simp only [Part.burstDone, hwho, hcpa]
      rfl
    simp only [hwrite, if_true, hdone]
    rw [Part.done, Part.endCommand_of_open (p := { s.part with port := { s.part.port with busy := none } }) hcmd hopen _ _ hvalues]

end Sys2Proof.Machine
end

section
/-! PROOFS. What the end of a burst does, and what each requester presents to the arbiter (R7, R13, R134, R154, R174, R190). -/

namespace Sys2Proof.Machine

/-! ## The end of a burst, by requester -/

/-- The part with the frame memory port free. -/
def Part.portFree (p : Part) : Part := { p with port := { p.port with busy := none } }

@[simp] theorem Part.portFree_headBurst (p : Part) : p.portFree.headBurst = p.headBurst := rfl

theorem Part.headBurst_of {h : Burst} {rest : List Burst} {x : Head} {p : Part} (hq : p.pts.queue = h :: rest)
    (hx : p.pts.head = some x) : p.headBurst = some (h, x) := by
  simp only [Part.headBurst, hq, hx]

/-- What a read returns at its end. -/
def InFlight.read (b : InFlight) (m : Memory) : List Byte := if b.write then [] else m.readBytes b.addr b.length

/-- The memory once the burst has ended. -/
def InFlight.memory (b : InFlight) (m : Memory) : Memory := if b.write then m.writeBytes b.addr b.data else m

theorem exec_frameBurstEnd {s : State} {b : InFlight} (h : s.part.port.busy = some b) :
    exec .frameBurstEnd s = .next ⟨s.pending, b.memory s.mem, s.part.portFree.burstDone b (b.read s.mem)⟩ :=
  exec_frameBurstEnd_of_busy h

theorem Part.burstDone_port (b : InFlight) (read : List Byte) (p : Part) : (p.burstDone b read).port = p.port := by
  obtain ⟨-, -, -, -, -, -, -, -, -, -, -, hport⟩ := burstDone_keeps (o := p) .rfl b read
  exact hport

/-- A forwarded burst outside the control page is answered OKAY with what memory gave. -/
theorem Part.burstDone_forwarded {b : InFlight} {h : Burst} {rest : List Burst} {p : Part} (read : List Byte)
    (hwho : b.who = .passThrough) (hq : p.pts.queue = h :: rest) (hhead : p.pts.head = some (.forwarding false)) :
    p.burstDone b read = p.answer true (if b.write then [] else read) := by
  simp only [Part.burstDone, hwho, Part.passBurstDone, Part.headBurst_of hq hhead]
  cases b.write with
  | true => rfl
  | false => rfl

/-- A forwarded write to the control page is observed, then answered. -/
theorem Part.burstDone_observed {b : InFlight} {h : Burst} {rest : List Burst} {p : Part} (read : List Byte)
    (hwho : b.who = .passThrough) (hwrite : b.write = true) (hq : p.pts.queue = h :: rest)
    (hhead : p.pts.head = some (.forwarding true)) :
    p.burstDone b read = (p.observe (b.addr - p.pts.controlBase) b.data).answer true [] := by
  simp only [Part.burstDone, hwho, Part.passBurstDone, Part.headBurst_of hq hhead, hwrite, if_true]

theorem Part.burstDone_owned {b : InFlight} {h : Burst} {rest : List Burst} {p : Part} (read : List Byte)
    (hwho : b.who = .passThrough) (hq : p.pts.queue = h :: rest) (hhead : p.pts.head = some .owned) :
    p.burstDone b read = p.ingestBurstDone read := by
  simp only [Part.burstDone, hwho, Part.passBurstDone, Part.headBurst_of hq hhead]

theorem Part.burstDone_cpa {b : InFlight} {x : CpaWrite} {p : Part} (read : List Byte) (hwho : b.who = .internal .cpa)
    (hx : b.cpa = some x) : p.burstDone b read = p.cpaBurstDone x b.values := by
  simp only [Part.burstDone, hwho, hx]

theorem Part.burstDone_dpe {b : InFlight} {p : Part} (read : List Byte) (hwho : b.who = .internal .dpe) :
    p.burstDone b read = p.dpeBurstDone b.write b.addr b.length read := by
  simp only [Part.burstDone, hwho]

theorem Part.burstDone_prn {b : InFlight} {p : Part} (read : List Byte) (hwho : b.who = .internal .prn) :
    p.burstDone b read = p.sourceRead read := by
  simp only [Part.burstDone, hwho]

theorem Part.burstDone_cde {b : InFlight} {p : Part} (read : List Byte) (hwho : b.who = .internal .cde) :
    p.burstDone b read = p.cdeBurstDone b.write b.list b.addr read := by
  simp only [Part.burstDone, hwho]

/-- The dark's bytes correct the bytes taken, and the slot write comes next (R134). -/
theorem Part.ingestBurstDone_of_needDark {w : IngestWork} {t : Target} {p : Part} (hwork : p.icr.work = some w)
    (htarget : p.icr.target = some t) (hstage : w.stage = .needDark) (bytes : List Byte) :
    p.ingestBurstDone bytes =
      { p with
        icr :=
          { p.icr with
            work :=
              some
                { w with
                  bytes := (p.correctIngest t w.from_ w.bytes (some bytes)).bytes
                  low := (p.correctIngest t w.from_ w.bytes (some bytes)).low
                  high := (p.correctIngest t w.from_ w.bytes (some bytes)).high, stage := .needWrite } } } := by
  simp only [Part.ingestBurstDone, hwork, htarget, hstage]

/-- The slot write leaves the burst to its commit (R134). -/
theorem Part.ingestBurstDone_of_needWrite {w : IngestWork} {t : Target} {p : Part} (hwork : p.icr.work = some w)
    (htarget : p.icr.target = some t) (hstage : w.stage = .needWrite) (bytes : List Byte) :
    p.ingestBurstDone bytes = { p with icr := { p.icr with work := some { w with stage := .written } } } := by
  simp only [Part.ingestBurstDone, hwork, htarget, hstage]

/-- Settles O16. -/
theorem burstEndCompletesTheBurst : Obligations.BurstEndCompletesTheBurst := by
  intro s b hb
  refine ⟨_, exec_frameBurstEnd hb, rfl, Part.burstDone_port b _ _, rfl, fun hwrite hwf a ha => ?other, fun h rest hwho hq hhead => ?forwarded,
    fun h rest hwho hwrite hq hhead => ?observed, fun i e hwho hx => ?eventRecord, fun w hwho hx => ?producerBeat⟩
  case other =>
    show Memory.read (if b.write then s.mem.writeBytes b.addr b.data else s.mem) a = s.mem.read a
    rw [if_pos hwrite, Memory.read_writeBytes hwf]
    split
    · rw [List.getD_eq_getElem?_getD, List.getElem?_eq_none (by omega), Option.getD_none]
    · rfl
  case forwarded =>
    show s.part.portFree.burstDone b (b.read s.mem) = _
    rw [Part.burstDone_forwarded (p := s.part.portFree) _ hwho hq hhead]
    have htail : s.part.pts.queue.tail = rest := by rw [hq]; rfl
    have hread : (if b.write then [] else b.read s.mem) = if b.write then [] else s.mem.readBytes b.addr b.length := by
      unfold InFlight.read
      split
      · rfl
      · rfl
    rw [hread, ← htail]
    rfl
  case observed => exact Part.burstDone_observed (p := s.part.portFree) _ hwho hwrite hq hhead
  case eventRecord =>
    show s.part.portFree.burstDone b (b.read s.mem) = _
    rw [Part.burstDone_cpa _ hwho hx, hx]
    rfl
  case producerBeat =>
    show s.part.portFree.burstDone b (b.read s.mem) = _
    rw [Part.burstDone_cpa _ hwho hx, hx]
    rfl

/-! ## The burst of a development pass at its end (R154 to R162) -/

section Pass

variable {g : Geometry} {at_ : Nat → Nat} {a : Pass} (addr length : Nat) (bytes : List Byte)

/-- A burst of stage 1 that completes the pair of raw and dark bytes corrects them. -/
theorem Pass.burstDone_stage1_shot (hs : a.stage = 1) (hraw : a.raw = none) (hdark : a.dark = none) :
    a.burstDone g at_ false addr length bytes = a.correctBurst g bytes none := by
  simp [Pass.burstDone, hs, hraw, hdark]

theorem Pass.burstDone_stage1_raw {u : DarkUse} (hs : a.stage = 1) (hraw : a.raw = none) (hdark : a.dark = some u) :
    a.burstDone g at_ false addr length bytes = { a with raw := some bytes } := by
  simp [Pass.burstDone, hs, hraw, hdark]

theorem Pass.burstDone_stage1_dark {raw : List Byte} (hs : a.stage = 1) (hraw : a.raw = some raw) :
    a.burstDone g at_ false addr length bytes = a.correctBurst g raw (some bytes) := by
  simp [Pass.burstDone, hs, hraw]

theorem Pass.burstDone_stage1_written (hs : a.stage = 1) :
    a.burstDone g at_ true addr length bytes =
      { a with
        pos := (skipGaps (a.pos + length) a.gapsLeft).1, gapsLeft := (skipGaps (a.pos + length) a.gapsLeft).2, raw := none
        out := none } := by
  simp [Pass.burstDone, hs]

theorem Pass.burstDone_stage2_within {x y : Nat} {rest : List (Nat × Nat)} (write : Bool) (hs : a.stage = 2)
    (hgaps : a.gapsLeft = (x, y) :: rest) (hin : a.pos + length < y) :
    a.burstDone g at_ write addr length bytes = { a with pos := a.pos + length } := by
  simp [Pass.burstDone, hs, hgaps, hin]

theorem Pass.burstDone_stage2_last {x y : Nat} (write : Bool) (hs : a.stage = 2) (hgaps : a.gapsLeft = [(x, y)])
    (hout : y ≤ a.pos + length) : a.burstDone g at_ write addr length bytes = a.toStage3 := by
  simp [Pass.burstDone, hs, hgaps, Nat.not_lt.mpr hout]

theorem Pass.burstDone_stage2_next {x y z w : Nat} {tail : List (Nat × Nat)} (write : Bool) (hs : a.stage = 2)
    (hgaps : a.gapsLeft = (x, y) :: (z, w) :: tail) (hout : y ≤ a.pos + length) :
    a.burstDone g at_ write addr length bytes = { a with pos := z, gapsLeft := (z, w) :: tail } := by
  simp [Pass.burstDone, hs, hgaps, Nat.not_lt.mpr hout]

theorem Pass.burstDone_stage3_read (hs : a.stage = 3) :
    a.burstDone g at_ false addr length bytes = { a with beats := a.beats ++ [(addr - at_ a.slot, bytes)] } := by
  simp [Pass.burstDone, hs]

theorem Pass.burstDone_stage3_written (hs : a.stage = 3) :
    a.burstDone g at_ true addr length bytes = { a with beats := [], repaired := a.repaired + 1, repairs := a.repairs.advance g } := by
  simp [Pass.burstDone, hs]

theorem Pass.burstDone_stage4 (write : Bool) (hs : a.stage = 4) :
    a.burstDone g at_ write addr length bytes = a.countBurst g bytes := by
  simp [Pass.burstDone, hs]

end Pass

theorem Part.dpeBurstDone_of_stopping {r : ResetWork} {p : Part} (hr : p.cpa.resetting = some r) (hdpe : r.dpe = false)
    (write : Bool) (addr length : Nat) (bytes : List Byte) :
    p.dpeBurstDone write addr length bytes =
      { p with dpe := ⟨[], none⟩, cpa := { p.cpa with resetting := some { r with dpe := true } } } := by
  simp [Part.dpeBurstDone, Part.dpeStopping, hr, hdpe, Part.dpeStopped]

theorem Part.dpeBurstDone_of_pass {a : Pass} {p : Part} (hr : p.cpa.resetting = none) (ha : p.dpe.pass = some a)
    (write : Bool) (addr length : Nat) (bytes : List Byte) :
    p.dpeBurstDone write addr length bytes =
      { p with dpe := { p.dpe with pass := some (a.burstDone p.geo p.sht.slotAddr write addr length bytes) } } := by
  simp [Part.dpeBurstDone, Part.dpeStopping, hr, ha, Part.setPass]

/-! ## What the requesters present (R134, R154, R174, R190) -/

/-- The length of the longest burst that the rest of the run, 256 bytes and the page allow (R13). -/
theorem burstSpan_eq (addr length : Nat) : burstSpan addr length = min length (min 256 (4096 - addr % 4096)) := rfl

/-- The first of several that a test has not: those before it have it. -/
theorem find?_of_split {α : Type} {l before after : List α} {x : α} {f : α → Bool} (hl : l = before ++ x :: after)
    (hbefore : ∀ y ∈ before, f y = false) (hx : f x = true) : l.find? f = some x := by
  subst hl
  rw [List.find?_append, List.find?_eq_none.mpr fun y hy => by simp [hbefore y hy]]
  simp [hx]

theorem halvesBytes_replicate (n v : Nat) : halvesBytes (List.replicate n v) = (List.replicate n (leBytes 2 v)).flatten := by
  rw [halvesBytes, List.flatMap_def, List.map_replicate]

section Pass

variable {g : Geometry} {at_ : Nat → Nat} {a : Pass}

theorem find?_fst_isNone (beats : List (Nat × List Byte)) (b : Nat) :
    (beats.find? fun e => e.1 == b).isNone = decide (b ∉ beats.map Prod.fst) := by
  rw [Bool.eq_iff_iff, Option.isNone_iff_eq_none, List.find?_eq_none, decide_eq_true_iff, List.mem_map]
  constructor
  · rintro h ⟨e, he, rfl⟩
    exact h e he (beq_self_eq_true _)
  · intro h e he hb
    exact h ⟨e, he, eq_of_beq hb⟩

/-- The end of the run of frame bytes that stage 1 is in. -/
theorem Pass.limit_stage1 {limit : Nat} (hs : a.stage = 1)
    (h : a.gapsLeft = [] ∧ limit = g.frameBytes ∨ ∃ x y rest, a.gapsLeft = (x, y) :: rest ∧ limit = min x g.frameBytes) :
    a.limit g.frameBytes = limit := by
  rcases h with ⟨hgaps, rfl⟩ | ⟨x, y, rest, hgaps, rfl⟩
  · simp [Pass.limit, hs, hgaps]
  · simp [Pass.limit, hs, hgaps]

theorem Pass.request_stage1_write {limit : Nat} {bytes : List Byte} (hs : a.stage = 1) (hlimit : a.limit g.frameBytes = limit)
    (hpos : a.pos < limit) (hout : a.out = some bytes) :
    a.request g at_ = some ⟨true, at_ a.slot + a.pos, bytes.length, bytes⟩ := by
  simp [Pass.request, hs, hlimit, Nat.not_le.mpr hpos, hout, Access.writeOf]

theorem Pass.request_stage1_raw {limit : Nat} (hs : a.stage = 1) (hlimit : a.limit g.frameBytes = limit)
    (hpos : a.pos < limit) (hout : a.out = none) (hraw : a.raw = none) :
    a.request g at_ = some ⟨false, at_ a.slot + a.pos, burstSpan (at_ a.slot + a.pos) (limit - a.pos), []⟩ := by
  simp [Pass.request, hs, hlimit, Nat.not_le.mpr hpos, hout, hraw, Access.readOf]

theorem Pass.request_stage1_dark {limit : Nat} {raw : List Byte} {u : DarkUse} (hs : a.stage = 1)
    (hlimit : a.limit g.frameBytes = limit) (hpos : a.pos < limit) (hout : a.out = none) (hraw : a.raw = some raw)
    (hdark : a.dark = some u) :
    a.request g at_ = some ⟨false, at_ u.slot + a.pos, burstSpan (at_ a.slot + a.pos) (limit - a.pos), []⟩ := by
  simp [Pass.request, hs, hlimit, Nat.not_le.mpr hpos, hout, hraw, hdark, Access.readOf]

theorem Pass.request_stage2 {x y : Nat} {rest : List (Nat × Nat)} (hs : a.stage = 2) (hgaps : a.gapsLeft = (x, y) :: rest) :
    a.request g at_ =
      some (.writeOf (at_ a.slot + a.pos) (halvesBytes (List.replicate (burstSpan (at_ a.slot + a.pos) (y - a.pos) / 2) a.pedestal))) := by
  simp [Pass.request, hs, hgaps]

theorem Pass.request_stage3_read {r : Repair} {before after : List Nat} {c : Nat} (hs : a.stage = 3)
    (hr : a.repairs.next g a.defective = some r) (hbeats : r.beats g = before ++ c :: after)
    (hbefore : ∀ x ∈ before, x ∈ a.beats.map Prod.fst) (hc : c ∉ a.beats.map Prod.fst) :
    a.request g at_ = some ⟨false, at_ a.slot + c, 16, []⟩ := by
  have hfind : ((r.beats g).find? fun b => (a.beats.find? fun e => e.1 == b).isNone) = some c := by
    refine find?_of_split hbeats (fun x hx => ?_) ?_
    · rw [find?_fst_isNone]
      exact decide_eq_false fun hnot => hnot (hbefore x hx)
    · rw [find?_fst_isNone]
      exact decide_eq_true hc
  simp [Pass.request, hs, hr, hfind, Access.readOf]

theorem Pass.request_stage3_write {r : Repair} (hs : a.stage = 3) (hr : a.repairs.next g a.defective = some r)
    (hall : ∀ x ∈ r.beats g, x ∈ a.beats.map Prod.fst) :
    a.request g at_ = some (.writeOf (at_ a.slot + beatOf g r.x r.y) (r.newBeat g a.pedestal a.beats)) := by
  have hfind : ((r.beats g).find? fun b => (a.beats.find? fun e => e.1 == b).isNone) = none := by
    rw [List.find?_eq_none]
    intro x hx
    rw [find?_fst_isNone, decide_eq_true_iff, Classical.not_not]
    exact hall x hx
  simp [Pass.request, hs, hr, hfind]

theorem Pass.request_stage4 (hs : a.stage = 4) (hpos : a.pos < g.frameBytes) :
    a.request g at_ = some ⟨false, at_ a.slot + a.pos, burstSpan (at_ a.slot + a.pos) (g.frameBytes - a.pos), []⟩ := by
  have hlimit : a.limit g.frameBytes = g.frameBytes := by simp [Pass.limit, hs]
  simp [Pass.request, hs, hlimit, Nat.not_le.mpr hpos, Access.readOf]

end Pass

/-- Settles O15. -/
theorem grantsAndBurstEndsCarryTheWork : Obligations.GrantsAndBurstEndsCarryTheWork := by
  unfold Obligations.GrantsAndBurstEndsCarryTheWork
  refine ⟨?grants, ?ends, ?requests⟩
  case grants =>
    intro cyclic
    have hcyclic (m : Master) : cyclic m = m.after := m.after_eq
    intro s hfree hended
    refine ⟨fun hpass hmasters => exec_arbiterGrant_of_none (Part.arbitrate_of_none hpass hmasters),
      fun a hpass hin counter hcounter => exec_arbiterGrant_pass hfree hended hpass hin hcounter,
      fun m a hreq hin hpass hbefore => ?_⟩
    rw [hcyclic] at hbefore
    by_cases hm : m = .cpa
    · subst hm
      obtain ⟨x, rest, hwrites, rfl⟩ := Part.requestOf_cpa hreq
      obtain ⟨hwrite, haddr, hlength⟩ := x.access_cpaGranted_shape x rest s.part
      refine ⟨_, _, exec_arbiterGrant_cpa hfree hended hwrites hreq hin hpass hbefore, rfl, rfl, rfl, rfl, hwrite, haddr, hlength, rfl,
        fun hne => absurd rfl hne, fun y rest' _ hwrites' => ?_⟩
      cases hwrites.symm.trans hwrites'
      exact ⟨rfl, rfl, rfl, rfl, rfl⟩
    · exact ⟨_, _, exec_arbiterGrant_master hm hfree hended hreq hin hpass hbefore, rfl, rfl, rfl, rfl, rfl, rfl, rfl, rfl,
        fun _ => ⟨rfl, rfl, rfl, rfl, rfl⟩, fun _ _ he => absurd he hm⟩
  case ends =>
    intro s b hb g read ends
    have hends {p : Part} (hdone : s.part.portFree.burstDone b read = { p with port := { s.part.port with busy := none } }) : ends p := by
      show exec .frameBurstEnd s = _
      rw [exec_frameBurstEnd hb]
      exact congrArg (fun q => Host.Outcome.next (⟨s.pending, b.memory s.mem, q⟩ : State)) hdone
    refine ⟨fun h rest w t hwho hq hhead hwork htarget => ⟨fun hstage => hends ?needDark, fun hstage => hends ?needWrite⟩,
      fun v r hwho hwork hrendering => hends ?prn, fun before l after hwho hwrite hlist hreads hbefore hl => hends ?cde,
      fun hwho => ⟨fun r hr hdpe => hends ?stopping, fun a hr ha => ?pass⟩⟩
    case needDark =>
      rw [Part.burstDone_owned (p := s.part.portFree) read hwho hq hhead,
        Part.ingestBurstDone_of_needDark (p := s.part.portFree) hwork htarget hstage]
      rfl
    case needWrite =>
      rw [Part.burstDone_owned (p := s.part.portFree) read hwho hq hhead,
        Part.ingestBurstDone_of_needWrite (p := s.part.portFree) hwork htarget hstage]
      rfl
    case prn =>
      have hwork' : s.part.portFree.prn.work = some v := hwork
      rw [Part.burstDone_prn read hwho, Part.sourceRead, hwork']
      simp only [Option.map_some, hrendering]
      rfl
    case cde =>
      have hreads' : s.part.portFree.cde.listReads = before ++ l :: after := hreads
      rw [Part.burstDone_cde read hwho, Part.cdeBurstDone, hwrite, hlist, hreads', growList_first read hbefore hl]
      rfl
    case stopping =>
      rw [Part.burstDone_dpe read hwho, Part.dpeBurstDone_of_stopping (p := s.part.portFree) hr hdpe]
      rfl
    case pass =>
      intro goes corrected
      have hgoes {a' : Pass} (h : a.burstDone g s.part.sht.slotAddr b.write b.addr b.length read = a') : goes a' := by
        refine hends ?_
        rw [Part.burstDone_dpe read hwho, Part.dpeBurstDone_of_pass (p := s.part.portFree) hr ha]
        show { s.part.portFree with dpe := { s.part.portFree.dpe with
          pass := some (a.burstDone g s.part.sht.slotAddr b.write b.addr b.length read) } } = _
        rw [h]
        rfl
      refine ⟨fun hs hwrite hraw hdark => hgoes ?_, fun u hs hwrite hraw hdark => hgoes ?_, fun u raw hs hwrite hraw hdark => hgoes ?_,
        fun hs hwrite => hgoes ?_, fun x y rest hs hgaps => ⟨fun hin => hgoes ?_, fun hout => ⟨fun hrest => hgoes ?_,
          fun z w tail hrest => hgoes ?_⟩⟩, fun hs => ⟨fun hwrite => hgoes ?_, fun hwrite => hgoes ?_⟩, fun hs => hgoes ?_⟩
      · rw [hwrite, Pass.burstDone_stage1_shot _ _ _ hs hraw hdark]
        rfl
      · rw [hwrite, Pass.burstDone_stage1_raw _ _ _ hs hraw hdark]
      · rw [hwrite, Pass.burstDone_stage1_dark _ _ _ hs hraw]
        rfl
      · rw [hwrite, Pass.burstDone_stage1_written _ _ _ hs]
      · exact Pass.burstDone_stage2_within _ _ _ _ hs hgaps hin
      · subst hrest
        exact Pass.burstDone_stage2_last _ _ _ _ hs hgaps hout
      · subst hrest
        exact Pass.burstDone_stage2_next _ _ _ _ hs hgaps hout
      · rw [hwrite, Pass.burstDone_stage3_read _ _ _ hs]
      · rw [hwrite, Pass.burstDone_stage3_written _ _ _ hs]
      · exact Pass.burstDone_stage4 _ _ _ _ hs
  case requests =>
    intro p g at_ span
    refine ⟨fun h rest w hq hhead hwork => ⟨fun d hstage hdark => ?needDark, fun hstage => ?needWrite⟩,
      fun v r hwork hrendering hlt => ?prn, fun before l after hreads hbefore hl => ?cde, fun a ha => ?dpe⟩
    case needDark =>
      simp only [Part.passRequest, Part.headBurst_of hq hhead, hwork, Option.bind_some, IngestWork.request, hstage, hdark, Option.map_some]
      rfl
    case needWrite =>
      simp only [Part.passRequest, Part.headBurst_of hq hhead, hwork, Option.bind_some, IngestWork.request, hstage]
      rfl
    case prn =>
      have hlt' : r.source.length < p.geo.sourceRowBytes := hlt
      simp only [Part.requestOf, hwork, hrendering, Option.bind_some, Rendering.request, if_pos hlt']
      rfl
    case cde =>
      have hopen : p.cde.openList = some l := Cde.openList_first hreads hbefore hl
      simp only [Part.requestOf, Cde.request, hopen]
      rfl
    case dpe =>
      intro addr frame presents
      have hpresents {x : Access} (h : a.request g at_ = some x) : presents x := by
        show (p.dpe.pass.bind fun s => s.request p.geo p.sht.slotAddr) = some x
        rw [ha]
        exact h
      refine ⟨fun limit hs hgaps hpos => ?stage1, fun x y rest hs hgaps => ?stage2, fun r hs hr => ?stage3, fun hs hpos => ?stage4⟩
      case stage1 =>
        have hlimit : a.limit g.frameBytes = limit := Pass.limit_stage1 hs hgaps
        exact ⟨fun bytes hout => hpresents (Pass.request_stage1_write hs hlimit hpos hout),
          fun hout hraw => hpresents (Pass.request_stage1_raw hs hlimit hpos hout hraw),
          fun raw u hout hraw hdark => hpresents (Pass.request_stage1_dark hs hlimit hpos hout hraw hdark)⟩
      case stage2 =>
        refine hpresents ((Pass.request_stage2 hs hgaps).trans ?_)
        rw [halvesBytes_replicate]
        rfl
      case stage3 =>
        exact ⟨fun before c after hneeded hbefore hc => hpresents (Pass.request_stage3_read hs hr hneeded hbefore hc),
          fun hall => hpresents (Pass.request_stage3_write hs hr hall)⟩
      case stage4 => exact hpresents (Pass.request_stage4 hs hpos)

end Sys2Proof.Machine
end

section
/-! PROOFS. The pass-through path (R1 to R6, R17): acceptance, classification, and the bursts that owners answer at once. -/

namespace Sys2Proof.Machine

/-! ## Acceptance and classification (R1, R3, R5) -/

theorem exec_burstAccept_of_room {s : State} (hrun : s.part.phase = .running) (hroom : s.part.pts.queue.length < 8) (b : Burst) :
    exec (.burstAccept b) s =
      .next { s with part := { s.part with pts := { s.part.pts with queue := s.part.pts.queue ++ [b] } } } := by
  rw [show exec (.burstAccept b) s = .next { s with part := s.part.burstAccept b } from rfl, Part.burstAccept,
    if_pos ⟨hrun, hroom⟩]

theorem exec_burstAccept_of_waits {s : State} (h : s.part.phase ≠ .running ∨ 8 ≤ s.part.pts.queue.length) (b : Burst) :
    exec (.burstAccept b) s = .next s := by
  have hnot : ¬ (s.part.phase = .running ∧ s.part.pts.queue.length < Config.upstreamPlaces) := by
    rintro ⟨hrun, hroom⟩
    rcases h with h | h
    · exact h hrun
    · exact Nat.not_lt.mpr h hroom
  rw [show exec (.burstAccept b) s = .next { s with part := s.part.burstAccept b } from rfl, Part.burstAccept, if_neg hnot]

theorem Part.burstClassify_of_unfit {b : Burst} {rest : List Burst} {p : Part} (hq : p.pts.queue = b :: rest)
    (hhead : p.pts.head = none) (h : 4096 < b.addr % 4096 + 16 * b.beats ∨ p.pts.capacity < b.addr + 16 * b.beats) :
    p.burstClassify = p.answerError b := by
  unfold Part.burstClassify
  simp only [hq, hhead]
  by_cases hpage : Config.pageBytes < b.addr % Config.pageBytes + Burst.bytes b
  · rw [if_pos hpage]
  · have hcapacity : p.pts.capacity < b.addr + Burst.bytes b := h.resolve_left hpage
    rw [if_neg hpage, if_pos hcapacity]

theorem Part.burstClassify_of_fit {b : Burst} {rest : List Burst} {p : Part} (hq : p.pts.queue = b :: rest)
    (hhead : p.pts.head = none) (hpage : b.addr % 4096 + 16 * b.beats ≤ 4096) (hcapacity : b.addr + 16 * b.beats ≤ p.pts.capacity) :
    p.burstClassify = p.setHead (headOf (p.pts.windows.toList.find? fun w => w.contains b.addr) b.write) := by
  have hpage' : ¬ Config.pageBytes < b.addr % Config.pageBytes + Burst.bytes b := Nat.not_lt.mpr hpage
  have hcapacity' : ¬ p.pts.capacity < b.addr + Burst.bytes b := Nat.not_lt.mpr hcapacity
  unfold Part.burstClassify
  simp only [hq, hhead]
  rw [if_neg hpage', if_neg hcapacity']

/-- The one element of a list that passes a test is the one found. -/
theorem find?_of_unique {α : Type} {l : List α} {x : α} {f : α → Bool} (hmem : x ∈ l) (hx : f x = true)
    (hunique : ∀ y ∈ l, f y = true → y = x) : l.find? f = some x := by
  cases h : l.find? f with
  | none => exact absurd hx (List.find?_eq_none.mp h x hmem)
  | some y => rw [hunique y (List.mem_of_find?_eq_some h) (List.find?_some h)]

/-- Settles O13. -/
theorem hostBurstsAreAcceptedAndClassified : Obligations.HostBurstsAreAcceptedAndClassified := by
  refine ⟨fun b s => ⟨fun hrun hroom => exec_burstAccept_of_room hrun hroom b, fun h => exec_burstAccept_of_waits h b⟩,
    fun b rest s hq hhead => ?classify, fun b rest control s hq hhead => ?forwarded⟩
  case classify =>
    have hrow : exec .burstClassify s = .next { s with part := s.part.burstClassify } := rfl
    by_cases hfit : b.addr % 4096 + 16 * b.beats ≤ 4096 ∧ b.addr + 16 * b.beats ≤ s.part.pts.capacity
    · obtain ⟨hpage, hcapacity⟩ := hfit
      rw [Part.burstClassify_of_fit hq hhead hpage hcapacity] at hrow
      refine ⟨_, hrow, rfl, fun hunfit => by omega, fun _ _ => ⟨hq, rfl, fun hnone => ?_, fun x hmem hx hunique => ?_⟩⟩
      · have hfind : (s.part.pts.windows.toList.find? fun w => w.contains b.addr) = none := by
          rw [List.find?_eq_none]
          intro x hx
          simp [hnone x hx]
        show some (headOf _ b.write) = _
        rw [hfind]
        rfl
      · show some (headOf _ b.write) = _
        rw [find?_of_unique (f := fun w : Window => w.contains b.addr) hmem hx hunique]
        obtain ⟨present, kind, base, size⟩ := x
        cases kind <;> cases b.write <;> rfl
    · have hunfit : 4096 < b.addr % 4096 + 16 * b.beats ∨ s.part.pts.capacity < b.addr + 16 * b.beats := by omega
      rw [Part.burstClassify_of_unfit hq hhead hunfit] at hrow
      refine ⟨_, hrow, rfl, fun _ => ⟨?_, rfl, rfl⟩, fun hpage hcapacity => by omega⟩
      show s.part.pts.queue.tail = rest
      rw [hq]
      rfl
  case forwarded =>
    rw [show exec .forwardedBurst s = .next { s with part := s.part.forwardedBurst } from rfl, Part.forwardedBurst,
      Part.headBurst_of hq hhead]
    rfl

/-! ## Refused and guarded bursts (R2, R6, R75, R136) -/

/-- A burst answered ERROR leaves the queue, a read with zero bytes (R2). -/
theorem Part.answerError_of_queue {b : Burst} {rest : List Burst} {p : Part} (hq : p.pts.queue = b :: rest) :
    p.answerError b =
      { p with
        pts :=
          { p.pts with
            queue := rest, head := none, answer := some ⟨false, if b.write then [] else List.replicate (16 * b.beats) 0⟩ } } := by
  have htail : p.pts.queue.tail = rest := by rw [hq]; rfl
  rw [← htail]
  rfl

/-- The slots laid out from the base of the FRAME_STORE window (R58): the address lies in slot `i`, which the shot holds. -/
def Sht.holdsAt (t : Sht) (addr i : Nat) (n : Word) : Prop :=
  ∃ l, t.layout = some l ∧ l.base + i * l.slotSize ≤ addr ∧ addr < l.base + (i + 1) * l.slotSize ∧ t.slots[i]? = some (.shot n)

/-- The slot that an address lies in is the quotient of its offset. -/
theorem div_eq_of_between {base size addr i : Nat} (hlo : base + i * size ≤ addr) (hhi : addr < base + (i + 1) * size) :
    (addr - base) / size = i :=
  Nat.div_eq_of_lt_le (by omega) (by omega)

theorem Sht.shotAt_of_holds {t : Sht} {addr i : Nat} {n : Word} (h : t.holdsAt addr i n) : t.shotAt addr = n := by
  obtain ⟨l, hl, hlo, hhi, hslot⟩ := h
  have hbase : l.base ≤ addr := Nat.le_trans (Nat.le_add_right _ _) hlo
  unfold Sht.shotAt
  simp only [hl, if_pos hbase, div_eq_of_between hlo hhi, hslot]

theorem Sht.shotAt_of_not_holds {t : Sht} {addr : Nat} (hsize : ∀ l, t.layout = some l → 0 < l.slotSize)
    (h : ∀ i n, ¬ t.holdsAt addr i n) : t.shotAt addr = 0 := by
  unfold Sht.shotAt
  cases hl : t.layout with
  | none => rfl
  | some l =>
    dsimp only
    split
    · next hbase =>
      cases hslot : t.slots[(addr - l.base) / l.slotSize]? with
      | none => rfl
      | some holder =>
        cases holder with
        | shot n =>
          have hpos : 0 < l.slotSize := hsize l hl
          have hlo : (addr - l.base) / l.slotSize * l.slotSize ≤ addr - l.base := Nat.div_mul_le_self _ _
          have hhi : addr - l.base < ((addr - l.base) / l.slotSize + 1) * l.slotSize := by
            rw [Nat.mul_comm]
            exact Nat.lt_mul_div_succ _ hpos
          exact absurd ⟨l, hl, by omega, by omega, hslot⟩ (h ((addr - l.base) / l.slotSize) n)
        | _ => rfl
    · rfl

theorem satIncr_eq (w : Word) : satIncr w = if w = 4294967295 then 4294967295 else w + 1 := by
  have hones : (BitVec.allOnes 32 : Word) = 4294967295 := by decide
  unfold satIncr
  rw [hones]
  split
  · assumption
  · rfl

theorem Part.guardWrite_of_head {b : Burst} {rest : List Burst} {p : Part} (hq : p.pts.queue = b :: rest)
    (hhead : p.pts.head = some .guardWrite) :
    p.guardWrite =
      Part.answerError b
        (Part.emit .guardWrite (p.sht.shotAt b.addr) (addrWords b.addr)
          (Part.statusDirty { p with sht := { p.sht with guardCount := satIncr p.sht.guardCount } })) := by
  simp only [Part.guardWrite, Part.headBurst_of hq hhead]

/-! ## Writes into the BUNDLE window (R45 to R47) -/

/-- A burst answered without an error: it leaves the queue. -/
theorem Part.answer_of_queue {b : Burst} {rest : List Burst} {p : Part} (hq : p.pts.queue = b :: rest) (okay : Bool) (data : List Byte) :
    p.answer okay data = { p with pts := { p.pts with queue := rest, head := none, answer := some ⟨okay, data⟩ } } := by
  have htail : p.pts.queue.tail = rest := by rw [hq]; rfl
  rw [← htail]
  rfl

theorem Part.bundleWrite_of_head {b : Burst} {rest : List Burst} {p : Part} (hq : p.pts.queue = b :: rest)
    (hhead : p.pts.head = some .bundleWrite) :
    p.bundleWrite = if p.cal.session = .open_ then p.stageBurst b else p.answerError b := by
  simp only [Part.bundleWrite, Part.headBurst_of hq hhead]

/-- Settles O14. -/
theorem ownersAnswerRefusedAndBundleBursts : Obligations.OwnersAnswerRefusedAndBundleBursts := by
  refine ⟨fun b rest s hq => ?refused, fun b rest s shot hq hhead hsize hshot => ?guarded, fun b rest s hq hhead hwrite => ?bundle⟩
  case refused =>
    intro after
    refine ⟨fun hhead => ?_, fun hhead => ?_, fun hhead => ?_⟩
    · rw [show exec .ingestRead s = .next { s with part := s.part.ingestRead } from rfl, Part.ingestRead, Part.headBurst_of hq hhead]
      exact State.next_part_congr (Part.answerError_of_queue hq)
    · rw [show exec .viewWrite s = .next { s with part := s.part.viewWrite } from rfl, Part.viewWrite, Part.headBurst_of hq hhead]
      exact State.next_part_congr (Part.answerError_of_queue hq)
    · rw [show exec .bundleRead s = .next { s with part := s.part.bundleRead } from rfl, Part.bundleRead, Part.headBurst_of hq hhead]
      exact State.next_part_congr (Part.answerError_of_queue hq)
  case guarded =>
    have hat : s.part.sht.shotAt b.addr = shot := by
      rcases hshot with ⟨i, hi⟩ | ⟨hzero, hnone⟩
      · exact Sht.shotAt_of_holds hi
      · rw [hzero]
        exact Sht.shotAt_of_not_holds hsize hnone
    rw [show exec .guardWrite s = .next { s with part := s.part.guardWrite } from rfl, Part.guardWrite_of_head hq hhead, hat, satIncr_eq]
    rfl
  case bundle =>
    intro c timer answered
    have hrow : exec .bundleWrite s = .next { s with part := s.part.bundleWrite } := rfl
    rw [Part.bundleWrite_of_head hq hhead] at hrow
    have herror (cal : Cal) : Part.answerError b { s.part with cal := cal } =
        { s.part with cal := cal, pts := { s.part.pts with queue := rest, head := none, answer := some ⟨false, []⟩ } } := by
      rw [Part.answerError_of_queue (p := { s.part with cal := cal }) hq, if_pos hwrite]
    refine ⟨fun hsession => ?_, fun hsession hoverrun => ?_, fun hsession hoverrun hlong => ?_, fun hsession hoverrun hfits => ?_⟩
    · rw [hrow, if_neg hsession]
      exact State.next_part_congr (herror c)
    all_goals rw [hrow, if_pos hsession, Part.stageBurst]
    · rw [if_pos hoverrun]
      exact State.next_part_congr (herror { c with timer := timer })
    all_goals rw [if_neg (by rw [hoverrun]; decide)]
    · rw [if_pos (show s.part.cal.declared < s.part.cal.pointer + Burst.bytes b from hlong)]
      exact State.next_part_congr (herror { c with timer := timer, overrun := true })
    · rw [if_neg (show ¬ s.part.cal.declared < s.part.cal.pointer + Burst.bytes b from Nat.not_lt.mpr hfits)]
      exact State.next_part_congr
        (Part.answer_of_queue
          (p := { s.part with
            cal := { c with
              timer := timer, pointer := c.pointer + 16 * b.beats
              staged := c.staged.take c.pointer ++ b.data ++ c.staged.drop (c.pointer + 16 * b.beats) } }) hq true [])

end Sys2Proof.Machine
end

section
/-! PROOFS. Windows and geometry (R8 to R12), the items of START (R28), and the load session (R44 to R50). -/

namespace Sys2Proof.Machine

/-! ## The lowest place that passes a test -/

theorem find?_finRange_of_lowest {n : Nat} {f : Fin n → Bool} {j : Fin n} (hj : f j = true) (hlow : ∀ k < j, f k = false) :
    (List.finRange n).find? f = some j := by
  rw [List.find?_eq_some_iff_getElem]
  refine ⟨hj, j.val, by simp, by simp, fun k hk => ?_⟩
  have := hlow ⟨k, by omega⟩ hk
  simpa using this

theorem find?_finRange_of_none {n : Nat} {f : Fin n → Bool} (h : ∀ k, f k = false) : (List.finRange n).find? f = none := by
  rw [List.find?_eq_none]
  intro k _
  simp [h k]

theorem Pts.otherEntry_of_lowest {i j : Fin 16} {f : Window → Bool} {p : Pts} (hne : j ≠ i) (hj : f p.windows[j] = true)
    (hlow : ∀ k : Fin 16, k < j → k ≠ i → f p.windows[k] = false) : p.otherEntry i f = some j.val := by
  have hfind : ((List.finRange 16).find? fun k => k != i && f p.windows[k]) = some j := by
    refine find?_finRange_of_lowest ?_ fun k hk => ?_
    · simp only [bne_iff_ne.mpr hne, hj, Bool.and_self]
    · by_cases hki : k = i
      · simp [hki]
      · simp only [hlow k hk hki, Bool.and_false]
  simp only [Pts.otherEntry, hfind, Option.map_some]

theorem Pts.otherEntry_of_none {i : Fin 16} {f : Window → Bool} {p : Pts} (h : ∀ k : Fin 16, k ≠ i → f p.windows[k] = false) :
    p.otherEntry i f = none := by
  have hfind : ((List.finRange 16).find? fun k => k != i && f p.windows[k]) = none := by
    refine find?_finRange_of_none fun k => ?_
    by_cases hki : k = i
    · simp [hki]
    · simp only [h k hki, Bool.and_false]
  simp only [Pts.otherEntry, hfind, Option.map_none]

/-- The first present window of a kind is the one at the lowest such entry. -/
theorem Pts.windowOf_of_lowest {i : Fin 16} {k : WindowKind} {p : Pts} (hpresent : p.windows[i].present = true)
    (hkind : p.windows[i].kind = k) (hlow : ∀ j : Fin 16, j < i → ¬(p.windows[j].present = true ∧ p.windows[j].kind = k)) :
    p.windowOf k = some p.windows[i] := by
  rw [Pts.windowOf, List.find?_eq_some_iff_getElem]
  refine ⟨by simp only [hpresent, hkind, decide_true, Bool.and_self], i.val, by simp, by simp, fun j hj => ?_⟩
  have := hlow ⟨j, by omega⟩ hj
  rw [Vector.getElem_toList, Bool.not_eq_true', Bool.eq_false_iff, Ne, Bool.and_eq_true, decide_eq_true_iff]
  exact this

theorem Pts.windowOf_eq_none_iff {k : WindowKind} {p : Pts} :
    p.windowOf k = none ↔ ¬∃ x ∈ p.windows.toList, x.present = true ∧ x.kind = k := by
  rw [Pts.windowOf, List.find?_eq_none]
  simp

theorem Pts.windowOf_isSome_iff {k : WindowKind} {p : Pts} :
    (p.windowOf k).isSome = true ↔ ∃ x ∈ p.windows.toList, x.present = true ∧ x.kind = k := by
  rw [Option.isSome_iff_ne_none, Ne, Pts.windowOf_eq_none_iff, Classical.not_not]

/-! ## The arguments of SET_WINDOW (R8, check 2 of R9) -/

theorem parseWindow_of_badIndex {args : List Word} (h : argNat args 0 = 0 ∨ 16 ≤ argNat args 0) : parseWindow args = .bad 0 := by
  rw [parseWindow, dif_neg (by omega)]

section Index

variable {args : List Word} (hlo : 1 ≤ argNat args 0) (hhi : argNat args 0 < 16)

include hlo hhi

theorem parseWindow_of_badAction (h : 2 ≤ argNat args 1) : parseWindow args = .bad 1 := by
  rw [parseWindow, dif_pos ⟨hlo, hhi⟩]
  dsimp only
  split
  · omega
  · omega
  · rfl

theorem parseWindow_of_absent (h : argNat args 1 = 1) : parseWindow args = .ok ⟨⟨argNat args 0, hhi⟩, none⟩ := by
  rw [parseWindow, dif_pos ⟨hlo, hhi⟩]
  simp only [h]

theorem parseWindow_of_badKind (h : argNat args 1 = 0) (hkind : argNat args 2 = 1 ∨ 6 ≤ argNat args 2) : parseWindow args = .bad 2 := by
  rw [parseWindow, dif_pos ⟨hlo, hhi⟩]
  simp only [h]
  rcases hkind with hkind | hkind
  · simp only [hkind, windowKindOf, if_true]
  · have hnone : windowKindOf (argNat args 2) = none := by
      unfold windowKindOf
      split
      all_goals first | omega | rfl
    simp only [hnone]

/-- With a kind that a host may set, the base is checked, then the size. -/
theorem parseWindow_of_present {kind : WindowKind} (h : argNat args 1 = 0) (hkind : windowKindOf (argNat args 2) = some kind)
    (hcontrol : kind ≠ .control) :
    parseWindow args =
      if argAddr args 3 % 4096 ≠ 0 then .bad 3
      else if argSize args 5 % 4096 ≠ 0 ∨ argSize args 5 < 4096 ∨ 17179869184 < argSize args 5 then .bad 4
      else .ok ⟨⟨argNat args 0, hhi⟩, some ⟨true, kind, argAddr args 3, argSize args 5⟩⟩ := by
  rw [parseWindow, dif_pos ⟨hlo, hhi⟩]
  simp only [h, hkind, if_neg hcontrol]

end Index

/-- No window of kind CONTROL is read from the arguments. -/
theorem parseWindow_kind {args : List Word} {i : Fin 16} {x : Window} (h : parseWindow args = .ok ⟨i, some x⟩) : x.kind ≠ .control := by
  unfold parseWindow at h
  split at h
  · dsimp only at h
    split at h
    · split at h
      · cases h
      · next kind _ =>
        by_cases hcontrol : kind = .control
        · rw [if_pos hcontrol] at h
          cases h
        · rw [if_neg hcontrol] at h
          split at h
          · cases h
          · split at h
            · cases h
            · cases h
              exact hcontrol
    · cases h
    · cases h
  · cases h

/-- The kinds that a host may set have the codes 0 and 2 to 5. -/
theorem windowKindOf_of_mem {k : Nat} (h : k ∈ [0, 2, 3, 4, 5]) : ∃ kind, windowKindOf k = some kind ∧ kind ≠ .control := by
  simp only [List.mem_cons, List.not_mem_nil, or_false] at h
  rcases h with rfl | rfl | rfl | rfl | rfl
  · exact ⟨.pass, rfl, by decide⟩
  · exact ⟨.ingest, rfl, by decide⟩
  · exact ⟨.view, rfl, by decide⟩
  · exact ⟨.bundle, rfl, by decide⟩
  · exact ⟨.frameStore, rfl, by decide⟩

/-! ## SET_WINDOW by its checks (R9) -/

theorem exec_setWindow_of_takes {w : SlotWrite} {s : State} (h : s.part.takes .setWindow w) {q : Part}
    (hq : cmdSetWindow w.slot (s.part.words w) (s.part.taken .setWindow w) = q) :
    exec (.setWindow w) s = .next { s with part := q } := by
  rw [← hq]
  exact exec_row_of_takes_other (v := .setWindow) (by decide) rfl h

section SetWindow

variable {w : SlotWrite} {s : State} (h : s.part.takes .setWindow w)

include h

theorem exec_setWindow_of_bad {i : Nat} (hbad : parseWindow (s.part.words w) = .bad i) :
    exec (.setWindow w) s = .next { s with part := s.part.answered .setWindow w .refused .badArg [natWord i] } := by
  refine exec_setWindow_of_takes h ?_
  simp only [cmdSetWindow, hbad]
  exact Part.taken_refuse _ _ _ _ _ (by simp)

theorem exec_setWindow_of_busy {r : WindowRequest} {k : Nat} (hr : parseWindow (s.part.words w) = .ok r)
    (hbusy : s.part.windowBusy r = some k) :
    exec (.setWindow w) s = .next { s with part := s.part.answered .setWindow w .refused .busy [natWord k] } := by
  have hbusy' : (s.part.taken .setWindow w).windowBusy r = some k := hbusy
  refine exec_setWindow_of_takes h ?_
  simp only [cmdSetWindow, hr, hbusy']
  exact Part.taken_refuse _ _ _ _ _ (by simp)

theorem exec_setWindow_of_unfit {i : Fin 16} {x : Window} {data : List Word} (hr : parseWindow (s.part.words w) = .ok ⟨i, some x⟩)
    (hfree : s.part.windowBusy ⟨i, some x⟩ = none) (hunfit : s.part.windowUnfit i x = some data) (hd : data.length ≤ 24) :
    exec (.setWindow w) s = .next { s with part := s.part.answered .setWindow w .refused .badArg data } := by
  have hfree' : (s.part.taken .setWindow w).windowBusy ⟨i, some x⟩ = none := hfree
  have hunfit' : (s.part.taken .setWindow w).windowUnfit i x = some data := hunfit
  refine exec_setWindow_of_takes h ?_
  simp only [cmdSetWindow, hr, hfree', Option.bind_some, hunfit']
  exact Part.taken_refuse _ _ _ _ _ hd

theorem exec_setWindow_of_fits {r : WindowRequest} (hr : parseWindow (s.part.words w) = .ok r) (hfree : s.part.windowBusy r = none)
    (hfits : (r.window.bind fun x => s.part.windowUnfit r.index x) = none) (hd : ((s.part.putWindow r.index r.window).windowResult r.index).length ≤ 24) :
    exec (.setWindow w) s = .next
      { s with
        part :=
          Part.answered .setWindow w .done .ok ((s.part.putWindow r.index r.window).windowResult r.index)
            (s.part.putWindow r.index r.window) } := by
  have hfree' : (s.part.taken .setWindow w).windowBusy r = none := hfree
  have hfits' : (r.window.bind fun x => (s.part.taken .setWindow w).windowUnfit r.index x) = none := hfits
  refine exec_setWindow_of_takes h ?_
  simp only [cmdSetWindow, hr, hfree', hfits']
  exact Part.taken_done .setWindow w _ (s.part.putWindow r.index r.window) hd

end SetWindow

/-! ## Checks 4 to 7 of R9 -/

theorem Window.overlaps_eq_false {a b : Window} (h : b.present = true → a.base + a.size ≤ b.base ∨ b.base + b.size ≤ a.base) :
    a.overlaps b = false := by
  cases hb : b.present with
  | false => simp [Window.overlaps, hb]
  | true =>
    have := h hb
    simp only [Window.overlaps, Bool.and_eq_false_iff, decide_eq_false_iff_not]
    omega

theorem Part.windowUnfit_of_capacity {i : Fin 16} {x : Window} {p : Part} (h : p.pts.capacity < x.base + x.size) :
    p.windowUnfit i x = some (natWords2 p.pts.capacity) := by
  rw [Part.windowUnfit, if_pos h]

theorem Part.windowUnfit_of_overlap {i : Fin 16} {x : Window} {j : Nat} {p : Part} (hin : x.base + x.size ≤ p.pts.capacity)
    (hj : p.pts.otherEntry i x.overlaps = some j) : p.windowUnfit i x = some [natWord j] := by
  rw [Part.windowUnfit, if_neg (Nat.not_lt.mpr hin), hj]

section Unfit

variable {i : Fin 16} {x : Window} {p : Part} (hin : x.base + x.size ≤ p.pts.capacity)
  (hoverlap : p.pts.otherEntry i x.overlaps = none)

include hin hoverlap

theorem Part.windowUnfit_of_second {j : Nat} (hsingle : x.kind.single = true)
    (hj : p.pts.otherEntry i (fun y => y.present && decide (y.kind = x.kind)) = some j) : p.windowUnfit i x = some [natWord j] := by
  rw [Part.windowUnfit, if_neg (Nat.not_lt.mpr hin), hoverlap]
  simp only [hsingle, if_true, hj]

variable (halone : x.kind.single = true → p.pts.otherEntry i (fun y => y.present && decide (y.kind = x.kind)) = none)

include halone

theorem Part.windowUnfit_of_alone :
    p.windowUnfit i x =
      p.pts.geometry.bind fun g => if x.size < x.kind.minimum g then some [natWord (pagesFor (x.kind.minimum g))] else none := by
  have hnone : (if x.kind.single then p.pts.otherEntry i (fun y => y.present && decide (y.kind = x.kind)) else none) = none := by
    split
    · exact halone ‹_›
    · rfl
  rw [Part.windowUnfit, if_neg (Nat.not_lt.mpr hin), hoverlap]
  simp only [hnone]
  cases p.pts.geometry <;> rfl

theorem Part.windowUnfit_of_small {g : Geometry} (hg : p.pts.geometry = some g) (hsmall : x.size < x.kind.minimum g) :
    p.windowUnfit i x = some [natWord (pagesFor (x.kind.minimum g))] := by
  rw [Part.windowUnfit_of_alone hin hoverlap halone, hg]
  exact if_pos hsmall

theorem Part.windowUnfit_of_fits (hlarge : ∀ g, p.pts.geometry = some g → x.kind.minimum g ≤ x.size) : p.windowUnfit i x = none := by
  rw [Part.windowUnfit_of_alone hin hoverlap halone]
  cases hg : p.pts.geometry with
  | none => rfl
  | some g => exact if_neg (Nat.not_lt.mpr (hlarge g hg))

end Unfit

/-- The kinds of which one window at most may stand: the four that are neither PASS nor the control page. -/
theorem WindowKind.single_eq_true_iff (k : WindowKind) : k.single = true ↔ k ≠ .pass ∧ k ≠ .control := by
  cases k <;> decide

/-! ## The live states of R10 -/

/-- The window of an entry that a SET_WINDOW of it meets. -/
def Part.holdsWindow (i : Fin 16) (k : WindowKind) (p : Part) : Prop := p.pts.windows[i].present = true ∧ p.pts.windows[i].kind = k

theorem Part.windowBusy_fixed {i : Fin 16} {x : Option Window} {p : Part} (hfixed : p.sht.layout.isSome = true)
    (h : p.holdsWindow i .frameStore ∨ ∃ y, x = some y ∧ y.kind = .frameStore) : p.windowBusy ⟨i, x⟩ = some 0 := by
  unfold Part.windowBusy
  rcases h with ⟨hpresent, hkind⟩ | ⟨y, rfl, hkind⟩
  · simp only [hfixed, hpresent, hkind, decide_true, Bool.and_self, Bool.true_or, if_true]
  · simp only [hfixed, hkind, decide_true, Bool.or_true, Bool.and_self, if_true]

section Busy

variable {i : Fin 16} {x : Option Window} {p : Part}
  (hfixed : ¬(p.sht.layout.isSome = true ∧ (p.holdsWindow i .frameStore ∨ ∃ y, x = some y ∧ y.kind = .frameStore)))

include hfixed

theorem Part.windowBusy_of_not_fixed :
    p.windowBusy ⟨i, x⟩ =
      if p.icr.target.isSome && (p.pts.windows[i].present && decide (p.pts.windows[i].kind = .ingest)) then some 1
      else if decide (p.cal.session ≠ .none) && (p.pts.windows[i].present && decide (p.pts.windows[i].kind = .bundle)) then some 2
      else none := by
  unfold Part.windowBusy
  dsimp only
  rw [if_neg]
  rw [Bool.and_eq_true, Bool.or_eq_true, Bool.and_eq_true, decide_eq_true_iff]
  rintro ⟨hlayout, hheld | hmade⟩
  · exact hfixed ⟨hlayout, .inl hheld⟩
  · cases x with
    | none => cases hmade
    | some y => exact hfixed ⟨hlayout, .inr ⟨y, rfl, of_decide_eq_true hmade⟩⟩

theorem Part.windowBusy_ingesting (htarget : p.icr.target.isSome = true) (hheld : p.holdsWindow i .ingest) :
    p.windowBusy ⟨i, x⟩ = some 1 := by
  obtain ⟨hpresent, hkind⟩ := hheld
  rw [Part.windowBusy_of_not_fixed hfixed]
  simp only [htarget, hpresent, hkind, decide_true, Bool.and_self, if_true]

variable (hingest : ¬(p.icr.target.isSome = true ∧ p.holdsWindow i .ingest))

include hingest

theorem Part.windowBusy_of_not_ingesting :
    p.windowBusy ⟨i, x⟩ =
      if decide (p.cal.session ≠ .none) && (p.pts.windows[i].present && decide (p.pts.windows[i].kind = .bundle)) then some 2
      else none := by
  rw [Part.windowBusy_of_not_fixed hfixed, if_neg]
  rw [Bool.and_eq_true, Bool.and_eq_true, decide_eq_true_iff]
  exact hingest

theorem Part.windowBusy_loading (hsession : p.cal.session ≠ .none) (hheld : p.holdsWindow i .bundle) :
    p.windowBusy ⟨i, x⟩ = some 2 := by
  obtain ⟨hpresent, hkind⟩ := hheld
  rw [Part.windowBusy_of_not_ingesting hfixed hingest]
  simp only [decide_eq_true hsession, hpresent, hkind, decide_true, Bool.and_self, if_true]

theorem Part.windowBusy_none (hload : ¬(p.cal.session ≠ .none ∧ p.holdsWindow i .bundle)) : p.windowBusy ⟨i, x⟩ = none := by
  rw [Part.windowBusy_of_not_ingesting hfixed hingest, if_neg]
  rw [Bool.and_eq_true, Bool.and_eq_true, decide_eq_true_iff, decide_eq_true_iff]
  exact hload

end Busy

/-! ## The result of an accepted SET_WINDOW (R8) -/

theorem Part.putWindow_window (i : Fin 16) (x : Option Window) (p : Part) :
    (p.putWindow i x).pts.windows[i] = x.getD Window.absent := by
  simp [Part.putWindow]

theorem Part.windowResult_absent (i : Fin 16) (p : Part) :
    (p.putWindow i none).windowResult i = [0, 0, 0, 0, 0, 0] ++ natWords2 p.pts.capacity := by
  unfold Part.windowResult
  rw [Part.putWindow_window]
  show [0, 0, 0, 0, 0, 0] ++ natWords2 p.pts.capacity ++
    (match p.pts.geometry with
      | none => []
      | some g => []) = _
  cases p.pts.geometry <;> simp

theorem Part.windowResult_present (i : Fin 16) (kind : WindowKind) (base size : Nat) (p : Part) :
    (p.putWindow i (some ⟨true, kind, base, size⟩)).windowResult i =
      [1, natWord kind.code, natWord base, natWord (base / 4294967296), natWord size, natWord (size / 4294967296)]
        ++ natWords2 p.pts.capacity
        ++ (if kind = .frameStore then (p.pts.geometry.map fun g => natWord (min 12 (size / g.slotSize))).toList else []) := by
  unfold Part.windowResult
  rw [Part.putWindow_window]
  have hslots : (match p.pts.geometry with
      | none => []
      | some g => if true = true ∧ kind = .frameStore then [natWord (g.slotsIn size)] else []) =
      if kind = .frameStore then (p.pts.geometry.map fun g => natWord (min 12 (size / g.slotSize))).toList else [] := by
    cases p.pts.geometry with
    | none => simp
    | some g =>
      simp only [true_and, Option.map_some, Option.toList_some]
      rfl
  rw [← hslots]
  rfl

theorem Part.windowResult_length (i : Fin 16) (p : Part) : (p.windowResult i).length ≤ 24 := by
  unfold Part.windowResult
  dsimp only
  split <;> split <;> (try split) <;> simp [natWords2]

/-- Settles O26. -/
theorem setWindowReplacesOrRefuses : Obligations.SetWindowReplacesOrRefuses := by
  unfold Obligations.SetWindowReplacesOrRefuses
  refine ⟨?replaces, ?busy, ?unfit⟩
  case replaces =>
    intro w i s h arg capacity put hi harg
    have hpos : 0 < i.val := Nat.pos_of_ne_zero fun h0 => hi (Fin.ext h0)
    have hlo : 1 ≤ argNat (s.part.words w) 0 := by
      show 1 ≤ arg 0
      omega
    have hhi : argNat (s.part.words w) 0 < 16 := by
      show arg 0 < 16
      omega
    have hindex : (⟨argNat (s.part.words w) 0, hhi⟩ : Fin 16) = i := Fin.ext harg
    refine ⟨fun haction hfree => ?absent, fun kind base size haction hkind hcontrol hbase hsize hbasePage hsizePage hsmall hlarge hin hfree hothers hmin => ?present⟩
    case absent =>
      have hparse := parseWindow_of_absent hlo hhi haction
      rw [hindex] at hparse
      have hexec := exec_setWindow_of_fits h hparse hfree rfl (Part.windowResult_length _ _)
      rw [Part.windowResult_absent] at hexec
      exact hexec
    case present =>
      have hbase' : argAddr (s.part.words w) 3 = base := hbase.symm
      have hsize' : argSize (s.part.words w) 5 = size := hsize.symm
      have hparse := parseWindow_of_present hlo hhi haction hkind hcontrol
      rw [hindex, hbase', hsize', if_neg (by omega), if_neg (by omega)] at hparse
      have hoverlap : s.part.pts.otherEntry i (Window.overlaps ⟨true, kind, base, size⟩) = none :=
        Pts.otherEntry_of_none fun j hj => Window.overlaps_eq_false fun hpresent => (hothers j hj hpresent).1.symm
      have halone : kind.single = true → s.part.pts.otherEntry i (fun y => y.present && decide (y.kind = kind)) = none := by
        intro hsingle
        refine Pts.otherEntry_of_none fun j hj => ?_
        cases hpresent : s.part.pts.windows[j].present with
        | false => rfl
        | true =>
          have hne := (hothers j hj hpresent).2 ((WindowKind.single_eq_true_iff kind).mp hsingle).1
          simp only [Bool.true_and, decide_eq_false_iff_not]
          exact hne
      have hfits : s.part.windowUnfit i ⟨true, kind, base, size⟩ = none :=
        Part.windowUnfit_of_fits (x := ⟨true, kind, base, size⟩) hin hoverlap halone hmin
      have hexec := exec_setWindow_of_fits h hparse hfree hfits (Part.windowResult_length _ _)
      rw [Part.windowResult_present] at hexec
      exact hexec
  case busy =>
    intro w i s h hi harg haction refused held
    have hpos : 0 < i.val := Nat.pos_of_ne_zero fun h0 => hi (Fin.ext h0)
    have hlo : 1 ≤ argNat (s.part.words w) 0 := by
      show 1 ≤ ((s.part.words w).getD 0 0).toNat
      omega
    have hhi : argNat (s.part.words w) 0 < 16 := by
      show ((s.part.words w).getD 0 0).toNat < 16
      omega
    have hparse := parseWindow_of_absent hlo hhi (show ((s.part.words w).getD 1 0).toNat = 1 by rw [haction]; rfl)
    rw [show (⟨argNat (s.part.words w) 0, hhi⟩ : Fin 16) = i from Fin.ext harg] at hparse
    have hrefused (k : Nat) (hk : s.part.windowBusy ⟨i, none⟩ = some k) : refused k := exec_setWindow_of_busy h hparse hk
    have hnotFixed (k : WindowKind) (hk : k ≠ .frameStore) (hheld : held k) :
        ¬(s.part.sht.layout.isSome = true ∧ (s.part.holdsWindow i .frameStore ∨ ∃ y : Window, none = some y ∧ y.kind = .frameStore)) := by
      rintro ⟨-, ⟨-, hstore⟩ | ⟨y, hy, -⟩⟩
      · exact hk (hheld.2.symm.trans hstore)
      · cases hy
    refine ⟨hrefused, fun hlayout hheld => hrefused 0 (Part.windowBusy_fixed hlayout (.inl hheld)),
      fun htarget hheld => hrefused 1 (Part.windowBusy_ingesting (hnotFixed _ (by decide) hheld) htarget hheld),
      fun hsession hheld => hrefused 2 (Part.windowBusy_loading (hnotFixed _ (by decide) hheld) ?_ hsession hheld)⟩
    rintro ⟨-, -, hingest⟩
    exact absurd (hingest.symm.trans hheld.2) (by decide)
  case unfit =>
    intro w i x s h hparse
    refine ⟨fun k hk => exec_setWindow_of_busy h hparse hk, fun hfree => ⟨fun hcapacity => ?_, fun j hin hj hover hlow => ?_⟩⟩
    · exact exec_setWindow_of_unfit h hparse hfree (Part.windowUnfit_of_capacity hcapacity) (by simp)
    · exact exec_setWindow_of_unfit h hparse hfree (Part.windowUnfit_of_overlap hin (Pts.otherEntry_of_lowest hj hover hlow)) (by simp)

/-! ## The items of START (R28) -/

theorem ceilDiv_page (n : Nat) : ceilDiv n 4096 = (n + 4095) / 4096 := by
  rw [ceilDiv, Nat.add_sub_assoc (by decide)]

theorem Geometry.slotSize_eq (g : Geometry) : g.slotSize = (g.width * g.height * 2 + 4095) / 4096 * 4096 := by
  show ceilDiv (g.width * g.height * 2) 4096 * 4096 = _
  rw [ceilDiv_page]

section Missing

variable {g : Geometry} {p : Part} (hg : p.pts.geometry = some g)

include hg

theorem Part.missing_of_no_store (hstore : p.pts.windowOf .frameStore = none) : p.missing = some [1, 0] := by
  simp only [Part.missing, hg, hstore]

variable {x : Window} (hx : p.pts.windowOf .frameStore = some x)

include hx

theorem Part.missing_of_few (hfew : g.slotsIn x.size < 3) : p.missing = some [1, natWord (g.slotsIn x.size)] := by
  simp only [Part.missing, hg, hx, if_pos hfew]

variable (hslots : 3 ≤ g.slotsIn x.size)

include hslots

/-- With the geometry set and slots enough, the other six items are looked at in order. -/
theorem Part.missing_of_slots :
    p.missing =
      if (p.pts.windowOf .ingest).isNone then some [2]
      else if (p.pts.windowOf .view).isNone then some [3]
      else if (p.pts.windowOf .bundle).isNone then some [4]
      else if !p.cal.committed.blackSat then some [5]
      else if !p.cal.committed.gainGrid then some [6]
      else if !p.cal.committed.darkTemp then some [7]
      else none := by
  simp only [Part.missing, hg, hx, if_neg (Nat.not_lt.mpr hslots)]

end Missing

/-- Settles O33. -/
theorem setWindowRefusalsAndStartItems : Obligations.SetWindowRefusalsAndStartItems := by
  unfold Obligations.SetWindowRefusalsAndStartItems
  refine ⟨⟨?malformed, ?live, ?unfit⟩, ?items⟩
  case malformed =>
    intro w s h arg base size refused
    have hbad {i : Nat} (hi : parseWindow (s.part.words w) = .bad i) : refused [natWord i] := exec_setWindow_of_bad h hi
    refine ⟨fun hindex => hbad (parseWindow_of_badIndex hindex), fun hlo hhi => ⟨fun haction => hbad (parseWindow_of_badAction hlo hhi haction),
      fun haction => ⟨fun hkind => hbad (parseWindow_of_badKind hlo hhi haction hkind), fun hkind => ?_⟩⟩⟩
    obtain ⟨kind, hkind, hcontrol⟩ := windowKindOf_of_mem hkind
    have hparse : parseWindow (s.part.words w) =
        if base % 4096 ≠ 0 then .bad 3
        else if size % 4096 ≠ 0 ∨ size < 4096 ∨ 17179869184 < size then .bad 4
        else .ok ⟨⟨arg 0, hhi⟩, some ⟨true, kind, base, size⟩⟩ := parseWindow_of_present hlo hhi haction hkind hcontrol
    refine ⟨fun hbase => hbad ?_, fun hbase hsize => hbad ?_⟩
    · rw [hparse, if_pos hbase]
    · rw [hparse, if_neg (Classical.not_not.mpr hbase), if_pos hsize]
  case live =>
    intro p i x holds fixed ingesting loading
    exact ⟨fun ⟨hlayout, hheld⟩ => Part.windowBusy_fixed hlayout hheld,
      fun hfixed ⟨htarget, hheld⟩ => Part.windowBusy_ingesting hfixed htarget hheld,
      fun hfixed hingest ⟨hsession, hheld⟩ => Part.windowBusy_loading hfixed hingest hsession hheld,
      fun hfixed hingest hload => Part.windowBusy_none hfixed hingest hload⟩
  case unfit =>
    intro w i x s h hparse hfree hin hoverlap refused other
    have hcontrol : x.kind ≠ .control := parseWindow_kind hparse
    have hnone : s.part.pts.otherEntry i x.overlaps = none := Pts.otherEntry_of_none hoverlap
    have hunfit {data : List Word} (hd : s.part.windowUnfit i x = some data) (hlen : data.length ≤ 24) : refused data :=
      exec_setWindow_of_unfit h hparse hfree hd hlen
    refine ⟨fun j ⟨hpass, hne, hpresent, hkind⟩ hlow => hunfit (Part.windowUnfit_of_second hin hnone
      ((WindowKind.single_eq_true_iff _).mpr ⟨hpass, hcontrol⟩)
      (Pts.otherEntry_of_lowest hne (by simp only [hpresent, hkind, decide_true, Bool.and_self]) fun k hk hki => ?_)) (by simp),
      fun g halone hg => ?_⟩
    · refine Classical.byContradiction fun hcontra => ?_
      simp only [Bool.not_eq_false, Bool.and_eq_true, decide_eq_true_eq] at hcontra
      exact hlow k hk ⟨hpass, hki, hcontra.1, hcontra.2⟩
    intro frame
    have halone' : x.kind.single = true → s.part.pts.otherEntry i (fun y => y.present && decide (y.kind = x.kind)) = none := by
      intro hsingle
      refine Pts.otherEntry_of_none fun k hk => ?_
      refine Classical.byContradiction fun hcontra => ?_
      simp only [Bool.not_eq_false, Bool.and_eq_true, decide_eq_true_eq] at hcontra
      exact halone k ⟨((WindowKind.single_eq_true_iff _).mp hsingle).1, hk, hcontra.1, hcontra.2⟩
    have hsmall (hlt : x.size < x.kind.minimum g) : refused [natWord (pagesFor (x.kind.minimum g))] :=
      hunfit (Part.windowUnfit_of_small hin hnone halone' hg hlt) (by simp)
    refine ⟨fun hkind hlt => ?_, fun hkind hlt => ?_, fun hkind hlt => ?_⟩
    all_goals rw [hkind] at hsmall
    · rw [show pagesFor (WindowKind.minimum .ingest g) = (frame + 4095) / 4096 from ceilDiv_page frame] at hsmall
      exact hsmall hlt
    · rw [show pagesFor (WindowKind.minimum .view g) = _ from ceilDiv_page (g.width / 8 * (g.height / 8) * 3)] at hsmall
      exact hsmall hlt
    · have hstore : WindowKind.minimum .frameStore g = (frame + 4095) / 4096 * 4096 := g.slotSize_eq
      have hpages : pagesFor ((frame + 4095) / 4096 * 4096) = (frame + 4095) / 4096 := by
        rw [pagesFor, show Config.pageBytes = 4096 from rfl, ceilDiv_page]
        omega
      rw [hstore, hpages] at hsmall
      exact hsmall hlt
  case items =>
    intro p present c
    refine ⟨fun hg => ?_, fun g hg => ⟨fun hstore => Part.missing_of_no_store hg (Pts.windowOf_eq_none_iff.mpr hstore),
      fun i hpresent hkind hlow => ?_⟩⟩
    · simp only [Part.missing, hg]
    intro slots
    have hx : p.pts.windowOf .frameStore = some p.pts.windows[i] := Pts.windowOf_of_lowest hpresent hkind hlow
    have hslots : g.slotsIn p.pts.windows[i].size = slots := by
      rw [Geometry.slotsIn, g.slotSize_eq]
    have habsent {k : WindowKind} (hk : ¬present k) : (p.pts.windowOf k).isNone = true :=
      Option.isNone_iff_eq_none.mpr (Pts.windowOf_eq_none_iff.mpr hk)
    have hthere {k : WindowKind} (hk : present k) : (p.pts.windowOf k).isNone = false := by
      rw [← Option.not_isSome, Pts.windowOf_isSome_iff.mpr hk]
      rfl
    refine ⟨fun hfew => ?_, fun hmany => ?_⟩
    · rw [← hslots] at hfew ⊢
      exact Part.missing_of_few hg hx hfew
    rw [← hslots] at hmany
    rw [Part.missing_of_slots hg hx hmany]
    refine ⟨fun hi => ?_, fun hi hv => ?_, fun hi hv hb => ?_, fun hi hv hb => ⟨fun h1 => ?_, fun h1 h2 => ?_, fun h1 h2 h3 => ?_, fun h1 h2 h3 => ?_⟩⟩
    · simp only [habsent hi, if_true]
    · simp only [hthere hi, habsent hv, if_true]
      rfl
    · simp only [hthere hi, hthere hv, habsent hb, if_true]
      rfl
    · simp [hthere hi, hthere hv, hthere hb, show p.cal.committed.blackSat = false from h1]
    · simp [hthere hi, hthere hv, hthere hb, show p.cal.committed.blackSat = true from h1, show p.cal.committed.gainGrid = false from h2]
    · simp [hthere hi, hthere hv, hthere hb, show p.cal.committed.blackSat = true from h1, show p.cal.committed.gainGrid = true from h2,
        show p.cal.committed.darkTemp = false from h3]
    · simp [hthere hi, hthere hv, hthere hb, show p.cal.committed.blackSat = true from h1, show p.cal.committed.gainGrid = true from h2,
        show p.cal.committed.darkTemp = true from h3]

end Sys2Proof.Machine
end

section
/-! PROOFS. SET_GEOMETRY (R11, R12), and the load session's commands (R44, R48 to R50). -/

namespace Sys2Proof.Machine

/-! ## SET_GEOMETRY -/

theorem parseGeometry_of_badWidth {args : List Word}
    (h : ¬(argNat args 0 % 16 = 0 ∧ 2048 ≤ argNat args 0 ∧ argNat args 0 ≤ 12288)) : parseGeometry args = .bad 0 := by
  rw [parseGeometry, if_pos (by omega)]

section Width

variable {args : List Word} (hw : argNat args 0 % 16 = 0 ∧ 2048 ≤ argNat args 0 ∧ argNat args 0 ≤ 12288)

include hw

theorem parseGeometry_of_badHeight (h : ¬(argNat args 1 % 8 = 0 ∧ 1536 ≤ argNat args 1 ∧ argNat args 1 ≤ 9216)) :
    parseGeometry args = .bad 1 := by
  rw [parseGeometry, if_neg (by omega), if_pos (by omega)]

variable (hh : argNat args 1 % 8 = 0 ∧ 1536 ≤ argNat args 1 ∧ argNat args 1 ≤ 9216)

include hh

theorem parseGeometry_of_badPhase (h : 4 ≤ argNat args 2) : parseGeometry args = .bad 2 := by
  have hnone : cfaOf (argNat args 2) = none := by
    unfold cfaOf
    split
    all_goals first | omega | rfl
  rw [parseGeometry, if_neg (by omega), if_neg (by omega), hnone]

theorem parseGeometry_of_phase {cfa : Cfa} (h : cfaOf (argNat args 2) = some cfa) :
    parseGeometry args =
      if argNat args 3 = 12 ∨ argNat args 3 = 14 ∨ argNat args 3 = 16 then .ok ⟨argNat args 0, argNat args 1, cfa, argNat args 3⟩
      else .bad 3 := by
  rw [parseGeometry, if_neg (by omega), if_neg (by omega), h]

end Width

theorem cfaOf_of_lt {k : Nat} (h : k < 4) : ∃ cfa, cfaOf k = some cfa := by
  obtain rfl | rfl | rfl | rfl : k = 0 ∨ k = 1 ∨ k = 2 ∨ k = 3 := by omega
  · exact ⟨.rggb, rfl⟩
  · exact ⟨.grbg, rfl⟩
  · exact ⟨.gbrg, rfl⟩
  · exact ⟨.bggr, rfl⟩

theorem cfaOf_code (c : Cfa) : cfaOf c.code = some c := by cases c <;> rfl

theorem natWord_toNat {n : Nat} (h : n < 4294967296) : (natWord n).toNat = n := by
  rw [natWord, BitVec.toNat_ofNat]
  exact Nat.mod_eq_of_lt h

section SetGeometry

variable {w : SlotWrite} {s : State} (h : s.part.takes .setGeometry w) (hfree : s.part.sht.layout = none)

include h hfree

theorem exec_setGeometry_of_bad {i : Nat} (hbad : parseGeometry (s.part.words w) = .bad i) :
    exec (.setGeometry w) s = .next { s with part := s.part.answered .setGeometry w .refused .badArg [natWord i] } := by
  have hlayout : ¬(s.part.taken .setGeometry w).sht.layout.isSome = true := by simp [hfree]
  rw [exec_setGeometry_of_takes h]
  refine State.next_part_congr ?_
  rw [cmdSetGeometry, if_neg hlayout, hbad]
  exact Part.taken_refuse _ _ _ _ _ (by simp)

variable {g : Geometry} (hg : parseGeometry (s.part.words w) = .ok g)

include hg

theorem exec_setGeometry_of_small {i : Fin 16} (hi : s.part.pts.tooSmall g = some i) :
    exec (.setGeometry w) s = .next
      { s with
        part :=
          s.part.answered .setGeometry w .refused .badArg
            [natWord i.val, natWord (pagesFor (s.part.pts.windows[i].kind.minimum g))] } := by
  have hlayout : ¬(s.part.taken .setGeometry w).sht.layout.isSome = true := by simp [hfree]
  rw [exec_setGeometry_of_takes h]
  refine State.next_part_congr ?_
  rw [cmdSetGeometry, if_neg hlayout, hg]
  simp only [Part.taken_pts, hi]
  exact Part.taken_refuse _ _ _ _ _ (by simp)

theorem exec_setGeometry_of_fits (hfits : s.part.pts.tooSmall g = none) :
    exec (.setGeometry w) s = .next
      { s with
        part :=
          Part.answered .setGeometry w .done .ok
            ([natWord g.frameBytes, natWord g.slotPages, natWord g.previewBytes]
              ++ ((s.part.pts.windowOf .frameStore).map fun x => natWord (g.slotsIn x.size)).toList)
            { s.part with pts := { s.part.pts with geometry := some g } } } := by
  have hlayout : ¬(s.part.taken .setGeometry w).sht.layout.isSome = true := by simp [hfree]
  have hdone (data : List Word) (hd : data.length ≤ 24) :
      Part.done w.slot data { s.part.taken .setGeometry w with pts := { s.part.pts with geometry := some g } } =
        Part.answered .setGeometry w .done .ok data { s.part with pts := { s.part.pts with geometry := some g } } :=
    Part.taken_done .setGeometry w data { s.part with pts := { s.part.pts with geometry := some g } } hd
  rw [exec_setGeometry_of_takes h]
  refine State.next_part_congr ?_
  rw [cmdSetGeometry, if_neg hlayout, hg]
  simp only [Part.taken_pts, hfits]
  cases s.part.pts.windowOf .frameStore with
  | none => exact hdone [natWord g.frameBytes, natWord g.slotPages, natWord g.previewBytes] (by simp)
  | some x =>
    exact hdone [natWord g.frameBytes, natWord g.slotPages, natWord g.previewBytes, natWord (g.slotsIn x.size)] (by simp)

end SetGeometry

/-- Settles O27. -/
theorem setGeometryChecksTheWindows : Obligations.SetGeometryChecksTheWindows := by
  unfold Obligations.SetGeometryChecksTheWindows
  refine ⟨fun w s h hfree => ?refused, fun w g s h hfree hwidth hheight hphase hdepth hw16 hwlo hwhi hh8 hhlo hhhi hd => ?accepted⟩
  case refused =>
    intro arg refused width height
    have hbad {i : Nat} (hi : parseGeometry (s.part.words w) = .bad i) : refused (natWord i) := exec_setGeometry_of_bad h hfree hi
    refine ⟨fun hw => hbad (parseGeometry_of_badWidth hw), fun hw hh => hbad (parseGeometry_of_badHeight hw hh),
      fun hw hh hp => hbad (parseGeometry_of_badPhase hw hh hp), fun hw hh hp h12 h14 h16 => hbad ?_⟩
    obtain ⟨cfa, hcfa⟩ := cfaOf_of_lt hp
    rw [parseGeometry_of_phase hw hh hcfa, if_neg]
    rintro (hd | hd | hd)
    · exact h12 hd
    · exact h14 hd
    · exact h16 hd
  case accepted =>
    have harg {i n : Nat} (hi : (s.part.words w).getD i 0 = natWord n) (hn : n < 4294967296) : argNat (s.part.words w) i = n := by
      rw [argNat, argWord, hi, natWord_toNat hn]
    have hcode : g.cfa.code < 4294967296 := by cases g.cfa <;> decide
    have h0 := harg hwidth (by omega)
    have h1 := harg hheight (by omega)
    have h2 := harg hphase hcode
    have h3 := harg hdepth (by omega)
    have hparse : parseGeometry (s.part.words w) = .ok g := by
      rw [parseGeometry_of_phase (cfa := g.cfa) (by omega) (by omega) (by rw [h2, cfaOf_code]), h0, h1, h3, if_pos hd]
    refine ⟨fun hfits => ?_, fun i hpresent hsmall hlow => ?_⟩
    · refine exec_setGeometry_of_fits h hfree hparse (find?_finRange_of_none fun k => ?_)
      cases hpresent : s.part.pts.windows[k].present with
      | false => rfl
      | true =>
        rw [Bool.true_and, Bool.eq_false_iff, Ne, Nat.blt_eq]
        exact Nat.not_lt.mpr (hfits k hpresent)
    · refine exec_setGeometry_of_small h hfree hparse (find?_finRange_of_lowest ?_ fun k hk => ?_)
      · rw [hpresent, Bool.true_and, Nat.blt_eq]
        exact hsmall
      · cases hkpresent : s.part.pts.windows[k].present with
        | false => rfl
        | true =>
          rw [Bool.true_and, Bool.eq_false_iff, Ne, Nat.blt_eq]
          exact Nat.not_lt.mpr (hlow k hk hkpresent)

/-! ## The load session -/

section LoadOpen

variable {w : SlotWrite} {s : State} (h : s.part.takes .loadOpen w)

include h

theorem exec_loadOpen_of_takes {q : Part} (hq : cmdLoadOpen w.slot (s.part.words w) (s.part.taken .loadOpen w) = q) :
    exec (.loadOpen w) s = .next { s with part := q } := by
  rw [← hq]
  exact exec_row_of_takes_other (v := .loadOpen) (by decide) rfl h

end LoadOpen

theorem clampNat_eq (lo hi v : Nat) : clampNat lo hi v = if v < lo then lo else if hi < v then hi else v := rfl

/-- Settles O28. -/
theorem loadSessionOpensAndEnds : Obligations.LoadSessionOpensAndEnds := by
  unfold Obligations.LoadSessionOpensAndEnds
  refine ⟨fun w s h => ?opens, fun w s h => ⟨fun hs => ?cancelNone, fun hs => ?cancelClosing, fun hs => ?cancelOpen⟩,
    fun w s h => ⟨fun hs => ?closeNone, fun hs => ?closeClosing, fun hs => ?closeOpen⟩, fun timer s hs htimer hdue => ?timeout⟩
  case opens =>
    intro declared asked used
    refine ⟨fun hbad => exec_loadOpen_of_takes h ?_, fun hlo hhi h16 => ⟨fun hbundle => exec_loadOpen_of_takes h ?_,
      fun hbundle => ⟨fun hs => exec_loadOpen_of_takes h ?_, fun hs => exec_loadOpen_of_takes h ?_⟩⟩⟩
    all_goals unfold cmdLoadOpen
    · refine (if_pos hbad).trans ?_
      exact Part.taken_refuse _ _ _ _ _ (by simp)
    all_goals
      have hgood : ¬(argNat (s.part.words w) 0 < 64 ∨ 1048576 < argNat (s.part.words w) 0 ∨ argNat (s.part.words w) 0 % 16 ≠ 0) := by
        show ¬(declared < 64 ∨ 1048576 < declared ∨ declared % 16 ≠ 0)
        omega
      dsimp only
      rw [if_neg hgood]
    · rw [if_pos (by rw [Part.taken_pts, hbundle]; rfl)]
      exact Part.taken_refuse _ _ _ _ _ (by simp)
    all_goals rw [if_neg (by rw [Part.taken_pts, ← Option.not_isSome, hbundle]; decide)]
    · refine (if_pos hs).trans ?_
      exact Part.taken_refuse _ _ _ _ _ (by simp)
    · refine (if_neg hs).trans ?_
      refine (Part.taken_doneOr .loadOpen w (used != asked) [natWord declared, natWord used, s.part.cal.committed.word]
        { s.part with
          cal :=
            { s.part.cal with
              session := .open_, declared := declared, timeout := used, pointer := 0, overrun := false
              timer := some ⟨s.part.clock.time, used * 100000⟩ } } (by simp)).trans ?_
      by_cases heq : used = asked
      · simp [heq]
      · simp [heq]
  case cancelNone | cancelClosing =>
    refine (exec_row_of_takes_other (v := .loadCancel) (by decide) rfl h).trans (State.next_part_congr ?_)
    show cmdLoadCancel w.slot (s.part.words w) (s.part.taken .loadCancel w) = _
    simp only [cmdLoadCancel, Part.taken_cal, hs]
    exact Part.taken_refuse _ _ _ _ _ (by simp)
  case cancelOpen =>
    refine (exec_row_of_takes_other (v := .loadCancel) (by decide) rfl h).trans (State.next_part_congr ?_)
    show cmdLoadCancel w.slot (s.part.words w) (s.part.taken .loadCancel w) = _
    simp only [cmdLoadCancel, Part.taken_cal, hs]
    exact Part.taken_done .loadCancel w _ s.part.endSession (by simp)
  case closeNone | closeClosing =>
    refine (exec_row_of_takes_other (v := .loadClose) (by decide) rfl h).trans (State.next_part_congr ?_)
    show cmdLoadClose w.slot (s.part.words w) (s.part.taken .loadClose w) = _
    simp only [cmdLoadClose, Part.taken_cal, hs]
    exact Part.taken_refuse _ _ _ _ _ (by simp)
  case closeOpen =>
    refine (exec_row_of_takes_other (v := .loadClose) (by decide) rfl h).trans (State.next_part_congr ?_)
    show cmdLoadClose w.slot (s.part.words w) (s.part.taken .loadClose w) = _
    simp only [cmdLoadClose, Part.taken_cal, hs]
    rfl
  case timeout =>
    have hdue' : timerDue s.part.cal.timer s.part.now = true := by
      rw [htimer]
      exact hdue
    rw [show exec .loadTimeout s = .next { s with part := s.part.loadTimeout } from rfl, Part.loadTimeout]
    simp only [hs, hdue']
    rfl

end Sys2Proof.Machine
end

section
/-! PROOFS. The bundle's bytes as numbers, its checks in their order, and the rules of its sections (R50 to R56, R219). -/

namespace Sys2Proof.Machine

/-! ## Lists of 16-bit values -/

theorem bytesHalves_eq_map (bytes : List Byte) :
    bytesHalves bytes = (List.range (bytes.length / 2)).map fun i => leNat (slice (2 * i) 2 bytes) := by
  induction bytes using bytesHalves.induct with
  | case1 a b rest ih =>
    have hhalf : (rest.length + 1 + 1) / 2 = rest.length / 2 + 1 := by omega
    simp only [bytesHalves, List.length_cons, hhalf, List.range_succ_eq_map, List.map_cons, List.map_map, ih]
    rfl
  | case2 l hshort =>
    match l, hshort with
    | [], _ => rfl
    | [_], _ => simp [bytesHalves]
    | a :: b :: rest, hshort => exact absurd rfl (hshort a b rest)

theorem slice_drop (k off n : Nat) (bytes : List Byte) : slice off n (bytes.drop k) = slice (k + off) n bytes := by
  simp [slice]

theorem valuesOf_eq_map (bytes : List Byte) :
    valuesOf bytes = (List.range ((bytes.length - 4) / 2)).map fun i => leNat (slice (4 + 2 * i) 2 bytes) := by
  simp only [valuesOf, bytesHalves_eq_map, slice_drop, List.length_drop]

theorem pairsOf_map (n : Nat) (f : Nat → Nat) :
    pairsOf ((List.range (2 * n)).map f) = (List.range n).map fun i => (f (2 * i), f (2 * i + 1)) := by
  induction n generalizing f with
  | zero => rfl
  | succ n ih =>
    have := ih fun i => f (i + 2)
    simp only [Nat.mul_succ, List.range_succ_eq_map, List.map_cons, List.map_map, pairsOf]
    exact congrArg _ this

theorem triplesOf_map (n : Nat) (f : Nat → Nat) :
    triplesOf ((List.range (3 * n)).map f) = (List.range n).map fun i => (f (3 * i), f (3 * i + 1), f (3 * i + 2)) := by
  induction n generalizing f with
  | zero => rfl
  | succ n ih =>
    have := ih fun i => f (i + 3)
    simp only [Nat.mul_succ, List.range_succ_eq_map, List.map_cons, List.map_map, triplesOf]
    exact congrArg _ this

theorem take_eq_map_getD {n : Nat} {l : List Nat} (h : n ≤ l.length) : l.take n = (List.range n).map fun i => l.getD i 0 := by
  refine List.ext_getElem (by simp [h]) fun i hi _ => ?_
  have hin : i < n := Nat.lt_of_lt_of_le hi (List.length_take_le n l)
  simp [List.getElem?_eq_getElem (Nat.lt_of_lt_of_le hin h)]

theorem chunksOf_eq_map (size count : Nat) (l : List Nat) (h : size * count ≤ l.length) :
    chunksOf size count l = (List.range count).map fun c => (List.range size).map fun i => l.getD (size * c + i) 0 := by
  induction count generalizing l with
  | zero => rfl
  | succ count ih =>
    rw [Nat.mul_succ] at h
    have hrest := ih (l.drop size) (by rw [List.length_drop]; omega)
    simp only [chunksOf, hrest, take_eq_map_getD (show size ≤ l.length by omega), List.range_succ_eq_map, List.map_cons, List.map_map]
    rw [List.cons.injEq]
    refine ⟨by simp, List.map_congr_left fun c _ => List.map_congr_left fun i _ => ?_⟩
    simp [Nat.mul_succ, Nat.add_comm, Nat.add_left_comm]

theorem not_chain_map_range {α : Type} {chain : List α → Bool} {r : α → α → Bool} (hnil : chain [] = true)
    (hone : ∀ a, chain [a] = true) (hcons : ∀ a b rest, chain (a :: b :: rest) = (r a b && chain (b :: rest))) (n : Nat) (f : Nat → α) :
    (!chain ((List.range n).map f)) = (List.range (n - 1)).any fun i => !r (f i) (f (i + 1)) := by
  induction n generalizing f with
  | zero => simp [hnil]
  | succ n ih =>
    cases n with
    | zero => simp [hone]
    | succ n =>
      have hrest := ih fun i => f (i + 1)
      simp only [List.range_succ_eq_map, List.map_cons, List.map_map, Nat.add_sub_cancel] at hrest ⊢
      simp only [hcons, Bool.not_and, List.any_cons, List.any_map]
      exact congrArg (_ || ·) hrest

/-! ## The first that fails -/

section
variable {α : Type} {bad : List α → α → Bool}

theorem firstFailing_of_first {before xs : List α} {k j : Nat} (hj : j < xs.length) (hbad : bad (before ++ xs.take j) xs[j] = true)
    (hlow : ∀ i (hi : i < j), bad (before ++ xs.take i) xs[i] = false) : firstFailing bad before xs k = some (k + j) := by
  induction xs generalizing before k j with
  | nil => simp at hj
  | cons x xs ih =>
    cases j with
    | zero => exact (if_pos (by simpa using hbad)).trans rfl
    | succ j =>
      have hx : bad before x = false := by simpa using hlow 0 (Nat.succ_pos j)
      have hrest := ih (before := before ++ [x]) (k := k + 1) (j := j) (by simpa using hj) (by simpa using hbad) fun i hi => by
        simpa using hlow (i + 1) (Nat.succ_lt_succ hi)
      simp only [firstFailing, hx, Bool.false_eq_true, if_false, hrest, Nat.add_assoc, Nat.add_comm 1]

theorem firstFailing_eq_none_iff (before xs : List α) (k : Nat) :
    firstFailing bad before xs k = none ↔ ∀ i (hi : i < xs.length), bad (before ++ xs.take i) xs[i] = false := by
  induction xs generalizing before k with
  | nil => simp [firstFailing]
  | cons x xs ih =>
    cases hx : bad before x
    · simp only [firstFailing, hx, Bool.false_eq_true, if_false, ih]
      constructor
      · rintro h (_ | i) hi
        · simpa using hx
        · have hlt : i < xs.length := Nat.lt_of_succ_lt_succ hi
          simpa only [List.take_succ_cons, List.append_assoc, List.singleton_append, List.getElem_cons_succ] using h i hlt
      · intro h i hi
        have hlt : i + 1 < (x :: xs).length := Nat.succ_lt_succ hi
        simpa only [List.take_succ_cons, List.append_assoc, List.singleton_append, List.getElem_cons_succ] using h (i + 1) hlt
    · simp only [firstFailing, hx, if_true, reduceCtorEq, false_iff]
      intro h
      exact absurd ((h 0 (by simp)).symm.trans (by simpa using hx)) (by decide)

end

section
variable {bytes : List Byte} {bad : List SectionEntry → SectionEntry → Bool} {P : Nat → Prop}

/-- A condition over the section table, told by the entries' indices. -/
def tellsTable (bytes : List Byte) (bad : List SectionEntry → SectionEntry → Bool) (P : Nat → Prop) : Prop :=
  ∀ i, bad ((List.range i).map (sectionEntry bytes)) (sectionEntry bytes i) = true ↔ P i

theorem sectionTable_take {i : Nat} (hi : i ≤ fieldAt bytes 6 2) :
    (sectionTable bytes).take i = (List.range i).map (sectionEntry bytes) := by
  rw [sectionTable, ← List.map_take, List.take_range, Nat.min_eq_left hi]

theorem firstBad_of_first (hP : tellsTable bytes bad P) {i : Nat} (hi : i < fieldAt bytes 6 2) (hbad : P i) (hlow : ∀ j < i, ¬P j) :
    firstBad bad (sectionTable bytes) = some i := by
  have hlen : (sectionTable bytes).length = fieldAt bytes 6 2 := by simp [sectionTable]
  refine (firstFailing_of_first (j := i) (hlen ▸ hi) ?_ fun j hj => ?_).trans (by rw [Nat.zero_add])
  · rw [List.nil_append, sectionTable_take (Nat.le_of_lt hi)]
    simpa [sectionTable] using (hP i).2 hbad
  · rw [List.nil_append, sectionTable_take (Nat.le_of_lt (Nat.lt_trans hj hi))]
    simpa [sectionTable] using mt (hP j).1 (hlow j hj)

theorem firstBad_eq_none_iff (hP : tellsTable bytes bad P) :
    firstBad bad (sectionTable bytes) = none ↔ ∀ i < fieldAt bytes 6 2, ¬P i := by
  have hlen : (sectionTable bytes).length = fieldAt bytes 6 2 := by simp [sectionTable]
  rw [firstBad, firstFailing_eq_none_iff]
  simp only [List.nil_append, hlen]
  refine forall_congr' fun i => forall_congr' fun hi => ?_
  rw [sectionTable_take (Nat.le_of_lt hi), ← hP i]
  simp [sectionTable]

end

theorem findSome?_of_first {α β : Type} {l : List α} {f : α → Option β} {i : Nat} {x : α} {b : β} (hi : l[i]? = some x)
    (hx : f x = some b) (hlow : ∀ j < i, ∀ y, l[j]? = some y → f y = none) : l.findSome? f = some b := by
  induction l generalizing i with
  | nil => simp at hi
  | cons y l ih =>
    cases i with
    | zero =>
      obtain rfl : y = x := by simpa using hi
      simp [hx]
    | succ i =>
      have hy : f y = none := hlow 0 (Nat.succ_pos i) y rfl
      rw [List.findSome?_cons, hy]
      exact ih (by simpa using hi) fun j hj z hz => hlow (j + 1) (Nat.succ_lt_succ hj) z (by simpa using hz)

theorem find?_of_first {α : Type} {l : List α} {f : α → Bool} {i : Nat} {x : α} (hi : l[i]? = some x) (hx : f x = true)
    (hlow : ∀ j < i, ∀ y, l[j]? = some y → f y = false) : l.find? f = some x := by
  rw [List.find?_eq_findSome?_guard]
  exact findSome?_of_first hi (by simp [Option.guard, hx]) fun j hj y hy => by simp [Option.guard, hlow j hj y hy]

/-! ## The header and the section table (R51) -/

theorem sectionEntry_eq (bytes : List Byte) (i : Nat) :
    sectionEntry bytes i = ⟨fieldAt bytes (16 + 16 * i) 2, fieldAt bytes (20 + 16 * i) 4, fieldAt bytes (24 + 16 * i) 4⟩ := by
  simp only [sectionEntry, Nat.add_right_comm 16 _ _, Nat.reduceAdd]

theorem sectionKindOf_eq_none_iff (k : Nat) : sectionKindOf k = none ↔ k = 0 ∨ 7 < k := by
  match k with
  | 0 | 1 | 2 | 3 | 4 | 5 | 6 | 7 => simp [sectionKindOf]
  | k + 8 => exact iff_of_true rfl (.inr (by omega))

theorem code_of_sectionKindOf {n : Nat} {k : SectionKind} (h : sectionKindOf n = some k) : k.code = n := by
  match n, h with
  | 1, rfl | 2, rfl | 3, rfl | 4, rfl | 5, rfl | 6, rfl | 7, rfl => rfl
  | 0, h => cases h
  | _ + 8, h => cases h

theorem factory_iff_of_sectionKindOf {n : Nat} {k : SectionKind} (h : sectionKindOf n = some k) : k.factory = true ↔ n ≤ 5 := by
  rw [← code_of_sectionKindOf h]
  cases k <;> decide

theorem Committed.factory_of_has {c : Committed} {k : SectionKind} (h : c.has k = true) : k.factory = true := by
  cases k with
  | blackSat | gainGrid | defects | columns | darkTemp => rfl
  | tone | wb => cases h

section
variable (bytes : List Byte)

theorem tellsTable_unknown :
    tellsTable bytes (fun _ e => e.kind?.isNone) fun i => fieldAt bytes (16 + 16 * i) 2 = 0 ∨ 7 < fieldAt bytes (16 + 16 * i) 2 := by
  intro i
  simp only [Option.isNone_iff_eq_none, SectionEntry.kind?, sectionEntry, sectionKindOf_eq_none_iff]

theorem tellsTable_twice :
    tellsTable bytes (fun before e => before.any fun x => x.kind == e.kind) fun i =>
      ∃ j < i, fieldAt bytes (16 + 16 * j) 2 = fieldAt bytes (16 + 16 * i) 2 := by
  intro i
  simp [sectionEntry]

theorem tellsTable_misplaced (count total : Nat) :
    tellsTable bytes (fun _ e => e.misplaced count total) fun i =>
      fieldAt bytes (24 + 16 * i) 4 = 0 ∨ fieldAt bytes (20 + 16 * i) 4 % 4 ≠ 0 ∨ fieldAt bytes (20 + 16 * i) 4 < 16 + 16 * count ∨
        total - 4 < fieldAt bytes (20 + 16 * i) 4 + fieldAt bytes (24 + 16 * i) 4 := by
  intro i
  simp [sectionEntry_eq, SectionEntry.misplaced, Nat.blt_eq, or_assoc]

theorem tellsTable_overlap :
    tellsTable bytes (fun before e => before.any fun x => x.overlaps e) fun i =>
      ∃ j < i, fieldAt bytes (20 + 16 * j) 4 < fieldAt bytes (20 + 16 * i) 4 + fieldAt bytes (24 + 16 * i) 4 ∧
        fieldAt bytes (20 + 16 * i) 4 < fieldAt bytes (20 + 16 * j) 4 + fieldAt bytes (24 + 16 * j) 4 := by
  intro i
  simp [sectionEntry_eq, SectionEntry.overlaps, Nat.blt_eq]

end

section Header
variable {declared : Nat} {bytes : List Byte}

/-- The header and the count of its section table are as R51 requires. -/
structure Counted (declared : Nat) (bytes : List Byte) : Prop where
  magic : fieldAt bytes 0 4 = 0x4B424C31
  version : fieldAt bytes 4 2 = 1
  total : fieldAt bytes 8 4 = declared
  least : 1 ≤ fieldAt bytes 6 2
  most : fieldAt bytes 6 2 ≤ 8
  room : 16 + 16 * fieldAt bytes 6 2 + 4 ≤ fieldAt bytes 8 4

/-- The first fault of a table: the reason with the entry's index. -/
def entryFault (r : FormatReason) (i : Option Nat) : Option (FormatReason × Option Nat) := i.map fun i => (r, some i)

theorem headerFault_of_magic (h : fieldAt bytes 0 4 ≠ 0x4B424C31) : headerFault declared bytes = some (.magic, none) := by
  unfold headerFault
  rw [if_pos h]

theorem headerFault_of_version (hmagic : fieldAt bytes 0 4 = 0x4B424C31) (h : fieldAt bytes 4 2 ≠ 1) :
    headerFault declared bytes = some (.version, none) := by
  unfold headerFault
  rw [if_neg (not_not_intro hmagic), if_pos h]

theorem headerFault_of_total (hmagic : fieldAt bytes 0 4 = 0x4B424C31) (hversion : fieldAt bytes 4 2 = 1)
    (h : fieldAt bytes 8 4 ≠ declared) : headerFault declared bytes = some (.length, none) := by
  unfold headerFault
  rw [if_neg (not_not_intro hmagic), if_neg (not_not_intro hversion), if_pos h]

theorem headerFault_of_count (hmagic : fieldAt bytes 0 4 = 0x4B424C31) (hversion : fieldAt bytes 4 2 = 1)
    (htotal : fieldAt bytes 8 4 = declared)
    (h : fieldAt bytes 6 2 < 1 ∨ 8 < fieldAt bytes 6 2 ∨ fieldAt bytes 8 4 < 16 + 16 * fieldAt bytes 6 2 + 4) :
    headerFault declared bytes = some (.count, none) := by
  unfold headerFault
  rw [if_neg (not_not_intro hmagic), if_neg (not_not_intro hversion), if_neg (not_not_intro htotal), if_pos h]

theorem headerFault_of_counted (h : Counted declared bytes) :
    headerFault declared bytes =
      (entryFault .kind (firstBad (fun _ e => e.kind?.isNone) (sectionTable bytes))).or
        ((entryFault .duplicate (firstBad (fun before e => before.any fun x => x.kind == e.kind) (sectionTable bytes))).or
          ((entryFault .placement
              (firstBad (fun _ e => e.misplaced (fieldAt bytes 6 2) (fieldAt bytes 8 4)) (sectionTable bytes))).or
            (entryFault .overlap (firstBad (fun before e => before.any fun x => x.overlaps e) (sectionTable bytes))))) := by
  obtain ⟨hmagic, hversion, htotal, hleast, hmost, hroom⟩ := h
  unfold headerFault
  simp only []
  rw [if_neg (not_not_intro hmagic), if_neg (not_not_intro hversion), if_neg (not_not_intro htotal), if_neg (by omega)]
  cases firstBad (fun _ e => e.kind?.isNone) (sectionTable bytes) with
  | some i => rfl
  | none =>
    cases firstBad (fun before e => before.any fun x => x.kind == e.kind) (sectionTable bytes) with
    | some i => rfl
    | none =>
      cases firstBad (fun _ e => e.misplaced (fieldAt bytes 6 2) (fieldAt bytes 8 4)) (sectionTable bytes) with
      | some i => rfl
      | none => cases firstBad (fun before e => before.any fun x => x.overlaps e) (sectionTable bytes) <;> rfl

/-- A header that passes check 2 is one whose count is sound. -/
theorem counted_of_headerFault (h : headerFault declared bytes = none) : Counted declared bytes := by
  unfold headerFault at h
  simp only [] at h
  split at h
  · cases h
  · rename_i hmagic
    split at h
    · cases h
    · rename_i hversion
      split at h
      · cases h
      · rename_i htotal
        split at h
        · cases h
        · rename_i hcount
          exact ⟨Classical.not_not.1 hmagic, Classical.not_not.1 hversion, Classical.not_not.1 htotal, by omega, by omega, by omega⟩

theorem headerFault_eq_none_iff (h : Counted declared bytes) :
    headerFault declared bytes = none ↔
      firstBad (fun _ e => e.kind?.isNone) (sectionTable bytes) = none ∧
        firstBad (fun before e => before.any fun x => x.kind == e.kind) (sectionTable bytes) = none ∧
        firstBad (fun _ e => e.misplaced (fieldAt bytes 6 2) (fieldAt bytes 8 4)) (sectionTable bytes) = none ∧
        firstBad (fun before e => before.any fun x => x.overlaps e) (sectionTable bytes) = none := by
  simp only [headerFault_of_counted h, entryFault, Option.or_eq_none_iff, Option.map_eq_none_iff]

end Header

/-! ## The sections of a bundle -/

theorem sectionsFrom_of_known {bytes : List Byte} {es : List SectionEntry} (h : ∀ e ∈ es, e.kind?.isSome = true) (i : Nat) :
    (sectionsFrom bytes i es).length = es.length ∧
      ∀ (j : Nat) (e : SectionEntry), es[j]? = some e →
        ∃ k, e.kind? = some k ∧ (sectionsFrom bytes i es)[j]? = some ⟨i + j, k, slice e.offset e.length bytes⟩ := by
  induction es generalizing i with
  | nil => simp [sectionsFrom]
  | cons e es ih =>
    obtain ⟨k, hk⟩ := Option.isSome_iff_exists.1 (h e List.mem_cons_self)
    obtain ⟨hlen, hget⟩ := ih (fun x hx => h x (List.mem_cons_of_mem e hx)) (i + 1)
    simp only [sectionsFrom, hk]
    refine ⟨by simp [hlen], fun j x hx => ?_⟩
    cases j with
    | zero =>
      obtain rfl : e = x := by simpa using hx
      exact ⟨k, hk, rfl⟩
    | succ j =>
      obtain ⟨kind, hkind, hat⟩ := hget j x (by simpa using hx)
      refine ⟨kind, hkind, ?_⟩
      rw [List.getElem?_cons_succ, hat, Nat.add_assoc, Nat.add_comm 1]

/-- Of a table that names known kinds, section i is entry i's, with the entry's bytes. -/
theorem bundleSections_of_known {bytes : List Byte}
    (h : ∀ i < fieldAt bytes 6 2, ¬(fieldAt bytes (16 + 16 * i) 2 = 0 ∨ 7 < fieldAt bytes (16 + 16 * i) 2)) :
    (bundleSections bytes).length = fieldAt bytes 6 2 ∧
      ∀ i < fieldAt bytes 6 2, ∃ k, sectionKindOf (fieldAt bytes (16 + 16 * i) 2) = some k ∧
        (bundleSections bytes)[i]? = some ⟨i, k, slice (fieldAt bytes (20 + 16 * i) 4) (fieldAt bytes (24 + 16 * i) 4) bytes⟩ := by
  have hknown : ∀ e ∈ sectionTable bytes, e.kind?.isSome = true := by
    intro e he
    obtain ⟨i, hi, rfl⟩ := List.mem_map.1 he
    rw [Option.isSome_iff_ne_none, SectionEntry.kind?, Ne, sectionKindOf_eq_none_iff]
    exact h i (List.mem_range.1 hi)
  obtain ⟨hlen, hget⟩ := sectionsFrom_of_known hknown 0
  refine ⟨hlen.trans (by simp [sectionTable]), fun i hi => ?_⟩
  obtain ⟨k, hk, hat⟩ := hget i (sectionEntry bytes i) (by simp [sectionTable, hi])
  rw [sectionEntry_eq, Nat.zero_add] at hat
  exact ⟨k, hk, hat⟩

theorem sectionsFault_eq_findSome? (g : Option Geometry) (ss : List BundleSection) :
    sectionsFault g ss = ss.findSome? fun s => (sectionFault g s.kind s.bytes).map fun r => (s.index, r) := by
  induction ss with
  | nil => rfl
  | cons s ss ih =>
    rw [List.findSome?_cons, sectionsFault, ih]
    cases sectionFault g s.kind s.bytes <;> rfl

/-! ## The checks of a close in their order (R50) -/

section Checks
variable {p : Part}

theorem Cal.sizeFault_of_fits (hover : p.cal.overrun = false) (hptr : p.cal.pointer = p.cal.declared) : p.cal.sizeFault = none := by
  simp [Cal.sizeFault, hover, hptr]

theorem Part.closeResult_of_size {r : CloseResult} (h : p.cal.sizeFault = some r) : p.closeResult = r := by
  simp [Part.closeResult, h]

theorem Part.closeResult_of_format {r : FormatReason} {i : Option Nat} (hsize : p.cal.sizeFault = none)
    (h : headerFault p.cal.declared p.cal.bundle = some (r, i)) :
    p.closeResult = .failed .bundleFormat (natWord r.code :: (i.map fun n => natWord n).toList) [] := by
  simp [Part.closeResult, hsize, Cal.formatFault, h]

theorem Part.closeResult_of_crc {r : CloseResult} (hsize : p.cal.sizeFault = none)
    (hformat : headerFault p.cal.declared p.cal.bundle = none) (h : p.cal.crcFault = some r) : p.closeResult = r := by
  simp [Part.closeResult, hsize, Cal.formatFault, hformat, h]

/-- Past the checks of the size, the header and the CRC-32 the sections decide. -/
theorem Part.closeResult_of_whole (hsize : p.cal.sizeFault = none) (hformat : headerFault p.cal.declared p.cal.bundle = none)
    (hcrc : p.cal.crcFault = none) :
    p.closeResult =
      ((p.sectionCheck (bundleSections p.cal.bundle)).or ((p.lockCheck (bundleSections p.cal.bundle)).or
        (p.busyCheck (bundleSections p.cal.bundle)))).getD (.commit (bundleSections p.cal.bundle)) := by
  simp only [Part.closeResult, hsize, Cal.formatFault, hformat, hcrc, Option.map_none, Option.none_or]
  cases (p.sectionCheck (bundleSections p.cal.bundle)).or ((p.lockCheck (bundleSections p.cal.bundle)).or
    (p.busyCheck (bundleSections p.cal.bundle))) <;> rfl

theorem Cal.crcFault_eq (c : Cal) :
    c.crcFault =
      if crc32 (c.bundle.take (c.declared - 4)) = natWord (fieldAt c.bundle (c.declared - 4) 4) then none
      else
        some (.failed .bundleCrc [crc32 (c.bundle.take (c.declared - 4)), natWord (fieldAt c.bundle (c.declared - 4) 4)] []) := rfl

theorem ShotState.inCorrection_eq (st : ShotState) : st.inCorrection = decide (st ∈ [ShotState.reading, .awaitDark, .developing]) := by
  cases st <;> rfl

/-- The shot in correction comes first: it is the one the refusal names. -/
theorem Part.correctionWork_of_shot {x : Shot} (hx : p.sht.records.find? (fun y => y.state.inCorrection) = some x)
    (hfirst : ∀ c, p.dfl.capture = some c → x.number.toNat ≤ c.shot.toNat) : p.correctionWork = some (shotAtWork x) := by
  unfold Part.correctionWork
  rw [hx]
  cases hc : p.dfl.capture with
  | none => rfl
  | some c => exact congrArg some (if_neg (Nat.not_lt.2 (hfirst c hc)))

theorem Part.correctionWork_of_capture {c : Capture} (hc : p.dfl.capture = some c)
    (hfirst : ∀ x, p.sht.records.find? (fun y => y.state.inCorrection) = some x → c.shot.toNat < x.number.toNat) :
    p.correctionWork = some (captureAtWork c) := by
  unfold Part.correctionWork
  rw [hc]
  cases hx : p.sht.records.find? (fun y => y.state.inCorrection) with
  | none => rfl
  | some x => exact congrArg some (if_pos (hfirst x hx))

theorem Part.correctionWork_of_rest (hrecords : ∀ x ∈ p.sht.records, x.state ∉ [ShotState.reading, .awaitDark, .developing])
    (hc : p.dfl.capture = none) : p.correctionWork = none := by
  have hfind : p.sht.records.find? (fun y => y.state.inCorrection) = none :=
    List.find?_eq_none.2 fun x hx => by simpa [ShotState.inCorrection_eq] using hrecords x hx
  unfold Part.correctionWork
  rw [hc, hfind]

end Checks

/-! ## A section's own rules (R53) -/

theorem not_all_map_range {α : Type} (n : Nat) (f : Nat → α) (good : α → Bool) :
    (!((List.range n).map f).all good) = (List.range n).any fun i => !good (f i) := by
  rw [List.all_map, List.not_all_eq_any_not]
  rfl

/-- A number lies outside a range. -/
theorem not_inRange (lo hi v : Nat) : (!inRange lo hi v) = (decide (v < lo) || decide (hi < v)) := by
  rw [Bool.eq_iff_iff]
  simp only [inRange, Bool.not_eq_true', ← Bool.not_eq_true, Bool.and_eq_true, Nat.ble_eq, Bool.or_eq_true, decide_eq_true_eq]
  omega

theorem bytesHalves_of_length {bytes : List Byte} {n : Nat} (h : bytes.length = 2 * n) :
    bytesHalves bytes = (List.range n).map fun i => leNat (slice (2 * i) 2 bytes) := by
  rw [bytesHalves_eq_map, h, Nat.mul_div_cancel_left n (by decide)]

theorem valuesOf_of_length {bytes : List Byte} {n : Nat} (h : bytes.length = 4 + 2 * n) :
    valuesOf bytes = (List.range n).map fun i => leNat (slice (4 + 2 * i) 2 bytes) := by
  rw [valuesOf_eq_map, h, Nat.add_sub_cancel_left, Nat.mul_div_cancel_left n (by decide)]

theorem blackSat_pairs {bytes : List Byte} (h : bytes.length = 32) :
    pairsOf (bytesHalves bytes) =
      (List.range 8).map fun g => (leNat (slice (2 * (2 * g)) 2 bytes), leNat (slice (2 * (2 * g + 1)) 2 bytes)) := by
  rw [bytesHalves_of_length (n := 2 * 8) h, pairsOf_map]

theorem defects_pairs {bytes : List Byte} {n : Nat} (h : bytes.length = 4 + 4 * n) :
    pairsOf (valuesOf bytes) =
      (List.range n).map fun i => (leNat (slice (4 + 2 * (2 * i)) 2 bytes), leNat (slice (4 + 2 * (2 * i + 1)) 2 bytes)) := by
  rw [valuesOf_of_length (n := 2 * n) (by omega), pairsOf_map]

theorem wb_values {bytes : List Byte} {n : Nat} (h : bytes.length = 4 + 6 * n) :
    valuesOf bytes = (List.range (3 * n)).map fun i => leNat (slice (4 + 2 * i) 2 bytes) :=
  valuesOf_of_length (by omega)

theorem tone_curves {bytes : List Byte} {n : Nat} (h : bytes.length = 4 + 1024 * n) :
    chunksOf 1024 n ((bytes.drop 4).map BitVec.toNat) =
      (List.range n).map fun c => (List.range 1024).map fun i => (bytes.getD (4 + 1024 * c + i) 0).toNat := by
  rw [chunksOf_eq_map 1024 n _ (by rw [List.length_map, List.length_drop]; omega)]
  refine List.map_congr_left fun c _ => List.map_congr_left fun i _ => ?_
  rw [List.getD_eq_getElem?_getD, List.getD_eq_getElem?_getD, List.getElem?_map, List.getElem?_drop, ← Nat.add_assoc]
  cases bytes[4 + 1024 * c + i]? <;> rfl

theorem not_ascending_map (n : Nat) (f : Nat → Nat) :
    (!ascending ((List.range n).map f)) = (List.range (n - 1)).any fun i => decide (f (i + 1) ≤ f i) := by
  rw [not_chain_map_range (r := Nat.blt) rfl (fun _ => rfl) (fun _ _ _ => rfl)]
  refine congrArg _ (funext fun i => ?_)
  rw [Bool.eq_iff_iff, Bool.not_eq_true', ← Bool.not_eq_true, Nat.blt_eq, decide_eq_true_iff, Nat.not_lt]

theorem not_nonDecreasing_map (n : Nat) (f : Nat → Nat) :
    (!nonDecreasing ((List.range n).map f)) = (List.range (n - 1)).any fun i => decide (f (i + 1) < f i) := by
  rw [not_chain_map_range (r := Nat.ble) rfl (fun _ => rfl) (fun _ _ _ => rfl)]
  refine congrArg _ (funext fun i => ?_)
  rw [Bool.eq_iff_iff, Bool.not_eq_true', ← Bool.not_eq_true, Nat.ble_eq, decide_eq_true_iff, Nat.not_le]

theorem not_scanOrder_map (n : Nat) (f g : Nat → Nat) :
    (!scanOrder ((List.range n).map fun i => (f i, g i))) =
      (List.range (n - 1)).any fun i => decide (g (i + 1) < g i) || (decide (g (i + 1) = g i) && decide (f (i + 1) ≤ f i)) := by
  rw [not_chain_map_range (r := fun a b => Nat.blt a.2 b.2 || (a.2 == b.2 && Nat.blt a.1 b.1)) rfl (fun _ => rfl) (fun _ _ _ => rfl)]
  refine congrArg _ (funext fun i => ?_)
  rw [Bool.eq_iff_iff, Bool.not_eq_true', ← Bool.not_eq_true]
  simp only [Bool.or_eq_true, Bool.and_eq_true, Nat.blt_eq, beq_iff_eq, decide_eq_true_eq]
  omega

/-! ## The rules of each kind -/

section Rules
variable (geo : Option Geometry) (bytes : List Byte)

theorem not_blt (a b : Nat) : (!Nat.blt a b) = decide (b ≤ a) := by
  rw [Bool.eq_iff_iff, Bool.not_eq_true', ← Bool.not_eq_true, Nat.blt_eq, decide_eq_true_eq, Nat.not_lt]

theorem sectionFault_blackSat :
    sectionFault geo .blackSat bytes =
      if bytes.length ≠ 32 then some .length
      else if (List.range 8).any fun i =>
          decide (leNat (slice (2 * (2 * i)) 2 bytes) < 0) || decide (4095 < leNat (slice (2 * (2 * i)) 2 bytes)) then some .black
      else if (List.range 8).any fun i =>
          decide (leNat (slice (2 * (2 * i + 1)) 2 bytes) < leNat (slice (2 * (2 * i)) 2 bytes) + 256) ||
            decide (thresholdLimit geo < leNat (slice (2 * (2 * i + 1)) 2 bytes)) then some .threshold
      else none := by
  by_cases hlen : bytes.length ≠ 32
  · rw [if_pos hlen]
    exact if_pos hlen
  · rw [if_neg hlen, sectionFault, if_neg hlen]
    simp only [blackSat_pairs (Classical.not_not.1 hlen), not_all_map_range, not_inRange]

theorem sectionFault_gainGrid :
    sectionFault geo .gainGrid bytes =
      if bytes.length ≠ 6144 then some .length
      else if (List.range 3072).any fun i =>
          decide (leNat (slice (2 * i) 2 bytes) < 2048) || decide (16383 < leNat (slice (2 * i) 2 bytes)) then some .gain
      else none := by
  by_cases hlen : bytes.length ≠ 6144
  · rw [if_pos hlen]
    exact if_pos hlen
  · rw [if_neg hlen, sectionFault, if_neg hlen]
    simp only [bytesHalves_of_length (n := 3072) (Classical.not_not.1 hlen), not_all_map_range, not_inRange]

theorem sectionFault_darkTemp :
    sectionFault geo .darkTemp bytes =
      if bytes.length ≠ 34 then some .length
      else if (List.range 17).any fun i =>
          decide (leNat (slice (2 * i) 2 bytes) < 8192) || decide (32767 < leNat (slice (2 * i) 2 bytes)) then some .factor
      else none := by
  by_cases hlen : bytes.length ≠ 34
  · rw [if_pos hlen]
    exact if_pos hlen
  · rw [if_neg hlen, sectionFault, if_neg hlen]
    simp only [bytesHalves_of_length (n := 17) (Classical.not_not.1 hlen), not_all_map_range, not_inRange]

section Counts
variable {bytes} {entry least most : Nat}

theorem countFault_of_length (h : bytes.length ≠ 4 + entry * countOf bytes) : countFault bytes entry least most = some .length :=
  if_pos h

theorem countFault_of_count (hlen : ¬bytes.length ≠ 4 + entry * countOf bytes) (h : countOf bytes < least ∨ most < countOf bytes) :
    countFault bytes entry least most = some .count :=
  (if_neg hlen).trans (if_pos h)

theorem countFault_of_fits (hlen : ¬bytes.length ≠ 4 + entry * countOf bytes) (h : ¬(countOf bytes < least ∨ most < countOf bytes)) :
    countFault bytes entry least most = none :=
  (if_neg hlen).trans (if_neg h)

end Counts

theorem sectionFault_wb :
    sectionFault geo .wb bytes =
      if bytes.length ≠ 4 + 6 * countOf bytes then some .length
      else if countOf bytes < 1 ∨ 8 < countOf bytes then some .count
      else if (List.range (3 * countOf bytes)).any fun i =>
          decide (leNat (slice (4 + 2 * i) 2 bytes) < 2048) || decide (16383 < leNat (slice (4 + 2 * i) 2 bytes)) then some .gain
      else none := by
  by_cases hlen : bytes.length ≠ 4 + 6 * countOf bytes
  · rw [if_pos hlen, sectionFault, countFault_of_length hlen]
  · by_cases hcount : countOf bytes < 1 ∨ 8 < countOf bytes
    · rw [if_neg hlen, if_pos hcount, sectionFault, countFault_of_count hlen hcount]
    · rw [if_neg hlen, if_neg hcount, sectionFault, countFault_of_fits hlen hcount]
      simp only [wb_values (Classical.not_not.1 hlen), not_all_map_range, not_inRange]

theorem sectionFault_tone :
    sectionFault geo .tone bytes =
      if bytes.length ≠ 4 + 1024 * countOf bytes then some .length
      else if countOf bytes < 1 ∨ 4 < countOf bytes then some .count
      else if (List.range (countOf bytes)).any fun c => (List.range 1023).any fun i =>
          decide ((bytes.getD (4 + 1024 * c + i + 1) 0).toNat < (bytes.getD (4 + 1024 * c + i) 0).toNat) then some .curve
      else none := by
  by_cases hlen : bytes.length ≠ 4 + 1024 * countOf bytes
  · rw [if_pos hlen, sectionFault, countFault_of_length hlen]
  · by_cases hcount : countOf bytes < 1 ∨ 4 < countOf bytes
    · rw [if_neg hlen, if_pos hcount, sectionFault, countFault_of_count hlen hcount]
    · rw [if_neg hlen, if_neg hcount, sectionFault, countFault_of_fits hlen hcount]
      simp only [tone_curves (Classical.not_not.1 hlen), not_all_map_range, not_nonDecreasing_map, Nat.add_assoc]

theorem sectionFault_defects_none :
    sectionFault none .defects bytes =
      if bytes.length ≠ 4 + 4 * countOf bytes then some .length
      else if 4096 < countOf bytes then some .count
      else some .noGeometry := by
  by_cases hlen : bytes.length ≠ 4 + 4 * countOf bytes
  · rw [if_pos hlen, sectionFault, countFault_of_length hlen]
  · by_cases hcount : 4096 < countOf bytes
    · rw [if_neg hlen, if_pos hcount, sectionFault, countFault_of_count hlen (.inr hcount)]
    · rw [if_neg hlen, if_neg hcount, sectionFault, countFault_of_fits hlen (by omega)]

theorem sectionFault_defects_some (g : Geometry) :
    sectionFault (some g) .defects bytes =
      if bytes.length ≠ 4 + 4 * countOf bytes then some .length
      else if 4096 < countOf bytes then some .count
      else if (List.range (countOf bytes)).any fun i =>
          decide (g.width ≤ leNat (slice (4 + 2 * (2 * i)) 2 bytes)) ||
            decide (g.height ≤ leNat (slice (4 + 2 * (2 * i + 1)) 2 bytes)) then some .position
      else if (List.range (countOf bytes - 1)).any fun i =>
          decide (leNat (slice (4 + 2 * (2 * (i + 1) + 1)) 2 bytes) < leNat (slice (4 + 2 * (2 * i + 1)) 2 bytes)) ||
            (decide (leNat (slice (4 + 2 * (2 * (i + 1) + 1)) 2 bytes) = leNat (slice (4 + 2 * (2 * i + 1)) 2 bytes)) &&
              decide (leNat (slice (4 + 2 * (2 * (i + 1))) 2 bytes) ≤ leNat (slice (4 + 2 * (2 * i)) 2 bytes))) then some .order
      else none := by
  by_cases hlen : bytes.length ≠ 4 + 4 * countOf bytes
  · rw [if_pos hlen, sectionFault, countFault_of_length hlen]
  · by_cases hcount : 4096 < countOf bytes
    · rw [if_neg hlen, if_pos hcount, sectionFault, countFault_of_count hlen (.inr hcount)]
    · rw [if_neg hlen, if_neg hcount, sectionFault, countFault_of_fits hlen (by omega)]
      simp only [defects_pairs (Classical.not_not.1 hlen), not_all_map_range, not_scanOrder_map, Bool.not_and, not_blt]

theorem sectionFault_columns_none :
    sectionFault none .columns bytes =
      if bytes.length ≠ 4 + 2 * countOf bytes then some .length
      else if 64 < countOf bytes then some .count
      else some .noGeometry := by
  by_cases hlen : bytes.length ≠ 4 + 2 * countOf bytes
  · rw [if_pos hlen, sectionFault, countFault_of_length hlen]
  · by_cases hcount : 64 < countOf bytes
    · rw [if_neg hlen, if_pos hcount, sectionFault, countFault_of_count hlen (.inr hcount)]
    · rw [if_neg hlen, if_neg hcount, sectionFault, countFault_of_fits hlen (by omega)]

theorem sectionFault_columns_some (g : Geometry) :
    sectionFault (some g) .columns bytes =
      if bytes.length ≠ 4 + 2 * countOf bytes then some .length
      else if 64 < countOf bytes then some .count
      else if (List.range (countOf bytes)).any fun i => decide (g.width ≤ leNat (slice (4 + 2 * i) 2 bytes)) then some .position
      else if (List.range (countOf bytes - 1)).any fun i =>
          decide (leNat (slice (4 + 2 * (i + 1)) 2 bytes) ≤ leNat (slice (4 + 2 * i) 2 bytes)) then some .order
      else none := by
  by_cases hlen : bytes.length ≠ 4 + 2 * countOf bytes
  · rw [if_pos hlen, sectionFault, countFault_of_length hlen]
  · by_cases hcount : 64 < countOf bytes
    · rw [if_neg hlen, if_pos hcount, sectionFault, countFault_of_count hlen (.inr hcount)]
    · rw [if_neg hlen, if_neg hcount, sectionFault, countFault_of_fits hlen (by omega)]
      simp only [valuesOf_of_length (Classical.not_not.1 hlen), not_all_map_range, not_ascending_map, not_blt]

end Rules

/-! ## The sections decide (R53 to R56) -/

section Sections
variable {p : Part}

/-- The entry of the table at i: its kind, its start and its bytes. -/
def entryKind (bytes : List Byte) (i : Nat) : Nat := fieldAt bytes (16 + 16 * i) 2

def entryContent (bytes : List Byte) (i : Nat) : List Byte :=
  slice (fieldAt bytes (20 + 16 * i) 4) (fieldAt bytes (24 + 16 * i) 4) bytes

/-- The bundle has passed the checks of its size, its header, its section table and its CRC-32. -/
structure Whole (p : Part) : Prop where
  size : p.cal.sizeFault = none
  header : headerFault p.cal.declared p.cal.bundle = none
  crc : p.cal.crcFault = none
  known : ∀ i < fieldAt p.cal.bundle 6 2, ¬(entryKind p.cal.bundle i = 0 ∨ 7 < entryKind p.cal.bundle i)

/-- No section of the bundle breaks its rules. -/
def Faultless (p : Part) : Prop :=
  ∀ i < fieldAt p.cal.bundle 6 2, ∀ k, sectionKindOf (entryKind p.cal.bundle i) = some k →
    sectionFault p.pts.geometry k (entryContent p.cal.bundle i) = none

theorem Whole.section_at (h : Whole p) {i : Nat} (hi : i < fieldAt p.cal.bundle 6 2) :
    ∃ k, sectionKindOf (entryKind p.cal.bundle i) = some k ∧
      (bundleSections p.cal.bundle)[i]? = some ⟨i, k, entryContent p.cal.bundle i⟩ :=
  (bundleSections_of_known h.known).2 i hi

theorem Whole.exists_of_mem (h : Whole p) {x : BundleSection} (hx : x ∈ bundleSections p.cal.bundle) :
    ∃ i < fieldAt p.cal.bundle 6 2, sectionKindOf (entryKind p.cal.bundle i) = some x.kind ∧
      x = ⟨i, x.kind, entryContent p.cal.bundle i⟩ ∧ (bundleSections p.cal.bundle)[i]? = some x := by
  obtain ⟨i, hi, hat⟩ := List.mem_iff_getElem.1 hx
  have hcount : i < fieldAt p.cal.bundle 6 2 := (bundleSections_of_known h.known).1 ▸ hi
  obtain ⟨k, hk, hget⟩ := h.section_at hcount
  have hat' : (bundleSections p.cal.bundle)[i]? = some x := by rw [List.getElem?_eq_getElem hi, hat]
  obtain rfl := Option.some.inj (hat'.symm.trans hget)
  exact ⟨i, hcount, hk, rfl, hget⟩

theorem Whole.sectionCheck_of_first (h : Whole p) {i : Nat} {k : SectionKind} {r : FormatReason} (hi : i < fieldAt p.cal.bundle 6 2)
    (hk : sectionKindOf (entryKind p.cal.bundle i) = some k)
    (hr : sectionFault p.pts.geometry k (entryContent p.cal.bundle i) = some r)
    (hlow : ∀ j < i, ¬∃ k r, sectionKindOf (entryKind p.cal.bundle j) = some k ∧
      sectionFault p.pts.geometry k (entryContent p.cal.bundle j) = some r) :
    p.closeResult = .failed .bundleFormat [natWord i, natWord r.code] [natWord i] := by
  have hfault : sectionsFault p.pts.geometry (bundleSections p.cal.bundle) = some (i, r) := by
    obtain ⟨k', hk', hget⟩ := h.section_at hi
    obtain rfl : k = k' := Option.some.inj (hk.symm.trans hk')
    rw [sectionsFault_eq_findSome?]
    refine findSome?_of_first hget (by simp only [hr, Option.map_some]) fun j hj y hy => ?_
    obtain ⟨kj, hkj, hgetj⟩ := h.section_at (Nat.lt_trans hj hi)
    obtain rfl := Option.some.inj (hgetj.symm.trans hy)
    exact Option.map_eq_none_iff.2 (Option.eq_none_iff_forall_ne_some.2 fun r hr => hlow j hj ⟨kj, r, hkj, hr⟩)
  rw [Part.closeResult_of_whole h.size h.header h.crc, Part.sectionCheck, hfault]
  rfl

/-- Past the rules of the sections the locks and the work in progress decide. -/
theorem Whole.closeResult_of_faultless (h : Whole p) (hrules : Faultless p) :
    p.closeResult =
      ((p.lockCheck (bundleSections p.cal.bundle)).or (p.busyCheck (bundleSections p.cal.bundle))).getD
        (.commit (bundleSections p.cal.bundle)) := by
  have hfault : sectionsFault p.pts.geometry (bundleSections p.cal.bundle) = none := by
    rw [sectionsFault_eq_findSome?, List.findSome?_eq_none_iff]
    intro x hx
    obtain ⟨i, hi, hk, hxi, -⟩ := h.exists_of_mem hx
    rw [Option.map_eq_none_iff, hxi]
    exact hrules i hi x.kind hk
  rw [Part.closeResult_of_whole h.size h.header h.crc, Part.sectionCheck, hfault]
  rfl

theorem Whole.closeResult_of_locked (h : Whole p) (hrules : Faultless p) (hmode : p.cpa.mode ≠ .service) {i : Nat} {k : SectionKind}
    (hi : i < fieldAt p.cal.bundle 6 2) (hk : sectionKindOf (entryKind p.cal.bundle i) = some k)
    (hlocked : p.cal.committed.has k = true)
    (hlow : ∀ j < i, ∀ k, sectionKindOf (entryKind p.cal.bundle j) = some k → p.cal.committed.has k = false) :
    p.closeResult = .failed .sectionLocked [natWord i, natWord (entryKind p.cal.bundle i)] [] := by
  obtain ⟨k', hk', hget⟩ := h.section_at hi
  obtain rfl : k = k' := Option.some.inj (hk.symm.trans hk')
  have hfind : (bundleSections p.cal.bundle).find? (fun s => s.kind.factory && p.cal.committed.has s.kind) =
      some ⟨i, k, entryContent p.cal.bundle i⟩ := by
    refine find?_of_first hget (by simp [Committed.factory_of_has hlocked, hlocked]) fun j hj y hy => ?_
    obtain ⟨kj, hkj, hgetj⟩ := h.section_at (Nat.lt_trans hj hi)
    obtain rfl := Option.some.inj (hgetj.symm.trans hy)
    exact Bool.and_eq_false_iff.2 (.inr (hlow j hj kj hkj))
  rw [h.closeResult_of_faultless hrules, Part.lockCheck, if_neg hmode, hfind]
  exact congrArg (CloseResult.failed _ · _) (by rw [code_of_sectionKindOf hk])

/-- With no section locked the work in progress decides. -/
theorem Whole.closeResult_of_unlocked (h : Whole p) (hrules : Faultless p)
    (hfree : ∀ i < fieldAt p.cal.bundle 6 2,
      ¬(p.cpa.mode ≠ .service ∧ ∃ k, sectionKindOf (entryKind p.cal.bundle i) = some k ∧ p.cal.committed.has k = true)) :
    p.closeResult = (p.busyCheck (bundleSections p.cal.bundle)).getD (.commit (bundleSections p.cal.bundle)) := by
  have hlock : p.lockCheck (bundleSections p.cal.bundle) = none := by
    unfold Part.lockCheck
    split
    · rfl
    · rename_i hmode
      rw [Option.map_eq_none_iff, List.find?_eq_none]
      intro x hx
      obtain ⟨i, hi, hk, -, -⟩ := h.exists_of_mem hx
      have := fun hhas => hfree i hi ⟨hmode, x.kind, hk, hhas⟩
      simpa using fun _ => this
  rw [h.closeResult_of_faultless hrules, hlock, Option.none_or]

theorem Whole.any_factory_iff (h : Whole p) :
    ((bundleSections p.cal.bundle).any fun s => s.kind.factory) = true ↔
      ∃ i < fieldAt p.cal.bundle 6 2, entryKind p.cal.bundle i ≤ 5 := by
  rw [List.any_eq_true]
  constructor
  · rintro ⟨x, hx, hfactory⟩
    obtain ⟨i, hi, hk, -, -⟩ := h.exists_of_mem hx
    exact ⟨i, hi, (factory_iff_of_sectionKindOf hk).1 hfactory⟩
  · rintro ⟨i, hi, hfactory⟩
    obtain ⟨k, hk, hget⟩ := h.section_at hi
    exact ⟨_, List.mem_of_getElem? hget, (factory_iff_of_sectionKindOf hk).2 hfactory⟩

theorem Whole.busyCheck_of_factory (h : Whole p) {i : Nat} (hi : i < fieldAt p.cal.bundle 6 2) (hfactory : entryKind p.cal.bundle i ≤ 5)
    {data : List Word} (hwork : p.correctionWork = some data) :
    p.busyCheck (bundleSections p.cal.bundle) = some (.busy data) := by
  rw [Part.busyCheck, if_pos (h.any_factory_iff.2 ⟨i, hi, hfactory⟩), hwork]
  rfl

theorem Whole.busyCheck_of_free (h : Whole p)
    (hfree : (∀ i < fieldAt p.cal.bundle 6 2, ¬entryKind p.cal.bundle i ≤ 5) ∨ p.correctionWork = none) :
    p.busyCheck (bundleSections p.cal.bundle) = none := by
  unfold Part.busyCheck
  split
  · rename_i hany
    obtain ⟨i, hi, hfactory⟩ := h.any_factory_iff.1 hany
    exact hfree.elim (fun hnone => absurd hfactory (hnone i hi)) fun hwork => by rw [hwork]; rfl
  · rfl

end Sections

/-- Settles O38: the checks are taken one after another, each lemma above giving the result of the first that fails; the rules
of the sections are the equations of `sectionFault`. -/
theorem loadCloseChecksAndSectionRules : Obligations.LoadCloseChecksAndSectionRules := by
  refine ⟨fun p hover hptr => ?checks, fun geo bytes => ?rules⟩
  case checks =>
    have hsize : p.cal.sizeFault = none := Cal.sizeFault_of_fits hover hptr
    have hfails {r : FormatReason} {i : Option Nat} (h : headerFault p.cal.declared p.cal.bundle = some (r, i)) :=
      Part.closeResult_of_format hsize h
    intro bytes field total count kind start size content unknown misplaced overlap fails first none_ twice over_ factory faulty
      locked crc trailer headed counted laidOut sound
    have hcounted (h : counted) : Counted p.cal.declared p.cal.bundle :=
      let ⟨⟨hmagic, hversion, htotal⟩, hleast, hmost, hroom⟩ := h
      ⟨hmagic, hversion, htotal, hleast, hmost, hroom⟩
    have hunknown (h : none_ unknown) : firstBad (fun _ e => e.kind?.isNone) (sectionTable p.cal.bundle) = none :=
      (firstBad_eq_none_iff (tellsTable_unknown _)).2 h
    have htwice (h : none_ twice) :
        firstBad (fun before e => before.any fun x => x.kind == e.kind) (sectionTable p.cal.bundle) = none :=
      (firstBad_eq_none_iff (tellsTable_twice _)).2 h
    have hmisplaced (h : none_ misplaced) :
        firstBad (fun _ e => e.misplaced (fieldAt p.cal.bundle 6 2) (fieldAt p.cal.bundle 8 4)) (sectionTable p.cal.bundle) = none :=
      (firstBad_eq_none_iff (tellsTable_misplaced _ _ _)).2 h
    have hover (h : none_ over_) :
        firstBad (fun before e => before.any fun x => x.overlaps e) (sectionTable p.cal.bundle) = none :=
      (firstBad_eq_none_iff (tellsTable_overlap _)).2 h
    have hheader (h : laidOut) : headerFault p.cal.declared p.cal.bundle = none :=
      let ⟨hc, h1, h2, h3, h4⟩ := h
      (headerFault_eq_none_iff (hcounted hc)).2 ⟨hunknown h1, htwice h2, hmisplaced h3, hover h4⟩
    have hwhole (h : laidOut) (hcrc : crc = trailer) : Whole p :=
      ⟨hsize, hheader h, (Cal.crcFault_eq p.cal).trans (if_pos hcrc), h.2.1⟩
    have hfaultless (h : none_ faulty) : Faultless p := fun i hi k hk =>
      Option.eq_none_iff_forall_ne_some.2 fun r hr => h i hi ⟨k, r, hk, hr⟩
    refine ⟨fun h => hfails (headerFault_of_magic h), fun h1 h => hfails (headerFault_of_version h1 h),
      fun h1 h2 h => hfails (headerFault_of_total h1 h2 h), fun h1 h => hfails (headerFault_of_count h1.1 h1.2.1 h1.2.2 (h.imp_left Nat.lt_one_iff.2)),
      fun i hc h => hfails (r := .kind) (i := some i) ?kind, fun i hc h1 h => hfails (r := .duplicate) (i := some i) ?twice,
      fun i hc h1 h2 h => hfails (r := .placement) (i := some i) ?misplaced,
      fun i hc h1 h2 h3 h => hfails (r := .overlap) (i := some i) ?overlap, fun hl h => ?crc,
      fun i k r hl hcrc h hk hr => (hwhole hl hcrc).sectionCheck_of_first h.1 hk hr h.2.2, fun i hs h => ?locked,
      fun i hs hu hi hf => ?busy, fun hs hu h => ?commit⟩
    case kind =>
      rw [headerFault_of_counted (hcounted hc), firstBad_of_first (tellsTable_unknown p.cal.bundle) h.1 h.2.1 h.2.2]
      rfl
    case twice =>
      rw [headerFault_of_counted (hcounted hc), hunknown h1, firstBad_of_first (tellsTable_twice p.cal.bundle) h.1 h.2.1 h.2.2]
      rfl
    case misplaced =>
      rw [headerFault_of_counted (hcounted hc), hunknown h1, htwice h2,
        firstBad_of_first (tellsTable_misplaced p.cal.bundle (fieldAt p.cal.bundle 6 2) (fieldAt p.cal.bundle 8 4)) h.1 h.2.1 h.2.2]
      rfl
    case overlap =>
      rw [headerFault_of_counted (hcounted hc), hunknown h1, htwice h2, hmisplaced h3,
        firstBad_of_first (tellsTable_overlap p.cal.bundle) h.1 h.2.1 h.2.2]
      rfl
    case crc => exact Part.closeResult_of_crc hsize (hheader hl) ((Cal.crcFault_eq p.cal).trans (if_neg h))
    case locked =>
      obtain ⟨hi, ⟨hmode, k, hk, hhas⟩, hlow⟩ := h
      refine (hwhole hs.1 hs.2.1).closeResult_of_locked (hfaultless hs.2.2) hmode hi hk hhas fun j hj kj hkj => ?_
      exact Bool.eq_false_iff.2 fun hjhas => hlow j hj ⟨hmode, kj, hkj, hjhas⟩
    case busy =>
      have hbusy {data : List Word} (hwork : p.correctionWork = some data) : p.closeResult = .busy data := by
        rw [(hwhole hs.1 hs.2.1).closeResult_of_unlocked (hfaultless hs.2.2) hu, (hwhole hs.1 hs.2.1).busyCheck_of_factory hi hf hwork]
        rfl
      simp only [← ShotState.inCorrection_eq]
      exact ⟨fun x hx hfirst => hbusy (Part.correctionWork_of_shot hx hfirst),
        fun c hc hfirst => hbusy (Part.correctionWork_of_capture hc hfirst)⟩
    case commit =>
      have hw := hwhole hs.1 hs.2.1
      refine ⟨bundleSections p.cal.bundle, ?_, (bundleSections_of_known hw.known).1, fun i hi => hw.section_at hi⟩
      rw [hw.closeResult_of_unlocked (hfaultless hs.2.2) hu,
        hw.busyCheck_of_free (h.imp_right fun h => Part.correctionWork_of_rest h.1 h.2)]
      rfl
  case rules =>
    refine ⟨sectionFault_blackSat geo bytes, sectionFault_gainGrid geo bytes, sectionFault_darkTemp geo bytes, sectionFault_wb geo bytes,
      sectionFault_tone geo bytes, ?_, ?_⟩
    · cases geo with
      | none => exact sectionFault_defects_none bytes
      | some g => exact sectionFault_defects_some bytes g
    · cases geo with
      | none => exact sectionFault_columns_none bytes
      | some g => exact sectionFault_columns_some bytes g

end Sys2Proof.Machine
end

section
/-! PROOFS. LOAD_CHECKS_DONE: the tables replaced at one instant, or none (R50, R51, R54 to R56). -/

namespace Sys2Proof.Machine

/-! ## What a commit does to each table -/

/-- Two sets of tables agree on the table of a kind. -/
def Tables.agree (k : SectionKind) (a b : Tables) : Prop :=
  match k with
  | .blackSat => a.blackSat = b.blackSat
  | .gainGrid => a.gainGrid = b.gainGrid
  | .defects => a.defects = b.defects
  | .columns => a.columns = b.columns
  | .darkTemp => a.darkTemp = b.darkTemp
  | .tone => a.tone = b.tone
  | .wb => a.wb = b.wb

theorem Tables.agree_refl (k : SectionKind) (t : Tables) : t.agree k t := by cases k <;> rfl

theorem Tables.agree_trans {k : SectionKind} {a b c : Tables} (hab : a.agree k b) (hbc : b.agree k c) : a.agree k c := by
  cases k <;> exact Eq.trans hab hbc

theorem Tables.replace_agree_other {j k : SectionKind} (h : j ≠ k) (t : Tables) (bytes : List Byte) :
    (t.replace j bytes).agree k t := by
  cases j <;> cases k <;> simp [Tables.agree, Tables.replace] at h ⊢

theorem Tables.replace_agree_same (k : SectionKind) (t u : Tables) (bytes : List Byte) :
    (t.replace k bytes).agree k (u.replace k bytes) := by
  cases k <;> rfl

/-- The tables when the sections of a bundle have replaced theirs, in order. -/
def Tables.committed (ss : List BundleSection) (t : Tables) : Tables := ss.foldl (fun t s => t.replace s.kind s.bytes) t

theorem Tables.committed_agree_of_absent {ss : List BundleSection} {k : SectionKind} (h : ∀ x ∈ ss, x.kind ≠ k) (t : Tables) :
    (t.committed ss).agree k t := by
  induction ss generalizing t with
  | nil => exact t.agree_refl k
  | cons x ss ih =>
    exact Tables.agree_trans (ih (fun y hy => h y (List.mem_cons_of_mem x hy)) _)
      (Tables.replace_agree_other (h x List.mem_cons_self) t x.bytes)

/-- Of sections of distinct kinds the one of a kind gives its table. -/
theorem Tables.committed_agree_of_mem {ss : List BundleSection} {x : BundleSection} (hdistinct : (ss.map BundleSection.kind).Nodup)
    (hx : x ∈ ss) (t u : Tables) : (t.committed ss).agree x.kind (u.replace x.kind x.bytes) := by
  induction ss generalizing t with
  | nil => cases hx
  | cons y ss ih =>
    obtain ⟨hy, hrest⟩ := List.nodup_cons.1 hdistinct
    rcases List.mem_cons.1 hx with rfl | hmem
    · exact Tables.agree_trans (Tables.committed_agree_of_absent (fun z hz hkind => hy (List.mem_map.2 ⟨z, hz, hkind⟩)) _)
        (Tables.replace_agree_same _ _ _ _)
    · exact ih hrest hmem _

theorem foldl_commit_has (ss : List BundleSection) (k : SectionKind) (c : Committed) :
    (ss.foldl (fun c s => c.commit s.kind) c).has k = (c.has k || ss.any fun x => decide (x.kind = k) && k.factory) := by
  induction ss generalizing c with
  | nil => simp
  | cons x ss ih =>
    rw [List.foldl_cons, ih, List.any_cons, ← Bool.or_assoc]
    congr 1
    cases x.kind <;> cases k <;> simp [Committed.commit, Committed.has, SectionKind.factory]

/-! ## What a bundle that commits has passed -/

section Commit
variable {p : Part} {ss : List BundleSection}

/-- The first five checks of a bundle that commits found nothing, and the sections are the bundle's. -/
theorem Part.closeResult_commit (h : p.closeResult = .commit ss) : Whole p ∧ Faultless p ∧ ss = bundleSections p.cal.bundle := by
  have hsize : p.cal.sizeFault = none := by
    refine Classical.byContradiction fun hsome => ?_
    obtain ⟨r, hr⟩ := Option.ne_none_iff_exists'.1 hsome
    rw [Part.closeResult_of_size hr] at h
    unfold Cal.sizeFault at hr
    split at hr
    · cases hr
    · cases hr; cases h
  have hheader : headerFault p.cal.declared p.cal.bundle = none := by
    refine Classical.byContradiction fun hsome => ?_
    obtain ⟨⟨r, i⟩, hr⟩ := Option.ne_none_iff_exists'.1 hsome
    rw [Part.closeResult_of_format hsize hr] at h
    cases h
  have hcrc : p.cal.crcFault = none := by
    refine Classical.byContradiction fun hsome => ?_
    obtain ⟨r, hr⟩ := Option.ne_none_iff_exists'.1 hsome
    rw [Part.closeResult_of_crc hsize hheader hr] at h
    rw [Cal.crcFault_eq] at hr
    split at hr
    · cases hr
    · cases hr; cases h
  have hwhole : Whole p :=
    ⟨hsize, hheader, hcrc, (firstBad_eq_none_iff (tellsTable_unknown _)).1
      ((headerFault_eq_none_iff (counted_of_headerFault hheader)).1 hheader).1⟩
  have hfaults : sectionsFault p.pts.geometry (bundleSections p.cal.bundle) = none := by
    refine Classical.byContradiction fun hsome => ?_
    obtain ⟨r, hr⟩ := Option.ne_none_iff_exists'.1 hsome
    rw [Part.closeResult_of_whole hsize hheader hcrc, Part.sectionCheck, hr] at h
    cases h
  have hrules : Faultless p := by
    intro i hi k hk
    obtain ⟨k', hk', hget⟩ := hwhole.section_at hi
    obtain rfl : k = k' := Option.some.inj (hk.symm.trans hk')
    rw [sectionsFault_eq_findSome?, List.findSome?_eq_none_iff] at hfaults
    exact Option.map_eq_none_iff.1 (hfaults _ (List.mem_of_getElem? hget))
  refine ⟨hwhole, hrules, ?_⟩
  rw [hwhole.closeResult_of_faultless hrules] at h
  unfold Part.lockCheck Part.busyCheck at h
  split at h
  · split at h
    · cases hwork : p.correctionWork <;> rw [hwork] at h <;> cases h
      rfl
    · cases h; rfl
  · cases hlocked : (bundleSections p.cal.bundle).find? fun s => s.kind.factory && p.cal.committed.has s.kind with
    | some x => rw [hlocked] at h; cases h
    | none =>
      rw [hlocked] at h
      split at h
      · cases hwork : p.correctionWork <;> rw [hwork] at h <;> cases h
        rfl
      · cases h; rfl

/-- The sections of a bundle are at most 8, of distinct kinds. -/
theorem bundleSections_of_headerFault {declared : Nat} {bytes : List Byte} (h : headerFault declared bytes = none) :
    (bundleSections bytes).length ≤ 8 ∧ ((bundleSections bytes).map BundleSection.kind).Nodup := by
  have hcount := counted_of_headerFault h
  obtain ⟨hunknown, htwice, -⟩ := (headerFault_eq_none_iff hcount).1 h
  obtain ⟨hlen, hget⟩ := bundleSections_of_known ((firstBad_eq_none_iff (tellsTable_unknown bytes)).1 hunknown)
  refine ⟨hlen ▸ hcount.most, List.pairwise_iff_getElem.2 fun i j hi hj hij heq => ?_⟩
  rw [List.length_map, hlen] at hi hj
  obtain ⟨k, hk, hati⟩ := hget i hi
  obtain ⟨l, hl, hatj⟩ := hget j hj
  rw [List.getElem_map, List.getElem_map, (List.getElem?_eq_some_iff.1 hati).2, (List.getElem?_eq_some_iff.1 hatj).2] at heq
  obtain rfl : k = l := heq
  exact (firstBad_eq_none_iff (tellsTable_twice bytes)).1 htwice j hj
    ⟨i, hij, (code_of_sectionKindOf hk).symm.trans (code_of_sectionKindOf hl)⟩

/-- The length that a kind's content requires (R219). -/
def SectionKind.contentLength (count : Nat) : SectionKind → Nat
  | .blackSat => 32
  | .gainGrid => 6144
  | .defects => 4 + 4 * count
  | .columns => 4 + 2 * count
  | .darkTemp => 34
  | .tone => 4 + 1024 * count
  | .wb => 4 + 6 * count

theorem length_of_sectionFault {geo : Option Geometry} {k : SectionKind} {bytes : List Byte} (h : sectionFault geo k bytes = none) :
    bytes.length = k.contentLength (countOf bytes) := by
  refine Classical.byContradiction fun hlen => ?_
  cases k with
  | blackSat | gainGrid | darkTemp => exact absurd (h.symm.trans (if_pos hlen)) (by simp)
  | defects | columns | tone | wb =>
    unfold sectionFault at h
    rw [countFault_of_length hlen] at h
    cases h

end Commit

/-! ## LOAD_CHECKS_DONE -/

section Checked
variable {n : Fin 8} {c : Latched} {p : Part}

/-- An event and the end of a command after it: the command has ended, and only the CPA has changed. -/
theorem Part.ended_after_event (hcmd : p.cpa.slots[n].cmd = some c) (hopen : c.ended = false) (kind : EventKind) (shot : Word)
    (data : List Word) (cls : ResultClass) (code : ResultCode) {result : List Word} (hresult : result.length ≤ 24) :
    ((p.emit kind shot data).endCommand n cls code result).hasEnded n cls code result ∧
      ∃ cpa, (p.emit kind shot data).endCommand n cls code result = { p with cpa := cpa } := by
  refine ⟨Part.endCommand_hasEnded (c := c) ?_ hopen cls code hresult, ((p.emit kind shot data).endCommand n cls code result).cpa, ?_⟩
  · rw [Part.cmdIn, Part.emit_slots, hcmd]
  · rw [Part.endCommand_frame, Part.emit, Part.emitAt_frame]

theorem Part.loadChecksDone_of_closing (hsession : p.cal.session = .closing) (hcloser : p.cal.closer = some n) :
    (∀ code data event, p.closeResult = .failed code data event →
      p.loadChecksDone = (p.endSession.loadDone code event).fail n code data) ∧
    (∀ data, p.closeResult = .busy data →
      p.loadChecksDone =
        (Part.loadDone .busy []
          { p with cal := { p.cal with session := .open_, closer := none, timer := p.loadTimer } }).refuse n .busy data) ∧
    (∀ ss, p.closeResult = .commit ss → p.loadChecksDone = p.commitBundle n ss) := by
  unfold Part.loadChecksDone
  rw [hsession, hcloser]
  refine ⟨fun code data event h => ?_, fun data h => ?_, fun ss h => ?_⟩ <;> rw [h]

/-- The words of a close that fails or is refused fit in a result. -/
def CloseResult.short : CloseResult → Prop
  | .failed _ data _ => data.length ≤ 24
  | .busy data => data.length ≤ 24
  | .commit _ => True

theorem short_of_or {a b : Option CloseResult} (ha : ∀ r, a = some r → r.short) (hb : ∀ r, b = some r → r.short) (r : CloseResult)
    (h : a.or b = some r) : r.short := by
  cases a with
  | some x => exact ha r h
  | none => exact hb r h

theorem Part.closeResult_short (p : Part) : p.closeResult.short := by
  have hsize (r) (h : p.cal.sizeFault = some r) : r.short := by
    unfold Cal.sizeFault at h
    split at h
    · cases h
    · cases h; exact (by simp : 3 ≤ 24)
  have hformat (r) (h : p.cal.formatFault = some r) : r.short := by
    obtain ⟨⟨reason, i⟩, -, rfl⟩ := Option.map_eq_some_iff.1 h
    cases i <;> simp [CloseResult.short]
  have hcrc (r) (h : p.cal.crcFault = some r) : r.short := by
    rw [Cal.crcFault_eq] at h
    split at h
    · cases h
    · cases h; exact (by simp : 2 ≤ 24)
  have hsections (r) (h : p.sectionCheck (bundleSections p.cal.bundle) = some r) : r.short := by
    obtain ⟨⟨i, reason⟩, -, rfl⟩ := Option.map_eq_some_iff.1 h
    exact (by simp : 2 ≤ 24)
  have hlock (r) (h : p.lockCheck (bundleSections p.cal.bundle) = some r) : r.short := by
    unfold Part.lockCheck at h
    split at h
    · cases h
    · obtain ⟨x, -, rfl⟩ := Option.map_eq_some_iff.1 h
      exact (by simp : 2 ≤ 24)
  have hbusy (r) (h : p.busyCheck (bundleSections p.cal.bundle) = some r) : r.short := by
    unfold Part.busyCheck at h
    split at h
    · obtain ⟨data, hwork, rfl⟩ := Option.map_eq_some_iff.1 h
      unfold Part.correctionWork at hwork
      split at hwork
      · split at hwork <;> cases hwork <;> exact (by simp : 3 ≤ 24)
      · cases hwork; exact (by simp : 3 ≤ 24)
      · cases hwork; exact (by simp : 3 ≤ 24)
      · cases hwork
    · cases h
  have hall := short_of_or hsize (short_of_or hformat (short_of_or hcrc (short_of_or hsections (short_of_or hlock hbusy))))
  unfold Part.closeResult
  simp only
  generalize p.cal.sizeFault.or _ = found at hall ⊢
  cases found with
  | some r => exact hall r rfl
  | none => trivial

/-- The part when the sections of a bundle have committed (R55, R170). -/
def Part.tablesCommitted (ss : List BundleSection) (p : Part) : Part :=
  let q : Part :=
    { p with
      cal :=
        { p.cal with
          tables := p.cal.tables.committed ss, committed := ss.foldl (fun c s => c.commit s.kind) p.cal.committed
          session := .none, timer := none, closer := none } }
  if ss.any fun s => !s.kind.factory then q.toldTables else q

theorem Part.commitBundle_eq (n : Fin 8) (ss : List BundleSection) (p : Part) :
    p.commitBundle n ss =
      ((p.tablesCommitted ss).loadDone .ok []).done n
        (ss.map (fun s => natWord s.kind.code) ++ [(p.tablesCommitted ss).cal.committed.word]) := by
  unfold Part.commitBundle Part.tablesCommitted
  split <;> rfl

theorem Part.tablesCommitted_cal (ss : List BundleSection) (p : Part) :
    (p.tablesCommitted ss).cal =
      { p.cal with
        tables := p.cal.tables.committed ss, committed := ss.foldl (fun c s => c.commit s.kind) p.cal.committed
        session := .none, timer := none, closer := none } := by
  unfold Part.tablesCommitted
  split <;> rfl

theorem Part.tablesCommitted_frame (ss : List BundleSection) (p : Part) :
    { p.tablesCommitted ss with cpa := p.cpa, cal := p.cal, prn := p.prn } = p := by
  unfold Part.tablesCommitted
  split <;> rfl

theorem Part.tablesCommitted_cpa (ss : List BundleSection) (p : Part) : (p.tablesCommitted ss).cpa = p.cpa := by
  unfold Part.tablesCommitted
  split <;> rfl

theorem Part.tablesCommitted_prn_of_factory {ss : List BundleSection} (h : ∀ x ∈ ss, x.kind ≠ .tone ∧ x.kind ≠ .wb) (p : Part) :
    (p.tablesCommitted ss).prn = p.prn := by
  have hany : ¬(ss.any fun s => !s.kind.factory) = true := by
    rw [List.any_eq_true]
    rintro ⟨x, hx, huser⟩
    obtain ⟨htone, hwb⟩ := h x hx
    cases hk : x.kind <;> simp [hk, SectionKind.factory] at huser htone hwb
  unfold Part.tablesCommitted
  rw [if_neg hany]

theorem Part.tablesCommitted_prn_of_user {ss : List BundleSection} (h : ∃ x ∈ ss, x.kind = .tone ∨ x.kind = .wb) (p : Part) :
    (p.tablesCommitted ss).prn.cache = none := by
  have hany : (ss.any fun s => !s.kind.factory) = true := by
    obtain ⟨x, hx, hkind⟩ := h
    exact List.any_eq_true.2 ⟨x, hx, by rcases hkind with hk | hk <;> rw [hk] <;> rfl⟩
  unfold Part.tablesCommitted
  rw [if_pos hany]
  rfl

end Checked

/-- Settles O29: the result of the close decides; a commit's folds give each table the section of its kind, the kinds being
distinct. -/
theorem loadChecksCommitOrLeaveTheTables : Obligations.LoadChecksCommitOrLeaveTheTables := by
  intro n s c hsession hcloser hcmd hopen
  obtain ⟨hfailed, hbusy, hcommit⟩ := Part.loadChecksDone_of_closing hsession hcloser
  have hshort := s.part.closeResult_short
  refine ⟨{ s with part := s.part.loadChecksDone }, rfl, rfl, rfl, ?_⟩
  cases hresult : s.part.closeResult with
  | failed code data event =>
    rw [hresult] at hshort
    obtain ⟨hended, cpa, heq⟩ := Part.ended_after_event (p := s.part.endSession) hcmd hopen .loadDone 0
      (natWord code.code :: event) .failed code hshort
    have hpart : s.part.loadChecksDone = { s.part.endSession with cpa := cpa } := (hfailed code data event hresult).trans heq
    have hend : s.part.loadChecksDone.hasEnded n .failed code data := by rw [hfailed code data event hresult]; exact hended
    simp only [hpart] at hend ⊢
    refine ⟨rfl, rfl, fun hsize => ?_, fun code' data' event' h => ?_, ?_, ?_⟩
    · have hfault : s.part.cal.sizeFault = some (.failed .bundleSize
          [natWord s.part.cal.pointer, natWord s.part.cal.declared, flagWord s.part.cal.overrun] []) :=
        if_neg (by simpa [Decidable.imp_iff_not_or] using hsize)
      cases hresult.symm.trans (Part.closeResult_of_size hfault)
      exact hend
    · cases h
      exact ⟨rfl, rfl, hend⟩
    · rintro _ ⟨⟩
    · rintro _ ⟨⟩
  | busy data =>
    rw [hresult] at hshort
    obtain ⟨hended, cpa, heq⟩ := Part.ended_after_event (n := n) (c := c)
      (p := { s.part with cal := { s.part.cal with session := .open_, closer := none, timer := s.part.loadTimer } }) hcmd hopen .loadDone 0
      [natWord ResultCode.busy.code] .refused .busy hshort
    have hpart := (hbusy data hresult).trans heq
    have hend : s.part.loadChecksDone.hasEnded n .refused .busy data := by rw [hbusy data hresult]; exact hended
    simp only [hpart] at hend ⊢
    refine ⟨trivial, trivial, fun hsize => ?_, ?_, fun data' h => ?_, ?_⟩
    · have hfault : s.part.cal.sizeFault = some (.failed .bundleSize
          [natWord s.part.cal.pointer, natWord s.part.cal.declared, flagWord s.part.cal.overrun] []) :=
        if_neg (by simpa [Decidable.imp_iff_not_or] using hsize)
      cases hresult.symm.trans (Part.closeResult_of_size hfault)
    · rintro _ _ _ ⟨⟩
    · cases h
      exact ⟨rfl, hend⟩
    · rintro _ ⟨⟩
  | commit ss =>
    obtain ⟨hwhole, hrules, hsections⟩ := Part.closeResult_commit hresult
    obtain ⟨hlen, hdistinct⟩ := bundleSections_of_headerFault hwhole.header
    rw [← hsections] at hlen hdistinct
    obtain ⟨hended, cpa, heq⟩ := Part.ended_after_event (n := n) (c := c) (p := s.part.tablesCommitted ss)
      (by rw [Part.tablesCommitted_cpa]; exact hcmd) hopen .loadDone 0 [natWord ResultCode.ok.code] .done .ok
      (result := ss.map (fun s => natWord s.kind.code) ++ [(s.part.tablesCommitted ss).cal.committed.word])
      (by rw [List.length_append, List.length_map, List.length_singleton]; omega)
    have hcommitted := (hcommit ss hresult).trans (Part.commitBundle_eq n ss s.part)
    have hpart := hcommitted.trans heq
    have hend : s.part.loadChecksDone.hasEnded n .done .ok
        (ss.map (fun s => natWord s.kind.code) ++ [(s.part.tablesCommitted ss).cal.committed.word]) := by
      rw [hcommitted]; exact hended
    have hcal := s.part.tablesCommitted_cal ss
    have hprn := Part.tablesCommitted_prn_of_factory (ss := ss)
    have habsent {k : SectionKind} (h : ∀ x ∈ ss, x.kind ≠ k) := Tables.committed_agree_of_absent h s.part.cal.tables
    simp only [hpart] at hend ⊢
    refine ⟨s.part.tablesCommitted_frame ss, by rw [hcal], fun hsize => ?_, ?_, ?_, fun ss' h => ?_⟩
    · have hfault : s.part.cal.sizeFault = some (.failed .bundleSize
          [natWord s.part.cal.pointer, natWord s.part.cal.declared, flagWord s.part.cal.overrun] []) :=
        if_neg (by simpa [Decidable.imp_iff_not_or] using hsize)
      cases hresult.symm.trans (Part.closeResult_of_size hfault)
    · rintro _ _ _ ⟨⟩
    · rintro _ ⟨⟩
    · cases h
      simp only [hcal] at hend ⊢
      refine ⟨trivial, fun x hx => ?_, fun k hk => ?_, fun x hx hfactory => ?_, habsent, habsent, habsent, habsent, habsent, habsent,
        habsent, fun h => Part.tablesCommitted_prn_of_factory h s.part, fun h => Part.tablesCommitted_prn_of_user h s.part, hend⟩
      · obtain ⟨i, hi, hk, hxi, -⟩ := hwhole.exists_of_mem (hsections ▸ hx)
        have hrule := hrules i hi x.kind hk
        have hagree := Tables.committed_agree_of_mem hdistinct hx s.part.cal.tables s.part.cal.tables
        obtain ⟨index, kind, bytes⟩ := x
        obtain rfl : bytes = entryContent s.part.cal.bundle i := congrArg BundleSection.bytes hxi
        have hlength := length_of_sectionFault hrule

        cases kind with
        | blackSat => exact hagree.trans (congrArg some (blackSat_pairs hlength))
        | gainGrid => exact hagree.trans (congrArg some (bytesHalves_of_length (n := 3072) hlength))
        | defects => exact hagree.trans (defects_pairs hlength)
        | columns => exact hagree.trans (valuesOf_of_length hlength)
        | darkTemp => exact hagree.trans (congrArg some (bytesHalves_of_length (n := 17) hlength))
        | tone =>
          have hcurves := tone_curves (n := countOf (entryContent s.part.cal.bundle i)) hlength
          simp only [List.getD_eq_getElem?_getD, Nat.add_assoc] at hcurves
          exact hagree.trans hcurves
        | wb => exact hagree.trans ((congrArg triplesOf (wb_values hlength)).trans (triplesOf_map _ _))
      · rw [foldl_commit_has, List.any_eq_false.2 fun x hx => by simp [hk x hx], Bool.or_false]
      · rw [foldl_commit_has, List.any_eq_true.2 ⟨x, hx, by simp [hfactory]⟩, Bool.or_true]



end Sys2Proof.Machine
end

section
/-! PROOFS. RESET_SHOTS (R38, R39, R57, R76, R108, R127, R150, R166, R180, R205). -/

namespace Sys2Proof.Machine

/-! ## The blocks that stop at once -/

theorem Part.abortArms_cpa (arms : List (Fin 8 × List Word)) (p : Part) :
    ∃ cpa, p.abortArms arms = { p with cpa := cpa } ∧ cpa.resetting = p.cpa.resetting := by
  induction arms generalizing p with
  | nil => exact ⟨p.cpa, rfl, rfl⟩
  | cons a arms ih =>
    obtain ⟨cpa, heq, hres⟩ := ih (p.fail a.1 .aborted [])
    refine ⟨cpa, heq.trans ?_, hres.trans (Part.fail_resetting _ _ _ _)⟩
    rw [Part.fail, Part.endCommand_frame]

theorem Part.abortAfter_cpa (a : After) (p : Part) : ∃ cpa, p.abortAfter a = { p with cpa := cpa } ∧ cpa.resetting = p.cpa.resetting := by
  cases a with
  | nothing => exact ⟨p.cpa, rfl, rfl⟩
  | arm n | skip n | release n =>
    exact ⟨_, Part.endCommand_frame n .failed .aborted [] p, rfl⟩

theorem Part.statusDirty_cpa (p : Part) : ∃ cpa, p.statusDirty = { p with cpa := cpa } ∧ cpa.resetting = p.cpa.resetting :=
  ⟨_, p.statusDirty_frame, rfl⟩

/-- The commands that wait for the end of a capture are cut short (R39). -/
def Part.cutShort (p : Part) : Part := (p.dfl.ending.map fun e => (p.abortAfter e.after).abortArms e.arms).getD p

theorem Part.cutShort_cpa (p : Part) : ∃ cpa, p.cutShort = { p with cpa := cpa } ∧ cpa.resetting = p.cpa.resetting := by
  unfold Part.cutShort
  cases p.dfl.ending with
  | none => exact ⟨p.cpa, rfl, rfl⟩
  | some e =>
    obtain ⟨cpa, hafter, hres⟩ := p.abortAfter_cpa e.after
    obtain ⟨cpa', harms, hres'⟩ := Part.abortArms_cpa e.arms (p.abortAfter e.after)
    rw [hafter] at harms hres'
    rw [Option.map_some, Option.getD_some, hafter]
    exact ⟨cpa', harms, hres'.trans hres⟩

theorem Part.stopDfl_cutShort (p : Part) :
    p.stopDfl =
      if p.dfl.entries = [] then
        { p.cutShort with dfl := { p.cutShort.dfl with entries := [], transients := [], capture := none, ending := none } }
      else
        Part.statusDirty
          { p.cutShort with dfl := { p.cutShort.dfl with entries := [], transients := [], capture := none, ending := none } } := by
  unfold Part.stopDfl Part.cutShort
  cases p.dfl.ending <;> rfl

/-- The DFL stopped keeps its policy only (R127). -/
theorem Part.stopDfl_eq (p : Part) :
    ∃ cpa, p.stopDfl = { p with cpa := cpa, dfl := ⟨p.dfl.policy, [], [], none, none⟩ } ∧ cpa.resetting = p.cpa.resetting := by
  obtain ⟨cpa, hcut, hres⟩ := p.cutShort_cpa
  rw [Part.stopDfl_cutShort, hcut]
  split
  · exact ⟨cpa, rfl, hres⟩
  · obtain ⟨cpa', hdirty, hres'⟩ := Part.statusDirty_cpa { p with cpa := cpa, dfl := ⟨p.dfl.policy, [], [], none, none⟩ }
    exact ⟨cpa', hdirty, hres'.trans hres⟩

/-- The CAL stopped has no session (R57). -/
theorem Part.stopCal_eq {p : Part} (h : p.cal.session = .closing → p.cal.closer.isSome = true) :
    ∃ cpa, p.stopCal = { p with cpa := cpa, cal := { p.cal with session := .none, timer := none, closer := none } } ∧
      cpa.resetting = p.cpa.resetting := by
  unfold Part.stopCal
  split
  · rename_i hclosing
    obtain ⟨n, hn⟩ := Option.isSome_iff_exists.1 (h hclosing)
    unfold Part.abortClose
    rw [hn]
    exact ⟨_, Part.endCommand_frame n .failed .aborted [] p.endSession, rfl⟩
  · exact ⟨p.cpa, rfl, rfl⟩

/-! ## The blocks that stop when their work has ended -/

def Part.icrStage (p : Part) : Part := if p.icr.work.isNone then p.icrStopped else p

def Part.dpeStage (p : Part) : Part := if p.dpeInFlight then p else p.dpeStopped

def Part.prnStage (p : Part) : Part := if p.prn.work.isNone then p.prnStopped else p

theorem Part.stopBlocks_stages (p : Part) : p.stopBlocks = p.stopEsu.stopDfl.stopCal.icrStage.dpeStage.prnStage.checkCdeStop := rfl

section Stages
variable {r : ResetWork} {p : Part} (hr : p.cpa.resetting = some r)
include hr

theorem Part.icrStage_eq :
    ∃ b icr, p.icrStage =
        { p with cpa := { p.cpa with resetting := some { r with icr := b } }, icr := icr } ∧
      (p.icr.work = none → b = true ∧ icr = { p.icr with target := none, deadline := none, strayReported := false }) := by
  unfold Part.icrStage
  split
  · refine ⟨true, _, ?_, fun _ => ⟨rfl, rfl⟩⟩
    simp only [Part.icrStopped, Part.clearTarget, hr, Option.map_some]
  · rename_i hwork
    exact ⟨r.icr, p.icr, by rw [← hr], fun h => absurd (by rw [h]; rfl) hwork⟩

theorem Part.dpeStage_eq :
    ∃ b dpe, p.dpeStage =
        { p with cpa := { p.cpa with resetting := some { r with dpe := b } }, dpe := dpe } ∧
      (p.port.busy = none → b = true ∧ dpe = ⟨[], none⟩) := by
  unfold Part.dpeStage
  split
  · rename_i hbusy
    exact ⟨r.dpe, p.dpe, by rw [← hr], fun h => by rw [Part.dpeInFlight, h] at hbusy; cases hbusy⟩
  · refine ⟨true, _, ?_, fun _ => ⟨rfl, rfl⟩⟩
    simp only [Part.dpeStopped, hr, Option.map_some]

theorem Part.prnStage_eq :
    ∃ b prn, p.prnStage =
        { p with cpa := { p.cpa with resetting := some { r with prn := b } }, prn := prn } ∧
      (p.prn.work = none → b = true ∧ prn = ⟨none, none, none⟩) := by
  unfold Part.prnStage
  split
  · refine ⟨true, _, ?_, fun _ => ⟨rfl, rfl⟩⟩
    simp only [Part.prnStopped, hr, Option.map_some]
  · rename_i hwork
    exact ⟨r.prn, p.prn, by rw [← hr], fun h => absurd (by rw [h]; rfl) hwork⟩

theorem Part.cdeStage_eq :
    ∃ b count cpa cde, p.checkCdeStop = { p with cpa := cpa, cde := cde } ∧
      cpa.resetting = some { r with cde := b, requests := count } ∧
      (r.cde = false → p.cde.run = none → p.cde.listReads = [] → p.cde.bufWrites = [] →
        b = true ∧ count = p.cde.requests.length ∧ cde = { p.cde with requests := [] }) := by
  unfold Part.checkCdeStop
  split
  · obtain ⟨cpa, hdirty, hres⟩ := Part.statusDirty_cpa
      { p with
        cde := { p.cde with requests := [] }
        cpa := { p.cpa with resetting := p.cpa.resetting.map fun r => { r with cde := true, requests := p.cde.requests.length } } }
    exact ⟨true, _, cpa, _, hdirty, hres.trans (by rw [hr]; rfl), fun _ _ _ _ => ⟨rfl, rfl, rfl⟩⟩
  · rename_i hstop
    refine ⟨r.cde, r.requests, p.cpa, p.cde, rfl, hr, fun hcde hrun hlists hbufs => absurd ?_ hstop⟩
    simp [Part.cdeStopping, hr, hcde, hrun, hlists, hbufs]

/-- What RESET_SHOTS stops at once, and what each other block reports with nothing under way. -/
theorem Part.stopBlocks_eq (hload : p.cal.session = .closing → p.cal.closer.isSome = true) :
    ∃ b₁ b₂ b₃ b₄ count cpa icr dpe prn cde,
      p.stopBlocks =
        { p with
          cpa := cpa, cal := { p.cal with session := .none, timer := none, closer := none }, esu := p.stopEsu.esu
          dfl := ⟨p.dfl.policy, [], [], none, none⟩, icr := icr, dpe := dpe, prn := prn, cde := cde } ∧
      cpa.resetting = some { r with icr := b₁, dpe := b₂, prn := b₃, cde := b₄, requests := count } ∧
      (p.icr.work = none → b₁ = true ∧ icr = { p.icr with target := none, deadline := none, strayReported := false }) ∧
      (p.port.busy = none → b₂ = true ∧ dpe = ⟨[], none⟩) ∧ (p.prn.work = none → b₃ = true ∧ prn = ⟨none, none, none⟩) ∧
      (r.cde = false → p.cde.run = none → p.cde.listReads = [] → p.cde.bufWrites = [] →
        b₄ = true ∧ count = p.cde.requests.length ∧ cde = { p.cde with requests := [] }) := by
  obtain ⟨cpa, hdfl, hres⟩ := p.stopEsu.stopDfl_eq
  obtain ⟨cpa', hcal, hres'⟩ := Part.stopCal_eq (p := p.stopEsu.stopDfl) (by rw [hdfl]; exact hload)
  rw [hdfl] at hcal hres'
  obtain ⟨b₁, icr, hicr, hicrEnd⟩ := Part.icrStage_eq (p := p.stopEsu.stopDfl.stopCal) (by rw [hdfl, hcal, hres', hres]; exact hr)
  rw [hdfl, hcal] at hicr hicrEnd
  obtain ⟨b₂, dpe, hdpe, hdpeEnd⟩ := Part.dpeStage_eq (p := p.stopEsu.stopDfl.stopCal.icrStage) (by rw [hdfl, hcal, hicr])
  rw [hdfl, hcal, hicr] at hdpe hdpeEnd
  obtain ⟨b₃, prn, hprn, hprnEnd⟩ := Part.prnStage_eq (p := p.stopEsu.stopDfl.stopCal.icrStage.dpeStage)
    (by rw [hdfl, hcal, hicr, hdpe])
  rw [hdfl, hcal, hicr, hdpe] at hprn hprnEnd
  obtain ⟨b₄, count, cpa'', cde, hcde, hres'', hcdeEnd⟩ := Part.cdeStage_eq
    (p := p.stopEsu.stopDfl.stopCal.icrStage.dpeStage.prnStage) (by rw [hdfl, hcal, hicr, hdpe, hprn])
  rw [hdfl, hcal, hicr, hdpe, hprn] at hcde hcdeEnd
  refine ⟨b₁, b₂, b₃, b₄, count, cpa'', icr, dpe, prn, cde, ?_, hres'', hicrEnd, hdpeEnd, hprnEnd, hcdeEnd⟩
  rw [Part.stopBlocks_stages, hdfl, hcal, hicr, hdpe, hprn, hcde]
  rfl

end Stages

theorem Sht.freeCount_eq_iff (t : Sht) : t.freeCount = t.slots.length ↔ ∀ h ∈ t.slots, h = .free := by
  rw [Sht.freeCount, List.countP_eq_length]
  simp

theorem Sht.cleared_eq (t : Sht) :
    t.cleared = { t with records := [], slots := List.replicate t.slots.length .free, protectedCount := 0 } := by
  rw [Sht.cleared, List.map_const']

/-- Settles O30: each block's stop is said by its own lemma, and the whole is their composition. -/
theorem resetShotsStopsClearsAndReports : Obligations.ResetShotsStopsClearsAndReports := by
  refine ⟨fun w s h hload => ?stop, fun r s hr hsht hicr hdpe hprn hcde => ?clear, fun r s hr hsht => ?report⟩
  case stop =>
    have hexec : exec (.resetShots w) s = .next { s with part := cmdResetShots w.slot (s.part.words w) (s.part.taken .resetShots w) } :=
      exec_row_of_takes_other (v := .resetShots) (by decide) rfl h
    obtain ⟨b₁, b₂, b₃, b₄, count, cpa, icr, dpe, prn, cde, heq, hres, hicr, hdpe, hprn, hcde⟩ := Part.stopBlocks_eq
      (p := { s.part.taken .resetShots w with
        cpa := { (s.part.taken .resetShots w).cpa with resetting := some ⟨w.slot, false, false, false, false, false, 0, 0⟩ } })
      rfl hload.2
    have hpart : cmdResetShots w.slot (s.part.words w) (s.part.taken .resetShots w) = _ := heq
    rw [hexec, hpart]
    exact ⟨_, _, rfl, rfl, rfl, hres, rfl, rfl, rfl, rfl, rfl, rfl, hicr, hdpe, hprn, hcde rfl⟩
  case clear =>
    have hrow : exec .shtResetClear s = .next { s with part := s.part.shtResetClear } := rfl
    rw [hrow]
    simp only [Part.shtResetClear, hr, hsht, hicr, hdpe, hprn, hcde, Bool.and_true, Bool.not_false, if_true, Sht.freeCount_eq_iff,
      Sht.cleared_eq]
    exact ⟨fun hkept => State.next_part_congr (if_pos hkept), fun hkept => State.next_part_congr (if_neg hkept)⟩
  case report =>
    have hrow : exec .resetShotsDone s = .next { s with part := s.part.resetShotsDone } := rfl
    rw [hrow]
    simp only [Part.resetShotsDone, hr, hsht, if_true]
    rfl

end Sys2Proof.Machine
end

section
/-! PROOFS. The CPA's shared operations as changes of the CPA's state, shot records in the list, the removal of a record, and the ends of a capture: the layer that the proofs about shots build on. -/

namespace Sys2Proof.Machine

/-! ## What a block hands the CPA changes the CPA only (R22, R29, R34) -/

/-- The CPA with a status item changed. -/
def Cpa.dirtied (phase : Phase) (c : Cpa) : Cpa :=
  if phase = .resetWrites ∨ phase = .running then
    if c.writes.any CpaWrite.isStatus then c else { c with writes := c.writes ++ [.status []] }
  else c

/-- The CPA with an event handed over. -/
def Cpa.handed (phase : Phase) (e : Event) (c : Cpa) : Cpa :=
  if c.mask.getLsbD (e.kind.code - 1) then
    if c.unconsumed = Config.ringRecords then
      if c.dropped then c else Cpa.dirtied phase { c with dropped := true }
    else if c.eventBusy then { c with producer := c.producer + 1, events := c.events ++ [(c.producer, e)] }
    else { c with producer := c.producer + 1, eventBusy := true, writes := c.writes ++ [.eventRecord c.producer e] }
  else c

/-- The slot in which a host write has put a command. -/
def Cpa.holding (v : Verb) (w : SlotWrite) (ended : Bool) (c : Cpa) : Slot :=
  ⟨w.tag, overlay c.slots[w.slot].args 0 w.args, some ⟨some v, w.tag, overlay c.slots[w.slot].args 0 w.args, ended, false⟩⟩

/-- The CPA with the command of a host write in its slot. -/
def Cpa.latched (v : Verb) (w : SlotWrite) (c : Cpa) : Cpa := { c with slots := c.slots.set w.slot (c.holding v w false) }

/-- The CPA with the end of that command taken. -/
def Cpa.answered (v : Verb) (w : SlotWrite) (cls : ResultClass) (code : ResultCode) (data : List Word) (c : Cpa) : Cpa :=
  { c with
    slots := c.slots.set w.slot (c.holding v w true), writes := c.writes ++ [.resultData w.slot (padTo 24 0 data) cls code] }

theorem Part.statusDirty_eq (p : Part) : p.statusDirty = { p with cpa := p.cpa.dirtied p.phase } := by
  unfold Part.statusDirty Cpa.dirtied
  split
  · split <;> rfl
  · rfl

theorem Part.emitAt_eq (time : Word) (kind : EventKind) (shot : Word) (data : List Word) (p : Part) :
    p.emitAt time kind shot data = { p with cpa := p.cpa.handed p.phase ⟨kind, shot, time, data⟩ } := by
  unfold Part.emitAt Part.emitEvent Cpa.handed
  split
  · split
    · split
      · rfl
      · exact Part.statusDirty_eq _
    · unfold Part.acceptEvent
      split <;> rfl
  · rfl

theorem Part.emit_eq (kind : EventKind) (shot : Word) (data : List Word) (p : Part) :
    p.emit kind shot data = { p with cpa := p.cpa.handed p.phase ⟨kind, shot, p.clock.time, data⟩ } :=
  Part.emitAt_eq p.now kind shot data p

theorem Part.taken_eq (v : Verb) (w : SlotWrite) (p : Part) : p.taken v w = { p with cpa := p.cpa.latched v w } := rfl

theorem Part.answered_eq (v : Verb) (w : SlotWrite) (cls : ResultClass) (code : ResultCode) (data : List Word) (p : Part) :
    p.answered v w cls code data = { p with cpa := p.cpa.answered v w cls code data } := rfl

@[simp] theorem Cpa.dirtied_slots (phase : Phase) (c : Cpa) : (c.dirtied phase).slots = c.slots := by
  unfold Cpa.dirtied
  split
  · split <;> rfl
  · rfl

@[simp] theorem Cpa.handed_slots (phase : Phase) (e : Event) (c : Cpa) : (c.handed phase e).slots = c.slots := by
  unfold Cpa.handed
  split
  · split
    · split
      · rfl
      · exact Cpa.dirtied_slots _ _
    · split <;> rfl
  · rfl

@[simp] theorem Cpa.dirtied_resetting (phase : Phase) (c : Cpa) : (c.dirtied phase).resetting = c.resetting := by
  unfold Cpa.dirtied
  split
  · split <;> rfl
  · rfl

@[simp] theorem Cpa.handed_resetting (phase : Phase) (e : Event) (c : Cpa) : (c.handed phase e).resetting = c.resetting := by
  unfold Cpa.handed
  split
  · split
    · split
      · rfl
      · exact Cpa.dirtied_resetting _ _
    · split <;> rfl
  · rfl

theorem Cpa.latched_dirtied (v : Verb) (w : SlotWrite) (phase : Phase) (c : Cpa) :
    (c.latched v w).dirtied phase = (c.dirtied phase).latched v w := by
  unfold Cpa.dirtied
  split
  · show (if c.writes.any CpaWrite.isStatus then _ else _) = _
    split <;> rfl
  · rfl

theorem Cpa.latched_handed (v : Verb) (w : SlotWrite) (phase : Phase) (e : Event) (c : Cpa) :
    (c.latched v w).handed phase e = (c.handed phase e).latched v w := by
  unfold Cpa.handed
  show (if c.mask.getLsbD (e.kind.code - 1) then
      if c.unconsumed = Config.ringRecords then
        if c.dropped then _ else Cpa.dirtied phase (Cpa.latched v w { c with dropped := true })
      else if c.eventBusy then _ else _
    else _) = _
  split
  · split
    · split
      · rfl
      · exact Cpa.latched_dirtied v w phase _
    · split <;> rfl
  · rfl

theorem Cpa.dirtied_dirtied (phase : Phase) (c : Cpa) : (c.dirtied phase).dirtied phase = c.dirtied phase := by
  unfold Cpa.dirtied
  split
  · by_cases h : c.writes.any CpaWrite.isStatus = true
    · simp [h]
    · simp [h, CpaWrite.isStatus]
  · rfl

/-- The command of a host write ends: its slot holds it ended, and its result data waits. -/
theorem Part.latched_endCommand (v : Verb) (w : SlotWrite) (cls : ResultClass) (code : ResultCode) {data : List Word} (c : Cpa)
    (p : Part) (hd : data.length ≤ 24) :
    Part.endCommand w.slot cls code data { p with cpa := c.latched v w } = { p with cpa := c.answered v w cls code data } :=
  Part.taken_endCommand v w cls code data { p with cpa := c } hd

theorem Part.latched_done (v : Verb) (w : SlotWrite) {data : List Word} (c : Cpa) (p : Part) (hd : data.length ≤ 24) :
    Part.done w.slot data { p with cpa := c.latched v w } = { p with cpa := c.answered v w .done .ok data } :=
  Part.latched_endCommand v w .done .ok c p hd

/-- A command whose end is not taken ends. -/
theorem Part.hasEnded_of_open {n : Fin 8} {l : Latched} {p : Part} (hcmd : p.cpa.slots[n].cmd = some l) (hopen : l.ended = false)
    (cls : ResultClass) (code : ResultCode) {data : List Word} (hd : data.length ≤ 24) :
    (p.endCommand n cls code data).hasEnded n cls code data :=
  Part.endCommand_hasEnded (c := l) hcmd hopen cls code hd

theorem Part.answered_hasEnded (v : Verb) (w : SlotWrite) (cls : ResultClass) (code : ResultCode) (data : List Word) (p : Part) :
    (p.answered v w cls code data).hasEnded w.slot cls code data := by
  refine ⟨List.mem_append_right _ (List.mem_singleton.2 rfl), ?_⟩
  simp [Part.answered, Part.holding]

/-! ## Records in the list -/

theorem find?_map_number {l : List Shot} {f : Shot → Shot} (n m : Word) (hf : ∀ t, (f t).number = t.number) :
    (l.map fun t => if t.number = n then f t else t).find? (fun t => decide (t.number = m)) =
      if m = n then (l.find? fun t => decide (t.number = n)).map f else l.find? fun t => decide (t.number = m) := by
  induction l with
  | nil => split <;> rfl
  | cons t l ih =>
    rw [List.map_cons, List.find?_cons, List.find?_cons, List.find?_cons, ih]
    by_cases hn : t.number = n
    · by_cases hm : m = n
      · simp [hn, hm, hf]
      · have : t.number ≠ m := fun h => hm (h.symm.trans hn)
        simp [hn, hm, hf, Ne.symm hm]
    · by_cases hm : m = n
      · simp [hn, hm]
      · by_cases ht : t.number = m
        · simp [ht, hm]
        · simp [hn, hm, ht]

theorem Part.shot?_modShot {f : Shot → Shot} (hf : ∀ t, (f t).number = t.number) (n m : Word) (p : Part) :
    (p.modShot n f).shot? m = if m = n then (p.shot? n).map f else p.shot? m :=
  find?_map_number n m hf

theorem Part.number_of_shot? {n : Word} {x : Shot} {p : Part} (h : p.shot? n = some x) : x.number = n := by
  simpa using List.find?_some h

/-! ## Removal (R67) -/

/-- The view of a shot that leaves: its selection and cache go with it (R170). -/
theorem Part.clearViewOf_of_selected {n : Word} {v : Selection} {p : Part} (h : p.prn.selection = some v) (hv : v.shot = n) :
    p.clearViewOf n = p.clearView := by
  unfold Part.clearViewOf
  rw [h]
  exact if_pos hv

theorem Part.clearViewOf_of_other {n : Word} {p : Part} (h : ∀ v, p.prn.selection = some v → v.shot ≠ n) : p.clearViewOf n = p := by
  unfold Part.clearViewOf
  cases hs : p.prn.selection with
  | none => rfl
  | some v => exact if_neg (h v hs)

theorem Part.clearViewOf_frame (n : Word) (p : Part) : p.clearViewOf n = { p with prn := (p.clearViewOf n).prn } := by
  unfold Part.clearViewOf
  cases p.prn.selection with
  | none => rfl
  | some v =>
    show (if v.shot = n then p.clearView else p) = { p with prn := (if v.shot = n then p.clearView else p).prn }
    split <;> rfl

/-- The view with its selection and its cache gone. -/
def Prn.cleared (x : Prn) : Prn := { x with selection := none, cache := none, work := x.work.map fun w => { w with stale := true } }

/-- What the view becomes depends on the view only. -/
theorem Part.clearViewOf_prn (n : Word) {p q : Part} (h : q.prn = p.prn) : (q.clearViewOf n).prn = (p.clearViewOf n).prn := by
  unfold Part.clearViewOf
  rw [h]
  cases p.prn.selection with
  | none => exact h
  | some v =>
    show (if v.shot = n then q.clearView else q).prn = (if v.shot = n then p.clearView else p).prn
    split
    · exact congrArg Prn.cleared h
    · exact h

theorem Part.cancelFor_of_none {n : Word} {p : Part} (h : p.requestFor n = none) : p.cancelFor n = p := by
  unfold Part.cancelFor
  rw [h]

theorem Part.requestFor_eq_none_iff (n : Word) (p : Part) : p.requestFor n = none ↔ ∀ r ∈ p.cde.requests, r.names n = false := by
  rw [Part.requestFor, List.find?_eq_none]
  simp

/-- The sources whose dark has no reference of the shot: none, a skipped one, and a capture that has not completed. -/
def DarkSource.unreferenced : Option DarkSource → Bool
  | some (.library _ _) => false
  | some (.capture (.entry _) (some _)) => false
  | some (.capture .transient (some _)) => false
  | _ => true

theorem Part.lowerDark_of_unreferenced {n : Word} {d : Option DarkSource} (h : DarkSource.unreferenced d = true) (p : Part) :
    p.lowerDark n d = p := by
  unfold Part.lowerDark
  split
  · cases h
  · cases h
  · cases h
  · rfl

/-- The shot table without a record. -/
def Sht.without (n : Word) (x : Shot) (t : Sht) : Sht :=
  { t with
    records := t.records.filter fun y => decide (y.number ≠ n)
    protectedCount := t.protectedCount - (if x.prot then 1 else 0) }

/-- A shot whose record names no dark, or is developed, leaves: the view of it goes, and its slot becomes FREE (R67). -/
theorem Part.removeShot_eq {n : Word} {x : Shot} {p : Part} (hx : p.shot? n = some x)
    (hdark : x.state.undeveloped = false ∨ DarkSource.unreferenced x.progress.dark = true) (hreq : p.requestFor n = none) :
    p.removeShot n =
      Part.freeSlot x.slot .shot n { p with sht := p.sht.without n x, prn := (p.clearViewOf n).prn } := by
  have hlower : (if x.state.undeveloped then p.lowerDark n x.progress.dark else p) = p := by
    rcases hdark with h | h
    · rw [h]; rfl
    · rw [Part.lowerDark_of_unreferenced h, ite_self]
  have hprot : (if x.prot then { p with sht := { p.sht with protectedCount := p.sht.protectedCount - 1 } } else p) =
      { p with sht := { p.sht with protectedCount := p.sht.protectedCount - (if x.prot then 1 else 0) } } := by
    cases x.prot <;> rfl
  unfold Part.removeShot Part.dropRecord
  rw [hx]
  simp only [hlower, hprot]
  generalize hq : { p with sht := { p.sht with protectedCount := p.sht.protectedCount - (if x.prot then 1 else 0) } } = q
  have hview : q.clearViewOf n = { q with prn := (p.clearViewOf n).prn } := by
    rw [Part.clearViewOf_frame, Part.clearViewOf_prn n (p := p) (by rw [← hq])]
  rw [hview, Part.cancelFor_of_none (by rw [← hq]; exact hreq), ← hq]
  rfl

end Sys2Proof.Machine
end

section
/-! PROOFS. Arming: the checks of R85, and the shot that an accepted request creates (R60, R62 to R64, R80, R84 to R89). -/

namespace Sys2Proof.Machine

/-! ## The arguments (R84) -/

theorem parseArm_of_badMode {args : List Word} (h : 2 ≤ argNat args 0) : parseArm args = .bad 0 := by
  unfold parseArm
  have : shotModeOf (argNat args 0) = none := by
    unfold shotModeOf
    split
    · omega
    · omega
    · rfl
  rw [this]

theorem shotModeOf_of_lt {k : Nat} (h : k < 2) : ∃ mode : ShotMode, shotModeOf k = some mode ∧ mode.code = k := by
  match k with
  | 0 => exact ⟨.sync, rfl, rfl⟩
  | 1 => exact ⟨.timed, rfl, rfl⟩

theorem shotModeOf_code (mode : ShotMode) : shotModeOf mode.code = some mode := by cases mode <;> rfl

theorem strobePlanOf_of_lt {k : Nat} (h : k < 3) : ∃ plan : StrobePlan, strobePlanOf k = some plan ∧ plan.code = k := by
  match k with
  | 0 => exact ⟨.none, rfl, rfl⟩
  | 1 => exact ⟨.first, rfl, rfl⟩
  | 2 => exact ⟨.last, rfl, rfl⟩

theorem strobePlanOf_code (plan : StrobePlan) : strobePlanOf plan.code = some plan := by cases plan <;> rfl

theorem strobePlanOf_of_ge {k : Nat} (h : 3 ≤ k) : strobePlanOf k = none := by
  unfold strobePlanOf
  split
  · omega
  · omega
  · omega
  · rfl

section
variable {args : List Word} {mode : ShotMode} (hmode : shotModeOf (argNat args 0) = some mode)
include hmode

theorem parseArm_of_badGain (h : 7 < argNat args 1) : parseArm args = .bad 1 := by
  unfold parseArm
  rw [hmode]
  exact if_pos h

theorem parseArm_of_badPlan (hgain : argNat args 1 ≤ 7) (h : 3 ≤ argNat args 3) : parseArm args = .bad 3 := by
  unfold parseArm
  rw [hmode, strobePlanOf_of_ge h]
  exact if_neg (Nat.not_lt.2 hgain)

theorem parseArm_of_good {plan : StrobePlan} (hgain : argNat args 1 ≤ 7) (hplan : strobePlanOf (argNat args 3) = some plan) :
    parseArm args = .ok (.make mode (argNat args 1) (argNat args 2) plan (argNat args 4) (argFlag args 5) (argFlag args 6)) := by
  unfold parseArm
  rw [hmode, hplan]
  exact if_neg (Nat.not_lt.2 hgain)

end

/-! ## Checks 6 to 9 (R85) -/

section Blocked
variable {r : ArmRequest} {p : Part}

theorem Part.armBlocked_of_current {x : Shot} (h : p.currentShot = some x) : p.armBlocked r = some (.alreadyArmed, [x.number]) := by
  unfold Part.armBlocked
  rw [h]

variable (hcurrent : p.currentShot = none)
include hcurrent

theorem Part.armBlocked_of_capture {c : Capture} (hc : p.dfl.capture = some c) (hpreempt : r.preempt = false) :
    p.armBlocked r = some (.sensorBusy, [c.shot]) := by
  unfold Part.armBlocked
  simp only [hcurrent, hc, hpreempt, Bool.false_eq_true, if_false]

variable (hheld : p.dfl.capture = none ∨ r.preempt = true)
include hheld

/-- With no capture held against the request the temperature and the supply decide. -/
theorem Part.armBlocked_of_free :
    p.armBlocked r =
      if p.tsm.temp = .critical then some (.tooHot, [])
      else if r.mode = .timed ∧ 60000000 < r.time ∧ p.tsm.supply = .low then some (.lowSupply, [])
      else none := by
  unfold Part.armBlocked
  cases hc : p.dfl.capture with
  | none => simp only [hcurrent]
  | some c =>
    have hpreempt : r.preempt = true := hheld.resolve_left (by rw [hc]; exact Option.some_ne_none c)
    simp only [hcurrent, hpreempt, if_true]

end Blocked

/-! ## Refusals -/

section Refused
variable {n : Fin 8} {args : List Word} {go : ArmRequest → Part → Part} {p : Part}

theorem Part.checkedArm_of_usedUp (h : p.sht.counter = 0) :
    p.checkedArm n args go = p.refuse n .notReady [Config.shotNumbersCode] := if_pos h

variable (hcounter : p.sht.counter ≠ 0)
include hcounter

theorem Part.checkedArm_of_bad {i : Nat} (h : parseArm args = .bad i) : p.checkedArm n args go = p.refuse n .badArg [natWord i] := by
  unfold Part.checkedArm
  rw [if_neg hcounter, h]

theorem Part.checkedArm_of_blocked {r : ArmRequest} {code : ResultCode} {data : List Word} (h : parseArm args = .ok r)
    (hblocked : p.armBlocked r = some (code, data)) : p.checkedArm n args go = p.refuse n code data := by
  unfold Part.checkedArm
  rw [if_neg hcounter, h]
  simp only [hblocked]

theorem Part.checkedArm_of_free {r : ArmRequest} (h : parseArm args = .ok r) (hblocked : p.armBlocked r = none) :
    p.checkedArm n args go = go r p := by
  unfold Part.checkedArm
  rw [if_neg hcounter, h]
  simp only [hblocked]

end Refused

/-- Settles O32: each clause is the first check that fails, by the lemma of that check. -/
theorem armIsRefusedByItsChecks : Obligations.ArmIsRefusedByItsChecks := by
  intro w s h p args refused
  have hexec : exec (.arm w) s = .next { s with part := cmdArm w.slot args (p.taken .arm w) } :=
    exec_row_of_takes (v := .arm) (by decide) h
  have hrefused {code : ResultCode} {data : List Word} (hd : data.length ≤ 24)
      (hcmd : cmdArm w.slot args (p.taken .arm w) = (p.taken .arm w).refuse w.slot code data) : refused code data :=
    hexec.trans (State.next_part_congr (hcmd.trans (Part.taken_refuse .arm w code data p hd)))
  refine ⟨fun hzero => hrefused (by simp) (Part.checkedArm_of_usedUp (p := p.taken .arm w) hzero), fun hsome => ?_⟩
  have hcounter : (p.taken .arm w).sht.counter ≠ 0 := hsome
  refine ⟨fun hmode => hrefused (by simp) (Part.checkedArm_of_bad hcounter (parseArm_of_badMode hmode)), fun hmode hgain => ?_,
      fun hmode hgain hplan => ?_, fun hmode hgain hplan => ?_⟩
  · obtain ⟨mode, hmode, -⟩ := shotModeOf_of_lt hmode
    exact hrefused (by simp) (Part.checkedArm_of_bad hcounter (parseArm_of_badGain hmode hgain))
  · obtain ⟨mode, hmode, -⟩ := shotModeOf_of_lt hmode
    exact hrefused (by simp) (Part.checkedArm_of_bad hcounter (parseArm_of_badPlan hmode hgain hplan))
  · obtain ⟨mode, hmode, hcode⟩ := shotModeOf_of_lt hmode
    obtain ⟨plan, hplan, -⟩ := strobePlanOf_of_lt hplan
    have hparse := parseArm_of_good hmode hgain hplan
    have hblocked {code : ResultCode} {data : List Word} (hd : data.length ≤ 24)
        (hb : (p.taken .arm w).armBlocked
          (.make mode (argNat args 1) (argNat args 2) plan (argNat args 4) (argFlag args 5) (argFlag args 6)) = some (code, data)) :
        refused code data := hrefused hd (Part.checkedArm_of_blocked hcounter hparse hb)
    refine ⟨fun x hx => hblocked (by simp) (Part.armBlocked_of_current hx), fun hcurrent => ⟨fun c hc hpreempt =>
      hblocked (by simp) (Part.armBlocked_of_capture hcurrent hc hpreempt), fun hheld hhot =>
      hblocked (by simp) ((Part.armBlocked_of_free hcurrent hheld).trans (if_pos hhot)), fun hheld hcool htimed hlong hlow => ?_,
      fun hcapture hcool hshort hfull hreferenced => ?_⟩⟩
    · have hone : (args.getD 0 0).toNat = 1 := congrArg BitVec.toNat htimed
      have hmode : mode = .timed := Option.some.inj (hmode.symm.trans (by rw [hone]; rfl))
      subst hmode
      refine hblocked (by simp) ((Part.armBlocked_of_free hcurrent hheld).trans ((if_neg hcool).trans (if_pos ⟨rfl, ?_, hlow⟩)))
      show 60000000 < clampNat 1000 1800000000 (argNat args 2)
      have : 60000000 < argNat args 2 := hlong
      rw [clampNat_eq]
      split
      · omega
      · split <;> omega
    · have hfree : (p.taken .arm w).armBlocked
          (.make mode (argNat args 1) (argNat args 2) plan (argNat args 4) (argFlag args 5) (argFlag args 6)) = none := by
        refine (Part.armBlocked_of_free hcurrent (.inl hcapture)).trans ((if_neg hcool).trans (if_neg ?_))
        rintro ⟨htimed, hlong, -⟩
        obtain rfl : mode = .timed := htimed
        rcases hshort with hsync | hshort
        · have hzero : (args.getD 0 0).toNat = 0 := congrArg BitVec.toNat hsync
          rw [hzero] at hmode
          cases hmode
        · have hlong : 60000000 < clampNat 1000 1800000000 (argNat args 2) := hlong
          have hshort : argNat args 2 ≤ 60000000 := hshort
          rw [clampNat_eq] at hlong
          split at hlong
          · omega
          · split at hlong <;> omega
      refine hrefused (by simp) ((Part.checkedArm_of_free hcounter hparse hfree).trans ?_)
      have hallocate : (p.taken .arm w).allocate (.shot (p.taken .arm w).sht.counter) = none :=
        Part.allocate_of_givesNoSlot _ ⟨hfull, hreferenced⟩
      have hnone : (p.taken .arm w).dfl.capture = none := hcapture
      unfold Part.armOrPreempt Part.armAccept
      rw [hallocate, hnone]
      rfl

end Sys2Proof.Machine
end

section
/-! PROOFS. The end of a dark capture, and the shot that an accepted arming request creates (R60, R63, R64, R80, R84 to R89, R115, R123, R143). -/

namespace Sys2Proof.Machine

/-! ## Hand-over to development (R152) -/

theorem Part.startPass_frame (p : Part) : p.startPass = { p with dpe := p.startPass.dpe } := by
  unfold Part.startPass
  cases p.dpe.queue with
  | nil => rfl
  | cons n _ =>
    simp only
    cases p.shot? n <;> rfl

theorem Part.startPass_queue (p : Part) : p.startPass.dpe.queue = p.dpe.queue := by
  unfold Part.startPass
  split
  · rfl
  · split <;> rfl

/-- A shot handed over stands in DEVELOPING, and last in the queue; nothing else but the pass changes. -/
theorem Part.handToDevelop_frame (n : Word) (p : Part) :
    p.handToDevelop n = { p with sht := (p.setShotState n .developing).sht, dpe := (p.handToDevelop n).dpe } := by
  unfold Part.handToDevelop
  by_cases h : p.dpe.queue = []
  · simp only [h, if_true]
    rw [Part.startPass_frame]
    rfl
  · simp only [h, if_false]
    rfl

theorem Part.handToDevelop_queue (n : Word) (p : Part) : (p.handToDevelop n).dpe.queue = p.dpe.queue ++ [n] := by
  unfold Part.handToDevelop
  simp only
  split
  · rw [Part.startPass_queue]
    rfl
  · rfl

/-! ## A shot goes on without its dark (R120) -/

/-- A record whose dark is skipped and which goes to development. -/
def Shot.skipped (reason : DarkReason) (t : Shot) : Shot :=
  { t with state := .developing, progress := { t.progress with dark := some (.skipped reason) } }

/-- The records when the dark of one has been skipped. -/
def skippedIn (n : Word) (reason : DarkReason) (l : List Shot) : List Shot :=
  l.map fun t => if t.number = n then t.skipped reason else t

theorem Part.skipDark_eq (n : Word) (reason : DarkReason) (elapsed : Nat) (p : Part) :
    p.skipDark n reason elapsed =
      { p with
        cpa := p.cpa.handed p.phase ⟨.darkFailed, n, p.clock.time, [natWord reason.code, natWord elapsed]⟩
        sht := { p.sht with records := skippedIn n reason p.sht.records }, dpe := (p.skipDark n reason elapsed).dpe } := by
  have hrecords (l : List Shot) :
      (l.map fun t => if t.number = n then { t with progress := { t.progress with dark := some (.skipped reason) } } else t).map
        (fun t => if t.number = n then { t with state := .developing } else t) = skippedIn n reason l := by
    rw [List.map_map]
    refine List.map_congr_left fun t _ => ?_
    by_cases h : t.number = n
    · simp only [Function.comp, h, if_true, Shot.skipped]
    · simp only [Function.comp, h, if_false]
  unfold Part.skipDark
  simp only
  rw [Part.handToDevelop_frame, Part.emit_eq]
  simp only [Part.setShotState, Part.modProgress, Part.modShot, hrecords]

theorem Part.skipDark_queue (n : Word) (reason : DarkReason) (elapsed : Nat) (p : Part) :
    (p.skipDark n reason elapsed).dpe.queue = p.dpe.queue ++ [n] := by
  unfold Part.skipDark
  simp only
  rw [Part.handToDevelop_queue, Part.emit_eq]
  rfl

theorem find?_skippedIn (n m : Word) (reason : DarkReason) (l : List Shot) :
    (skippedIn n reason l).find? (fun t => decide (t.number = m)) =
      if m = n then (l.find? fun t => decide (t.number = n)).map (Shot.skipped reason)
      else l.find? fun t => decide (t.number = m) :=
  find?_map_number n m fun _ => rfl

/-! ## The end of a capture (R123, R143) -/

/-- The part whose capture is over: its slot is FREE, and SLOT_RELEASED reported. -/
def Part.captureFreed (c : Capture) (p : Part) : Part :=
  Part.freeSlot c.slot .dark c.shot { p with dfl := { p.dfl with capture := none, ending := none } }

theorem Part.captureFreed_eq (c : Capture) (p : Part) :
    p.captureFreed c =
      { p with
        cpa := (p.cpa.dirtied p.phase).handed p.phase ⟨.slotReleased, c.shot, p.clock.time, [natWord c.slot, 1]⟩
        sht := { p.sht with slots := p.sht.slots.set c.slot .free }, dfl := { p.dfl with capture := none, ending := none } } := by
  unfold Part.captureFreed Part.freeSlot
  rw [Part.emit_eq, Part.statusDirty_eq]
  rfl

theorem Part.captureFailureReported_eq (c : Capture) (reason : DarkReason) (p : Part) :
    p.captureFailureReported c reason =
      { p with
        cpa :=
          ((p.cpa.dirtied p.phase).handed p.phase ⟨.slotReleased, c.shot, p.clock.time, [natWord c.slot, 1]⟩).handed p.phase
            ⟨.darkFailed, c.shot, p.clock.time, [natWord reason.code, natWord (c.elapsed p.clock.time)]⟩ } := by
  unfold Part.captureFailureReported Capture.elapsed
  rw [Part.emit_eq, Part.emit_eq, Part.statusDirty_eq] <;> rfl

section Ended
variable {c : Capture} {p : Part} (hc : p.dfl.capture = some c)
include hc

/-- A capture that ends, but for a RELEASE: its shot goes on without a dark, then what waited for the end. -/
theorem Part.finishEnding_of_skipped {e : Ending} (hafter : ∀ n m, e.after ≠ .release n m) :
    p.finishEnding e = (((p.captureFreed c).skipDark c.shot e.reason e.elapsed).afterCapture e.after).resumeArms e.arms := by
  unfold Part.finishEnding
  rw [hc]
  cases ha : e.after with
  | release n m => exact absurd ha (hafter n m)
  | nothing | arm | skip => rfl

/-- A capture that a RELEASE ends: the shot's source stays, and its record is removed. -/
theorem Part.finishEnding_of_release {e : Ending} {n : Fin 8} {m : Word} (hafter : e.after = .release n m) :
    p.finishEnding e =
      (((p.captureFreed c).emit .darkFailed c.shot [natWord e.reason.code, natWord e.elapsed]).afterCapture e.after).resumeArms
        e.arms := by
  unfold Part.finishEnding
  rw [hc, hafter]
  rfl

variable (hnone : p.dfl.ending = none)
include hnone

/-- The sequencer with its sequence stopped (R107). -/
def Esu.stopped (x : Esu) : Esu :=
  { x with
    seq := .idle, integLine := false, strobe := none, flushTimer := none, armTimer := none, guardTimer := none, progTimer := none
    darkTimer := none }

/-- The ICR with its target cleared (R143). -/
def Icr.cleared (x : Icr) : Icr := { x with target := none, deadline := none, strayReported := false }

/-- A capture is ended with no burst of it under way: the sequence stops, in READ the target is cleared, and the rest follows. -/
theorem Part.endCapture_of_free (reason : DarkReason) (after : After) (hfree : c.phase ≠ .read ∨ p.icr.work = none) :
    p.endCapture reason after =
      Part.finishEnding ⟨reason, c.elapsed p.clock.time, after, []⟩
        { p with esu := p.esu.stopped, icr := if c.phase = .read then p.icr.cleared else p.icr } := by
  unfold Part.endCapture
  rw [hc, hnone]
  simp only [Option.isSome_none, Bool.false_eq_true, if_false]
  cases hphase : c.phase with
  | flush => rfl
  | integrate => rfl
  | read =>
    have hwork : p.icr.work = none := hfree.resolve_left (not_not_intro hphase)
    simp only [Part.stopSequence, Part.setSeq, hwork, Option.isSome_none, Bool.false_eq_true, if_false, if_true]
    rfl

/-- With an ingest burst of it under way the rest waits for that burst's commit. -/
theorem Part.endCapture_of_burst (reason : DarkReason) (after : After) (hphase : c.phase = .read) (hwork : p.icr.work.isSome = true) :
    p.endCapture reason after =
      { p with esu := p.esu.stopped, dfl := { p.dfl with ending := some ⟨reason, c.td, after, []⟩ } } := by
  unfold Part.endCapture
  rw [hc, hnone]
  simp only [Option.isSome_none, Bool.false_eq_true, if_false, hphase, Part.stopSequence, Part.setSeq, hwork, if_true, Capture.elapsed]
  rfl

end Ended

/-! ## The commit of a burst for which a capture's end waits (R143) -/

/-- The part when such a burst has been committed and answered, and the target cleared. -/
def Part.commitAnswered (w : IngestWork) (t : Target) (p : Part) : Part :=
  Part.clearTarget (Part.answer true []
    { p.moveCursor t w.to_ w.gap w.low w.high false with
      icr := { (p.moveCursor t w.to_ w.gap w.low w.high false).icr with work := none } })

theorem Part.ingestCommit_of_ending {w : IngestWork} {t : Target} {e : Ending} {p : Part} (hwork : p.icr.work = some w)
    (hstage : w.stage = .written) (ht : p.icr.target = some t) (hres : p.cpa.resetting = none) (he : p.dfl.ending = some e) :
    p.ingestCommit = (p.commitAnswered w t).finishEnding e := by
  have hcpa : (p.moveCursor t w.to_ w.gap w.low w.high false).cpa = p.cpa := by
    unfold Part.moveCursor
    cases t.kind <;> rfl
  have hdfl : (p.moveCursor t w.to_ w.gap w.low w.high false).dfl = p.dfl := by
    unfold Part.moveCursor
    cases t.kind <;> rfl
  unfold Part.ingestCommit
  rw [hwork, ht]
  simp only [hstage, if_true]
  have hstopping : (Part.answer true []
      { p.moveCursor t w.to_ w.gap w.low w.high false with
        icr := { (p.moveCursor t w.to_ w.gap w.low w.high false).icr with work := none } }).icrStopping = false := by
    unfold Part.icrStopping Part.answer
    rw [hcpa, hres]
  have hending : (Part.answer true []
      { p.moveCursor t w.to_ w.gap w.low w.high false with
        icr := { (p.moveCursor t w.to_ w.gap w.low w.high false).icr with work := none } }).dfl.ending = some e := by
    unfold Part.answer
    rw [hdfl, he]
  rw [hstopping, hending]
  rfl

/-- A DARK's commit moves the target's own cursor only, which is cleared. -/
theorem Part.commitAnswered_of_dark {w : IngestWork} {t : Target} {p : Part} (hkind : t.kind = .dark) :
    p.commitAnswered w t =
      { p with
        pts := { p.pts with answer := some ⟨true, []⟩, queue := p.pts.queue.tail, head := none }
        icr := { p.icr.cleared with work := none } } := by
  unfold Part.commitAnswered Part.moveCursor
  rw [hkind]
  rfl

/-! ## The shot created (R60, R63, R64, R80, R87, R89, R115) -/

/-- The part once an arming request has the slot: the record, the sequencer and SHOT_ARMED. -/
def Part.armedIn (slot : Nat) (r : ArmRequest) (p : Part) : Part :=
  { p with
    cpa :=
      (p.cpa.dirtied p.phase).handed p.phase
        ⟨.shotArmed, p.sht.counter, p.clock.time, [natWord slot, natWord r.mode.code, natWord r.gain]⟩
    sht :=
      { p.sht with
        slots := p.sht.slots.set slot (.shot p.sht.counter), counter := p.sht.counter + 1
        records :=
          p.sht.records ++
            [newShot p.sht.counter slot r (planTimeOf r (p.esu.staged.getD p.esu.active)) p.clock.time p.temperature] }
    esu :=
      { p.esu with
        active := p.esu.staged.getD p.esu.active, staged := none, seq := .shotFlush, flushLine := true
        flushPulse := some ⟨p.clock.time, 10⟩
        flushTimer := some ⟨p.clock.time, (p.esu.staged.getD p.esu.active).flush⟩ } }

theorem Part.armInto_allocated (slot : Nat) (r : ArmRequest) (p : Part) :
    Part.armInto slot r (p.setHolder slot (.shot p.sht.counter)).statusDirty = p.armedIn slot r := by
  unfold Part.armInto
  simp only [Part.statusDirty_eq, Part.emit_eq, Part.applyStaged, Part.pulseFlush, Part.setHolder, Cpa.dirtied_dirtied]
  rfl

theorem Part.armAccept_line {slot : Nat} {p q : Part} (r : ArmRequest) (hgives : p.givesSlot slot q) (hcounter : q.sht.counter = p.sht.counter) :
    p.armAccept none r = q.armedIn slot r := by
  unfold Part.armAccept
  rw [Part.allocate_of_givesSlot _ hgives, ← hcounter]
  exact Part.armInto_allocated slot r q

theorem Part.armAccept_command {slot : Nat} {p q : Part} (n : Fin 8) (r : ArmRequest) (hgives : p.givesSlot slot q)
    (hsht : q.sht = p.sht) (hesu : q.esu = p.esu) :
    p.armAccept (some n) r =
      (q.armedIn slot r).doneOr n r.adjusted
        (armResult p.sht.counter slot r (planTimeOf r (p.esu.staged.getD p.esu.active)) p.esu.staged.isSome) := by
  unfold Part.armAccept
  rw [Part.allocate_of_givesSlot _ hgives, ← hsht, ← hesu]
  simp only [Part.armInto_allocated]
  rfl

end Sys2Proof.Machine
end

section
/-! PROOFS. The shot that ARM, the ARM_IN button and an ARM that preempts a dark capture create (R60, R63, R64, R80, R84 to R89, R115, R123, R143). -/

namespace Sys2Proof.Machine

/-! ## The request (R84, R86) -/

theorem clampNat_eq_max {lo hi : Nat} (h : lo ≤ hi) (v : Nat) : clampNat lo hi v = max lo (min v hi) := by
  rw [clampNat_eq]
  split
  · omega
  · split <;> omega

/-- The strobe plan used: LAST of a SYNC shot is taken as FIRST. -/
def usedPlan (mode : ShotMode) (asked : StrobePlan) : StrobePlan := if mode = .sync ∧ asked = .last then .first else asked

def usedTime (mode : ShotMode) (time : Nat) : Nat := if mode = .timed then max 1000 (min time 1800000000) else 0

theorem bne_eq_decide_ne (a b : Nat) : (a != b) = decide (a ≠ b) := by
  by_cases h : a = b <;> simp [h]

theorem ArmRequest.make_eq (mode : ShotMode) (gain time : Nat) (asked : StrobePlan) (lead : Nat) (auto preempt : Bool) :
    ArmRequest.make mode gain time asked lead auto preempt =
      ⟨mode, gain, usedTime mode time, usedPlan mode asked,
        if usedPlan mode asked = .last then min lead 1800000000 else 0, auto, preempt,
        decide ((mode = .timed ∧ usedTime mode time ≠ time) ∨ usedPlan mode asked ≠ asked ∨
          (usedPlan mode asked = .last ∧ min lead 1800000000 ≠ lead))⟩ := by
  cases mode <;> cases asked <;>
    simp [ArmRequest.make, usedPlan, usedTime, clampNat_eq_max, bne_eq_decide_ne]

/-- A set in its ranges needs no clamping: the button's request is its line-arm defaults. -/
theorem ArmRequest.make_of_inRange {d : SyncSettings} (h : d.inRange) :
    ArmRequest.make d.lineMode d.lineGain d.lineTime d.linePlan d.lineLead true false =
      ⟨d.lineMode, d.lineGain, if d.lineMode = .timed then d.lineTime else 0, d.linePlan, if d.linePlan = .last then d.lineLead else 0,
        true, false, false⟩ := by
  obtain ⟨-, -, -, -, -, -, -, -, -, -, -, -, hlow, hhigh, hplan, hlead⟩ := h
  have hused : usedPlan d.lineMode d.linePlan = d.linePlan := by
    unfold usedPlan
    split
    · rename_i hlast
      exact absurd hlast.2 (hplan hlast.1)
    · rfl
  have htime : usedTime d.lineMode d.lineTime = if d.lineMode = .timed then d.lineTime else 0 := by
    unfold usedTime
    split
    · omega
    · rfl
  rw [ArmRequest.make_eq, hused, htime, Nat.min_eq_left hlead]
  congr 1
  rw [decide_eq_false_iff_not]
  rintro (⟨htimed, hne⟩ | hne | ⟨-, hne⟩)
  · exact hne (if_pos htimed)
  · exact hne rfl
  · exact hne rfl

/-! ## The shot in its slot -/

/-- What an allocation gives up is a library entry only. -/
theorem Part.givesSlot_frame {slot : Nat} {p q : Part} (h : p.givesSlot slot q) : ∃ dfl, q = { p with dfl := dfl } := by
  rcases h with ⟨rfl, -⟩ | ⟨-, e, -, -, -, -, rfl⟩
  · exact ⟨q.dfl, rfl⟩
  · exact ⟨_, rfl⟩

theorem Part.givesSlot_taken {slot : Nat} {p q : Part} (v : Verb) (w : SlotWrite) (h : p.givesSlot slot q) :
    (p.taken v w).givesSlot slot (q.taken v w) := by
  rcases h with ⟨rfl, hfree, hlow⟩ | ⟨hfull, e, he, hrefs, hlow, hslot, rfl⟩
  · exact .inl ⟨rfl, hfree, hlow⟩
  · exact .inr ⟨hfull, e, he, hrefs, hlow, hslot, rfl⟩

theorem Part.armedIn_taken (slot : Nat) (r : ArmRequest) (v : Verb) (w : SlotWrite) (p : Part) :
    (p.taken v w).armedIn slot r = (p.armedIn slot r).taken v w := by
  have hcpa : ∀ e, ((p.cpa.latched v w).dirtied p.phase).handed p.phase e = ((p.cpa.dirtied p.phase).handed p.phase e).latched v w :=
    fun e => by rw [Cpa.latched_dirtied, Cpa.latched_handed]
  unfold Part.armedIn
  rw [Part.taken_eq, Part.taken_eq]
  exact congrArg (fun cpa : Cpa => ({ (p.armedIn slot r) with cpa := cpa } : Part)) (hcpa _)

/-- What an arming request creates, as its record, its settings and its reports are written out. -/
theorem newShot_arming (n : Word) (slot : Nat) (r : ArmRequest) (planTime : Nat) (now : Word) (temp : Option Int) :
    (newShot n slot r planTime now temp).arming =
      ⟨r.mode, r.gain, if r.mode = .timed then some r.time else none, r.plan, planTime, r.auto, now, temp⟩ := by
  unfold newShot
  cases r.mode <;> rfl

/-- The time in the plan of a request (R84). -/
theorem planTimeOf_make (mode : ShotMode) (gain time : Nat) (asked : StrobePlan) (lead : Nat) (auto preempt : Bool) (s : SyncSettings) :
    planTimeOf (ArmRequest.make mode gain time asked lead auto preempt) s =
      planTimeOf ⟨mode, gain, time, usedPlan mode asked, min lead 1800000000, auto, preempt, false⟩ s := by
  rw [ArmRequest.make_eq]
  unfold planTimeOf
  cases usedPlan mode asked <;> rfl

theorem Part.armBlocked_of_ready {p : Part} {r : ArmRequest} (hlive : ∀ x ∈ p.sht.records, x.state.live = false)
    (hheld : p.dfl.capture = none ∨ r.preempt = true) (hcool : p.tsm.temp ≠ .critical)
    (hsupply : r.mode = .timed → r.time ≤ 60000000 ∨ p.tsm.supply = .normal) : p.armBlocked r = none := by
  have hcurrent : p.currentShot = none := List.find?_eq_none.2 fun x hx => by simp [hlive x hx]
  rw [Part.armBlocked_of_free hcurrent hheld, if_neg hcool, if_neg]
  rintro ⟨htimed, hlong, hlow⟩
  rcases hsupply htimed with hshort | hnormal
  · omega
  · rw [hnormal] at hlow
    cases hlow

section Request
variable (mode : ShotMode) (gain : Nat) (asked : StrobePlan) (args : List Word)

/-- The request of an ARM command's words. -/
def armRequest : ArmRequest :=
  .make mode gain (args.getD 2 0).toNat asked (args.getD 4 0).toNat ((args.getD 5 0).getLsbD 0) ((args.getD 6 0).getLsbD 0)

variable {mode gain asked args}

theorem armRequest_mode : (armRequest mode gain asked args).mode = mode := by rw [armRequest, ArmRequest.make_eq]
theorem armRequest_gain : (armRequest mode gain asked args).gain = gain := by rw [armRequest, ArmRequest.make_eq]
theorem armRequest_time : (armRequest mode gain asked args).time = usedTime mode (args.getD 2 0).toNat := by
  rw [armRequest, ArmRequest.make_eq]
theorem armRequest_plan : (armRequest mode gain asked args).plan = usedPlan mode asked := by rw [armRequest, ArmRequest.make_eq]
theorem armRequest_auto : (armRequest mode gain asked args).auto = (args.getD 5 0).getLsbD 0 := by rw [armRequest, ArmRequest.make_eq]
theorem armRequest_preempt : (armRequest mode gain asked args).preempt = (args.getD 6 0).getLsbD 0 := by
  rw [armRequest, ArmRequest.make_eq]
theorem armRequest_adjusted :
    (armRequest mode gain asked args).adjusted =
      decide ((mode = .timed ∧ usedTime mode (args.getD 2 0).toNat ≠ (args.getD 2 0).toNat) ∨ usedPlan mode asked ≠ asked ∨
        (usedPlan mode asked = .last ∧ min (args.getD 4 0).toNat 1800000000 ≠ (args.getD 4 0).toNat)) := by
  rw [armRequest, ArmRequest.make_eq]

/-- The time in the plan of an ARM (R84). -/
theorem planTimeOf_armRequest (s : SyncSettings) :
    (usedPlan mode asked = .none → planTimeOf (armRequest mode gain asked args) s = 0) ∧
      (usedPlan mode asked = .first → planTimeOf (armRequest mode gain asked args) s = s.delay) ∧
      (usedPlan mode asked = .last → planTimeOf (armRequest mode gain asked args) s = min (args.getD 4 0).toNat 1800000000) := by
  rw [armRequest, ArmRequest.make_eq]
  unfold planTimeOf
  refine ⟨fun h => ?_, fun h => ?_, fun h => ?_⟩ <;> simp only [h, if_true]

theorem StrobePlan.eq_or (x : StrobePlan) : x = .none ∨ x = .first ∨ x = .last := by cases x <;> simp

theorem parseArm_of_words (hmode : args.getD 0 0 = natWord mode.code) (hgain : args.getD 1 0 = natWord gain) (hle : gain ≤ 7)
    (hplan : args.getD 3 0 = natWord asked.code) : parseArm args = .ok (armRequest mode gain asked args) := by
  have h0 : argNat args 0 = mode.code := (congrArg BitVec.toNat hmode).trans (by cases mode <;> rfl)
  have h1 : argNat args 1 = gain := (congrArg BitVec.toNat hgain).trans (natWord_toNat (by omega))
  have h3 : argNat args 3 = asked.code := (congrArg BitVec.toNat hplan).trans (by cases asked <;> rfl)
  rw [parseArm_of_good (mode := mode) (plan := asked) (by rw [h0, shotModeOf_code]) (by omega) (by rw [h3, strobePlanOf_code]), h1]
  rfl

end Request

/-! ## A preempted capture (R88, R123) -/

/-- The part whose capture is over and whose shot goes to development without a dark. -/
def Part.captureSkipped (reason : DarkReason) (elapsed : Nat) (c : Capture) (p : Part) : Part :=
  (p.captureFreed c).skipDark c.shot reason elapsed

/-- The CPA to which a capture's failure has been reported. -/
def Cpa.captureFailed (phase : Phase) (time : Word) (reason : DarkReason) (elapsed : Nat) (c : Capture) (x : Cpa) : Cpa :=
  ((x.dirtied phase).handed phase ⟨.slotReleased, c.shot, time, [natWord c.slot, 1]⟩).handed phase
    ⟨.darkFailed, c.shot, time, [natWord reason.code, natWord elapsed]⟩

theorem Part.captureSkipped_eq (reason : DarkReason) (elapsed : Nat) (c : Capture) (p : Part) :
    ∃ dpe, dpe.queue = p.dpe.queue ++ [c.shot] ∧
      p.captureSkipped reason elapsed c =
        { p with
          cpa := p.cpa.captureFailed p.phase p.clock.time reason elapsed c
          sht := { p.sht with slots := p.sht.slots.set c.slot .free, records := skippedIn c.shot reason p.sht.records }
          dfl := { p.dfl with capture := none, ending := none }, dpe := dpe } := by
  refine ⟨(p.captureSkipped reason elapsed c).dpe, ?_, ?_⟩
  · unfold Part.captureSkipped
    rw [Part.skipDark_queue, Part.captureFreed_eq]
  · unfold Part.captureSkipped
    rw [Part.skipDark_eq, Part.captureFreed_eq]
    rfl

theorem Cpa.captureFailed_latched (v : Verb) (w : SlotWrite) (phase : Phase) (time : Word) (reason : DarkReason) (elapsed : Nat)
    (c : Capture) (x : Cpa) :
    (x.latched v w).captureFailed phase time reason elapsed c = (x.captureFailed phase time reason elapsed c).latched v w := by
  unfold Cpa.captureFailed
  rw [Cpa.latched_dirtied, Cpa.latched_handed, Cpa.latched_handed]

@[simp] theorem Cpa.captureFailed_slots (phase : Phase) (time : Word) (reason : DarkReason) (elapsed : Nat) (c : Capture) (x : Cpa) :
    (x.captureFailed phase time reason elapsed c).slots = x.slots := by
  simp [Cpa.captureFailed]

theorem Part.afterCapture_arm {n : Fin 8} {args : List Word} {r : ArmRequest} (h : parseArm args = .ok r) (p : Part) :
    p.afterCapture (.arm n args) = p.armAccept (some n) r := by
  unfold Part.afterCapture
  simp only [h]

/-- A capture ended for anything but a RELEASE, with no burst of it under way. -/
theorem Part.endCapture_skipped {c : Capture} {p : Part} (hc : p.dfl.capture = some c) (hnone : p.dfl.ending = none)
    (reason : DarkReason) {after : After} (hafter : ∀ n m, after ≠ .release n m) (hfree : c.phase ≠ .read ∨ p.icr.work = none) :
    p.endCapture reason after =
      Part.afterCapture after
        (Part.captureSkipped reason (c.elapsed p.clock.time) c
          { p with esu := p.esu.stopped, icr := if c.phase = .read then p.icr.cleared else p.icr }) := by
  rw [Part.endCapture_of_free hc hnone reason after hfree]
  exact Part.finishEnding_of_skipped (e := ⟨reason, c.elapsed p.clock.time, after, []⟩)
    (p := { p with esu := p.esu.stopped, icr := if c.phase = .read then p.icr.cleared else p.icr }) hc hafter

theorem Part.doneOr_hasEnded {n : Fin 8} {l : Latched} {p : Part} (hcmd : p.cpa.slots[n].cmd = some l) (hopen : l.ended = false)
    (adjusted : Bool) {data : List Word} (hd : data.length ≤ 24) :
    (p.doneOr n adjusted data).hasEnded n (if adjusted then .doneAdjusted else .done) (if adjusted then .adjusted else .ok) data := by
  unfold Part.doneOr
  cases adjusted
  · exact Part.hasEnded_of_open hcmd hopen .done .ok hd
  · exact Part.hasEnded_of_open hcmd hopen .doneAdjusted .adjusted hd

/-- The records once a preempted capture's shot has its dark skipped and the new shot has been added. -/
theorem find?_skipped_append {l : List Shot} {x z : Shot} {n m : Word} {reason : DarkReason}
    (hx : l.find? (fun t => decide (t.number = n)) = some x) (hm : l.find? (fun t => decide (t.number = m)) = none) (hz : z.number = m) :
    (skippedIn n reason l ++ [z]).find? (fun t => decide (t.number = n)) = some (x.skipped reason) ∧
      (skippedIn n reason l ++ [z]).find? (fun t => decide (t.number = m)) = some z ∧
      ∀ k, k ≠ n → k ≠ m → (skippedIn n reason l ++ [z]).find? (fun t => decide (t.number = k)) = l.find? fun t => decide (t.number = k) := by
  have hne : m ≠ n := fun h => by rw [h, hx] at hm; cases hm
  refine ⟨?_, ?_, fun k hkn hkm => ?_⟩
  · rw [List.find?_append, find?_skippedIn, if_pos rfl, hx]
    rfl
  · rw [List.find?_append, find?_skippedIn, if_neg hne, hm]
    simp [hz]
  · rw [List.find?_append, find?_skippedIn, if_neg hkn]
    simp [hz, Ne.symm hkm]

/-- Settles O31: the request passes its checks, and `armedIn` says what it creates. -/
theorem armingCreatesTheShot : Obligations.ArmingCreatesTheShot := by
  unfold Obligations.ArmingCreatesTheShot
  refine ⟨⟨?command, ?button⟩, ?preempt⟩
  case command =>
    intro w mode gain asked slot q s h p args time plan lead adjusted at_ hmode hgain hle hplan hready hgives
    have hexec : exec (.arm w) s = .next { s with part := cmdArm w.slot args (p.taken .arm w) } :=
      exec_row_of_takes (v := .arm) (by decide) h
    obtain ⟨hcounter, hlive, hcapture, hcool, hsupply⟩ := hready
    obtain ⟨dfl, rfl⟩ := Part.givesSlot_frame hgives
    have hfree : (p.taken .arm w).armBlocked (armRequest mode gain asked args) = none :=
      Part.armBlocked_of_ready hlive (.inl hcapture) hcool (by rw [armRequest_mode, armRequest_time]; exact hsupply)
    have hcmd : cmdArm w.slot args (p.taken .arm w) = (p.taken .arm w).armAccept (some w.slot) (armRequest mode gain asked args) := by
      refine (Part.checkedArm_of_free (p := p.taken .arm w) hcounter (parseArm_of_words hmode hgain hle hplan) hfree).trans ?_
      unfold Part.armOrPreempt
      rw [show (p.taken .arm w).dfl.capture = none from hcapture]
      rfl
    have hat : planTimeOf (armRequest mode gain asked args) (p.esu.staged.getD p.esu.active) = at_ := by
      obtain ⟨hnone, hfirst, hlast⟩ := planTimeOf_armRequest (gain := gain) (args := args) (mode := mode) (asked := asked)
        (p.esu.staged.getD p.esu.active)
      rcases plan.eq_or with hu | hu | hu
      · exact (hnone hu).trans (by simp only [at_, hu])
      · exact (hfirst hu).trans (by simp only [at_, hu])
      · exact (hlast hu).trans (by simp only [at_, hu, lead])
    rw [hexec, hcmd, Part.armAccept_command w.slot _ (Part.givesSlot_taken .arm w hgives) rfl rfl, Part.armedIn_taken,
      Part.taken_doneOr _ _ _ _ _ (by simp [armResult]), armRequest_adjusted]
    refine ⟨_, rfl, rfl, rfl, ⟨rfl, ⟨_, rfl, rfl, rfl, rfl, rfl, ?_, rfl, rfl, rfl, rfl, rfl⟩, rfl⟩, ?_⟩
    · rw [newShot_arming, armRequest_mode, armRequest_gain, armRequest_time, armRequest_plan, armRequest_auto]
      exact congrArg (fun t => Arming.mk mode gain (if mode = .timed then some time else none) plan t _ _ _) hat
    · have hdata : armResult p.sht.counter slot (armRequest mode gain asked args)
            (planTimeOf (armRequest mode gain asked args) (p.esu.staged.getD p.esu.active)) p.esu.staged.isSome =
          [p.sht.counter, natWord slot, natWord time, natWord plan.code, natWord at_, flagWord p.esu.staged.isSome] := by
        rw [armResult, hat, armRequest_time, armRequest_plan]
        rfl
      simp only [decide_eq_true_eq]
      rw [Part.answered_eq, Part.answered_eq, Part.emit_eq, Part.statusDirty_eq]
      exact congrArg (Cpa.answered .arm w (if adjusted then .doneAdjusted else .done) (if adjusted then .adjusted else .ok) · _) hdata
  case button =>
    intro timer slot q s htimer hdue hmode hres d p
    have hrow : exec .armInAccept s = .next { s with part := s.part.armInAccept } := rfl
    have haccept : s.part.armInAccept = if (!s.part.esu.button) then Part.lineArm p else p := by
      unfold Part.armInAccept
      rw [htimer]
      exact if_pos hdue
    refine ⟨fun hpressed => ?_, fun hreleased hrange hready hgives => ?_⟩
    · rw [hrow, haccept, hpressed]
      rfl
    · obtain ⟨hcounter, hlive, hcapture, hcool, hsupply⟩ := hready
      obtain ⟨dfl, rfl⟩ := Part.givesSlot_frame hgives
      have hreq : p.lineRequest = ⟨d.lineMode, d.lineGain, if d.lineMode = .timed then d.lineTime else 0, d.linePlan,
          if d.linePlan = .last then d.lineLead else 0, true, false, false⟩ := ArmRequest.make_of_inRange hrange
      have hfree : p.armBlocked p.lineRequest = none :=
        Part.armBlocked_of_ready hlive (.inl hcapture) hcool (by
          rw [hreq]
          intro htimed
          rw [show (if d.lineMode = .timed then d.lineTime else 0) = d.lineTime from if_pos htimed]
          exact hsupply htimed)
      have harm : p.lineArm = p.armAccept none p.lineRequest := by
        have hmode : p.cpa.mode = .operational := hmode
        have hres : p.cpa.resetting = none := hres
        unfold Part.lineArm
        simp only [hmode, hres, hfree, reduceCtorEq, Option.isSome_none, Bool.false_eq_true, or_self, false_and, if_false, or_false]
        exact if_neg hcounter
      rw [hrow, haccept, hreleased, Bool.not_false, if_pos rfl, harm, Part.armAccept_line _ hgives rfl, hreq]
      refine ⟨_, rfl, rfl, rfl, ⟨rfl, ⟨_, rfl, rfl, rfl, rfl, rfl, ?_, rfl, rfl, rfl, rfl, rfl⟩, rfl⟩, ?_⟩
      · have htime : (if d.lineMode = .timed then some (if d.lineMode = .timed then d.lineTime else 0) else none) =
            if d.lineMode = .timed then some d.lineTime else none := by
          split
          · rfl
          · rfl
        rw [newShot_arming]
        refine (congrArg (fun x => Arming.mk d.lineMode d.lineGain x d.linePlan _ true _ _) htime).trans
          (congrArg (fun t => Arming.mk d.lineMode d.lineGain _ d.linePlan t true _ _) ?_)
        show planTimeOf ⟨d.lineMode, d.lineGain, if d.lineMode = .timed then d.lineTime else 0, d.linePlan,
          if d.linePlan = .last then d.lineLead else 0, true, false, false⟩ d = _
        unfold planTimeOf
        rcases d.linePlan.eq_or with hu | hu | hu <;> simp only [hu, if_true]
      · show _ = (Part.emit .shotArmed p.sht.counter [natWord slot, natWord d.lineMode.code, natWord d.lineGain] p.statusDirty).cpa
        rw [Part.emit_eq, Part.statusDirty_eq]
        rfl
  case preempt =>
    intro mode gain asked args c x p time plan lead adjusted cls code settings at_ words freed stopped carriedOut hmode hgain hle hplan
      hc hx hunused
    have hparse := parseArm_of_words hmode hgain hle hplan
    have hat : planTimeOf (armRequest mode gain asked args) settings = at_ := by
      obtain ⟨hnone, hfirst, hlast⟩ := planTimeOf_armRequest (gain := gain) (args := args) (mode := mode) (asked := asked) settings
      rcases plan.eq_or with hu | hu | hu
      · exact (hnone hu).trans (by simp only [at_, hu])
      · exact (hfirst hu).trans (by simp only [at_, hu])
      · exact (hlast hu).trans (by simp only [at_, hu, lead])
    have hdata (slot : Nat) : armResult p.sht.counter slot (armRequest mode gain asked args)
          (planTimeOf (armRequest mode gain asked args) settings) p.esu.staged.isSome = words slot := by
      rw [armResult, hat, armRequest_time, armRequest_plan]
      rfl
    have hendCapture (w : SlotWrite) (s : State) (h : s.part.takes .arm w) (hp : p = s.part.entered .arm) (hargs : args = s.part.words w)
        (hpreempt : (args.getD 6 0).getLsbD 0 = true) (hcounter : p.sht.counter ≠ 0) (hending : p.dfl.ending = none)
        (hlive : ∀ y ∈ p.sht.records, y.state.live = false) (hcool : p.tsm.temp ≠ .critical)
        (hsupply : mode = .timed → time ≤ 60000000 ∨ p.tsm.supply = .normal) :
        exec (.arm w) s = .next { s with part := (p.taken .arm w).endCapture .preempted (.arm w.slot args) } := by
      have hexec : exec (.arm w) s = .next { s with part := cmdArm w.slot args (p.taken .arm w) } := by
        rw [hp, hargs]
        exact exec_row_of_takes (v := .arm) (by decide) h
      have hfree : (p.taken .arm w).armBlocked (armRequest mode gain asked args) = none :=
        Part.armBlocked_of_ready hlive (.inr (armRequest_preempt.trans hpreempt)) hcool
          (by rw [armRequest_mode, armRequest_time]; exact hsupply)
      have hcapture : (p.taken .arm w).dfl.capture = some c := hc
      have hnone : (p.taken .arm w).dfl.ending = none := hending
      refine hexec.trans (State.next_part_congr ((Part.checkedArm_of_free (p := p.taken .arm w) hcounter hparse hfree).trans ?_))
      unfold Part.armOrPreempt
      rw [hcapture, hnone]
      rfl
    refine ⟨fun w s h hp hargs hpreempt hcounter hending hlive hcool hsupply => ⟨fun hidle slot hslot hlow => ?_, fun hphase hwork => ?_⟩,
      fun s k g e n l hp hk hstage hg hkind hres he hreason hafter harms hcmd hopen slot hslot hlow => ?_⟩
    · have hfreed : ∀ (q : Part), q.sht.slots = freed → q.givesSlot slot q := fun q hq =>
        .inl ⟨rfl, by rw [hq]; exact hslot, fun j hj => by rw [hq]; exact hlow j hj⟩
      have hcmd := hendCapture w s h hp hargs hpreempt hcounter hending hlive hcool hsupply
      rw [Part.endCapture_skipped (p := p.taken .arm w) hc hending .preempted (by rintro _ _ ⟨⟩) hidle,
        Part.afterCapture_arm hparse] at hcmd
      obtain ⟨dpe, hqueue, heq⟩ := Part.captureSkipped_eq .preempted (c.elapsed p.clock.time) c
        { p.taken .arm w with esu := p.esu.stopped, icr := if c.phase = .read then p.icr.cleared else p.icr }
      have htaken : Part.captureSkipped .preempted (c.elapsed p.clock.time) c
          { p.taken .arm w with esu := p.esu.stopped, icr := if c.phase = .read then p.icr.cleared else p.icr } =
          Part.taken .arm w
            { p with
              cpa := p.cpa.captureFailed p.phase p.clock.time .preempted (c.elapsed p.clock.time) c
              sht := { p.sht with slots := freed, records := skippedIn c.shot .preempted p.sht.records }
              dfl := { p.dfl with capture := none, ending := none }, dpe := dpe
              esu := p.esu.stopped, icr := if c.phase = .read then p.icr.cleared else p.icr } := by
        rw [heq]
        exact congrArg (fun cpa : Cpa => ({ p with
              cpa := cpa
              sht := { p.sht with slots := freed, records := skippedIn c.shot .preempted p.sht.records }
              dfl := { p.dfl with capture := none, ending := none }, dpe := dpe
              esu := p.esu.stopped, icr := if c.phase = .read then p.icr.cleared else p.icr } : Part))
          (Cpa.captureFailed_latched .arm w p.phase p.clock.time .preempted (c.elapsed p.clock.time) c p.cpa)
      have hresult := hcmd.trans (State.next_part_congr (congrArg (Part.armAccept (some w.slot) (armRequest mode gain asked args)) htaken))
      rw [Part.armAccept_command w.slot _ (Part.givesSlot_taken .arm w (hfreed _ rfl)) rfl rfl, Part.armedIn_taken,
        Part.taken_doneOr _ _ _ _ _ (by simp [armResult]), armRequest_adjusted] at hresult
      obtain ⟨hold, hnew, hothers⟩ := find?_skipped_append (n := c.shot) (m := p.sht.counter) (l := p.sht.records)
        (z := newShot p.sht.counter slot (armRequest mode gain asked args) (planTimeOf (armRequest mode gain asked args) settings)
          p.clock.time p.temperature) (reason := .preempted) hx hunused rfl
      rw [hresult]
      refine ⟨_, rfl, rfl, rfl, rfl, rfl, ⟨rfl, rfl, rfl, rfl, hqueue, ⟨_, hold, rfl, rfl⟩, ⟨_, hnew, rfl, rfl, rfl, ?_⟩,
        hothers⟩, ?_⟩
      · rw [newShot_arming, armRequest_mode, armRequest_gain, armRequest_time, armRequest_plan, armRequest_auto]
        exact congrArg (fun t => Arming.mk mode gain (if mode = .timed then some time else none) plan t _ _ _) hat
      · rw [Part.captureFailureReported_eq, Part.statusDirty_eq, Part.emit_eq]
        simp only [decide_eq_true_eq]
        exact congrArg (fun data => (Part.answered .arm w cls code data (Part.armedIn slot (armRequest mode gain asked args)
            { p with
              cpa := p.cpa.captureFailed p.phase p.clock.time .preempted (c.elapsed p.clock.time) c
              sht := { p.sht with slots := freed, records := skippedIn c.shot .preempted p.sht.records }
              dfl := { p.dfl with capture := none, ending := none }, dpe := dpe
              esu := p.esu.stopped, icr := if c.phase = .read then p.icr.cleared else p.icr })).cpa) (hdata slot)
    · rw [hendCapture w s h hp hargs hpreempt hcounter hending hlive hcool hsupply,
        Part.endCapture_of_burst (p := p.taken .arm w) hc hending .preempted _ hphase hwork]
      rfl
    · rw [← hp] at hk hg hres he hcmd
      have hrow : exec .ingestCommit s = .next { s with part := p.ingestCommit } := by rw [hp]; rfl
      obtain ⟨dpe, -, heq⟩ := Part.captureSkipped_eq .preempted e.elapsed c
        { p with
          pts := { p.pts with answer := some ⟨true, []⟩, queue := p.pts.queue.tail, head := none }
          icr := { p.icr.cleared with work := none } }
      have hcommit : p.ingestCommit = Part.afterCapture (.arm n args) (Part.captureSkipped .preempted e.elapsed c
          { p with
            pts := { p.pts with answer := some ⟨true, []⟩, queue := p.pts.queue.tail, head := none }
            icr := { p.icr.cleared with work := none } }) := by
        rw [Part.ingestCommit_of_ending hk hstage hg hres he, Part.commitAnswered_of_dark hkind,
          Part.finishEnding_of_skipped (by exact hc) (by rw [hafter]; rintro _ _ ⟨⟩), hafter, harms, hreason]
        rfl
      rw [Part.afterCapture_arm hparse, heq, Part.armAccept_command n _ (.inl ⟨rfl, hslot, hlow⟩) rfl rfl] at hcommit
      obtain ⟨hold, hnew, -⟩ := find?_skipped_append (n := c.shot) (m := p.sht.counter) (l := p.sht.records)
        (z := newShot p.sht.counter slot (armRequest mode gain asked args) (planTimeOf (armRequest mode gain asked args) settings)
          p.clock.time p.temperature) (reason := .preempted) hx hunused rfl
      have hresult := hcommit.trans (congrArg (fun data => Part.doneOr n _ data _) (hdata slot))
      rw [armRequest_adjusted] at hresult
      have hended := Part.doneOr_hasEnded (n := n) (l := l) (p := Part.armedIn slot (armRequest mode gain asked args)
          { p with
            pts := { p.pts with answer := some ⟨true, []⟩, queue := p.pts.queue.tail, head := none }
            icr := { p.icr.cleared with work := none }
            cpa := p.cpa.captureFailed p.phase p.clock.time .preempted e.elapsed c
            sht := { p.sht with slots := freed, records := skippedIn c.shot .preempted p.sht.records }
            dfl := { p.dfl with capture := none, ending := none }, dpe := dpe })
        (by simp only [Part.armedIn, Cpa.handed_slots, Cpa.dirtied_slots, Cpa.captureFailed_slots]; exact hcmd) hopen
        (decide adjusted) (data := words slot) (by simp [words])
      simp only [decide_eq_true_eq] at hended
      rw [hrow, hresult]
      refine ⟨_, rfl, rfl, rfl, ?_⟩
      simp only [Part.doneOr_icr, Part.doneOr_dfl, Part.doneOr_esu, Part.doneOr_sht, Part.shot?]
      exact ⟨rfl, rfl, rfl, rfl, rfl, rfl, ⟨_, hold, rfl, rfl⟩, ⟨_, hnew, rfl, rfl⟩, hended⟩

end Sys2Proof.Machine
end

section
/-! PROOFS. PROTECT and UNPROTECT (R71 to R73), and RELEASE (R69, R70, R123, R143). -/

namespace Sys2Proof.Machine

/-! ## The end of a command in the slot of its host write -/

theorem Part.latched_endCommand_of {v : Verb} {w : SlotWrite} {c : Cpa} {p : Part} (hcpa : p.cpa = c.latched v w) (cls : ResultClass)
    (code : ResultCode) {data : List Word} (hd : data.length ≤ 24) :
    p.endCommand w.slot cls code data = { p with cpa := c.answered v w cls code data } := by
  have hp : p = { p with cpa := c.latched v w } := by rw [← hcpa]
  rw [hp]
  exact Part.latched_endCommand v w cls code c p hd

/-- With an event after a status write the command still stands in its slot. -/
theorem Cpa.latched_reported (v : Verb) (w : SlotWrite) (phase : Phase) (e : Event) (c : Cpa) :
    ((c.latched v w).dirtied phase).handed phase e = ((c.dirtied phase).handed phase e).latched v w := by
  rw [Cpa.latched_dirtied, Cpa.latched_handed]

/-- The CPA with a command's end taken holds its result data. -/
theorem Part.hasEnded_of_answered {v : Verb} {w : SlotWrite} {c : Cpa} {p : Part} {cls : ResultClass} {code : ResultCode}
    {data : List Word} (h : p.cpa = c.answered v w cls code data) : p.hasEnded w.slot cls code data := by
  unfold Part.hasEnded
  rw [h]
  exact Part.answered_hasEnded v w cls code data { p with cpa := c }

/-! ## The record a later command finds (R69) -/

theorem Part.keptShot?_eq_none {n : Word} {p : Part}
    (h : p.shot? n = none ∨ ∃ e m, p.dfl.ending = some e ∧ e.after = .release m n) : p.keptShot? n = none := by
  unfold Part.keptShot?
  rcases h with h | h
  · rw [h, ite_self]
  · rw [if_pos ((Part.releasing_iff n p).2 h)]

theorem Part.keptShot?_of_stays {n : Word} {x : Shot} {p : Part} (hx : p.shot? n = some x)
    (h : ¬∃ e m, p.dfl.ending = some e ∧ e.after = .release m n) : p.keptShot? n = some x :=
  Part.keptShot?_eq_some.2 ⟨Bool.eq_false_iff.2 (mt (Part.releasing_iff n p).1 h), hx⟩

/-! ## A slot released, and the record that goes with it (R61, R67) -/

theorem Part.freeSlot_eq (slot : Nat) (kind : FrameKind) (shot : Word) (p : Part) :
    p.freeSlot slot kind shot =
      { p with
        cpa := (p.cpa.dirtied p.phase).handed p.phase ⟨.slotReleased, shot, p.clock.time, [natWord slot, natWord kind.code]⟩
        sht := { p.sht with slots := p.sht.slots.set slot .free } } := by
  unfold Part.freeSlot
  rw [Part.emit_eq, Part.statusDirty_eq]
  rfl

theorem filter_map_number (n : Word) (f : Shot → Shot) (hf : ∀ t, (f t).number = t.number) (l : List Shot) :
    (l.map fun t => if t.number = n then f t else t).filter (fun t => decide (t.number ≠ n)) =
      l.filter fun t => decide (t.number ≠ n) := by
  induction l with
  | nil => rfl
  | cons t l ih =>
    by_cases h : t.number = n
    · simpa [h, hf] using ih
    · simpa [h] using ih

/-- The view of a shot that leaves is cleared, any other stays (R170). -/
theorem Part.clearViewOf_clears (n : Word) (p : Part) :
    (∀ v, p.prn.selection = some v → v.shot = n → (p.clearViewOf n).prn.selection = none ∧ (p.clearViewOf n).prn.cache = none) ∧
      ((∀ v, p.prn.selection = some v → v.shot ≠ n) → (p.clearViewOf n).prn = p.prn) := by
  refine ⟨fun v hv hn => ?_, fun h => ?_⟩
  · rw [Part.clearViewOf_of_selected hv hn]
    exact ⟨rfl, rfl⟩
  · rw [Part.clearViewOf_of_other h]

/-- RELEASE's result once nothing stands in its way: the record goes, its slot is FREE. -/
theorem Part.releaseNow_eq {n : Word} {x : Shot} {p q : Part} (slot : Fin 8) (hprn : p.prn = q.prn) (hx : p.shot? n = some x)
    (hdark : x.state.undeveloped = false ∨ DarkSource.unreferenced x.progress.dark = true) (hreq : p.requestFor n = none)
    (hprot : x.prot = false) :
    p.releaseNow slot x =
      Part.done slot [n, natWord x.slot, natWord x.state.code, natWord x.progress.storeCount]
        { p with
          cpa := (p.cpa.dirtied p.phase).handed p.phase ⟨.slotReleased, n, p.clock.time, [natWord x.slot, 0]⟩
          sht :=
            { p.sht with
              records := p.sht.records.filter fun y => decide (y.number ≠ n), slots := p.sht.slots.set x.slot .free }
          prn := (q.clearViewOf n).prn } := by
  unfold Part.releaseNow
  rw [Part.clearViewOf_prn n hprn.symm, Part.number_of_shot? hx, Part.removeShot_eq hx hdark hreq, Part.freeSlot_eq, Sht.without, hprot]
  rfl

theorem Part.afterCapture_release {n : Fin 8} {m : Word} {x : Shot} {p : Part} (h : p.shot? m = some x) :
    p.afterCapture (.release n m) = p.releaseNow n x := by
  unfold Part.afterCapture
  simp only [h]

/-! ## PROTECT and UNPROTECT -/

/-- The part with a shot's protection and the protected count replaced. -/
def Part.flagged (n : Word) (on : Bool) (count : Nat) (p : Part) : Part :=
  { p with
    sht :=
      { p.sht with
        records := p.sht.records.map fun y => if y.number = n then { y with prot := on } else y, protectedCount := count } }

theorem Part.flagged_taken (n : Word) (on : Bool) (count : Nat) (v : Verb) (w : SlotWrite) (p : Part) :
    (((p.taken v w).setProtect n on).setProtectedCount count).statusDirty = (p.flagged n on count).statusDirty.taken v w :=
  Part.taken_statusDirty v w (p.flagged n on count)

/-- Settles O36: the record that is found, its flag and the count decide. -/
theorem protectAndUnprotect : Obligations.ProtectAndUnprotect := by
  refine ⟨?protect, ?unprotect⟩
  case protect =>
    intro w s h p n count limit leaving
    have hexec {q : Part} (hq : cmdProtect w.slot (s.part.words w) (p.taken .protect w) = q) :
        exec (.protect w) s = .next { s with part := q } :=
      (exec_row_of_takes (v := .protect) (by decide) h).trans (State.next_part_congr hq)
    refine ⟨fun hgone => hexec ?_, fun x hx hstays => ?_⟩
    · have hkept : (p.taken .protect w).keptShot? n = none := Part.keptShot?_eq_none hgone
      unfold cmdProtect
      simp only [show argWord (s.part.words w) 0 = n from rfl, hkept]
      exact Part.taken_refuse _ _ _ _ _ (by simp)
    · have hkept : (p.taken .protect w).keptShot? n = some x := Part.keptShot?_of_stays hx hstays
      refine ⟨fun hprot => hexec ?_, fun hprot hfull => hexec ?_, fun hprot hroom => hexec ?_⟩
      · unfold cmdProtect
        simp only [show argWord (s.part.words w) 0 = n from rfl, hkept, hprot, if_true]
        exact Part.taken_done _ _ _ _ (by simp)
      · unfold cmdProtect
        simp only [show argWord (s.part.words w) 0 = n from rfl, hkept, hprot, Bool.false_eq_true, if_false]
        exact (if_pos hfull).trans (Part.taken_refuse _ _ _ _ _ (by simp))
      · unfold cmdProtect
        simp only [show argWord (s.part.words w) 0 = n from rfl, hkept, hprot, Bool.false_eq_true, if_false]
        have hmarked : (((p.taken .protect w).setProtect n true).setProtectedCount (count + 1)).statusDirty =
            Part.taken .protect w (Part.statusDirty
              { p with
                sht :=
                  { p.sht with
                    records := p.sht.records.map fun y => if y.number = n then { y with prot := true } else y
                    protectedCount := count + 1 } }) := Part.flagged_taken n true (count + 1) .protect w p
        rw [show (p.taken .protect w).sht.protectedCount = count from rfl, hmarked]
        exact (if_neg (Nat.not_lt.2 hroom)).trans (Part.taken_done _ _ _ _ (by simp))
  case unprotect =>
    intro w s h p n count cleared leaving
    have hexec {q : Part} (hq : cmdUnprotect w.slot (s.part.words w) (p.taken .unprotect w) = q) :
        exec (.unprotect w) s = .next { s with part := q } :=
      (exec_row_of_takes (v := .unprotect) (by decide) h).trans (State.next_part_congr hq)
    refine ⟨fun hgone => hexec ?_, fun x hx hstays => ?_⟩
    · have hkept : (p.taken .unprotect w).keptShot? n = none := Part.keptShot?_eq_none hgone
      unfold cmdUnprotect
      simp only [show argWord (s.part.words w) 0 = n from rfl, hkept]
      exact Part.taken_refuse _ _ _ _ _ (by simp)
    · have hkept : (p.taken .unprotect w).keptShot? n = some x := Part.keptShot?_of_stays hx hstays
      have hcleared : (((p.taken .unprotect w).setProtect n false).setProtectedCount (count - 1)).statusDirty =
          cleared.taken .unprotect w := Part.flagged_taken n false (count - 1) .unprotect w p
      have hfound : (cleared.taken .unprotect w).shot? n = some { x with prot := false } := by
        have hmod := Part.shot?_modShot (f := fun t => { t with prot := false }) (fun _ => rfl) n n p
        rw [if_pos rfl, hx] at hmod
        simp only [cleared, Part.shot?, Part.taken, Part.statusDirty_sht]
        exact hmod
      refine ⟨fun hprot => hexec ?_, fun hprot hkeep => hexec ?_, fun hprot hstored hauto hreq => ?_⟩
      · unfold cmdUnprotect
        simp only [show argWord (s.part.words w) 0 = n from rfl, hkept, hprot, Bool.false_eq_true, if_false]
        exact Part.taken_done _ _ _ _ (by simp)
      · have hnot : (cleared.taken .unprotect w).autoReleasable n = false := by
          unfold Part.autoReleasable
          rw [hfound]
          rcases hkeep with hstate | hauto | hreq
          · simp [hstate]
          · simp [hauto]
          · have hnamed : ((cleared.taken .unprotect w).requestFor n).isNone = false := by
              rw [Option.isNone_eq_false_iff, Option.isSome_iff_ne_none, Ne, Part.requestFor_eq_none_iff]
              obtain ⟨r, hr, hnames⟩ := hreq
              intro hall
              have := hall r (by simpa [cleared, Part.taken] using hr)
              rw [hnames] at this
              cases this
            simp [hnamed]
        unfold cmdUnprotect
        simp only [show argWord (s.part.words w) 0 = n from rfl, hkept, hprot, if_true]
        rw [show (p.taken .unprotect w).sht.protectedCount = count from rfl, hcleared, Part.autoRelease, hnot]
        exact Part.taken_done _ _ _ _ (by simp)
      · have hfree : (cleared.taken .unprotect w).requestFor n = none := by
          rw [Part.requestFor_eq_none_iff]
          simpa [cleared, Part.taken] using hreq
        have hreleasable : (cleared.taken .unprotect w).autoReleasable n = true := by
          unfold Part.autoReleasable
          rw [hfound]
          simp [hstored, hauto, hfree]
        have hcmd : cmdUnprotect w.slot (s.part.words w) (p.taken .unprotect w) =
            ((cleared.taken .unprotect w).removeShot n).done w.slot [natWord (count - 1), 1] := by
          unfold cmdUnprotect
          simp only [show argWord (s.part.words w) 0 = n from rfl, hkept, hprot, if_true]
          rw [show (p.taken .unprotect w).sht.protectedCount = count from rfl, hcleared, Part.autoRelease, hreleasable]
          rfl
        rw [Part.removeShot_eq hfound (.inl (by simp [hstored, ShotState.undeveloped])) hfree, Part.freeSlot_eq] at hcmd
        have hend := hcmd.trans (Part.latched_endCommand_of (v := .unprotect) (w := w) (Cpa.latched_reported .unprotect w _ _ cleared.cpa)
          .done .ok (by simp))
        refine ⟨_, hexec hend, rfl, rfl, ?_, ?_, Part.hasEnded_of_answered rfl⟩
        · simp only [cleared, Part.taken, Part.statusDirty_eq]
        · have hrecords := filter_map_number n (fun t => { t with prot := false }) (fun _ => rfl) p.sht.records
          simp only [cleared, Part.taken, Part.statusDirty_eq, Sht.without]
          exact congrArg (fun l : List Shot => ({ p.sht with
            records := l, slots := p.sht.slots.set x.slot .free, protectedCount := count - 1 } : Sht)) hrecords

/-! ## RELEASE -/

section Release
variable {slot : Fin 8} {args : List Word} {x : Shot} {p : Part} (hkept : p.keptShot? (argWord args 0) = some x) (hprot : x.prot = false)
  (hreq : p.requestFor (argWord args 0) = none)
include hkept hprot hreq

theorem cmdRelease_of_rest (h : x.state = .developed ∨ x.state = .stored) : cmdRelease slot args p = p.releaseNow slot x := by
  unfold cmdRelease
  simp only [hkept, hprot, Bool.false_eq_true, if_false, hreq]
  rcases h with h | h <;> rw [h]

theorem cmdRelease_of_waiting (h : x.state = .awaitDark) (hc : p.dfl.capture.isSome = true) (hending : p.dfl.ending = none) :
    cmdRelease slot args p = p.endCapture .cancelled (.release slot (argWord args 0)) := by
  unfold cmdRelease
  simp only [hkept, hprot, Bool.false_eq_true, if_false, hreq]
  rw [h]
  exact if_pos ⟨hc, hending⟩

theorem cmdRelease_of_busy
    (h : x.state ∈ [.arming, .armed, .exposing, .settling, .reading, .developing] ∨
      (x.state = .awaitDark ∧ (p.dfl.capture = none ∨ p.dfl.ending.isSome = true))) :
    cmdRelease slot args p = p.refuse slot .busy [natWord x.state.code] := by
  unfold cmdRelease
  simp only [hkept, hprot, Bool.false_eq_true, if_false, hreq]
  rcases h with h | ⟨hwait, h⟩
  · cases hstate : x.state with
    | arming | armed | exposing | settling | reading | developing => rfl
    | awaitDark | developed | storing | stored => simp [hstate] at h
  · rw [hwait]
    refine if_neg fun hidle => ?_
    rcases h with h | h
    · rw [h] at hidle; exact Bool.noConfusion hidle.1
    · rw [hidle.2] at h; cases h

end Release

/-- A capture ended by a RELEASE, with no burst of it under way: then the shot's record is removed. -/
theorem Part.endCapture_release {c : Capture} {p : Part} (hc : p.dfl.capture = some c) (hnone : p.dfl.ending = none)
    (reason : DarkReason) (n : Fin 8) (m : Word) (hfree : c.phase ≠ .read ∨ p.icr.work = none) :
    p.endCapture reason (.release n m) =
      Part.afterCapture (.release n m)
        { p with
          cpa := p.cpa.captureFailed p.phase p.clock.time reason (c.elapsed p.clock.time) c
          sht := { p.sht with slots := p.sht.slots.set c.slot .free }, dfl := { p.dfl with capture := none, ending := none }
          esu := p.esu.stopped, icr := if c.phase = .read then p.icr.cleared else p.icr } := by
  rw [Part.endCapture_of_free hc hnone reason _ hfree, Part.finishEnding_of_release (n := n) (m := m) (by exact hc) rfl,
    Part.captureFreed_eq, Part.emit_eq]
  rfl

/-- Settles O37: the refusals in their order, the removal of a record that is at rest, and the end of the capture first. -/
theorem releaseRemovesTheShot : Obligations.ReleaseRemovesTheShot := by
  unfold Obligations.ReleaseRemovesTheShot
  intro viewCleared
  refine ⟨?command, ?commit⟩
  case command =>
    intro w s h p n leaving stopped
    have hexec {q : Part} (hq : cmdRelease w.slot (s.part.words w) (p.taken .release w) = q) :
        exec (.release w) s = .next { s with part := q } :=
      (exec_row_of_takes (v := .release) (by decide) h).trans (State.next_part_congr hq)
    refine ⟨fun hgone => hexec ?_, fun x hx hstays => ?_⟩
    · have hkept : (p.taken .release w).keptShot? n = none := Part.keptShot?_eq_none hgone
      unfold cmdRelease
      simp only [show argWord (s.part.words w) 0 = n from rfl, hkept]
      exact Part.taken_refuse _ _ _ _ _ (by simp)
    · have hkept : (p.taken .release w).keptShot? n = some x := Part.keptShot?_of_stays hx hstays
      refine ⟨fun hprot => hexec ?_, fun hprot => ⟨fun r hr => hexec ?_, fun hreq => ?_⟩⟩
      · unfold cmdRelease
        simp only [show argWord (s.part.words w) 0 = n from rfl, hkept, hprot, if_true]
        exact Part.taken_refuse _ _ _ _ _ (by simp)
      · have hr : (p.taken .release w).requestFor n = some r := hr
        unfold cmdRelease
        simp only [show argWord (s.part.words w) 0 = n from rfl, hkept, hprot, Bool.false_eq_true, if_false, hr]
        exact Part.taken_refuse _ _ _ _ _ (by simp)
      · have hfree : (p.taken .release w).requestFor n = none := hreq
        refine ⟨fun hbusy => hexec ?_, fun hrest => ?_, fun c hstate hc hending hdark => ⟨fun hidle => ?_, fun hphase hwork => hexec ?_⟩⟩
        · exact (cmdRelease_of_busy hkept hprot hfree hbusy).trans (Part.taken_refuse _ _ _ _ _ (by simp))
        · have hcmd : cmdRelease w.slot (s.part.words w) (p.taken .release w) = _ :=
            ((cmdRelease_of_rest hkept hprot hfree hrest).trans (Part.releaseNow_eq w.slot (q := p) rfl hx
              (.inl (by rcases hrest with h | h <;> rw [h] <;> rfl)) hfree hprot)).trans
              (Part.latched_endCommand_of (Cpa.latched_reported .release w _ _ p.cpa) .done .ok (by simp))
          have hview := Part.clearViewOf_clears n p
          exact ⟨_, hexec hcmd, rfl, rfl, rfl, rfl, hview, by rw [Part.number_of_shot? hx]; exact Part.hasEnded_of_answered rfl⟩
        · have hend := ((cmdRelease_of_waiting hkept hprot hfree hstate (Option.isSome_iff_exists.2 ⟨c, hc⟩) hending).trans
            (Part.endCapture_release (p := p.taken .release w) hc hending .cancelled w.slot n hidle)).trans
            ((Part.afterCapture_release (by exact hx)).trans (Part.releaseNow_eq w.slot (q := p) rfl (by exact hx) (.inr (by rw [hdark]; rfl))
              (by exact hfree) hprot))
          have hcpa : (((p.taken .release w).cpa.captureFailed p.phase p.clock.time .cancelled (c.elapsed p.clock.time) c).dirtied
              p.phase).handed p.phase ⟨.slotReleased, n, p.clock.time, [natWord x.slot, 0]⟩ =
              (((p.cpa.captureFailed p.phase p.clock.time .cancelled (c.elapsed p.clock.time) c).dirtied p.phase).handed p.phase
                ⟨.slotReleased, n, p.clock.time, [natWord x.slot, 0]⟩).latched .release w :=
            (congrArg (fun y : Cpa => (y.dirtied p.phase).handed p.phase ⟨.slotReleased, n, p.clock.time, [natWord x.slot, 0]⟩)
              (Cpa.captureFailed_latched .release w _ _ _ _ c p.cpa)).trans (Cpa.latched_reported .release w _ _ _)
          have hcmd := hend.trans (Part.latched_endCommand_of hcpa .done .ok (by simp))
          refine ⟨_, hexec hcmd, rfl, rfl, rfl, ?_, rfl, rfl, rfl, rfl, ?_⟩
          · exact Part.clearViewOf_clears n p
          · rw [Part.captureFailureReported_eq, Part.statusDirty_eq, Part.emit_eq]
            rfl
        · exact (cmdRelease_of_waiting hkept hprot hfree hstate (Option.isSome_iff_exists.2 ⟨c, hc⟩) hending).trans
            (Part.endCapture_of_burst (p := p.taken .release w) hc hending .cancelled _ hphase hwork)
  case commit =>
    intro s x g c e n m l z hwork hstage hg hkind hres hc he hafter harms hcmd hopen hz hstate hdark hprot hreq
    have hcommit := Part.ingestCommit_of_ending hwork hstage hg hres he
    rw [Part.commitAnswered_of_dark hkind, Part.finishEnding_of_release (n := n) (m := m) (by exact hc) hafter,
      Part.captureFreed_eq, Part.emit_eq, hafter, harms, Part.afterCapture_release (by exact hz),
      Part.releaseNow_eq n (q := s.part) (by rfl) (by exact hz) (.inr (by rw [hdark]; rfl)) (by exact hreq) hprot] at hcommit
    have hframe := hcommit.trans (Part.endCommand_frame n .done .ok _ _)
    have hrow : exec .ingestCommit s = .next { s with part := s.part.ingestCommit } := rfl
    refine ⟨_, hrow.trans (State.next_part_congr hframe), rfl, rfl, rfl, Part.clearViewOf_clears m s.part, rfl, rfl, rfl, rfl, rfl, ?_⟩
    exact Part.hasEnded_of_open (l := l) (by simpa using hcmd) hopen .done .ok (by simp)

end Sys2Proof.Machine
end

section
/-! PROOFS. DISARM (R102), SET_DARK_POLICY (R110, R111) and SKIP_DARK (R123, R125, R143). -/

namespace Sys2Proof.Machine

/-- Work that leaves the card queue as it was chooses no request. -/
theorem Part.choosing_of_requests {work : Part → Part} {p q : Part} (h : work p = q) (hq : q.cde.requests = p.cde.requests) :
    Part.choosing work p = q := by
  rcases Part.choosing_cases work p with ⟨_, hw⟩ | ⟨hne, _⟩
  · exact hw.trans h
  · exact absurd (h ▸ hq) hne

theorem Part.taken_freeSlot (v : Verb) (w : SlotWrite) (slot : Nat) (kind : FrameKind) (shot : Word) (p : Part) :
    (p.taken v w).freeSlot slot kind shot = (p.freeSlot slot kind shot).taken v w := by
  have hset : (p.taken v w).setHolder slot .free = (p.setHolder slot .free).taken v w := rfl
  unfold Part.freeSlot
  rw [hset, Part.taken_statusDirty, Part.taken_emit]

/-! ## DISARM -/

section Disarm
variable {x : Shot} {n : Word} {slot : Fin 8} {args : List Word} {p : Part} (harg : argWord args 0 = n) (hx : p.shot? n = some x)
include harg hx

/-- A shot before READING has its sequence stopped and its record removed. -/
theorem disarmShot_of_early (hstate : x.state ∈ [ShotState.arming, .armed, .exposing, .settling]) :
    disarmShot slot args p =
      Part.done slot [natWord x.state.code]
        (Part.removeShot n (Part.emit .shotDisarmed n [natWord x.state.code] { p with esu := p.esu.stopped })) := by
  unfold disarmShot
  simp only [harg, hx]
  cases hs : x.state with
  | arming | armed | exposing | settling => rfl
  | reading | awaitDark | developing | developed | storing | stored => simp [hs] at hstate

theorem disarmShot_of_abandoned (hstate : x.state = .reading) (hab : x.exposure.abandoned = true) :
    disarmShot slot args p = p.done slot [natWord 4] := by
  unfold disarmShot
  simp only [harg, hx, hstate, hab, if_true]
  rfl

theorem disarmShot_of_reading (hstate : x.state = .reading) (hab : x.exposure.abandoned = false) :
    disarmShot slot args p =
      Part.done slot [natWord 4]
        (Part.emit .shotDisarmed n [natWord 4] (p.modExposure n fun e => { e with abandoned := true })) := by
  unfold disarmShot
  simp only [harg, hx, hstate, hab, Bool.false_eq_true, if_false]
  rfl

theorem disarmShot_of_late (hstate : x.state ∈ [ShotState.awaitDark, .developing, .developed, .storing, .stored]) :
    disarmShot slot args p = p.refuse slot .busy [natWord x.state.code] := by
  unfold disarmShot
  simp only [harg, hx]
  cases hs : x.state with
  | awaitDark | developing | developed | storing | stored => rfl
  | arming | armed | exposing | settling | reading => simp [hs] at hstate

end Disarm

/-- A removed record without a dark's reference, a request or a view: only its slot and the protected count change. -/
theorem Part.removeShot_taken {n : Word} {x : Shot} {p : Part} (v : Verb) (w : SlotWrite) (hx : p.shot? n = some x)
    (hdark : DarkSource.unreferenced x.progress.dark = true) (hreq : p.requestFor n = none)
    (hview : ∀ y, p.prn.selection = some y → y.shot ≠ n) :
    (p.taken v w).removeShot n = (Part.freeSlot x.slot .shot n { p with sht := p.sht.without n x }).taken v w := by
  rw [Part.removeShot_eq (p := p.taken v w) (by exact hx) (.inr hdark) hreq, ← Part.taken_freeSlot,
    Part.clearViewOf_of_other (by exact hview)]
  rfl

/-- The part without a disarmed shot, before anything is reported. -/
def Part.disarmed (n : Word) (x : Shot) (p : Part) : Part :=
  { p with esu := p.esu.stopped, sht := { p.sht.without n x with slots := p.sht.slots.set x.slot .free } }

/-- The slot's release comes after the disarming, whatever the order in which the record and the slot leave. -/
theorem Part.disarmed_reported (n : Word) (x : Shot) (data : List Word) (p : Part) :
    Part.freeSlot x.slot .shot n { Part.emit .shotDisarmed n data { p with esu := p.esu.stopped } with sht := p.sht.without n x } =
      Part.emit .slotReleased n [natWord x.slot, 0] (Part.statusDirty (Part.emit .shotDisarmed n data (p.disarmed n x))) := by
  have hset : Part.setHolder x.slot .free { Part.emit .shotDisarmed n data { p with esu := p.esu.stopped } with sht := p.sht.without n x } =
      Part.emit .shotDisarmed n data (p.disarmed n x) := by
    rw [Part.emit_eq, Part.emit_eq]
    rfl
  unfold Part.freeSlot
  rw [hset]
  rfl

/-- DISARM of a shot before READING, of a host write. -/
theorem disarmShot_taken_of_early {x : Shot} {n : Word} {w : SlotWrite} {args : List Word} {p : Part} (harg : argWord args 0 = n)
    (hx : p.shot? n = some x) (hstate : x.state ∈ [ShotState.arming, .armed, .exposing, .settling])
    (hdark : DarkSource.unreferenced x.progress.dark = true) (hreq : ∀ r ∈ p.cde.requests, r.names n = false)
    (hview : ∀ y, p.prn.selection = some y → y.shot ≠ n) :
    disarmShot w.slot args (p.taken .disarm w) =
      Part.answered .disarm w .done .ok [natWord x.state.code]
        (Part.emit .slotReleased n [natWord x.slot, 0]
          (Part.statusDirty (Part.emit .shotDisarmed n [natWord x.state.code] (p.disarmed n x)))) := by
  rw [← Part.disarmed_reported]
  generalize hq : Part.emit .shotDisarmed n [natWord x.state.code] { p with esu := p.esu.stopped } = q
  have hframe : q.sht = p.sht ∧ q.cde = p.cde ∧ q.prn = p.prn := by rw [← hq, Part.emit_eq]; exact ⟨rfl, rfl, rfl⟩
  obtain ⟨hsht, hcde, hprn⟩ := hframe
  have hemit : Part.emit .shotDisarmed n [natWord x.state.code] { p.taken .disarm w with esu := p.esu.stopped } = q.taken .disarm w := by
    rw [← hq, ← Part.taken_emit]
    rfl
  have hearly := disarmShot_of_early (p := p.taken .disarm w) (slot := w.slot) harg hx hstate
  rw [Part.taken_esu, hemit, Part.removeShot_taken (x := x) .disarm w (by unfold Part.shot?; rw [hsht]; exact hx) hdark
    ((Part.requestFor_eq_none_iff n q).2 (by rw [hcde]; exact hreq)) (by rw [hprn]; exact hview), hsht] at hearly
  rw [hearly]
  exact Part.taken_done _ _ _ _ (by simp)

theorem Part.taken_modExposure (v : Verb) (w : SlotWrite) (n : Word) (f : Exposure → Exposure) (p : Part) :
    (p.taken v w).modExposure n f = (p.modExposure n f).taken v w := rfl

theorem Part.taken_modProgress (v : Verb) (w : SlotWrite) (n : Word) (f : Progress → Progress) (p : Part) :
    (p.taken v w).modProgress n f = (p.modProgress n f).taken v w := rfl

/-- DISARM of a shot in READING that is not yet marked, of a host write. -/
theorem disarmShot_taken_of_reading {x : Shot} {n : Word} {w : SlotWrite} {args : List Word} {p : Part} (harg : argWord args 0 = n)
    (hx : p.shot? n = some x) (hstate : x.state = .reading) (hab : x.exposure.abandoned = false) :
    disarmShot w.slot args (p.taken .disarm w) =
      Part.answered .disarm w .done .ok [natWord 4]
        (Part.emit .shotDisarmed n [natWord 4] (p.modExposure n fun e => { e with abandoned := true })) := by
  rw [disarmShot_of_reading (p := p.taken .disarm w) harg hx hstate hab, Part.taken_modExposure, Part.taken_emit]
  exact Part.taken_done _ _ _ _ (by simp)

/-! ## The library is trimmed (R111) -/

/-- Induction over a list that grows at its end, as a fold from the left takes it. -/
theorem snoc_induction {α : Type} {motive : List α → Prop} (nil : motive [])
    (snoc : ∀ l a, motive l → motive (l ++ [a])) (l : List α) : motive l := by
  rw [← List.reverse_reverse l]
  induction l.reverse with
  | nil => exact nil
  | cons a l ih => rw [List.reverse_cons]; exact snoc _ _ ih

/-- Of two entries with no reference, the later one only if its stamp is lower. -/
theorem leastUsed_append (l : List Dark) (e : Dark) :
    leastUsed (l ++ [e]) =
      if e.refs = 0 then
        (leastUsed l).elim (some e) fun b => if e.stamp.toNat < b.stamp.toNat then some e else some b
      else leastUsed l := by
  unfold leastUsed
  rw [List.foldl_append, List.foldl_cons, List.foldl_nil]
  split
  · cases List.foldl _ none l <;> rfl
  · rfl

/-- The least used entry is one with no reference and the lowest stamp of those, none when all are referenced. -/
theorem leastUsed_spec (l : List Dark) :
    (leastUsed l = none ∧ ∀ f ∈ l, f.refs ≠ 0) ∨
      ∃ e ∈ l, leastUsed l = some e ∧ e.refs = 0 ∧ ∀ f ∈ l, f.refs = 0 → e.stamp.toNat ≤ f.stamp.toNat := by
  induction l using snoc_induction with
  | nil => exact .inl ⟨rfl, by simp⟩
  | snoc l a ih =>
    rw [leastUsed_append]
    by_cases ha : a.refs = 0
    · right
      rw [if_pos ha]
      rcases ih with ⟨hnone, hall⟩ | ⟨e, he, hsome, href, hleast⟩
      · rw [hnone]
        refine ⟨a, by simp, rfl, ha, fun f hf hf0 => ?_⟩
        rcases List.mem_append.1 hf with hf | hf
        · exact absurd hf0 (hall f hf)
        · exact Nat.le_of_eq (by rw [List.mem_singleton.1 hf])
      · rw [hsome]
        by_cases hlt : a.stamp.toNat < e.stamp.toNat
        · refine ⟨a, by simp, if_pos hlt, ha, fun f hf hf0 => ?_⟩
          rcases List.mem_append.1 hf with hf | hf
          · exact Nat.le_trans (Nat.le_of_lt hlt) (hleast f hf hf0)
          · exact Nat.le_of_eq (by rw [List.mem_singleton.1 hf])
        · refine ⟨e, by simp [he], if_neg hlt, href, fun f hf hf0 => ?_⟩
          rcases List.mem_append.1 hf with hf | hf
          · exact hleast f hf hf0
          · rw [List.mem_singleton.1 hf]; exact Nat.not_lt.1 hlt
    · rw [if_neg ha]
      rcases ih with ⟨hnone, hall⟩ | ⟨e, he, hsome, href, hleast⟩
      · refine .inl ⟨hnone, fun f hf => ?_⟩
        rcases List.mem_append.1 hf with hf | hf
        · exact hall f hf
        · rw [List.mem_singleton.1 hf]; exact ha
      · refine .inr ⟨e, by simp [he], hsome, href, fun f hf hf0 => ?_⟩
        rcases List.mem_append.1 hf with hf | hf
        · exact hleast f hf hf0
        · rw [List.mem_singleton.1 hf] at hf0; exact absurd hf0 ha

/-- What a trim to a size takes out of the library: entries with no reference, lowest stamp first, no more than the size asks. -/
structure Trims (size : Nat) (entries removed : List Dark) : Prop where
  unreferenced : ∀ e ∈ removed, e ∈ entries ∧ e.refs = 0
  counted : removed.length + (removed.foldl List.erase entries).length = entries.length
  ascending : removed.Pairwise fun e f => e.stamp.toNat ≤ f.stamp.toNat
  least : ∀ e ∈ removed, ∀ f ∈ removed.foldl List.erase entries, f.refs = 0 → e.stamp.toNat ≤ f.stamp.toNat
  needed : removed ≠ [] → size ≤ (removed.foldl List.erase entries).length

theorem Trims.nil (size : Nat) (entries : List Dark) : Trims size entries [] :=
  ⟨by simp, by simp, .nil, by simp, by simp⟩

theorem mem_of_mem_foldl_erase {f : Dark} (removed entries : List Dark) (h : f ∈ removed.foldl List.erase entries) : f ∈ entries := by
  induction removed generalizing entries with
  | nil => exact h
  | cons e removed ih => exact List.mem_of_mem_erase (ih _ h)

theorem Trims.cons {size : Nat} {entries removed : List Dark} {e : Dark} (he : e ∈ entries) (href : e.refs = 0)
    (hleast : ∀ f ∈ entries, f.refs = 0 → e.stamp.toNat ≤ f.stamp.toNat) (hsize : size < entries.length)
    (h : Trims size (entries.erase e) removed) : Trims size entries (e :: removed) where
  unreferenced f hf := by
    rcases List.mem_cons.1 hf with rfl | hf
    · exact ⟨he, href⟩
    · exact ⟨List.mem_of_mem_erase (h.unreferenced f hf).1, (h.unreferenced f hf).2⟩
  counted := by
    have hlen := List.length_erase_of_mem he
    have hpos := List.length_pos_of_mem he
    have := h.counted
    rw [List.foldl_cons, List.length_cons]
    omega
  ascending := List.pairwise_cons.2
    ⟨fun f hf => hleast f (List.mem_of_mem_erase (h.unreferenced f hf).1) (h.unreferenced f hf).2, h.ascending⟩
  least f hf g hg hg0 := by
    have hmem := mem_of_mem_foldl_erase removed _ hg
    rcases List.mem_cons.1 hf with rfl | hf
    · exact hleast g (List.mem_of_mem_erase hmem) hg0
    · exact h.least f hf g hg hg0
  needed _ := by
    have hlen := List.length_erase_of_mem he
    rw [List.foldl_cons]
    cases removed with
    | nil => exact Nat.le_trans (Nat.le_sub_one_of_lt hsize) (Nat.le_of_eq hlen.symm)
    | cons f removed => exact h.needed (List.cons_ne_nil _ _)

theorem Part.removeEntry_dfl (e : Dark) (p : Part) : (p.removeEntry e).dfl = { p.dfl with entries := p.dfl.entries.erase e } := by
  unfold Part.removeEntry
  rw [Part.freeSlot_eq]
  rfl

theorem Part.foldl_removeEntry_dfl (removed : List Dark) (p : Part) :
    (removed.foldl (fun q e => q.removeEntry e) p).dfl = { p.dfl with entries := removed.foldl List.erase p.dfl.entries } := by
  induction removed generalizing p with
  | nil => rfl
  | cons e removed ih => rw [List.foldl_cons, ih, Part.removeEntry_dfl, List.foldl_cons]

theorem Part.taken_foldl_removeEntry (v : Verb) (w : SlotWrite) (removed : List Dark) (p : Part) :
    removed.foldl (fun q e => q.removeEntry e) (p.taken v w) = (removed.foldl (fun q e => q.removeEntry e) p).taken v w := by
  induction removed generalizing p with
  | nil => rfl
  | cons e removed ih =>
    have hone : (p.taken v w).removeEntry e = (p.removeEntry e).taken v w :=
      Part.taken_freeSlot v w e.slot .dark e.origin (p.dropEntry e)
    rw [List.foldl_cons, hone, ih, List.foldl_cons]

/-- The trim of the library removes entries one by one, until it fits or all are referenced. -/
theorem Part.trimLibrary_eq (fuel : Nat) (p : Part) :
    ∃ removed, p.trimLibrary fuel = removed.foldl (fun q e => q.removeEntry e) p ∧ Trims p.dfl.policy.size p.dfl.entries removed ∧
      (p.dfl.entries.length ≤ fuel →
        (removed.foldl List.erase p.dfl.entries).length ≤ p.dfl.policy.size ∨ ∀ f ∈ removed.foldl List.erase p.dfl.entries, f.refs ≠ 0) := by
  induction fuel generalizing p with
  | zero => exact ⟨[], rfl, .nil _ _, fun h => .inl (Nat.le_trans h (Nat.zero_le _))⟩
  | succ fuel ih =>
    unfold Part.trimLibrary
    by_cases hsize : p.dfl.policy.size < p.dfl.entries.length
    · rw [if_pos hsize]
      rcases leastUsed_spec p.dfl.entries with ⟨hnone, hall⟩ | ⟨e, he, hsome, href, hleast⟩
      · rw [hnone]
        exact ⟨[], rfl, .nil _ _, fun _ => .inr hall⟩
      · rw [hsome]
        obtain ⟨removed, heq, htrims, hend⟩ := ih (p.removeEntry e)
        rw [Part.removeEntry_dfl] at htrims hend
        have hlen := List.length_erase_of_mem he
        exact ⟨e :: removed, heq, .cons he href hleast hsize htrims, fun h => hend (by rw [hlen]; omega)⟩
    · rw [if_neg hsize]
      exact ⟨[], rfl, .nil _ _, fun _ => .inl (Nat.not_lt.1 hsize)⟩

/-! ## SET_DARK_POLICY -/

theorem darkModeOf_code (mode : DarkMode) : darkModeOf mode.code = some mode := by cases mode <;> rfl

theorem darkModeOf_of_ge {n : Nat} (h : 3 ≤ n) : darkModeOf n = none := by
  obtain ⟨k, rfl⟩ := Nat.exists_eq_add_of_le' h
  rfl

theorem natWord_eq_iff {n : Nat} (h : n < 4294967296) (x : Word) : natWord n = x ↔ n = x.toNat := by
  rw [← BitVec.toNat_inj, natWord_toNat h]

/-- The policy that SET_DARK_POLICY's words ask for. -/
def Policy.asked (mode : DarkMode) (args : List Word) : Policy :=
  ⟨mode, max 1 (min (args.getD 1 0).toNat 60), min (args.getD 2 0).toNat 4, min (args.getD 3 0).toNat 4095⟩

theorem parsePolicy_of_mode {mode : DarkMode} {args : List Word} (h : (args.getD 0 0).toNat = mode.code) :
    parsePolicy args = .ok (.asked mode args) := by
  have hmode : argNat args 0 = mode.code := h
  unfold parsePolicy
  simp only [hmode, darkModeOf_code, Policy.asked, clampNat_eq_max (show 1 ≤ 60 by decide), clampNat_eq_max (Nat.zero_le _),
    Nat.zero_max]
  rfl

/-- A value was changed exactly if one of the three numbers was. -/
theorem Policy.words_asked_ne_iff {mode : DarkMode} {args : List Word} (h : (args.getD 0 0).toNat = mode.code) :
    (Policy.asked mode args).words ≠ (List.range 4).map (argWord args) ↔
      (Policy.asked mode args).threshold ≠ (args.getD 1 0).toNat ∨ (Policy.asked mode args).size ≠ (args.getD 2 0).toNat ∨
        (Policy.asked mode args).pedestal ≠ (args.getD 3 0).toNat := by
  have hcode : mode.code < 4294967296 := by cases mode <;> decide
  have hwords : (List.range 4).map (argWord args) = [args.getD 0 0, args.getD 1 0, args.getD 2 0, args.getD 3 0] := rfl
  rw [hwords]
  unfold Policy.words Policy.asked
  simp only [ne_eq, List.cons.injEq, and_true, natWord_eq_iff hcode, h, true_and]
  rw [natWord_eq_iff (by omega), natWord_eq_iff (by omega), natWord_eq_iff (by omega)]
  rw [Classical.not_and_iff_not_or_not, Classical.not_and_iff_not_or_not]

section SetDarkPolicy
variable {mode : DarkMode} {args : List Word} {slot : Fin 8} {p : Part} (hmode : (args.getD 0 0).toNat = mode.code)
include hmode

theorem cmdSetDarkPolicy_of_work {data : List Word} (hped : (Policy.asked mode args).pedestal ≠ p.dfl.policy.pedestal)
    (hwork : p.correctionWork = some data) : cmdSetDarkPolicy slot args p = p.refuse slot .busy data := by
  unfold cmdSetDarkPolicy
  simp only [parsePolicy_of_mode hmode, if_pos hped, hwork]

/-- With no work of correction in the way the policy is replaced, and the library trimmed where its size falls. -/
theorem cmdSetDarkPolicy_of_rest (hrest : (Policy.asked mode args).pedestal = p.dfl.policy.pedestal ∨ p.correctionWork = none) :
    ∃ removed, cmdSetDarkPolicy slot args p =
        Part.doneOr slot (decide ((Policy.asked mode args).words ≠ (List.range 4).map (argWord args)))
          ((Policy.asked mode args).words ++ [natWord removed.length])
          (removed.foldl (fun q e => q.removeEntry e) { p with dfl := { p.dfl with policy := .asked mode args } }) ∧
      Trims (Policy.asked mode args).size p.dfl.entries removed ∧
      (p.dfl.policy.size ≤ (Policy.asked mode args).size → removed = []) ∧
      ((Policy.asked mode args).size < p.dfl.policy.size →
        (removed.foldl List.erase p.dfl.entries).length ≤ (Policy.asked mode args).size ∨
          ∀ f ∈ removed.foldl List.erase p.dfl.entries, f.refs ≠ 0) := by
  have hnone : (if (Policy.asked mode args).pedestal ≠ p.dfl.policy.pedestal then p.correctionWork else none) = none := by
    rcases hrest with h | h
    · exact if_neg (not_not_intro h)
    · rw [h, ite_self]
  by_cases hsize : (Policy.asked mode args).size < p.dfl.policy.size
  · obtain ⟨removed, heq, htrims, hend⟩ :=
      Part.trimLibrary_eq p.dfl.entries.length { p with dfl := { p.dfl with policy := .asked mode args } }
    have hcount : p.dfl.entries.length - (removed.foldl List.erase p.dfl.entries).length = removed.length :=
      Nat.sub_eq_of_eq_add htrims.counted.symm
    refine ⟨removed, ?_, htrims, fun h => absurd hsize (Nat.not_lt.2 h), fun _ => hend (Nat.le_refl _)⟩
    unfold cmdSetDarkPolicy
    simp only [parsePolicy_of_mode hmode, hnone]
    rw [if_pos hsize, heq, Part.foldl_removeEntry_dfl, hcount]
  · refine ⟨[], ?_, .nil _ _, fun _ => rfl, fun h => absurd h hsize⟩
    unfold cmdSetDarkPolicy
    simp only [parsePolicy_of_mode hmode, hnone]
    rw [if_neg hsize, Nat.sub_self]
    rfl

end SetDarkPolicy

/-! ## SKIP_DARK -/

section SkipDark
variable {x : Shot} {n : Word} {slot : Fin 8} {args : List Word} {p : Part} (harg : argWord args 0 = n) (hx : p.shot? n = some x)
include harg hx

theorem cmdSkipDark_of_reading (hstate : x.state = .reading) (hdark : x.progress.dark = some (.capture .capturing none)) :
    cmdSkipDark slot args p =
      Part.done slot []
        (Part.emit .darkFailed n [natWord DarkReason.cancelled.code, 0]
          (p.modProgress n fun g => { g with dark := some (.skipped .cancelled) })) := by
  unfold cmdSkipDark
  simp only [harg, hx, hstate, hdark]

theorem cmdSkipDark_of_waiting {c : Capture} (hstate : x.state = .awaitDark) (hc : p.dfl.capture = some c) (hnone : p.dfl.ending = none) :
    cmdSkipDark slot args p = p.endCapture .cancelled (.skip slot c.phase) := by
  unfold cmdSkipDark
  simp only [harg, hx, hstate, hc, hnone, Option.isSome_none, Bool.false_eq_true, if_false]

theorem cmdSkipDark_of_other
    (h : x.state ∉ [ShotState.reading, .awaitDark] ∨ (x.state = .reading ∧ x.progress.dark ≠ some (.capture .capturing none)) ∨
      (x.state = .awaitDark ∧ (p.dfl.capture = none ∨ p.dfl.ending.isSome = true))) :
    cmdSkipDark slot args p = p.refuse slot .notFound [natWord x.state.code] := by
  unfold cmdSkipDark
  simp only [harg, hx]
  rcases h with h | ⟨hstate, hdark⟩ | ⟨hstate, hend⟩
  · cases hs : x.state with
    | reading | awaitDark => simp [hs] at h
    | arming | armed | exposing | settling | developing | developed | storing | stored => rfl
  · simp only [hstate]
    split
    · next heq => cases heq
    · next heq => exact absurd heq hdark
    · rfl
  · simp only [hstate]
    rcases hend with hnone | hsome
    · rw [hnone]
    · cases p.dfl.capture with
      | none => rfl
      | some c => exact if_pos hsome

end SkipDark

/-- What the commit of a burst does to its shot's progress (R132, R133, R137). -/
def Progress.moved (w : IngestWork) (g : Progress) : Progress :=
  { g with
    cursor := w.to_, gaps := gapsWith g.gaps w.gap, lowClamps := g.lowClamps + w.low, highClamps := g.highClamps + w.high
    ingestGap := g.ingestGap || (w.gap.isSome && !false)
    gapMerged := g.gapMerged || (w.gap.isSome && !Nat.blt g.gaps.length Config.maxGaps)
    readTimeout := g.readTimeout || false }

/-- A burst of a SHOT target moves that shot's cursor, a DARK's the target's own: no record joins or leaves. -/
theorem Part.commitAnswered_eq (w : IngestWork) (t : Target) (p : Part) :
    ∃ f : Shot → Shot, (∀ y, (f y).number = y.number) ∧
      p.commitAnswered w t =
        { p with
          sht := { p.sht with records := p.sht.records.map fun y => if y.number = t.number then f y else y }
          pts := { p.pts with answer := some ⟨true, []⟩, queue := p.pts.queue.tail, head := none }
          icr := { p.icr.cleared with work := none } } := by
  cases hkind : t.kind with
  | dark =>
    refine ⟨id, fun _ => rfl, ?_⟩
    have hid : (p.sht.records.map fun y => if y.number = t.number then id y else y) = p.sht.records := by simp
    rw [Part.commitAnswered_of_dark hkind, hid]
  | shot =>
    refine ⟨fun y => { y with progress := y.progress.moved w }, fun _ => rfl, ?_⟩
    unfold Part.commitAnswered Part.moveCursor
    rw [hkind]
    rfl

/-- Settles O35: DISARM by the shot's state, the new policy with the trim of the library, and the three cases of SKIP_DARK. -/
theorem disarmDarkPolicyAndSkipDark : Obligations.DisarmDarkPolicyAndSkipDark := by
  refine ⟨?disarm, ?policy, ?skip, ?commit⟩
  case disarm =>
    intro w s h p n
    have hexec {q : Part} (hq : disarmShot w.slot (s.part.words w) (p.taken .disarm w) = q) (hcde : q.cde.requests = p.cde.requests) :
        exec (.disarm w) s = .next { s with part := q } :=
      (exec_row_of_takes (v := .disarm) (by decide) h).trans (State.next_part_congr (Part.choosing_of_requests hq hcde))
    have harg : argWord (s.part.words w) 0 = n := rfl
    refine ⟨fun hnone => hexec ?_ rfl, fun x hx => ⟨fun hstate hdark hreq hview => ?_, fun hstate hab => hexec ?_ rfl,
      fun hstate hab => hexec ?_ (by rw [Part.emit_eq]; rfl), fun hstate => hexec ?_ rfl⟩⟩
    · have hnone : (p.taken .disarm w).shot? n = none := hnone
      unfold disarmShot
      simp only [harg, hnone]
      exact Part.taken_refuse _ _ _ _ _ (by simp)
    · exact hexec (disarmShot_taken_of_early harg hx hstate (by rw [hdark]; rfl) hreq hview)
        (by rw [Part.emit_eq, Part.statusDirty_eq, Part.emit_eq]; rfl)
    · exact (disarmShot_of_abandoned (p := p.taken .disarm w) harg hx hstate hab).trans (Part.taken_done _ _ _ _ (by simp))
    · exact disarmShot_taken_of_reading harg hx hstate hab
    · exact (disarmShot_of_late (p := p.taken .disarm w) harg hx hstate).trans (Part.taken_refuse _ _ _ _ _ (by simp))
  case policy =>
    intro w s h p args arg
    have hexec {q : Part} (hq : cmdSetDarkPolicy w.slot args (p.taken .setDarkPolicy w) = q) :
        exec (.setDarkPolicy w) s = .next { s with part := q } :=
      (exec_row_of_takes (v := .setDarkPolicy) (by decide) h).trans (State.next_part_congr hq)
    refine ⟨fun hbad => hexec ?_, fun mode hmode => ?_⟩
    · have hparse : parsePolicy args = .bad 0 := by
        have hnone : darkModeOf (argNat args 0) = none := darkModeOf_of_ge hbad
        unfold parsePolicy
        simp only [hnone]
      unfold cmdSetDarkPolicy
      simp only [hparse]
      exact Part.taken_refuse _ _ _ _ _ (by simp)
    · intro x adjusted cls code words
      refine ⟨fun y hped hy hfirst => hexec ?_, fun c hped hc hfirst => hexec ?_, fun hrest => ?_⟩
      · exact (cmdSetDarkPolicy_of_work (p := p.taken .setDarkPolicy w) hmode hped (Part.correctionWork_of_shot (by exact hy) hfirst)).trans
          (Part.taken_refuse _ _ _ _ _ (by simp [shotAtWork]))
      · exact (cmdSetDarkPolicy_of_work (p := p.taken .setDarkPolicy w) hmode hped (Part.correctionWork_of_capture (by exact hc) hfirst)).trans
          (Part.taken_refuse _ _ _ _ _ (by simp [captureAtWork]))
      · have hwork : x.pedestal = p.dfl.policy.pedestal ∨ (p.taken .setDarkPolicy w).correctionWork = none :=
          hrest.imp_right fun h => Part.correctionWork_of_rest
            (fun y hy => by simpa [ShotState.inCorrection_eq] using h.1 y hy) h.2
        obtain ⟨removed, hcmd, htrims, hkeep, hfit⟩ := cmdSetDarkPolicy_of_rest (p := p.taken .setDarkPolicy w) (slot := w.slot) hmode hwork
        refine ⟨removed, ?_, htrims.unreferenced, htrims.counted, htrims.ascending, htrims.least, hkeep, htrims.needed, hfit⟩
        have hlen : (x.words ++ [natWord removed.length]).length ≤ 24 := by simp [Policy.words]
        have htaken := Part.taken_foldl_removeEntry .setDarkPolicy w removed { p with dfl := { p.dfl with policy := x } }
        have hadjusted := Policy.words_asked_ne_iff hmode
        refine (hexec (hcmd.trans ((congrArg (Part.doneOr w.slot _ _) htaken).trans (Part.taken_doneOr _ _ _ _ _ hlen)))).trans
          (State.next_part_congr ?_)
        simp only [decide_eq_true_eq, hadjusted]
        rfl
  case skip =>
    intro w s h p n stopped
    have hexec {q : Part} (hq : cmdSkipDark w.slot (s.part.words w) (p.taken .skipDark w) = q) :
        exec (.skipDark w) s = .next { s with part := q } :=
      (exec_row_of_takes (v := .skipDark) (by decide) h).trans (State.next_part_congr hq)
    have harg : argWord (s.part.words w) 0 = n := rfl
    refine ⟨fun hnone => hexec ?_, fun x hx => ⟨fun hstate hdark => hexec ?_, fun hother => hexec ?_,
      fun c hstate hc hshot hending => ⟨fun hidle => ?_, fun hphase hwork => hexec ?_⟩⟩⟩
    · have hnone : (p.taken .skipDark w).shot? n = none := hnone
      unfold cmdSkipDark
      simp only [harg, hnone]
      exact Part.taken_refuse _ _ _ _ _ (by simp)
    · rw [cmdSkipDark_of_reading (p := p.taken .skipDark w) harg hx hstate hdark, Part.taken_modProgress, Part.taken_emit]
      exact Part.taken_done _ _ _ _ (by simp)
    · exact (cmdSkipDark_of_other (p := p.taken .skipDark w) harg hx hother).trans (Part.taken_refuse _ _ _ _ _ (by simp))
    · have hend := (cmdSkipDark_of_waiting (p := p.taken .skipDark w) (slot := w.slot) harg hx hstate hc hending).trans
        (Part.endCapture_skipped (p := p.taken .skipDark w) hc hending .cancelled (after := .skip w.slot c.phase) (by rintro _ _ ⟨⟩) hidle)
      obtain ⟨dpe, hqueue, hskipped⟩ := Part.captureSkipped_eq .cancelled (c.elapsed p.clock.time) c
        { p.taken .skipDark w with
          esu := (p.taken .skipDark w).esu.stopped
          icr := if c.phase = .read then (p.taken .skipDark w).icr.cleared else (p.taken .skipDark w).icr }
      have hcmd := hend.trans ((congrArg (Part.afterCapture (.skip w.slot c.phase)) hskipped).trans
        (Part.latched_endCommand_of (Cpa.captureFailed_latched .skipDark w _ _ _ _ c p.cpa) .done .ok (by simp)))
      refine ⟨_, x.skipped .cancelled, hexec hcmd, rfl, rfl, rfl, rfl, rfl, rfl, rfl, hqueue.trans (by rw [hshot]; rfl), ?_, rfl, rfl,
        Part.hasEnded_of_answered rfl⟩
      exact (find?_skippedIn c.shot n .cancelled p.sht.records).trans (by rw [if_pos hshot.symm, hshot]; exact congrArg _ hx)
    · rw [cmdSkipDark_of_waiting (p := p.taken .skipDark w) harg hx hstate hc hending,
        Part.endCapture_of_burst (p := p.taken .skipDark w) hc hending .cancelled _ hphase hwork, hphase]
      rfl
  case commit =>
    intro s x g c e n l z hwork hstage hg hres hc he hafter harms hcmd hopen hz
    obtain ⟨f, hnumber, hanswered⟩ := Part.commitAnswered_eq x g s.part
    have hcommit := Part.ingestCommit_of_ending hwork hstage hg hres he
    obtain ⟨z', hmoved⟩ : ∃ z', (s.part.sht.records.map fun y => if y.number = g.number then f y else y).find?
        (fun y => decide (y.number = c.shot)) = some z' := by
      rw [find?_map_number g.number c.shot hnumber]
      have hz : s.part.sht.records.find? (fun y => decide (y.number = c.shot)) = some z := hz
      split
      · next heq => exact ⟨f z, by rw [← heq, hz]; rfl⟩
      · exact ⟨z, hz⟩
    rw [hanswered, Part.finishEnding_of_skipped (c := c) (by exact hc) (by rw [hafter]; rintro _ _ ⟨⟩), hafter, harms] at hcommit
    obtain ⟨dpe, -, hskipped⟩ := Part.captureSkipped_eq e.reason e.elapsed c
      { s.part with
        sht := { s.part.sht with records := s.part.sht.records.map fun y => if y.number = g.number then f y else y }
        pts := { s.part.pts with answer := some ⟨true, []⟩, queue := s.part.pts.queue.tail, head := none }
        icr := { s.part.icr.cleared with work := none } }
    have hframe := hcommit.trans ((congrArg (Part.afterCapture (.skip n .read)) hskipped).trans (Part.endCommand_frame n .done .ok _ _))
    have hrow : exec .ingestCommit s = .next { s with part := s.part.ingestCommit } := rfl
    refine ⟨_, z'.skipped e.reason, hrow.trans (State.next_part_congr hframe), rfl, rfl, rfl, rfl, rfl, rfl, rfl, ?_, rfl, rfl, rfl, ?_⟩
    · exact (find?_skippedIn c.shot c.shot e.reason _).trans (by rw [if_pos rfl, hmoved]; rfl)
    · exact Part.hasEnded_of_open (l := l) (by simpa using hcmd) hopen .done .ok (by simp)

end Sys2Proof.Machine
end

section
/-! PROOFS. SET_SYNC and SNAPSHOT (R79, R80, R104). -/

namespace Sys2Proof.Machine

/-! ## SET_SYNC -/

section SetSync
variable {args : List Word}

theorem parseSync_of_badMode (h : 2 ≤ argNat args 7) : parseSync args = .bad 7 := by
  obtain ⟨k, hk⟩ := Nat.exists_eq_add_of_le' h
  unfold parseSync
  rw [hk]
  rfl

variable {mode : ShotMode} (hmode : argNat args 7 = mode.code)
include hmode

theorem parseSync_of_badGain (h : 7 < argNat args 8) : parseSync args = .bad 8 := by
  unfold parseSync
  rw [hmode, shotModeOf_code]
  exact if_pos h

variable (hgain : argNat args 8 ≤ 7)
include hgain

theorem parseSync_of_badPlan (h : 3 ≤ argNat args 10) : parseSync args = .bad 10 := by
  unfold parseSync
  rw [hmode, shotModeOf_code, strobePlanOf_of_ge h]
  exact if_neg (Nat.not_lt.2 hgain)

/-- The settings SET_SYNC's words ask for, clamped (R79). -/
def SyncSettings.asked (mode : ShotMode) (plan : StrobePlan) (arg : Nat → Nat) : SyncSettings :=
  ⟨max 0 (min (arg 0) 1000), max 500 (min (arg 1) 20000), max 1 (min (arg 2) 600), max 0 (min (arg 3) 100000),
    max 100 (min (arg 4) 10000), max 10 (min (arg 5) 1000), max 0 (min (arg 6) 10000), mode, arg 8,
    max 1000 (min (arg 9) 1800000000), if mode = .sync ∧ plan = .last then .first else plan, max 0 (min (arg 11) 1800000000)⟩

theorem parseSync_of_good {plan : StrobePlan} (hplan : argNat args 10 = plan.code) :
    parseSync args = .ok (.asked mode plan (argNat args)) := by
  have h1 := clampNat_eq_max (show 500 ≤ 20000 by decide)
  have h2 := clampNat_eq_max (show 1 ≤ 600 by decide)
  have h4 := clampNat_eq_max (show 100 ≤ 10000 by decide)
  have h5 := clampNat_eq_max (show 10 ≤ 1000 by decide)
  have h9 := clampNat_eq_max (lo := 1000) (hi := 1800000000) (by omega)
  unfold parseSync
  rw [hmode, hplan, shotModeOf_code, strobePlanOf_code]
  refine (if_neg (Nat.not_lt.2 hgain)).trans ?_
  simp only [h1, h2, h4, h5, h9, clampNat_eq_max (Nat.zero_le _), SyncSettings.asked]

end SetSync

/-- A list of words is that of the arguments exactly if each is. -/
theorem ne_map_range_iff (words : List Word) (f : Nat → Word) (n : Nat) (hn : words.length = n) :
    words ≠ (List.range n).map f ↔ ∃ i < n, words.getD i 0 ≠ f i := by
  constructor
  · intro hne
    refine Classical.byContradiction fun hall => hne (List.ext_getElem (by simpa using hn) fun i hi hi' => ?_)
    have hword : words.getD i 0 = f i := Classical.byContradiction fun h => hall ⟨i, hn ▸ hi, h⟩
    rw [List.getD_eq_getElem?_getD, List.getElem?_eq_getElem hi, Option.getD_some] at hword
    rw [hword, List.getElem_map, List.getElem_range]
  · rintro ⟨i, hi, hne⟩ heq
    exact hne (by rw [heq]; simp [List.getD, hi])

/-! ## SNAPSHOT -/

/-- An edge in the picture, zeros where there is none. -/
def edgeWords (o : Option Edge) : List Word := o.elim [0, 0] fun e => [e.time, if e.closing then 1 else 0]

/-- The last four edges, oldest first, and zeros up to eight words. -/
theorem padTo_lastEdges (edges : List Edge) :
    padTo 8 0 ((edges.drop (edges.length - 4)).flatMap fun e => [e.time, flagWord e.closing]) =
      edgeWords edges[edges.length - 4 + 0]? ++ edgeWords edges[edges.length - 4 + 1]? ++ edgeWords edges[edges.length - 4 + 2]? ++
        edgeWords edges[edges.length - 4 + 3]? := by
  have hlen : (edges.drop (edges.length - 4)).length ≤ 4 := by rw [List.length_drop]; omega
  simp only [← List.getElem?_drop]
  generalize edges.drop (edges.length - 4) = last at hlen ⊢
  match last, hlen with
  | [], _ => rfl
  | [a], _ => rfl
  | [a, b], _ => rfl
  | [a, b, c], _ => rfl
  | [a, b, c, d], _ => rfl
  | a :: b :: c :: d :: e :: l, h => simp only [List.length_cons] at h; omega

theorem natWord_of_toNat (x : Word) : natWord x.toNat = x := BitVec.eq_of_toNat_eq (natWord_toNat x.isLt)

/-- The picture of the sequencer, for what it shows of the shot it serves. -/
def Part.picture (number state elapsed : Word) (edges : List Edge) (overflow : Word) (p : Part) : List Word :=
  [p.clock.time, natWord p.esu.seq.code, number, state, elapsed, if p.esu.contact then 0 else 1] ++ edgeWords edges[edges.length - 4 + 0]? ++
    edgeWords edges[edges.length - 4 + 1]? ++ edgeWords edges[edges.length - 4 + 2]? ++ edgeWords edges[edges.length - 4 + 3]? ++
    [natWord edges.length, overflow, if p.esu.staged.isSome then 1 else 0]

/-- The elapsed integration, while SENSOR_INTEG is high. -/
def Part.integrated (p : Part) : Word := if p.esu.integLine then p.clock.time - p.integrationSince.getD p.clock.time else 0

section Snapshot
variable {p : Part}

theorem Part.picture_length (number state elapsed : Word) (edges : List Edge) (overflow : Word) :
    (p.picture number state elapsed edges overflow).length ≤ 24 := by
  have hwords (o : Option Edge) : (edgeWords o).length = 2 := by cases o <;> rfl
  simp [Part.picture, hwords]

theorem Part.taken_picture (v : Verb) (w : SlotWrite) (number state elapsed : Word) (edges : List Edge) (overflow : Word) :
    (p.taken v w).picture number state elapsed edges overflow = p.picture number state elapsed edges overflow := rfl

theorem Part.snapshot_eq :
    p.snapshot =
      p.picture ((p.servedShot.map fun x => x.number).getD 0) (natWord ((p.servedShot.map fun x => x.state.code).getD 0)) p.integrated
        (if p.esu.seq.isShot then (p.servedShot.map fun x => x.exposure.edges).getD [] else [])
        (if p.esu.seq.isShot then (p.servedShot.map fun x => x.exposure.edgeOverflow).getD 0 else 0) := by
  have helapsed : natWord (if p.esu.integLine then (p.now - p.integrationSince.getD p.now).toNat else 0) = p.integrated := by
    unfold Part.integrated
    split
    · exact natWord_of_toNat _
    · rfl
  unfold Part.snapshot Part.picture
  simp only [padTo_lastEdges, helapsed]
  simp only [flagWord, List.append_assoc]

theorem Part.integrated_of_low (h : p.esu.integLine = false) : p.integrated = 0 := by
  unfold Part.integrated
  rw [h]
  rfl

theorem Part.integrated_of_high {start : Word} (h : p.esu.integLine = true) (hstart : p.integrationSince = some start) :
    p.integrated = p.clock.time - start := by
  unfold Part.integrated
  rw [h, hstart]
  rfl

theorem Part.snapshot_of_idle (h : p.esu.seq = .idle) :
    p.snapshot = p.picture 0 0 0 [] 0 := by
  have hserved : p.servedShot = none := by unfold Part.servedShot; rw [h]
  have hsince : p.integrationSince = none := by unfold Part.integrationSince; rw [h]
  have helapsed : p.integrated = 0 := by
    unfold Part.integrated
    rw [hsince]
    split
    · exact BitVec.sub_self _
    · rfl
  rw [Part.snapshot_eq, hserved, helapsed, h]
  rfl

theorem Part.snapshot_of_shot {x : Shot} (hseq : p.esu.seq ∈ [Seq.shotFlush, .shotIntegrate, .shotRead]) (hx : p.currentShot = some x) :
    p.snapshot = p.picture x.number (natWord x.state.code) p.integrated x.exposure.edges x.exposure.edgeOverflow := by
  have hserved : p.servedShot = some x ∧ p.esu.seq.isShot = true := by
    unfold Part.servedShot
    simp only [List.mem_cons, List.not_mem_nil, or_false] at hseq
    rcases hseq with h | h | h <;> rw [h] <;> exact ⟨hx, rfl⟩
  rw [Part.snapshot_eq, hserved.1, hserved.2]
  rfl

theorem Part.snapshot_of_dark {c : Capture} {x : Shot} (hseq : p.esu.seq ∈ [Seq.darkFlush, .darkIntegrate, .darkRead])
    (hc : p.dfl.capture = some c) (hx : p.shot? c.shot = some x) :
    p.snapshot = p.picture x.number (natWord x.state.code) p.integrated [] 0 := by
  have hserved : p.servedShot = some x ∧ p.esu.seq.isShot = false := by
    unfold Part.servedShot
    rw [hc]
    simp only [List.mem_cons, List.not_mem_nil, or_false] at hseq
    rcases hseq with h | h | h <;> rw [h] <;> exact ⟨hx, rfl⟩
  rw [Part.snapshot_eq, hserved.1, hserved.2]
  rfl

end Snapshot

/-- Settles O34: the words parsed and made active or staged; the picture, by what the sequencer does. -/
theorem setSyncAndSnapshot : Obligations.SetSyncAndSnapshot := by
  refine ⟨?accepted, ?malformed, ?snapshot⟩
  case accepted =>
    intro w mode plan s h p arg limited x words changed hmode hgain hplan
    have hexec {q : Part} (hq : cmdSetSync w.slot (s.part.words w) (p.taken .setSync w) = q) :
        exec (.setSync w) s = .next { s with part := q } :=
      (exec_row_of_takes (v := .setSync) (by decide) h).trans (State.next_part_congr hq)
    have hparse : parseSync (s.part.words w) = .ok x := parseSync_of_good hmode hgain hplan
    have hchanged : words ≠ (List.range 12).map (argWord (s.part.words w)) ↔ changed := ne_map_range_iff words _ 12 rfl
    refine ⟨if changed then .doneAdjusted else .done, if changed then .adjusted else .ok, fun h => ⟨if_pos h, if_pos h⟩,
      fun h => ⟨if_neg h, if_neg h⟩, hexec ?_⟩
    unfold cmdSetSync
    simp only [hparse]
    have hadjusted : decide (x.words ≠ (List.range 12).map (argWord (s.part.words w))) = decide changed := decide_eq_decide.2 hchanged
    rw [hadjusted]
    by_cases hseq : p.esu.seq = .idle
    · rw [if_pos hseq]
      refine (if_pos hseq).trans ((Part.taken_doneOr _ _ _ _ { p with esu := { p.esu with active := x, staged := none } } (by simp [SyncSettings.words])).trans ?_)
      simp only [decide_eq_true_eq]
      rfl
    · rw [if_neg hseq]
      refine (if_neg hseq).trans ((Part.taken_doneOr _ _ _ _ { p with esu := { p.esu with staged := some x } } (by simp [SyncSettings.words])).trans ?_)
      simp only [decide_eq_true_eq]
      rfl
  case malformed =>
    intro w s h args bad
    have hbad {i : Nat} (hparse : parseSync args = .bad i) :
        exec (.setSync w) s = .next { s with part := (s.part.entered .setSync).answered .setSync w .refused .badArg [natWord i] } := by
      refine (exec_row_of_takes (v := .setSync) (by decide) h).trans (State.next_part_congr ?_)
      have hparse : parseSync (s.part.words w) = .bad i := hparse
      show cmdSetSync _ _ _ = _
      unfold cmdSetSync
      simp only [hparse]
      exact Part.taken_refuse _ _ _ _ _ (by simp)
    refine ⟨fun hmode => hbad (parseSync_of_badMode hmode), fun hmode hgain => ?_, fun hmode hgain hplan => ?_⟩
    · obtain ⟨mode, -, hcode⟩ := shotModeOf_of_lt hmode
      exact hbad (parseSync_of_badGain hcode.symm hgain)
    · obtain ⟨mode, -, hcode⟩ := shotModeOf_of_lt hmode
      exact hbad (parseSync_of_badPlan hcode.symm hgain hplan)
  case snapshot =>
    intro w s h p pair shows
    have hpair (edges : List Edge) (i : Nat) : pair edges i = edgeWords edges[edges.length - 4 + i]? := by
      show (match edges[edges.length - 4 + i]? with | some e => [e.time, if e.closing then 1 else 0] | none => [0, 0]) = _
      cases edges[edges.length - 4 + i]? <;> rfl
    have hshows {number state elapsed : Word} {edges : List Edge} {overflow : Word}
        (heq : (p.taken .snapshot w).snapshot = (p.taken .snapshot w).picture number state elapsed edges overflow) :
        shows number state elapsed edges overflow := by
      rw [Part.taken_picture] at heq
      refine (exec_row_of_takes (v := .snapshot) (by decide) h).trans (State.next_part_congr ?_)
      rw [hpair, hpair, hpair, hpair]
      exact (congrArg (fun l => Part.done w.slot l (p.taken .snapshot w)) heq).trans
        (Part.taken_done _ _ _ _ (Part.picture_length _ _ _ _ _))
    clear_value shows
    refine ⟨fun hseq => ?_, fun x hseq hx => ?_, fun c x hseq hc hx => ?_⟩
    · exact hshows (Part.snapshot_of_idle (p := p.taken .snapshot w) hseq)
    · have hpicture := Part.snapshot_of_shot (p := p.taken .snapshot w) hseq hx
      refine ⟨fun hlow => hshows ?_, fun start hhigh hint hstart => hshows ?_⟩
      · rw [hpicture, Part.integrated_of_low (by exact hlow)]
      · have hsince : (p.taken .snapshot w).integrationSince = some start := by
          have hcurrent : (p.taken .snapshot w).currentShot = some x := hx
          unfold Part.integrationSince
          rw [Part.taken_esu, hint, hcurrent]
          exact hstart
        rw [hpicture, Part.integrated_of_high (by exact hhigh) hsince]
        rfl
    · have hpicture := Part.snapshot_of_dark (p := p.taken .snapshot w) hseq hc hx
      refine ⟨fun hlow => hshows ?_, fun start hhigh hint hstart => hshows ?_⟩
      · rw [hpicture, Part.integrated_of_low (by exact hlow)]
      · have hsince : (p.taken .snapshot w).integrationSince = some start := by
          have hcapture : (p.taken .snapshot w).dfl.capture = some c := hc
          unfold Part.integrationSince
          rw [Part.taken_esu, hint, hcapture]
          exact hstart
        rw [hpicture, Part.integrated_of_high (by exact hhigh) hsince]
        rfl

end Sys2Proof.Machine
end

section
/-! PROOFS. VIEW_SELECT (R168, R169), CARD_INIT (R184) and the dark decision (R117, R118). -/

namespace Sys2Proof.Machine

/-! ## VIEW_SELECT -/

theorem Part.taken_select (v : Verb) (w : SlotWrite) (x : Option Selection) (p : Part) :
    (p.taken v w).select x = (p.select x).taken v w := rfl

theorem ShotState.viewable_eq (st : ShotState) :
    st.viewable = decide (st ∉ [ShotState.arming, .armed, .exposing, .settling]) := by cases st <;> rfl

section ViewSelect
variable {args : List Word} {n : Word} {x : Shot} {slot : Fin 8} {p : Part} (harg : argWord args 0 = n) (hn : n ≠ 0)
include harg hn

theorem cmdViewSelect_of_unknown (hx : p.shot? n = none) : cmdViewSelect slot args p = p.refuse slot .notFound [] := by
  unfold cmdViewSelect
  simp only [harg, if_neg hn, hx]

variable (hx : p.shot? n = some x)
include hx

theorem cmdViewSelect_of_early (hstate : x.state ∈ [ShotState.arming, .armed, .exposing, .settling]) :
    cmdViewSelect slot args p = p.refuse slot .busy [natWord x.state.code] := by
  have hview : x.state.viewable = false := by rw [ShotState.viewable_eq]; exact decide_eq_false (not_not_intro hstate)
  unfold cmdViewSelect
  simp only [harg, if_neg hn, hx, hview, Bool.not_false, if_true]

variable (hstate : x.state ∉ [ShotState.arming, .armed, .exposing, .settling])
include hstate

theorem cmdViewSelect_of_badCurve (hcurve : p.cal.tables.tone.length ≤ argNat args 1) :
    cmdViewSelect slot args p = p.refuse slot .badArg [1, natWord p.cal.tables.tone.length] := by
  have hview : x.state.viewable = true := by rw [ShotState.viewable_eq]; exact decide_eq_true hstate
  unfold cmdViewSelect
  simp only [harg, if_neg hn, hx, hview, Bool.not_true, Bool.false_eq_true, if_false, if_pos hcurve]

variable (hcurve : argNat args 1 < p.cal.tables.tone.length)
include hcurve

theorem cmdViewSelect_of_badBalance {data : List Word} (hwb : parseBalance p.cal.tables.wb.length args = .inr data) :
    cmdViewSelect slot args p = p.refuse slot .badArg data := by
  have hview : x.state.viewable = true := by rw [ShotState.viewable_eq]; exact decide_eq_true hstate
  unfold cmdViewSelect
  simp only [harg, if_neg hn, hx, hview, Bool.not_true, Bool.false_eq_true, if_false, if_neg (Nat.not_le.2 hcurve), hwb]

theorem cmdViewSelect_of_good {wb : WhiteBalance} {adjusted : Bool} {g : Nat × Nat × Nat}
    (hwb : parseBalance p.cal.tables.wb.length args = .inl (wb, adjusted)) (hg : p.cal.tables.gains wb = g) :
    cmdViewSelect slot args p =
      (p.select (some ⟨n, argNat args 1, wb⟩)).doneOr slot adjusted
        [n, natWord x.state.code, natWord (argNat args 1), natWord g.1, natWord g.2.1, natWord g.2.2, natWord p.geo.previewBytes,
          natWord p.geo.previewRow] := by
  have hview : x.state.viewable = true := by rw [ShotState.viewable_eq]; exact decide_eq_true hstate
  unfold cmdViewSelect
  simp only [harg, if_neg hn, hx, hview, Bool.not_true, Bool.false_eq_true, if_false, if_neg (Nat.not_le.2 hcurve), hwb, hg]

end ViewSelect

section Balance
variable {args : List Word} {presets : Nat}

theorem parseBalance_of_badKind (h : 2 ≤ argNat args 2) : parseBalance presets args = .inr [2] := by
  obtain ⟨k, hk⟩ := Nat.exists_eq_add_of_le' h
  unfold parseBalance
  rw [hk]
  rfl

theorem parseBalance_of_badPreset (h : argNat args 2 = 0) (hi : presets ≤ argNat args 3) :
    parseBalance presets args = .inr [3, natWord presets] := by
  unfold parseBalance
  rw [h]
  exact if_neg (Nat.not_lt.2 hi)

theorem parseBalance_of_preset (h : argNat args 2 = 0) (hi : argNat args 3 < presets) :
    parseBalance presets args = .inl (.preset (argNat args 3), false) := by
  unfold parseBalance
  rw [h]
  exact if_pos hi

/-- A gain given directly, clamped (R168). -/
def directGain (arg : Nat → Nat) (k : Nat) : Nat := max 2048 (min (arg k) 16383)

theorem parseBalance_of_direct (h : argNat args 2 = 1) :
    parseBalance presets args =
      .inl (.direct (directGain (argNat args) 4) (directGain (argNat args) 5) (directGain (argNat args) 6),
        decide (directGain (argNat args) 4 ≠ argNat args 4 ∨ directGain (argNat args) 5 ≠ argNat args 5 ∨
          directGain (argNat args) 6 ≠ argNat args 6)) := by
  have hgain (k : Nat) : clampNat 2048 16383 (argNat args k) = directGain (argNat args) k := clampNat_eq_max (by decide) _
  unfold parseBalance
  rw [h]
  simp only [hgain]
  refine congrArg (fun b => Sum.inl (_, b)) (Bool.eq_iff_iff.2 ?_)
  simp [or_assoc]

end Balance

theorem Tables.gains_preset {t : Tables} {i : Nat} {g : Nat × Nat × Nat} (h : t.wb[i]? = some g) : t.gains (.preset i) = g := by
  have hi : i < t.wb.length := (List.getElem?_eq_some_iff.1 h).1
  have hindex : indexIn t.wb.length i = i := if_pos hi
  unfold Tables.gains
  simp only [hindex, List.getD, h, Option.getD_some]

/-- Settles O39: number 0, then the checks in their order, then the selection. -/
theorem viewSelectReplacesTheSelection : Obligations.ViewSelectReplacesTheSelection := by
  intro w s h p args n arg refused with_
  have hexec {q : Part} (hq : cmdViewSelect w.slot args (p.taken .viewSelect w) = q) : exec (.viewSelect w) s = .next { s with part := q } :=
    (exec_row_of_takes (v := .viewSelect) (by decide) h).trans (State.next_part_congr hq)
  have hrefused {code : ResultCode} {data : List Word} (hd : data.length ≤ 24)
      (hq : cmdViewSelect w.slot args (p.taken .viewSelect w) = (p.taken .viewSelect w).refuse w.slot code data) : refused code data :=
    hexec (hq.trans (Part.taken_refuse _ _ _ _ _ hd))
  have harg : argWord args 0 = n := rfl
  clear_value refused
  refine ⟨fun hn => hexec ?_, fun hn hx => hrefused (by simp) (cmdViewSelect_of_unknown (p := p.taken .viewSelect w) harg hn hx),
    fun x hn hx => ⟨fun hstate => ?_, fun hstate => ⟨fun hcurve => ?_, fun hcurve => ⟨fun hkind => ?_, fun hkind hi => ?_,
      fun g hkind hg => hexec ?_, fun hkind => ?_⟩⟩⟩⟩
  · unfold cmdViewSelect
    simp only [harg, hn, if_true]
    exact Part.taken_done _ _ _ (p.select none) (by simp)
  · exact hrefused (by simp) (cmdViewSelect_of_early (p := p.taken .viewSelect w) harg hn hx hstate)
  · exact hrefused (by simp) (cmdViewSelect_of_badCurve (p := p.taken .viewSelect w) harg hn hx hstate hcurve)
  · exact hrefused (by simp)
      (cmdViewSelect_of_badBalance (p := p.taken .viewSelect w) harg hn hx hstate hcurve (parseBalance_of_badKind hkind))
  · exact hrefused (by simp)
      (cmdViewSelect_of_badBalance (p := p.taken .viewSelect w) harg hn hx hstate hcurve (parseBalance_of_badPreset hkind hi))
  · rw [cmdViewSelect_of_good (p := p.taken .viewSelect w) harg hn hx hstate hcurve
      (parseBalance_of_preset hkind (List.getElem?_eq_some_iff.1 hg).1) (Tables.gains_preset hg), Part.taken_select]
    exact Part.taken_doneOr _ _ _ _ _ (by simp)
  · intro gain adjusted
    refine hexec ?_
    rw [cmdViewSelect_of_good (p := p.taken .viewSelect w) harg hn hx hstate hcurve (parseBalance_of_direct hkind) rfl, Part.taken_select]
    refine (Part.taken_doneOr _ _ _ _ _ (by simp)).trans ?_
    simp only [decide_eq_true_eq]
    rfl

/-! ## CARD_INIT -/

theorem cardPolicyOf_code (policy : CardPolicy) : cardPolicyOf policy.code = some policy := by cases policy <;> rfl

theorem cardPolicyOf_of_ge {k : Nat} (h : 2 ≤ k) : cardPolicyOf k = none := by
  obtain ⟨i, rfl⟩ := Nat.exists_eq_add_of_le' h
  rfl

section CardInit
variable {args : List Word} {policy : CardPolicy} {slot : Fin 8} {p : Part} (hpolicy : cardPolicyOf (argNat args 0) = some policy)
include hpolicy

theorem cmdCardInit_of_absent (h : p.cde.card = .absent) : cmdCardInit slot args p = p.refuse slot .noCard [] := by
  unfold cmdCardInit
  simp only [hpolicy, h, if_true]

theorem cmdCardInit_of_initializing (h : p.cde.card = .initializing) : cmdCardInit slot args p = p.refuse slot .busy [] := by
  unfold cmdCardInit
  simp [hpolicy, h]

theorem cmdCardInit_of_active {r : Request} (h : p.cde.card = .ready) (hr : p.cde.activeRequest = some r) :
    cmdCardInit slot args p = p.refuse slot .busy [natWord r.id] := by
  unfold cmdCardInit
  simp [hpolicy, h, hr]

theorem cmdCardInit_of_rest (h : p.cde.card = .present ∨ p.cde.card = .fault ∨ (p.cde.card = .ready ∧ p.cde.activeRequest = none)) :
    cmdCardInit slot args p =
      Part.emit .cardState 0 [2]
        (Part.statusDirty
          { p with
            cde :=
              { p.cde with
                policy := policy, clock := .slow, card := .initializing, capacity := none
                bringup := some ⟨slot, .reset, some ⟨p.clock.time, 1000⟩, none, none, 0, false⟩ } }) := by
  have hnot : p.cde.card ≠ .absent ∧ p.cde.card ≠ .initializing ∧ (if p.cde.card = .ready then p.cde.activeRequest else none) = none := by
    rcases h with h | h | ⟨h, hr⟩
    · simp [h]
    · simp [h]
    · simp [h, hr]
  obtain ⟨habsent, hinit, hactive⟩ := hnot
  unfold cmdCardInit
  simp only [hpolicy, if_neg habsent, if_neg hinit, hactive]
  rfl

end CardInit

/-- Settles O41: the checks by the card's state, then the bring-up's first step. -/
theorem cardInitBeginsTheBringUp : Obligations.CardInitBeginsTheBringUp := by
  intro w s h arg refused
  have hexec {q : Part} (hq : cmdCardInit w.slot (s.part.words w) (s.part.taken .cardInit w) = q) :
      exec (.cardInit w) s = .next { s with part := q } :=
    (exec_row_of_takes_other (v := .cardInit) (by decide) rfl h).trans (State.next_part_congr hq)
  have hrefused {code : ResultCode} {data : List Word} (hd : data.length ≤ 24)
      (hq : cmdCardInit w.slot (s.part.words w) (s.part.taken .cardInit w) = (s.part.taken .cardInit w).refuse w.slot code data) :
      refused code data := hexec (hq.trans (Part.taken_refuse _ _ _ _ _ hd))
  refine ⟨fun hbad => hrefused (by simp) ?_, fun policy hcode => ?_⟩
  · have hnone : cardPolicyOf (argNat (s.part.words w) 0) = none := cardPolicyOf_of_ge hbad
    unfold cmdCardInit
    simp only [hnone]
  · have hpolicy : cardPolicyOf (argNat (s.part.words w) 0) = some policy := by
      have harg : argNat (s.part.words w) 0 = policy.code :=
        (congrArg BitVec.toNat hcode).trans (natWord_toNat (by cases policy <;> decide))
      rw [harg, cardPolicyOf_code]
    exact ⟨fun hcard => hrefused (by simp) (cmdCardInit_of_absent hpolicy hcard),
      fun hcard => hrefused (by simp) (cmdCardInit_of_initializing hpolicy hcard),
      fun r hcard hr => hrefused (by simp) (cmdCardInit_of_active hpolicy hcard hr),
      fun hcard => hexec (cmdCardInit_of_rest hpolicy hcard)⟩

/-! ## The dark decision -/

/-- An entry matches a shot of a gain code, a time and a temperature (R118). -/
def Dark.near (gain ts : Nat) (temp : Option Int) (e : Dark) : Prop :=
  e.gain = gain ∧ e.td ≤ 2 * ts ∧ ts ≤ 2 * e.td ∧ ∃ a b, temp = some a ∧ e.temp = some b ∧ (a - b).natAbs ≤ 8

theorem Dark.fits_iff (gain ts : Nat) (a : Int) (e : Dark) : e.fits gain ts a = true ↔ e.near gain ts (some a) := by
  unfold Dark.fits Dark.near Dark.distance
  cases e.temp <;> simp [and_assoc]

/-- Of two entries with temperatures, neither the keys of R118 nor the stamp prefer the first. -/
theorem Dark.not_better {ts : Nat} {a b c : Int} {e f : Dark} (he : e.temp = some b) (hf : f.temp = some c)
    (h : f.better ts a e = false) :
    (a - b).natAbs ≤ (a - c).natAbs ∧
      ((a - b).natAbs = (a - c).natAbs →
        ((ts : Int) - e.td).natAbs ≤ ((ts : Int) - f.td).natAbs ∧
          (((ts : Int) - e.td).natAbs = ((ts : Int) - f.td).natAbs → f.stamp.toNat ≤ e.stamp.toNat)) := by
  unfold Dark.better Dark.distance natDistance at h
  rw [he, hf] at h
  simp only [Option.map_some, Option.getD_some, Bool.or_eq_false_iff, decide_eq_false_iff_not, Bool.and_eq_false_iff, beq_eq_false_iff_ne,
    ne_eq] at h
  omega

/-- What is not preferred to one entry is not preferred to one that is preferred to it. -/
theorem Dark.not_better_trans {ts : Nat} {a : Int} {e f g : Dark} (h : f.better ts a e = false) (hg : g.better ts a e = true) :
    f.better ts a g = false := by
  unfold Dark.better at h hg ⊢
  simp only [Bool.or_eq_false_iff, Bool.or_eq_true, decide_eq_false_iff_not, decide_eq_true_eq, Bool.and_eq_false_iff, Bool.and_eq_true,
    beq_eq_false_iff_ne, beq_iff_eq, ne_eq] at h hg ⊢
  omega

theorem Dark.not_better_of_better {ts : Nat} {a : Int} {e g : Dark} (hg : g.better ts a e = true) : e.better ts a g = false := by
  unfold Dark.better at hg ⊢
  simp only [Bool.or_eq_false_iff, Bool.or_eq_true, decide_eq_false_iff_not, decide_eq_true_eq, Bool.and_eq_false_iff, Bool.and_eq_true,
    beq_eq_false_iff_ne, beq_iff_eq, ne_eq] at hg ⊢
  omega

theorem Dark.not_better_self (ts : Nat) (a : Int) (e : Dark) : e.better ts a e = false := by
  unfold Dark.better
  simp

/-- The better of an entry and the best so far. -/
def Dark.pick (ts : Nat) (a : Int) (best : Option Dark) (e : Dark) : Option Dark :=
  best.elim (some e) fun b => if e.better ts a b then some e else some b

theorem bestMatch_eq (gain ts : Nat) (a : Int) (l : List Dark) :
    bestMatch gain ts a l = (l.filter fun e => e.fits gain ts a).foldl (Dark.pick ts a) none := by
  have hpick (best : Option Dark) (l : List Dark) : l.foldl (fun best e =>
      match best with
      | none => some e
      | some b => if e.better ts a b then some e else some b) best = l.foldl (Dark.pick ts a) best := by
    induction l generalizing best with
    | nil => rfl
    | cons e l ih => cases best <;> exact ih _
  unfold bestMatch
  exact hpick none _

/-- The pick over a list is one to which none of the list is preferred. -/
theorem foldl_pick (ts : Nat) (a : Int) (l : List Dark) :
    (l = [] ∧ l.foldl (Dark.pick ts a) none = none) ∨
      ∃ e ∈ l, l.foldl (Dark.pick ts a) none = some e ∧ ∀ f ∈ l, f.better ts a e = false := by
  induction l using snoc_induction with
  | nil => exact .inl ⟨rfl, rfl⟩
  | snoc l g ih =>
    right
    rw [List.foldl_append, List.foldl_cons, List.foldl_nil]
    rcases ih with ⟨hnil, hnone⟩ | ⟨e, he, hsome, hbest⟩
    · rw [hnone, hnil]
      exact ⟨g, by simp, rfl, by simpa using Dark.not_better_self ts a g⟩
    · rw [hsome]
      by_cases hg : g.better ts a e = true
      · refine ⟨g, by simp, if_pos hg, fun f hf => ?_⟩
        rcases List.mem_append.1 hf with hf | hf
        · exact Dark.not_better_trans (hbest f hf) hg
        · rw [List.mem_singleton.1 hf]; exact Dark.not_better_self ts a g
      · refine ⟨e, by simp [he], if_neg hg, fun f hf => ?_⟩
        rcases List.mem_append.1 hf with hf | hf
        · exact hbest f hf
        · rw [List.mem_singleton.1 hf]; exact Bool.eq_false_iff.2 hg

/-- The match chosen: an entry that is near, to which no near entry is preferred; none if none is near. -/
theorem bestMatch_spec (gain ts : Nat) (a : Int) (l : List Dark) :
    ((∀ e ∈ l, ¬e.near gain ts (some a)) ∧ bestMatch gain ts a l = none) ∨
      ∃ e ∈ l, e.near gain ts (some a) ∧ bestMatch gain ts a l = some e ∧
        ∀ f ∈ l, f.near gain ts (some a) → f.better ts a e = false := by
  rw [bestMatch_eq]
  rcases foldl_pick ts a (l.filter fun e => e.fits gain ts a) with ⟨hnil, hnone⟩ | ⟨e, he, hsome, hbest⟩
  · refine .inl ⟨fun e he hnear => ?_, hnone⟩
    exact List.filter_eq_nil_iff.1 hnil e he ((Dark.fits_iff gain ts a e).2 hnear)
  · obtain ⟨hmem, hfits⟩ := List.mem_filter.1 he
    exact .inr ⟨e, hmem, (Dark.fits_iff gain ts a e).1 hfits, hsome, fun f hf hnear =>
      hbest f (List.mem_filter.2 ⟨hf, (Dark.fits_iff gain ts a f).2 hnear⟩)⟩

theorem tempDelta_of_near {a b : Int} (h : (a - b).natAbs ≤ 8) : tempDelta (some a) (some b) = a - b := by
  unfold tempDelta clampInt
  simp only
  split
  · omega
  · split
    · omega
    · rfl

section Decision
variable {gain ts : Nat} {temp : Option Int} {p : Part} (hmode : p.dfl.policy.mode ≠ .off)
include hmode

theorem Part.darkDecision_below (h : ts < p.dfl.policy.threshold * 1000000) :
    p.darkDecision gain ts temp = ⟨.none .belowThreshold, none⟩ := by
  unfold Part.darkDecision
  exact (if_neg hmode).trans (if_pos h)

variable (hts : p.dfl.policy.threshold * 1000000 ≤ ts)
include hts

theorem Part.darkDecision_matched {e : Dark} (h : (temp.bind fun a => bestMatch gain ts a p.dfl.entries) = some e) :
    p.darkDecision gain ts temp =
      ⟨.library e.id (scaleFactor (p.cal.tables.darkTemp.getD []) ts e.td (tempDelta temp e.temp)), some e⟩ := by
  unfold Part.darkDecision
  simp only [if_neg hmode, if_neg (Nat.not_lt.2 hts), h]

theorem Part.darkDecision_missed (h : (temp.bind fun a => bestMatch gain ts a p.dfl.entries) = none) :
    p.darkDecision gain ts temp =
      if p.dfl.policy.mode = .capture then
        if p.tsm.supply = .normal then ⟨.capture .capturing none, none⟩ else ⟨.skipped .lowSupply, none⟩
      else ⟨.skipped .libraryMiss, none⟩ := by
  unfold Part.darkDecision
  simp only [if_neg hmode, if_neg (Nat.not_lt.2 hts), h]

end Decision

/-- Settles O52: the mode, the threshold, the match that no near entry is preferred to, and what a miss gives. -/
theorem darkDecisionFollowsItsTable : Obligations.DarkDecisionFollowsItsTable := by
  intro gain ts temp p d near
  refine ⟨fun hoff => ?_, fun hmode hlow => ?_, fun hmode hts => ⟨fun ⟨e₀, hmem₀, hnear₀⟩ => ?_, fun hnone => ?_⟩⟩
  · have hd : d = ⟨.none .policyOff, none⟩ := if_pos hoff
    exact ⟨congrArg Decision.source hd, congrArg Decision.entry hd⟩
  · have hd : d = _ := Part.darkDecision_below hmode hlow
    exact ⟨congrArg Decision.source hd, congrArg Decision.entry hd⟩
  · obtain ⟨-, -, -, a, -, htemp, -, -⟩ := id hnear₀
    rcases bestMatch_spec gain ts a p.dfl.entries with ⟨hfar, -⟩ | ⟨e, he, hnear, hbest, hleast⟩
    · exact absurd hnear₀ (by rw [← htemp] at hfar; exact hfar e₀ hmem₀)
    · have hd : d = _ := Part.darkDecision_matched hmode hts (by rw [htemp]; exact hbest)
      have hnear' : near e := by rw [← htemp] at hnear; exact hnear
      refine ⟨e, _, congrArg Decision.entry hd, he, hnear', congrArg Decision.source hd, fun a' b ha hb => ?_⟩
      obtain rfl : a = a' := Option.some.inj (htemp.symm.trans ha)
      obtain ⟨-, -, -, x, y, hx, hy, hdist⟩ := hnear
      obtain rfl : a = x := Option.some.inj hx
      obtain rfl : b = y := Option.some.inj (hb.symm.trans hy)
      refine ⟨?_, fun f hf hnearf c hc => Dark.not_better hb hc ?_⟩
      · rw [htemp, hb, tempDelta_of_near hdist]
        rfl
      · rw [← htemp] at hleast
        exact hleast f hf hnearf
  · have hmiss : (temp.bind fun a => bestMatch gain ts a p.dfl.entries) = none := by
      cases htemp : temp with
      | none => rfl
      | some a =>
        rcases bestMatch_spec gain ts a p.dfl.entries with ⟨-, h⟩ | ⟨e, he, hnear, -⟩
        · exact h
        · rw [← htemp] at hnear
          exact absurd hnear (hnone e he)
    have hd : d = _ := Part.darkDecision_missed hmode hts hmiss
    refine ⟨?_, fun hcap hsup => ?_, fun hcap hsup => ?_, fun hlib => ?_⟩
    · rw [hd]
      split
      · split <;> rfl
      · rfl
    · rw [hd, if_pos hcap, if_pos hsup]
    · rw [hd, if_pos hcap, if_neg (by rw [hsup]; decide)]
    · rw [hd, if_neg (by rw [hlib]; decide)]

end Sys2Proof.Machine
end

section
/-! PROOFS. Correction of a pixel and of a run of frame bytes (R144 to R148); the scale factor, gap lists and repairs (R116, R133, R158
to R160). -/

namespace Sys2Proof.Machine

/-! ## One pixel -/

/-- The dark contribution is the rounded product, and never negative (R147). -/
theorem darkPart_bounds (black k v : Nat) :
    (0 ≤ darkPart black k v ∧ ((v : Int) - black) * k + 8192 < 16384 * (darkPart black k v + 1)) ∧
      (0 < darkPart black k v → 16384 * darkPart black k v ≤ ((v : Int) - black) * k + 8192) := by
  unfold darkPart
  generalize ((v : Int) - black) * k = product
  omega

/-- The output is the product rounded toward minus infinity, above the pedestal (R148). -/
theorem rawOutput_bounds (c : Corrector) (gain r : Nat) (ds : Int) :
    4096 * (rawOutput c gain ds r - c.pedestal) ≤ ((r : Int) - c.black - ds) * gain + 2048 ∧
      ((r : Int) - c.black - ds) * gain + 2048 < 4096 * (rawOutput c gain ds r - c.pedestal + 1) := by
  unfold rawOutput
  generalize ((r : Int) - c.black - ds) * gain = product
  omega

/-- The dark contribution of a pixel, 0 with no dark. -/
def Corrector.darkOf (c : Corrector) (d : Option Nat) : Int := d.elim 0 (darkPart c.darkBlack c.k)

theorem correctPixel_of_below {c : Corrector} {r : Nat} (gain : Nat) (d : Option Nat) (h : r < c.threshold) :
    correctPixel c gain d r =
      if rawOutput c gain (c.darkOf d) r < 0 then ⟨0, true, false⟩
      else if 65535 < rawOutput c gain (c.darkOf d) r then ⟨65535, false, true⟩
      else ⟨(rawOutput c gain (c.darkOf d) r).toNat, false, false⟩ := by
  unfold correctPixel
  rw [if_neg (Nat.not_le.2 h)]
  cases d <;> rfl

/-! ## A run of pixels -/

/-- The corrected pixel at an index of a run that begins at pixel `k` of the frame. -/
def runPixel (g : Geometry) (grid : List Nat) (c : Corrector) (dark : Bool) (k : Nat) (values darks : List Nat) (i : Nat) : Corrected :=
  correctPixel c (grid.getD (gridIndex g ((k + i) % g.width) ((k + i) / g.width)) 0) (if dark then some (darks.getD i 0) else none)
    (values.getD i 0)

theorem runPixel_cons (g : Geometry) (grid : List Nat) (c : Corrector) (dark : Bool) (k r i : Nat) (values darks : List Nat) :
    runPixel g grid c dark k (r :: values) darks (i + 1) = runPixel g grid c dark (k + 1) values darks.tail i := by
  have hd : darks.getD (i + 1) 0 = darks.tail.getD i 0 := by cases darks <;> simp
  have hk : k + (i + 1) = k + 1 + i := by omega
  unfold runPixel
  rw [List.getD_cons_succ, hd, hk]

theorem length_filter_range_succ (n : Nat) (f : Nat → Bool) :
    ((List.range (n + 1)).filter f).length = (if f 0 then 1 else 0) + ((List.range n).filter fun i => f (i + 1)).length := by
  rw [List.range_succ_eq_map, List.filter_cons, List.filter_map]
  split
  · rw [List.length_cons, List.length_map, Nat.add_comm]; rfl
  · rw [List.length_map, Nat.zero_add]; rfl

/-- A corrected run is its pixels in order, and counts their clamps. -/
theorem correctValues_eq (g : Geometry) (grid : List Nat) (c : Corrector) (dark : Bool) (k : Nat) (values darks : List Nat) :
    correctValues g grid c dark k values darks =
      { bytes := (List.range values.length).flatMap fun i => leBytes 2 (runPixel g grid c dark k values darks i).value
        low := ((List.range values.length).filter fun i => (runPixel g grid c dark k values darks i).low).length
        high := ((List.range values.length).filter fun i => (runPixel g grid c dark k values darks i).high).length } := by
  induction values generalizing k darks with
  | nil => rfl
  | cons r values ih =>
    have hhead : correctPixel c (grid.getD (gridIndex g (k % g.width) (k / g.width)) 0) (if dark then some (darks.headD 0) else none) r =
        runPixel g grid c dark k (r :: values) darks 0 := by
      have hd : darks.headD 0 = darks.getD 0 0 := by cases darks <;> rfl
      unfold runPixel
      rw [hd, Nat.add_zero, List.getD_cons_zero]
    unfold correctValues
    rw [ih, hhead, List.length_cons, length_filter_range_succ, length_filter_range_succ, List.range_succ_eq_map, List.flatMap_cons,
      List.flatMap_map]
    simp only [runPixel_cons]

/-- Of a list of equally long pieces, the piece at an index. -/
theorem slice_flatMap_range {size : Nat} {f : Nat → List Byte} (hf : ∀ i, (f i).length = size) {n i : Nat} (hi : i < n) :
    slice (size * i) size ((List.range n).flatMap f) = f i := by
  induction i generalizing n f with
  | zero =>
    obtain ⟨m, rfl⟩ := Nat.exists_eq_succ_of_ne_zero (Nat.ne_of_gt hi)
    rw [List.range_succ_eq_map, List.flatMap_cons, slice, Nat.mul_zero, List.drop_zero, List.take_append_of_le_length (Nat.le_of_eq (hf 0).symm),
      List.take_of_length_le (Nat.le_of_eq (hf 0))]
  | succ i ih =>
    obtain ⟨m, rfl⟩ := Nat.exists_eq_succ_of_ne_zero (Nat.ne_zero_of_lt hi)
    have hdrop : size * (i + 1) = (f 0).length + size * i := by rw [hf 0, Nat.mul_succ, Nat.add_comm]
    rw [List.range_succ_eq_map, List.flatMap_cons, List.flatMap_map, slice, hdrop, List.drop_length_add_append]
    exact ih (f := fun j => f (j + 1)) (fun j => hf _) (Nat.lt_of_succ_lt_succ hi)

theorem bytesHalves_getD {bytes : List Byte} {n i : Nat} (h : bytes.length = 2 * n) (hi : i < n) :
    (bytesHalves bytes).getD i 0 = leNat (slice (2 * i) 2 bytes) := by
  rw [bytesHalves_of_length h]
  simp [List.getD, hi]

/-- Settles O58: a run is its pixels, and a pixel the rounded products with their limits. -/
theorem pixelsAreCorrected : Obligations.PixelsAreCorrected := by
  refine ⟨?run, ?corrector, ?pass, ?pixel⟩
  case run =>
    intro g grid c offset bytes dark heven hdark o n value x y channel gain pixel
    have hlen : bytes.length = 2 * n := by omega
    have hchannel (i : Nat) : channel i = (channelOf g.cfa (x i) (y i)).index := by
      show (match channelOf g.cfa (x i) (y i) with | .r => 0 | .gr => 1 | .gb => 2 | .b => 3) = _
      cases channelOf g.cfa (x i) (y i) <;> rfl
    have hgain (i : Nat) : gain i = grid.getD (gridIndex g (x i) (y i)) 0 := by
      show grid.getD (_ * 4 + channel i) 0 = _
      rw [hchannel]
      rfl
    have hvalues : (bytesHalves bytes).length = n := by rw [bytesHalves_of_length hlen]; simp
    obtain ⟨darks, flag, ho, hpixel⟩ : ∃ darks flag, o = correctValues g grid c flag (offset / 2) (bytesHalves bytes) darks ∧
        ∀ i < n, runPixel g grid c flag (offset / 2) (bytesHalves bytes) darks i = pixel i := by
      cases dark with
      | none =>
        refine ⟨[], false, rfl, fun i hi => ?_⟩
        unfold runPixel
        rw [bytesHalves_getD hlen hi]
        exact congrArg (fun v => correctPixel c v none _) (hgain i).symm
      | some d =>
        refine ⟨bytesHalves d, true, rfl, fun i hi => ?_⟩
        unfold runPixel
        rw [bytesHalves_getD hlen hi, bytesHalves_getD ((hdark d rfl).trans hlen) hi]
        exact congrArg (fun v => correctPixel c v _ _) (hgain i).symm
    rw [correctValues_eq, hvalues] at ho
    have hfilter (p : Corrected → Bool) : (List.range n).filter (fun i => p (runPixel g grid c flag (offset / 2) (bytesHalves bytes) darks i)) =
        (List.range n).filter fun i => p (pixel i) :=
      List.filter_congr fun i hi => by rw [hpixel i (List.mem_range.1 hi)]
    clear_value o
    subst ho
    refine ⟨?_, fun i hi => ?_, congrArg List.length (hfilter Corrected.low), congrArg List.length (hfilter Corrected.high)⟩
    · rw [length_flatMap_of_const fun _ => leBytes_length 2 _, List.length_range, hlen]
    · exact (slice_flatMap_range (fun _ => leBytes_length 2 _) hi).trans (by rw [hpixel i hi])
  case corrector =>
    intro tables levels pedestal gain black threshold u hlevels hgain c
    have hblack (k : Nat) (b : Nat × Nat) (hb : levels[k]? = some b) : tables.blackOf k = b := by
      unfold Tables.blackOf
      rw [hlevels, Option.getD_some, List.getD, hb, Option.getD_some]
    refine ⟨congrArg Prod.fst (hblack gain _ hgain), congrArg Prod.snd (hblack gain _ hgain), rfl, fun use other hu hother => ?_⟩
    subst hu
    exact ⟨congrArg Prod.fst (hblack use.gain _ hother), rfl⟩
  case pass =>
    intro a
    refine ⟨rfl, rfl, rfl, rfl, fun use huse => ?_⟩
    unfold Pass.corrector
    simp only [huse]
  case pixel =>
    intro c gain r d o
    refine ⟨fun h => if_pos h, fun h => ⟨c.darkOf d, rawOutput c gain (c.darkOf d) r, ?_, ?_, rawOutput_bounds c gain r _, ?_⟩⟩
    · rintro rfl
      rfl
    · rintro v rfl
      exact darkPart_bounds c.darkBlack c.k v
    · have ho : o = _ := correctPixel_of_below gain d h
      generalize rawOutput c gain (c.darkOf d) r = out at ho ⊢
      refine ⟨fun hlow => ?_, fun hhigh => ?_, fun hlow hhigh => ?_⟩
      · rw [ho, if_pos hlow]
      · rw [ho, if_neg (by omega), if_pos hhigh]
      · rw [ho, if_neg (by omega), if_neg (by omega)]
        exact ⟨Int.toNat_of_nonneg hlow, rfl, rfl⟩

/-! ## The scale factor (R116) -/

theorem clampInt_eq {lo hi : Int} (h : lo ≤ hi) (v : Int) : clampInt lo hi v = max lo (min hi v) := by
  unfold clampInt
  split
  · omega
  · split <;> omega

/-- The ratio of the times in parts of 16384, rounded. -/
def timeRatio (ts td : Nat) : Nat := (ts * 16384 + td / 2) / td

theorem scaleFactor_eq (factors : List Nat) (ts td : Nat) (delta : Int) :
    scaleFactor factors ts td delta = min 65535 ((timeRatio ts td * factors.getD (delta + 8).toNat 0 + 8192) / 16384) := rfl

theorem timeRatio_self {td : Nat} (h : 0 < td) : timeRatio td td = 16384 := by
  unfold timeRatio
  exact Nat.div_eq_of_lt_le (by omega) (by omega)

/-- Times within a factor of 2 give a ratio within a factor of 2. -/
theorem timeRatio_bounds {ts td : Nat} (htd : 0 < td) (hlow : td ≤ 2 * ts) (hhigh : ts ≤ 2 * td) :
    8192 ≤ timeRatio ts td ∧ timeRatio ts td ≤ 32768 := by
  unfold timeRatio
  refine ⟨(Nat.le_div_iff_mul_le htd).2 (by omega), Nat.le_of_lt_succ ((Nat.div_lt_iff_lt_mul htd).2 ?_)⟩
  omega

/-! ## The gap list (R133) -/

/-- A list of gaps that ascend and do not meet, none past an end. -/
structure GapsUpTo (e : Nat) (gaps : List (Nat × Nat)) : Prop where
  within : ∀ g ∈ gaps, g.1 < g.2 ∧ g.2 ≤ e
  ascending : gaps.Pairwise fun g h => g.2 ≤ h.1

theorem GapsUpTo.append {a b : Nat} {gaps : List (Nat × Nat)} {c : Nat} (h : GapsUpTo a gaps) (hac : a ≤ c) (hcb : c < b) :
    GapsUpTo b (gaps ++ [(c, b)]) where
  within g hg := by
    rcases List.mem_append.1 hg with hg | hg
    · have := h.within g hg
      omega
    · rw [List.mem_singleton.1 hg]
      exact ⟨hcb, (Nat.le_refl _)⟩
  ascending := List.pairwise_append.2 ⟨h.ascending, List.pairwise_singleton _ _, fun g hg x hx => by
    rw [List.mem_singleton.1 hx]
    exact Nat.le_trans (h.within g hg).2 hac⟩

/-- With the list full the last gap is widened over the new one. -/
theorem addGap_full {init : List (Nat × Nat)} {g x : Nat × Nat} (h : init.length = 7) :
    addGap (init ++ [g]) x = init ++ [(g.1, x.2)] := by
  unfold addGap
  rw [if_neg (by simp [h])]
  have hlast : (init ++ [g]).getD 7 (0, 0) = g := by
    rw [← h, List.getD_eq_getElem?_getD, List.getElem?_append_right (Nat.le_refl _), Nat.sub_self] <;> rfl
  show (init ++ [g]).take 7 ++ [(((init ++ [g]).getD 7 (0, 0)).1, x.2)] = _
  rw [hlast, ← h, List.take_left']
  rfl

/-! ## Repairs (R158 to R160) -/

/-- A pixel that a repair may read. -/
def readable (g : Geometry) (d : Defective) (n : Nat × Nat) : Bool :=
  decide (n.1 < g.width) && decide (n.2 < g.height) && !d.columns.contains n.1 && !d.singles.contains n

theorem usable_toList (g : Geometry) (d : Defective) (x y : Nat) :
    (usable g d (x : Int) (y : Int)).toList = [(x, y)].filter (readable g d) := by
  unfold usable readable
  simp only [Int.toNat_natCast, Int.natCast_nonneg, true_and, Int.ofNat_lt, List.filter_cons, List.filter_nil]
  by_cases hin : x < g.width ∧ y < g.height
  · obtain ⟨hx, hy⟩ := hin
    by_cases hdefective : x ∈ d.columns ∨ (x, y) ∈ d.singles
    · rcases hdefective with h | h <;> simp [hx, hy, h]
    · obtain ⟨hc, hs⟩ := not_or.1 hdefective
      simp [hx, hy, hc, hs]
  · rw [if_neg hin]
    rcases Classical.not_and_iff_not_or_not.1 hin with h | h <;> simp [h]

theorem usable_toList_below (g : Geometry) (d : Defective) (x : Nat) (y : Int) :
    (usable g d ((x : Int) - 2) y).toList = (if 2 ≤ x then (usable g d ((x - 2 : Nat) : Int) y).toList else []) := by
  split
  · next h => rw [Int.ofNat_sub h]; rfl
  · next h =>
    have hneg : ¬(0 ≤ (x : Int) - 2 ∧ (x : Int) - 2 < g.width ∧ 0 ≤ y ∧ y < g.height) := by omega
    unfold usable
    rw [if_neg hneg]
    rfl

theorem usable_toList_above (g : Geometry) (d : Defective) (x : Int) (y : Nat) :
    (usable g d x ((y : Int) - 2)).toList = (if 2 ≤ y then (usable g d x ((y - 2 : Nat) : Int)).toList else []) := by
  split
  · next h => rw [Int.ofNat_sub h]; rfl
  · next h =>
    have hneg : ¬(0 ≤ x ∧ x < g.width ∧ 0 ≤ (y : Int) - 2 ∧ (y : Int) - 2 < g.height) := by omega
    unfold usable
    rw [if_neg hneg]
    rfl

theorem natCast_add_two (x : Nat) : (x : Int) + 2 = ((x + 2 : Nat) : Int) := (Int.natCast_add x 2).symm

theorem horizontalPair_eq (g : Geometry) (d : Defective) (x y : Nat) :
    horizontalPair g d x y = ((if 2 ≤ x then [(x - 2, y)] else []) ++ [(x + 2, y)]).filter (readable g d) := by
  unfold horizontalPair usablePair
  rw [List.filter_append, ← usable_toList]
  simp only [usable_toList_below, natCast_add_two, usable_toList]
  split <;> rfl

theorem verticalPair_eq (g : Geometry) (d : Defective) (x y : Nat) :
    verticalPair g d x y = ((if 2 ≤ y then [(x, y - 2)] else []) ++ [(x, y + 2)]).filter (readable g d) := by
  unfold verticalPair usablePair
  rw [List.filter_append, ← usable_toList]
  simp only [usable_toList_above, natCast_add_two, usable_toList]
  split <;> rfl

theorem singleRepair_eq (g : Geometry) (d : Defective) (x y : Nat) :
    singleRepair g d x y = ⟨x, y, if horizontalPair g d x y = [] then verticalPair g d x y else horizontalPair g d x y⟩ := by
  unfold singleRepair
  cases horizontalPair g d x y with
  | nil => rfl
  | cons n l => exact congrArg (Repair.mk x y) (if_neg (List.cons_ne_nil _ _)).symm

theorem channelOf_of_parity (c : Cfa) {x x' y y' : Nat} (hx : x % 2 = x' % 2) (hy : y % 2 = y' % 2) :
    channelOf c x y = channelOf c x' y' := by
  unfold channelOf
  rw [hx, hy]

/-- What a repair at a pixel may read: in the frame, not defective, of the pixel's colour, two columns or rows away. -/
structure Neighbour (g : Geometry) (d : Defective) (x y : Nat) (n : Nat × Nat) : Prop where
  readable : readable g d n = true
  beside : (n.2 = y ∧ (n.1 + 2 = x ∨ n.1 = x + 2)) ∨ (n.1 = x ∧ (n.2 + 2 = y ∨ n.2 = y + 2))

theorem neighbour_of_mem_horizontalPair {g : Geometry} {d : Defective} {x y : Nat} {n : Nat × Nat} (h : n ∈ horizontalPair g d x y) :
    Neighbour g d x y n := by
  rw [horizontalPair_eq, List.mem_filter, List.mem_append, List.mem_singleton] at h
  obtain ⟨hn, hread⟩ := h
  refine ⟨hread, .inl ?_⟩
  rcases hn with hn | rfl
  · split at hn
    · rw [List.mem_singleton.1 hn]
      exact ⟨rfl, .inl (by simp only; omega)⟩
    · simp at hn
  · exact ⟨rfl, .inr rfl⟩

theorem neighbour_of_mem_verticalPair {g : Geometry} {d : Defective} {x y : Nat} {n : Nat × Nat} (h : n ∈ verticalPair g d x y) :
    Neighbour g d x y n := by
  rw [verticalPair_eq, List.mem_filter, List.mem_append, List.mem_singleton] at h
  obtain ⟨hn, hread⟩ := h
  refine ⟨hread, .inr ?_⟩
  rcases hn with hn | rfl
  · split at hn
    · rw [List.mem_singleton.1 hn]
      exact ⟨rfl, .inl (by simp only; omega)⟩
    · simp at hn
  · exact ⟨rfl, .inr rfl⟩

theorem neighbour_of_next {g : Geometry} {d : Defective} {l : RepairList} {r : Repair} (h : l.next g d = some r) {n : Nat × Nat}
    (hn : n ∈ r.from_) : Neighbour g d r.x r.y n := by
  unfold RepairList.next at h
  split at h
  · obtain rfl := Option.some.inj h
    exact neighbour_of_mem_horizontalPair hn
  · split at h
    · obtain rfl := Option.some.inj h
      rw [singleRepair_eq] at hn ⊢
      dsimp only at hn ⊢
      split at hn
      · exact neighbour_of_mem_verticalPair hn
      · exact neighbour_of_mem_horizontalPair hn
    · cases h

/-! ## The order of the repairs (R159, R160) -/

section Order
variable {g : Geometry} (hheight : 0 < g.height)

/-- The repairs left after some steps of the sweep. -/
def RepairList.after (g : Geometry) (k : Nat) (l : RepairList) : RepairList := (List.range k).foldl (fun l _ => l.advance g) l

theorem RepairList.after_succ (g : Geometry) (k : Nat) (l : RepairList) : l.after g (k + 1) = (l.after g k).advance g := by
  unfold RepairList.after
  rw [List.range_succ, List.foldl_append]
  rfl

theorem RepairList.after_add (g : Geometry) (j k : Nat) (l : RepairList) : l.after g (k + j) = (l.after g k).after g j := by
  induction j with
  | zero => rfl
  | succ j ih => rw [← Nat.add_assoc, RepairList.after_succ, ih, RepairList.after_succ]

theorem after_row {x y : Nat} (columns : List Nat) (singles : List (Nat × Nat)) (hy : y < g.height) :
    RepairList.after g y ⟨x :: columns, 0, singles⟩ = ⟨x :: columns, y, singles⟩ := by
  induction y with
  | zero => rfl
  | succ y ih =>
    rw [RepairList.after_succ, ih (by omega)]
    exact if_pos hy

include hheight

theorem after_column (x : Nat) (columns : List Nat) (singles : List (Nat × Nat)) :
    RepairList.after g g.height ⟨x :: columns, 0, singles⟩ = ⟨columns, 0, singles⟩ := by
  obtain ⟨k, hk⟩ := Nat.exists_eq_succ_of_ne_zero (Nat.ne_of_gt hheight)
  have hrow := after_row (g := g) (x := x) columns singles (y := k) (by omega)
  rw [hk, RepairList.after_succ, hrow]
  exact if_neg (show ¬k + 1 < g.height by omega)

theorem after_columns (columns : List Nat) (singles : List (Nat × Nat)) {i : Nat} (hi : i ≤ columns.length) :
    RepairList.after g (i * g.height) ⟨columns, 0, singles⟩ = ⟨columns.drop i, 0, singles⟩ := by
  induction i generalizing columns with
  | zero => rw [Nat.zero_mul]; rfl
  | succ i ih =>
    cases columns with
    | nil => simp at hi
    | cons x columns =>
      rw [Nat.succ_mul, Nat.add_comm, RepairList.after_add, after_column hheight, ih columns (by simpa using hi)]
      rfl

omit hheight in
theorem after_singles (singles : List (Nat × Nat)) (i : Nat) :
    RepairList.after g i ⟨[], 0, singles⟩ = ⟨[], 0, singles.drop i⟩ := by
  induction i with
  | zero => rfl
  | succ i ih =>
    rw [RepairList.after_succ, ih]
    show RepairList.mk [] 0 (singles.drop i).tail = _
    rw [List.tail_drop]

end Order

/-- Settles O59: the rounded quotients, the widened gap, the neighbours of the repaired pixel and the sweep over the lists. -/
theorem developmentArithmetic : Obligations.DevelopmentArithmetic := by
  refine ⟨?delta, ?factor, ?bounds, ?gaps, ?neighbours, ?order, ?average⟩
  case delta =>
    intro a b
    exact ⟨clampInt_eq (by decide) _, rfl, rfl⟩
  case factor =>
    intro factors ts td ratio v delta i htd hi hlow hhigh hvlow hvhigh
    have hratio : timeRatio ts td = ratio := Nat.div_eq_of_lt_le (Nat.mul_comm td ratio ▸ hlow) (Nat.mul_comm td (ratio + 1) ▸ hhigh)
    have hindex : (delta + 8).toNat = i := by omega
    rw [scaleFactor_eq, hratio, hindex, Nat.div_eq_of_lt_le (k := v) (by omega) (by omega)]
    split <;> omega
  case bounds =>
    intro factors ts td delta htd hlow hhigh hlen hfactors hdlow hdhigh
    obtain ⟨hrlow, hrhigh⟩ := timeRatio_bounds htd hlow hhigh
    have hmem : factors.getD (delta + 8).toNat 0 ∈ factors := by
      rw [List.getD_eq_getElem?_getD, List.getElem?_eq_getElem (by omega), Option.getD_some]
      exact List.getElem_mem _
    obtain ⟨hflow, hfhigh⟩ := hfactors _ hmem
    rw [scaleFactor_eq]
    generalize factors.getD (delta + 8).toNat 0 = f at hflow hfhigh ⊢
    refine ⟨?_, ?_, fun heq => ?_⟩
    · have := Nat.mul_le_mul hrlow hflow
      omega
    · have := Nat.mul_le_mul hrhigh hfhigh
      omega
    · subst heq
      rw [timeRatio_self htd]
      omega
  case gaps =>
    intro gaps a b hlen hwithin hasc hab
    have hgaps : GapsUpTo a gaps := ⟨hwithin, hasc⟩
    by_cases hfull : gaps.length < 8
    · have hadd : addGap gaps (a, b) = gaps ++ [(a, b)] := if_pos hfull
      have hnew := hgaps.append (Nat.le_refl _) hab
      rw [hadd]
      refine ⟨by rw [List.length_append]; exact hfull, hnew.within, hnew.ascending, fun o ho => ?_⟩
      rcases ho with ⟨x, hx, hxo⟩ | ho
      · exact ⟨x, List.mem_append_left _ hx, hxo⟩
      · exact ⟨(a, b), by simp, ho⟩
    · have hne : gaps ≠ [] := fun hnil => hfull (by rw [hnil]; decide)
      obtain ⟨init, last, rfl⟩ : ∃ init last, gaps = init ++ [last] := ⟨_, _, (List.dropLast_concat_getLast hne).symm⟩
      have hinit : init.length = 7 := by simp at hfull hlen; omega
      have hlast := hgaps.within last (by simp)
      obtain ⟨hascInit, -, hbefore⟩ := List.pairwise_append.1 hasc
      have hinitGaps : GapsUpTo last.1 init :=
        ⟨fun x hx => ⟨(hgaps.within x (List.mem_append_left _ hx)).1, hbefore x hx last (by simp)⟩, hascInit⟩
      have hnew := hinitGaps.append (b := b) (Nat.le_refl _) (by omega)
      rw [addGap_full hinit]
      refine ⟨by simp [hinit], hnew.within, hnew.ascending, fun o ho => ?_⟩
      rcases ho with ⟨x, hx, hxo⟩ | ho
      · rcases List.mem_append.1 hx with hx | hx
        · exact ⟨x, List.mem_append_left _ hx, hxo⟩
        · rw [List.mem_singleton.1 hx] at hxo
          exact ⟨(last.1, b), by simp, hxo.1, by simp only; omega⟩
      · exact ⟨(last.1, b), by simp, by simp only; omega, ho.2⟩
  case neighbours =>
    intro g d l r h n hn
    obtain ⟨hread, hbeside⟩ := neighbour_of_next h hn
    simp only [readable, Bool.and_eq_true, decide_eq_true_eq, Bool.not_eq_true', List.contains_eq_mem, decide_eq_false_iff_not] at hread
    obtain ⟨⟨⟨hx, hy⟩, hc⟩, hs⟩ := hread
    exact ⟨hx, hy, hc, hs, channelOf_of_parity g.cfa (by omega) (by omega), hbeside⟩
  case order =>
    intro g d ok beside above single columns singles hheight left
    have hleft (k : Nat) : left k = RepairList.after g k ⟨columns, 0, singles⟩ := rfl
    have hbeside (x y : Nat) : horizontalPair g d x y = beside x y := horizontalPair_eq g d x y
    have habove (x y : Nat) : verticalPair g d x y = above x y := verticalPair_eq g d x y
    have hsingles (i : Nat) : left (columns.length * g.height + i) = ⟨[], 0, singles.drop i⟩ := by
      rw [hleft, RepairList.after_add, after_columns hheight columns singles (Nat.le_refl _), List.drop_length,
        after_singles]
    refine ⟨fun i x y hi hy => ?_, fun i x y hi => ?_, ?_, rfl⟩
    · obtain ⟨hlt, hget⟩ := List.getElem?_eq_some_iff.1 hi
      have hdrop : columns.drop i = x :: columns.drop (i + 1) := by rw [List.drop_eq_getElem_cons hlt, hget]
      rw [hleft, RepairList.after_add, after_columns hheight columns singles (Nat.le_of_lt hlt), hdrop,
        after_row _ _ hy]
      exact congrArg (fun l => some (Repair.mk x y l)) (hbeside x y)
    · obtain ⟨hlt, hget⟩ := List.getElem?_eq_some_iff.1 hi
      have hdrop : singles.drop i = (x, y) :: singles.drop (i + 1) := by rw [List.drop_eq_getElem_cons hlt, hget]
      rw [hsingles, hdrop]
      refine congrArg some ((singleRepair_eq g d x y).trans ?_)
      rw [hbeside, habove]
    · rw [hsingles, List.drop_length]
  case average =>
    intro sum n hn
    unfold average
    have hlow := Nat.div_mul_le_self (2 * sum + n) (2 * n)
    have hhigh := Nat.lt_div_mul_add (a := 2 * sum + n) (b := 2 * n) (by omega)
    generalize (2 * sum + n) / (2 * n) = q at hlow hhigh ⊢
    have hmul : q * (2 * n) = n * (2 * q) := by rw [Nat.mul_left_comm, Nat.mul_comm q, Nat.mul_left_comm]
    rw [Nat.mul_add, Nat.mul_one]
    omega

end Sys2Proof.Machine
end

section
/-! PROOFS. The Exposure Sync Unit's shared operations: a shot's record changed in the list, integration end, a missed shot, the limit and
the strobe (R92, R96 to R98, R100); with these the ends of pulses, of the flush and of integration (R89 to R95). -/

namespace Sys2Proof.Machine

/-! ## One record changed in the list -/

/-- The records with one changed. -/
def changeAt (n : Word) (f : Shot → Shot) (l : List Shot) : List Shot := l.map fun y => if y.number = n then f y else y

theorem changeAt_changeAt (n : Word) {f g : Shot → Shot} (hf : ∀ y, (f y).number = y.number) (l : List Shot) :
    changeAt n g (changeAt n f l) = changeAt n (fun y => g (f y)) l := by
  unfold changeAt
  rw [List.map_map]
  refine List.map_congr_left fun y _ => ?_
  by_cases h : y.number = n
  · simp only [Function.comp, if_pos h, if_pos ((hf y).trans h)]
  · simp only [Function.comp, if_neg h]

theorem find?_changeAt {l : List Shot} {f : Shot → Shot} (n m : Word) (hf : ∀ y, (f y).number = y.number) :
    (changeAt n f l).find? (fun y => decide (y.number = m)) =
      if m = n then (l.find? fun y => decide (y.number = n)).map f else l.find? fun y => decide (y.number = m) :=
  find?_map_number n m hf

/-- The part with one record changed. -/
theorem Part.modShot_eq (n : Word) (f : Shot → Shot) (p : Part) :
    p.modShot n f = { p with sht := { p.sht with records := changeAt n f p.sht.records } } := rfl

/-- What a change at one number leaves of the table's records. -/
structure ChangedAt (n : Word) (y : Shot) (old new : List Shot) : Prop where
  changed : new.find? (fun t => decide (t.number = n)) = some y
  others : ∀ m, m ≠ n → new.find? (fun t => decide (t.number = m)) = old.find? fun t => decide (t.number = m)

theorem changedAt_changeAt {n : Word} {x : Shot} {f : Shot → Shot} {l : List Shot} (hf : ∀ y, (f y).number = y.number)
    (hx : l.find? (fun t => decide (t.number = n)) = some x) : ChangedAt n (f x) l (changeAt n f l) :=
  ⟨by rw [find?_changeAt n n hf, if_pos rfl, hx]; rfl, fun m hm => by rw [find?_changeAt n m hf, if_neg hm]⟩

/-! ## Integration end (R100) -/

theorem Exposure.endFlags_eq (e : Exposure) : e.endFlags = Exposure.flagSet e.early e.overlong e.truncated e.hot := by
  unfold Exposure.endFlags Exposure.flagSet bitIf
  cases e.early <;> cases e.overlong <;> cases e.truncated <;> cases e.hot <;> rfl

/-- The events of an integration end (R100, R119). -/
def Cpa.readReported (phase : Phase) (frame : Nat) (n at_ : Word) (ts flags : Nat) (d : DarkSource) (c : Cpa) : Cpa :=
  ((c.handed phase ⟨.exposureEnd, n, at_, [natWord ts, natWord flags]⟩).handed phase
    ⟨.darkDecided, n, at_, [natWord d.code, d.decidedWord, natWord (d.k?.getD 0)]⟩).handed phase
    ⟨.readoutBegin, n, at_, [natWord FrameKind.shot.code, natWord frame]⟩

theorem Part.integrationReported_eq (n at_ : Word) (ts flags : Nat) (d : DarkSource) (p : Part) :
    p.integrationReported n at_ ts flags d =
      { p with cpa := p.cpa.readReported p.phase p.geo.frameBytes n at_ ts flags d } := by
  unfold Part.integrationReported
  simp only [Part.emitAt_eq]
  cases d <;> rfl

/-- The record when integration has ended and the readout begun. -/
def Shot.readBegun (at_ : Word) (ts : Nat) (temp : Option Int) (d : DarkSource) (t : Shot) : Shot :=
  { t with
    state := .reading, exposure := { t.exposure with integEnd := some at_, integTime := some ts, tempAtRead := temp }
    progress :=
      { t.progress with
        dark := some d, cursor := 0, gaps := [], correction := some (if d.path = .inline then .corrected else .raw) } }

/-- The sequencer with the readout of a shot begun. -/
def Esu.readBegun (at_ : Word) (x : Esu) : Esu := { x.stopped with seq := .shotRead, readLine := true, readPulse := some ⟨at_, 10⟩ }

/-- What the ICR's taking of a shot as target, and READING, make of its record. -/
def Shot.targeted (path : Path) (t : Shot) : Shot :=
  { t with
    state := .reading
    progress := { t.progress with cursor := 0, gaps := [], correction := some (if path = .inline then .corrected else .raw) } }

theorem Part.beginRead_eq (t : Shot) (at_ : Word) (path : Path) (dark : Option DarkUse) (p : Part) :
    p.beginRead t at_ path dark =
      { p with
        cpa := p.cpa.handed p.phase ⟨.readoutBegin, t.number, at_, [natWord FrameKind.shot.code, natWord p.geo.frameBytes]⟩
        sht := { p.sht with records := changeAt t.number (Shot.targeted path) p.sht.records }
        esu := { p.esu with seq := .shotRead, readLine := true, readPulse := some ⟨at_, 10⟩ }
        icr :=
          { p.icr with
            target := some ⟨.shot, t.number, t.slot, path, t.arming.gain, dark, 0, []⟩
            deadline := some ⟨at_, p.esu.active.readTimeout * 1000⟩ } } := by
  have hrecords : changeAt t.number (fun y => { y with state := .reading })
      (changeAt t.number
        (fun y => { y with
          progress := { y.progress with cursor := 0, gaps := [], correction := some (if path = .inline then .corrected else .raw) } })
        p.sht.records) = changeAt t.number (Shot.targeted path) p.sht.records := changeAt_changeAt _ (by exact fun _ => rfl) _
  unfold Part.beginRead
  rw [Part.emitAt_eq]
  simp only [Part.setTarget, Part.pulseRead, Part.setSeq, Part.setShotState, Part.modProgress, Part.modShot_eq, hrecords]

/-- The library when a decision has taken an entry: one reference more, and the shot's number as the stamp (R119). -/
def Dfl.taking (n : Word) (d : Decision) (x : Dfl) : Dfl :=
  d.entry.elim x fun e =>
    { x with entries := x.entries.map fun y => if y.id = e.id then { y with refs := y.refs + 1, stamp := n } else y }

@[simp] theorem Dfl.taking_capture (n : Word) (d : Decision) (x : Dfl) : (x.taking n d).capture = x.capture := by
  unfold Dfl.taking
  cases d.entry <;> rfl

theorem Part.takeDecision_eq (n at_ : Word) (d : Decision) (p : Part) :
    p.takeDecision n at_ d =
      { p with
        cpa :=
          p.cpa.handed p.phase
            ⟨.darkDecided, n, at_, [natWord d.source.code, d.source.decidedWord, natWord (d.source.k?.getD 0)]⟩
        sht :=
          { p.sht with
            records := changeAt n (fun y => { y with progress := { y.progress with dark := some d.source } }) p.sht.records }
        dfl := p.dfl.taking n d } := by
  unfold Part.takeDecision Dfl.taking
  rw [Part.emitAt_eq]
  cases d.entry <;> rfl

theorem Part.integrationEnd_eq {n : Word} {x : Shot} {p : Part} (at_ : Word) (hx : p.shot? n = some x) {ts : Nat}
    (hts : (at_ - x.exposure.integStart.getD at_).toNat = ts) :
    ∃ use, p.integrationEnd n at_ =
      { p with
        cpa :=
          p.cpa.readReported p.phase p.geo.frameBytes n at_ ts
            (Exposure.flagSet x.exposure.early x.exposure.overlong x.exposure.truncated x.exposure.hot)
            (p.darkDecision x.arming.gain ts p.temperature).source
        sht :=
          { p.sht with
            records :=
              changeAt n
                (Shot.readBegun at_ ts p.temperature
                  (p.darkDecision x.arming.gain ts p.temperature).source)
                p.sht.records }
        esu := p.esu.readBegun at_, dfl := p.dfl.taking n (p.darkDecision x.arming.gain ts p.temperature)
        icr :=
          { p.icr with
            target :=
              some ⟨.shot, n, x.slot,
                (p.darkDecision x.arming.gain ts p.temperature).source.path,
                x.arming.gain, use, 0, []⟩
            deadline := some ⟨at_, p.esu.active.readTimeout * 1000⟩ } } := by
  have hn := Part.number_of_shot? hx
  subst hts
  let d := p.darkDecision x.arming.gain (at_ - x.exposure.integStart.getD at_).toNat p.temperature
  refine ⟨d.use, ?_⟩
  unfold Part.integrationEnd
  rw [hx]
  simp only [Part.emitAt_eq, Part.modExposure, Part.modShot_eq, Part.stopSequence]
  rw [Part.beginRead_eq, Part.takeDecision_eq, hn, Exposure.endFlags_eq]
  simp only [changeAt_changeAt, implies_true]
  rfl

/-- The path is RAW exactly for a capture to come: the decision gives no other capture (R117). -/
theorem Part.darkDecision_path (gain ts : Nat) (temp : Option Int) (p : Part) :
    (p.darkDecision gain ts temp).source.path = .raw ↔ (p.darkDecision gain ts temp).source = .capture .capturing none := by
  unfold Part.darkDecision
  simp only
  split
  · simp [DarkSource.path]
  · split
    · simp [DarkSource.path]
    · split
      · simp [DarkSource.path]
      · split
        · split <;> simp [DarkSource.path]
        · simp [DarkSource.path]

theorem correction_of_path (path : Path) :
    (if path = .inline then Correction.corrected else .raw) = if path = .raw then .raw else .corrected := by
  cases path <;> rfl

/-! ## Removal with a request, and a missed shot (R67, R68, R92) -/

theorem Part.lowerDark_records (n : Word) (d : Option DarkSource) (p : Part) : (p.lowerDark n d).sht.records = p.sht.records := by
  have hentry (id : Nat) : (p.lowerEntry id).sht.records = p.sht.records := by
    unfold Part.lowerEntry
    simp only
    split
    · rfl
    · split
      · rw [Part.removeEntry, Part.freeSlot_eq]; rfl
      · rfl
  unfold Part.lowerDark
  split
  · exact hentry _
  · exact hentry _
  · unfold Part.lowerTransient
    split
    · rfl
    · split
      · rw [Part.freeSlot_eq]
      · rfl
  · rfl

/-- A removal takes the record with the number out of the list, whatever else goes with it. -/
theorem Part.removeShot_records {n : Word} {x : Shot} {p : Part} (hx : p.shot? n = some x) :
    (p.removeShot n).sht.records = p.sht.records.filter fun y => decide (y.number ≠ n) := by
  have hlowered : (if x.state.undeveloped then p.lowerDark n x.progress.dark else p).sht.records = p.sht.records := by
    split
    · exact Part.lowerDark_records _ _ _
    · rfl
  unfold Part.removeShot Part.dropRecord
  rw [hx]
  simp only [Part.freeSlot_eq, Part.cancelFor_sht]
  generalize (if x.state.undeveloped then p.lowerDark n x.progress.dark else p) = q at hlowered ⊢
  rw [Part.clearViewOf_frame]
  split <;> simp only [hlowered]

/-- The CPA and the queue when the request that named a shot is gone, if there was one (R68). -/
def Cpa.requestGone (phase : Phase) (time n : Word) (o : Option Request) (c : Cpa) : Cpa :=
  o.elim c fun r => (c.dirtied phase).handed phase ⟨.cardRequestDone, n, time, [natWord r.id, 1, 0]⟩

def Cde.requestGone (o : Option Request) (c : Cde) : Cde :=
  o.elim c fun r => { c with requests := c.requests.filter fun q => decide (q.id ≠ r.id) }

theorem Part.cancelFor_eq (n : Word) (p : Part) :
    p.cancelFor n =
      { p with
        cpa := p.cpa.requestGone p.phase p.clock.time n (p.requestFor n), cde := p.cde.requestGone (p.requestFor n) } := by
  unfold Part.cancelFor
  cases p.requestFor n with
  | none => rfl
  | some r =>
    simp only
    rw [Part.emit_eq, Part.dropRequest, Part.statusDirty_eq]
    rfl

/-- A shot without a dark's reference leaves, its request with it (R67, R68). -/
theorem Part.removeShot_of_unreferenced {n : Word} {x : Shot} {p : Part} (hx : p.shot? n = some x)
    (hdark : DarkSource.unreferenced x.progress.dark = true) :
    p.removeShot n =
      { p with
        cpa :=
          ((p.cpa.requestGone p.phase p.clock.time n (p.requestFor n)).dirtied p.phase).handed p.phase
            ⟨.slotReleased, n, p.clock.time, [natWord x.slot, 0]⟩
        cde := p.cde.requestGone (p.requestFor n), sht := { p.sht.without n x with slots := p.sht.slots.set x.slot .free }
        prn := (p.clearViewOf n).prn } := by
  have hlower : (if x.state.undeveloped then p.lowerDark n x.progress.dark else p) = p := by
    rw [Part.lowerDark_of_unreferenced hdark, ite_self]
  have hprot : (if x.prot then { p with sht := { p.sht with protectedCount := p.sht.protectedCount - 1 } } else p) =
      { p with sht := { p.sht with protectedCount := p.sht.protectedCount - (if x.prot then 1 else 0) } } := by
    cases x.prot <;> rfl
  unfold Part.removeShot Part.dropRecord
  rw [hx]
  simp only [hlower, hprot]
  rw [Part.cancelFor_eq, Part.clearViewOf_frame, Part.clearViewOf_prn n (p := p) (by rfl), Part.freeSlot_eq]
  rfl

section Missed
variable {x : Shot} {p : Part}

theorem Part.missShot_esu (at_ : Word) : (p.missShot x at_).esu = p.esu.stopped := by
  unfold Part.missShot
  rw [Part.removeShot_esu, Part.emitAt_eq]
  rfl

variable (hx : p.shot? x.number = some x)
include hx

theorem Part.missShot_records (at_ : Word) : (p.missShot x at_).sht.records = p.sht.records.filter fun y => decide (y.number ≠ x.number) := by
  unfold Part.missShot
  rw [Part.emitAt_eq]
  exact Part.removeShot_records (by exact hx)

/-- A missed shot without a dark: SHOT_MISSED, its request's end, then its slot's release. -/
theorem Part.missShot_of_unreferenced (at_ : Word) (hdark : DarkSource.unreferenced x.progress.dark = true) :
    p.missShot x at_ =
      { p with
        cpa :=
          (((p.cpa.handed p.phase ⟨.shotMissed, x.number, at_, [natWord x.slot]⟩).requestGone p.phase p.clock.time x.number
            (p.requestFor x.number)).dirtied p.phase).handed p.phase ⟨.slotReleased, x.number, p.clock.time, [natWord x.slot, 0]⟩
        cde := p.cde.requestGone (p.requestFor x.number)
        sht := { p.sht.without x.number x with slots := p.sht.slots.set x.slot .free }
        esu := p.esu.stopped, prn := (p.clearViewOf x.number).prn } := by
  unfold Part.missShot
  rw [Part.emitAt_eq, Part.removeShot_of_unreferenced (x := x) (by exact hx) hdark, Part.clearViewOf_prn x.number (p := p) (by rfl)]
  rfl

end Missed

/-! ## The limit (R98) -/

theorem Part.limitReached_eq {x : Shot} {p : Part} {start : Word} (hseq : p.esu.seq = .shotIntegrate)
    (hstart : x.exposure.integStart = some start) (at_ : Word) :
    p.limitReached x at_ = (notLater start at_ && decide (p.tsm.supply.limit ≤ (at_ - start).toNat)) := by
  unfold Part.limitReached
  rw [hseq, hstart]
  rfl

theorem Part.reachLimit_of_integrating {x : Shot} (h : x.state = .exposing ∨ x.state = .settling) (at_ : Word) (p : Part) :
    p.reachLimit x at_ = (p.modExposure x.number fun e => { e with overlong := true }).integrationEnd x.number at_ := by
  unfold Part.reachLimit
  rcases h with h | h <;> rw [h]

theorem Part.reachLimit_of_armed {x : Shot} (h : x.state = .armed) (at_ : Word) (p : Part) : p.reachLimit x at_ = p.missShot x at_ := by
  unfold Part.reachLimit
  rw [h]

theorem Supply.limit_eq (st : Supply) : st.limit = if st = .normal then 1800000000 else 60000000 := by cases st <;> rfl

/-- Settles O51: each expiry ends integration at its own time or misses the shot, and so does the limit where it is reached. -/
theorem integrationEndsInReadingOrMissed : Obligations.IntegrationEndsInReadingOrMissed := by
  intro x s hcurrent hx stopped read missed
  have hread (i : Instr) (at_ : Word) (o : Bool) (l : List Shot)
      (hl : l.find? (fun y => decide (y.number = x.number)) =
        some { x with exposure := { x.exposure with overlong := x.exposure.overlong || o } })
      (hrow : exec i s =
        .next { s with part := Part.integrationEnd x.number at_ { s.part with sht := { s.part.sht with records := l } } }) :
      read i at_ o := by
    obtain ⟨use, heq⟩ := Part.integrationEnd_eq at_ (p := { s.part with sht := { s.part.sht with records := l } }) hl rfl
    have hfound := changedAt_changeAt (f := Shot.readBegun at_ (at_ - x.exposure.integStart.getD at_).toNat s.part.temperature
      (s.part.darkDecision x.arming.gain (at_ - x.exposure.integStart.getD at_).toNat s.part.temperature).source) (by exact fun _ => rfl) hl
    refine ⟨_, _, _, hrow.trans (State.next_part_congr heq), rfl, rfl, rfl, rfl, hfound.changed, rfl, rfl, rfl, rfl, rfl, rfl, rfl, rfl,
      rfl, rfl, rfl, rfl, ?_, congrArg some (correction_of_path _), _, rfl, ?_⟩
    · exact (Part.darkDecision_path _ _ _ _).trans ⟨congrArg some, Option.some.inj⟩
    · rw [Part.integrationReported_eq]
      rfl
  have hreadNow (i : Instr) (at_ : Word) (hrow : exec i s = .next { s with part := s.part.integrationEnd x.number at_ }) :
      read i at_ false :=
    hread i at_ false s.part.sht.records (by rw [Bool.or_false]; exact hx) hrow
  have hmissed (i : Instr) (at_ : Word) (hrow : exec i s = .next { s with part := s.part.missShot x at_ }) : missed i at_ := by
    refine ⟨_, hrow, rfl, rfl, Part.missShot_esu at_, Part.missShot_records hx at_, fun hdark => ?_⟩
    rw [Part.missShot_of_unreferenced hx at_ (by rw [hdark]; rfl)]
    refine ⟨rfl, fun hreq => ?_, fun r hr => ⟨?_, ?_⟩⟩
    · simp only [hreq, Part.emit_eq, Part.statusDirty_eq, Part.emitAt_eq]
      rfl
    · intro q hq
      have hmem : q ∈ s.part.cde.requests.filter fun q => decide (q.id ≠ r.id) := by
        simp only [hr] at hq
        exact hq
      simpa using (List.mem_filter.1 hmem).2
    · simp only [hr, Part.emit_eq, Part.statusDirty_eq, Part.emitAt_eq]
      rfl
  clear_value read missed
  refine ⟨fun timer htimer hdue hstate => hreadNow _ _ ?_, fun timer htimer hdue hstate => hreadNow _ _ ?_,
    fun timer htimer hdue hstate => hmissed _ _ ?_, fun start hseq hstart hlater => ?_⟩
  · refine Eq.trans (b := .next { s with part := s.part.settleGuardExpiry }) rfl (State.next_part_congr ?_)
    unfold Part.settleGuardExpiry
    rw [htimer, hcurrent]
    exact if_pos ⟨hstate, hdue⟩
  · refine Eq.trans (b := .next { s with part := s.part.programmedTimeExpiry }) rfl (State.next_part_congr ?_)
    unfold Part.programmedTimeExpiry
    rw [htimer, hcurrent]
    exact if_pos ⟨hstate, hdue⟩
  · refine Eq.trans (b := .next { s with part := s.part.armWindowExpiry }) rfl (State.next_part_congr ?_)
    unfold Part.armWindowExpiry
    rw [htimer, hcurrent]
    exact if_pos ⟨hstate, hdue⟩
  · intro limit
    refine ⟨fun hlong => ?_, fun hshort => ?_⟩
    · have hrow : exec .integrationLimit s = .next { s with part := s.part.reachLimit x (start + natWord limit) } := by
        refine Eq.trans (b := .next { s with part := s.part.integrationLimit }) rfl (State.next_part_congr ?_)
        unfold Part.integrationLimit
        rw [hcurrent]
        simp only
        rw [Part.limitReached_eq hseq hstart, hlater, Supply.limit_eq, hstart]
        exact if_pos (decide_eq_true hlong)
      refine ⟨fun hstate => ?_, fun hstate => hmissed _ _ (hrow.trans (State.next_part_congr (Part.reachLimit_of_armed hstate _ _)))⟩
      refine hread _ _ true (changeAt x.number (fun y => { y with exposure := { y.exposure with overlong := true } }) s.part.sht.records)
        ?_ (hrow.trans (State.next_part_congr (Part.reachLimit_of_integrating hstate _ _)))
      rw [(changedAt_changeAt (by exact fun _ => rfl) hx).changed, Bool.or_true]
    · refine Eq.trans (b := .next { s with part := s.part.integrationLimit }) rfl (State.next_part_congr (q := s.part) ?_)
      unfold Part.integrationLimit
      rw [hcurrent]
      simp only
      rw [Part.limitReached_eq hseq hstart, hlater, Supply.limit_eq]
      exact if_neg (by simpa using hshort)

end Sys2Proof.Machine
end

section
/-! PROOFS. The exposure's operations on the CPA, the records and the sequencer; the ends of pulses and of the flush (R89, R90, R96, R97,
R99, R100), and accepted edges (R81 to R83, R91, R93, R94). -/

namespace Sys2Proof.Machine

/-- A further change of the same record. -/
theorem ChangedAt.change {n : Word} {y : Shot} {old l : List Shot} (h : ChangedAt n y old l) {f : Shot → Shot}
    (hf : ∀ t, (f t).number = t.number) : ChangedAt n (f y) old (changeAt n f l) :=
  ⟨by rw [find?_changeAt n n hf, if_pos rfl, h.changed]; rfl,
    fun m hm => by rw [find?_changeAt n m hf, if_neg hm]; exact h.others m hm⟩

/-! ## Parts in which only the CPA, the records and the sequencer differ -/

/-- The part with its CPA, its records and its sequencer replaced. -/
def Part.exposed (c : Cpa) (l : List Shot) (e : Esu) (p : Part) : Part :=
  { p with cpa := c, sht := { p.sht with records := l }, esu := e }

section Exposed
variable (c : Cpa) (l : List Shot) (e : Esu) (p : Part) (n : Word)

theorem Part.exposed_modShot (f : Shot → Shot) : (p.exposed c l e).modShot n f = p.exposed c (changeAt n f l) e := rfl

theorem Part.exposed_emitAt (at_ : Word) (k : EventKind) (data : List Word) :
    (p.exposed c l e).emitAt at_ k n data = p.exposed (c.handed p.phase ⟨k, n, at_, data⟩) l e := by
  rw [Part.emitAt_eq]
  rfl

/-- The record of a strobe that fires (R97). -/
def Shot.strobed (at_ : Word) (y : Shot) : Shot := { y with exposure := { y.exposure with strobeTime := some at_ } }

/-- The sequencer with the strobe's pulse running. -/
def Esu.strobed (at_ : Word) (e : Esu) : Esu :=
  { e with strobe := none, strobeLine := true, strobePulse := some ⟨at_, e.active.pulse⟩ }

/-- The record of an exposure that opens (R90, R91). -/
def Shot.opened (open_ : Word) (y : Shot) : Shot := { y with state := .exposing, exposure := { y.exposure with openTime := some open_ } }

/-- A strobe due at once fires, any other waits (R96). -/
theorem Part.exposed_scheduleStrobe (fire at_ : Word) :
    (p.exposed c l e).scheduleStrobe n fire at_ =
      if notLater fire at_ = true then
        p.exposed c (changeAt n (Shot.strobed at_) l) (e.strobed at_)
      else p.exposed c l { e with strobe := some fire } := rfl

theorem Part.exposed_openExposure (open_ at_ : Word) :
    (p.exposed c l e).openExposure n open_ at_ =
      p.exposed (c.handed p.phase ⟨.exposureBegin, n, at_, [open_]⟩) (changeAt n (Shot.opened open_) l) e := by
  have hopened : changeAt n (Shot.opened open_) l =
      changeAt n (fun y => { y with exposure := { y.exposure with openTime := some open_ } })
        (changeAt n (fun y => { y with state := .exposing }) l) := by
    symm
    exact changeAt_changeAt n (by exact fun _ => rfl) l
  unfold Part.openExposure
  rw [Part.emitAt_eq, hopened]
  rfl

theorem Part.exposed_firstStrobe {x : Shot} (from_ at_ : Word) :
    (p.exposed c l e).firstStrobe x from_ at_ =
      if x.arming.plan = .first then (p.exposed c l e).scheduleStrobe x.number (from_ + natWord x.arming.planTime) at_
      else p.exposed c l e := rfl

/-- The record of an exposure that closes (R93). -/
def Shot.closed (edge : Word) (y : Shot) : Shot :=
  { y with
    state := .settling
    exposure := { y.exposure with closeTime := some edge, measured := some (edge - y.exposure.openTime.getD edge).toNat } }

theorem Part.exposed_closeExposure (edge at_ : Word) :
    (p.exposed c l e).closeExposure n edge at_ =
      if e.active.guard = 0 then (p.exposed c (changeAt n (Shot.closed edge) l) { e with strobe := none }).integrationEnd n at_
      else p.exposed c (changeAt n (Shot.closed edge) l) { e with strobe := none, guardTimer := some ⟨at_, e.active.guard⟩ } := by
  have hclosed : changeAt n (Shot.closed edge) l =
      changeAt n (fun y =>
          { y with
            exposure := { y.exposure with closeTime := some edge, measured := some (edge - y.exposure.openTime.getD edge).toNat } })
        (changeAt n (fun y => { y with state := .settling }) l) := by
    symm
    exact changeAt_changeAt n (by exact fun _ => rfl) l
  rw [hclosed]
  rfl

/-- Integration of a shot in the records ends (R100). -/
theorem Part.exposed_integrationEnd {x : Shot} (at_ : Word) (hx : l.find? (fun y => decide (y.number = n)) = some x) {ts : Nat}
    (hts : (at_ - x.exposure.integStart.getD at_).toNat = ts) :
    ∃ d y, ((p.exposed c l e).integrationEnd n at_).shot? n = some y ∧ y.state = .reading ∧ y.progress.dark = some d ∧
      y.exposure =
        { x.exposure with
          integEnd := some at_, integTime := some ts, tempAtRead := if p.tsm.temp = .fault then none else p.tsm.reading } ∧
      ((p.exposed c l e).integrationEnd n at_).esu = e.readBegun at_ ∧
      ((p.exposed c l e).integrationEnd n at_).cpa =
        c.readReported p.phase p.geo.frameBytes n at_ ts
          (Exposure.flagSet x.exposure.early x.exposure.overlong x.exposure.truncated x.exposure.hot) d := by
  obtain ⟨use, heq⟩ := Part.integrationEnd_eq at_ (p := p.exposed c l e) hx hts
  refine ⟨(p.darkDecision x.arming.gain ts p.temperature).source,
    x.readBegun at_ ts p.temperature (p.darkDecision x.arming.gain ts p.temperature).source, ?_, rfl, rfl, rfl, ?_, ?_⟩
  · rw [heq]
    exact (changedAt_changeAt (by exact fun _ => rfl) hx).changed
  · rw [heq]
    rfl
  · rw [heq]
    rfl

end Exposed

/-! ## The end of the flush (R90, R99) -/

section FlushEnd
variable {timer : Timer} {x : Shot} {p : Part} (htimer : p.esu.flushTimer = some timer) (hdue : timer.due p.clock.time = true)
  (hseq : p.esu.seq = .shotFlush) (hcurrent : p.currentShot = some x)

/-- The records with a shot's integration begun. -/
def startedAt (n at_ : Word) (l : List Shot) : List Shot :=
  changeAt n (fun y => { y with exposure := { y.exposure with integStart := some at_ } }) l

/-- The sequencer with integration begun, before SENSOR_INTEG. -/
def Esu.integrating (e : Esu) : Esu := { e with seq := .shotIntegrate, flushTimer := none }

include htimer hdue hseq hcurrent

theorem Part.flushEnd_timed (hmode : x.arming.mode = .timed) :
    p.flushEnd =
      (p.exposed p.cpa (startedAt x.number timer.expiry p.sht.records) p.esu.integrating).startTimed x timer.expiry := by
  unfold Part.flushEnd
  rw [htimer, hcurrent]
  simp only [hmode]
  exact if_pos ⟨hseq, hdue⟩

theorem Part.flushEnd_sync (hmode : x.arming.mode = .sync) :
    p.flushEnd =
      (p.exposed p.cpa (startedAt x.number timer.expiry p.sht.records) p.esu.integrating).startSync x timer.expiry := by
  unfold Part.flushEnd
  rw [htimer, hcurrent]
  simp only [hmode]
  exact if_pos ⟨hseq, hdue⟩

end FlushEnd

/-- Settles O50: the pulses' ends by their timers; the flush's end by the shot's mode, EARLY, the contact and the temperature. -/
theorem pulsesEndAndFlushEndStartsIntegration : Obligations.PulsesEndAndFlushEndStartsIntegration := by
  refine ⟨⟨?pulses, ?strobe⟩, ?flush⟩
  case pulses =>
    intro timer s hdue
    refine ⟨fun hflush hread => ?_, fun hread hflush => ?_, fun hstrobe => ?_⟩
    · refine Eq.trans (b := .next { s with part := s.part.sensorPulseEnd }) rfl (State.next_part_congr ?_)
      unfold Part.sensorPulseEnd timerDue
      simp [hflush, hread, hdue]
    · refine Eq.trans (b := .next { s with part := s.part.sensorPulseEnd }) rfl (State.next_part_congr ?_)
      unfold Part.sensorPulseEnd timerDue
      simp [hflush, hread, hdue]
    · refine Eq.trans (b := .next { s with part := s.part.strobePulseEnd }) rfl (State.next_part_congr ?_)
      unfold Part.strobePulseEnd timerDue
      rw [hstrobe]
      exact if_pos hdue
  case strobe =>
    intro fire x s hstrobe hcurrent
    have hfire : s.part.strobeFire = if notLater fire s.part.clock.time = true then s.part.fireStrobe x.number fire else s.part := by
      unfold Part.strobeFire
      rw [hstrobe, hcurrent]
    refine ⟨fun hlater => ?_, fun hdue => ?_⟩
    · exact Eq.trans (b := .next { s with part := s.part.strobeFire }) rfl
        (State.next_part_congr (q := s.part) (hfire.trans (if_neg (Bool.eq_false_iff.1 hlater))))
    · exact Eq.trans (b := .next { s with part := s.part.strobeFire }) rfl (State.next_part_congr (hfire.trans (if_pos hdue)))
  case flush =>
    intro timer x s htimer hdue hseq hcurrent hx hstate at_ esu started begun becomes
    have hrow {q : Part} (hq : s.part.flushEnd = q) : exec .flushEnd s = .next { s with part := q } :=
      Eq.trans (b := .next { s with part := s.part.flushEnd }) rfl (State.next_part_congr hq)
    have hbegun : begun.cpa = s.part.cpa.handed s.part.phase ⟨.exposureBegin, x.number, at_, [at_]⟩ := by
      show (Part.emitAt _ _ _ _ _).cpa = _
      rw [Part.emitAt_eq]
    have hbecomes {c : Cpa} {l : List Shot} {e : Esu} {y : Shot} (hq : s.part.flushEnd = s.part.exposed c l e)
        (hl : ChangedAt x.number y s.part.sht.records l) (hc : c = if y.state = .armed then s.part.cpa else begun.cpa) : becomes y e :=
      ⟨_, hrow hq, rfl, rfl, rfl, rfl, hc, hl.changed, hl.others⟩
    have hstarted : ChangedAt x.number { x with exposure := started } s.part.sht.records (startedAt x.number at_ s.part.sht.records) :=
      changedAt_changeAt (f := fun y => { y with exposure := { y.exposure with integStart := some at_ } }) (fun _ => rfl) hx
    have hreported (ts flags : Nat) (d : DarkSource) : (begun.integrationReported x.number at_ ts flags d).cpa =
        (s.part.cpa.handed s.part.phase ⟨.exposureBegin, x.number, at_, [at_]⟩).readReported s.part.phase s.part.geo.frameBytes x.number at_
          ts flags d := by
      show (Part.integrationReported _ _ _ _ _ (Part.emitAt _ _ _ _ _)).cpa = _
      rw [Part.emitAt_eq, Part.integrationReported_eq]
      rfl
    have hzero : (at_ - at_).toNat = 0 := by rw [BitVec.sub_self]; rfl
    clear_value becomes
    refine ⟨fun hmode hearly => ?_, fun hmode hearly hcontact => ?_, fun hmode hearly hcontact hguard => ?_, fun hmode htemp => ?_,
      fun hmode htemp => ?_, fun hmode hearly hcontact hguard => ?_⟩
    · refine hbecomes ((Part.flushEnd_sync htimer hdue hseq hcurrent hmode).trans ?_) (hstarted.change (f := fun y => { y with state := .armed }) fun _ => rfl) rfl
      unfold Part.startSync
      rw [hearly]
      rfl
    · have hflush : s.part.flushEnd =
          (s.part.exposed (s.part.cpa.handed s.part.phase ⟨.exposureBegin, x.number, at_, [at_]⟩)
            (changeAt x.number (Shot.opened at_) (startedAt x.number at_ s.part.sht.records)) esu).firstStrobe x at_ at_ := by
        refine (Part.flushEnd_sync htimer hdue hseq hcurrent hmode).trans ?_
        unfold Part.startSync
        rw [hearly]
        refine (if_pos rfl).trans ((if_pos hcontact).trans ?_)
        exact congrArg (Part.firstStrobe x at_ at_) (Part.exposed_openExposure _ _ esu _ _ _ _)
      have hopen := hstarted.change (f := Shot.opened at_) fun _ => rfl
      intro fire
      rw [Part.exposed_firstStrobe] at hflush
      refine ⟨fun hplan => ?_, fun hplan hlater => ?_, fun hplan hlater => ?_⟩
      · rw [if_neg hplan] at hflush
        exact hbecomes hflush hopen hbegun.symm
      · rw [if_pos hplan, Part.exposed_scheduleStrobe, if_pos hlater] at hflush
        exact hbecomes hflush (hopen.change (f := Shot.strobed at_) fun _ => rfl) hbegun.symm
      · rw [if_pos hplan, Part.exposed_scheduleStrobe, if_neg (Bool.eq_false_iff.1 hlater)] at hflush
        exact hbecomes hflush hopen hbegun.symm
    · have hclosed := (hstarted.change (f := Shot.opened at_) fun _ => rfl).change (f := Shot.closed at_) fun _ => rfl
      have hy : Shot.closed at_ (Shot.opened at_ { x with exposure := started }) =
          { x with
            state := .settling, exposure := { started with openTime := some at_, closeTime := some at_, measured := some 0 } } := by
        unfold Shot.closed Shot.opened
        simp only [Option.getD_some, hzero]
      rw [hy] at hclosed
      refine hbecomes ((Part.flushEnd_sync htimer hdue hseq hcurrent hmode).trans ?_) hclosed hbegun.symm
      unfold Part.startSync
      rw [hearly]
      refine (if_pos rfl).trans ((if_neg (Bool.eq_false_iff.1 hcontact)).trans ?_)
      refine (congrArg (Part.closeExposure x.number at_ at_) (Part.exposed_openExposure _ _ esu _ _ _ _)).trans ?_
      rw [Part.exposed_closeExposure]
      exact if_neg hguard
    · have hrunning := hstarted.change (f := fun y => { y with state := .exposing }) fun _ => rfl
      intro running fire
      have hflush : s.part.flushEnd = (timedStrobe x.arming at_).elim
          (s.part.exposed (s.part.cpa.handed s.part.phase ⟨.exposureBegin, x.number, at_, [at_]⟩)
            (changeAt x.number (fun y => { y with state := .exposing }) (startedAt x.number at_ s.part.sht.records)) running)
          (fun fire => Part.scheduleStrobe x.number fire at_
            (s.part.exposed (s.part.cpa.handed s.part.phase ⟨.exposureBegin, x.number, at_, [at_]⟩)
            (changeAt x.number (fun y => { y with state := .exposing }) (startedAt x.number at_ s.part.sht.records)) running)) := by
        refine (Part.flushEnd_timed htimer hdue hseq hcurrent hmode).trans ?_
        unfold Part.startTimed
        simp only [Part.emitAt_eq]
        refine (if_neg htemp).trans ?_
        cases timedStrobe x.arming at_ <;> rfl
      have hfire (hplan : x.arming.plan ≠ .none) : timedStrobe x.arming at_ = some fire := by
        show _ = some (at_ + natWord _)
        unfold timedStrobe
        cases hp : x.arming.plan with
        | none => exact absurd hp hplan
        | first => rfl
        | last => rfl
      refine ⟨fun hplan => ?_, fun hplan hlater => ?_, fun hplan hlater => ?_⟩
      · have hnone : timedStrobe x.arming at_ = none := by unfold timedStrobe; rw [hplan]
        rw [hnone] at hflush
        exact hbecomes hflush hrunning hbegun.symm
      · rw [hfire hplan] at hflush
        refine hbecomes (hflush.trans ((Part.exposed_scheduleStrobe _ _ running _ _ _ _).trans (if_pos hlater)))
          (hrunning.change (f := Shot.strobed at_) fun _ => rfl) hbegun.symm
      · rw [hfire hplan] at hflush
        refine hbecomes (hflush.trans ((Part.exposed_scheduleStrobe _ _ running _ _ _ _).trans
          (if_neg (Bool.eq_false_iff.1 hlater)))) hrunning hbegun.symm
    · have htruncated := (hstarted.change (f := fun y => { y with state := .exposing }) fun _ => rfl).change
        (f := fun y => { y with exposure := { y.exposure with truncated := true } }) fun _ => rfl
      obtain ⟨d, y, hy, hread, hd, hexp, hesu, hcpa⟩ := Part.exposed_integrationEnd
        (s.part.cpa.handed s.part.phase ⟨.exposureBegin, x.number, at_, [at_]⟩) _ s.part.esu.integrating s.part x.number at_
        htruncated.changed hzero
      have hflush := (Part.flushEnd_timed htimer hdue hseq hcurrent hmode).trans
        (Eq.trans (by unfold Part.startTimed; simp only [Part.emitAt_eq]; exact if_pos htemp) rfl)
      refine ⟨_, y, hrow hflush, rfl, rfl, congrArg Esu.seq hesu, congrArg Esu.integLine hesu, hy, hread, by rw [hexp], by rw [hexp],
        by rw [hexp], by rw [hexp], d, hd, hcpa.trans (hreported _ _ _).symm⟩
    · have hclosed := (hstarted.change (f := Shot.opened at_) fun _ => rfl).change (f := Shot.closed at_) fun _ => rfl
      obtain ⟨d, y, hy, hread, hd, hexp, hesu, hcpa⟩ := Part.exposed_integrationEnd
        (s.part.cpa.handed s.part.phase ⟨.exposureBegin, x.number, at_, [at_]⟩) _ { esu with strobe := none } s.part x.number at_
        hclosed.changed hzero
      have hflush : s.part.flushEnd =
          Part.integrationEnd x.number at_
            (s.part.exposed (s.part.cpa.handed s.part.phase ⟨.exposureBegin, x.number, at_, [at_]⟩)
              (changeAt x.number (Shot.closed at_) (changeAt x.number (Shot.opened at_) (startedAt x.number at_ s.part.sht.records)))
              { esu with strobe := none }) := by
        refine (Part.flushEnd_sync htimer hdue hseq hcurrent hmode).trans ?_
        unfold Part.startSync
        rw [hearly]
        refine (if_pos rfl).trans ((if_neg (Bool.eq_false_iff.1 hcontact)).trans ?_)
        refine (congrArg (Part.closeExposure x.number at_ at_) (Part.exposed_openExposure _ _ esu _ _ _ _)).trans ?_
        rw [Part.exposed_closeExposure]
        exact if_pos hguard
      refine ⟨_, y, d, hrow hflush, rfl, rfl, congrArg Esu.seq hesu, congrArg Esu.integLine hesu, hy, hread, by rw [hexp]; rfl,
        by rw [hexp]; rfl, ?_, by rw [hexp]; rfl, by rw [hexp], by rw [hexp], hd, ?_⟩
      · rw [hexp]
        exact congrArg some hzero
      · rw [hcpa, hreported, ← hearly]
        rfl

/-! ## Accepted edges (R81 to R83, R91, R93, R94) -/

/-- An exposure with an edge recorded (R83). -/
def Exposure.recorded (e : Edge) (x : Exposure) : Exposure :=
  if x.edges.length < 16 then { x with edges := x.edges ++ [e] } else { x with edgeOverflow := x.edgeOverflow + 1 }

theorem Exposure.recorded_frame (e : Edge) (x : Exposure) :
    x.recorded e = { x with edges := (x.recorded e).edges, edgeOverflow := (x.recorded e).edgeOverflow } := by
  unfold Exposure.recorded
  split <;> rfl

/-- The records with an edge recorded against a shot. -/
def recordedAt (n : Word) (e : Edge) (l : List Shot) : List Shot :=
  changeAt n (fun y => { y with exposure := y.exposure.recorded e }) l

section Edges
variable {x : Shot} {e : Edge} (c : Cpa) (l : List Shot) (esu : Esu) (p : Part) (at_ : Word)

theorem Part.edgeOnShot_arming (hstate : x.state = .arming) (hclosing : e.closing = true) :
    (p.exposed c l esu).edgeOnShot x e at_ =
      p.exposed c (changeAt x.number (fun y => { y with exposure := { y.exposure with early := true } }) (recordedAt x.number e l)) esu := by
  unfold Part.edgeOnShot
  rw [hstate, hclosing]
  rfl

theorem Part.edgeOnShot_armed (hstate : x.state = .armed) (hmode : x.arming.mode = .sync) (hclosing : e.closing = true) :
    (p.exposed c l esu).edgeOnShot x e at_ =
      (p.exposed (c.handed p.phase ⟨.exposureBegin, x.number, at_, [e.time]⟩)
        (changeAt x.number (Shot.opened e.time) (recordedAt x.number e l)) { esu with armTimer := none }).firstStrobe x e.time at_ := by
  unfold Part.edgeOnShot
  rw [hstate, hmode, hclosing]
  exact congrArg (Part.firstStrobe x e.time at_) (Part.exposed_openExposure _ _ { esu with armTimer := none } _ _ _ _)

theorem Part.edgeOnShot_exposing (hstate : x.state = .exposing) (hmode : x.arming.mode = .sync) (hclosing : e.closing = false) :
    (p.exposed c l esu).edgeOnShot x e at_ = (p.exposed c (recordedAt x.number e l) esu).closeExposure x.number e.time at_ := by
  unfold Part.edgeOnShot
  rw [hstate, hmode, hclosing]
  rfl

/-- The record of an exposure that opens again (R94). -/
def Shot.reopened (y : Shot) : Shot :=
  { y with state := .exposing, exposure := { y.exposure with closeTime := none, measured := none } }

theorem Part.edgeOnShot_settling (hstate : x.state = .settling) (hmode : x.arming.mode = .sync) (hclosing : e.closing = true) :
    (p.exposed c l esu).edgeOnShot x e at_ =
      p.exposed c (changeAt x.number Shot.reopened (recordedAt x.number e l)) { esu with guardTimer := none } := by
  have hreopened : changeAt x.number Shot.reopened (recordedAt x.number e l) =
      changeAt x.number (fun y => { y with exposure := { y.exposure with closeTime := none, measured := none } })
        (changeAt x.number (fun y => { y with state := .exposing }) (recordedAt x.number e l)) := by
    symm
    exact changeAt_changeAt x.number (by exact fun _ => rfl) _
  unfold Part.edgeOnShot
  rw [hstate, hmode, hclosing, hreopened]
  rfl

theorem Part.edgeOnShot_reading (hstate : x.state = .reading) (hclosing : e.closing = true) :
    (p.exposed c l esu).edgeOnShot x e at_ =
      p.exposed c
        (changeAt x.number (fun y => { y with exposure := { y.exposure with late := y.exposure.late + 1 } }) (recordedAt x.number e l))
        esu := by
  unfold Part.edgeOnShot
  rw [hstate, hclosing]
  rfl

/-- Elsewhere an edge is recorded and has no other effect. -/
theorem Part.edgeOnShot_other
    (h : (x.arming.mode = .timed ∧ x.state = .exposing) ∨
      (x.state ∈ [ShotState.arming, .armed, .settling, .reading] ∧ e.closing = false) ∨ (x.state = .exposing ∧ e.closing = true)) :
    (p.exposed c l esu).edgeOnShot x e at_ = p.exposed c (recordedAt x.number e l) esu := by
  unfold Part.edgeOnShot
  rcases h with ⟨hmode, hstate⟩ | ⟨hstate, hclosing⟩ | ⟨hstate, hclosing⟩
  · rw [hmode, hstate]
    cases e.closing <;> rfl
  · simp only [List.mem_cons, List.not_mem_nil, or_false] at hstate
    rw [hclosing]
    rcases hstate with hstate | hstate | hstate | hstate <;> rw [hstate] <;> cases x.arming.mode <;> rfl
  · rw [hstate, hclosing]
    cases x.arming.mode <;> rfl

end Edges

/-- Settles O49: the edge by what the sequencer does, then by the shot's state; the commit for which a capture's end waits. -/
theorem edgesActOnTheShot : Obligations.EdgesActOnTheShot := by
  refine ⟨?edge, ?commit⟩
  case edge =>
    intro timer s htimer hdue closing esu
    have hacts : exec .syncEdgeAccept s =
        .next { s with part := Part.edgeActs ⟨timer.start, closing⟩ timer.expiry (s.part.exposed s.part.cpa s.part.sht.records esu) } := by
      refine Eq.trans (b := .next { s with part := s.part.syncEdgeAccept }) rfl (State.next_part_congr ?_)
      unfold Part.syncEdgeAccept
      rw [htimer]
      exact if_pos hdue
    have hrow {q : Part} (hq : Part.edgeActs ⟨timer.start, closing⟩ timer.expiry (s.part.exposed s.part.cpa s.part.sht.records esu) = q) :
        exec .syncEdgeAccept s = .next { s with part := q } := hacts.trans (State.next_part_congr hq)
    refine ⟨fun hseq => hrow ?_, fun hseq hopening => hrow ?_, fun c x hseq hclosing hc hending hx => ?_, fun x hseq hcurrent hx => ?_⟩
    · unfold Part.edgeActs
      have hseq' : esu.seq = .idle ∨ esu.seq = .darkFlush := hseq
      rcases hseq' with h | h
      · rw [show (s.part.exposed s.part.cpa s.part.sht.records esu).esu.seq = _ from h]
        rfl
      · rw [show (s.part.exposed s.part.cpa s.part.sht.records esu).esu.seq = _ from h]
        rfl
    · unfold Part.edgeActs
      rcases hseq with h | h
      · rw [show (s.part.exposed s.part.cpa s.part.sht.records esu).esu.seq = _ from h]
        exact if_neg (Bool.eq_false_iff.1 hopening)
      · rw [show (s.part.exposed s.part.cpa s.part.sht.records esu).esu.seq = _ from h]
        exact if_neg (Bool.eq_false_iff.1 hopening)
    · intro stopped
      have hend : Part.edgeActs ⟨timer.start, closing⟩ timer.expiry (s.part.exposed s.part.cpa s.part.sht.records esu) =
          (s.part.exposed s.part.cpa s.part.sht.records esu).endCapture .disturbed .nothing := by
        unfold Part.edgeActs
        rcases hseq with ⟨h, -⟩ | ⟨h, -⟩
        · rw [show (s.part.exposed s.part.cpa s.part.sht.records esu).esu.seq = _ from h]
          exact if_pos hclosing
        · rw [show (s.part.exposed s.part.cpa s.part.sht.records esu).esu.seq = _ from h]
          exact if_pos hclosing
      refine ⟨fun hidle => ?_, fun hphase hwork => hrow (hend.trans ?_)⟩
      · have hskip := Part.endCapture_skipped (p := s.part.exposed s.part.cpa s.part.sht.records esu) hc hending .disturbed
          (after := .nothing) (by rintro _ _ ⟨⟩) hidle
        obtain ⟨dpe, hqueue, hskipped⟩ := Part.captureSkipped_eq .disturbed (c.elapsed s.part.clock.time) c
          { s.part.exposed s.part.cpa s.part.sht.records esu with
            esu := esu.stopped, icr := if c.phase = .read then s.part.icr.cleared else s.part.icr }
        refine ⟨_, hrow (hend.trans (hskip.trans (congrArg (Part.afterCapture .nothing) hskipped))), rfl, rfl, rfl, rfl, rfl, rfl, rfl,
          hqueue, ?_, fun n hn => ?_, ?_⟩
        · exact (find?_skippedIn c.shot c.shot .disturbed s.part.sht.records).trans (by rw [if_pos rfl]; exact congrArg _ hx)
        · exact (find?_skippedIn c.shot n .disturbed s.part.sht.records).trans (if_neg hn)
        · rw [Part.captureFailureReported_eq]
          rfl
      · exact Part.endCapture_of_burst (p := s.part.exposed s.part.cpa s.part.sht.records esu) hc hending .disturbed _ hphase hwork
    · intro rec_ becomes
      have hshot {q : Part} (hq : Part.edgeOnShot x ⟨timer.start, closing⟩ timer.expiry
          (s.part.exposed s.part.cpa s.part.sht.records esu) = q) : exec .syncEdgeAccept s = .next { s with part := q } := by
        refine hrow (Eq.trans ?_ hq)
        have hcurrent : (s.part.exposed s.part.cpa s.part.sht.records esu).currentShot = some x := hcurrent
        unfold Part.edgeActs
        rw [hcurrent]
        simp only [List.mem_cons, List.not_mem_nil, or_false] at hseq
        rcases hseq with h | h | h
        · rw [show (s.part.exposed s.part.cpa s.part.sht.records esu).esu.seq = _ from h]
        · rw [show (s.part.exposed s.part.cpa s.part.sht.records esu).esu.seq = _ from h]
        · rw [show (s.part.exposed s.part.cpa s.part.sht.records esu).esu.seq = _ from h]
      have hrec : rec_ = x.exposure.recorded ⟨timer.start, closing⟩ := rfl
      have hrecorded : ChangedAt x.number { x with exposure := rec_ } s.part.sht.records
          (recordedAt x.number ⟨timer.start, closing⟩ s.part.sht.records) :=
        changedAt_changeAt (f := fun y => { y with exposure := y.exposure.recorded ⟨timer.start, closing⟩ }) (fun _ => rfl) hx
      have hbecomes {c : Cpa} {l : List Shot} {e : Esu} {y : Shot}
          (hq : Part.edgeOnShot x ⟨timer.start, closing⟩ timer.expiry (s.part.exposed s.part.cpa s.part.sht.records esu) =
            s.part.exposed c l e)
          (hl : ChangedAt x.number y s.part.sht.records l)
          (hc : c = if x.state = .armed ∧ y.state = .exposing then
            s.part.cpa.handed s.part.phase ⟨.exposureBegin, x.number, timer.expiry, [timer.start]⟩ else s.part.cpa) : becomes y e := by
        refine ⟨_, hshot hq, rfl, rfl, rfl, rfl, hc.trans ?_, hl.changed, hl.others⟩
        rw [Part.emitAt_eq]
      clear_value becomes
      refine ⟨fun hstate hclosing => ?_, fun hstate hmode hclosing hplan => ?_, fun hstate hmode hclosing hplan => ?_,
        fun hstate hmode hopening hguard => ?_, fun hstate hmode hopening hguard => ?_, fun hstate hmode hclosing => ?_,
        fun hstate hclosing => ?_, fun hother => ?_⟩
      · exact hbecomes (Part.edgeOnShot_arming _ _ _ _ _ hstate hclosing)
          (hrecorded.change (f := fun y => { y with exposure := { y.exposure with early := true } }) fun _ => rfl)
          (if_neg (by rw [hstate]; simp)).symm
      · have hopened := hrecorded.change (f := Shot.opened timer.start) fun _ => rfl
        refine hbecomes (y := { x with state := .exposing, exposure := { rec_ with openTime := some timer.start } })
          ((Part.edgeOnShot_armed _ _ _ _ _ hstate hmode hclosing).trans (if_neg hplan)) hopened (if_pos ⟨hstate, rfl⟩).symm
      · have hopened := hrecorded.change (f := Shot.opened timer.start) fun _ => rfl
        have hstrobe := (Part.edgeOnShot_armed s.part.cpa s.part.sht.records esu s.part timer.expiry hstate hmode
          (e := ⟨timer.start, closing⟩) hclosing).trans ((Part.exposed_firstStrobe _ _ _ _ _ _).trans ((if_pos hplan).trans
            (Part.exposed_scheduleStrobe _ _ { esu with armTimer := none } _ _ _ _)))
        intro fire
        refine ⟨fun hlater => ?_, fun hlater => ?_⟩
        · exact hbecomes (hstrobe.trans (if_pos hlater)) (hopened.change (f := Shot.strobed timer.expiry) fun _ => rfl)
            (if_pos ⟨hstate, rfl⟩).symm
        · exact hbecomes (hstrobe.trans (if_neg (Bool.eq_false_iff.1 hlater))) hopened (if_pos ⟨hstate, rfl⟩).symm
      · have hclosed := hrecorded.change (f := Shot.closed timer.start) fun _ => rfl
        have hopen : rec_.openTime = x.exposure.openTime := by rw [hrec, Exposure.recorded_frame]
        have hy : Shot.closed timer.start { x with exposure := rec_ } =
            { x with
              state := .settling
              exposure :=
                { rec_ with
                  closeTime := some timer.start, measured := some (timer.start - x.exposure.openTime.getD timer.start).toNat } } := by
          rw [← hopen]
          rfl
        rw [hy] at hclosed
        exact hbecomes ((Part.edgeOnShot_exposing _ _ _ _ _ hstate hmode hopening).trans
          ((Part.exposed_closeExposure _ _ _ _ _ _ _).trans (if_neg hguard))) hclosed (if_neg (by simp)).symm
      · have hclosed := hrecorded.change (f := Shot.closed timer.start) fun _ => rfl
        have hframe : rec_ = { x.exposure with edges := rec_.edges, edgeOverflow := rec_.edgeOverflow } := Exposure.recorded_frame _ _
        obtain ⟨d, y, hy, hread, hd, hexp, hesu, hcpa⟩ := Part.exposed_integrationEnd s.part.cpa _ { esu with strobe := none } s.part
          x.number timer.expiry hclosed.changed rfl
        have hq := (Part.edgeOnShot_exposing s.part.cpa s.part.sht.records esu s.part timer.expiry hstate hmode
          (e := ⟨timer.start, closing⟩) hopening).trans ((Part.exposed_closeExposure _ _ _ _ _ _ _).trans (if_pos hguard))
        refine ⟨_, y, hshot hq, rfl, rfl, congrArg Esu.seq hesu, congrArg Esu.integLine hesu, congrArg Esu.strobe hesu, hy, hread,
          by rw [hexp]; rfl, by rw [hexp], d, hd, ?_⟩
        rw [hcpa, Part.integrationReported_eq]
        unfold Shot.closed
        simp only
        rw [hframe]
      · exact hbecomes (Part.edgeOnShot_settling _ _ _ _ _ hstate hmode hclosing) (hrecorded.change (f := Shot.reopened) fun _ => rfl)
          (if_neg (by rw [hstate]; simp)).symm
      · exact hbecomes (Part.edgeOnShot_reading _ _ _ _ _ hstate hclosing)
          (hrecorded.change (f := fun y => { y with exposure := { y.exposure with late := y.exposure.late + 1 } }) fun _ => rfl)
          (if_neg (by rw [hstate]; simp)).symm
      · refine hbecomes (Part.edgeOnShot_other _ _ _ _ _ hother) hrecorded (if_neg ?_).symm
        rintro ⟨harmed, hexposing⟩
        rw [harmed] at hexposing
        cases hexposing
  case commit =>
    intro s w g c e x hwork hstage hg hkind hres hc he hafter harms hx
    have hcommit := Part.ingestCommit_of_ending hwork hstage hg hres he
    rw [Part.commitAnswered_of_dark hkind, Part.finishEnding_of_skipped (c := c) (by exact hc) (by rw [hafter]; rintro _ _ ⟨⟩), hafter,
      harms] at hcommit
    obtain ⟨dpe, hqueue, hskipped⟩ := Part.captureSkipped_eq e.reason e.elapsed c
      { s.part with
        pts := { s.part.pts with answer := some ⟨true, []⟩, queue := s.part.pts.queue.tail, head := none }
        icr := { s.part.icr.cleared with work := none } }
    have hrow : exec .ingestCommit s = .next { s with part := s.part.ingestCommit } := rfl
    refine ⟨_, hrow.trans (State.next_part_congr (hcommit.trans hskipped)), rfl, rfl, rfl, rfl, rfl, rfl, rfl, rfl, hqueue, ?_,
      fun n hn => ?_, rfl, ?_⟩
    · exact (find?_skippedIn c.shot c.shot e.reason s.part.sht.records).trans (by rw [if_pos rfl]; exact congrArg _ hx)
    · exact (find?_skippedIn c.shot n e.reason s.part.sht.records).trans (if_neg hn)
    · rw [Part.emit_eq, Part.emit_eq, Part.statusDirty_eq]
      rfl

end Sys2Proof.Machine
end

section
/-! PROOFS. The input lines' debounce (R81, R86, R182, R212), accepted card and supply changes (R98, R123, R182, R183, R212), and the
probe's readings and limits (R99, R207 to R211). -/

namespace Sys2Proof.Machine

/-! ## Debounce -/

theorem not_ne_bool (b : Bool) : (!b) ≠ b := by cases b <;> decide

theorem supplyOf_eq (level : Bool) (st : Supply) : supplyOf level = st ↔ level = decide (st = .low) := by
  cases level <;> cases st <;> simp [supplyOf]

section Lines
variable {p : Part} (hphase : p.phase ≠ .asserted)
include hphase

theorem Part.syncTransition_back : p.syncTransition p.esu.contact =
    { p with pins := { p.pins with sync := p.esu.contact }, esu := { p.esu with contactTimer := none } } := by
  unfold Part.syncTransition
  exact (if_neg hphase).trans (if_pos rfl)

theorem Part.syncTransition_away (h : p.esu.contactTimer.isSome = true ∨ p.esu.active.debounce ≠ 0) :
    p.syncTransition (!p.esu.contact) =
      { p with
        pins := { p.pins with sync := !p.esu.contact }
        esu := { p.esu with contactTimer := some (p.esu.contactTimer.getD ⟨p.clock.time, p.esu.active.debounce⟩) } } := by
  unfold Part.syncTransition
  refine (if_neg hphase).trans ((if_neg (not_ne_bool _)).trans ?_)
  cases htimer : p.esu.contactTimer with
  | some timer =>
    have hesu : p.esu = { p.esu with contactTimer := some timer } := by rw [← htimer]
    refine (if_pos rfl).trans ?_
    rw [Option.getD_some, ← hesu]
  | none =>
    exact (if_neg Bool.false_ne_true).trans (if_neg (h.resolve_left (by rw [htimer]; exact Bool.false_ne_true)))

/-- With a debounce of 0 the edge is accepted at once, at its own time (R81). -/
theorem Part.syncTransition_at_once (htimer : p.esu.contactTimer = none) (hdebounce : p.esu.active.debounce = 0) :
    p.syncTransition (!p.esu.contact) =
      Part.syncEdgeAccept
        { p with
          pins := { p.pins with sync := !p.esu.contact }, esu := { p.esu with contactTimer := some ⟨p.clock.time, 0⟩ } } := by
  have hdue : Timer.due ⟨p.clock.time, 0⟩ p.clock.time = true := decide_eq_true (Nat.zero_le _)
  have hexpiry : Timer.expiry ⟨p.clock.time, 0⟩ = p.clock.time := BitVec.add_zero _
  unfold Part.syncTransition
  refine (if_neg hphase).trans ((if_neg (not_ne_bool _)).trans ((if_neg (by rw [htimer]; exact Bool.false_ne_true)).trans
    ((if_pos hdebounce).trans ?_)))
  unfold Part.syncEdgeAccept
  refine Eq.trans ?_ (if_pos hdue).symm
  rw [hexpiry]
  rfl

theorem Part.armInTransition_back : p.armInTransition p.esu.button =
    { p with pins := { p.pins with arm := p.esu.button }, esu := { p.esu with buttonTimer := none } } := by
  unfold Part.armInTransition
  exact (if_neg hphase).trans (if_pos rfl)

theorem Part.armInTransition_away : p.armInTransition (!p.esu.button) =
    { p with
      pins := { p.pins with arm := !p.esu.button }
      esu := { p.esu with buttonTimer := some (p.esu.buttonTimer.getD ⟨p.clock.time, 20000⟩) } } := by
  unfold Part.armInTransition
  refine (if_neg hphase).trans ((if_neg (not_ne_bool _)).trans ?_)
  cases htimer : p.esu.buttonTimer with
  | some timer =>
    have hesu : p.esu = { p.esu with buttonTimer := some timer } := by rw [← htimer]
    refine (if_pos rfl).trans ?_
    rw [Option.getD_some, ← hesu]
  | none => exact if_neg Bool.false_ne_true

theorem Part.cardDetectTransition_back : p.cardDetectTransition p.cde.seated =
    { p with pins := { p.pins with card := p.cde.seated }, cde := { p.cde with detectTimer := none } } := by
  unfold Part.cardDetectTransition
  exact (if_neg hphase).trans (if_pos rfl)

theorem Part.cardDetectTransition_away : p.cardDetectTransition (!p.cde.seated) =
    { p with
      pins := { p.pins with card := !p.cde.seated }
      cde := { p.cde with detectTimer := some (p.cde.detectTimer.getD ⟨p.clock.time, 50000⟩) } } := by
  unfold Part.cardDetectTransition
  refine (if_neg hphase).trans ((if_neg (not_ne_bool _)).trans ?_)
  cases htimer : p.cde.detectTimer with
  | some timer =>
    have hcde : p.cde = { p.cde with detectTimer := some timer } := by rw [← htimer]
    refine (if_pos rfl).trans ?_
    rw [Option.getD_some, ← hcde]
  | none => exact if_neg Bool.false_ne_true

theorem Part.supplyTransition_back : p.supplyTransition (decide (p.tsm.supply = .low)) =
    { p with pins := { p.pins with supply := decide (p.tsm.supply = .low) }, tsm := { p.tsm with supplyTimer := none } } := by
  unfold Part.supplyTransition
  exact (if_neg hphase).trans (if_pos ((supplyOf_eq _ _).2 rfl))

theorem Part.supplyTransition_away : p.supplyTransition (!decide (p.tsm.supply = .low)) =
    { p with
      pins := { p.pins with supply := !decide (p.tsm.supply = .low) }
      tsm := { p.tsm with supplyTimer := some (p.tsm.supplyTimer.getD ⟨p.clock.time, 10000⟩) } } := by
  unfold Part.supplyTransition
  refine (if_neg hphase).trans ((if_neg fun h => not_ne_bool _ ((supplyOf_eq _ _).1 h)).trans ?_)
  cases htimer : p.tsm.supplyTimer with
  | some timer =>
    have htsm : p.tsm = { p.tsm with supplyTimer := some timer } := by rw [← htimer]
    refine (if_pos rfl).trans ?_
    rw [Option.getD_some, ← htsm]
  | none => exact if_neg Bool.false_ne_true

end Lines

/-- Settles O47: each line by whether its level is the debounced one. -/
theorem inputLinesAreDebounced : Obligations.InputLinesAreDebounced := by
  intro s hphase now line
  have hrow (i : Instr) (f : Part → Part) (h : exec i s = .next { s with part := f s.part }) {q : Part} (hq : f s.part = q) :
      exec i s = .next { s with part := q } := h.trans (State.next_part_congr hq)
  refine ⟨fun h => ⟨hrow _ _ rfl (Part.syncTransition_back hphase), hrow _ _ rfl (Part.syncTransition_away hphase h)⟩,
    fun htimer hdebounce => ?_, ⟨hrow _ _ rfl (Part.armInTransition_back hphase), hrow _ _ rfl (Part.armInTransition_away hphase)⟩,
    ⟨hrow _ _ rfl (Part.cardDetectTransition_back hphase), hrow _ _ rfl (Part.cardDetectTransition_away hphase)⟩,
    hrow _ _ rfl (Part.supplyTransition_back hphase), hrow _ _ rfl (Part.supplyTransition_away hphase)⟩
  exact hrow _ _ rfl (Part.syncTransition_at_once hphase htimer hdebounce)

/-! ## One request changed in the queue -/

theorem find?_map_id {l : List Request} {f : Request → Request} (n : Nat) (hf : ∀ r, (f r).id = r.id) :
    (l.map fun r => if r.id = n then f r else r).find? (fun r => decide (r.id = n)) =
      (l.find? fun r => decide (r.id = n)).map f := by
  induction l with
  | nil => rfl
  | cons r l ih =>
    rw [List.map_cons, List.find?_cons, List.find?_cons, ih]
    by_cases h : r.id = n
    · simp [h, hf]
    · simp [h]

theorem find?_of_filter {l : List Request} {r : Request} {n : Nat} (h : (l.filter fun x => decide (x.id = n)) = [r]) :
    l.find? (fun x => decide (x.id = n)) = some r := by
  rw [← List.head?_filter, h]
  rfl

/-- A halted request's shot, if it is a STORE's, leaves STORING (R201). -/
def leftStoring (r : Request) (l : List Shot) : List Shot :=
  match r.work with
  | .store n _ => changeAt n (fun y => if y.state = .storing then { y with state := .developed } else y) l
  | _ => l

theorem Part.haltRequest_eq {r : Request} {p : Part} (hr : p.cde.requests.find? (fun x => decide (x.id = r.id)) = some r) (cause : Cause) :
    p.haltRequest r.id cause =
      { p with
        cpa := (p.cpa.dirtied p.phase).handed p.phase ⟨.cardHalted, r.shot, p.clock.time, [natWord r.id, natWord cause.code]⟩
        cde :=
          { p.cde with
            requests := p.cde.requests.map fun x => if x.id = r.id then { x with state := .halted, cause := some cause } else x
            run := none }
        sht := { p.sht with records := leftStoring r p.sht.records } } := by
  unfold Part.haltRequest leftStoring
  rw [hr]
  simp only [Part.emit_eq, Part.statusDirty_eq]
  cases r.work <;> rfl

/-- With RESET_SHOTS not in progress nothing stops. -/
theorem Part.checkCdeStop_of_none {p : Part} (h : p.cpa.resetting = none) : p.checkCdeStop = p := by
  have hstop : p.cdeStopping = false := by unfold Part.cdeStopping; rw [h]
  unfold Part.checkCdeStop
  rw [hstop]
  rfl

/-! ## The card's removal (R183) -/

section Removal
variable {timer : Timer} {p : Part} (htimer : p.cde.detectTimer = some timer) (hdue : timer.due p.clock.time = true)
include htimer hdue

theorem Part.cardInserted_of_absent (hseated : p.cde.seated = false) (hcard : p.cde.card = .absent) :
    p.cardInserted =
      Part.emit .cardState 0 [1]
        (Part.statusDirty
          { p with cde := { p.cde with seated := true, detectTimer := none, card := .present, capacity := none } }) := by
  have hdue' : timerDue p.cde.detectTimer p.now = true := by rw [htimer]; exact hdue
  unfold Part.cardInserted
  rw [hdue', hseated]
  refine (if_pos rfl).trans ((if_pos hcard).trans ?_)
  rfl

/-- The part with the card gone, before what it ends. -/
def Part.cardGone (p : Part) : Part :=
  Part.emit .cardState 0 [0]
    (Part.statusDirty { p with cde := { p.cde with seated := false, detectTimer := none, card := .absent, capacity := none } })

omit htimer hdue in
theorem Part.cardGone_eq (p : Part) :
    p.cardGone =
      { p with
        cpa := (p.cpa.dirtied p.phase).handed p.phase ⟨.cardState, 0, p.clock.time, [0]⟩
        cde := { p.cde with seated := false, detectTimer := none, card := .absent, capacity := none } } := by
  unfold Part.cardGone
  rw [Part.emit_eq, Part.statusDirty_eq]

variable (hseated : p.cde.seated = true)
include hseated

theorem Part.cardRemoval_of_bringup {b : Bringup} (hb : p.cde.bringup = some b) :
    p.cardRemoval =
      Part.endCommand b.slot .failed (if b.aborting then .aborted else .noCard) [natWord b.step.code]
        { p.cardGone with cde := { p.cardGone.cde with bringup := none } } := by
  have hdue' : timerDue p.cde.detectTimer p.now = true := by rw [htimer]; exact hdue
  have hgone : p.cardGone.cde.bringup = some b := by rw [Part.cardGone_eq]; exact hb
  unfold Part.cardRemoval
  rw [hdue', hseated]
  refine (if_pos rfl).trans ?_
  have hset : Part.setCard .absent [] { p with cde := { p.cde with seated := false, detectTimer := none } } = p.cardGone := rfl
  simp only [hset, hgone]
  rfl

variable (hb : p.cde.bringup = none)
include hb

theorem Part.cardRemoval_of_rest : p.cardRemoval = (p.cde.activeRequest.elim p.cardGone fun r => p.cardGone.removalOf r) := by
  have hdue' : timerDue p.cde.detectTimer p.now = true := by rw [htimer]; exact hdue
  have hgone : p.cardGone.cde.bringup = none := by rw [Part.cardGone_eq]; exact hb
  have hactive : p.cardGone.cde.activeRequest = p.cde.activeRequest := by rw [Part.cardGone_eq]; rfl
  rw [← hactive]
  unfold Part.cardRemoval
  rw [hdue', hseated]
  refine (if_pos rfl).trans ?_
  have hset : Part.setCard .absent [] { p with cde := { p.cde with seated := false, detectTimer := none } } = p.cardGone := rfl
  simp only [hset, hgone]
  cases p.cardGone.cde.activeRequest <;> rfl

end Removal

/-- The ACTIVE request halts with the card gone (R183, R201). -/
theorem Part.removalOf_of_kept {r : Request} {p : Part} (hcancel : r.cancel = false) (hres : p.cpa.resetting = none)
    (hr : p.cde.requests.find? (fun x => decide (x.id = r.id)) = some r) :
    p.removalOf r =
      { p with
        cpa := (p.cpa.dirtied p.phase).handed p.phase ⟨.cardHalted, r.shot, p.clock.time, [natWord r.id, 7]⟩
        cde :=
          { p.cde with
            requests := p.cde.requests.map fun x => if x.id = r.id then { x with state := .halted, cause := some .cardAbsent } else x
            run := none }
        sht := { p.sht with records := leftStoring r p.sht.records } } := by
  unfold Part.removalOf
  rw [hcancel]
  refine Eq.trans (b := Part.checkCdeStop (Part.haltRequest r.id .cardAbsent (p.setRun none))) rfl ?_
  rw [Part.haltRequest_eq (r := r) (by exact hr), Part.checkCdeStop_of_none (by simpa using hres)]
  rfl

/-- A transfer marked for cancellation leaves the queue (R203). -/
theorem Part.cancelRequest_of_transfer {r : Request} (h : r.work.isStore = false) (done : Nat) (p : Part) :
    p.cancelRequest r done =
      Part.emit .cardRequestDone 0 [natWord r.id, 1, natWord done]
        (Part.statusDirty { p with cde := { p.cde with requests := p.cde.requests.filter fun x => decide (x.id ≠ r.id) } }) := by
  unfold Part.cancelRequest Part.requestDone Request.shot
  cases hw : r.work with
  | store n es => rw [hw] at h; cases h
  | write | read => rfl

/-! ## The supply's change (R98, R123, R212) -/

section Supply
variable {timer : Timer} {p : Part} (htimer : p.tsm.supplyTimer = some timer) (hdue : timer.due p.clock.time = true)

/-- The part with its supply state changed, before anything is told. -/
def Part.supplied (st : Supply) (p : Part) : Part := { p with tsm := { p.tsm with supply := st, supplyTimer := none } }

include htimer hdue

theorem Part.supplyChange_to_normal (hlow : p.tsm.supply ≠ .normal) :
    p.supplyChange = Part.statusDirty (Part.emitAt timer.expiry .supplyState 0 [0] (p.supplied .normal)) := by
  have hst : p.tsm.supply = .low := by cases h : p.tsm.supply with
    | normal => exact absurd h hlow
    | low => rfl
  unfold Part.supplyChange
  rw [htimer]
  refine (if_pos hdue).trans ?_
  rw [hst]
  rfl

theorem Part.supplyChange_to_low (hnormal : p.tsm.supply = .normal) {q : Part}
    (hq : ((p.supplied .low).toldLowSupply timer.expiry).endCapture .lowSupply .nothing = q) :
    p.supplyChange = Part.statusDirty (Part.emitAt timer.expiry .supplyState 0 [1] q) := by
  subst hq
  unfold Part.supplyChange
  rw [htimer]
  refine (if_pos hdue).trans ?_
  rw [hnormal]
  rfl

end Supply

theorem Part.endCapture_of_none {p : Part} (h : p.dfl.capture = none) (reason : DarkReason) (after : After) :
    p.endCapture reason after = p := by
  unfold Part.endCapture
  rw [h]

/-- The ESU is told of a LOW supply: the limit is reached or nothing happens (R98). -/
theorem Part.toldLowSupply_eq {x : Shot} {p : Part} (hx : p.currentShot = some x) (at_ : Word) :
    p.toldLowSupply at_ = if p.limitReached x at_ then p.reachLimit x at_ else p := by
  unfold Part.toldLowSupply
  rw [hx]

theorem Part.toldLowSupply_of_rest {p : Part} {at_ : Word} (hlow : p.tsm.supply = .low)
    (h : p.currentShot = none ∨ p.esu.seq ≠ .shotIntegrate ∨
      ∃ x start, p.currentShot = some x ∧ x.exposure.integStart = some start ∧ (at_ - start).toNat < 60000000) :
    p.toldLowSupply at_ = p := by
  rcases h with h | h | ⟨x, start, hx, hstart, hshort⟩
  · unfold Part.toldLowSupply
    rw [h]
  · cases hx : p.currentShot with
    | none => unfold Part.toldLowSupply; rw [hx]
    | some x =>
      rw [Part.toldLowSupply_eq hx]
      refine if_neg ?_
      unfold Part.limitReached
      rw [decide_eq_false h, Bool.false_and]
      exact Bool.false_ne_true
  · rw [Part.toldLowSupply_eq hx]
    refine if_neg ?_
    unfold Part.limitReached
    rw [hstart, hlow]
    have hlimit : decide (Supply.low.limit ≤ (at_ - start).toNat) = false := decide_eq_false (Nat.not_le.2 hshort)
    simp only [hlimit, Bool.and_false]
    exact Bool.false_ne_true

theorem Part.toldLowSupply_of_reached {p : Part} {x : Shot} {start at_ : Word} (hlow : p.tsm.supply = .low) (hx : p.currentShot = some x)
    (hseq : p.esu.seq = .shotIntegrate) (hstart : x.exposure.integStart = some start) (hlater : notLater start at_ = true)
    (hlong : 60000000 ≤ (at_ - start).toNat) : p.toldLowSupply at_ = p.reachLimit x at_ := by
  rw [Part.toldLowSupply_eq hx, Part.limitReached_eq hseq hstart, hlater, hlow]
  exact if_pos (decide_eq_true hlong)

/-- Settles O48: the card seated and removed, with what the removal ends; the supply's change, with what LOW ends. -/
theorem cardAndSupplyChangesAreAccepted : Obligations.CardAndSupplyChangesAreAccepted := by
  refine ⟨?card, ?supply⟩
  case card =>
    intro timer s htimer hdue
    have hrow {q : Part} (hq : s.part.cardRemoval = q) : exec .cardRemoval s = .next { s with part := q } :=
      Eq.trans (b := .next { s with part := s.part.cardRemoval }) rfl (State.next_part_congr hq)
    refine ⟨fun hseated hcard => ?_, fun hseated => ?_⟩
    · exact Eq.trans (b := .next { s with part := s.part.cardInserted }) rfl
        (State.next_part_congr (Part.cardInserted_of_absent htimer hdue hseated hcard))
    · intro gone
      have hgone : gone = { s.part with
          cpa := (s.part.cpa.dirtied s.part.phase).handed s.part.phase ⟨.cardState, 0, s.part.clock.time, [0]⟩
          cde := { s.part.cde with seated := false, detectTimer := none, card := .absent, capacity := none } } := Part.cardGone_eq s.part
      refine ⟨fun hb hactive => hrow ?_, fun b hb => hrow (Part.cardRemoval_of_bringup htimer hdue hseated hb),
        fun r hb hactive hcancel hres hfilter => ?_, fun r hb hactive hcancel hres hstore => hrow ?_⟩
      · rw [Part.cardRemoval_of_rest htimer hdue hseated hb, hactive]
        rfl
      · have hfind : s.part.cde.requests.find? (fun x => decide (x.id = r.id)) = some r := find?_of_filter hfilter
        have hremoval : s.part.cardRemoval = gone.removalOf r := by
          rw [Part.cardRemoval_of_rest htimer hdue hseated hb, hactive]
          rfl
        rw [hgone, Part.removalOf_of_kept hcancel (by simpa using hres) (by exact hfind)] at hremoval
        refine ⟨_, hrow hremoval, rfl, rfl, rfl, rfl, rfl, ?_, ?_, fun n es y hwork hy => ?_⟩
        · exact (find?_map_id r.id (f := fun x => { x with state := .halted, cause := some .cardAbsent }) (fun _ => rfl)).trans
            (by rw [hfind]; rfl)
        · rw [hgone, Part.emit_eq, Part.statusDirty_eq]
        · show (leftStoring r s.part.sht.records).find? _ = _
          unfold leftStoring
          rw [hwork]
          refine (changedAt_changeAt (f := fun y => if y.state = .storing then { y with state := .developed } else y) (fun y => ?_) hy).changed
          split <;> rfl
      · rw [Part.cardRemoval_of_rest htimer hdue hseated hb, hactive]
        have hremoval : s.part.cardGone.removalOf r =
            Part.checkCdeStop (Part.cancelRequest r r.done (s.part.cardGone.setRun none)) := by
          unfold Part.removalOf
          rw [hcancel]
          rfl
        refine hremoval.trans ?_
        rw [Part.cancelRequest_of_transfer hstore, Part.cardGone_eq, hgone, Part.emit_eq, Part.emit_eq, Part.statusDirty_eq, Part.statusDirty_eq,
          Part.checkCdeStop_of_none (by simpa using hres)]
        rfl
  case supply =>
    intro timer s htimer hdue st stopped
    have hrow {q : Part} (hq : s.part.supplyChange = q) : exec .supplyState s = .next { s with part := q } :=
      Eq.trans (b := .next { s with part := s.part.supplyChange }) rfl (State.next_part_congr hq)
    have hlow {q : Part} (hnormal : s.part.tsm.supply = .normal)
        (hq : ((s.part.supplied .low).toldLowSupply timer.expiry).endCapture .lowSupply .nothing = q) :
        exec .supplyState s = .next { s with part := Part.statusDirty (Part.emitAt timer.expiry .supplyState 0 [1] q) } :=
      hrow (Part.supplyChange_to_low htimer hdue hnormal hq)
    refine ⟨fun hrest => ?_, fun x start hnormal hseq hc hcurrent hx hstate hstart hlater hlong => ?_,
      fun x start hnormal hseq hc hcurrent hx hstate hdark hreq hstart hlater hlong => ?_,
      fun c x hnormal hcurrent hc hending hx => ⟨fun hidle => ?_, fun hphase hwork => ?_⟩⟩
    · by_cases hnormal : s.part.tsm.supply = .normal
      · have hst : st = .low := if_pos hnormal
        obtain ⟨hshort, hc⟩ := hrest hnormal
        rw [hst, if_pos hnormal]
        refine hlow hnormal ?_
        rw [Part.toldLowSupply_of_rest (p := s.part.supplied .low) rfl hshort, Part.endCapture_of_none (by exact hc)]
        rfl
      · have hst : st = .normal := if_neg hnormal
        rw [hst, if_neg hnormal]
        exact hrow (Part.supplyChange_to_normal htimer hdue hnormal)
    · have hflagged := changedAt_changeAt (f := fun y => { y with exposure := { y.exposure with overlong := true } }) (fun _ => rfl) hx
      obtain ⟨use, heq⟩ := Part.integrationEnd_eq timer.expiry
        (p := (s.part.supplied .low).modExposure x.number fun e => { e with overlong := true }) hflagged.changed
        (ts := (timer.expiry - start).toNat) (by rw [hstart]; rfl)
      have hfound := hflagged.change (f := Shot.readBegun timer.expiry (timer.expiry - start).toNat
        ((s.part.supplied .low).modExposure x.number fun e => { e with overlong := true }).temperature
        (Part.darkDecision x.arming.gain (timer.expiry - start).toNat
          ((s.part.supplied .low).modExposure x.number fun e => { e with overlong := true }).temperature
          ((s.part.supplied .low).modExposure x.number fun e => { e with overlong := true })).source) fun _ => rfl
      have hreach := ((Part.toldLowSupply_of_reached (p := s.part.supplied .low) rfl hcurrent hseq hstart hlater hlong).trans
        (Part.reachLimit_of_integrating hstate _ _)).trans heq
      have hend := (congrArg (Part.endCapture .lowSupply .nothing) hreach).trans
        (Part.endCapture_of_none ((Dfl.taking_capture _ _ _).trans hc) _ _)
      have hexec := hlow hnormal hend
      rw [Part.emitAt_eq, Part.statusDirty_eq] at hexec
      refine ⟨_, _, hexec, rfl, rfl, rfl, rfl, rfl, hfound.changed, rfl, rfl, rfl, rfl, _, rfl, ?_⟩
      rw [Part.statusDirty_eq, Part.emitAt_eq, Part.integrationReported_eq]
      rfl
    · have hmiss := ((Part.toldLowSupply_of_reached (p := s.part.supplied .low) rfl hcurrent hseq hstart hlater hlong).trans
        (Part.reachLimit_of_armed hstate _ _)).trans (Part.missShot_of_unreferenced (by exact hx) timer.expiry (by rw [hdark]; rfl))
      have hend := (congrArg (Part.endCapture .lowSupply .nothing) hmiss).trans (Part.endCapture_of_none (by exact hc) _ _)
      have hexec := hlow hnormal hend
      have hnone : (s.part.supplied .low).requestFor x.number = none := hreq
      rw [Part.emitAt_eq, Part.statusDirty_eq] at hexec
      refine ⟨_, hexec, rfl, rfl, rfl, rfl, rfl, rfl, ?_⟩
      simp only [hnone, Part.statusDirty_eq, Part.emitAt_eq, Part.emit_eq]
      rfl
    · have htold : (s.part.supplied .low).toldLowSupply timer.expiry = s.part.supplied .low :=
        Part.toldLowSupply_of_rest rfl (.inl hcurrent)
      have hskip := Part.endCapture_skipped (p := s.part.supplied .low) hc hending .lowSupply (after := .nothing) (by rintro _ _ ⟨⟩) hidle
      obtain ⟨dpe, hqueue, hskipped⟩ := Part.captureSkipped_eq .lowSupply (c.elapsed s.part.clock.time) c
        { s.part.supplied .low with
          esu := s.part.esu.stopped, icr := if c.phase = .read then s.part.icr.cleared else s.part.icr }
      have hend := (congrArg (Part.endCapture .lowSupply .nothing) htold).trans (hskip.trans (congrArg (Part.afterCapture .nothing) hskipped))
      have hexec := hlow hnormal hend
      rw [Part.emitAt_eq, Part.statusDirty_eq] at hexec
      refine ⟨_, hexec, rfl, rfl, rfl, rfl, rfl, rfl, rfl, hqueue, ?_, fun n hn => ?_, ?_⟩
      · exact (find?_skippedIn c.shot c.shot .lowSupply s.part.sht.records).trans (by rw [if_pos rfl]; exact congrArg _ hx)
      · exact (find?_skippedIn c.shot n .lowSupply s.part.sht.records).trans (if_neg hn)
      · rw [Part.captureFailureReported_eq, Part.statusDirty_eq, Part.emitAt_eq]
        rfl
    · refine hlow hnormal ?_
      rw [Part.toldLowSupply_of_rest (p := s.part.supplied .low) rfl (.inl hcurrent)]
      exact Part.endCapture_of_burst (p := s.part.supplied .low) hc hending .lowSupply _ hphase hwork

/-! ## The probe (R207 to R210) -/

section Probe
variable {timer : Timer} {p : Part} (htimer : p.tsm.transaction = some timer)

theorem Part.setTemp_eq (st : TempState) (reading : Option Int) (time : Word) (p : Part) {q : Part}
    (hq : (if st ≠ p.tsm.temp ∧ st = .critical then Part.toldCritical { p with tsm := { p.tsm with temp := st, reading := reading } }
      else { p with tsm := { p.tsm with temp := st, reading := reading } }) = q) :
    p.setTemp st reading time =
      if st ≠ p.tsm.temp then Part.statusDirty (q.emitAt time .tempState 0 [natWord st.code, intWord (reading.getD 0)])
      else if reading ≠ p.tsm.reading then q.statusDirty else q := by
  subst hq
  unfold Part.setTemp
  by_cases hst : st ≠ p.tsm.temp
  · by_cases hcrit : st = .critical
    · subst hcrit
      simp [hst]
    · simp [hst, hcrit]
  · simp [hst]

/-- A reading missed before the third, or in FAULT, is counted (R208). -/
theorem Part.missedReading_of_few (time : Word) (h : p.tsm.missed < 2 ∨ p.tsm.temp = .fault) :
    p.missedReading time =
      { p with tsm := { p.tsm with transaction := none, recovering := true, missed := min 3 (p.tsm.missed + 1) } } := by
  unfold Part.missedReading
  refine if_neg ?_
  rintro ⟨hmissed, htemp⟩
  rcases h with h | h
  · omega
  · exact htemp h

/-- The third reading missed in a row makes the state FAULT (R208). -/
theorem Part.missedReading_of_third (time : Word) (hmissed : p.tsm.missed = 2) (htemp : p.tsm.temp ≠ .fault) :
    p.missedReading time =
      Part.statusDirty
        (Part.emitAt time .tempState 0 [3, 0]
          { p with
            tsm := { p.tsm with transaction := none, recovering := true, missed := 3, temp := .fault, reading := none } }) := by
  unfold Part.missedReading
  refine (if_pos ⟨hmissed, htemp⟩).trans ?_
  rw [Part.setTemp_eq _ _ _ _ (if_neg (by rintro ⟨-, h⟩; cases h)), hmissed]
  exact if_pos htemp.symm

/-- CRITICAL is told to no shot, or to one in READING, or to a sequencer that serves none before READING (R99). -/
theorem Part.toldCritical_of_rest (h : p.currentShot = none ∨ (∃ x, p.currentShot = some x ∧ x.state = .reading) ∨
    p.esu.seq ∉ [Seq.shotFlush, .shotIntegrate]) : p.toldCritical = p := by
  unfold Part.toldCritical
  cases hx : p.currentShot with
  | none => rfl
  | some x =>
    refine if_pos ?_
    rcases h with h | ⟨y, hy, hstate⟩ | h
    · rw [hx] at h; cases h
    · obtain rfl := Option.some.inj (hx.symm.trans hy)
      exact .inl hstate
    · right
      cases hs : p.esu.seq with
      | shotFlush | shotIntegrate => simp [hs] at h
      | idle | shotRead | darkFlush | darkIntegrate | darkRead => rfl

section Told
variable {x : Shot} (hx : p.currentShot = some x) (hstate : x.state ≠ .reading) (hseq : p.esu.seq ∈ [Seq.shotFlush, .shotIntegrate])
include hx hstate hseq

theorem Part.toldCritical_of_exposing (hmode : x.arming.mode = .timed) (hexp : x.state = .exposing) :
    p.toldCritical = (p.modExposure x.number fun e => { e with hot := true, truncated := true }).integrationEnd x.number p.clock.time := by
  have hbefore : ¬(x.state = .reading ∨ p.esu.seq.beforeRead = false) := by
    simp only [List.mem_cons, List.not_mem_nil, or_false] at hseq
    rcases hseq with h | h <;> simp [hstate, h, Seq.beforeRead]
  unfold Part.toldCritical
  rw [hx]
  exact (if_neg hbefore).trans (if_pos ⟨hmode, hexp⟩)

theorem Part.toldCritical_of_other (h : ¬(x.arming.mode = .timed ∧ x.state = .exposing)) :
    p.toldCritical = p.modExposure x.number fun e => { e with hot := true } := by
  have hbefore : ¬(x.state = .reading ∨ p.esu.seq.beforeRead = false) := by
    simp only [List.mem_cons, List.not_mem_nil, or_false] at hseq
    rcases hseq with h | h <;> simp [hstate, h, Seq.beforeRead]
  unfold Part.toldCritical
  rw [hx]
  exact (if_neg hbefore).trans (if_neg h)

end Told

include htimer

theorem Part.tempReadingEnd_of_good {v : Half} (hlimit : (p.clock.time - timer.start).toNat ≤ 10000) (hlow : -160 ≤ v.toInt / 4)
    (hhigh : v.toInt / 4 ≤ 500) : p.tempReadingEnd true v = p.goodReading (v.toInt / 4) p.clock.time := by
  unfold Part.tempReadingEnd
  rw [htimer]
  exact (if_neg (Nat.not_lt.2 hlimit)).trans (if_pos ⟨rfl, hlow, hhigh⟩)

theorem Part.tempReadingEnd_of_bad {v : Half} (hlimit : (p.clock.time - timer.start).toNat ≤ 10000) {acknowledged : Bool}
    (h : acknowledged = false ∨ v.toInt / 4 < -160 ∨ 500 < v.toInt / 4) :
    p.tempReadingEnd acknowledged v = p.missedReading p.clock.time := by
  have hbad : ¬(acknowledged = true ∧ -160 ≤ quarterDegrees v ∧ quarterDegrees v ≤ 500) := by
    unfold quarterDegrees
    rintro ⟨hack, hlow, hhigh⟩
    rcases h with h | h | h
    · rw [h] at hack; cases hack
    · omega
    · omega
  unfold Part.tempReadingEnd
  rw [htimer]
  exact (if_neg (Nat.not_lt.2 hlimit)).trans (if_neg hbad)

end Probe

theorem clampInt_eq_max {lo hi : Int} (h : lo ≤ hi) (v : Int) : clampInt lo hi v = max lo (min v hi) := by
  rw [clampInt_eq h, Int.min_comm]

/-- Settles O54: a reading's start and its three ends, the state by its table, what CRITICAL ends, and the limits clamped in order. -/
theorem temperatureReadingsAndLimits : Obligations.TemperatureReadingsAndLimits := by
  refine ⟨⟨?start, ?reading, ?timeout⟩, ?limits⟩
  case start =>
    intro timer s hschedule htrans hdue
    refine Eq.trans (b := .next { s with part := s.part.tempReadingStart }) rfl (State.next_part_congr ?_)
    unfold Part.tempReadingStart
    rw [hschedule, htrans]
    exact if_pos hdue
  case reading =>
    intro timer v s htrans hlimit r m next after told
    have hrow {acknowledged : Bool} {q : Part} (hq : s.part.tempReadingEnd acknowledged v = q) :
        exec (.tempReadingEnd acknowledged v) s = .next { s with part := q } :=
      Eq.trans (b := .next { s with part := s.part.tempReadingEnd acknowledged v }) rfl (State.next_part_congr hq)
    have hnext : Tsm.next { m with transaction := none, missed := 0 } r = next := by
      cases htemp : m.temp <;> simp only [Tsm.next, Tsm.classify, next, htemp]
    have hgood {q : Part} (hlow : -160 ≤ r) (hhigh : r ≤ 500)
        (hq : (if next ≠ m.temp ∧ next = .critical then Part.toldCritical { s.part with tsm := after } else { s.part with tsm := after }) = q) :
        exec (.tempReadingEnd true v) s = .next
          { s with
            part :=
              if next ≠ m.temp then Part.statusDirty (q.emitAt s.part.clock.time .tempState 0 [natWord next.code, intWord r])
              else if some r ≠ m.reading then q.statusDirty else q } := by
      refine hrow ((Part.tempReadingEnd_of_good htrans hlimit hlow hhigh).trans ?_)
      unfold Part.goodReading
      simp only
      rw [show Tsm.next _ (v.toInt / 4) = next from hnext]
      exact Part.setTemp_eq next (some r) s.part.clock.time { s.part with tsm := { m with transaction := none, missed := 0 } } hq
    refine ⟨fun hlow hhigh hrest => ?_, fun x hlow hhigh hcrit htemp hcurrent hx hstate hseq => ?_, fun acknowledged hbad => ?_⟩
    · have htold : (if next ≠ m.temp ∧ next = .critical then Part.toldCritical { s.part with tsm := after } else { s.part with tsm := after }) =
          { s.part with tsm := after } := by
        split
        · next h =>
          refine Part.toldCritical_of_rest (p := { s.part with tsm := after }) ?_
          rcases hrest with hrest | hrest | hrest | hrest | hrest
          · exact .inl hrest
          · exact .inr (.inl hrest)
          · exact absurd h.2 hrest
          · exact absurd (h.2.trans hrest.symm) h.1
          · exact .inr (.inr hrest)
        · rfl
      have hexec := hgood hlow hhigh htold
      by_cases hchange : next ≠ m.temp
      · rw [if_pos hchange, Part.emitAt_eq, Part.statusDirty_eq] at hexec
        refine ⟨_, hexec, rfl, rfl, rfl, rfl, ?_⟩
        rw [if_pos hchange]
        show _ = (Part.statusDirty (Part.emit _ _ _ _)).cpa
        rw [Part.statusDirty_eq, Part.emit_eq]
        rfl
      · by_cases hreading : m.reading = some r
        · rw [if_neg hchange, if_neg (not_not_intro hreading.symm)] at hexec
          refine ⟨_, hexec, rfl, rfl, rfl, rfl, ?_⟩
          rw [if_neg hchange, if_pos hreading]
        · rw [if_neg hchange, if_pos (Ne.symm hreading), Part.statusDirty_eq] at hexec
          refine ⟨_, hexec, rfl, rfl, rfl, rfl, ?_⟩
          rw [if_neg hchange, if_neg hreading, Part.statusDirty_eq]
    · have hchange : next ≠ m.temp := by rw [hcrit]; exact Ne.symm htemp
      have hcond : next ≠ m.temp ∧ next = .critical := ⟨hchange, hcrit⟩
      by_cases hexposing : x.arming.mode = .timed ∧ x.state = .exposing
      · have hflagged := changedAt_changeAt (f := fun y => { y with exposure := { y.exposure with hot := true, truncated := true } })
          (fun _ => rfl) hx
        obtain ⟨use, heq⟩ := Part.integrationEnd_eq s.part.clock.time
          (p := Part.modExposure x.number (fun e => { e with hot := true, truncated := true }) { s.part with tsm := after })
          hflagged.changed rfl
        have hexec := hgood hlow hhigh ((if_pos hcond).trans
          ((Part.toldCritical_of_exposing (p := { s.part with tsm := after }) hcurrent hstate hseq hexposing.1 hexposing.2).trans heq))
        rw [if_pos hchange, Part.emitAt_eq, Part.statusDirty_eq] at hexec
        refine ⟨_, _, hexec, rfl, rfl, rfl, (hflagged.change (f := Shot.readBegun _ _ _ _) fun _ => rfl).changed,
          fun h => absurd hexposing h, fun _ _ => ⟨rfl, rfl, rfl, rfl, rfl, rfl, _, rfl, ?_⟩⟩
        show _ = (Part.statusDirty (Part.emit _ _ _ (Part.integrationReported _ _ _ _ _ _))).cpa
        rw [Part.statusDirty_eq, Part.emit_eq, Part.integrationReported_eq]
        rfl
      · have hhot := changedAt_changeAt (f := fun y => { y with exposure := { y.exposure with hot := true } }) (fun _ => rfl) hx
        have hexec := hgood hlow hhigh ((if_pos hcond).trans
          (Part.toldCritical_of_other (p := { s.part with tsm := after }) hcurrent hstate hseq hexposing))
        rw [if_pos hchange, Part.emitAt_eq, Part.statusDirty_eq] at hexec
        refine ⟨_, _, hexec, rfl, rfl, rfl, hhot.changed, fun _ => ⟨rfl, ?_⟩, fun hmode hexp => absurd ⟨hmode, hexp⟩ hexposing⟩
        show _ = (Part.statusDirty (Part.emit _ _ _ _)).cpa
        rw [Part.statusDirty_eq, Part.emit_eq]
        rfl
    · have hmissed := Part.tempReadingEnd_of_bad htrans hlimit hbad
      exact ⟨fun h => hrow (hmissed.trans (Part.missedReading_of_few _ h)),
        fun hm htemp => hrow (hmissed.trans (Part.missedReading_of_third _ hm htemp))⟩
  case timeout =>
    intro timer s htrans hdue missed
    have hrow {q : Part} (hq : s.part.missedReading timer.expiry = q) : exec .tempReadingTimeout s = .next { s with part := q } := by
      refine Eq.trans (b := .next { s with part := s.part.tempReadingTimeout }) rfl (State.next_part_congr (Eq.trans ?_ hq))
      unfold Part.tempReadingTimeout
      rw [htrans]
      exact if_pos hdue
    refine ⟨fun h => hrow (Part.missedReading_of_few _ h), fun hmissed htemp => hrow ((Part.missedReading_of_third _ hmissed htemp).trans ?_)⟩
    simp only [missed, hmissed]
    rfl
  case limits =>
    intro w s h arg warm critical hysteresis adjusted
    refine (exec_row_of_takes_other (v := .setLimits) (by decide) rfl h).trans (State.next_part_congr ?_)
    have hwarm : clampInt 80 280 (argInt (s.part.words w) 0) = warm := clampInt_eq_max (by decide) _
    have hcritical : clampInt (warm + 8) 320 (argInt (s.part.words w) 1) = critical := clampInt_eq_max (by omega) _
    have hhysteresis : clampInt 1 20 (argInt (s.part.words w) 2) = hysteresis := clampInt_eq_max (by decide) _
    show cmdSetLimits w.slot (s.part.words w) (s.part.taken .setLimits w) = _
    unfold cmdSetLimits
    simp only [hwarm, hcritical, hhysteresis]
    refine (Part.taken_doneOr .setLimits w _ _
      { s.part with tsm := { s.part.tsm with warm := warm, critical := critical, hysteresis := hysteresis } } (by simp)).trans ?_
    have hadjusted : (warm != argInt (s.part.words w) 0 || critical != argInt (s.part.words w) 1 || hysteresis != argInt (s.part.words w) 2)
        = decide adjusted := by
      rw [Bool.eq_iff_iff, decide_eq_true_iff]
      simp only [Bool.or_eq_true, bne_iff_ne, adjusted, or_assoc]
      rfl
    rw [hadjusted]
    simp only [decide_eq_true_eq]
    rfl

end Sys2Proof.Machine
end

section
/-! PROOFS. The Ingest Corrector and the dark sequence: commits, the ends of readouts, a dark capture's start and completion, and the
bursts of the INGEST window (R105, R106, R120, R122, R130 to R142). -/

namespace Sys2Proof.Machine

/-! ## The commit (R130, R132, R133) -/

/-- The part when a burst has been committed and answered. -/
def Part.committed (w : IngestWork) (t : Target) (p : Part) : Part :=
  Part.answer true []
    { p.moveCursor t w.to_ w.gap w.low w.high false with
      icr := { (p.moveCursor t w.to_ w.gap w.low w.high false).icr with work := none } }

theorem Part.committed_of_shot {w : IngestWork} {t : Target} {p : Part} (hkind : t.kind = .shot) :
    p.committed w t =
      { p with
        sht := { p.sht with records := changeAt t.number (fun y => { y with progress := y.progress.moved w }) p.sht.records }
        pts := { p.pts with answer := some ⟨true, []⟩, queue := p.pts.queue.tail, head := none }
        icr := { p.icr with work := none } } := by
  unfold Part.committed Part.moveCursor
  rw [hkind]
  rfl

theorem Part.committed_of_dark {w : IngestWork} {t : Target} {p : Part} (hkind : t.kind = .dark) :
    p.committed w t =
      { p with
        pts := { p.pts with answer := some ⟨true, []⟩, queue := p.pts.queue.tail, head := none }
        icr := { p.icr with work := none, target := some { t with cursor := w.to_, gaps := gapsWith t.gaps w.gap } } } := by
  unfold Part.committed Part.moveCursor
  rw [hkind]
  rfl

/-- With nothing waiting for the burst its commit is followed by the readout's end, if it is due. -/
theorem Part.ingestCommit_of_free {w : IngestWork} {t : Target} {p : Part} (hwork : p.icr.work = some w) (hstage : w.stage = .written)
    (ht : p.icr.target = some t) (hres : p.cpa.resetting = none) (hending : p.dfl.ending = none) :
    p.ingestCommit = (p.committed w t).completeIfWhole.readoutTimeout := by
  have hcpa : (p.committed w t).cpa = p.cpa := by
    unfold Part.committed Part.moveCursor
    cases t.kind <;> rfl
  have hdfl : (p.committed w t).dfl = p.dfl := by
    unfold Part.committed Part.moveCursor
    cases t.kind <;> rfl
  have hstopping : (p.committed w t).icrStopping = false := by
    unfold Part.icrStopping
    rw [hcpa, hres]
  unfold Part.ingestCommit
  rw [hwork, ht]
  simp only [hstage, if_true]
  show (if (p.committed w t).icrStopping then _ else _) = _
  rw [hstopping]
  simp only [Bool.false_eq_true, if_false]
  show (match (p.committed w t).dfl.ending with
    | some e => (p.committed w t).clearTarget.finishEnding e
    | none => (p.committed w t).completeIfWhole.readoutTimeout) = _
  rw [hdfl, hending]

theorem Part.completeIfWhole_of_whole {t : Target} {p : Part} (ht : p.icr.target = some t) (h : p.geo.frameBytes ≤ p.cursorOf t) :
    p.completeIfWhole = p.readoutEnd .complete := by
  unfold Part.completeIfWhole
  rw [ht]
  exact if_pos h

theorem Part.completeIfWhole_of_part {t : Target} {p : Part} (ht : p.icr.target = some t) (h : p.cursorOf t < p.geo.frameBytes) :
    p.completeIfWhole = p := by
  unfold Part.completeIfWhole
  rw [ht]
  exact if_neg (Nat.not_le.2 h)

theorem Part.readoutTimeout_of_none {p : Part} (ht : p.icr.target = none) : p.readoutTimeout = p := by
  unfold Part.readoutTimeout
  rw [ht]

theorem Part.readoutTimeout_of_early {p : Part} (h : timerDue p.icr.deadline p.now = false) : p.readoutTimeout = p := by
  unfold Part.readoutTimeout
  cases p.icr.target with
  | none => rfl
  | some t => exact if_neg fun hdue => by rw [h] at hdue; exact absurd hdue.1 (by decide)

theorem Part.readoutTimeout_of_due {t : Target} {p : Part} (ht : p.icr.target = some t) (h : timerDue p.icr.deadline p.now = true)
    (hwork : p.icr.work = none) :
    p.readoutTimeout =
      (p.moveCursor t p.geo.frameBytes (some (p.cursorOf t, p.geo.frameBytes)) 0 0 true).readoutEnd .timeout := by
  unfold Part.readoutTimeout
  rw [ht]
  exact if_pos ⟨h, hwork⟩

/-! ## The end of a readout (R137, R138, R142) -/

/-- The part when a readout's end has been reported: no target, the sequencer IDLE. -/
def Part.readoutOver (frame : FrameKind) (n : Word) (o : Outcome) (gaps : Nat) (p : Part) : Part :=
  { p with
    cpa := p.cpa.handed p.phase ⟨.readoutEnd, n, p.clock.time, [natWord frame.code, natWord o.code, natWord gaps]⟩
    esu := { p.esu with seq := .idle }, icr := p.icr.cleared }

theorem Part.readoutOver_eq (frame : FrameKind) (n : Word) (o : Outcome) (gaps : Nat) (p : Part) :
    (p.clearTarget.emit .readoutEnd n [natWord frame.code, natWord o.code, natWord gaps]).setSeq .idle =
      p.readoutOver frame n o gaps := by
  rw [Part.emit_eq]
  rfl

theorem Part.readoutEnd_of_shot {t : Target} {x : Shot} {p : Part} (ht : p.icr.target = some t) (hkind : t.kind = .shot)
    (hx : p.shot? t.number = some x) (o : Outcome) :
    p.readoutEnd o =
      if x.exposure.abandoned then (p.readoutOver .shot t.number o x.progress.gaps.length).removeShot t.number
      else if t.path = .inline then (p.readoutOver .shot t.number o x.progress.gaps.length).handToDevelop t.number
      else ((p.readoutOver .shot t.number o x.progress.gaps.length).setShotState t.number .awaitDark).startCapture t.number := by
  have hgaps : p.gapsOf t = x.progress.gaps := by
    unfold Part.gapsOf
    rw [hkind, hx]
    rfl
  unfold Part.readoutEnd
  rw [ht]
  simp only [hkind]
  unfold Part.shotReadoutEnd
  rw [hx, hgaps]
  simp only [Part.readoutOver_eq]
  by_cases hab : x.exposure.abandoned = true
  · rw [if_pos hab, if_pos hab]
  · rw [if_neg hab, if_neg hab]
    cases t.path <;> rfl

theorem Part.readoutEnd_of_whole_dark {t : Target} {p : Part} (ht : p.icr.target = some t) (hkind : t.kind = .dark) (hgaps : t.gaps = []) :
    p.readoutEnd .complete = (p.readoutOver .dark t.number .complete 0).completeCapture := by
  unfold Part.readoutEnd
  rw [ht]
  simp only [hkind]
  unfold Part.darkReadoutEnd
  rw [hgaps]
  simp only [Part.readoutOver_eq, and_self, if_true]
  rfl

/-! ## The completion of a capture (R122) -/

/-- The record of a shot that goes to development with a dark of its own. -/
def Shot.darkTaken (ref : DarkRef) (k : Nat) (t : Shot) : Shot :=
  { t with state := .developing, progress := { t.progress with dark := some (.capture ref (some k)) } }

theorem Part.darkHanded_eq (n : Word) (ref : DarkRef) (k : Nat) (data : List Word) (p : Part) :
    ((p.modProgress n fun g => { g with dark := some (.capture ref (some k)) }).emit .darkDone n data).handToDevelop n =
      { p with
        cpa := p.cpa.handed p.phase ⟨.darkDone, n, p.clock.time, data⟩
        sht := { p.sht with records := changeAt n (Shot.darkTaken ref k) p.sht.records }
        dpe :=
          (((p.modProgress n fun g => { g with dark := some (.capture ref (some k)) }).emit .darkDone n data).handToDevelop n).dpe } := by
  have hrecords : changeAt n (fun t => { t with state := .developing })
      (changeAt n (fun t => { t with progress := { t.progress with dark := some (.capture ref (some k)) } }) p.sht.records) =
      changeAt n (Shot.darkTaken ref k) p.sht.records := changeAt_changeAt n (by exact fun _ => rfl) _
  rw [Part.handToDevelop_frame, Part.emit_eq]
  simp only [Part.setShotState, Part.modProgress, Part.modShot_eq, hrecords]

/-- The dark that a capture makes (R112, R113). -/
def Capture.dark (c : Capture) (id : Nat) : Dark := ⟨id, c.slot, c.td, c.darkTemp, c.gain, 1, c.shot, c.shot⟩

section Complete
variable {c : Capture} {p : Part} (hc : p.dfl.capture = some c) {k : Nat}
  (hk : scaleFactor (p.cal.tables.darkTemp.getD []) c.td c.td (tempDelta c.shotTemp c.darkTemp) = k)
include hc hk

theorem Part.completeCapture_of_kept (htemp : c.darkTemp.isSome = true) (hroom : p.dfl.entries.length < p.dfl.policy.size) :
    ∃ dpe, dpe.queue = p.dpe.queue ++ [c.shot] ∧
      p.completeCapture =
        { p with
          cpa :=
            (p.cpa.dirtied p.phase).handed p.phase
              ⟨.darkDone, c.shot, p.clock.time, [natWord (freeId p.dfl.entries), natWord k]⟩
          sht :=
            { p.sht with
              slots := p.sht.slots.set c.slot (.entry (freeId p.dfl.entries))
              records := changeAt c.shot (Shot.darkTaken (.entry (freeId p.dfl.entries)) k) p.sht.records }
          dfl := { p.dfl with capture := none, entries := p.dfl.entries ++ [c.dark (freeId p.dfl.entries)] }, dpe := dpe } := by
  have hkept : (c.darkTemp.isSome && Nat.blt p.dfl.entries.length p.dfl.policy.size) = true := by
    rw [htemp, Bool.true_and, Nat.blt_eq]
    exact hroom
  refine ⟨p.completeCapture.dpe, ?_, ?_⟩
  · unfold Part.completeCapture
    rw [hc]
    simp only [hkept, if_true]
    rw [Part.handToDevelop_queue, Part.emit_eq, Part.statusDirty_eq]
    rfl
  · unfold Part.completeCapture
    rw [hc]
    simp only [hkept, if_true, hk]
    rw [Part.darkHanded_eq, Part.statusDirty_eq]
    rfl

theorem Part.completeCapture_of_transient (h : c.darkTemp = none ∨ p.dfl.policy.size ≤ p.dfl.entries.length) :
    ∃ dpe, dpe.queue = p.dpe.queue ++ [c.shot] ∧
      p.completeCapture =
        { p with
          cpa := p.cpa.handed p.phase ⟨.darkDone, c.shot, p.clock.time, [255, natWord k]⟩
          sht := { p.sht with records := changeAt c.shot (Shot.darkTaken .transient k) p.sht.records }
          dfl := { p.dfl with capture := none, transients := p.dfl.transients ++ [c.dark (freeId p.dfl.entries)] }, dpe := dpe } := by
  have hkept : (c.darkTemp.isSome && Nat.blt p.dfl.entries.length p.dfl.policy.size) = false := by
    rcases h with htemp | hroom
    · rw [htemp]
      rfl
    · rw [Bool.and_eq_false_iff]
      exact .inr (Bool.eq_false_iff.2 fun hlt => absurd (Nat.blt_eq.mp hlt) (Nat.not_lt.2 hroom))
  refine ⟨p.completeCapture.dpe, ?_, ?_⟩
  · unfold Part.completeCapture
    rw [hc]
    simp only [hkept, Bool.false_eq_true, if_false]
    rw [Part.handToDevelop_queue, Part.emit_eq]
    rfl
  · unfold Part.completeCapture
    rw [hc]
    simp only [hkept, Bool.false_eq_true, if_false, hk]
    rw [Part.darkHanded_eq]
    rfl

end Complete

/-- With fewer than four entries the id that a new one gets is none of theirs (R112). -/
theorem freeId_spec {es : List Dark} (h : es.length < 4) : freeId es < 4 ∧ ∀ e ∈ es, e.id ≠ freeId es := by
  have hsome : ((List.range 4).find? fun i => es.all fun e => e.id != i).isSome = true := by
    rw [List.find?_isSome]
    refine Classical.byContradiction fun hall => ?_
    have hsub : List.range 4 ⊆ es.map Dark.id := by
      intro i hi
      have hused : ¬(es.all fun e => e.id != i) = true := fun h => hall ⟨i, hi, h⟩
      rw [Bool.not_eq_true, List.all_eq_false] at hused
      obtain ⟨e, he, hid⟩ := hused
      exact List.mem_map.2 ⟨e, he, by simpa using hid⟩
    have hle := List.nodup_range.length_le_of_subset hsub
    rw [List.length_range, List.length_map] at hle
    omega
  obtain ⟨i, hi⟩ := Option.isSome_iff_exists.1 hsome
  have hfree : freeId es = i := by
    unfold freeId
    rw [hi]
    rfl
  rw [hfree]
  refine ⟨List.mem_range.1 (List.mem_of_find?_eq_some hi), fun e he => ?_⟩
  have hp := List.find?_some hi
  simp only [List.all_eq_true] at hp
  simpa using hp e he

/-- A dark is not kept in the library for want of a temperature or of room (R122). -/
theorem eq_none_or_le_of_not {α : Type} {o : Option α} {a b : Nat} (h : ¬(o.isSome = true ∧ a < b)) : o = none ∨ b ≤ a := by
  cases o with
  | none => exact .inl rfl
  | some x => exact .inr (Nat.not_lt.1 fun hlt => h ⟨rfl, hlt⟩)

/-! ## The dark sequence (R105, R106) -/

section DarkSequence
variable {timer : Timer} {c : Capture} {p : Part} (hc : p.dfl.capture = some c) (hdue : timer.due p.clock.time = true)
include hc hdue

theorem Part.darkFlushEnd_closed (hflush : p.esu.flushTimer = some timer) (hseq : p.esu.seq = .darkFlush) (hcontact : p.esu.contact = true) :
    p.darkFlushEnd = p.endCapture .disturbed .nothing := by
  unfold Part.darkFlushEnd
  rw [hflush, hc]
  simp only [hcontact, if_true]
  exact if_pos ⟨hseq, hdue⟩

theorem Part.darkFlushEnd_open (hflush : p.esu.flushTimer = some timer) (hseq : p.esu.seq = .darkFlush)
    (hcontact : p.esu.contact = false) :
    p.darkFlushEnd =
      { p with
        esu :=
          { p.esu with
            seq := .darkIntegrate, flushTimer := none, integLine := true, darkTimer := some ⟨timer.expiry, c.td⟩ }
        dfl := { p.dfl with capture := some { c with phase := .integrate, integStart := some timer.expiry } } } := by
  unfold Part.darkFlushEnd Part.modCapture
  rw [hflush, hc]
  simp only [hcontact, Bool.false_eq_true, if_false]
  exact (if_pos ⟨hseq, hdue⟩).trans (by rw [hc]; rfl)

theorem Part.darkIntegrationExpiry_eq (hdark : p.esu.darkTimer = some timer) (hseq : p.esu.seq = .darkIntegrate) :
    p.darkIntegrationExpiry =
      Part.emitAt timer.expiry .readoutBegin c.shot [1, natWord (p.geo.width * p.geo.height * 2)]
        { p with
          esu := { p.esu.stopped with seq := .darkRead, readLine := true, readPulse := some ⟨timer.expiry, 10⟩ }
          dfl :=
            { p.dfl with
              capture := some { c with phase := .read, darkTemp := if p.tsm.temp = .fault then none else p.tsm.reading } }
          icr :=
            { p.icr with
              target := some ⟨.dark, c.shot, c.slot, .raw, c.gain, none, 0, []⟩
              deadline := some ⟨timer.expiry, p.esu.active.readTimeout * 1000⟩ } } := by
  unfold Part.darkIntegrationExpiry Part.modCapture
  rw [hdark, hc]
  refine (if_pos ⟨hseq, hdue⟩).trans ?_
  simp only [Part.stopSequence, hc, Option.map_some]
  rfl

end DarkSequence

/-- Settles O53: the flush's end and the integration's end, and the commit that completes the dark's readout. -/
theorem darkSequenceRuns : Obligations.DarkSequenceRuns := by
  refine ⟨fun timer c s hdue hc => ⟨fun hflush hseq hcontact => ?_, fun x hflush hseq hcontact hphase hnone hx => ?_,
    fun hdark hseq => ?_⟩, ?commit⟩
  · exact Eq.trans (b := .next { s with part := s.part.darkFlushEnd }) rfl
      (State.next_part_congr (Part.darkFlushEnd_open hc hdue hflush hseq hcontact))
  · have hfree : c.phase ≠ .read ∨ s.part.icr.work = none := .inl (by rw [hphase]; decide)
    obtain ⟨dpe, hqueue, hskip⟩ := Part.captureSkipped_eq .disturbed (c.elapsed s.part.clock.time) c
      { s.part with esu := s.part.esu.stopped, icr := if c.phase = .read then s.part.icr.cleared else s.part.icr }
    have hend : s.part.darkFlushEnd = _ := (Part.darkFlushEnd_closed hc hdue hflush hseq hcontact).trans
      ((Part.endCapture_skipped hc hnone .disturbed (after := .nothing) (fun _ _ h => by cases h) hfree).trans hskip)
    have hrow := Eq.trans (a := exec .darkFlushEnd s) (b := .next { s with part := s.part.darkFlushEnd }) rfl
      (State.next_part_congr hend)
    refine ⟨_, x.skipped .disturbed, hrow, rfl, rfl, rfl, rfl, rfl, rfl, ?_, rfl, rfl, hqueue, ?_⟩
    · exact (find?_skippedIn c.shot c.shot .disturbed s.part.sht.records).trans
        ((if_pos rfl).trans (congrArg (Option.map (Shot.skipped .disturbed)) hx))
    · rw [Part.captureFailureReported_eq]
      rfl
  · exact Eq.trans (b := .next { s with part := s.part.darkIntegrationExpiry }) rfl
      (State.next_part_congr (Part.darkIntegrationExpiry_eq hc hdue hdark hseq))
  case commit =>
    intro c g w x s hc ht hkind hgaps hwork hstage hgap hwhole hres hending hx k ended
    have hcommit : s.part.ingestCommit =
        ((s.part.committed w g).readoutOver .dark g.number .complete 0).completeCapture := by
      have htarget : (s.part.committed w g).icr.target = some { g with cursor := w.to_, gaps := gapsWith g.gaps w.gap } := by
        rw [Part.committed_of_dark hkind]
      have hcursor : (s.part.committed w g).cursorOf { g with cursor := w.to_, gaps := gapsWith g.gaps w.gap } = w.to_ := by
        unfold Part.cursorOf
        simp only [hkind]
      have hend : (s.part.committed w g).completeIfWhole =
          ((s.part.committed w g).readoutOver .dark g.number .complete 0).completeCapture := by
        rw [Part.completeIfWhole_of_whole htarget (by rw [hcursor, Part.committed_of_dark hkind]; exact hwhole)]
        exact Part.readoutEnd_of_whole_dark (t := { g with cursor := w.to_, gaps := gapsWith g.gaps w.gap }) htarget hkind
          (by rw [hgap]; exact hgaps)
      rw [Part.ingestCommit_of_free hwork hstage ht hres hending, hend]
      refine Part.readoutTimeout_of_none ?_
      have hover : ((s.part.committed w g).readoutOver .dark g.number .complete 0).dfl.capture = some c := by
        rw [Part.committed_of_dark hkind]
        exact hc
      by_cases hkept : c.darkTemp.isSome = true ∧
          ((s.part.committed w g).readoutOver .dark g.number .complete 0).dfl.entries.length <
            ((s.part.committed w g).readoutOver .dark g.number .complete 0).dfl.policy.size
      · obtain ⟨_, _, h⟩ := Part.completeCapture_of_kept hover rfl hkept.1 hkept.2
        rw [h]
        rfl
      · obtain ⟨_, _, h⟩ := Part.completeCapture_of_transient hover rfl (eq_none_or_le_of_not hkept)
        rw [h]
        rfl
    rw [Part.committed_of_dark hkind] at hcommit
    have hchanged (ref : DarkRef) := changedAt_changeAt (f := Shot.darkTaken ref k) (fun _ => rfl) hx
    have hended : ended = { s.part with
        cpa := s.part.cpa.handed s.part.phase ⟨.readoutEnd, g.number, s.part.clock.time, [1, 0, 0]⟩ } := Part.emit_eq _ _ _ _
    by_cases hkept : c.darkTemp.isSome = true ∧ s.part.dfl.entries.length < s.part.dfl.policy.size
    · obtain ⟨dpe, hqueue, h⟩ := Part.completeCapture_of_kept (k := k) (p := Part.readoutOver .dark g.number .complete 0
        { s.part with
          pts := { s.part.pts with answer := some ⟨true, []⟩, queue := s.part.pts.queue.tail, head := none }
          icr := { s.part.icr with work := none, target := some { g with cursor := w.to_, gaps := gapsWith g.gaps w.gap } } })
        hc rfl hkept.1 hkept.2
      have hrow := Eq.trans (a := exec .ingestCommit s) (b := .next { s with part := s.part.ingestCommit }) rfl
        (State.next_part_congr (hcommit.trans h))
      refine ⟨_, _, hrow, rfl, rfl, rfl, rfl, rfl, rfl, (hchanged _).changed, rfl, hqueue,
        fun _ _ => ⟨_, freeId_spec, rfl, rfl, rfl, rfl, ?_⟩, fun hnot => ?_⟩
      · rw [Part.emit_eq, Part.statusDirty_eq, hended]
        rfl
      · rcases hnot with hnone | hroom
        · rw [hnone] at hkept
          exact absurd hkept.1 (by decide)
        · exact absurd hroom (Nat.not_le.2 hkept.2)
    · have hnot : c.darkTemp = none ∨ s.part.dfl.policy.size ≤ s.part.dfl.entries.length := eq_none_or_le_of_not hkept
      obtain ⟨dpe, hqueue, h⟩ := Part.completeCapture_of_transient (k := k) (p := Part.readoutOver .dark g.number .complete 0
        { s.part with
          pts := { s.part.pts with answer := some ⟨true, []⟩, queue := s.part.pts.queue.tail, head := none }
          icr := { s.part.icr with work := none, target := some { g with cursor := w.to_, gaps := gapsWith g.gaps w.gap } } })
        hc rfl hnot
      have hrow := Eq.trans (a := exec .ingestCommit s) (b := .next { s with part := s.part.ingestCommit }) rfl
        (State.next_part_congr (hcommit.trans h))
      refine ⟨_, _, hrow, rfl, rfl, rfl, rfl, rfl, rfl, (hchanged _).changed, rfl, hqueue,
        fun htemp hroom => absurd ⟨htemp, hroom⟩ hkept, fun _ => ⟨_, rfl, rfl, rfl, rfl, rfl, rfl, rfl, ?_⟩⟩
      rw [Part.emit_eq, hended]
      rfl

end Sys2Proof.Machine
end

section
/-! PROOFS. A dark capture's start, and the ends of SHOT readouts (R120, R130, R137 to R141); writes into the INGEST window (R131, R135,
R142, R149). -/

namespace Sys2Proof.Machine

/-! ## The start of a dark capture (R120) -/

/-- The part whose sequencer begins the dark flush for a capture in a slot. -/
def Part.captureBegun (c : Capture) (p : Part) : Part :=
  { p with
    cpa := p.cpa.dirtied p.phase
    sht :=
      { p.sht with
        slots := p.sht.slots.set c.slot .transient
        records := changeAt c.shot (fun y => { y with progress := { y.progress with dark := some (.capture .capturing none) } }) p.sht.records }
    dfl := { p.dfl with capture := some c }
    esu :=
      { p.esu with
        seq := .darkFlush, flushLine := true, flushPulse := some ⟨p.clock.time, 10⟩
        flushTimer := some ⟨p.clock.time, p.esu.active.flush⟩ } }

/-- The capture of a shot's dark as it starts, in a slot. -/
def Shot.capture (n : Word) (slot : Nat) (x : Shot) : Capture :=
  ⟨n, slot, x.exposure.integTime.getD 0, x.arming.gain, x.exposure.tempAtRead, none, .flush, none⟩

section StartCapture
variable {n : Word} {x : Shot} {p : Part} (hx : p.shot? n = some x)
include hx

theorem Part.startCapture_of_skipped {r : DarkReason} (h : x.progress.dark = some (.skipped r)) :
    p.startCapture n = p.handToDevelop n := by
  unfold Part.startCapture
  rw [hx]
  simp only [h]

variable (hdark : ∀ r, x.progress.dark = some (.skipped r) → False)
include hdark

theorem Part.startCapture_of_low (hlow : p.tsm.supply = .low) : p.startCapture n = p.skipDark n .lowSupply 0 := by
  unfold Part.startCapture
  rw [hx]
  simp only [hlow, if_true]

theorem Part.startCapture_of_full (hlow : p.tsm.supply ≠ .low) (hnone : p.allocate .transient = none) :
    p.startCapture n = p.skipDark n .noSlot 0 := by
  unfold Part.startCapture
  rw [hx]
  simp only [hlow, if_false, hnone]

theorem Part.startCapture_of_slot (hlow : p.tsm.supply ≠ .low) {slot : Nat} {q : Part}
    (hsome : p.allocate .transient = some (slot, (q.setHolder slot .transient).statusDirty)) :
    p.startCapture n = q.captureBegun (x.capture n slot) := by
  unfold Part.startCapture
  rw [hx]
  simp only [hlow, if_false, hsome, Part.statusDirty_eq, Part.captureBegun, Shot.capture]
  rfl

end StartCapture

/-- An allocation gives a slot of the part, or of one from whose library an entry has gone (R60, R115). -/
theorem Part.allocate_of_some {h : Holder} {slot : Nat} {p r : Part} (hsome : p.allocate h = some (slot, r)) :
    ∃ dfl, dfl.capture = p.dfl.capture ∧ r = (Part.setHolder slot h { p with dfl := dfl }).statusDirty := by
  unfold Part.allocate at hsome
  split at hsome
  · obtain ⟨rfl, rfl⟩ := Prod.mk.inj (Option.some.inj hsome)
    exact ⟨p.dfl, rfl, rfl⟩
  · unfold Part.evict at hsome
    cases hleast : leastUsed p.dfl.entries with
    | none =>
      rw [hleast] at hsome
      cases hsome
    | some e =>
      rw [hleast] at hsome
      obtain ⟨rfl, rfl⟩ := Prod.mk.inj (Option.some.inj hsome)
      refine ⟨(p.dropEntry e).dfl, rfl, ?_⟩
      rw [Part.statusDirty_eq, Part.statusDirty_eq]
      rfl

@[simp] theorem Part.startCapture_icr (n : Word) (p : Part) : (p.startCapture n).icr = p.icr := by
  cases hx : p.shot? n with
  | none =>
    unfold Part.startCapture
    rw [hx]
  | some x =>
    by_cases hskipped : ∃ r, x.progress.dark = some (.skipped r)
    · obtain ⟨r, hr⟩ := hskipped
      rw [Part.startCapture_of_skipped hx hr, Part.handToDevelop_icr]
    · have hdark (r : DarkReason) (h : x.progress.dark = some (.skipped r)) : False := hskipped ⟨r, h⟩
      by_cases hlow : p.tsm.supply = .low
      · rw [Part.startCapture_of_low hx hdark hlow, Part.skipDark_icr]
      · cases hslot : p.allocate .transient with
        | none => rw [Part.startCapture_of_full hx hdark hlow hslot, Part.skipDark_icr]
        | some given =>
          obtain ⟨dfl, _, hr⟩ := Part.allocate_of_some (slot := given.1) (r := given.2) hslot
          rw [Part.startCapture_of_slot hx hdark hlow (q := { p with dfl := dfl }) (hslot.trans (by rw [← hr]))]
          rfl

/-! ## The ends of a SHOT's readout (R137) -/

/-- However a SHOT's readout ends, no target is left. -/
theorem Part.readoutEnd_icr {t : Target} {x : Shot} {p : Part} (ht : p.icr.target = some t) (hkind : t.kind = .shot)
    (hx : p.shot? t.number = some x) (o : Outcome) : (p.readoutEnd o).icr = p.icr.cleared := by
  rw [Part.readoutEnd_of_shot ht hkind hx]
  split
  · rw [Part.removeShot_icr]
    rfl
  · split
    · rw [Part.handToDevelop_icr]
      rfl
    · rw [Part.startCapture_icr]
      rfl

/-- The part whose shot has its progress replaced, with no work under way. -/
def Part.ingested (l : List Shot) (pts : Pts) (icr : Icr) (p : Part) : Part :=
  { p with sht := { p.sht with records := l }, pts := pts, icr := icr }

section ShotReadout
variable {t : Target} {x z : Shot} {p q : Part} (o : Outcome)

/-- What an INLINE shot's readout end leaves (R137). -/
theorem Part.handedOver_eq (gaps : Nat) (p : Part) (n : Word) :
    ∃ dpe, dpe.queue = p.dpe.queue ++ [n] ∧
      (p.readoutOver .shot n o gaps).handToDevelop n =
        { p.readoutOver .shot n o gaps with
          sht := { p.sht with records := changeAt n (fun y => { y with state := .developing }) p.sht.records }, dpe := dpe } :=
  ⟨((p.readoutOver .shot n o gaps).handToDevelop n).dpe, Part.handToDevelop_queue _ _, Part.handToDevelop_frame _ _⟩

/-- A RAW shot goes on without a dark, with DARK_FAILED (R120). -/
theorem Part.skippedOver_eq (gaps : Nat) (p : Part) (n : Word) (reason : DarkReason) :
    ∃ dpe, dpe.queue = p.dpe.queue ++ [n] ∧
      ((p.readoutOver .shot n o gaps).setShotState n .awaitDark).skipDark n reason 0 =
        { p.readoutOver .shot n o gaps with
          cpa :=
            (p.readoutOver .shot n o gaps).cpa.handed p.phase ⟨.darkFailed, n, p.clock.time, [natWord reason.code, natWord 0]⟩
          sht := { p.sht with records := changeAt n (Shot.skipped reason) p.sht.records }, dpe := dpe } := by
  have hrecords : skippedIn n reason (changeAt n (fun y => { y with state := .awaitDark }) p.sht.records) =
      changeAt n (Shot.skipped reason) p.sht.records := changeAt_changeAt n (by exact fun _ => rfl) _
  refine ⟨(((p.readoutOver .shot n o gaps).setShotState n .awaitDark).skipDark n reason 0).dpe, ?_,
    (Part.skipDark_eq _ _ _ _).trans ?_⟩
  · rw [Part.skipDark_queue]
    rfl
  · simp only [Part.setShotState, Part.modShot_eq]
    simp only [Part.readoutOver] at hrecords ⊢
    rw [hrecords]

/-- A RAW shot whose dark has been skipped goes on as it is (R120). -/
theorem Part.awaitedOver_eq (gaps : Nat) (p : Part) (n : Word) :
    ∃ dpe, dpe.queue = p.dpe.queue ++ [n] ∧
      ((p.readoutOver .shot n o gaps).setShotState n .awaitDark).handToDevelop n =
        { p.readoutOver .shot n o gaps with
          sht := { p.sht with records := changeAt n (fun y => { y with state := .developing }) p.sht.records }, dpe := dpe } := by
  have hrecords : changeAt n (fun y => { y with state := .developing }) (changeAt n (fun y => { y with state := .awaitDark }) p.sht.records) =
      changeAt n (fun y => { y with state := .developing }) p.sht.records := changeAt_changeAt n (by exact fun _ => rfl) _
  refine ⟨(((p.readoutOver .shot n o gaps).setShotState n .awaitDark).handToDevelop n).dpe, ?_, (Part.handToDevelop_frame _ _).trans ?_⟩
  · rw [Part.handToDevelop_queue]
    rfl
  · simp only [Part.setShotState, Part.modShot_eq]
    simp only [Part.readoutOver] at hrecords ⊢
    rw [hrecords]

end ShotReadout

theorem Progress.with_dark {y : Progress} {d : Option DarkSource} (h : y.dark = d) : { y with dark := d } = y := by
  subst h
  rfl

/-- Which slot an allocation gives depends on the slots and the library only (R60). -/
theorem Part.givesSlot_congr {p p' q : Part} {slot : Nat} (hslots : p'.sht.slots = p.sht.slots) (hdfl : p'.dfl = p.dfl)
    (h : p.givesSlot slot q) : p'.givesSlot slot { p' with dfl := q.dfl } := by
  rcases h with ⟨rfl, hfree, hlowest⟩ | ⟨hfull, e, he, href, hleast, hslot, rfl⟩
  · exact .inl ⟨by rw [← hdfl], by rwa [hslots], by rwa [hslots]⟩
  · exact .inr ⟨by rwa [hslots], e, by rwa [hdfl], href, by rwa [hdfl], hslot, by rw [hdfl]⟩

/-! ## A commit's and a deadline's moves of the cursor (R133, R140) -/

/-- A shot's progress when its readout has timed out at a cursor. -/
def Progress.timedOut (frame : Nat) (g : Progress) : Progress :=
  { g with
    cursor := frame, gaps := addGap g.gaps (g.cursor, frame), readTimeout := true
    gapMerged := g.gapMerged || decide (8 ≤ g.gaps.length) }

theorem not_blt_eq_decide_le (a b : Nat) : (!Nat.blt a b) = decide (b ≤ a) := by
  rw [Bool.eq_iff_iff, Bool.not_eq_true', decide_eq_true_eq, Bool.eq_false_iff, ← Nat.not_lt]
  exact not_congr (Iff.of_eq Nat.blt_eq)

theorem Progress.moved_eq (w : IngestWork) (g : Progress) :
    g.moved w =
      { g with
        cursor := w.to_, gaps := gapsWith g.gaps w.gap, lowClamps := g.lowClamps + w.low, highClamps := g.highClamps + w.high
        ingestGap := g.ingestGap || w.gap.isSome
        gapMerged := g.gapMerged || (w.gap.isSome && decide (8 ≤ g.gaps.length)) } := by
  unfold Progress.moved
  rw [not_blt_eq_decide_le]
  simp only [Bool.not_false, Bool.and_true, Bool.or_false, Config.maxGaps]

theorem Part.cursorOf_of_shot {t : Target} {x : Shot} {p : Part} (hkind : t.kind = .shot) (hx : p.shot? t.number = some x) :
    p.cursorOf t = x.progress.cursor := by
  unfold Part.cursorOf
  rw [hkind, hx]
  rfl

/-- The records when a shot's readout has timed out. -/
theorem Part.moveCursor_timeout {t : Target} {x : Shot} {p : Part} (hkind : t.kind = .shot) (hx : p.shot? t.number = some x)
    (frame : Nat) :
    ∃ l, l.find? (fun y => decide (y.number = t.number)) = some { x with progress := x.progress.timedOut frame } ∧
      p.moveCursor t frame (some (p.cursorOf t, frame)) 0 0 true = { p with sht := { p.sht with records := l } } := by
  refine ⟨_, (changedAt_changeAt (f := fun y => { y with
    progress := { y.progress with
      cursor := frame, gaps := gapsWith y.progress.gaps (some (p.cursorOf t, frame)), lowClamps := y.progress.lowClamps + 0
      highClamps := y.progress.highClamps + 0, ingestGap := y.progress.ingestGap || (true && !true)
      gapMerged := y.progress.gapMerged || (true && !Nat.blt y.progress.gaps.length Config.maxGaps)
      readTimeout := y.progress.readTimeout || true } }) (fun _ => rfl) hx).changed.trans ?_, ?_⟩
  · unfold Progress.timedOut
    rw [Part.cursorOf_of_shot hkind hx]
    simp only [not_blt_eq_decide_le, Bool.true_and, Bool.not_true, Bool.or_false, Bool.or_true, Config.maxGaps, Nat.add_zero]
    rfl
  · unfold Part.moveCursor
    rw [hkind]
    rfl

/-- Settles O56: the commit alone, then the readout's end with each way a RAW shot's dark goes. -/
theorem ingestCommitsAndReadoutsEnd : Obligations.IngestCommitsAndReadoutsEnd := by
  intro t x s ht hkind hx hab hres hending frame added timedOut ended
  have hadded (gaps : List (Nat × Nat)) (g : Option (Nat × Nat)) : gapsWith gaps g = added gaps g := by cases g <;> rfl
  have htimed (y : Progress) : y.timedOut frame = timedOut y := by
    unfold Progress.timedOut
    exact congrArg (fun gaps => { y with
      cursor := frame, gaps := gaps, readTimeout := true, gapMerged := y.gapMerged || decide (8 ≤ y.gaps.length) })
      (hadded y.gaps (some (y.cursor, frame)))
  have hended (i : Instr) (o : Outcome) (y : Progress) (l : List Shot) (pts : Pts) (icr : Icr)
      (hrow : exec i s = .next { s with part := (s.part.ingested l pts icr).readoutEnd o }) (htarget : icr.target = some t)
      (hl : l.find? (fun z => decide (z.number = t.number)) = some { x with progress := y }) (hy : y.dark = x.progress.dark)
      (hcap : s.part.dfl.capture = none) : ended i (natWord o.code) y := by
    have hend := Part.readoutEnd_of_shot (p := s.part.ingested l pts icr) (x := { x with progress := y }) htarget hkind hl o
    rw [if_neg (by rw [hab]; decide)] at hend
    have hnocap : s.part.dfl.capture.isSome = true → False := by
      rw [hcap]
      exact fun h => absurd h (by decide)
    have hnoWait : ShotState.developing = .awaitDark → False := by decide
    cases hpath : t.path with
    | inline =>
      have hnotRaw : t.path = .raw → False := by rw [hpath]; decide
      rw [if_pos hpath] at hend
      obtain ⟨dpe, hqueue, h⟩ := Part.handedOver_eq o y.gaps.length (s.part.ingested l pts icr) t.number
      have hrow := hrow.trans (State.next_part_congr (hend.trans h))
      refine ⟨_, _, hrow, rfl, rfl, rfl, rfl, rfl, (changedAt_changeAt (f := fun y => { y with state := .developing })
        (fun _ => rfl) hl).changed, fun _ => ⟨rfl, rfl, hqueue, ?_⟩, fun h => (hnotRaw h).elim⟩
      rw [Part.emit_eq]
      rfl
    | raw =>
      have hnotInline : t.path = .inline → False := by rw [hpath]; decide
      rw [if_neg hnotInline] at hend
      have hawait := (changedAt_changeAt (f := fun y => { y with state := .awaitDark }) (fun _ => rfl) hl).changed
      by_cases hskipped : ∃ r, x.progress.dark = some (.skipped r)
      · obtain ⟨r, hr⟩ := hskipped
        obtain ⟨dpe, hqueue, h⟩ := Part.awaitedOver_eq o y.gaps.length (s.part.ingested l pts icr) t.number
        have hrow := hrow.trans (State.next_part_congr (hend.trans ((Part.startCapture_of_skipped
          (by exact hawait) (by exact hy.trans hr)).trans h)))
        refine ⟨_, _, hrow, rfl, rfl, rfl, rfl, rfl, (changedAt_changeAt (f := fun y => { y with state := .developing })
          (fun _ => rfl) hl).changed, fun h => (hnotInline h).elim, fun _ => ⟨⟨.inr rfl, fun h => (hnoWait h).elim, fun h => (hnocap h).elim⟩,
          fun hcancelled => ⟨?_, rfl, rfl, rfl, hqueue, ?_⟩, fun hcapturing => by rw [hcapturing] at hr; cases hr⟩⟩
        · rw [Progress.with_dark (hy.trans hcancelled)]
        · rw [Part.emit_eq]
          rfl
      · have hdark (r : DarkReason) (h : y.dark = some (.skipped r)) : False := hskipped ⟨r, hy.symm.trans h⟩
        have hnocancel (h : x.progress.dark = some (.skipped .cancelled)) : False := hskipped ⟨_, h⟩
        by_cases hlow : s.part.tsm.supply = .low
        · obtain ⟨dpe, hqueue, h⟩ := Part.skippedOver_eq o y.gaps.length (s.part.ingested l pts icr) t.number .lowSupply
          have hrow := hrow.trans (State.next_part_congr (hend.trans ((Part.startCapture_of_low
            (by exact hawait) (by exact hdark) (by exact hlow)).trans h)))
          have hnormal (h : s.part.tsm.supply = .normal) : False := by rw [hlow] at h; cases h
          refine ⟨_, _, hrow, rfl, rfl, rfl, rfl, rfl, (changedAt_changeAt (f := Shot.skipped .lowSupply)
            (fun _ => rfl) hl).changed, fun h => (hnotInline h).elim, fun _ => ⟨⟨.inr rfl, fun h => (hnoWait h).elim, fun h => (hnocap h).elim⟩,
            fun hcancelled => (hnocancel hcancelled).elim, fun _ => ⟨fun _ => ⟨rfl, rfl, rfl, rfl, hqueue, ?_⟩,
            fun h => (hnormal h).elim, fun _ _ h => (hnormal h).elim⟩⟩⟩
          rw [Part.emit_eq, Part.emit_eq]
          rfl
        · cases hslot : (((s.part.ingested l pts icr).readoutOver .shot t.number o y.gaps.length).setShotState t.number .awaitDark).allocate
            .transient with
          | none =>
            obtain ⟨dpe, hqueue, h⟩ := Part.skippedOver_eq o y.gaps.length (s.part.ingested l pts icr) t.number .noSlot
            have hrow := hrow.trans (State.next_part_congr (hend.trans ((Part.startCapture_of_full
              (by exact hawait) (by exact hdark) (by exact hlow) hslot).trans h)))
            refine ⟨_, _, hrow, rfl, rfl, rfl, rfl, rfl, (changedAt_changeAt (f := Shot.skipped .noSlot)
              (fun _ => rfl) hl).changed, fun h => (hnotInline h).elim, fun _ => ⟨⟨.inr rfl, fun h => (hnoWait h).elim, fun h => (hnocap h).elim⟩,
              fun hcancelled => (hnocancel hcancelled).elim, fun _ => ⟨fun h => absurd h hlow,
              fun _ _ => ⟨rfl, rfl, rfl, rfl, hqueue, ?_⟩, fun slot q _ hgives => ?_⟩⟩⟩
            · rw [Part.emit_eq, Part.emit_eq]
              rfl
            · have hsome := Part.allocate_of_givesSlot .transient (Part.givesSlot_congr (p := s.part) (p' := ((s.part.ingested l pts icr).readoutOver .shot
                t.number o y.gaps.length).setShotState t.number .awaitDark) rfl rfl hgives)
              rw [hslot] at hsome
              cases hsome
          | some given =>
            obtain ⟨slot, r⟩ := given
            obtain ⟨dfl, hdfl, hr⟩ := Part.allocate_of_some hslot
            have hrow := hrow.trans (State.next_part_congr (hend.trans (Part.startCapture_of_slot
              (by exact hawait) (by exact hdark) (by exact hlow) (hslot.trans (by rw [hr])))))
            have hchanged := (changedAt_changeAt (f := fun y => { y with progress := { y.progress with dark := some (.capture .capturing none) } })
              (fun _ => rfl) hawait).changed
            refine ⟨_, { x with state := .awaitDark, progress := { y with dark := some (.capture .capturing none) } }, hrow, rfl, rfl, rfl, rfl,
              rfl, hchanged, fun h => (hnotInline h).elim, fun _ => ⟨⟨.inl rfl, fun _ => rfl, fun _ => rfl⟩,
              fun hcancelled => (hnocancel hcancelled).elim, fun hcapturing => ⟨fun h => absurd h hlow, fun _ hnone => ?_,
              fun slot' q _ hgives => ?_⟩⟩⟩
            · have hnone' := Part.allocate_of_givesNoSlot .transient (p := ((s.part.ingested l pts icr).readoutOver .shot
                t.number o y.gaps.length).setShotState t.number .awaitDark) hnone
              rw [hslot] at hnone'
              cases hnone'
            · have hsome := Part.allocate_of_givesSlot .transient (Part.givesSlot_congr (p := s.part) (p' := ((s.part.ingested l pts icr).readoutOver .shot
                t.number o y.gaps.length).setShotState t.number .awaitDark) rfl rfl hgives)
              rw [hslot, hr] at hsome
              obtain ⟨rfl, hsame⟩ := Prod.mk.inj (Option.some.inj hsome)
              rw [Part.statusDirty_eq, Part.statusDirty_eq] at hsame
              have hdfl : dfl = q.dfl := congrArg Part.dfl hsame
              subst hdfl
              refine ⟨?_, rfl, rfl, rfl, rfl, ?_⟩
              · rw [Progress.with_dark (hy.trans hcapturing)]
              · rw [Part.statusDirty_eq, Part.emit_eq]
                rfl
  clear_value ended
  refine ⟨fun w hwork hstage => ?_, fun timer htimer hdue hwork hcap => ?timeout⟩
  · intro y
    have hy : x.progress.moved w = y := by rw [Progress.moved_eq, hadded]
    have hcommit := Part.ingestCommit_of_free hwork hstage ht hres hending
    have hmoved := changedAt_changeAt (f := fun z => { z with progress := z.progress.moved w }) (fun _ => rfl) hx
    rw [Part.committed_of_shot hkind] at hcommit
    rw [hy] at hmoved
    clear_value y
    let pts : Pts := { s.part.pts with answer := some ⟨true, []⟩, queue := s.part.pts.queue.tail, head := none }
    let icr : Icr := { s.part.icr with work := none }
    let l := changeAt t.number (fun z => { z with progress := z.progress.moved w }) s.part.sht.records
    have hcommit : s.part.ingestCommit = (s.part.ingested l pts icr).completeIfWhole.readoutTimeout := hcommit
    have hcursor : (s.part.ingested l pts icr).cursorOf t = w.to_ := by
      rw [Part.cursorOf_of_shot (p := s.part.ingested l pts icr) hkind hmoved.changed, ← hy]
      rfl
    have hdark : y.dark = x.progress.dark := by
      rw [← hy]
      rfl
    refine ⟨fun hpart hearly => ?_, fun hwhole hcap => ?_, fun timer hpart htimer hdue hcap => ?_⟩
    · have hquiet : timerDue s.part.icr.deadline s.part.now = false := by
        cases htimer : s.part.icr.deadline with
        | none => rfl
        | some timer => exact hearly timer htimer
      rw [Part.completeIfWhole_of_part (p := s.part.ingested l pts icr) (t := t) ht (by rw [hcursor]; exact hpart), Part.readoutTimeout_of_early (p := s.part.ingested l pts icr) (by exact hquiet)] at hcommit
      have hrow := Eq.trans (a := exec .ingestCommit s) (b := .next { s with part := s.part.ingestCommit }) rfl
        (State.next_part_congr hcommit)
      exact ⟨_, hrow, rfl, rfl, rfl, hmoved.changed, hmoved.others⟩
    · have hend : s.part.ingestCommit = (s.part.ingested l pts icr).readoutEnd .complete := by
        rw [hcommit, Part.completeIfWhole_of_whole (p := s.part.ingested l pts icr) (t := t) ht (by rw [hcursor]; exact hwhole)]
        exact Part.readoutTimeout_of_none (by
          rw [Part.readoutEnd_icr (p := s.part.ingested l pts icr) ht hkind hmoved.changed]
          rfl)
      exact hended .ingestCommit .complete y l pts icr
        (Eq.trans (b := .next { s with part := s.part.ingestCommit }) rfl (State.next_part_congr hend)) ht hmoved.changed hdark hcap
    · obtain ⟨l', hl', hmove⟩ := Part.moveCursor_timeout (p := s.part.ingested l pts icr) hkind hmoved.changed frame
      rw [htimed] at hl'
      rw [Part.completeIfWhole_of_part (p := s.part.ingested l pts icr) (t := t) ht (by rw [hcursor]; exact hpart),
        Part.readoutTimeout_of_due (p := s.part.ingested l pts icr) (t := t) ht (by exact (congrArg (timerDue · _) htimer).trans hdue) rfl] at hcommit
      have hend : s.part.ingestCommit = (s.part.ingested l' pts icr).readoutEnd .timeout :=
        hcommit.trans (congrArg (Part.readoutEnd .timeout) hmove)
      exact hended .ingestCommit .timeout (timedOut y) l' pts icr
        (Eq.trans (b := .next { s with part := s.part.ingestCommit }) rfl (State.next_part_congr hend)) ht hl' hdark hcap
  case timeout =>
    obtain ⟨l, hl, hmove⟩ := Part.moveCursor_timeout hkind hx frame
    rw [htimed] at hl
    refine hended .readoutTimeout .timeout (timedOut x.progress) l s.part.pts s.part.icr
      (Eq.trans (b := .next { s with part := s.part.readoutTimeout }) rfl (State.next_part_congr
      ((Part.readoutTimeout_of_due ht (by rw [htimer]; exact hdue) hwork).trans (congrArg (Part.readoutEnd .timeout) hmove)))) ht hl rfl hcap

/-! ## Writes into the INGEST window (R131, R135, R142, R149) -/

section IngestWrite
variable {b : Burst} {rest : List Burst} {base : Nat} {t : Target} {p : Part} (hqueue : p.pts.queue = b :: rest)
  (hhead : p.pts.head = some (.ingestWrite base))
include hqueue

/-- The part with the head burst answered. -/
def Part.headAnswered (b : Burst) (rest : List Burst) (okay : Bool) (p : Part) : Part :=
  { p with
    pts :=
      { p.pts with
        queue := rest, head := none
        answer := some ⟨okay, if okay || b.write then [] else List.replicate (16 * b.beats) 0⟩ } }

theorem Part.answerError_eq : p.answerError b = p.headAnswered b rest false := by
  unfold Part.answerError Part.answer Part.headAnswered Burst.bytes
  rw [hqueue]
  rfl

theorem Part.answer_okay_eq : p.answer true [] = p.headAnswered b rest true := by
  unfold Part.answer Part.headAnswered
  rw [hqueue]
  rfl

include hhead

theorem Part.ingestWrite_of_none (ht : p.icr.target = none) : p.ingestWrite = p.strayWrite b := by
  unfold Part.ingestWrite Part.headBurst
  rw [hqueue, hhead, ht]

theorem Part.ingestWrite_of_target (ht : p.icr.target = some t) : p.ingestWrite = p.targetWrite t b base := by
  unfold Part.ingestWrite Part.headBurst
  rw [hqueue, hhead, ht]

end IngestWrite

section TargetWrite
variable {t : Target} {b : Burst} {base : Nat} {p : Part}

theorem Part.targetWrite_of_beyond (h : p.geo.frameBytes ≤ b.addr - base) : p.targetWrite t b base = p.answerError b := by
  unfold Part.targetWrite
  exact if_pos h

variable (hin : b.addr - base < p.geo.frameBytes) {c : Nat} (hc : p.cursorOf t = c)
include hin hc

theorem Part.targetWrite_of_rewrite (h : min (b.addr - base + Burst.bytes b) p.geo.frameBytes ≤ c) :
    p.targetWrite t b base = p.answer true [] := by
  unfold Part.targetWrite
  rw [hc]
  exact (if_neg (Nat.not_le.2 hin)).trans (if_pos h)

variable (hnew : c < min (b.addr - base + Burst.bytes b) p.geo.frameBytes)
include hnew

theorem Part.targetWrite_of_work (hdrain : p.draining t = false) :
    p.targetWrite t b base =
      Part.setHead .owned
        { p with
          icr :=
            { p.icr with
              work :=
                some
                  (p.ingestWork t (max (b.addr - base) c) (min (b.addr - base + Burst.bytes b) p.geo.frameBytes)
                    (if c < b.addr - base then some (c, b.addr - base) else none)
                    (slice (max (b.addr - base) c - (b.addr - base))
                      (min (b.addr - base + Burst.bytes b) p.geo.frameBytes - max (b.addr - base) c) b.data)) } } := by
  unfold Part.targetWrite
  rw [hc, hdrain]
  exact (if_neg (Nat.not_le.2 hin)).trans ((if_neg (Nat.not_le.2 hnew)).trans (if_neg (by decide)))

theorem Part.targetWrite_of_draining (hdrain : p.draining t = true) :
    p.targetWrite t b base =
      ((p.moveCursor t (min (b.addr - base + Burst.bytes b) p.geo.frameBytes)
        (if c < b.addr - base then some (c, b.addr - base) else none) 0 0 false).answer true []).completeIfWhole := by
  unfold Part.targetWrite
  rw [hc, hdrain]
  exact (if_neg (Nat.not_le.2 hin)).trans ((if_neg (Nat.not_le.2 hnew)).trans (if_pos rfl))

end TargetWrite

section IngestWork
variable {t : Target} (from_ to_ : Nat) (gap : Option (Nat × Nat)) (raw : List Byte) (p : Part)

theorem Part.ingestWork_of_dark (hkind : t.kind = .dark) :
    p.ingestWork t from_ to_ gap raw = ⟨from_, to_, gap, t.slot, raw, none, 0, 0, .needWrite⟩ := by
  unfold Part.ingestWork
  rw [hkind]

variable (hkind : t.kind = .shot)
include hkind

theorem Part.ingestWork_of_raw (hpath : t.path = .raw) :
    p.ingestWork t from_ to_ gap raw = ⟨from_, to_, gap, t.slot, raw, none, 0, 0, .needWrite⟩ := by
  unfold Part.ingestWork
  rw [hkind, hpath]

theorem Part.ingestWork_of_inline {d : DarkUse} (hpath : t.path = .inline) (hdark : t.dark = some d) :
    p.ingestWork t from_ to_ gap raw = ⟨from_, to_, gap, t.slot, raw, some d, 0, 0, .needDark⟩ := by
  unfold Part.ingestWork
  rw [hkind, hpath, hdark]

theorem Part.ingestWork_of_undarkened (hpath : t.path = .inline) (hdark : t.dark = none) :
    p.ingestWork t from_ to_ gap raw =
      ⟨from_, to_, gap, t.slot, (p.correctIngest t from_ raw none).bytes, none, (p.correctIngest t from_ raw none).low,
        (p.correctIngest t from_ raw none).high, .needWrite⟩ := by
  unfold Part.ingestWork
  rw [hkind, hpath, hdark]

end IngestWork

/-- Settles O55: the stray write, then the cases of R131 for a SHOT and for a DARK. -/
theorem ingestBurstsFollowTheirCases : Obligations.IngestBurstsFollowTheirCases := by
  intro b rest base s hqueue hhead answered
  have hrow {q : Part} (hq : s.part.ingestWrite = q) : exec .ingestWrite s = .next { s with part := q } :=
    Eq.trans (b := .next { s with part := s.part.ingestWrite }) rfl (State.next_part_congr hq)
  have hanswered (okay : Bool) (p : Part) : answered okay p = { s with part := p.headAnswered b rest okay } := rfl
  clear_value answered
  refine ⟨fun ht => ?stray, fun t x ht hkind hx => ?shot, fun t ht hkind => ?dark⟩
  case stray =>
    intro counted
    have hstray := Part.ingestWrite_of_none hqueue hhead ht
    have hcounted : Part.statusDirty { s.part with icr := { s.part.icr with strayCount := satIncr s.part.icr.strayCount } } = counted := by
      rw [satIncr_eq]
    have hframe : counted = { s.part with cpa := counted.cpa, icr := counted.icr } := by
      rw [← hcounted, Part.statusDirty_eq]
    have hreported : counted.icr.strayReported = s.part.icr.strayReported := by
      rw [← hcounted, Part.statusDirty_eq]
    have hpts : counted.pts = s.part.pts := by
      rw [hframe]
    unfold Part.strayWrite at hstray
    simp only [hcounted] at hstray
    clear_value counted
    refine ⟨fun h => ?_, fun h => ?_⟩
    · rw [hanswered]
      exact hrow (hstray.trans ((congrArg _ (if_pos (hreported.trans h))).trans (Part.answerError_eq (by rw [hpts]; exact hqueue))))
    · rw [hanswered]
      refine hrow (hstray.trans ((congrArg _ (if_neg (by rw [hreported, h]; decide))).trans (Part.answerError_eq ?_)))
      rw [Part.emit_eq, ← hqueue, ← hpts]
  case shot =>
    intro o frame c e
    have hwrite := Part.ingestWrite_of_target hqueue hhead ht
    have hc : s.part.cursorOf t = c := Part.cursorOf_of_shot hkind hx
    have hdraining : s.part.draining t = x.exposure.abandoned := by
      unfold Part.draining Part.targetShot
      rw [hkind, hx]
    simp only [hanswered]
    refine ⟨fun hbeyond => hrow ?_, fun hin hold => hrow ?_, fun hin hnew hab => ?_, fun hin hnew hab => ?_⟩
    · exact hwrite.trans ((Part.targetWrite_of_beyond hbeyond).trans (Part.answerError_eq hqueue))
    · exact hwrite.trans ((Part.targetWrite_of_rewrite hin hc hold).trans (Part.answer_okay_eq hqueue))
    · have hwork := hwrite.trans (Part.targetWrite_of_work hin hc hnew (hdraining.trans hab))
      refine ⟨fun hpath => hrow ?_, fun d hpath hdark => hrow ?_, fun hpath hdark => hrow ?_⟩
      · rw [Part.ingestWork_of_raw _ _ _ _ _ hkind hpath] at hwork
        exact hwork
      · rw [Part.ingestWork_of_inline _ _ _ _ _ hkind hpath hdark] at hwork
        exact hwork
      · rw [Part.ingestWork_of_undarkened _ _ _ _ _ hkind hpath hdark] at hwork
        unfold Part.correctIngest at hwork
        rw [hdark] at hwork
        exact hwork
    · have hwork := hwrite.trans (Part.targetWrite_of_draining hin hc hnew (hdraining.trans hab))
      let gap := if c < o then some (c, o) else none
      let f (y : Shot) : Shot := { y with progress := y.progress.moved ⟨0, e, gap, 0, [], none, 0, 0, .written⟩ }
      let q : Part := s.part.ingested (changeAt t.number f s.part.sht.records)
        { s.part.pts with queue := rest, head := none, answer := some ⟨true, []⟩ } s.part.icr
      have hchanged := changedAt_changeAt (f := f) (fun _ => rfl) hx
      have hmoved : (s.part.moveCursor t e gap 0 0 false).answer true [] = q := by
        unfold Part.moveCursor
        rw [hkind]
        exact Part.answer_okay_eq (by exact hqueue)
      have hwork : s.part.ingestWrite = q.completeIfWhole := hwork.trans (congrArg Part.completeIfWhole hmoved)
      have hcursor : q.cursorOf t = e := Part.cursorOf_of_shot (p := q) hkind hchanged.changed
      by_cases hwhole : frame ≤ e
      · have hover : q.completeIfWhole = (q.readoutOver .shot t.number .complete (f x).progress.gaps.length).removeShot t.number := by
          rw [Part.completeIfWhole_of_whole (p := q) ht (by rw [hcursor]; exact hwhole),
            Part.readoutEnd_of_shot (p := q) ht hkind hchanged.changed]
          exact if_pos hab
        have hrecords := Part.removeShot_records (p := q.readoutOver .shot t.number .complete (f x).progress.gaps.length)
          hchanged.changed
        refine ⟨_, hrow (hwork.trans hover), rfl, rfl, ?_, ?_, fun h => absurd hwhole (Nat.not_le.2 h), fun _ => ⟨?_, ?_, ?_⟩⟩
        · rw [Part.removeShot_icr]
          rfl
        · rw [Part.removeShot_pts]
          rfl
        · rw [Part.removeShot_icr]
          rfl
        · rw [Part.removeShot_esu]
          rfl
        · unfold Part.shot?
          rw [hrecords, List.find?_filter]
          exact List.find?_eq_none.2 fun y _ => by simp
      · have hpart := Part.completeIfWhole_of_part (p := q) ht (by rw [hcursor]; exact Nat.not_le.1 hwhole)
        have hstep := hrow (hwork.trans hpart)
        refine ⟨_, hstep, rfl, rfl, rfl, rfl, fun _ => ⟨rfl, f x, hchanged.changed, rfl, rfl, rfl, ?_⟩,
          fun h => absurd (Nat.le_of_eq h.symm) hwhole⟩
        show gapsWith x.progress.gaps gap = _
        by_cases hgap : c < o
        · simp only [gap, if_pos hgap, gapsWith]
        · simp only [gap, if_neg hgap, gapsWith]
  case dark =>
    intro o frame e
    have hwrite := Part.ingestWrite_of_target hqueue hhead ht
    have hc : s.part.cursorOf t = t.cursor := by
      unfold Part.cursorOf
      rw [hkind]
    have hdraining : s.part.draining t = false := by
      unfold Part.draining Part.targetShot
      rw [hkind]
    simp only [hanswered]
    refine ⟨fun hbeyond => hrow ?_, fun hin hold => hrow ?_, fun hin hnew => hrow ?_⟩
    · exact hwrite.trans ((Part.targetWrite_of_beyond hbeyond).trans (Part.answerError_eq hqueue))
    · exact hwrite.trans ((Part.targetWrite_of_rewrite hin hc hold).trans (Part.answer_okay_eq hqueue))
    · have hwork := hwrite.trans (Part.targetWrite_of_work hin hc hnew hdraining)
      rw [Part.ingestWork_of_dark _ _ _ _ _ hkind] at hwork
      exact hwork

end Sys2Proof.Machine
end

section
/-! PROOFS. The card queue: what starts a run, the activation of a request, and the choice that may follow a change of the queue (R192 to R197,
R201). -/

namespace Sys2Proof.Machine

/-! ## The CPA only takes on work -/

/-- A CPA that holds all the writes and events of another, its slots as they were. -/
structure Cpa.Extends (c d : Cpa) : Prop where
  slots : d.slots = c.slots
  writes : ∀ x ∈ c.writes, x ∈ d.writes
  events : ∀ x ∈ c.events, x ∈ d.events

theorem Cpa.Extends.refl (c : Cpa) : c.Extends c := ⟨rfl, fun _ h => h, fun _ h => h⟩

theorem Cpa.Extends.trans {c d e : Cpa} (h : c.Extends d) (h' : d.Extends e) : c.Extends e :=
  ⟨h'.slots.trans h.slots, fun x hx => h'.writes x (h.writes x hx), fun x hx => h'.events x (h.events x hx)⟩

theorem Cpa.extends_dirtied (phase : Phase) (c : Cpa) : c.Extends (c.dirtied phase) := by
  unfold Cpa.dirtied
  split
  · split
    · exact .refl c
    · exact ⟨rfl, fun _ h => List.mem_append_left _ h, fun _ h => h⟩
  · exact .refl c

theorem Cpa.extends_handed (phase : Phase) (e : Event) (c : Cpa) : c.Extends (c.handed phase e) := by
  unfold Cpa.handed
  split
  · split
    · split
      · exact .refl c
      · exact Cpa.Extends.trans (d := { c with dropped := true }) ⟨rfl, fun _ h => h, fun _ h => h⟩ (Cpa.extends_dirtied _ _)
    · split
      · exact ⟨rfl, fun _ h => h, fun _ h => List.mem_append_left _ h⟩
      · exact ⟨rfl, fun _ h => List.mem_append_left _ h, fun _ h => h⟩
  · exact .refl c

theorem Cpa.Extends.hasEnded {p q : Part} (h : p.cpa.Extends q.cpa) {n : Fin 8} {cls : ResultClass} {code : ResultCode} {data : List Word}
    (hend : p.hasEnded n cls code data) : q.hasEnded n cls code data :=
  ⟨h.writes _ hend.1, by rw [h.slots]; exact hend.2⟩

/-! ## One request changed -/

/-- The queue with the requests of an id changed. -/
def withRequest (id : Nat) (f : Request → Request) (l : List Request) : List Request := l.map fun r => if r.id = id then f r else r

theorem withRequest_withRequest (id : Nat) {f g : Request → Request} (hf : ∀ r, (f r).id = r.id) (l : List Request) :
    withRequest id g (withRequest id f l) = withRequest id (fun r => g (f r)) l := by
  unfold withRequest
  rw [List.map_map]
  refine List.map_congr_left fun r _ => ?_
  by_cases h : r.id = id
  · simp only [Function.comp, if_pos h, if_pos ((hf r).trans h)]
  · simp only [Function.comp, if_neg h]

theorem Part.modRequest_eq (id : Nat) (f : Request → Request) (p : Part) :
    p.modRequest id f = { p with cde := { p.cde with requests := withRequest id f p.cde.requests } } := rfl

theorem find?_withRequest {l : List Request} {r : Request} (hr : l.find? (fun x => decide (x.id = r.id)) = some r) {f : Request → Request}
    (hf : ∀ x, (f x).id = x.id) : (withRequest r.id f l).find? (fun x => decide (x.id = r.id)) = some (f r) := by
  unfold withRequest
  rw [find?_map_id r.id hf, hr]
  rfl

/-! ## The start of a run (R194, R196, R197, R199) -/

/-- The run of a request's work that begins at a time, from what the request has done: `base` is where a shot's frame begins. -/
structure Starts (now : Word) (frame : Nat) (base : Word → Nat) (work : Work) (position : Nat × Nat) (done : Nat) (crc : Word) (run : Run) :
    Prop where
  first : run.first = position.1
  count : run.count = min 64 position.2
  got : run.got = []
  write : ∀ a n buffer, work = .write a n buffer → run.source = buffer + done * 512 ∧ run.sourceEnd = buffer + (done + run.count) * 512
  read : ∀ a n buffer, work = .read a n buffer → run.sourceEnd ≤ run.source
  store : ∀ n es, work = .store n es →
    run.source = base n + min ((done - 8) * 512) frame ∧ run.sourceEnd = base n + min ((done + run.count - 8) * 512) frame
  memory : run.source < run.sourceEnd → run.phase = .assemble ∧ run.timer = none ∧ run.data = [] ∧ run.crc = crc
  ready : run.sourceEnd ≤ run.source → run.phase = .startCommand ∧ run.timer = some ⟨now, 100000⟩
  transfer : work.isStore = false → run.crc = crc

/-- Where the frame of a shot begins. -/
def Part.shotBase (p : Part) (n : Word) : Nat := p.sht.slotAddr (p.slotOf n)

theorem Part.shotBase_eq {p : Part} {n : Word} {y : Shot} (h : p.shot? n = some y) : p.shotBase n = p.sht.slotAddr y.slot := by
  unfold Part.shotBase Part.slotOf
  rw [h]
  rfl

/-- The run as it stands before its memory reads. -/
def Part.plannedRun (r : Request) (p : Part) : Run :=
  ⟨r.position.1, min 64 r.position.2, .assemble, none, (p.runSource r (min 64 r.position.2)).1,
    (p.runSource r (min 64 r.position.2)).2, [], [], r.crc⟩

/-- The run as it begins: without memory reads its data is assembled at once. -/
def Part.begunRun (r : Request) (p : Part) : Run :=
  if (p.plannedRun r).source < (p.plannedRun r).sourceEnd then p.plannedRun r
  else { p.assemble r (p.plannedRun r) with phase := .startCommand, timer := some ⟨p.clock.time, 100000⟩ }

theorem Part.startRun_eq {r : Request} {p : Part} (hr : p.cde.requests.find? (fun x => decide (x.id = r.id)) = some r) :
    p.startRun r.id = { p with cde := { p.cde with run := some (p.begunRun r) } } := by
  unfold Part.startRun Part.begunRun
  rw [hr]
  by_cases h : (p.plannedRun r).source < (p.plannedRun r).sourceEnd
  · rw [if_pos h]
    exact if_pos h
  · rw [if_neg h]
    exact if_neg h

/-- Assembling a run changes its data and CRC only. -/
theorem Part.assemble_frame (r : Request) (run : Run) (p : Part) :
    p.assemble r run = { run with data := (p.assemble r run).data, crc := (p.assemble r run).crc } := by
  unfold Part.assemble
  cases r.work <;> rfl

theorem Part.assemble_of_transfer {r : Request} (h : r.work.isStore = false) (run : Run) (p : Part) :
    p.assemble r run = { run with data := run.got } := by
  unfold Part.assemble
  cases hw : r.work with
  | store n es => rw [hw] at h; cases h
  | write | read => rfl

theorem Part.starts_begunRun (r : Request) (p : Part) :
    Starts p.clock.time p.geo.frameBytes p.shotBase r.work r.position r.done r.crc (p.begunRun r) := by
  have hplanned : ∀ run : Run, run.first = (p.plannedRun r).first → run.count = (p.plannedRun r).count →
      run.got = (p.plannedRun r).got → run.source = (p.plannedRun r).source → run.sourceEnd = (p.plannedRun r).sourceEnd →
      (run.source < run.sourceEnd → run.phase = .assemble ∧ run.timer = none ∧ run.data = [] ∧ run.crc = r.crc) →
      (run.sourceEnd ≤ run.source → run.phase = .startCommand ∧ run.timer = some ⟨p.clock.time, 100000⟩) →
      (r.work.isStore = false → run.crc = r.crc) →
      Starts p.clock.time p.geo.frameBytes p.shotBase r.work r.position r.done r.crc run := by
    intro run hfirst hcount hgot hsource hend hmemory hready htransfer
    refine ⟨hfirst, hcount, hgot, fun a n buffer hw => ?_, fun a n buffer hw => ?_, fun n es hw => ?_, hmemory, hready, htransfer⟩
    · rw [hsource, hend, hcount]
      unfold Part.plannedRun Part.runSource
      rw [hw]
      exact ⟨rfl, rfl⟩
    · rw [hsource, hend]
      refine Nat.le_of_eq ?_
      unfold Part.plannedRun Part.runSource
      rw [hw] <;> rfl
    · rw [hsource, hend, hcount]
      unfold Part.plannedRun Part.runSource
      rw [hw]
      exact ⟨rfl, rfl⟩
  unfold Part.begunRun
  split
  · next h => exact hplanned _ rfl rfl rfl rfl rfl (fun _ => ⟨rfl, rfl, rfl, rfl⟩) (fun hnot => absurd h (Nat.not_lt.2 hnot)) fun _ => rfl
  · next h =>
    rw [Part.assemble_frame]
    refine hplanned _ rfl rfl rfl rfl rfl (fun hlt => absurd hlt h) (fun _ => ⟨rfl, rfl⟩) fun ht => ?_
    rw [Part.assemble_of_transfer ht]
    rfl

/-! ## Activation (R194, R195, R201) -/

theorem extentsBelow_iff (capacity : Nat) (es : List (Nat × Nat)) :
    extentsBelow capacity es = true ↔ ∀ e ∈ es, e.1 + e.2 ≤ capacity := by
  unfold extentsBelow
  rw [List.all_eq_true]
  exact forall₂_congr fun e _ => Iff.of_eq Nat.ble_eq

theorem extentsBelow_eq_false_iff (capacity : Nat) (es : List (Nat × Nat)) :
    extentsBelow capacity es = false ↔ ∃ e ∈ es, capacity < e.1 + e.2 := by
  unfold extentsBelow
  rw [List.all_eq_false]
  exact exists_congr fun e => and_congr_right fun _ => by rw [Nat.ble_eq, Nat.not_le]

/-- The record of a shot that a STORE of it takes into STORING. -/
def Shot.stored (first : Bool) (z : Shot) : Shot :=
  { z with state := .storing, progress := { z.progress with sectorsStored := if first then 0 else z.progress.sectorsStored } }

section Activate
variable {r : Request} {p : Part} (hr : p.cde.requests.find? (fun x => decide (x.id = r.id)) = some r)
include hr

theorem Part.activate_of_beyond (h : extentsBelow (p.cde.capacity.getD 0) r.work.extents = false) :
    p.activate r.id = p.haltRequest r.id .outOfRange := by
  unfold Part.activate
  rw [hr]
  exact if_neg (by rw [h]; decide)

variable (hin : extentsBelow (p.cde.capacity.getD 0) r.work.extents = true)
include hin

theorem Part.activate_of_transfer (hw : r.work.isStore = false) :
    p.activate r.id =
      Part.startRun r.id { p with cde := { p.cde with requests := withRequest r.id (fun x => { x with state := .active }) p.cde.requests } } := by
  unfold Part.activate
  rw [hr]
  refine (if_pos hin).trans ?_
  cases hwork : r.work with
  | store n es => rw [hwork] at hw; cases hw
  | write | read => rfl

theorem Part.activate_of_store {n : Word} {es : List (Nat × Nat)} (hw : r.work = .store n es) :
    p.activate r.id =
      Part.startRun r.id
        (Part.enterStoring r n
          { p with cde := { p.cde with requests := withRequest r.id (fun x => { x with state := .active }) p.cde.requests } }) := by
  unfold Part.activate
  rw [hr]
  refine (if_pos hin).trans ?_
  rw [hw]
  rfl

end Activate

section EnterStoring
variable {r : Request} {n : Word} {p : Part}

theorem Part.enterStoring_again (h : r.header.isSome = true) :
    p.enterStoring r n = { p with sht := { p.sht with records := changeAt n (Shot.stored false) p.sht.records } } := by
  unfold Part.enterStoring
  rw [if_pos h]
  rfl

variable (h : r.header = none)
include h

theorem Part.enterStoring_first {y : Shot} (hy : p.shot? n = some y) :
    p.enterStoring r n =
      { p with
        sht := { p.sht with records := changeAt n (Shot.stored true) p.sht.records }
        cde :=
          { p.cde with
            requests :=
              withRequest r.id
                (fun x => { x with header := some (headerImage p.geo (y.stored true) r.id p.clock.time), crc := 4294967295#32 })
                p.cde.requests } } := by
  have hrecords : changeAt n (fun z => { z with progress := { z.progress with sectorsStored := 0 } })
      (changeAt n (fun z => { z with state := .storing }) p.sht.records) = changeAt n (Shot.stored true) p.sht.records :=
    changeAt_changeAt n (by exact fun _ => rfl) _
  have hfound := (changedAt_changeAt (f := Shot.stored true) (fun _ => rfl) hy).changed
  unfold Part.enterStoring
  rw [if_neg (by rw [h]; decide)]
  simp only [Part.setShotState, Part.modProgress, Part.modShot_eq, hrecords]
  unfold Part.shot?
  simp only [hfound]
  rfl

theorem Part.enterStoring_gone (hy : p.shot? n = none) :
    p.enterStoring r n = { p with sht := { p.sht with records := changeAt n (Shot.stored true) p.sht.records } } := by
  have hrecords : changeAt n (fun z => { z with progress := { z.progress with sectorsStored := 0 } })
      (changeAt n (fun z => { z with state := .storing }) p.sht.records) = changeAt n (Shot.stored true) p.sht.records :=
    changeAt_changeAt n (by exact fun _ => rfl) _
  have hnone : (changeAt n (Shot.stored true) p.sht.records).find? (fun t => decide (t.number = n)) = none := by
    rw [find?_changeAt n n (by exact fun _ => rfl), if_pos rfl]
    exact congrArg (Option.map _) hy
  unfold Part.enterStoring
  rw [if_neg (by rw [h]; decide)]
  simp only [Part.setShotState, Part.modProgress, Part.modShot_eq, hrecords]
  unfold Part.shot?
  simp only [hnone]

end EnterStoring

/-! ## What an activation leaves -/

/-- A record as an activation may change it: its state and its sectors stored. -/
def Shot.KeptBy (y z : Shot) : Prop :=
  z = { y with state := z.state, progress := { y.progress with sectorsStored := z.progress.sectorsStored } }

/-- A request as an activation may change it: its state, cause, header image and CRC. -/
def Request.KeptBy (r q : Request) : Prop := q = { r with state := q.state, cause := q.cause, header := q.header, crc := q.crc }

/-- What an activation changes: the CPA takes on events and a status write, the queue's requests keep their places, a run may begin, and of
the records only those of shots that requests name are touched. -/
structure CardStep (p q : Part) : Prop where
  frame : q = { p with cpa := q.cpa, cde := { p.cde with requests := q.cde.requests, run := q.cde.run }
                       sht := { p.sht with records := q.sht.records } }
  cpa : p.cpa.Extends q.cpa
  requests : ∃ g, (∀ x, Request.KeptBy x (g x)) ∧ q.cde.requests = p.cde.requests.map g
  records : ∃ f, (∀ y, Shot.KeptBy y (f y) ∧ (p.requestFor y.number = none → f y = y)) ∧ q.sht.records = p.sht.records.map f

theorem Shot.KeptBy.number {y z : Shot} (h : Shot.KeptBy y z) : z.number = y.number := by rw [h]

theorem Request.KeptBy.id {r q : Request} (h : Request.KeptBy r q) : q.id = r.id := by rw [h]

theorem CardStep.refl (p : Part) : CardStep p p :=
  ⟨rfl, .refl _, ⟨id, fun _ => rfl, (List.map_id _).symm⟩, ⟨id, fun _ => ⟨rfl, fun _ => rfl⟩, (List.map_id _).symm⟩⟩

theorem Part.requestFor_ne_none {p : Part} {r : Request} {n : Word} {es : List (Nat × Nat)} (hr : r ∈ p.cde.requests)
    (hw : r.work = .store n es) : p.requestFor n ≠ none := by
  intro h
  refine absurd ((List.find?_eq_none.1 h) r hr) ?_
  unfold Request.names
  rw [hw]
  simp

theorem Request.keptBy_if {id : Nat} {f : Request → Request} (hf : ∀ x, Request.KeptBy x (f x)) (x : Request) :
    Request.KeptBy x (if x.id = id then f x else x) := by
  split
  · exact hf x
  · rfl

/-- A change of the record that a queued request names touches no other. -/
theorem Shot.keptBy_if {p : Part} {n : Word} (hn : p.requestFor n ≠ none) {f : Shot → Shot} (hf : ∀ y, Shot.KeptBy y (f y)) (y : Shot) :
    Shot.KeptBy y (if y.number = n then f y else y) ∧ (p.requestFor y.number = none → (if y.number = n then f y else y) = y) := by
  by_cases h : y.number = n
  · rw [if_pos h]
    exact ⟨hf y, fun hnone => absurd (h ▸ hnone) hn⟩
  · rw [if_neg h]
    exact ⟨rfl, fun _ => rfl⟩

theorem Part.activate_cardStep {r : Request} {p : Part} (hr : p.cde.requests.find? (fun x => decide (x.id = r.id)) = some r) :
    CardStep p (p.activate r.id) := by
  have hmem : r ∈ p.cde.requests := List.mem_of_find?_eq_some hr
  cases hin : extentsBelow (p.cde.capacity.getD 0) r.work.extents with
  | false =>
    rw [Part.activate_of_beyond hr hin, Part.haltRequest_eq hr]
    refine ⟨rfl, (Cpa.extends_dirtied _ _).trans (Cpa.extends_handed _ _ _), ⟨_, Request.keptBy_if (by exact fun _ => rfl), rfl⟩, ?_⟩
    unfold leftStoring
    cases hw : r.work with
    | store n es =>
      refine ⟨_, Shot.keptBy_if (Part.requestFor_ne_none hmem hw) fun y => ?_, rfl⟩
      unfold Shot.KeptBy
      split <;> rfl
    | write | read => exact ⟨id, fun _ => ⟨rfl, fun _ => rfl⟩, (List.map_id _).symm⟩
  | true =>
    have hactive := find?_withRequest (f := fun x => { x with state := .active }) hr fun _ => rfl
    by_cases hstore : r.work.isStore = false
    · rw [Part.activate_of_transfer hr hin hstore, Part.startRun_eq (r := { r with state := .active }) hactive]
      exact ⟨rfl, .refl _, ⟨_, Request.keptBy_if (by exact fun _ => rfl), rfl⟩, ⟨id, fun _ => ⟨rfl, fun _ => rfl⟩, (List.map_id _).symm⟩⟩
    · cases hw : r.work with
      | store n es =>
        have hnamed := Part.requestFor_ne_none hmem hw
        rw [Part.activate_of_store hr hin hw]
        cases hheader : r.header with
        | some h =>
          rw [Part.enterStoring_again (by rw [hheader]; rfl), Part.startRun_eq (r := { r with state := .active }) (by exact hactive)]
          exact ⟨rfl, .refl _, ⟨_, Request.keptBy_if (by exact fun _ => rfl), rfl⟩, ⟨_, Shot.keptBy_if hnamed (by exact fun _ => rfl), rfl⟩⟩
        | none =>
          cases hy : p.shot? n with
          | none =>
            rw [Part.enterStoring_gone hheader (by exact hy), Part.startRun_eq (r := { r with state := .active }) (by exact hactive)]
            exact ⟨rfl, .refl _, ⟨_, Request.keptBy_if (by exact fun _ => rfl), rfl⟩, ⟨_, Shot.keptBy_if hnamed (by exact fun _ => rfl), rfl⟩⟩
          | some y =>
            have hfirst := find?_withRequest (f := fun x => { x with
              state := .active, header := some (headerImage p.geo (y.stored true) r.id p.clock.time), crc := 4294967295#32 }) hr
              fun _ => rfl
            rw [Part.enterStoring_first hheader (y := y) (by exact hy)]
            simp only [withRequest_withRequest, implies_true]
            rw [Part.startRun_eq (r := { r with
              state := .active, header := some (headerImage p.geo (y.stored true) r.id p.clock.time), crc := 4294967295#32 })
              (by exact hfirst)]
            exact ⟨rfl, .refl _, ⟨_, Request.keptBy_if (by exact fun _ => rfl), rfl⟩, ⟨_, Shot.keptBy_if hnamed (by exact fun _ => rfl), rfl⟩⟩
      | write | read =>
        rw [hw] at hstore
        exact absurd rfl hstore

theorem Part.choose_cardStep (p : Part) : CardStep p p.choose := by
  rcases p.choose_cases with h | ⟨r, hr, -, -, -, -, h⟩
  · rw [h]
    exact .refl p
  · cases hfound : p.cde.requests.find? (fun x => decide (x.id = r.id)) with
    | none => exact absurd (List.find?_eq_none.1 hfound r hr) (by simp)
    | some a =>
      have hid : a.id = r.id := by simpa using List.find?_some hfound
      rw [h, ← hid]
      rw [← hid] at hfound
      exact Part.activate_cardStep hfound

section CardStep
variable {p q : Part} (h : CardStep p q)
include h

theorem CardStep.shot? {n : Word} {y : Shot} (hy : p.shot? n = some y) :
    ∃ z, q.shot? n = some z ∧ Shot.KeptBy y z ∧ (p.requestFor n = none → z = y) := by
  obtain ⟨f, hf, hrecords⟩ := h.records
  refine ⟨f y, ?_, (hf y).1, fun hnone => (hf y).2 (by rw [Part.number_of_shot? hy]; exact hnone)⟩
  unfold Part.shot?
  rw [hrecords, List.find?_map]
  have hnumber : ((fun t : Shot => decide (t.number = n)) ∘ f) = fun t => decide (t.number = n) := by
    funext t
    simp only [Function.comp, (hf t).1.number]
  rw [hnumber]
  exact congrArg (Option.map f) hy

theorem CardStep.shot?_none {n : Word} (hy : p.shot? n = none) : q.shot? n = none := by
  obtain ⟨f, hf, hrecords⟩ := h.records
  unfold Part.shot?
  rw [hrecords, List.find?_map]
  have hnumber : ((fun t : Shot => decide (t.number = n)) ∘ f) = fun t => decide (t.number = n) := by
    funext t
    simp only [Function.comp, (hf t).1.number]
  rw [hnumber]
  exact congrArg (Option.map f) hy

theorem CardStep.mem {r : Request} (hr : r ∈ p.cde.requests) : ∃ x ∈ q.cde.requests, Request.KeptBy r x := by
  obtain ⟨g, hg, hrequests⟩ := h.requests
  exact ⟨g r, by rw [hrequests]; exact List.mem_map_of_mem hr, hg r⟩

theorem CardStep.ids : q.cde.requests.map (·.id) = p.cde.requests.map (·.id) := by
  obtain ⟨g, hg, hrequests⟩ := h.requests
  rw [hrequests, List.map_map]
  exact List.map_congr_left fun x _ => (hg x).id

theorem CardStep.length : q.cde.requests.length = p.cde.requests.length := by
  obtain ⟨g, -, hrequests⟩ := h.requests
  rw [hrequests, List.length_map]

end CardStep

end Sys2Proof.Machine
end

section
/-! PROOFS. The Development Pass Engine: the fall of a dark's reference, the ends of the stages and of the pass (R111, R113, R114, R152, R153,
R156, R161 to R164, R192). -/

namespace Sys2Proof.Machine

/-! ## A dark's reference falls by one (R111, R113, R114) -/

/-- What the fall of a reference changes: the CPA, the slots, and the darks held. -/
theorem Part.lowerDark_frame (n : Word) (d : Option DarkSource) (p : Part) :
    ∃ cpa slots dfl,
      p.lowerDark n d = { p with cpa := cpa, sht := { p.sht with slots := slots }, dfl := dfl } ∧ dfl.policy = p.dfl.policy := by
  have hentry (id : Nat) : ∃ cpa slots dfl,
      p.lowerEntry id = { p with cpa := cpa, sht := { p.sht with slots := slots }, dfl := dfl } ∧ dfl.policy = p.dfl.policy := by
    unfold Part.lowerEntry
    simp only
    split
    · exact ⟨p.cpa, p.sht.slots, _, rfl, rfl⟩
    · split
      · rw [Part.removeEntry, Part.freeSlot_eq]
        exact ⟨_, _, _, rfl, rfl⟩
      · exact ⟨p.cpa, p.sht.slots, _, rfl, rfl⟩
  unfold Part.lowerDark
  split
  · exact hentry _
  · exact hentry _
  · unfold Part.lowerTransient
    split
    · exact ⟨p.cpa, p.sht.slots, p.dfl, rfl, rfl⟩
    · split
      · rw [Part.freeSlot_eq]
        exact ⟨_, _, _, rfl, rfl⟩
      · exact ⟨p.cpa, p.sht.slots, _, rfl, rfl⟩
  · exact ⟨p.cpa, p.sht.slots, p.dfl, rfl, rfl⟩

theorem Part.lowerDark_of_entry {n : Word} {dark : Option DarkSource} {id k : Nat}
    (h : dark = some (.library id k) ∨ dark = some (.capture (.entry id) (some k))) (p : Part) : p.lowerDark n dark = p.lowerEntry id := by
  rcases h with rfl | rfl <;> rfl

section LowerEntry
variable {id : Nat} {d : Dark} {p : Part} (hd : p.dfl.entries.find? (fun e => decide (e.id = id)) = some d)
include hd

theorem find?_lowered :
    (p.dfl.entries.map fun e => if e.id = id then lowerRefs e else e).find? (fun e => decide (e.id = id)) = some (lowerRefs d) := by
  rw [List.find?_map]
  have hid : ((fun e : Dark => decide (e.id = id)) ∘ fun e => if e.id = id then lowerRefs e else e) = fun e => decide (e.id = id) := by
    funext e
    by_cases h : e.id = id
    · simp only [Function.comp, if_pos h]
      rfl
    · simp only [Function.comp, if_neg h]
  rw [hid, hd]
  exact congrArg some (if_pos (by simpa using List.find?_some hd))

theorem Part.lowerEntry_of_kept (h : 2 ≤ d.refs ∨ p.dfl.entries.length ≤ p.dfl.policy.size) :
    p.lowerEntry id = { p with dfl := { p.dfl with entries := p.dfl.entries.map fun e => if e.id = id then lowerRefs e else e } } := by
  unfold Part.lowerEntry
  simp only
  rw [find?_lowered hd]
  refine if_neg fun hgone => ?_
  rcases h with h | h
  · have hzero : d.refs - 1 = 0 := hgone.1
    omega
  · have hlt : p.dfl.policy.size < (p.dfl.entries.map fun e => if e.id = id then lowerRefs e else e).length := hgone.2
    rw [List.length_map] at hlt
    omega

theorem Part.lowerEntry_of_gone (hrefs : d.refs ≤ 1) (hfull : p.dfl.policy.size < p.dfl.entries.length) :
    p.lowerEntry id =
      { p with
        cpa := (p.cpa.dirtied p.phase).handed p.phase ⟨.slotReleased, d.origin, p.clock.time, [natWord d.slot, 1]⟩
        sht := { p.sht with slots := p.sht.slots.set d.slot .free }
        dfl :=
          { p.dfl with
            entries := (p.dfl.entries.map fun e => if e.id = id then lowerRefs e else e).erase { d with refs := d.refs - 1 } } } := by
  unfold Part.lowerEntry
  simp only
  rw [find?_lowered hd]
  refine (if_pos ⟨show d.refs - 1 = 0 by omega, by rw [List.length_map]; exact hfull⟩).trans ?_
  rw [Part.removeEntry, Part.freeSlot_eq]
  rfl

end LowerEntry

theorem Part.lowerTransient_of_gone {n : Word} {d : Dark} {p : Part}
    (hd : p.dfl.transients.find? (fun e => decide (e.origin = n)) = some d) (hrefs : d.refs ≤ 1) :
    p.lowerTransient n =
      { p with
        cpa := (p.cpa.dirtied p.phase).handed p.phase ⟨.slotReleased, d.origin, p.clock.time, [natWord d.slot, 1]⟩
        sht := { p.sht with slots := p.sht.slots.set d.slot .free }
        dfl := { p.dfl with transients := p.dfl.transients.filter fun e => decide (e.origin ≠ n) } } := by
  unfold Part.lowerTransient
  rw [hd]
  refine (if_pos hrefs).trans ?_
  rw [Part.freeSlot_eq]
  rfl

/-! ## The values a pass takes (R153) -/

/-- A pass as it stands before its first stage. -/
def Part.passTaken (t : Shot) (p : Part) : Pass where
  shot := t.number
  slot := t.slot
  gain := t.arming.gain
  dark := p.darkUseOf t.number t.progress.dark
  gaps := t.progress.gaps
  black := (p.cal.tables.blackOf t.arming.gain).1
  threshold := (p.cal.tables.blackOf t.arming.gain).2
  darkBlack := (p.darkUseOf t.number t.progress.dark).elim 0 fun u => (p.cal.tables.blackOf u.gain).1
  grid := p.cal.tables.gainGrid.getD []
  defects := p.cal.tables.defects.filter fun e => decide (e.1 < p.geo.width) && decide (e.2 < p.geo.height)
  columns := p.cal.tables.columns.filter fun x => decide (x < p.geo.width)
  pedestal := p.dfl.policy.pedestal
  stage := 1
  pos := 0
  gapsLeft := []
  repairs := ⟨[], 0, []⟩
  raw := none
  out := none
  beats := []
  low := 0
  high := 0
  repaired := 0
  histogram := List.replicate 64 0
  full := 0

theorem Part.passOf_eq (t : Shot) (p : Part) :
    p.passOf t = if t.progress.correction = some .corrected then (p.passTaken t).toStage2 else (p.passTaken t).toStage1 := by
  unfold Part.passOf Part.passTaken
  cases p.darkUseOf t.number t.progress.dark <;> rfl

theorem Pass.toStage2_of_none {a : Pass} (h : a.gaps = []) : a.toStage2 = a.toStage3 := by
  unfold Pass.toStage2
  rw [h]

theorem Pass.toStage2_of_gaps {a : Pass} (h : a.gaps ≠ []) :
    a.toStage2.stage = 2 ∧ a.toStage2.gapsLeft = a.gaps ∧ a.gaps.head?.map Prod.fst = some a.toStage2.pos := by
  unfold Pass.toStage2
  cases hgaps : a.gaps with
  | nil => exact absurd hgaps h
  | cons g gs => exact ⟨rfl, rfl, rfl⟩

/-- Where a pass begins, it has the values taken. -/
theorem Pass.toStage2_frame (a : Pass) :
    a.toStage2 = { a with
      stage := a.toStage2.stage, pos := a.toStage2.pos, gapsLeft := a.toStage2.gapsLeft, beats := a.toStage2.beats
      repairs := a.toStage2.repairs } := by
  unfold Pass.toStage2
  split <;> rfl

theorem Part.passOf_frame (t : Shot) (p : Part) :
    p.passOf t = { p.passTaken t with
      stage := (p.passOf t).stage, pos := (p.passOf t).pos, gapsLeft := (p.passOf t).gapsLeft, beats := (p.passOf t).beats
      repairs := (p.passOf t).repairs } := by
  rw [Part.passOf_eq]
  split
  · exact Pass.toStage2_frame _
  · rfl

theorem Part.startPass_of_nil {p : Part} (h : p.dpe.queue = []) : p.startPass = p := by
  unfold Part.startPass
  rw [h]

theorem Part.startPass_of_cons {p : Part} {n : Word} {rest : List Word} {t : Shot} (h : p.dpe.queue = n :: rest) (ht : p.shot? n = some t) :
    p.startPass = { p with dpe := { p.dpe with pass := some (p.passOf t) } } := by
  unfold Part.startPass
  rw [h]
  simp only [ht]

/-! ## The waiting STORE (R192) -/

theorem Part.wakeStore_of_none {n : Word} {p : Part} (h : p.requestFor n = none) : p.wakeStore n = p := by
  unfold Part.wakeStore
  rw [h]

theorem Part.wakeStore_of_some {n : Word} {r : Request} {p : Part} (h : p.requestFor n = some r) :
    p.wakeStore n =
      { p with
        cde :=
          { p.cde with
            requests :=
              p.cde.requests.map fun z => if z.id = r.id ∧ r.state = .waiting then { z with state := .queued } else z } } := by
  unfold Part.wakeStore
  rw [h]
  simp only
  by_cases hw : r.state = .waiting
  · rw [if_pos hw]
    simp only [hw, and_true]
    rfl
  · rw [if_neg hw]
    simp only [hw, and_false, if_false, List.map_id']

/-- Waking a STORE changes the queue only. -/
theorem Part.wakeStore_frame (n : Word) (p : Part) : p.wakeStore n = { p with cde := (p.wakeStore n).cde } := by
  cases h : p.requestFor n with
  | none => rw [Part.wakeStore_of_none h]
  | some r => rw [Part.wakeStore_of_some h]

/-! ## The end of a pass (R163, R164) -/

/-- The record of a shot whose pass has ended. -/
def Shot.developedBy (a : Pass) (sectors : Nat) (y : Shot) : Shot :=
  { y with
    state := .developed
    progress :=
      { y.progress with
        histogram := a.histogram, saturated := saturatedCount a.full y.progress.highClamps, fileSectors := some sectors } }

/-- The part whose shot has been written DEVELOPED. -/
def Part.developedBy (a : Pass) (p : Part) : Part :=
  { p with sht := { p.sht with records := changeAt a.shot (Shot.developedBy a p.geo.fileSectors) p.sht.records } }

/-- The part with DEVELOPED reported and the shot out of the queue. -/
def Part.passLeft (a : Pass) (q : Part) : Part :=
  { q with
    cpa := q.cpa.handed q.phase ⟨.developed, a.shot, q.clock.time, [natWord q.geo.fileSectors]⟩
    dpe := { queue := q.dpe.queue.tail, pass := none } }

theorem Part.endPass_eq (a : Pass) (t : Shot) (p : Part) :
    p.endPass a t =
      ((((p.developedBy a).lowerDark a.shot t.progress.dark).passLeft a).startPass.wakeStore a.shot).choose := by
  have hrecords : changeAt a.shot (fun y => { y with state := .developed })
      (changeAt a.shot (fun y => { y with
        progress := { y.progress with
          histogram := a.histogram, saturated := saturatedCount a.full y.progress.highClamps
          fileSectors := some p.geo.fileSectors } }) p.sht.records) =
      changeAt a.shot (Shot.developedBy a p.geo.fileSectors) p.sht.records := changeAt_changeAt _ (by exact fun _ => rfl) _
  obtain ⟨cpa, slots, dfl, hlower, -⟩ := Part.lowerDark_frame a.shot t.progress.dark (p.developedBy a)
  unfold Part.endPass
  simp only [Part.setShotState, Part.modProgress, Part.modShot_eq, hrecords]
  have hset : { p with sht := { p.sht with records := changeAt a.shot (Shot.developedBy a p.geo.fileSectors) p.sht.records } } =
    p.developedBy a := rfl
  simp only [hset, Part.emit_eq]
  rw [hlower]
  rfl

theorem Part.passEnd_of_over {a : Pass} {x : Shot} {p : Part} (ha : p.dpe.pass = some a) (hstage : a.stage = 4)
    (hover : p.geo.frameBytes ≤ a.pos) (hx : p.shot? a.shot = some x) : p.passEnd = p.endPass a x := by
  have hstop : a.stageOver p.geo = true := by
    unfold Pass.stageOver
    rw [hstage]
    exact decide_eq_true hover
  unfold Part.passEnd
  rw [ha]
  refine (if_pos ⟨hstage, hstop⟩).trans ?_
  rw [hx]

theorem CardStep.dpe {p q : Part} (h : CardStep p q) : q.dpe = p.dpe := (congrArg Part.dpe h.frame).trans rfl

theorem CardStep.dfl {p q : Part} (h : CardStep p q) : q.dfl = p.dfl := (congrArg Part.dfl h.frame).trans rfl

theorem Tables.blackOf_eq {t : Tables} {levels : List (Nat × Nat)} {gain : Nat} {b : Nat × Nat} (hl : t.blackSat = some levels)
    (hb : levels[gain]? = some b) : t.blackOf gain = b := by
  unfold Tables.blackOf
  rw [hl, Option.getD_some, List.getD_eq_getElem?_getD, hb, Option.getD_some]

theorem Part.darkUseOf_of_entry {n : Word} {dark : Option DarkSource} {id k : Nat} {e : Dark} {p : Part}
    (h : dark = some (.library id k) ∨ dark = some (.capture (.entry id) (some k)))
    (he : p.dfl.entries.find? (fun e => decide (e.id = id)) = some e) : p.darkUseOf n dark = some ⟨e.slot, e.gain, k⟩ := by
  unfold Part.darkUseOf
  rcases h with rfl | rfl <;> simp only [he, Option.map_some]

theorem DarkSource.unreferenced_of_not {dark : Option DarkSource} (hlibrary : ∀ id k, dark ≠ some (.library id k))
    (hcapture : ∀ ref k, dark ≠ some (.capture ref (some k))) : DarkSource.unreferenced dark = true := by
  unfold DarkSource.unreferenced
  split
  · exact absurd rfl (hlibrary _ _)
  · exact absurd rfl (hcapture _ _)
  · exact absurd rfl (hcapture _ _)
  · rfl

/-- Settles O60: the ends of stages 1 and 3, then the end of the pass with the next shot's pass and the dark's reference. -/
theorem passStagesEnd : Obligations.PassStagesEnd := by
  refine ⟨fun a s ha hstage hover => ?stage1, fun a s ha hstage hcolumns hsingles => ?stage3,
    fun a x rest s ha hstage hover hx hqueue hrest => ?pass⟩
  case stage1 =>
    have hstop : a.stageOver s.part.geo = true := by
      unfold Pass.stageOver
      rw [hstage]
      exact decide_eq_true hover
    have hend : s.part.stage1End = (s.part.setPass (some a.toStage2)).modProgress a.shot fun g =>
        { g with correction := some .corrected, lowClamps := a.low, highClamps := a.high } := by
      unfold Part.stage1End
      rw [ha]
      exact if_pos ⟨hstage, hstop⟩
    refine ⟨a.toStage2, Eq.trans (b := .next { s with part := s.part.stage1End }) rfl (State.next_part_congr hend), ?_,
      fun hgaps => ?_, Pass.toStage2_of_gaps⟩
    · rw [Pass.toStage2_frame]
    · rw [Pass.toStage2_of_none hgaps]
      exact ⟨rfl, rfl, rfl⟩
  case stage3 =>
    have hnext : RepairList.next s.part.geo a.defective a.repairs = none := by
      unfold RepairList.next
      rw [hcolumns, hsingles]
    have hstop : a.stageOver s.part.geo = true := by
      unfold Pass.stageOver
      rw [hstage]
      exact congrArg Option.isNone hnext
    have hend : s.part.stage3End = (s.part.setPass (some a.toStage4)).modProgress a.shot fun g => { g with repaired := a.repaired } := by
      unfold Part.stage3End
      rw [ha]
      exact if_pos ⟨hstage, hstop⟩
    exact Eq.trans (b := .next { s with part := s.part.stage3End }) rfl (State.next_part_congr hend)
  case pass =>
    obtain ⟨cpa, slots, dfl, hlower, hpolicy⟩ := Part.lowerDark_frame a.shot x.progress.dark (s.part.developedBy a)
    have hend := (Part.passEnd_of_over ha hstage hover hx).trans (Part.endPass_eq a x s.part)
    rw [hlower] at hend
    let v : Part := Part.passLeft a
      { s.part.developedBy a with cpa := cpa, sht := { (s.part.developedBy a).sht with slots := slots }, dfl := dfl }
    let u : Part := v.startPass.wakeStore a.shot
    have hu : u = { v with dpe := v.startPass.dpe, cde := u.cde } := by
      refine (Part.wakeStore_frame a.shot v.startPass).trans ?_
      exact congrArg (fun p : Part => { p with cde := u.cde }) (Part.startPass_frame v)
    have hvqueue : v.dpe.queue = rest := congrArg List.tail hqueue
    have hrequest : v.startPass.requestFor a.shot = s.part.requestFor a.shot := by
      rw [Part.startPass_frame]
      rfl
    have hstep := Part.choose_cardStep u
    have hshot : u.shot? a.shot = some (x.developedBy a s.part.geo.fileSectors) := by
      rw [hu]
      exact (changedAt_changeAt (f := Shot.developedBy a s.part.geo.fileSectors) (fun _ => rfl) hx).changed
    have hnone (h : s.part.requestFor a.shot = none) : u.cde = s.part.cde := by
      refine (congrArg Part.cde (Part.wakeStore_of_none (hrequest.trans h))).trans ?_
      rw [Part.startPass_frame]
      rfl
    have hsome (r : Request) (h : s.part.requestFor a.shot = some r) : u.cde =
        { s.part.cde with
          requests := s.part.cde.requests.map fun z => if z.id = r.id ∧ r.state = .waiting then { z with state := .queued } else z } := by
      refine (congrArg Part.cde (Part.wakeStore_of_some (hrequest.trans h))).trans ?_
      rw [Part.startPass_frame]
      rfl
    obtain ⟨y, hy, hkept, hsame⟩ := hstep.shot? hshot
    have hudpe : u.choose.dpe = v.startPass.dpe := hstep.dpe.trans ((congrArg Part.dpe hu).trans rfl)
    have hudfl : u.choose.dfl = dfl := hstep.dfl.trans ((congrArg Part.dfl hu).trans rfl)
    have hrow : exec .passEnd s = .next { s with part := u.choose } :=
      Eq.trans (b := .next { s with part := s.part.passEnd }) rfl (State.next_part_congr hend)
    have hucpa : u.cpa = cpa.handed s.part.phase ⟨.developed, a.shot, s.part.clock.time, [natWord s.part.geo.fileSectors]⟩ :=
      congrArg Part.cpa hu
    have huslots : u.sht.slots = slots := congrArg (fun p : Part => p.sht.slots) hu
    have hufl : u.dfl = dfl := congrArg Part.dfl hu
    have hparts {q : Part} (h : (s.part.developedBy a).lowerDark a.shot x.progress.dark = q) :
        cpa = q.cpa ∧ slots = q.sht.slots ∧ dfl = q.dfl := by
      rw [hlower] at h
      subst h
      exact ⟨rfl, rfl, rfl⟩
    clear_value u
    refine ⟨_, y, hrow, rfl, rfl, hy, fun h => ?_, by rw [hkept]; rfl, by rw [hkept]; rfl, by rw [hkept]; rfl, by rw [hkept]; rfl, ?_,
      fun h => ?_, fun n tail z hnext hz => ?_, u, rfl, hnone, ?_, ?_, ?_, ?_⟩
    · rw [hsame (by unfold Part.requestFor; rw [hnone h]; exact h)]
      rfl
    · rw [hudpe, Part.startPass_queue, hvqueue]
    · rw [hudpe, Part.startPass_of_nil (hvqueue.trans h)]
      rfl
    · have hother : n ≠ a.shot := fun h => hrest (by rw [hnext, ← h]; exact List.mem_cons_self)
      have hvz : v.shot? n = some z :=
        ((changedAt_changeAt (f := Shot.developedBy a s.part.geo.fileSectors) (fun _ => rfl) hx).others n hother).trans hz
      have hnumber : z.number = n := Part.number_of_shot? hz
      have hframe := Part.passOf_frame z v
      have hdark : (v.passOf z).dark = v.darkUseOf n z.progress.dark := by
        rw [← hnumber]
        exact congrArg Pass.dark hframe
      have hgaps : (v.passOf z).gaps = z.progress.gaps := congrArg Pass.gaps hframe
      refine ⟨v.passOf z, ?_, (congrArg Pass.shot hframe).trans hnumber, congrArg Pass.slot hframe, congrArg Pass.gain hframe, hgaps,
        congrArg Pass.grid hframe, (congrArg Pass.pedestal hframe).trans (congrArg Policy.pedestal hpolicy), congrArg Pass.defects hframe,
        congrArg Pass.columns hframe, congrArg Pass.low hframe, congrArg Pass.high hframe, congrArg Pass.repaired hframe,
        congrArg Pass.full hframe, congrArg Pass.histogram hframe, congrArg Pass.raw hframe, congrArg Pass.out hframe,
        fun levels hl => ⟨fun b hb => ⟨?_, ?_⟩, fun use b huse hb => ?_⟩, fun h => ?_, fun id k e h he => ?_, fun k e h he => ?_,
        fun h => ?_, fun h hg => ?_, fun h hg => ?_⟩
      · rw [hudpe, Part.startPass_of_cons (hvqueue.trans hnext) hvz]
      · exact (congrArg Pass.black hframe).trans (congrArg Prod.fst (Tables.blackOf_eq hl hb))
      · exact (congrArg Pass.threshold hframe).trans (congrArg Prod.snd (Tables.blackOf_eq hl hb))
      · have hused : v.darkUseOf z.number z.progress.dark = some use := by rw [hnumber, ← hdark]; exact huse
        refine (congrArg Pass.darkBlack hframe).trans ?_
        show (v.darkUseOf z.number z.progress.dark).elim 0 (fun u => (v.cal.tables.blackOf u.gain).1) = b.1
        rw [hused]
        exact congrArg Prod.fst (Tables.blackOf_eq hl hb)
      · rw [hdark]
        unfold Part.darkUseOf
        rcases h with h | ⟨r, h | h⟩ <;> rw [h]
      · rw [hudfl] at he
        rw [hdark]
        exact Part.darkUseOf_of_entry h he
      · rw [hudfl] at he
        rw [hdark, h]
        exact congrArg (Option.map fun e : Dark => (⟨e.slot, e.gain, k⟩ : DarkUse)) he
      · rw [hgaps, Part.passOf_eq, if_neg h]
        exact ⟨rfl, rfl⟩
      · rw [hgaps] at hg ⊢
        rw [Part.passOf_eq, if_pos h]
        obtain ⟨hstage, hleft, -⟩ := Pass.toStage2_of_gaps (a := v.passTaken z) hg
        exact ⟨hstage, hleft⟩
      · rw [hgaps] at hg
        rw [Part.passOf_eq, if_pos h, Pass.toStage2_of_none (a := v.passTaken z) hg]
        exact ⟨rfl, rfl⟩
    · exact hsome
    · intro hlibrary hcapture
      obtain ⟨hcpa, -, hdfl⟩ := hparts (Part.lowerDark_of_unreferenced (DarkSource.unreferenced_of_not hlibrary hcapture) _)
      refine ⟨?_, hufl.trans hdfl⟩
      show u.cpa = (Part.emit _ _ _ _).cpa
      rw [Part.emit_eq, hucpa, hcpa]
      rfl
    · intro id k d hdark hd
      have hentry := Part.lowerDark_of_entry (n := a.shot) hdark (s.part.developedBy a)
      refine ⟨fun h => ?_, fun hrefs hfull => ?_⟩
      · obtain ⟨hcpa, -, hdfl⟩ := hparts (hentry.trans (Part.lowerEntry_of_kept (p := s.part.developedBy a) hd h))
        refine ⟨?_, hufl.trans hdfl⟩
        show u.cpa = (Part.emit _ _ _ _).cpa
        rw [Part.emit_eq, hucpa, hcpa]
        rfl
      · obtain ⟨hcpa, hslots, hdfl⟩ := hparts (hentry.trans (Part.lowerEntry_of_gone (p := s.part.developedBy a) hd hrefs hfull))
        refine ⟨⟨?_, huslots.trans hslots⟩, hufl.trans hdfl⟩
        show u.cpa = (Part.emit _ _ _ _).cpa
        rw [Part.emit_eq, Part.emit_eq, Part.statusDirty_eq, hucpa, hcpa]
        rfl
    · intro k d hdark hd hrefs
      have htransient : (s.part.developedBy a).lowerDark a.shot x.progress.dark = (s.part.developedBy a).lowerTransient a.shot := by
        rw [hdark]
        rfl
      obtain ⟨hcpa, hslots, hdfl⟩ := hparts (htransient.trans (Part.lowerTransient_of_gone (p := s.part.developedBy a) hd hrefs))
      refine ⟨⟨?_, huslots.trans hslots⟩, hufl.trans hdfl⟩
      show u.cpa = (Part.emit _ _ _ _).cpa
      rw [Part.emit_eq, Part.emit_eq, Part.statusDirty_eq, hucpa, hcpa]
      rfl

end Sys2Proof.Machine
end

section
/-! PROOFS. Transfers join the card queue, and the policy's choice of a request (R189, R191 to R194). -/

namespace Sys2Proof.Machine

/-! ## The id counter (R189) -/

/-- The ids tried from one on, in order. -/
def triedId (id k : Nat) : Nat := (id + k) % 65535 + 1

/-- With at most 16 ids held the counter takes one that none holds, the next where it is free. -/
theorem nextIdAfter_spec {held : List Nat} {id : Nat} (hlen : held.length ≤ 16) :
    1 ≤ nextIdAfter held id ∧ nextIdAfter held id ≤ 65535 ∧ nextIdAfter held id ∉ held ∧
      (triedId id 0 ∉ held → nextIdAfter held id = triedId id 0) := by
  have hnodup : ((List.range 17).map (triedId id)).Nodup := by
    refine List.pairwise_map.2 (List.pairwise_lt_range.imp_of_mem fun {a b} ha hb hlt h => ?_)
    rw [List.mem_range] at ha hb
    unfold triedId at h
    omega
  have hfree : (((List.range 17).map (triedId id)).find? fun i => !held.contains i).isSome = true := by
    rw [List.find?_isSome]
    refine Classical.byContradiction fun hall => ?_
    have hsub : (List.range 17).map (triedId id) ⊆ held := fun i hi =>
      Classical.byContradiction fun hnot => hall ⟨i, hi, by simpa using hnot⟩
    have hle := hnodup.length_le_of_subset hsub
    rw [List.length_map, List.length_range] at hle
    omega
  obtain ⟨i, hi⟩ := Option.isSome_iff_exists.1 hfree
  have hnext : nextIdAfter held id = i := congrArg (fun o : Option Nat => o.getD 1) hi
  obtain ⟨k, -, rfl⟩ := List.mem_map.1 (List.mem_of_find?_eq_some hi)
  rw [hnext]
  refine ⟨?_, ?_, by simpa using List.find?_some hi, fun hzero => ?_⟩
  · unfold triedId
    omega
  · unfold triedId
    omega
  · rw [List.range_succ_eq_map, List.map_cons, List.find?_cons] at hi
    simpa [hzero] using hi.symm

/-! ## Transfers (R191) -/

theorem Pts.inPass_iff (p : Pts) (addr length : Nat) :
    p.inPass addr length = true ↔
      ∃ x ∈ p.windows.toList, x.present = true ∧ x.kind = .pass ∧ x.base ≤ addr ∧ addr + length ≤ x.base + x.size := by
  unfold Pts.inPass
  rw [List.any_eq_true]
  simp only [Bool.and_eq_true, decide_eq_true_eq, and_assoc]

/-- A buffer that its check refuses (R190, R191). -/
theorem Pts.badBuffer_iff (p : Pts) (addr length : Nat) :
    (addr % 16 ≠ 0 ∨ (!p.inPass addr length) = true) ↔
      addr % 16 ≠ 0 ∨
        ¬∃ x ∈ p.windows.toList, x.present = true ∧ x.kind = .pass ∧ x.base ≤ addr ∧ addr + length ≤ x.base + x.size := by
  rw [← Pts.inPass_iff, Bool.not_eq_true', Bool.not_eq_true]

/-- The request that joins the queue. -/
def Part.newRequest (w : Work) (st : RequestState) (p : Part) : Request :=
  ⟨p.cde.nextId, p.cde.arrivals, w, st, none, 4294967295#32, 0, 0, 0, 0, none, false⟩

/-- The id counter's value once a request has joined. -/
def Part.idAfter (p : Part) : Nat := nextIdAfter (p.cde.requests.map (·.id) ++ [p.cde.nextId]) p.cde.nextId

theorem Part.addRequest_eq (w : Work) (st : RequestState) (p : Part) :
    p.addRequest w st =
      Part.statusDirty
        { p with
          cde :=
            { p.cde with
              requests := p.cde.requests ++ [p.newRequest w st], nextId := p.idAfter, arrivals := p.cde.arrivals + 1 } } := by
  unfold Part.addRequest Part.idAfter
  simp only [List.map_append, List.map_cons, List.map_nil]
  rfl

/-- The id counter goes on to an id that no request holds, by one where that is free and from 65,535 on to 1. -/
theorem Part.idAfter_spec {p : Part} (hroom : p.cde.requests.length < 16) :
    1 ≤ p.idAfter ∧ p.idAfter ≤ 65535 ∧ p.idAfter ≠ p.cde.nextId ∧ (∀ r ∈ p.cde.requests, r.id ≠ p.idAfter) ∧
      (1 ≤ p.cde.nextId → p.cde.nextId < 65535 → (∀ r ∈ p.cde.requests, r.id ≠ p.cde.nextId + 1) → p.idAfter = p.cde.nextId + 1) ∧
      (p.cde.nextId = 65535 → (∀ r ∈ p.cde.requests, r.id ≠ 1) → p.idAfter = 1) := by
  obtain ⟨hlow, hhigh, hfree, hfirst⟩ := nextIdAfter_spec (held := p.cde.requests.map (·.id) ++ [p.cde.nextId]) (id := p.cde.nextId)
    (by rw [List.length_append, List.length_map, List.length_singleton]; omega)
  have hheld (i : Nat) : i ∉ p.cde.requests.map (·.id) ++ [p.cde.nextId] ↔ (∀ r ∈ p.cde.requests, r.id ≠ i) ∧ i ≠ p.cde.nextId := by
    rw [List.mem_append, List.mem_map, List.mem_singleton, not_or]
    exact and_congr_left fun _ => ⟨fun h r hr he => h ⟨r, hr, he⟩, fun h ⟨r, hr, he⟩ => h r hr he⟩
  have hfree := (hheld _).1 hfree
  refine ⟨hlow, hhigh, hfree.2, hfree.1, fun h1 h2 hall => ?_, fun hlast hall => ?_⟩
  · have htried : triedId p.cde.nextId 0 = p.cde.nextId + 1 := by unfold triedId; omega
    rw [htried] at hfirst
    exact hfirst ((hheld _).2 ⟨hall, by omega⟩)
  · have htried : triedId p.cde.nextId 0 = 1 := by unfold triedId; omega
    rw [htried] at hfirst
    exact hfirst ((hheld _).2 ⟨hall, by omega⟩)

section JoinTransfer
variable (work : Nat → Nat → Nat → Work) (n : Fin 8) {args : List Word} {p : Part}

theorem joinTransfer_of_badArg
    (h : argNat args 1 = 0 ∨ 65536 < argNat args 1 ∨ 4294967296 < argNat args 0 + argNat args 1) :
    joinTransfer work n args p = p.refuse n .badArg [] :=
  if_pos (by omega)

variable (hone : 1 ≤ argNat args 1) (hmany : argNat args 1 ≤ 65536) (hend : argNat args 0 + argNat args 1 ≤ 4294967296)
include hone hmany hend

theorem joinTransfer_of_badBuffer (h : argAddr args 2 % 16 ≠ 0 ∨ (!p.pts.inPass (argAddr args 2) (argNat args 1 * 512)) = true) :
    joinTransfer work n args p = p.refuse n .badBuffer [] :=
  (if_neg (by omega)).trans (if_pos h)

variable (hbuffer : ¬(argAddr args 2 % 16 ≠ 0 ∨ (!p.pts.inPass (argAddr args 2) (argNat args 1 * 512)) = true))
include hbuffer

theorem joinTransfer_of_full (h : 16 ≤ p.cde.requests.length) : joinTransfer work n args p = p.refuse n .queueFull [] :=
  (if_neg (by omega)).trans ((if_neg hbuffer).trans (if_pos h))

variable (hroom : p.cde.requests.length < 16)
include hroom

theorem joinTransfer_of_outOfRange (hcard : p.cde.card = .ready) (h : p.cde.capacity.getD 0 < argNat args 0 + argNat args 1) :
    joinTransfer work n args p = p.refuse n .outOfRange (natWords2 (p.cde.capacity.getD 0)) :=
  (if_neg (by omega)).trans ((if_neg hbuffer).trans ((if_neg (Nat.not_le.2 hroom)).trans (if_pos ⟨hcard, h⟩)))

theorem joinTransfer_of_accepted (h : p.cde.card ≠ .ready ∨ argNat args 0 + argNat args 1 ≤ p.cde.capacity.getD 0) :
    joinTransfer work n args p =
      Part.done n [natWord p.cde.nextId, natWord (p.cde.requests.length + 1)]
        (p.addRequest (work (argNat args 0) (argNat args 1) (argAddr args 2)) .queued) := by
  have hlength : (p.addRequest (work (argNat args 0) (argNat args 1) (argAddr args 2)) .queued).cde.requests.length =
      p.cde.requests.length + 1 := by
    rw [Part.addRequest_eq, Part.statusDirty_eq]
    exact List.length_append
  refine (if_neg (by omega)).trans ((if_neg hbuffer).trans ((if_neg (Nat.not_le.2 hroom)).trans ((if_neg ?_).trans ?_)))
  · rintro ⟨hready, hlt⟩
    rcases h with h | h
    · exact h hready
    · exact absurd hlt (Nat.not_lt.2 h)
  · rw [← hlength]

end JoinTransfer

theorem Part.choosing_of_changed {work : Part → Part} {p q : Part} (h : work p = q) (hq : q.cde.requests ≠ p.cde.requests) :
    Part.choosing work p = q.choose := by
  unfold Part.choosing
  rw [h]
  exact if_neg hq

theorem Part.taken_addRequest (v : Verb) (w : SlotWrite) (work : Work) (st : RequestState) (p : Part) :
    (p.taken v w).addRequest work st = (p.addRequest work st).taken v w := by
  rw [Part.addRequest_eq, Part.addRequest_eq, ← Part.taken_statusDirty]
  rfl

/-! ## The choice (R192, R193) -/

/-- Nothing starts while the card is not READY, a request is HALTED or ACTIVE, or none is QUEUED. -/
theorem Part.choose_of_idle {p : Part} (h : p.cde.card ≠ .ready ∨ (∃ r ∈ p.cde.requests, r.state = .halted ∨ r.state = .active) ∨
    (∀ r ∈ p.cde.requests, r.state ≠ .queued)) : p.choose = p := by
  rcases p.choose_cases with hsame | ⟨r, hr, hqueued, hcard, hhalted, hactive, -⟩
  · exact hsame
  · rcases h with h | ⟨x, hx, hstate⟩ | h
    · exact absurd hcard h
    · rcases hstate with hstate | hstate
      · exact absurd hstate (by simpa using List.find?_eq_none.1 hhalted x hx)
      · exact absurd hstate (by simpa using List.find?_eq_none.1 hactive x hx)
    · exact absurd hqueued (h r hr)

/-- Of a class the request of the earliest arrival is eligible. -/
theorem Cde.eligible_eq {c : Cde} {r : Request} (hsorted : c.requests.Pairwise fun a b => a.arrival < b.arrival) (hr : r ∈ c.requests)
    (hqueued : r.state = .queued)
    (hfirst : ∀ x ∈ c.requests, x.state = .queued → x.work.cardClass = r.work.cardClass → r.arrival ≤ x.arrival) :
    c.eligible r.work.cardClass = some r := by
  unfold Cde.eligible
  cases hfound : c.requests.find? fun x => decide (x.state = .queued) && decide (x.work.cardClass = r.work.cardClass) with
  | none => exact absurd (List.find?_eq_none.1 hfound r hr) (by simp [hqueued])
  | some x =>
    obtain ⟨hx, before, after, hsplit, hbefore⟩ := List.find?_eq_some_iff_append.1 hfound
    simp only [Bool.and_eq_true, decide_eq_true_eq] at hx
    rw [hsplit] at hr
    rcases List.mem_append.1 hr with hmem | hmem
    · exact absurd (hbefore r hmem) (by simp [hqueued])
    · rcases List.mem_cons.1 hmem with rfl | hmem
      · rfl
      · rw [hsplit] at hsorted
        have hlt := (List.pairwise_cons.1 (List.pairwise_append.1 hsorted).2.1).1 r hmem
        have hle := hfirst x (by rw [hsplit]; simp) hx.1 hx.2
        omega

theorem Cde.eligible_eq_none {c : Cde} {k : CardClass} (h : ∀ x ∈ c.requests, x.state = .queued → x.work.cardClass ≠ k) :
    c.eligible k = none := by
  unfold Cde.eligible
  refine List.find?_eq_none.2 fun x hx => ?_
  simp only [Bool.and_eq_true, decide_eq_true_eq, not_and]
  exact h x hx

/-- The class that the policy prefers (R193). -/
def Cde.preferred (c : Cde) : CardClass := if c.policy = .fixed then .transfer else c.lastClass.other

theorem Cde.choice_eq (c : Cde) : c.choice = (c.eligible c.preferred).or (c.eligible c.preferred.other) := by
  unfold Cde.choice Cde.preferred
  cases c.policy <;> rfl

theorem CardClass.eq_other_of_ne {a b : CardClass} (h : a ≠ b) : a = b.other := by
  revert h
  cases a <;> cases b <;> decide

theorem Part.choose_of_first {p : Part} {r : Request} (horder : p.cardQueueInOrder) (hcard : p.cde.card = .ready)
    (hres : p.cpa.resetting = none) (hidle : ∀ x ∈ p.cde.requests, x.state ≠ .halted ∧ x.state ≠ .active) (hr : r ∈ p.cde.requests)
    (hqueued : r.state = .queued)
    (hfirst : ∀ x ∈ p.cde.requests, x.state = .queued → x.work.cardClass = r.work.cardClass → r.arrival ≤ x.arrival)
    (hpref : r.work.cardClass = p.cde.preferred ∨
      ∀ x ∈ p.cde.requests, x.state = .queued → x.work.cardClass ≠ p.cde.preferred) : p.choose = p.activate r.id := by
  have hstop : p.cdeStopping = false := by unfold Part.cdeStopping; rw [hres]
  have hhalted : p.cde.halted = none := List.find?_eq_none.2 fun x hx => by simpa using (hidle x hx).1
  have hactive : p.cde.activeRequest = none := List.find?_eq_none.2 fun x hx => by simpa using (hidle x hx).2
  have heligible := Cde.eligible_eq horder.1 hr hqueued hfirst
  have hchoice : p.cde.choice = some r := by
    rw [Cde.choice_eq]
    by_cases hclass : r.work.cardClass = p.cde.preferred
    · rw [← hclass, heligible]
      rfl
    · rw [Cde.eligible_eq_none (hpref.resolve_left hclass), ← CardClass.eq_other_of_ne hclass, heligible]
      rfl
  unfold Part.choose
  rw [hchoice]
  exact if_pos ⟨hcard, hhalted, hactive, by rw [hstop]; rfl⟩

/-! ## The frame of a shot whose record an activation changes -/

theorem Part.shotBase_changeAt {n : Word} {f : Shot → Shot} (hnumber : ∀ y, (f y).number = y.number) (hslot : ∀ y, (f y).slot = y.slot)
    (p : Part) (cde : Cde) :
    Part.shotBase { p with sht := { p.sht with records := changeAt n f p.sht.records }, cde := cde } = p.shotBase := by
  funext m
  have hslotOf : Part.slotOf m { p with sht := { p.sht with records := changeAt n f p.sht.records }, cde := cde } = p.slotOf m := by
    unfold Part.slotOf Part.shot?
    rw [find?_changeAt n m hnumber]
    split
    · next h =>
      rw [h]
      cases p.sht.records.find? fun y => decide (y.number = n) with
      | none => rfl
      | some y => exact hslot y
    · rfl
  unfold Part.shotBase
  rw [hslotOf]
  rfl

/-! ## The activation, with the run it starts (R194) -/

section Activated
variable {r : Request} {p : Part} (hr : p.cde.requests.find? (fun x => decide (x.id = r.id)) = some r)
include hr

/-- The queue with the request changed, and its run under way. -/
def Cde.running (id : Nat) (f : Request → Request) (run : Run) (c : Cde) : Cde :=
  { c with requests := withRequest id f c.requests, run := some run }

variable (hin : extentsBelow (p.cde.capacity.getD 0) r.work.extents = true)
include hin

theorem Part.activate_transfer_starts (hw : r.work.isStore = false) :
    ∃ run, Starts p.clock.time p.geo.frameBytes p.shotBase r.work r.position r.done r.crc run ∧
      p.activate r.id = { p with cde := p.cde.running r.id (fun x => { x with state := .active }) run } := by
  have hactive := find?_withRequest (f := fun x => { x with state := .active }) hr fun _ => rfl
  rw [Part.activate_of_transfer hr hin hw, Part.startRun_eq (r := { r with state := .active }) hactive]
  exact ⟨_, Part.starts_begunRun { r with state := .active }
    { p with cde := { p.cde with requests := withRequest r.id (fun x => { x with state := .active }) p.cde.requests } }, rfl⟩

variable {n : Word} {es : List (Nat × Nat)} (hw : r.work = .store n es)
include hw

theorem Part.activate_store_again (hheader : r.header.isSome = true) :
    ∃ run, Starts p.clock.time p.geo.frameBytes p.shotBase r.work r.position r.done r.crc run ∧
      p.activate r.id =
        { p with
          sht := { p.sht with records := changeAt n (Shot.stored false) p.sht.records }
          cde := p.cde.running r.id (fun x => { x with state := .active }) run } := by
  have hactive := find?_withRequest (f := fun x => { x with state := .active }) hr fun _ => rfl
  rw [Part.activate_of_store hr hin hw, Part.enterStoring_again hheader, Part.startRun_eq (r := { r with state := .active }) (by exact hactive)]
  have hstarts := Part.starts_begunRun { r with state := .active }
    { p with
      sht := { p.sht with records := changeAt n (Shot.stored false) p.sht.records }
      cde := { p.cde with requests := withRequest r.id (fun x => { x with state := .active }) p.cde.requests } }
  rw [Part.shotBase_changeAt (f := Shot.stored false) (fun _ => rfl) fun _ => rfl] at hstarts
  exact ⟨_, hstarts, rfl⟩

theorem Part.activate_store_first (hheader : r.header = none) {y : Shot} (hy : p.shot? n = some y) :
    ∃ run, Starts p.clock.time p.geo.frameBytes p.shotBase r.work r.position r.done 4294967295#32 run ∧
      p.activate r.id =
        { p with
          sht := { p.sht with records := changeAt n (Shot.stored true) p.sht.records }
          cde :=
            p.cde.running r.id
              (fun x => { x with
                state := .active, crc := 4294967295#32, header := some (headerImage p.geo (y.stored true) r.id p.clock.time) }) run } := by
  have hfirst := find?_withRequest (f := fun x => { x with
    state := .active, header := some (headerImage p.geo (y.stored true) r.id p.clock.time), crc := 4294967295#32 }) hr fun _ => rfl
  rw [Part.activate_of_store hr hin hw, Part.enterStoring_first hheader (y := y) (by exact hy)]
  simp only [withRequest_withRequest, implies_true]
  rw [Part.startRun_eq (r := { r with
    state := .active, header := some (headerImage p.geo (y.stored true) r.id p.clock.time), crc := 4294967295#32 }) (by exact hfirst)]
  have hstarts := Part.starts_begunRun
    { r with state := .active, header := some (headerImage p.geo (y.stored true) r.id p.clock.time), crc := 4294967295#32 }
    { p with
      sht := { p.sht with records := changeAt n (Shot.stored true) p.sht.records }
      cde :=
        { p.cde with
          requests :=
            withRequest r.id
              (fun x => { x with
                state := .active, header := some (headerImage p.geo (y.stored true) r.id p.clock.time), crc := 4294967295#32 })
              p.cde.requests } }
  rw [Part.shotBase_changeAt (f := Shot.stored true) (fun _ => rfl) fun _ => rfl] at hstarts
  exact ⟨_, hstarts, rfl⟩

end Activated

end Sys2Proof.Machine
end

section
/-! PROOFS. CARD_WRITE and CARD_READ with the choice and the activation (R191 to R194), CARD_CANCEL and CARD_RESUME (R202, R203). -/

namespace Sys2Proof.Machine

/-- Settles O44: the checks of a transfer and its place in the queue, the choice, and each way of an activation. -/
theorem transfersJoinTheQueue : Obligations.TransfersJoinTheQueue := by
  refine ⟨fun w s v i work hverb h => ?join, fun p => ⟨fun hidle => Part.choose_of_idle hidle, ?choice⟩, fun r p halone => ?activate⟩
  case join =>
    intro args start count buffer inPass refused capacity
    have hexec {q : Part} (hq : Part.choosing (joinTransfer work w.slot args) (s.part.taken v w) = q) :
        exec i s = .next { s with part := q } := by
      rcases hverb with ⟨rfl, rfl, rfl⟩ | ⟨rfl, rfl, rfl⟩
      · exact (exec_row_of_takes_other (v := .cardWrite) (by decide) rfl h).trans (State.next_part_congr hq)
      · exact (exec_row_of_takes_other (v := .cardRead) (by decide) rfl h).trans (State.next_part_congr hq)
    have hrefused {code : ResultCode} {data : List Word} (hd : data.length ≤ 24)
        (hq : joinTransfer work w.slot args (s.part.taken v w) = (s.part.taken v w).refuse w.slot code data) : refused code data :=
      hexec (Part.choosing_of_requests (hq.trans (Part.taken_refuse v w code data s.part hd)) rfl)
    have hbad := Pts.badBuffer_iff s.part.pts buffer (count * 512)
    refine ⟨fun hargs => hrefused (by decide) (joinTransfer_of_badArg work w.slot hargs), fun hone hmany hend => ⟨fun hbuffer => ?_,
      fun haligned hin => ?_⟩⟩
    · exact hrefused (by decide) (joinTransfer_of_badBuffer work w.slot hone hmany hend (hbad.2 hbuffer))
    · have hgood : ¬(buffer % 16 ≠ 0 ∨ (!s.part.pts.inPass buffer (count * 512)) = true) := fun hnot =>
        (hbad.1 hnot).elim (fun h => h haligned) fun h => h hin
      refine ⟨fun hfull => hrefused (by decide) (joinTransfer_of_full work w.slot hone hmany hend hgood hfull),
        fun hroom => ⟨fun hcard hbeyond => ?_, fun hfits => ?_⟩⟩
      · exact hrefused (by exact Nat.le_of_ble_eq_true rfl) (joinTransfer_of_outOfRange work w.slot hone hmany hend hgood hroom hcard hbeyond)
      · intro id
        let q : Part := Part.answered v w .done .ok [natWord id, natWord (s.part.cde.requests.length + 1)]
          (s.part.addRequest (work start count buffer) .queued)
        have hjoin : joinTransfer work w.slot args (s.part.taken v w) = q := by
          refine (joinTransfer_of_accepted (p := s.part.taken v w) work w.slot hone hmany hend hgood hroom hfits).trans ?_
          rw [Part.taken_addRequest]
          exact Part.taken_done v w _ _ (Nat.le_of_ble_eq_true rfl)
        have hq : q = Part.answered v w .done .ok [natWord id, natWord (s.part.cde.requests.length + 1)]
            (Part.statusDirty
              { s.part with
                cde :=
                  { s.part.cde with
                    requests := s.part.cde.requests ++ [s.part.newRequest (work start count buffer) .queued]
                    nextId := s.part.idAfter, arrivals := s.part.cde.arrivals + 1 } }) :=
          congrArg (Part.answered v w .done .ok [natWord id, natWord (s.part.cde.requests.length + 1)]) (Part.addRequest_eq _ _ _)
        have hcde : q.cde = { s.part.cde with
            requests := s.part.cde.requests ++ [s.part.newRequest (work start count buffer) .queued]
            nextId := s.part.idAfter, arrivals := s.part.cde.arrivals + 1 } := by
          rw [hq, Part.statusDirty_eq]
          rfl
        have hrow : exec i s = .next { s with part := q.choose } := hexec (Part.choosing_of_changed hjoin (by
          rw [hcde]
          exact fun hsame => absurd (congrArg List.length hsame) (by simp)))
        have hstep := Part.choose_cardStep q
        have hended : q.hasEnded w.slot .done .ok [natWord id, natWord (s.part.cde.requests.length + 1)] := Part.answered_hasEnded _ _ _ _ _ _
        have hmem : s.part.newRequest (work start count buffer) .queued ∈ q.cde.requests := by rw [hcde]; simp
        obtain ⟨x, hx, hkept, hquiet⟩ : ∃ x ∈ q.choose.cde.requests,
            Request.KeptBy (s.part.newRequest (work start count buffer) .queued) x ∧
              (s.part.cde.card ≠ .ready → q.choose = q ∧ x = s.part.newRequest (work start count buffer) .queued) := by
          by_cases hcard : s.part.cde.card = .ready
          · obtain ⟨x, hx, hkept⟩ := hstep.mem hmem
            exact ⟨x, hx, hkept, fun hnot => absurd hcard hnot⟩
          · have hidle : q.choose = q := Part.choose_of_idle (.inl (by rw [hcde]; exact hcard))
            exact ⟨s.part.newRequest (work start count buffer) .queued, by rw [hidle]; exact hmem, rfl, fun _ => ⟨hidle, rfl⟩⟩
        refine ⟨⟨s.part.idAfter, hrow.trans (State.next_part_congr (congrArg Part.choose hq)), Part.idAfter_spec hroom⟩,
          _, x, hrow, rfl, rfl, hx, by rw [hkept]; rfl, by rw [hkept]; rfl, by rw [hkept]; rfl, ?_, ?_, hstep.cpa.hasEnded hended, fun hcard => ?_⟩
        · rw [hstep.length, hcde]
          exact List.length_append
        · rw [hstep.frame, hcde]
        · obtain ⟨hidle, hxnew⟩ := hquiet hcard
          refine ⟨?_, by rw [hxnew]; rfl⟩
          rw [hidle, hq, Part.statusDirty_eq]
          rfl
  case choice =>
    intro r horder hcard hres hidle hr hqueued transfer preferred hfirst hpref
    have htransfer (x : Request) : transfer x = decide (x.work.cardClass = .transfer) := by
      show (match x.work with
        | .store _ _ => false
        | _ => true) = _
      cases x.work <;> rfl
    have hsame (x : Request) : transfer x = transfer r ↔ x.work.cardClass = r.work.cardClass := by
      rw [htransfer, htransfer]
      cases x.work.cardClass <;> cases r.work.cardClass <;> decide
    have hpreferred (x : Request) : preferred x ↔ x.work.cardClass = p.cde.preferred := by
      show (match p.cde.policy with
        | .fixed => transfer x = true
        | .rotating => if p.cde.lastClass = .shot then transfer x = true else transfer x = false) ↔ _
      unfold Cde.preferred
      rw [htransfer]
      cases p.cde.policy <;> cases p.cde.lastClass <;> cases x.work.cardClass <;> decide
    clear_value preferred transfer
    refine Part.choose_of_first horder hcard hres hidle hr hqueued (fun x hx hq hclass => hfirst x hx hq ((hsame x).2 hclass)) ?_
    exact hpref.imp (hpreferred r).1 fun hnone x hx hq hclass => hnone x hx hq ((hpreferred x).2 hclass)
  case activate =>
    intro capacity frame with_ starts
    have hr := find?_of_filter halone
    have hstarts {crc : Word} {run : Run} (h : Starts p.clock.time p.geo.frameBytes p.shotBase r.work r.position r.done crc run) : starts run := by
      refine ⟨h.first, h.count, h.got, h.write, h.read, fun n es y hw hy => ?_, fun hlt => ?_, h.ready⟩
      · rw [← Part.shotBase_eq hy]
        exact h.store n es hw
      · obtain ⟨hphase, htimer, hdata, -⟩ := h.memory hlt
        exact ⟨hphase, htimer, hdata⟩
    clear_value starts
    refine ⟨fun hbeyond => ?_, fun hbelow => ?_⟩
    · have hhalt := (Part.activate_of_beyond hr ((extentsBelow_eq_false_iff _ _).2 hbeyond)).trans (Part.haltRequest_eq hr .outOfRange)
      refine ⟨fun hwork => ?_, fun n es hwork => ?_⟩
      · rw [hhalt, Part.emit_eq, Part.statusDirty_eq]
        unfold leftStoring Request.shot
        cases hw : r.work with
        | store n es => rw [hw] at hwork; cases hwork
        | write | read => rfl
      · rw [hhalt, Part.emit_eq, Part.statusDirty_eq]
        unfold leftStoring Request.shot
        rw [hwork]
        rfl
    · have hin := (extentsBelow_iff _ _).2 hbelow
      refine ⟨fun hwork => ?_, fun n es y hwork hy => ⟨fun hheader => ?_, fun hheader => ?_⟩⟩
      · obtain ⟨run, hrun, hact⟩ := Part.activate_transfer_starts hr hin hwork
        exact ⟨run, hstarts hrun, hrun.transfer hwork, hact⟩
      · obtain ⟨run, hrun, hact⟩ := Part.activate_store_first hr hin hwork hheader hy
        exact ⟨run, hstarts hrun, fun hlt => (hrun.memory hlt).2.2.2, hact⟩
      · obtain ⟨run, hrun, hact⟩ := Part.activate_store_again hr hin hwork hheader
        exact ⟨run, hstarts hrun, fun hlt => (hrun.memory hlt).2.2.2, hact⟩

/-! ## A request leaves the queue by a cancellation (R71, R203) -/

/-- An auto-release takes the record, its protection and the view of it away, and frees its slot; the queue stays. -/
theorem Part.autoRelease_frame (n : Word) (p : Part) :
    ∃ cpa sht prn, p.autoRelease n = { p with cpa := cpa, sht := sht, prn := prn } ∧ p.cpa.Extends cpa := by
  unfold Part.autoRelease
  cases hrelease : p.autoReleasable n with
  | false => exact ⟨p.cpa, p.sht, p.prn, rfl, .refl _⟩
  | true =>
    unfold Part.autoReleasable at hrelease
    cases hx : p.shot? n with
    | none =>
      rw [hx] at hrelease
      cases hrelease
    | some x =>
      rw [hx] at hrelease
      simp only [Bool.and_eq_true, decide_eq_true_eq, Option.isNone_iff_eq_none] at hrelease
      obtain ⟨⟨⟨hstate, -⟩, -⟩, hnone⟩ := hrelease
      have hremove := Part.removeShot_eq hx (.inl (by rw [hstate]; rfl)) hnone
      rw [Part.freeSlot_eq] at hremove
      exact ⟨_, _, _, hremove, (Cpa.extends_dirtied _ _).trans (Cpa.extends_handed _ _ _)⟩

/-- The queue without the requests of an id. -/
def withoutRequest (id : Nat) (l : List Request) : List Request := l.filter fun x => decide (x.id ≠ id)

theorem ids_withoutRequest (id : Nat) (l : List Request) :
    (withoutRequest id l).map (·.id) = (l.map (·.id)).filter fun k => decide (k ≠ id) := by
  unfold withoutRequest
  rw [List.filter_map]
  rfl

theorem withoutRequest_ne {r : Request} {l : List Request} (hr : r ∈ l) : withoutRequest r.id l ≠ l := by
  intro h
  rw [← h] at hr
  exact absurd (List.mem_filter.1 hr).2 (by simp)

/-- The record of a shot whose STORE has been cancelled (R203). -/
def Shot.storeCancelled (y : Shot) : Shot :=
  { y with state := if y.state = .storing then .developed else y.state, progress := { y.progress with pendingStore := none } }

/-- The part when a STORE has left the queue CANCELLED, before the auto-release is tested. -/
def Part.storeCancelled (r : Request) (n : Word) (done : Nat) (p : Part) : Part :=
  { p with
    cpa := (p.cpa.dirtied p.phase).handed p.phase ⟨.cardRequestDone, n, p.clock.time, [natWord r.id, 1, natWord done]⟩
    sht := { p.sht with records := changeAt n Shot.storeCancelled p.sht.records }
    cde := { p.cde with requests := withoutRequest r.id p.cde.requests } }

theorem Part.cancelRequest_of_store {r : Request} {n : Word} {es : List (Nat × Nat)} (hw : r.work = .store n es) (done : Nat) (p : Part) :
    p.cancelRequest r done = (p.storeCancelled r n done).autoRelease n := by
  have hrecords : changeAt n (fun y => { y with progress := { y.progress with pendingStore := none } })
      (changeAt n (fun y => if y.state = .storing then { y with state := .developed } else y) p.sht.records) =
      changeAt n Shot.storeCancelled p.sht.records := by
    rw [changeAt_changeAt n (f := fun y => if y.state = .storing then { y with state := .developed } else y)
      fun y => by split <;> rfl]
    refine List.map_congr_left fun y _ => ?_
    unfold Shot.storeCancelled
    by_cases h : y.state = .storing
    · simp only [h, if_true]
    · simp only [h, if_false]
  unfold Part.cancelRequest
  rw [hw]
  refine congrArg (Part.autoRelease n) ?_
  unfold Part.requestDone Part.dropRequest Request.shot Part.leaveStoring
  rw [hw, Part.statusDirty_eq]
  simp only [Part.modProgress, Part.modShot_eq, hrecords, Part.emit_eq]
  rfl

/-- What a cancellation leaves of the part: the request is out of the queue, and its end is reported. -/
theorem Part.cancelRequest_frame (r : Request) (done : Nat) (p : Part) :
    ∃ cpa sht prn,
      p.cancelRequest r done =
        { p with cpa := cpa, sht := sht, prn := prn, cde := { p.cde with requests := withoutRequest r.id p.cde.requests } } ∧
      p.cpa.Extends cpa := by
  cases hw : r.work with
  | store n es =>
    obtain ⟨cpa, sht, prn, hrelease, hextends⟩ := (p.storeCancelled r n done).autoRelease_frame n
    rw [Part.cancelRequest_of_store hw, hrelease]
    exact ⟨cpa, sht, prn, rfl, ((Cpa.extends_dirtied _ _).trans (Cpa.extends_handed _ _ _)).trans hextends⟩
  | write | read =>
    rw [Part.cancelRequest_of_transfer (by rw [hw]; rfl), Part.emit_eq, Part.statusDirty_eq]
    exact ⟨_, p.sht, p.prn, rfl, (Cpa.extends_dirtied _ _).trans (Cpa.extends_handed _ _ _)⟩

/-! ## An activation touches the CPA by its events only -/

theorem Part.activate_taken_of_some (v : Verb) (w : SlotWrite) {r : Request} {p : Part}
    (hr : p.cde.requests.find? (fun x => decide (x.id = r.id)) = some r) :
    (p.taken v w).activate r.id = (p.activate r.id).taken v w := by
  have htaken : (p.taken v w).cde.requests.find? (fun x => decide (x.id = r.id)) = some r := hr
  cases hin : extentsBelow (p.cde.capacity.getD 0) r.work.extents with
  | false =>
    rw [Part.activate_of_beyond hr hin, Part.activate_of_beyond htaken hin, Part.haltRequest_eq hr, Part.haltRequest_eq htaken]
    simp only [Part.taken_eq, Cpa.latched_dirtied, Cpa.latched_handed]
  | true =>
    have hactive := find?_withRequest (f := fun x => { x with state := .active }) hr fun _ => rfl
    by_cases hstore : r.work.isStore = false
    · rw [Part.activate_of_transfer hr hin hstore, Part.activate_of_transfer htaken hin hstore,
        Part.startRun_eq (r := { r with state := .active }) hactive, Part.startRun_eq (r := { r with state := .active }) (by exact hactive)]
      rfl
    · cases hw : r.work with
      | store n es =>
        rw [Part.activate_of_store hr hin hw, Part.activate_of_store htaken hin hw]
        cases hheader : r.header with
        | some h =>
          rw [Part.enterStoring_again (by rw [hheader]; rfl), Part.enterStoring_again (by rw [hheader]; rfl),
            Part.startRun_eq (r := { r with state := .active }) (by exact hactive),
            Part.startRun_eq (r := { r with state := .active }) (by exact hactive)]
          rfl
        | none =>
          cases hy : p.shot? n with
          | none =>
            rw [Part.enterStoring_gone hheader (by exact hy), Part.enterStoring_gone hheader (by exact hy),
              Part.startRun_eq (r := { r with state := .active }) (by exact hactive),
              Part.startRun_eq (r := { r with state := .active }) (by exact hactive)]
            rfl
          | some y =>
            have hfirst := find?_withRequest (f := fun x => { x with
              state := .active, header := some (headerImage p.geo (y.stored true) r.id p.clock.time), crc := 4294967295#32 }) hr
              fun _ => rfl
            rw [Part.enterStoring_first hheader (y := y) (by exact hy), Part.enterStoring_first hheader (y := y) (by exact hy)]
            simp only [withRequest_withRequest, implies_true]
            rw [Part.startRun_eq (r := { r with
                state := .active, header := some (headerImage p.geo (y.stored true) r.id p.clock.time), crc := 4294967295#32 })
                (by exact hfirst),
              Part.startRun_eq (r := { r with
                state := .active, header := some (headerImage p.geo (y.stored true) r.id p.clock.time), crc := 4294967295#32 })
                (by exact hfirst)]
            rfl
      | write | read =>
        rw [hw] at hstore
        exact absurd rfl hstore

theorem Part.activate_taken (v : Verb) (w : SlotWrite) (id : Nat) (p : Part) :
    (p.taken v w).activate id = (p.activate id).taken v w := by
  cases h : p.cde.requests.find? fun x => decide (x.id = id) with
  | none =>
    have htaken : (p.taken v w).cde.requests.find? (fun x => decide (x.id = id)) = none := h
    unfold Part.activate
    rw [htaken, h]
  | some r =>
    have hid : r.id = id := by simpa using List.find?_some h
    rw [← hid] at h ⊢
    exact Part.activate_taken_of_some v w h

/-- The request once activated: ACTIVE, or HALTED by the range check, and otherwise as it was. -/
theorem Part.activate_request {r : Request} {p : Part} (hr : p.cde.requests.find? (fun x => decide (x.id = r.id)) = some r) :
    ∃ x, (p.activate r.id).cde.requests.find? (fun y => decide (y.id = r.id)) = some x ∧ Request.KeptBy r x ∧
      (extentsBelow (p.cde.capacity.getD 0) r.work.extents = true → x.state = .active) ∧
      (extentsBelow (p.cde.capacity.getD 0) r.work.extents = false → x.state = .halted ∧ x.cause = some .outOfRange) := by
  cases hin : extentsBelow (p.cde.capacity.getD 0) r.work.extents with
  | false =>
    rw [Part.activate_of_beyond hr hin, Part.haltRequest_eq hr]
    exact ⟨_, find?_withRequest (f := fun x => { x with state := .halted, cause := some .outOfRange }) hr fun _ => rfl, rfl,
      fun h => (by cases h), fun _ => ⟨rfl, rfl⟩⟩
  | true =>
    have hactive := find?_withRequest (f := fun x => { x with state := .active }) hr fun _ => rfl
    by_cases hstore : r.work.isStore = false
    · obtain ⟨run, -, hact⟩ := Part.activate_transfer_starts hr hin hstore
      rw [hact]
      exact ⟨_, hactive, rfl, fun _ => rfl, fun h => (by cases h)⟩
    · cases hw : r.work with
      | store n es =>
        cases hheader : r.header with
        | some h =>
          obtain ⟨run, -, hact⟩ := Part.activate_store_again hr hin hw (by rw [hheader]; rfl)
          rw [hact]
          exact ⟨_, hactive, rfl, fun _ => rfl, fun h => (by cases h)⟩
        | none =>
          cases hy : p.shot? n with
          | none =>
            rw [Part.activate_of_store hr hin hw, Part.enterStoring_gone hheader (by exact hy),
              Part.startRun_eq (r := { r with state := .active }) (by exact hactive)]
            exact ⟨_, hactive, rfl, fun _ => rfl, fun h => (by cases h)⟩
          | some y =>
            obtain ⟨run, -, hact⟩ := Part.activate_store_first hr hin hw hheader hy
            rw [hact]
            exact ⟨_, find?_withRequest (f := fun x => { x with
              state := .active, crc := 4294967295#32, header := some (headerImage p.geo (y.stored true) r.id p.clock.time) }) hr
              fun _ => rfl, rfl, fun _ => rfl, fun h => (by cases h)⟩
      | write | read =>
        rw [hw] at hstore
        exact absurd rfl hstore

/-! ## CARD_CANCEL (R203) -/

section Cancel
variable {n : Fin 8} {args : List Word} {p : Part}

theorem cancelById_of_none (h : p.cde.requests.find? (fun r => decide (r.id = argNat args 0)) = none) :
    cancelById n args p = p.refuse n .notFound [] := by
  unfold cancelById
  rw [h]

variable {r : Request} (h : p.cde.requests.find? (fun r => decide (r.id = argNat args 0)) = some r)
include h

theorem cancelById_of_active (hstate : r.state = .active) :
    cancelById n args p = (p.modRequest r.id fun x => { x with cancel := true }).done n [1] := by
  unfold cancelById
  rw [h]
  simp only [hstate]

theorem cancelById_of_waiting (hstate : r.state ≠ .active) :
    cancelById n args p = (p.cancelRequest r (if r.state = .halted then r.done else 0)).done n [0] := by
  unfold cancelById
  rw [h]
  cases hs : r.state with
  | active => exact absurd hs hstate
  | halted | queued | waiting => simp [hs]

end Cancel

/-! ## CARD_RESUME (R202) -/

section Resume
variable {n : Fin 8} {args : List Word} {p : Part}

theorem cmdCardResume_of_none (h : p.cde.halted = none) : cmdCardResume n args p = p.refuse n .notFound [] := by
  unfold cmdCardResume
  rw [h]

variable {r : Request} (h : p.cde.halted = some r)
include h

theorem cmdCardResume_of_ready (hcard : p.cde.card = .ready) :
    cmdCardResume n args p =
      (((p.modRequest r.id fun x => { x with retries := 0 }).activate r.id).statusDirty).done n [natWord r.id, natWord r.done] := by
  unfold cmdCardResume
  rw [h, hcard]

theorem cmdCardResume_of_other (hcard : p.cde.card ≠ .ready) :
    cmdCardResume n args p =
      p.refuse n (if p.cde.card = .absent then .noCard else if p.cde.card = .initializing then .busy else .notReady)
        (if p.cde.card = .absent ∨ p.cde.card = .initializing then [] else [natWord p.cde.card.code]) := by
  unfold cmdCardResume
  rw [h]
  cases hc : p.cde.card with
  | ready => exact absurd hc hcard
  | absent | initializing | present | fault => simp

end Resume

/-- The command just taken stands open in its slot. -/
theorem Part.taken_open (v : Verb) (w : SlotWrite) (p : Part) :
    ∃ l, (p.taken v w).cpa.slots[w.slot].cmd = some l ∧ l.ended = false :=
  ⟨⟨some v, w.tag, overlay p.cpa.slots[w.slot].args 0 w.args, false, false⟩, by simp [Part.taken_eq, Cpa.latched, Cpa.holding], rfl⟩

/-- Where no choice can follow, work that changes the queue is all that happens. -/
theorem Part.choosing_of_idle {work : Part → Part} {p q : Part} (h : work p = q) (hidle : q.choose = q) : Part.choosing work p = q := by
  unfold Part.choosing
  rw [h]
  dsimp only
  split
  · rfl
  · exact hidle

/-- Settles O45: a request marked or taken out of the queue, and the HALTED one activated again. -/
theorem cancelAndResume : Obligations.CancelAndResume := by
  refine ⟨fun w s h => ?cancel, fun w s h => ?resume⟩
  case cancel =>
    intro id found
    have hexec {q : Part} (hq : Part.choosing (cancelById w.slot (s.part.words w)) (s.part.taken .cardCancel w) = q) :
        exec (.cardCancel w) s = .next { s with part := q } :=
      (exec_row_of_takes_other (v := .cardCancel) (by decide) rfl h).trans (State.next_part_congr hq)
    have hid (r : Request) (hr : found = some r) : r.id = id := by simpa using List.find?_some hr
    refine ⟨fun hnone => ?_, fun r hr => ⟨fun hactive => ?_, fun hstate hwork => ?_, fun hstate => ?_⟩⟩
    · exact hexec (Part.choosing_of_requests ((cancelById_of_none (p := s.part.taken .cardCancel w) hnone).trans
        (Part.taken_refuse _ _ _ _ _ (by decide))) rfl)
    · have hfound : s.part.cde.requests.find? (fun x => decide (x.id = r.id)) = some r := by
        rw [hid r hr]
        exact hr
      let q : Part := { s.part with cde := { s.part.cde with requests := withRequest r.id (fun x => { x with cancel := true }) s.part.cde.requests } }
      have hmem : { r with cancel := true } ∈ q.cde.requests :=
        List.mem_of_find?_eq_some (find?_withRequest (f := fun x => { x with cancel := true }) hfound fun _ => rfl)
      refine hexec (Part.choosing_of_idle ((cancelById_of_active (p := s.part.taken .cardCancel w) hr hactive).trans
        (Part.taken_done .cardCancel w [1] q (by decide))) (Part.choose_of_idle (.inr (.inl ⟨_, hmem, .inr hactive⟩))))
    · have hdone (done : Nat) : (Part.cancelRequest r done (s.part.taken .cardCancel w)).done w.slot [0] =
          Part.answered .cardCancel w .done .ok [0]
            (Part.emit .cardRequestDone 0 [natWord r.id, 1, natWord done]
              (Part.statusDirty { s.part with cde := { s.part.cde with requests := withoutRequest r.id s.part.cde.requests } })) := by
        refine Eq.trans ?_ (Part.taken_done .cardCancel w [0] _ (by decide))
        rw [Part.cancelRequest_of_transfer hwork, ← Part.taken_emit, ← Part.taken_statusDirty]
        rfl
      refine hexec (Part.choosing_of_changed ((cancelById_of_waiting (p := s.part.taken .cardCancel w) hr hstate).trans (hdone _)) ?_)
      rw [Part.answered_eq, Part.emit_eq, Part.statusDirty_eq]
      exact withoutRequest_ne (List.mem_of_find?_eq_some hr)
    · obtain ⟨cpa, sht, prn, hcancel, hextends⟩ :=
        Part.cancelRequest_frame r (if r.state = .halted then r.done else 0) (s.part.taken .cardCancel w)
      obtain ⟨l, hcmd, hopen⟩ := s.part.taken_open .cardCancel w
      let q : Part := (Part.cancelRequest r (if r.state = .halted then r.done else 0) (s.part.taken .cardCancel w)).done w.slot [0]
      have hq : q.cde.requests = withoutRequest r.id s.part.cde.requests := by
        show (Part.endCommand _ _ _ _ _).cde.requests = _
        rw [Part.endCommand_frame, hcancel]
        rfl
      have hended : q.hasEnded w.slot .done .ok [0] :=
        Part.hasEnded_of_open (l := l) (by rw [hcancel]; exact (congrArg (fun v : Vector Slot 8 => v[w.slot].cmd) hextends.slots).trans hcmd)
          hopen .done .ok (by decide)
      have hrow := hexec (Part.choosing_of_changed (cancelById_of_waiting (p := s.part.taken .cardCancel w) hr hstate) (by
        show q.cde.requests ≠ _
        rw [hq]
        exact withoutRequest_ne (List.mem_of_find?_eq_some hr)))
      have hstep := Part.choose_cardStep q
      have hids : q.choose.cde.requests.map (·.id) = (s.part.cde.requests.map (·.id)).filter fun k => decide (k ≠ id) := by
        rw [hstep.ids, hq, ids_withoutRequest, hid r hr]
      refine ⟨_, hrow, rfl, rfl, fun x hx hsame => ?_, hids, hstep.cpa.hasEnded hended⟩
      have hmem : x.id ∈ q.choose.cde.requests.map (·.id) := List.mem_map_of_mem hx
      rw [hids, hsame] at hmem
      exact absurd (List.mem_filter.1 hmem).2 (by simp)
  case resume =>
    intro refused
    have hexec {q : Part} (hq : cmdCardResume w.slot (s.part.words w) (s.part.taken .cardResume w) = q) :
        exec (.cardResume w) s = .next { s with part := q } :=
      (exec_row_of_takes_other (v := .cardResume) (by decide) rfl h).trans (State.next_part_congr hq)
    have hrefused {code : ResultCode} {data : List Word} (hd : data.length ≤ 24)
        (hq : cmdCardResume w.slot (s.part.words w) (s.part.taken .cardResume w) = (s.part.taken .cardResume w).refuse w.slot code data) :
        refused code data := hexec (hq.trans (Part.taken_refuse _ _ _ _ _ hd))
    clear_value refused
    refine ⟨fun hnone => hrefused (by decide) (cmdCardResume_of_none hnone), fun r hr => ?_⟩
    have hother (hcard : s.part.cde.card ≠ .ready) := cmdCardResume_of_other (n := w.slot) (args := s.part.words w)
      (p := s.part.taken .cardResume w) hr hcard
    refine ⟨fun hcard => hrefused (by decide) ((hother (by rw [hcard]; decide)).trans ?_),
      fun hcard => hrefused (by decide) ((hother (by rw [hcard]; decide)).trans ?_),
      fun hcard => hrefused (Nat.le_of_ble_eq_true rfl) ((hother (by rw [hcard]; decide)).trans ?_),
      fun hcard => hrefused (Nat.le_of_ble_eq_true rfl) ((hother (by rw [hcard]; decide)).trans ?_), ?_⟩
    · rw [show (s.part.taken .cardResume w).cde.card = .absent from hcard]
      rfl
    · rw [show (s.part.taken .cardResume w).cde.card = .initializing from hcard]
      rfl
    · rw [show (s.part.taken .cardResume w).cde.card = .present from hcard]
      rfl
    · rw [show (s.part.taken .cardResume w).cde.card = .fault from hcard]
      rfl
    · let p : Part := { s.part with cde := { s.part.cde with requests := withRequest r.id (fun x => { x with retries := 0 }) s.part.cde.requests } }
      have hrow (hcard : s.part.cde.card = .ready) : exec (.cardResume w) s =
          .next { s with part := Part.answered .cardResume w .done .ok [natWord r.id, natWord r.done] (p.activate r.id).statusDirty } := by
        refine hexec ((cmdCardResume_of_ready (p := s.part.taken .cardResume w) hr hcard).trans ?_)
        refine Eq.trans ?_ (Part.taken_done .cardResume w _ _ (Nat.le_of_ble_eq_true rfl))
        rw [← Part.taken_statusDirty, ← Part.activate_taken]
        rfl
      refine ⟨hrow, fun hcard halone => ?_⟩
      have hfound := find?_withRequest (f := fun x => { x with retries := 0 }) (find?_of_filter halone) fun _ => rfl
      obtain ⟨x, hx, hkept, hin, hbeyond⟩ := Part.activate_request (r := { r with retries := 0 }) (p := p) hfound
      refine ⟨_, x, hrow hcard, rfl, rfl, ?_, by rw [hkept], by rw [hkept], fun h => hin ((extentsBelow_iff _ _).2 h), fun h => hbeyond ?_,
        Part.answered_hasEnded _ _ _ _ _ _⟩
      · rw [Part.statusDirty_eq]
        exact hx
      · rw [← Bool.not_eq_true, extentsBelow_iff]
        exact h

end Sys2Proof.Machine
end

section
/-! PROOFS. STORE: its arguments, its extent list, and its place in the queue (R190, R192). -/

namespace Sys2Proof.Machine

/-! ## The extents (R190 checks 6 and 7) -/

/-- An extent that check 6 refuses after those before it. -/
def unfitAfter (before : List (Nat × Nat)) (e : Nat × Nat) : Prop :=
  e.2 = 0 ∨ 4294967296 < e.1 + e.2 ∨ before.any (extentsOverlap e) = true

theorem firstBadExtent_of_first {es : List (Nat × Nat)} : ∀ {before : List (Nat × Nat)} {i k : Nat} {e : Nat × Nat}, es[i]? = some e →
    unfitAfter (before ++ es.take i) e → (∀ j a, j < i → es[j]? = some a → ¬unfitAfter (before ++ es.take j) a) →
    firstBadExtent before es k = some (k + i) := by
  induction es with
  | nil => intro before i k e hi; cases hi
  | cons x es ih =>
    intro before i k e hi hbad hgood
    cases i with
    | zero =>
      obtain rfl : x = e := by simpa using hi
      rw [List.take_zero, List.append_nil] at hbad
      exact if_pos hbad
    | succ i =>
      have hx : ¬unfitAfter before x := by simpa using hgood 0 x (Nat.succ_pos i) rfl
      refine (if_neg hx).trans ?_
      have hrest := ih (before := before ++ [x]) (i := i) (k := k + 1) (e := e) (by simpa using hi) (by simpa using hbad)
        fun j a hj ha => by simpa using hgood (j + 1) a (Nat.succ_lt_succ hj) (by simpa using ha)
      rw [hrest]
      congr 1
      omega

theorem firstBadExtent_of_fit {es : List (Nat × Nat)} : ∀ {before : List (Nat × Nat)} {k : Nat},
    (∀ j a, es[j]? = some a → ¬unfitAfter (before ++ es.take j) a) → firstBadExtent before es k = none := by
  induction es with
  | nil => intro _ _ _; rfl
  | cons x es ih =>
    intro before k hgood
    have hx : ¬unfitAfter before x := by simpa using hgood 0 x rfl
    refine (if_neg hx).trans (ih fun j a ha => ?_)
    simpa using hgood (j + 1) a (by simpa using ha)

/-- Two extents share a sector (R190). -/
def sharesSector (a b : Nat × Nat) : Prop := a.1 < b.1 + b.2 ∧ b.1 < a.1 + a.2

theorem extentsOverlap_iff (a b : Nat × Nat) : extentsOverlap a b = true ↔ sharesSector a b := by
  unfold extentsOverlap sharesSector
  rw [Bool.and_eq_true, Nat.blt_eq, Nat.blt_eq]

theorem unfitAfter_take_iff (es : List (Nat × Nat)) (j : Nat) (a : Nat × Nat) :
    unfitAfter ([] ++ es.take j) a ↔
      ¬(0 < a.2 ∧ a.1 + a.2 ≤ 4294967296 ∧ ∀ k b, k < j → es[k]? = some b → ¬sharesSector a b) := by
  have hany : ([] ++ es.take j).any (extentsOverlap a) = true ↔ ∃ k b, k < j ∧ es[k]? = some b ∧ sharesSector a b := by
    rw [List.nil_append, List.any_eq_true]
    simp only [extentsOverlap_iff]
    constructor
    · rintro ⟨b, hb, hshares⟩
      obtain ⟨k, hk⟩ := List.mem_iff_getElem?.1 hb
      rw [List.getElem?_take] at hk
      split at hk
      · next hlt => exact ⟨k, b, hlt, hk, hshares⟩
      · cases hk
    · rintro ⟨k, b, hlt, hk, hshares⟩
      exact ⟨b, List.mem_iff_getElem?.2 ⟨k, by rw [List.getElem?_take, if_pos hlt]; exact hk⟩, hshares⟩
  unfold unfitAfter
  rw [hany]
  constructor
  · rintro (hzero | hlast | ⟨k, b, hlt, hk, hshares⟩) ⟨hpos, hend, hapart⟩
    · omega
    · omega
    · exact hapart k b hlt hk hshares
  · intro hnot
    refine Classical.byContradiction fun hgood => hnot ⟨?_, ?_, fun k b hlt hk hshares => ?_⟩
    · exact Nat.pos_of_ne_zero fun hzero => hgood (.inl hzero)
    · exact Nat.not_lt.1 fun hlast => hgood (.inr (.inl hlast))
    · exact hgood (.inr (.inr ⟨k, b, hlt, hk, hshares⟩))

theorem firstBadExtent_of_apart {es : List (Nat × Nat)} (hfit : ∀ e ∈ es, 0 < e.2 ∧ e.1 + e.2 ≤ 4294967296)
    (hapart : es.Pairwise fun a b => a.1 + a.2 ≤ b.1 ∨ b.1 + b.2 ≤ a.1) : firstBadExtent [] es 0 = none := by
  refine firstBadExtent_of_fit fun j a ha => ?_
  rw [unfitAfter_take_iff, Classical.not_not]
  obtain ⟨hpos, hend⟩ := hfit a (List.mem_of_getElem? ha)
  refine ⟨hpos, hend, fun k b hk hb hshares => ?_⟩
  obtain ⟨hklt, hbk⟩ := List.getElem?_eq_some_iff.1 hb
  obtain ⟨hjlt, haj⟩ := List.getElem?_eq_some_iff.1 ha
  have hdisjoint := List.pairwise_iff_getElem.1 hapart k j hklt hjlt hk
  rw [hbk, haj] at hdisjoint
  unfold sharesSector at hshares
  omega

section Unfit
variable {es : List (Nat × Nat)} {p : Part}

theorem Part.extentsUnfit_of_bad {i : Nat} (h : firstBadExtent [] es 0 = some i) :
    p.extentsUnfit es = some (.badExtents, [natWord i, 0, 0]) := by
  unfold Part.extentsUnfit
  rw [h]

variable (hfit : firstBadExtent [] es 0 = none)
include hfit

theorem Part.extentsUnfit_of_sum (h : (es.map Prod.snd).sum ≠ p.geo.fileSectors) :
    p.extentsUnfit es = some (.badExtents, [0, natWord (es.map Prod.snd).sum, natWord p.geo.fileSectors]) := by
  unfold Part.extentsUnfit
  rw [hfit]
  exact if_pos h

variable (hsum : (es.map Prod.snd).sum = p.geo.fileSectors)
include hsum

theorem Part.extentsUnfit_of_ready (hcard : p.cde.card = .ready) :
    p.extentsUnfit es =
      (es.findIdx? fun e => Nat.blt (p.cde.capacity.getD 0) (e.1 + e.2)).map fun i =>
        (.outOfRange, natWord i :: natWords2 (p.cde.capacity.getD 0)) := by
  unfold Part.extentsUnfit
  rw [hfit]
  exact (if_neg (not_not_intro hsum)).trans (if_pos hcard)

theorem Part.extentsUnfit_of_other (hcard : p.cde.card ≠ .ready) : p.extentsUnfit es = none := by
  unfold Part.extentsUnfit
  rw [hfit]
  exact (if_neg (not_not_intro hsum)).trans (if_neg hcard)

end Unfit

/-! ## The list read and checked (R190) -/

theorem cmdStore_of_badArg (n : Fin 8) {args : List Word} {p : Part} (h : argNat args 3 = 0 ∨ 32 < argNat args 3) :
    cmdStore n args p = p.refuse n .badArg [] :=
  if_pos (by omega)

section StoreArgs
variable (n : Fin 8) {args : List Word} {p : Part} (hone : 1 ≤ argNat args 3) (hmany : argNat args 3 ≤ 32)
include hone hmany

theorem cmdStore_of_badBuffer (h : argAddr args 1 % 16 ≠ 0 ∨ (!p.pts.inPass (argAddr args 1) (8 * argNat args 3)) = true) :
    cmdStore n args p = p.refuse n .badBuffer [] :=
  (if_neg (by omega)).trans (if_pos h)

theorem cmdStore_of_good (h : ¬(argAddr args 1 % 16 ≠ 0 ∨ (!p.pts.inPass (argAddr args 1) (8 * argNat args 3)) = true)) :
    cmdStore n args p =
      { p with
        cde := { p.cde with listReads := p.cde.listReads ++ [⟨n, argWord args 0, argAddr args 1, argNat args 3, []⟩] } } :=
  (if_neg (by omega)).trans (if_neg h)

end StoreArgs

theorem Part.extentListRead_of_read {l : ListRead} {rest : List ListRead} {p : Part} (h : p.cde.listReads = l :: rest)
    (hread : listBytes l.count ≤ l.got.length) (hres : p.cpa.resetting = none) :
    p.extentListRead = Part.acceptStore l { p with cde := { p.cde with listReads := rest } } := by
  have hstop : Part.cdeStopping { p with cde := { p.cde with listReads := rest } } = false := by
    unfold Part.cdeStopping
    simp only [hres]
  unfold Part.extentListRead
  rw [h]
  refine (if_neg (Nat.not_lt.2 hread)).trans (if_neg ?_)
  rw [hstop]
  decide

/-- The state in which a STORE joins the queue (R189). -/
theorem joinState_eq (st : ShotState) :
    (if st.undeveloped then RequestState.waiting else .queued) =
      if st ∈ [ShotState.developed, .storing, .stored] then RequestState.queued else .waiting := by
  cases st <;> rfl

section AcceptStore
variable {l : ListRead} {p : Part}

theorem Part.acceptStore_of_full (h : 16 ≤ p.cde.requests.length) : p.acceptStore l = p.refuse l.slot .queueFull [] := if_pos h

variable (hroom : p.cde.requests.length < 16)
include hroom

theorem Part.acceptStore_of_none (h : p.keptShot? l.shot = none) : p.acceptStore l = p.refuse l.slot .notFound [] := by
  unfold Part.acceptStore
  rw [h]
  exact if_neg (Nat.not_le.2 hroom)

variable {x : Shot} (hx : p.keptShot? l.shot = some x)
include hx

theorem Part.acceptStore_of_queued {r : Request} (h : p.requestFor l.shot = some r) :
    p.acceptStore l = p.refuse l.slot .alreadyQueued [natWord r.id] := by
  unfold Part.acceptStore
  rw [hx, h]
  exact if_neg (Nat.not_le.2 hroom)

variable (hnone : p.requestFor l.shot = none)
include hnone

theorem Part.acceptStore_of_unfit {code : ResultCode} {data : List Word} (h : p.extentsUnfit (extentsOf l.count l.got) = some (code, data)) :
    p.acceptStore l = p.refuse l.slot code data := by
  unfold Part.acceptStore
  rw [hx, hnone]
  simp only [h]
  exact if_neg (Nat.not_le.2 hroom)

/-- The part with a STORE in its queue. -/
def Part.storeJoined (n : Word) (es : List (Nat × Nat)) (st : RequestState) (p : Part) : Part :=
  Part.statusDirty
    { p with
      cde :=
        { p.cde with
          requests := p.cde.requests ++ [p.newRequest (.store n es) st], nextId := p.idAfter, arrivals := p.cde.arrivals + 1 }
      sht :=
        { p.sht with
          records := changeAt n (fun y => { y with progress := { y.progress with pendingStore := some p.cde.nextId } }) p.sht.records } }

theorem Part.acceptStore_of_fit {st : RequestState} (hst : (if x.state.undeveloped then RequestState.waiting else .queued) = st)
    (h : p.extentsUnfit (extentsOf l.count l.got) = none) :
    p.acceptStore l =
      Part.choose
        (Part.endCommand l.slot .done .ok [natWord p.cde.nextId, natWord st.code, natWord (p.cde.requests.length + 1)]
          (p.storeJoined l.shot (extentsOf l.count l.got) st)) := by
  have hjoined : (p.addRequest (.store l.shot (extentsOf l.count l.got)) st).modProgress l.shot
      (fun g => { g with pendingStore := some p.cde.nextId }) = p.storeJoined l.shot (extentsOf l.count l.got) st := by
    unfold Part.storeJoined
    rw [Part.addRequest_eq, Part.statusDirty_eq, Part.statusDirty_eq]
    rfl
  have hlength : (p.storeJoined l.shot (extentsOf l.count l.got) st).cde.requests.length = p.cde.requests.length + 1 := by
    unfold Part.storeJoined
    rw [Part.statusDirty_eq]
    exact List.length_append
  unfold Part.acceptStore
  rw [hx, hnone]
  simp only [h, hst, hjoined, hlength]
  exact if_neg (Nat.not_le.2 hroom)

end AcceptStore

/-- Settles O43: STORE's arguments, the checks of its list once read, and the extents. -/
theorem storeChecksItsListAndJoinsTheQueue : Obligations.StoreChecksItsListAndJoinsTheQueue := by
  refine ⟨⟨fun w s h => ?args, fun l rest s hlist hread hres => ?read⟩, fun es i e p hi => ?bad, fun es i e p hi hfit hapart hsum hcard => ?range,
    fun es p => ?fit⟩
  case args =>
    intro p args addr count inPass
    have hexec {q : Part} (hq : cmdStore w.slot args (p.taken .store w) = q) : exec (.store w) s = .next { s with part := q } :=
      (exec_row_of_takes (v := .store) (by decide) h).trans (State.next_part_congr hq)
    have hbad := Pts.badBuffer_iff p.pts addr (8 * count)
    refine ⟨fun hargs => hexec ?_, fun hone hmany => ⟨fun hbuffer => hexec ?_, fun haligned hin => hexec ?_⟩⟩
    · exact (cmdStore_of_badArg w.slot hargs).trans (Part.taken_refuse _ _ _ _ _ (by decide))
    · exact (cmdStore_of_badBuffer (p := p.taken .store w) w.slot hone hmany (hbad.2 hbuffer)).trans (Part.taken_refuse _ _ _ _ _ (by decide))
    · exact cmdStore_of_good (p := p.taken .store w) w.slot hone hmany fun hnot => (hbad.1 hnot).elim (fun h => h haligned) fun h => h hin
  case read =>
    intro p es leaving ends
    have hexec {q : Part} (hq : p.acceptStore l = q) : exec .extentListRead s = .next { s with part := q } :=
      Eq.trans (b := .next { s with part := s.part.extentListRead }) rfl
        (State.next_part_congr ((Part.extentListRead_of_read hlist hread hres).trans hq))
    refine ⟨fun hfull => hexec (Part.acceptStore_of_full hfull), fun hroom => ⟨fun hgone => ?_, fun x hx hstays => ⟨fun r hr => ?_, fun hnone =>
      ⟨fun code data hunfit => ?_, fun hunfit => ?_⟩⟩⟩⟩
    · exact hexec (Part.acceptStore_of_none hroom (Part.keptShot?_eq_none hgone))
    · exact hexec (Part.acceptStore_of_queued hroom (Part.keptShot?_of_stays hx hstays) hr)
    · exact hexec (Part.acceptStore_of_unfit hroom (Part.keptShot?_of_stays hx hstays) hnone hunfit)
    · have hrow := hexec (Part.acceptStore_of_fit hroom (Part.keptShot?_of_stays hx hstays) hnone (joinState_eq x.state) hunfit)
      let st : RequestState := if x.state ∈ [ShotState.developed, .storing, .stored] then .queued else .waiting
      let q : Part := Part.endCommand l.slot .done .ok [natWord p.cde.nextId, natWord st.code, natWord (p.cde.requests.length + 1)]
        (p.storeJoined l.shot es st)
      have hcde : q.cde = { p.cde with
          requests := p.cde.requests ++ [p.newRequest (.store l.shot es) st], nextId := p.idAfter, arrivals := p.cde.arrivals + 1 } := by
        show (Part.endCommand _ _ _ _ _).cde = _
        rw [Part.endCommand_frame]
        unfold Part.storeJoined
        rw [Part.statusDirty_eq]
      have hrow : exec .extentListRead s = .next { s with part := q.choose } := hrow
      have hstep := Part.choose_cardStep q
      obtain ⟨r, hr, hkept⟩ := hstep.mem (r := p.newRequest (.store l.shot es) st) (by rw [hcde]; simp)
      obtain ⟨hlow, hhigh, hother, hfree, -⟩ := Part.idAfter_spec (p := p) hroom
      refine ⟨⟨p.idAfter, hrow, hlow, hhigh, hother, hfree⟩, _, r, hrow, rfl, rfl, hr, by rw [hkept]; rfl, by rw [hkept]; rfl, ?_, ?_, ?_,
        fun c hcmd hopen => ?_⟩
      · rw [hstep.length, hcde]
        exact List.length_append
      · rw [hstep.frame, hcde]
      · rw [hstep.frame, hcde]
      · refine hstep.cpa.hasEnded (Part.hasEnded_of_open (l := c) ?_ hopen .done .ok (Nat.le_of_ble_eq_true rfl))
        unfold Part.storeJoined
        rw [Part.statusDirty_eq, Cpa.dirtied_slots]
        exact hcmd
  case bad =>
    intro shares fits hgood hbad
    have hfirst := firstBadExtent_of_first (before := []) (k := 0) hi ((unfitAfter_take_iff es i e).2 hbad)
      fun j a hj ha hunfit => (unfitAfter_take_iff es j a).1 hunfit (hgood j a hj ha)
    rw [Nat.zero_add] at hfirst
    exact Part.extentsUnfit_of_bad hfirst
  case range =>
    intro capacity hbeyond hbelow
    rw [Part.extentsUnfit_of_ready (firstBadExtent_of_apart hfit hapart) hsum hcard]
    obtain ⟨hlt, he⟩ := List.getElem?_eq_some_iff.1 hi
    have hindex : es.findIdx? (fun e => Nat.blt (p.cde.capacity.getD 0) (e.1 + e.2)) = some i := by
      rw [List.findIdx?_eq_some_iff_getElem]
      refine ⟨hlt, by rw [he]; exact Nat.blt_eq.mpr hbeyond, fun j hj => ?_⟩
      rw [Nat.blt_eq]
      exact Nat.not_lt.2 (hbelow j es[j] hj (List.getElem?_eq_getElem _))
    rw [hindex]
    rfl
  case fit =>
    intro needed sum hfit hapart
    have hgood := firstBadExtent_of_apart hfit hapart
    refine ⟨fun hsum => Part.extentsUnfit_of_sum hgood hsum, fun hsum hbelow => ?_⟩
    by_cases hcard : p.cde.card = .ready
    · have hindex : es.findIdx? (fun e => Nat.blt (p.cde.capacity.getD 0) (e.1 + e.2)) = none := by
        rw [List.findIdx?_eq_none_iff]
        intro e he
        exact Bool.eq_false_iff.2 fun hlt => absurd (Nat.blt_eq.mp hlt) (Nat.not_lt.2 (hbelow hcard e he))
      rw [Part.extentsUnfit_of_ready hgood hsum hcard, hindex]
      rfl
    · exact Part.extentsUnfit_of_other hgood hsum hcard

end Sys2Proof.Machine
end

section
/-! PROOFS. The bring-up of a card: its exchanges, its failures, and its end (R185 to R188). -/

namespace Sys2Proof.Machine

section Bringup
variable {b : Bringup} {p : Part}

/-! ## The ends of a bring-up (R186, R187) -/

/-- A bring-up that fails: the card is FAULT, and CARD_INIT ends with the step and the kind. -/
theorem Part.bringupFailed_of_kept (ha : b.aborting = false) (f : BringFailure) :
    ∃ cpa, p.bringupFailed b f = { p with cpa := cpa, cde := { p.cde with card := .fault, capacity := none, bringup := none } } ∧
      ∀ c, p.cpa.slots[b.slot].cmd = some c → c.ended = false →
        Part.hasEnded b.slot .failed .notReady [natWord b.step.code, natWord f.code] (p.bringupFailed b f) := by
  have hfail : p.bringupFailed b f =
      Part.endCommand b.slot .failed .notReady [natWord b.step.code, natWord f.code]
        (Part.emit .cardState 0 [4, natWord b.step.code]
          (Part.statusDirty { p with cde := { p.cde with card := .fault, capacity := none, bringup := none } })) := by
    unfold Part.bringupFailed
    rw [if_neg (by rw [ha]; decide)]
    rfl
  rw [hfail, Part.emit_eq, Part.statusDirty_eq]
  refine ⟨_, Part.endCommand_frame _ _ _ _ _, fun c hcmd hopen => ?_⟩
  refine Part.hasEnded_of_open (l := c) ?_ hopen .failed .notReady (Nat.le_of_ble_eq_true rfl)
  rw [Cpa.handed_slots, Cpa.dirtied_slots]
  exact hcmd

theorem Part.bringupAborted_eq :
    p.bringupAborted b =
      Part.endCommand b.slot .failed .aborted [natWord b.step.code]
        (Part.emit .cardState 0 [1]
          (Part.statusDirty { p with cde := { p.cde with card := .present, capacity := none, bringup := none } })) := rfl

/-- The part with the card READY, CARD_STATE reported. -/
def Part.cardReady (b : Bringup) (p : Part) : Part :=
  Part.emit .cardState 0 [3]
    (Part.statusDirty { p with cde := { p.cde with card := .ready, capacity := some b.sectors, bringup := none } })

theorem Part.cardReady_eq :
    p.cardReady b =
      { p with
        cpa := (p.cpa.dirtied p.phase).handed p.phase ⟨.cardState, 0, p.clock.time, [3]⟩
        cde := { p.cde with card := .ready, capacity := some b.sectors, bringup := none } } := by
  unfold Part.cardReady
  rw [Part.emit_eq, Part.statusDirty_eq]

theorem Part.bringupReady_eq :
    p.bringupReady b =
      Part.choose
        (Part.endCommand b.slot .done .ok
          [natWord b.sectors, natWord (b.sectors / 4294967296), natWord p.cde.policy.code, natWord p.cde.requests.length]
          (p.cardReady b)) := by
  have hset : Part.setCard .ready [] { p with cde := { p.cde with bringup := none, capacity := some b.sectors } } = p.cardReady b := rfl
  unfold Part.bringupReady
  simp only [hset]
  rw [Part.cardReady_eq]
  rfl

/-! ## Responses (R185, R188) -/

variable (hb : p.cde.bringup = some b)
include hb

theorem Part.cardResponse_of_bringup (hresponse : b.response.isSome = true) (c : CardReply) : p.cardResponse c = p.bringupResponse b c := by
  unfold Part.cardResponse
  rw [hb]
  exact if_pos hresponse

theorem Part.cardResponseTimeout_of_bringup {timer : Timer} (hresponse : b.response = some timer) (hdue : timer.due p.clock.time = true) :
    p.cardResponseTimeout = p.bringupFailed b .timeout := by
  unfold Part.cardResponseTimeout
  rw [hb]
  exact if_pos (by rw [hresponse]; exact hdue)

theorem Part.powerUpTimeout_of_due {timer : Timer} (hstep : b.step = .query) (htimer : b.powerUp = some timer)
    (hdue : timer.due p.clock.time = true) : p.powerUpTimeout = p.bringupFailed b .notPoweredUp := by
  unfold Part.powerUpTimeout
  rw [hb]
  exact if_pos ⟨hstep, by rw [htimer]; exact hdue⟩

theorem Part.powerUpPollTimer_of_due {timer : Timer} (hstep : b.step = .query) (hresponse : b.response = none) (htimer : b.wait = some timer)
    (hdue : timer.due p.clock.time = true) : p.powerUpPollTimer = p.bringupSend b .query p.clock.time := by
  unfold Part.powerUpPollTimer
  rw [hb]
  exact if_pos ⟨hstep, hresponse, by rw [htimer]; exact hdue⟩

theorem Part.cardResetWaitExpiry_of_due {timer : Timer} (hstep : b.step = .reset) (htimer : b.wait = some timer)
    (hdue : timer.due p.clock.time = true) :
    p.cardResetWaitExpiry = if b.aborting then p.bringupAborted b else p.bringupSend b .condition timer.expiry := by
  unfold Part.cardResetWaitExpiry
  rw [hb]
  simp only [hstep, htimer]
  exact if_pos hdue

end Bringup

theorem Part.bringupResponse_of_aborting {b : Bringup} (ha : b.aborting = true) (c : CardReply) (p : Part) :
    p.bringupResponse b c = p.bringupAborted b := by
  unfold Part.bringupResponse
  exact if_pos ha

/-- What a good response leads to, by the step it answers (R185). -/
def Part.stepAnswered (b : Bringup) (echo range powered : Bool) (sectors : Nat) (p : Part) : BringStep → Part
  | .reset => p
  | .condition =>
    if !echo then p.bringupFailed b .echo else if !range then p.bringupFailed b .range else p.bringupSend b .query p.now
  | .query =>
    if powered then p.bringupSend b .identity p.now else { p with cde := { p.cde with bringup := some { b with response := none } } }
  | .identity => p.bringupSend b .address p.now
  | .address => p.bringupSend b .capacity p.now
  | .capacity =>
    if sectors = 0 then p.bringupFailed b .noCapacity else p.bringupSend { b with sectors := min sectors 4294967296 } .select p.now
  | .select => p.bringupSend b .width p.now
  | .width => p.bringupSend b .blockLength p.now
  | .blockLength => p.bringupReady b

section Response
variable {b : Bringup} (ha : b.aborting = false) (p : Part)
include ha

theorem Part.bringupResponse_of_bad : p.bringupResponse b .bad = p.bringupFailed b .responseError := by
  unfold Part.bringupResponse
  exact if_neg (by rw [ha]; decide)

theorem Part.bringupResponse_of_good (echo range powered : Bool) (sectors : Nat) {step : BringStep} (hstep : b.step = step) :
    p.bringupResponse b (.good echo range powered sectors) = p.stepAnswered b echo range powered sectors step := by
  unfold Part.bringupResponse
  refine (if_neg (by rw [ha]; decide)).trans ?_
  unfold Part.stepAnswered
  rw [hstep] <;> cases step <;> rfl

/-- The command of the next exchange, which is not the query (R185). -/
theorem Part.bringupSend_eq {step : BringStep} (hstep : step ≠ .query) (at_ : Word) :
    p.bringupSend b step at_ =
      { p with
        cde :=
          { p.cde with
            clock := if step = .blockLength then .fast else p.cde.clock
            bringup := some ⟨b.slot, step, none, some ⟨at_, 100000⟩, none, b.sectors, false⟩ } } := by
  unfold Part.bringupSend
  simp only [if_neg hstep, ha]

theorem Part.bringupSend_query (at_ : Word) :
    p.bringupSend b .query at_ =
      { p with
        cde :=
          { p.cde with
            bringup :=
              some
                ⟨b.slot, .query, some ⟨at_, 10000⟩, some ⟨at_, 100000⟩, if b.powerUp.isSome then b.powerUp else some ⟨at_, 1000000⟩,
                  b.sectors, false⟩ } } := by
  unfold Part.bringupSend
  simp only [ha]
  rfl

end Response

/-- Settles O42: a bring-up that goes on, response by response, and one that an ABORT has marked. -/
theorem bringUpFollowsItsSteps : Obligations.BringUpFollowsItsSteps := by
  refine ⟨fun b s hb ha => ?kept, fun b s hb ha => ?aborted⟩
  case kept =>
    intro now sent failed query
    have hresponse {q : Part} (hisSome : b.response.isSome = true) (c : CardReply) (hq : s.part.bringupResponse b c = q) :
        exec (.cardResponse c) s = .next { s with part := q } :=
      Eq.trans (b := .next { s with part := s.part.cardResponse c }) rfl
        (State.next_part_congr ((Part.cardResponse_of_bringup hb hisSome c).trans hq))
    have hfailed {o : Host.Outcome State Fault Refusal} (f : BringFailure) (ho : o = .next { s with part := s.part.bringupFailed b f }) :
        failed o (natWord b.step.code) (natWord f.code) := by
      obtain ⟨cpa, hfail, hended⟩ := Part.bringupFailed_of_kept (p := s.part) ha f
      refine ⟨_, ho, rfl, rfl, ?_, ?_, hended⟩
      · rw [hfail]
      · rw [hfail]
    have hsent (c : CardReply) (step : BringStep) (hstep : step ≠ .query) (d : Bringup) (hd : d.aborting = false) (hslot : d.slot = b.slot)
        (hisSome : b.response.isSome = true) (hq : s.part.bringupResponse b c = s.part.bringupSend d step s.part.clock.time) :
        sent c step (if step = .blockLength then .fast else s.part.cde.clock) d.sectors := by
      refine hresponse hisSome c (hq.trans ?_)
      rw [Part.bringupSend_eq hd s.part hstep, hslot]
    have hquery : s.part.bringupSend b .query s.part.clock.time = { s.part with cde := { s.part.cde with bringup := query } } :=
      Part.bringupSend_query ha s.part _
    have hgood (echo range powered : Bool) (n : Nat) {step : BringStep} (hstep : b.step = step) :=
      Part.bringupResponse_of_good ha s.part echo range powered n hstep
    have hfailedAt {o : Host.Outcome State Fault Refusal} {step : BringStep} (hstep : b.step = step) (f : BringFailure)
        (ho : o = .next { s with part := s.part.bringupFailed b f }) : failed o (natWord step.code) (natWord f.code) := by
      rw [← hstep]
      exact hfailed f ho
    clear_value sent failed query
    refine ⟨fun timer hstep hwait hdue => ?_, fun hisSome => ⟨fun range powered n hstep => ?_, fun powered n hstep => ?_, fun powered n hstep => ?_,
      fun echo range n hstep => ?_, fun echo range n hstep => ?_, fun echo range powered n hstep => ?_, fun echo range powered n hstep => ?_,
      fun echo range powered hstep => ?_, fun echo range powered n hstep hn => ?_, fun echo range powered n hstep => ?_,
      fun echo range powered n hstep => ?_, fun _ => ?_, fun echo range powered n hstep => ?_⟩, fun timer htimer hdue => ?_,
      fun timer hstep hnone hwait hdue => ?_, fun timer hstep hpower hdue => ?_⟩
    · refine Eq.trans (b := .next { s with part := s.part.cardResetWaitExpiry }) rfl (State.next_part_congr ?_)
      rw [Part.cardResetWaitExpiry_of_due hb hstep hwait hdue, if_neg (by rw [ha]; decide),
        Part.bringupSend_eq ha s.part (step := .condition) (by decide)]
      rfl
    · exact hfailedAt hstep .echo (hresponse hisSome _ (hgood false range powered n hstep))
    · exact hfailedAt hstep .range (hresponse hisSome _ (hgood true false powered n hstep))
    · exact hresponse hisSome _ ((hgood true true powered n hstep).trans hquery)
    · exact hresponse hisSome _ (hgood echo range false n hstep)
    · exact hsent _ .identity (by decide) b ha rfl hisSome (hgood echo range true n hstep)
    · exact hsent _ .address (by decide) b ha rfl hisSome (hgood echo range powered n hstep)
    · exact hsent _ .capacity (by decide) b ha rfl hisSome (hgood echo range powered n hstep)
    · exact hfailedAt hstep .noCapacity (hresponse hisSome _ (hgood echo range powered 0 hstep))
    · exact hsent _ .select (by decide) { b with sectors := min n 4294967296 } ha rfl hisSome
        ((hgood echo range powered n hstep).trans (if_neg hn))
    · exact hsent _ .width (by decide) b ha rfl hisSome (hgood echo range powered n hstep)
    · exact hsent _ .blockLength (by decide) b ha rfl hisSome (hgood echo range powered n hstep)
    · exact hfailed .responseError (hresponse hisSome _ (Part.bringupResponse_of_bad ha s.part))
    · have hrow := hresponse hisSome _ ((hgood echo range powered n hstep).trans Part.bringupReady_eq)
      have hchosen := Part.choose_cardStep (Part.endCommand b.slot .done .ok
        [natWord b.sectors, natWord (b.sectors / 4294967296), natWord s.part.cde.policy.code, natWord s.part.cde.requests.length]
        (s.part.cardReady b))
      have hcde : (Part.endCommand b.slot .done .ok
          [natWord b.sectors, natWord (b.sectors / 4294967296), natWord s.part.cde.policy.code, natWord s.part.cde.requests.length]
          (s.part.cardReady b)).cde = { s.part.cde with card := .ready, capacity := some b.sectors, bringup := none } := by
        rw [Part.endCommand_frame, Part.cardReady_eq]
      refine ⟨hrow, _, hrow, rfl, rfl, ?_, ?_, ?_, fun c hcmd hopen => hchosen.cpa.hasEnded
        (Part.hasEnded_of_open (l := c) ?_ hopen .done .ok (Nat.le_of_ble_eq_true rfl))⟩
      · rw [hchosen.frame, hcde]
      · rw [hchosen.frame, hcde]
      · rw [hchosen.frame, hcde]
      · rw [Part.cardReady_eq, Cpa.handed_slots, Cpa.dirtied_slots]
        exact hcmd
    · exact hfailed .timeout (Eq.trans (b := .next { s with part := s.part.cardResponseTimeout }) rfl
        (State.next_part_congr (Part.cardResponseTimeout_of_bringup hb htimer hdue)))
    · exact Eq.trans (b := .next { s with part := s.part.powerUpPollTimer }) rfl
        (State.next_part_congr ((Part.powerUpPollTimer_of_due hb hstep hnone hwait hdue).trans hquery))
    · exact hfailedAt hstep .notPoweredUp (Eq.trans (b := .next { s with part := s.part.powerUpTimeout }) rfl
        (State.next_part_congr (Part.powerUpTimeout_of_due hb hstep hpower hdue)))
  case aborted =>
    intro now aborted
    have hrow {i : Instr} {work : Part → Part} (hi : exec i s = .next { s with part := work s.part }) (h : work s.part = s.part.bringupAborted b) :
        aborted i := hi.trans (State.next_part_congr h)
    have hfail (f : BringFailure) : s.part.bringupFailed b f = s.part.bringupAborted b := if_pos ha
    clear_value aborted
    refine ⟨fun hresponse c => ?_, fun timer hresponse hdue => ?_, fun timer hstep hwait hdue => ?_, fun timer hstep hpower hdue => ?_⟩
    · exact hrow (work := Part.cardResponse c) rfl ((Part.cardResponse_of_bringup hb hresponse c).trans (Part.bringupResponse_of_aborting ha c _))
    · exact hrow (work := Part.cardResponseTimeout) rfl ((Part.cardResponseTimeout_of_bringup hb hresponse hdue).trans (hfail _))
    · exact hrow (work := Part.cardResetWaitExpiry) rfl ((Part.cardResetWaitExpiry_of_due hb hstep hwait hdue).trans (if_pos ha))
    · exact hrow (work := Part.powerUpTimeout) rfl ((Part.powerUpTimeout_of_due hb hstep hpower hdue).trans (hfail _))

end Sys2Proof.Machine
end

section
/-! PROOFS. A run from its start command to its confirmation, retry, cancellation or halt (R188, R196 to R203). -/

namespace Sys2Proof.Machine

/-! ## A request leaves the queue (R71, R198, R203) -/

/-- An event of an enabled kind for which the ring has room is written at once, or waits behind those before it. -/
theorem Cpa.mem_handed {phase : Phase} {e : Event} {c : Cpa} (hmask : c.mask.getLsbD (e.kind.code - 1) = true)
    (hroom : (c.producer - c.consumer).toNat ≠ 64) :
    CpaWrite.eventRecord c.producer e ∈ (c.handed phase e).writes ∨ (c.producer, e) ∈ (c.handed phase e).events := by
  have hfree : c.unconsumed ≠ Config.ringRecords := hroom
  unfold Cpa.handed
  rw [if_pos hmask, if_neg hfree]
  split
  · exact .inr (List.mem_append_right _ List.mem_cons_self)
  · exact .inl (List.mem_append_right _ List.mem_cons_self)

/-- A status write due leaves the mask and the ring's counts. -/
theorem Cpa.dirtied_ring (phase : Phase) (c : Cpa) :
    (c.dirtied phase).mask = c.mask ∧ (c.dirtied phase).producer = c.producer ∧ (c.dirtied phase).consumer = c.consumer := by
  unfold Cpa.dirtied
  split
  · split
    · exact ⟨rfl, rfl, rfl⟩
    · exact ⟨rfl, rfl, rfl⟩
  · exact ⟨rfl, rfl, rfl⟩

theorem Cpa.mem_handed_dirtied {phase : Phase} {e : Event} {c : Cpa} (hmask : c.mask.getLsbD (e.kind.code - 1) = true)
    (hroom : (c.producer - c.consumer).toNat ≠ 64) :
    CpaWrite.eventRecord c.producer e ∈ ((c.dirtied phase).handed phase e).writes ∨
      (c.producer, e) ∈ ((c.dirtied phase).handed phase e).events := by
  obtain ⟨hm, hp, hc⟩ := c.dirtied_ring phase
  have h := Cpa.mem_handed (phase := phase) (c := c.dirtied phase) (by rw [hm]; exact hmask) (by rw [hp, hc]; exact hroom)
  rwa [hp] at h

/-- A record as the end of a STORE leaves it. -/
structure Shot.LeftBy (cancelled : Bool) (done : Nat) (y z : Shot) : Prop where
  number : z.number = y.number
  slot : z.slot = y.slot
  autoRelease : z.arming.autoRelease = y.arming.autoRelease
  prot : z.prot = y.prot
  pendingStore : z.progress.pendingStore = none
  gone : cancelled = true → y.state = .storing → z.state = .developed ∧ z.progress.storeCount = y.progress.storeCount
  kept : cancelled = false →
    z.state = .stored ∧ z.progress.storeCount = y.progress.storeCount + 1 ∧ z.progress.sectorsStored = done

/-- What the end of a request leaves: the queue without it, its event, its shot's record, and for a transfer the whole part. -/
structure Leaves (p q : Part) (r : Request) (cancelled : Bool) (done : Nat) : Prop where
  lastClass : q.cde.lastClass = if cancelled then p.cde.lastClass else if r.work.isStore then .shot else .transfer
  transfer : r.work.isStore = false →
    q =
      Part.choose
        (Part.emit .cardRequestDone 0 [natWord r.id, flagWord cancelled, natWord done]
          (Part.statusDirty
            { p with
              cde :=
                { p.cde with
                  requests := withoutRequest r.id p.cde.requests
                  run := none, lastClass := if cancelled then p.cde.lastClass else .transfer } }))
  ids : q.cde.requests.map (·.id) = (p.cde.requests.map (·.id)).filter fun k => decide (k ≠ r.id)
  event : p.cpa.mask.getLsbD 12 = true → (p.cpa.producer - p.cpa.consumer).toNat ≠ 64 →
    CpaWrite.eventRecord p.cpa.producer
        ⟨.cardRequestDone, r.shot, p.clock.time, [natWord r.id, flagWord cancelled, natWord done]⟩ ∈ q.cpa.writes ∨
      (p.cpa.producer, ⟨.cardRequestDone, r.shot, p.clock.time, [natWord r.id, flagWord cancelled, natWord done]⟩) ∈ q.cpa.events
  shots : ∀ n es x, r.work = .store n es → p.shot? n = some x → (∀ y ∈ p.cde.requests, y.names n = true → y.id = r.id) →
    ((cancelled = true ∧ x.state = .storing ∨ cancelled = false ∧ (x.arming.autoRelease = false ∨ x.prot = true)) →
      ∃ y, q.shot? n = some y ∧ Shot.LeftBy cancelled done x y) ∧
    (cancelled = false → x.arming.autoRelease = true → x.prot = false →
      q.shot? n = none ∧ q.sht.slots = p.sht.slots.set x.slot .free)

theorem Part.requestFor_eq_none {p : Part} {n : Word} (h : ∀ y ∈ p.cde.requests, y.names n = false) : p.requestFor n = none :=
  List.find?_eq_none.2 fun y hy => by rw [h y hy]; exact Bool.false_ne_true

/-- The part when a STORE has left the queue, before the auto-release is tested. -/
def Part.storeLeft (r : Request) (n : Word) (f : Shot → Shot) (cancelled : Bool) (done : Nat) (p : Part) : Part :=
  { p with
    cpa :=
      (p.cpa.dirtied p.phase).handed p.phase ⟨.cardRequestDone, n, p.clock.time, [natWord r.id, flagWord cancelled, natWord done]⟩
    sht := { p.sht with records := changeAt n f p.sht.records }
    cde :=
      { p.cde with
        requests := withoutRequest r.id p.cde.requests, run := none
        lastClass := if cancelled then p.cde.lastClass else .shot } }

/-- A shot whose STORE has left is released at once if it is STORED, unprotected, and so armed (R71). -/
theorem Part.autoRelease_of_kept {p : Part} {n : Word} {y : Shot} (hy : p.shot? n = some y)
    (h : y.state ≠ .stored ∨ y.arming.autoRelease = false ∨ y.prot = true) : p.autoRelease n = p := by
  have hrelease : p.autoReleasable n = false := by
    unfold Part.autoReleasable
    rw [hy]
    rcases h with h | h | h <;> simp [h]
  unfold Part.autoRelease
  rw [hrelease]
  rfl

theorem Part.autoRelease_of_released {p : Part} {n : Word} {y : Shot} (hy : p.shot? n = some y) (hstate : y.state = .stored)
    (hauto : y.arming.autoRelease = true) (hprot : y.prot = false) (hreq : p.requestFor n = none) :
    (p.autoRelease n).shot? n = none ∧ (p.autoRelease n).sht.slots = p.sht.slots.set y.slot .free := by
  have hrelease : p.autoReleasable n = true := by
    unfold Part.autoReleasable
    rw [hy]
    simp [hstate, hauto, hprot, hreq]
  have hremove : p.autoRelease n = p.removeShot n := if_pos hrelease
  rw [hremove]
  refine ⟨?_, ?_⟩
  · unfold Part.shot?
    rw [Part.removeShot_records hy]
    exact List.find?_eq_none.2 fun z hz => by simpa using (List.mem_filter.1 hz).2
  · rw [Part.removeShot_eq hy (.inl (by rw [hstate]; rfl)) hreq, Part.freeSlot_eq]
    rfl

theorem Part.leaves_of_store {r : Request} {n : Word} {es : List (Nat × Nat)} (hw : r.work = .store n es) {f : Shot → Shot}
    {cancelled : Bool} {done : Nat} (hf : ∀ y, Shot.LeftBy cancelled done y (f y)) (p : Part) :
    Leaves p ((p.storeLeft r n f cancelled done).autoRelease n).choose r cancelled done := by
  obtain ⟨cpa, sht, prn, hrelease, hextends⟩ := (p.storeLeft r n f cancelled done).autoRelease_frame n
  have hstep := Part.choose_cardStep ((p.storeLeft r n f cancelled done).autoRelease n)
  have hcde : ((p.storeLeft r n f cancelled done).autoRelease n).cde = (p.storeLeft r n f cancelled done).cde := by rw [hrelease]
  have hstore : r.work.isStore = true := by rw [hw]; rfl
  refine ⟨?_, fun h => ?_, ?_, fun hmask hroom => ?_, fun m ws x hwork hx halone => ?_⟩
  · rw [hstep.frame, hcde, hstore]
    rfl
  · rw [hstore] at h
    cases h
  · rw [hstep.ids, hcde]
    exact ids_withoutRequest _ _
  · have hshot : r.shot = n := by unfold Request.shot; rw [hw]
    rw [hshot]
    have hmem := Cpa.mem_handed_dirtied (phase := p.phase) (c := p.cpa)
      (e := ⟨.cardRequestDone, n, p.clock.time, [natWord r.id, flagWord cancelled, natWord done]⟩) hmask hroom
    have hall := hextends.trans (Cpa.Extends.trans (by rw [hrelease]; exact .refl _) hstep.cpa)
    exact hmem.imp (hall.writes _) (hall.events _)
  · obtain ⟨rfl, rfl⟩ : n = m ∧ es = ws := by simpa using hw.symm.trans hwork
    have hleft : (p.storeLeft r n f cancelled done).shot? n = some (f x) :=
      (changedAt_changeAt (f := f) (fun y => (hf y).number) hx).changed
    have hreq : (p.storeLeft r n f cancelled done).requestFor n = none := Part.requestFor_eq_none fun y hy => by
      obtain ⟨hmem, hne⟩ := List.mem_filter.1 hy
      cases hnames : y.names n with
      | false => rfl
      | true => exact absurd (halone y hmem hnames) (by simpa using hne)
    have hx' := hf x
    refine ⟨fun hcase => ?_, fun hc hauto hprot => ?_⟩
    · have hsame : (p.storeLeft r n f cancelled done).autoRelease n = p.storeLeft r n f cancelled done := by
        refine Part.autoRelease_of_kept hleft ?_
        rcases hcase with ⟨hc, hstate⟩ | ⟨-, hkept⟩
        · exact .inl (by rw [(hx'.gone hc hstate).1]; decide)
        · exact .inr (by rwa [hx'.autoRelease, hx'.prot])
      rw [hsame] at hstep ⊢
      obtain ⟨z, hz, -, hzy⟩ := hstep.shot? hleft
      exact ⟨f x, by rw [hz, hzy hreq], hx'⟩
    · obtain ⟨hnone, hslots⟩ := Part.autoRelease_of_released hleft (hx'.kept hc).1 (hx'.autoRelease.trans hauto)
        (hx'.prot.trans hprot) hreq
      refine ⟨hstep.shot?_none hnone, ?_⟩
      rw [hstep.frame]
      exact hslots.trans (by rw [hx'.slot]; rfl)

theorem Part.leaves_of_transfer {r : Request} (hw : r.work.isStore = false) (cancelled : Bool) (done : Nat) (p : Part) :
    Leaves p
      (Part.choose
        (Part.emit .cardRequestDone 0 [natWord r.id, flagWord cancelled, natWord done]
          (Part.statusDirty
            { p with
              cde :=
                { p.cde with
                  requests := withoutRequest r.id p.cde.requests
                  run := none, lastClass := if cancelled then p.cde.lastClass else .transfer } }))) r cancelled done := by
  let left : Part :=
    { p with
      cpa :=
        (p.cpa.dirtied p.phase).handed p.phase ⟨.cardRequestDone, 0, p.clock.time, [natWord r.id, flagWord cancelled, natWord done]⟩
      cde :=
        { p.cde with
          requests := withoutRequest r.id p.cde.requests
          run := none, lastClass := if cancelled then p.cde.lastClass else .transfer } }
  have hleft : Part.emit .cardRequestDone 0 [natWord r.id, flagWord cancelled, natWord done]
      (Part.statusDirty
        { p with
          cde :=
            { p.cde with
              requests := withoutRequest r.id p.cde.requests
              run := none, lastClass := if cancelled then p.cde.lastClass else .transfer } }) = left := by
    rw [Part.emit_eq, Part.statusDirty_eq]
  have hstep := Part.choose_cardStep left
  refine ⟨?_, fun _ => rfl, ?_, fun hmask hroom => ?_, fun n es x hwork => ?_⟩
  · rw [hleft, hstep.frame, hw]
    rfl
  · rw [hleft, hstep.ids]
    exact ids_withoutRequest _ _
  · have hshot : r.shot = 0 := by
      unfold Request.shot
      cases hwork : r.work with
      | store n es => rw [hwork] at hw; cases hw
      | write | read => rfl
    rw [hleft, hshot]
    exact (Cpa.mem_handed_dirtied (phase := p.phase) (c := p.cpa)
      (e := ⟨.cardRequestDone, 0, p.clock.time, [natWord r.id, flagWord cancelled, natWord done]⟩) hmask hroom).imp
      (hstep.cpa.writes _) (hstep.cpa.events _)
  · rw [hwork] at hw
    cases hw

/-- The record of a shot whose STORE is done (R198). -/
def Shot.storeCompleted (done : Nat) (y : Shot) : Shot :=
  { y with
    state := .stored
    progress := { y.progress with storeCount := y.progress.storeCount + 1, sectorsStored := done, pendingStore := none } }

theorem Shot.leftBy_storeCompleted (done : Nat) (y : Shot) : Shot.LeftBy false done y (y.storeCompleted done) :=
  ⟨rfl, rfl, rfl, rfl, rfl, fun h => (by cases h), fun _ => ⟨rfl, rfl, rfl⟩⟩

theorem Shot.leftBy_storeCancelled (done : Nat) (y : Shot) : Shot.LeftBy true done y y.storeCancelled :=
  ⟨rfl, rfl, rfl, rfl, rfl, fun _ hstate => ⟨if_pos hstate, rfl⟩, fun h => (by cases h)⟩

theorem Shot.LeftBy.stored {cancelled : Bool} {done sectors : Nat} {y z : Shot}
    (h : Shot.LeftBy cancelled done { y with progress := { y.progress with sectorsStored := sectors } } z) :
    Shot.LeftBy cancelled done y z :=
  ⟨h.number, h.slot, h.autoRelease, h.prot, h.pendingStore, h.gone, h.kept⟩

/-- The end of a request that has run to its last sector (R198). -/
theorem Part.completeRequest_of_store {r : Request} {n : Word} {es : List (Nat × Nat)} (hw : r.work = .store n es) (p : Part) :
    p.completeRequest r = ((p.storeLeft r n (Shot.storeCompleted r.done) false r.done).autoRelease n).choose := by
  have hrecords : changeAt n
      (fun y => { y with progress := { y.progress with
        storeCount := y.progress.storeCount + 1, sectorsStored := r.done, pendingStore := none } })
      (changeAt n (fun y => { y with state := .stored }) p.sht.records) = changeAt n (Shot.storeCompleted r.done) p.sht.records :=
    changeAt_changeAt n (by exact fun _ => rfl) _
  unfold Part.completeRequest
  simp only [hw]
  refine congrArg (fun q : Part => (Part.autoRelease n q).choose) ?_
  unfold Part.requestDone Part.dropRequest Part.setRun Request.shot
  rw [hw]
  simp only [Part.setShotState, Part.modProgress, Part.modShot_eq, hrecords, Part.statusDirty_eq, Part.emit_eq]
  rfl

theorem Part.completeRequest_of_transfer {r : Request} (hw : r.work.isStore = false) (p : Part) :
    p.completeRequest r =
      Part.choose
        (Part.emit .cardRequestDone 0 [natWord r.id, flagWord false, natWord r.done]
          (Part.statusDirty
            { p with
              cde := { p.cde with requests := withoutRequest r.id p.cde.requests, run := none, lastClass := .transfer } })) := by
  have hclass : r.work.cardClass = .transfer ∧ r.shot = 0 := by
    unfold Request.shot
    cases hwork : r.work with
    | store n es => rw [hwork] at hw; cases hw
    | write | read => exact ⟨rfl, rfl⟩
  have hdone : Part.completeRequest r p =
      Part.choose
        { ((p.dropRequest r.id).setRun none).requestDone r false r.done with
          cde := { (((p.dropRequest r.id).setRun none).requestDone r false r.done).cde with lastClass := r.work.cardClass } } := by
    unfold Part.completeRequest
    cases hwork : r.work with
    | store n es => rw [hwork] at hw; cases hw
    | write | read => rfl
  rw [hdone]
  refine congrArg Part.choose ?_
  unfold Part.requestDone Part.dropRequest Part.setRun
  rw [hclass.1, hclass.2]
  simp only [Part.statusDirty_eq, Part.emit_eq]
  rfl

/-- A request marked for cancellation leaves the queue at the end of its run (R203). -/
theorem Part.leaves_of_cancelled {r : Request} {p : Part} (done : Nat) :
    Leaves p (Part.cancelRequest r done (p.setRun none)).choose r true done := by
  cases hw : r.work with
  | store n es =>
    rw [Part.cancelRequest_of_store hw]
    exact Part.leaves_of_store hw (f := Shot.storeCancelled) (Shot.leftBy_storeCancelled done) p
  | write | read =>
    rw [Part.cancelRequest_of_transfer (by rw [hw]; rfl)]
    exact Part.leaves_of_transfer (by rw [hw]; rfl) true done p

/-! ## The confirmation of a run (R197) -/

/-- The records once a run of a STORE is confirmed: its shot's sectors stored. -/
def storedSectors (r : Request) (done : Nat) (l : List Shot) : List Shot :=
  match r.work with
  | .store n _ => changeAt n (fun y => { y with progress := { y.progress with sectorsStored := done } }) l
  | _ => l

/-- The part with a run's progress taken, and no run. -/
def Part.runConfirmed (r : Request) (run : Run) (p : Part) : Part :=
  { p with
    sht := { p.sht with records := storedSectors r (r.done + run.count) p.sht.records }
    cde := { p.cde with requests := withRequest r.id (fun x => x.advance run) p.cde.requests, run := none } }

/-- A request with a run's progress, in the extent it runs over. -/
def Request.confirmed (r : Request) (e : Nat × Nat) (run : Run) : Request :=
  { r with
    done := r.done + run.count
    extent := if e.2 ≤ r.sector + run.count then r.extent + 1 else r.extent
    sector := if e.2 ≤ r.sector + run.count then 0 else r.sector + run.count
    crc := if r.work.isStore then run.crc else r.crc, retries := 0 }

theorem Request.advance_eq {r : Request} {e : Nat × Nat} (he : r.work.extents[r.extent]? = some e) (run : Run) :
    r.advance run = r.confirmed e run := by
  unfold Request.advance Request.confirmed
  rw [he]
  simp only [Nat.ble_eq]

theorem withoutRequest_withRequest (id : Nat) {f : Request → Request} (hf : ∀ r, (f r).id = r.id) (l : List Request) :
    withoutRequest id (withRequest id f l) = withoutRequest id l := by
  unfold withoutRequest withRequest
  induction l with
  | nil => rfl
  | cons r l ih =>
    rw [List.map_cons, List.filter_cons, List.filter_cons, ih]
    by_cases h : r.id = id
    · simp [h, hf]
    · simp [h]

section Confirm
variable {r : Request} {run : Run} {p : Part} (hrun : p.cde.run = some run) (hactive : p.cde.activeRequest = some r)
  (hres : p.cpa.resetting = none)

include hrun hactive hres in
theorem Part.confirmRun_eq :
    p.confirmRun =
      if (r.advance run).work.extents.length ≤ (r.advance run).extent then (p.runConfirmed r run).completeRequest (r.advance run)
      else if (r.advance run).cancel then
        ((p.runConfirmed r run).cancelRequest (r.advance run) (r.advance run).done).choose
      else (p.runConfirmed r run).startRun r.id := by
  have hq : (match r.work with
      | .store n _ => Part.modProgress n (fun g => { g with sectorsStored := (r.advance run).done })
        ((p.setRun none).modRequest r.id fun x => x.advance run)
      | _ => (p.setRun none).modRequest r.id fun x => x.advance run) = p.runConfirmed r run := by
    unfold Part.runConfirmed storedSectors
    cases r.work <;> rfl
  have hstop : (p.runConfirmed r run).cdeStopping = false := by
    unfold Part.cdeStopping
    rw [show (p.runConfirmed r run).cpa.resetting = none from hres]
  unfold Part.confirmRun
  simp only [hrun, hactive]
  cases hw : r.work <;>
    (rw [hw] at hq
     simp only at hq ⊢
     simp only [hq, hstop, Bool.false_eq_true, if_false])

/-- A run's progress taken, then the end of a STORE: the last of the two says what its shot's record is. -/
theorem Part.storeLeft_runConfirmed {n : Word} {es : List (Nat × Nat)} (hw : r.work = .store n es) (f : Shot → Shot)
    (cancelled : Bool) (done : Nat) (p : Part) :
    (p.runConfirmed r run).storeLeft (r.advance run) n f cancelled done =
      p.storeLeft (r.advance run) n (fun y => f { y with progress := { y.progress with sectorsStored := r.done + run.count } })
        cancelled done := by
  have hrecords : changeAt n f (storedSectors r (r.done + run.count) p.sht.records) =
      changeAt n (fun y => f { y with progress := { y.progress with sectorsStored := r.done + run.count } }) p.sht.records := by
    unfold storedSectors
    rw [hw]
    exact changeAt_changeAt n (by exact fun _ => rfl) _
  have hrequests : withoutRequest (r.advance run).id (withRequest r.id (fun x => x.advance run) p.cde.requests) =
      withoutRequest (r.advance run).id p.cde.requests := withoutRequest_withRequest r.id (by exact fun _ => rfl) _
  unfold Part.storeLeft Part.runConfirmed
  simp only [hrecords, hrequests]

theorem Part.runConfirmed_of_transfer (hw : r.work.isStore = false) (p : Part) :
    p.runConfirmed r run =
      { p with cde := { p.cde with requests := withRequest r.id (fun x => x.advance run) p.cde.requests, run := none } } := by
  unfold Part.runConfirmed storedSectors
  cases hwork : r.work with
  | store n es => rw [hwork] at hw; cases hw
  | write | read => rfl

include hrun hactive hres

theorem Part.confirmRun_of_last (h : (r.advance run).work.extents.length ≤ (r.advance run).extent) :
    Leaves p p.confirmRun (r.advance run) false (r.advance run).done := by
  rw [Part.confirmRun_eq hrun hactive hres, if_pos h]
  cases hw : r.work with
  | store n es =>
    rw [Part.completeRequest_of_store (r := r.advance run) hw, Part.storeLeft_runConfirmed hw]
    exact Part.leaves_of_store (r := r.advance run) hw (fun y => (Shot.leftBy_storeCompleted _ _).stored) p
  | write | read =>
    have hstore : r.work.isStore = false := by rw [hw]; rfl
    rw [Part.completeRequest_of_transfer (r := r.advance run) hstore, Part.runConfirmed_of_transfer hstore]
    have hrequests : withoutRequest (r.advance run).id (withRequest r.id (fun x => x.advance run) p.cde.requests) =
      withoutRequest (r.advance run).id p.cde.requests := withoutRequest_withRequest r.id (by exact fun _ => rfl) _
    simp only [hrequests]
    exact Part.leaves_of_transfer (r := r.advance run) hstore false _ p

variable (h : ¬(r.advance run).work.extents.length ≤ (r.advance run).extent)
include h

theorem Part.confirmRun_of_cancelled (hcancel : r.cancel = true) :
    Leaves p p.confirmRun (r.advance run) true (r.advance run).done := by
  rw [Part.confirmRun_eq hrun hactive hres, if_neg h, if_pos (show (r.advance run).cancel = true from hcancel)]
  cases hw : r.work with
  | store n es =>
    have hsame : (p.runConfirmed r run).storeCancelled (r.advance run) n (r.advance run).done =
        (p.runConfirmed r run).storeLeft (r.advance run) n Shot.storeCancelled true (r.advance run).done := rfl
    rw [Part.cancelRequest_of_store (r := r.advance run) hw, hsame, Part.storeLeft_runConfirmed hw]
    exact Part.leaves_of_store (r := r.advance run) hw (fun y => (Shot.leftBy_storeCancelled (r.advance run).done _).stored) p
  | write | read =>
    have hstore : r.work.isStore = false := by rw [hw]; rfl
    rw [Part.cancelRequest_of_transfer (r := r.advance run) hstore, Part.runConfirmed_of_transfer hstore]
    have hrequests : (withRequest r.id (fun x => x.advance run) p.cde.requests).filter (fun x => decide (x.id ≠ (r.advance run).id)) =
      withoutRequest (r.advance run).id p.cde.requests := withoutRequest_withRequest r.id (by exact fun _ => rfl) _
    simp only [hrequests]
    exact Part.leaves_of_transfer (r := r.advance run) hstore true _ p

/-- The next run begins after the one confirmed. -/
theorem Part.confirmRun_of_next (hcancel : r.cancel = false) (hr : p.cde.requests.find? (fun x => decide (x.id = r.id)) = some r) :
    p.confirmRun.cde.requests.find? (fun x => decide (x.id = r.id)) = some (r.advance run) ∧
      ∃ again, p.confirmRun.cde.run = some again ∧
        Starts p.clock.time p.geo.frameBytes p.shotBase r.work (r.advance run).position (r.advance run).done (r.advance run).crc again := by
  have hfound := find?_withRequest (f := fun x => x.advance run) hr fun _ => rfl
  have hbase : (p.runConfirmed r run).shotBase = p.shotBase := by
    unfold Part.runConfirmed storedSectors
    cases r.work with
    | store n es =>
      exact Part.shotBase_changeAt (f := fun y => { y with progress := { y.progress with sectorsStored := r.done + run.count } })
        (fun _ => rfl) (fun _ => rfl) p _
    | write | read => rfl
  have hstart : (p.runConfirmed r run).startRun r.id =
      { p.runConfirmed r run with
        cde := { (p.runConfirmed r run).cde with run := some ((p.runConfirmed r run).begunRun (r.advance run)) } } :=
    Part.startRun_eq (r := r.advance run) hfound
  have hstarts := Part.starts_begunRun (r.advance run) (p.runConfirmed r run)
  rw [hbase] at hstarts
  rw [Part.confirmRun_eq hrun hactive hres, if_neg h,
    if_neg (show ¬(r.advance run).cancel = true by rw [show (r.advance run).cancel = false from hcancel]; decide), hstart]
  exact ⟨hfound, _, rfl, hstarts⟩

end Confirm

/-! ## The exchange's rows (R188) -/

theorem Part.isRead_iff {r : Request} {p : Part} (hactive : p.cde.activeRequest = some r) :
    p.isRead = true ↔ ∃ a n buffer, r.work = .read a n buffer := by
  unfold Part.isRead
  rw [hactive]
  cases hw : r.work <;> simp [hw]

theorem Run.timerDue_of_due {run : Run} {timer : Timer} {now : Word} (htimer : run.timer = some timer) (hdue : timer.due now = true) :
    timerDue run.timer now = true := by
  rw [htimer]
  exact hdue

section Exchange
variable {run : Run} {p : Part} (hrun : p.cde.run = some run)
include hrun

theorem Part.cardResponse_of_run (hb : p.cde.bringup = none) (x : CardReply) : p.cardResponse x = p.runResponse run (replyGood x) := by
  unfold Part.cardResponse
  rw [hb, hrun]

variable {timer : Timer} (htimer : run.timer = some timer) (hdue : timer.due p.clock.time = true)
include htimer hdue

theorem Part.cardResponseTimeout_of_waiting (hb : p.cde.bringup = none)
    (hphase : run.phase = .startCommand ∨ run.phase = .stopCommand ∨ ∃ k, run.phase = .blockStatus k) :
    p.cardResponseTimeout = p.failRun .responseTimeout run := by
  have hdue' := Run.timerDue_of_due htimer hdue
  unfold Part.cardResponseTimeout
  rw [hb, hrun]
  refine (if_pos hdue').trans ?_
  rcases hphase with h | h | ⟨k, h⟩ <;> rw [h]

theorem Part.cardResponseTimeout_of_cleanup (hb : p.cde.bringup = none) {cause : Cause} (hphase : run.phase = .cleanupCommand cause) :
    p.cardResponseTimeout = p.runPhase (.cleanupBusy cause) 500000 run := by
  have hdue' := Run.timerDue_of_due htimer hdue
  unfold Part.cardResponseTimeout
  rw [hb, hrun]
  refine (if_pos hdue').trans ?_
  rw [hphase]

theorem Part.cardBusyTimeout_of_busy (hphase : run.phase = .stopBusy ∨ ∃ k, run.phase = .blockBusy k) :
    p.cardBusyTimeout = p.failRun .busyTimeout run := by
  have hdue' := Run.timerDue_of_due htimer hdue
  unfold Part.cardBusyTimeout
  rw [hrun]
  refine (if_pos hdue').trans ?_
  rcases hphase with h | ⟨k, h⟩ <;> rw [h]

theorem Part.cardBusyTimeout_of_cleanup {cause : Cause} (hphase : run.phase = .cleanupBusy cause) :
    p.cardBusyTimeout = p.setRun (some { run with phase := .failed cause, timer := none }) := by
  have hdue' := Run.timerDue_of_due htimer hdue
  unfold Part.cardBusyTimeout
  rw [hrun]
  refine (if_pos hdue').trans ?_
  simp only [hphase]

theorem Part.cardDataTimeout_of_block {k : Nat} (hphase : run.phase = .readBlock k) :
    p.cardDataTimeout = p.failRun .dataTimeout run := by
  have hdue' := Run.timerDue_of_due htimer hdue
  unfold Part.cardDataTimeout
  rw [hrun]
  simp only [hphase]
  exact if_pos hdue'

end Exchange

/-! ## A run's response, data status, busy and block, by its phase (R188, R199) -/

section Phases
variable {run : Run} {p : Part}

theorem Part.runResponse_of_start (h : run.phase = .startCommand) :
    p.runResponse run true = p.runPhase (if p.isRead then .readBlock 0 else .blockStatus 0) 100000 run ∧
      p.runResponse run false = p.failRun .responseError run := by
  unfold Part.runResponse
  rw [h]
  refine ⟨?_, rfl⟩
  cases p.isRead <;> rfl

theorem Part.runResponse_of_stop (h : run.phase = .stopCommand) :
    p.runResponse run true =
        (if p.isRead then
          (if p.cde.bufWrites = [] then (p.setRun (some { run with phase := .storing, timer := none })).confirmRun
            else p.setRun (some { run with phase := .storing, timer := none }))
          else p.runPhase .stopBusy 500000 run) ∧
      p.runResponse run false = p.failRun .responseError run := by
  unfold Part.runResponse
  rw [h]
  exact ⟨rfl, rfl⟩

theorem Part.runResponse_of_cleanup {cause : Cause} (h : run.phase = .cleanupCommand cause) (good : Bool) :
    p.runResponse run good = p.runPhase (.cleanupBusy cause) 500000 run := by
  unfold Part.runResponse
  rw [h]

variable (hrun : p.cde.run = some run)
include hrun

theorem Part.cardDataStatus_of_block {k : Nat} (h : run.phase = .blockStatus k) :
    p.cardDataStatus .accepted = p.runPhase (.blockBusy k) 500000 run ∧
      p.cardDataStatus .crcError = p.failRun .dataCrc run ∧ p.cardDataStatus .writeError = p.failRun .writeError run := by
  unfold Part.cardDataStatus
  rw [hrun]
  simp only [h]
  exact ⟨trivial, trivial, trivial⟩

theorem Part.cardBusyEnd_of_block {k : Nat} (h : run.phase = .blockBusy k) :
    p.cardBusyEnd = if k + 1 < run.count then p.runPhase (.blockStatus (k + 1)) 100000 run else p.runCommand .stopCommand run := by
  unfold Part.cardBusyEnd
  rw [hrun]
  simp only [h]

theorem Part.cardBusyEnd_of_stop (h : run.phase = .stopBusy) : p.cardBusyEnd = p.confirmRun := by
  unfold Part.cardBusyEnd
  rw [hrun]
  simp only [h]

theorem Part.cardBusyEnd_of_cleanup {cause : Cause} (h : run.phase = .cleanupBusy cause) :
    p.cardBusyEnd = p.setRun (some { run with phase := .failed cause, timer := none }) := by
  unfold Part.cardBusyEnd
  rw [hrun]
  simp only [h]

variable {r : Request} (hactive : p.cde.activeRequest = some r)
include hactive

theorem Part.cardReadBlock_of_bad {k : Nat} (h : run.phase = .readBlock k) (data : List Byte) :
    p.cardReadBlock false data = p.failRun .dataCrc run := by
  unfold Part.cardReadBlock
  rw [hrun, hactive]
  simp only [h]
  rfl

theorem Part.cardReadBlock_of_good {k : Nat} (h : run.phase = .readBlock k) (data : List Byte) {a n buffer : Nat}
    (hw : r.work = .read a n buffer) :
    p.cardReadBlock true data =
      { p with
        cde :=
          { p.cde with
            bufWrites := p.cde.bufWrites ++ cutBursts 4 (buffer + (r.done + k) * 512) data
            run :=
              some
                { run with
                  phase := if k + 1 < run.count then .readBlock (k + 1) else .stopCommand
                  timer := some ⟨p.clock.time, 100000⟩ } } } := by
  have haddr : r.blockAddr k = buffer + (r.done + k) * 512 := by
    unfold Request.blockAddr
    rw [hw]
  unfold Part.cardReadBlock
  rw [hrun, hactive]
  simp only [h, if_true, haddr]
  by_cases hk : k + 1 < run.count
  · rw [if_pos hk, if_pos hk]
    rfl
  · rw [if_neg hk, if_neg hk]
    rfl

/-! ## An attempt that has failed (R200, R203) -/

variable (hres : p.cpa.resetting = none) {cause : Cause} (hphase : run.phase = .failed cause)
include hres hphase

theorem Part.runAttemptFailed_eq :
    p.runAttemptFailed =
      if r.cancel then ((p.setRun none).cancelRequest r r.done).choose
      else if r.retries < 3 then ((p.setRun none).modRequest r.id fun x => { x with retries := x.retries + 1 }).startRun r.id
      else p.haltRequest r.id cause := by
  have hstop : p.cdeStopping = false := by unfold Part.cdeStopping; rw [hres]
  unfold Part.runAttemptFailed
  rw [hrun, hactive]
  simp only [hphase, hstop]
  rfl

end Phases

/-! ## The memory bursts of a run (R197, R199) -/

theorem Memory.readBytes_length (m : Memory) (x n : Nat) : (m.readBytes x n).length = n := by
  induction n generalizing x with
  | zero => rfl
  | succ n ih => exact congrArg (· + 1) (ih (x + 1))

section Bursts
variable {run : Run} {r : Request} {p : Part} (hrun : p.cde.run = some run)
include hrun

theorem Part.bufferWritten_of_last (hphase : run.phase = .storing) (hlen : p.cde.bufWrites.length = 1) :
    p.bufferWritten = Part.confirmRun { p with cde := { p.cde with bufWrites := p.cde.bufWrites.tail } } := by
  have htail : p.cde.bufWrites.tail = [] := List.length_eq_zero_iff.1 (by rw [List.length_tail, hlen])
  unfold Part.bufferWritten
  simp only [hrun]
  exact if_pos ⟨hphase, htail⟩

theorem Part.bufferWritten_of_more (h : run.phase ≠ .storing ∨ 2 ≤ p.cde.bufWrites.length) :
    p.bufferWritten = { p with cde := { p.cde with bufWrites := p.cde.bufWrites.tail } } := by
  unfold Part.bufferWritten
  simp only [hrun]
  refine if_neg ?_
  rintro ⟨hphase, htail⟩
  have hlen := congrArg List.length htail
  rw [List.length_tail, List.length_nil] at hlen
  rcases h with h | h
  · exact h hphase
  · omega

variable (hactive : p.cde.activeRequest = some r) {addr : Nat} (hphase : run.phase = .assemble) (haddr : run.source = addr)
include hactive hphase haddr

theorem Part.runRead_eq (bytes : List Byte) :
    p.runRead addr bytes =
      if run.source + bytes.length < run.sourceEnd then
        p.setRun (some { run with source := run.source + bytes.length, got := run.got ++ bytes })
      else p.runAssembled r { run with source := run.source + bytes.length, got := run.got ++ bytes } := by
  unfold Part.runRead
  rw [hrun, hactive]
  exact if_pos ⟨hphase, haddr⟩

end Bursts

/-- Settles O46: the run by its phase; its confirmation and its failed attempt by what becomes of the request. -/
theorem runsFollowTheCardExchange : Obligations.RunsFollowTheCardExchange := by
  intro run r s hrun hactive hb now cde frame goes reads starts leaves alone confirms
  have hrow {i : Instr} {f : Part → Part} {q : Part} (h : exec i s = .next { s with part := f s.part }) (hq : f s.part = q) :
      exec i s = .next { s with part := q } := h.trans (State.next_part_congr hq)
  have hread : s.part.isRead = true ↔ reads := Part.isRead_iff hactive
  have hstarts {x : Request} {again : Run} (h : Starts now frame s.part.shotBase x.work x.position x.done x.crc again) : starts x again :=
    ⟨h.first, h.count, h.got, h.write,
      fun n es y hw hy => by rw [← Part.shotBase_eq hy]; exact h.store n es hw, fun hlt => (h.memory hlt).1, h.ready⟩
  have hleaves {i : Instr} {mem : Memory} {q : Part} {cancelled : Bool} {done : Nat} (port : Port) (w : List (Nat × List Byte))
      (run' : Option Run) (h : exec i s = .next ⟨s.pending, mem, q⟩)
      (hq : Leaves { s.part with port := port, cde := { cde with bufWrites := w, run := run' } } q r cancelled done) :
      leaves i mem { s.part with port := port, cde := { cde with bufWrites := w } } cancelled done := by
    refine ⟨_, h, rfl, rfl, hq.lastClass, hq.transfer, hq.ids, hq.event, fun n es x hw hx halone => ?_⟩
    obtain ⟨hkept, hreleased⟩ := hq.shots n es x hw hx halone
    refine ⟨fun hc hstate => ?_, fun hc hx' => ?_, hreleased⟩
    · obtain ⟨y, hy, hleft⟩ := hkept (.inl ⟨hc, hstate⟩)
      exact ⟨y, hy, (hleft.gone hc hstate).1, (hleft.gone hc hstate).2, hleft.pendingStore⟩
    · obtain ⟨y, hy, hleft⟩ := hkept (.inr ⟨hc, hx'⟩)
      obtain ⟨hstate, hcount, hsectors⟩ := hleft.kept hc
      exact ⟨y, hy, hstate, hcount, hsectors, hleft.pendingStore⟩
  have hconfirms {i : Instr} {mem : Memory} (port : Port) (w : List (Nat × List Byte)) (run' : Run) (hcount : run'.count = run.count)
      (hcrc : run'.crc = run.crc)
      (h : exec i s = .next
        ⟨s.pending, mem, Part.confirmRun { s.part with port := port, cde := { cde with bufWrites := w, run := some run' } }⟩) :
      confirms i mem { s.part with port := port, cde := { cde with bufWrites := w } } := by
    intro e hres he halone past x
    have hx : r.advance run' = x := by
      rw [Request.advance_eq he]
      unfold Request.confirmed
      rw [hcount, hcrc]
    have hlast : x.work.extents.length ≤ x.extent ↔ past ∧ r.work.extents.length ≤ r.extent + 1 := by
      have hlt : r.extent < r.work.extents.length := (List.getElem?_eq_some_iff.1 he).1
      show r.work.extents.length ≤ (if past then r.extent + 1 else r.extent) ↔ _
      by_cases hpast : past
      · rw [if_pos hpast]
        exact ⟨fun h => ⟨hpast, h⟩, And.right⟩
      · rw [if_neg hpast]
        exact ⟨fun h => absurd h (Nat.not_le.2 hlt), fun h => absurd h.1 hpast⟩
    let p : Part := { s.part with port := port, cde := { cde with bufWrites := w, run := some run' } }
    refine ⟨fun hmore => ?_, fun hpast hend => hleaves port w (some run') h ?_⟩
    · have hnext : ¬(r.advance run').work.extents.length ≤ (r.advance run').extent := by
        rw [hx, hlast]
        rintro ⟨hpast, hend⟩
        exact hmore.elim (fun h => h hpast) fun h => absurd hend (Nat.not_le.2 h)
      refine ⟨fun hcancel => ?_, fun hcancel => hleaves port w (some run') h ?_⟩
      · obtain ⟨hfound, again, hagain, hst⟩ := Part.confirmRun_of_next (p := p) rfl hactive hres hnext hcancel (find?_of_filter halone)
        rw [hx] at hfound hst
        exact ⟨_, again, h, rfl, rfl, hfound, hagain, hstarts hst⟩
      · have hleft := Part.confirmRun_of_cancelled (p := p) rfl hactive hres hnext hcancel
        rw [hx] at hleft
        exact ⟨hleft.lastClass, hleft.transfer, hleft.ids, hleft.event, hleft.shots⟩
    · have hleft := Part.confirmRun_of_last (p := p) rfl hactive hres (by rw [hx]; exact hlast.2 ⟨hpast, hend⟩)
      rw [hx] at hleft
      exact ⟨hleft.lastClass, hleft.transfer, hleft.ids, hleft.event, hleft.shots⟩
  clear_value starts leaves confirms
  refine ⟨fun hphase => ?start, fun k hphase => ?status, fun k hphase => ?busy, fun k data hphase => ?block, fun timer htimer hdue => ?timeouts,
    fun cause response hphase => ?cleanup, fun cause hphase => ?cleaned, fun hphase => ?stop, fun hphase => ?stopped,
    fun cause hphase hres halone => ?failed, fun b hbusy hwho => ?burst, fun hlist => ?request⟩
  case start =>
    obtain ⟨hgood, hbad⟩ := Part.runResponse_of_start (p := s.part) hphase
    refine ⟨fun echo range powered n => ⟨fun h => ?_, fun h => ?_⟩, ?_⟩
    · refine hrow (f := Part.cardResponse _) rfl ((Part.cardResponse_of_run hrun hb _).trans (hgood.trans ?_))
      rw [if_pos (hread.2 h)]
      rfl
    · refine hrow (f := Part.cardResponse _) rfl ((Part.cardResponse_of_run hrun hb _).trans (hgood.trans ?_))
      rw [if_neg (mt hread.1 h)]
      rfl
    · exact hrow (f := Part.cardResponse _) rfl ((Part.cardResponse_of_run hrun hb _).trans hbad)
  case status =>
    obtain ⟨haccepted, hcrc, hwrite⟩ := Part.cardDataStatus_of_block hrun hphase
    exact ⟨hrow (f := Part.cardDataStatus _) rfl haccepted, hrow (f := Part.cardDataStatus _) rfl hcrc,
      hrow (f := Part.cardDataStatus _) rfl hwrite⟩
  case busy =>
    have hend := Part.cardBusyEnd_of_block hrun hphase
    exact ⟨fun h => hrow (f := Part.cardBusyEnd) rfl (hend.trans (if_pos h)),
      fun h => hrow (f := Part.cardBusyEnd) rfl (hend.trans (if_neg (Nat.not_lt.2 h)))⟩
  case block =>
    exact ⟨hrow (f := Part.cardReadBlock _ _) rfl (Part.cardReadBlock_of_bad hrun hactive hphase data),
      fun a n buffer hw => hrow (f := Part.cardReadBlock _ _) rfl (Part.cardReadBlock_of_good hrun hactive hphase data hw)⟩
  case timeouts =>
    exact ⟨fun h => hrow (f := Part.cardResponseTimeout) rfl (Part.cardResponseTimeout_of_waiting hrun htimer hdue hb h),
      fun h => hrow (f := Part.cardBusyTimeout) rfl (Part.cardBusyTimeout_of_busy hrun htimer hdue h),
      fun k h => hrow (f := Part.cardDataTimeout) rfl (Part.cardDataTimeout_of_block hrun htimer hdue h),
      fun cause h => hrow (f := Part.cardResponseTimeout) rfl (Part.cardResponseTimeout_of_cleanup hrun htimer hdue hb h),
      fun cause h => hrow (f := Part.cardBusyTimeout) rfl (Part.cardBusyTimeout_of_cleanup hrun htimer hdue h)⟩
  case cleanup =>
    exact hrow (f := Part.cardResponse _) rfl ((Part.cardResponse_of_run hrun hb _).trans (Part.runResponse_of_cleanup hphase _))
  case cleaned => exact hrow (f := Part.cardBusyEnd) rfl (Part.cardBusyEnd_of_cleanup hrun hphase)
  case stop =>
    obtain ⟨hgood, hbad⟩ := Part.runResponse_of_stop (p := s.part) hphase
    refine ⟨fun echo range powered n => ?_, hrow (f := Part.cardResponse _) rfl ((Part.cardResponse_of_run hrun hb _).trans hbad)⟩
    intro good
    have hresponse {q : Part} (hq : s.part.runResponse run true = q) : exec good s = .next { s with part := q } :=
      hrow (f := Part.cardResponse _) rfl ((Part.cardResponse_of_run hrun hb _).trans hq)
    refine ⟨fun h => hresponse (hgood.trans (if_neg (mt hread.1 h))),
      fun h hwrites => hresponse (hgood.trans ((if_pos (hread.2 h)).trans (if_neg hwrites))), fun h hwrites => ?_⟩
    exact hconfirms s.part.port cde.bufWrites { run with phase := .storing, timer := none } rfl rfl
      (hresponse (hgood.trans ((if_pos (hread.2 h)).trans (if_pos hwrites))))
  case stopped =>
    have hsame : ({ s.part with port := s.part.port, cde := { cde with bufWrites := cde.bufWrites, run := some run } } : Part) = s.part := by
      show ({ s.part with cde := { s.part.cde with run := some run } } : Part) = s.part
      rw [← hrun]
    refine hconfirms s.part.port cde.bufWrites run rfl rfl ?_
    rw [hsame]
    exact hrow (f := Part.cardBusyEnd) rfl (Part.cardBusyEnd_of_stop hrun hphase)
  case failed =>
    have hfailed := Part.runAttemptFailed_eq hrun hactive hres hphase
    have hr := find?_of_filter halone
    have hexec {q : Part} (hq : s.part.runAttemptFailed = q) : exec .runAttemptFailed s = .next { s with part := q } :=
      hrow (f := Part.runAttemptFailed) rfl hq
    refine ⟨fun hcancel hfew => ?_, fun hcancel hmany => ?_, fun hcancel => ?_⟩
    · have hfound := find?_withRequest (f := fun x => { x with retries := x.retries + 1 }) hr fun _ => rfl
      let again : Part :=
        { s.part with
          cde := { cde with requests := withRequest r.id (fun x => { x with retries := x.retries + 1 }) cde.requests, run := none } }
      have hstart : again.startRun r.id =
          { again with cde := { again.cde with run := some (again.begunRun { r with retries := r.retries + 1 }) } } :=
        Part.startRun_eq (r := { r with retries := r.retries + 1 }) hfound
      have hretried := hexec (hfailed.trans ((if_neg (by rw [hcancel]; decide)).trans ((if_pos hfew).trans hstart)))
      exact ⟨_, _, _, hretried, rfl, rfl, rfl, hfound, rfl, rfl, hstarts (Part.starts_begunRun { r with retries := r.retries + 1 } again)⟩
    · have hhalted := hexec (hfailed.trans ((if_neg (by rw [hcancel]; decide)).trans ((if_neg (Nat.not_lt.2 hmany)).trans
        (Part.haltRequest_eq hr cause))))
      refine ⟨_, _, hhalted, rfl, rfl, rfl,
        find?_withRequest (f := fun x => { x with state := .halted, cause := some cause }) hr fun _ => rfl, rfl, ?_, rfl,
        fun n es y hw hy => ?_, fun hw => ?_⟩
      · rw [Part.emit_eq, Part.statusDirty_eq]
      · show (leftStoring r s.part.sht.records).find? _ = _
        unfold leftStoring
        rw [hw]
        refine (changedAt_changeAt (f := fun y => if y.state = .storing then { y with state := .developed } else y) (fun y => ?_) hy).changed
        split <;> rfl
      · show ({ s.part.sht with records := leftStoring r s.part.sht.records } : Sht) = s.part.sht
        unfold leftStoring
        cases hwork : r.work with
        | store n es => rw [hwork] at hw; cases hw
        | write | read => rfl
    · exact hleaves s.part.port cde.bufWrites cde.run (hexec (hfailed.trans (if_pos hcancel))) (Part.leaves_of_cancelled (p := s.part) r.done)
  case burst =>
    intro p mem written
    have hburst : exec .frameBurstEnd s = .next ⟨s.pending, b.memory s.mem, p.cdeBurstDone b.write b.list b.addr (b.read s.mem)⟩ := by
      rw [exec_frameBurstEnd hbusy, Part.burstDone_cde _ hwho]
      rfl
    refine ⟨fun hwrite => ?_, fun hwrite hlist hphase haddr => ?_⟩
    · have hmemory : b.memory s.mem = mem := if_pos hwrite
      have hend : exec .frameBurstEnd s = .next ⟨s.pending, mem, p.bufferWritten⟩ := by
        rw [hburst, hmemory, hwrite]
        rfl
      refine ⟨fun hphase hlen => ?_, fun h => ?_⟩
      · have hsame : written = { p with cde := { cde with bufWrites := cde.bufWrites.tail, run := some run } } := by
          rw [← hrun]
        refine hconfirms p.port cde.bufWrites.tail run rfl rfl ?_
        rw [hend, Part.bufferWritten_of_last (p := p) hrun hphase hlen]
        exact congrArg (fun q : Part => (.next ⟨s.pending, mem, q.confirmRun⟩ : Host.Outcome State Fault Refusal)) hsame
      · rw [hend, Part.bufferWritten_of_more (p := p) hrun h]
    · intro got goesOn read
      have hbytes : b.read s.mem = s.mem.readBytes b.addr b.length := if_neg (by rw [hwrite]; decide)
      have hlength : (s.mem.readBytes b.addr b.length).length = b.length := Memory.readBytes_length _ _ _
      have hend : exec .frameBurstEnd s = .next ⟨s.pending, s.mem,
          if read.source < run.sourceEnd then p.setRun (some read) else p.runAssembled r read⟩ := by
        rw [hburst, hbytes, hwrite, hlist, show b.memory s.mem = s.mem from if_neg (by rw [hwrite]; decide)]
        have hread := Part.runRead_eq (p := p) hrun hactive hphase haddr (s.mem.readBytes b.addr b.length)
        rw [hlength] at hread
        exact congrArg (fun q : Part => (.next ⟨s.pending, s.mem, q⟩ : Host.Outcome State Fault Refusal)) hread
      refine ⟨fun hmore => ?_, fun hdone => ?_⟩
      · show exec .frameBurstEnd s = _
        rw [hend, if_pos hmore]
        rfl
      · intro sent
        have hsent {x : Run} (hx : ({ p.assemble r read with phase := .startCommand, timer := some ⟨now, 100000⟩ } : Run) = x) : goesOn x := by
          show exec .frameBurstEnd s = _
          rw [hend, if_neg (Nat.not_lt.2 hdone), ← hx]
          rfl
        refine ⟨fun a n buffer hw => hsent ?_, fun n es hw => ?_⟩
        · rw [Part.assemble_of_transfer (by rw [hw]; rfl)]
        · intro body crc last room
          refine hsent ?_
          unfold Part.assemble
          rw [hw]
          simp only [decide_eq_true_eq]
          rfl
  case request =>
    refine ⟨fun addr bytes rest hwrites => ?_, fun hwrites hphase hmore => ?_⟩
    · show s.part.cde.request = _
      unfold Cde.request
      rw [hlist, hwrites]
      rfl
    · show s.part.cde.request = _
      unfold Cde.request
      rw [hlist, hwrites, hrun]
      exact if_pos ⟨hphase, hmore⟩

end Sys2Proof.Machine
end

section
/-! PROOFS. Reads of the VIEW window (R172 to R180), the preview's pixels (R174, R176), and the arithmetic of the pass (R154 to R163). -/

namespace Sys2Proof.Machine

/-! ## The sweep over the gaps (R155) -/

/-- The gap list in order, each gap not empty. -/
def GapsInOrder (gaps : List (Nat × Nat)) : Prop := (∀ g ∈ gaps, g.1 < g.2) ∧ gaps.Pairwise fun g h => g.2 ≤ h.1

/-- A sweep at a position moves over exactly the gaps that begin at or before it. -/
structure Skips (pos : Nat) (gaps : List (Nat × Nat)) (q : Nat × List (Nat × Nat)) : Prop where
  forward : pos ≤ q.1
  ahead : ∀ g ∈ q.2, q.1 < g.1
  covered : ∀ o, pos ≤ o → o < q.1 → ∃ g ∈ gaps, g.1 ≤ o ∧ o < g.2
  past : ∃ past, gaps = past ++ q.2 ∧ ∀ g ∈ past, g.2 ≤ q.1

theorem skipGaps_skips {gaps : List (Nat × Nat)} (h : GapsInOrder gaps) (pos : Nat) : Skips pos gaps (skipGaps pos gaps) := by
  induction gaps generalizing pos with
  | nil => exact ⟨Nat.le_refl _, fun g hg => absurd hg List.not_mem_nil, fun o h h' => absurd h' (Nat.not_lt.2 h), [], rfl,
      fun g hg => absurd hg List.not_mem_nil⟩
  | cons g gs ih =>
    obtain ⟨a, b⟩ := g
    obtain ⟨hne, horder⟩ := h
    obtain ⟨hafter, hrest⟩ := List.pairwise_cons.1 horder
    have hab : a < b := hne (a, b) List.mem_cons_self
    unfold skipGaps
    by_cases ha : a ≤ pos
    · rw [if_pos ha]
      obtain ⟨hforward, hahead, hcovered, past, hpast, hdone⟩ := ih ⟨fun g hg => hne g (List.mem_cons_of_mem _ hg), hrest⟩ (max pos b)
      refine ⟨by omega, hahead, fun o hlow hhigh => ?_, (a, b) :: past, congrArg _ hpast, fun g hg => ?_⟩
      · by_cases ho : o < b
        · exact ⟨(a, b), List.mem_cons_self, by exact Nat.le_trans ha hlow, ho⟩
        · obtain ⟨g, hg, hin⟩ := hcovered o (by omega) hhigh
          exact ⟨g, List.mem_cons_of_mem _ hg, hin⟩
      · rcases List.mem_cons.1 hg with rfl | hg
        · exact Nat.le_trans (Nat.le_max_right pos b) hforward
        · exact hdone g hg
    · rw [if_neg ha]
      refine ⟨Nat.le_refl _, fun g hg => ?_, fun o h h' => absurd h' (Nat.not_lt.2 h), [], rfl, fun g hg => absurd hg List.not_mem_nil⟩
      rcases List.mem_cons.1 hg with rfl | hg
      · exact Nat.not_le.1 ha
      · have := hafter g hg
        show pos < g.1
        simp only at this
        omega

/-! ## A repaired beat (R154, R158) -/

theorem beatOf_add (g : Geometry) (x y : Nat) : (y * g.width + x) * 2 - beatOf g x y = (y * g.width + x) * 2 % 16 := by
  unfold beatOf
  omega

theorem pixelIn_of_found {g : Geometry} {beats : List (Nat × List Byte)} {x y : Nat} {bytes : List Byte}
    (h : beats.find? (fun b => b.1 == beatOf g x y) = some (beatOf g x y, bytes)) :
    pixelIn g beats (x, y) = leNat (slice ((y * g.width + x) * 2 % 16) 2 bytes) := by
  unfold pixelIn
  rw [h]
  simp only [beatOf_add]

theorem Repair.newBeat_of_found {g : Geometry} {r : Repair} {beats : List (Nat × List Byte)} {own : List Byte} (pedestal : Nat)
    (h : beats.find? (fun b => b.1 == beatOf g r.x r.y) = some (beatOf g r.x r.y, own)) :
    r.newBeat g pedestal beats =
      overlay own ((r.y * g.width + r.x) * 2 % 16) (leBytes 2 (repairValue pedestal (r.from_.map (pixelIn g beats)))) := by
  unfold Repair.newBeat
  simp only [h, beatOf_add]

/-- New bytes that fit are laid over the old ones at their place, the rest as it was. -/
theorem overlay_of_fits {α : Type} {old new : List α} {k : Nat} (h : k + new.length ≤ old.length) :
    overlay old k new = old.take k ++ new ++ old.drop (k + new.length) := by
  unfold overlay
  rw [List.take_of_length_le]
  rw [List.length_append, List.length_take]
  omega

theorem overlay_spec {old new : List Byte} {k : Nat} (h : k + new.length ≤ old.length) :
    (overlay old k new).length = old.length ∧ slice k new.length (overlay old k new) = new ∧
      ∀ i, i < k ∨ k + new.length ≤ i → (overlay old k new)[i]? = old[i]? := by
  have htake : (old.take k).length = k := by rw [List.length_take]; omega
  rw [overlay_of_fits h]
  refine ⟨?_, ?_, fun i hi => ?_⟩
  · simp only [List.length_append, List.length_drop, htake]
    omega
  · unfold slice
    rw [List.append_assoc, List.drop_append, htake, List.drop_of_length_le (by omega), Nat.sub_self, List.drop_zero, List.nil_append,
      List.take_left]
  · rcases hi with hi | hi
    · rw [List.append_assoc, List.getElem?_append_left (by omega), List.getElem?_take_of_lt hi]
    · rw [List.getElem?_append_right (by rw [List.length_append, htake]; omega), List.getElem?_drop]
      congr 1
      rw [List.length_append, htake]
      omega

/-! ## The histogram (R162) -/

/-- The bin that pixel i of value v falls in. -/
def binOf (g : Geometry) (i v : Nat) : Nat := (channelOf g.cfa (i % g.width) (i / g.width)).index * 16 + v / 4096

theorem countPixel_getD (g : Geometry) (i v : Nat) {h : List Nat} {k : Nat} (hk : k < h.length) :
    (countPixel g i v h).getD k 0 = h.getD k 0 + if binOf g i v = k then 1 else 0 := by
  have hget : h[k]? = some h[k] := List.getElem?_eq_getElem hk
  show (h.modify (binOf g i v) (· + 1)).getD k 0 = _
  rw [List.getD_eq_getElem?_getD, List.getElem?_modify, List.getD_eq_getElem?_getD, hget]
  by_cases hbin : binOf g i v = k
  · simp [hbin]
  · simp [hbin]

theorem countValues_getD (g : Geometry) (i : Nat) (vs : List Nat) {h : List Nat} {k : Nat} (hk : k < h.length) :
    (countValues g i vs h).getD k 0 = h.getD k 0 + (List.range vs.length).countP fun j => decide (binOf g (i + j) (vs.getD j 0) = k) := by
  induction vs generalizing i h with
  | nil => rfl
  | cons v vs ih =>
    have hlen : k < (countPixel g i v h).length := by
      unfold countPixel
      rwa [List.length_modify]
    show (countValues g (i + 1) vs (countPixel g i v h)).getD k 0 = _
    rw [ih (i + 1) hlen, countPixel_getD g i v hk, List.length_cons, List.range_succ_eq_map, List.countP_cons, List.countP_map]
    have hshift : ((fun j => decide (binOf g (i + j) ((v :: vs).getD j 0) = k)) ∘ Nat.succ) =
        fun j => decide (binOf g (i + 1 + j) (vs.getD j 0) = k) := by
      funext j
      simp only [Function.comp, List.getD_cons_succ, Nat.succ_eq_add_one, Nat.add_assoc, Nat.add_comm 1 j]
    rw [hshift]
    simp only [Nat.add_zero, List.getD_cons_zero, decide_eq_true_eq]
    omega

/-! ## The preview's pixels (R174, R176) -/

/-- The value of sample k of output pixel i's block, 0 at or beyond the mask. -/
def blockSample (g : Geometry) (r : Rendering) (i k : Nat) : Nat :=
  sourceValue g (8 * r.row) r.mask (bytesHalves r.source).toArray (8 * i + k % 8) (8 * r.row + k / 8)

theorem sum_map_if (p : Nat → Bool) (f : Nat → Nat) (l : List Nat) :
    (l.map fun k => if p k then f k else 0).sum = ((l.filter p).map f).sum := by
  induction l with
  | nil => rfl
  | cons k l ih =>
    rw [List.map_cons, List.sum_cons, ih, List.filter_cons]
    cases p k with
    | true => rfl
    | false => exact Nat.zero_add _

theorem blockSum_eq (g : Geometry) (r : Rendering) (i : Nat) (sel : Channel → Bool) :
    blockSum g (8 * r.row) r.mask (bytesHalves r.source).toArray i sel =
      (((List.range 64).filter fun k => sel (channelOf g.cfa (8 * i + k % 8) (8 * r.row + k / 8))).map (blockSample g r i)).sum :=
  sum_map_if (fun k => sel (channelOf g.cfa (8 * i + k % 8) (8 * r.row + k / 8))) (blockSample g r i) (List.range 64)

theorem blockSample_eq (g : Geometry) (r : Rendering) (i k : Nat) :
    blockSample g r i k =
      r.mask.elim ((bytesHalves r.source).getD (k / 8 * g.width + (8 * i + k % 8)) 0) fun c =>
        if ((8 * r.row + k / 8) * g.width + (8 * i + k % 8)) * 2 < c then
          (bytesHalves r.source).getD (k / 8 * g.width + (8 * i + k % 8)) 0
        else 0 := by
  unfold blockSample sourceValue
  rw [Nat.add_sub_cancel_left]
  cases hmask : r.mask with
  | none => simp
  | some c =>
    by_cases hc : ((8 * r.row + k / 8) * g.width + (8 * i + k % 8)) * 2 < c
    · simp [hc, Nat.not_le.2 hc]
    · simp [hc, Nat.not_lt.1 hc]

theorem length_previewPixel (g : Geometry) (r : Rendering) (source : Array Nat) (i : Nat) : (previewPixel g r source i).length = 3 := rfl

theorem slice_previewRow (g : Geometry) (r : Rendering) {i : Nat} (hi : i < g.width / 8) :
    slice (3 * i) 3 (previewRow g r) = previewPixel g r (bytesHalves r.source).toArray i :=
  slice_flatMap_range (length_previewPixel g r _) hi

theorem length_previewRow (g : Geometry) (r : Rendering) : (previewRow g r).length = g.width / 8 * 3 := by
  unfold previewRow
  rw [length_flatMap_of_const fun _ => length_previewPixel g r _ _, List.length_range, Nat.mul_comm]

/-! ## The rows of a VIEW burst (R173 to R178) -/

theorem ShotState.not_undeveloped (st : ShotState) :
    (!st.undeveloped) = decide (st ∈ [ShotState.developed, .storing, .stored]) := by cases st <;> rfl

theorem Part.settled_eq {p : Part} {n : Word} {x : Shot} (hx : p.shot? n = some x) :
    p.settled n = decide (x.state ∈ [ShotState.developed, .storing, .stored]) := by
  unfold Part.settled
  rw [hx]
  exact x.state.not_undeveloped

/-- The cached row serves as a row of a shot. -/
def Part.inCache (p : Part) (shot : Word) (row : Nat) (bytes : List Byte) : Prop :=
  p.prn.cache = some ⟨row, shot, bytes⟩ ∧ p.settled shot = true

theorem Part.cachedRow_eq_some_iff {p : Part} {shot : Word} {row : Nat} {bytes : List Byte} :
    p.cachedRow shot row = some bytes ↔ p.inCache shot row bytes := by
  unfold Part.cachedRow Part.inCache
  cases hcache : p.prn.cache with
  | none => simp
  | some c =>
    obtain ⟨crow, cshot, cbytes⟩ := c
    by_cases h : crow = row ∧ cshot = shot ∧ p.settled shot = true
    · obtain ⟨rfl, rfl, hs⟩ := h
      simp [hs]
    · simp only [if_neg h, Option.some.injEq, RowCache.mk.injEq]
      constructor
      · intro hnone
        cases hnone
      · rintro ⟨⟨hrow, hshot, -⟩, hs⟩
        exact absurd ⟨hrow, hshot, hs⟩ h

theorem Part.cachedRow_eq_none {p : Part} {shot : Word} {row : Nat} (h : ∀ bytes, ¬p.inCache shot row bytes) :
    p.cachedRow shot row = none := by
  cases hc : p.cachedRow shot row with
  | none => rfl
  | some bytes => exact absurd (Part.cachedRow_eq_some_iff.1 hc) (h bytes)

/-- The burst with the row that its rendering begins. -/
def Part.rowBegun (w : ViewWork) (row : Nat) (rest : List Nat) (p : Part) : ViewWork :=
  { p.refreshView w with rows := rest, rendering := some (p.startRow (p.refreshView w) row) }

theorem Part.serveRows_of_missing {p : Part} {w : ViewWork} {row : Nat} (rest : List Nat)
    (h : p.cachedRow w.selection.shot row = none) :
    Part.serveRows w (row :: rest) p = { p with prn := { p.prn with work := some (p.rowBegun w row rest) } } := by
  unfold Part.serveRows
  rw [h]
  rfl

theorem Part.serveRows_of_cached {p : Part} {w : ViewWork} {row : Nat} (rest : List Nat) {bytes : List Byte}
    (h : p.cachedRow w.selection.shot row = some bytes) :
    Part.serveRows w (row :: rest) p = Part.serveRows { w with got := w.got ++ [(row, bytes)] } rest p := by
  rw [Part.serveRows]
  rw [h]

/-- The values that a row's rendering begins with (R174). -/
structure Begins (p : Part) (v : Selection) (old : Correction) (x : Shot) (row : Nat) (w : ViewWork) (r : Rendering) : Prop where
  slot : w.slot = x.slot
  gain : w.gain = x.arming.gain
  correction : w.correction = x.progress.correction.getD old
  rendering : w.rendering = some r
  row : r.row = row
  rowSlot : r.slot = x.slot
  source : r.source = []
  outdated : r.outdated = false
  settled : r.settled = decide (x.state ∈ [ShotState.developed, .storing, .stored])
  black : r.black =
    if w.correction = .corrected then p.dfl.policy.pedestal else ((p.cal.tables.blackSat.getD []).getD w.gain (0, 0)).1
  preset : ∀ i g, v.wb = .preset i → p.cal.tables.wb[i]? = some g → r.gains = g
  direct : ∀ a b c, v.wb = .direct a b c → r.gains = (a, b, c)
  curve : ∀ c, p.cal.tables.tone[v.curve]? = some c → r.curve = c
  masked : ∀ t, p.icr.target = some t → t.kind = .shot → t.number = v.shot → r.mask = some x.progress.cursor
  unmasked : (∀ t, p.icr.target = some t → t.kind = .dark ∨ t.number ≠ v.shot) → r.mask = none

theorem Begins.congr {p q : Part} {v : Selection} {old : Correction} {x : Shot} {row : Nat} {w : ViewWork} {r : Rendering}
    (h : Begins q v old x row w r) (hdfl : q.dfl = p.dfl) (hcal : q.cal = p.cal) (hicr : q.icr = p.icr) : Begins p v old x row w r := by
  obtain ⟨hslot, hgain, hcorrection, hrendering, hrow, hrowSlot, hsource, houtdated, hsettled, hblack, hpreset, hdirect, hcurve, hmasked,
    hunmasked⟩ := h
  rw [hdfl, hcal] at hblack
  rw [hcal] at hpreset hcurve
  rw [hicr] at hmasked hunmasked
  exact ⟨hslot, hgain, hcorrection, hrendering, hrow, hrowSlot, hsource, houtdated, hsettled, hblack, hpreset, hdirect, hcurve, hmasked,
    hunmasked⟩

/-- What stands in the burst's work but for its row. -/
structure Continues (w y : ViewWork) (rows : List Nat) : Prop where
  offset : y.offset = w.offset
  length : y.length = w.length
  selection : y.selection = w.selection
  got : y.got = w.got
  stale : y.stale = w.stale
  rows : y.rows = rows

theorem getD_indexIn {α : Type} {l : List α} {i : Nat} {x : α} (h : l[i]? = some x) (d : α) : l.getD (indexIn l.length i) d = x := by
  have hi : i < l.length := (List.getElem?_eq_some_iff.1 h).1
  unfold indexIn
  rw [if_pos hi, List.getD_eq_getElem?_getD, h]
  rfl

theorem Part.rowBegun_begins {p : Part} {w : ViewWork} {x : Shot} (hx : p.shot? w.selection.shot = some x) (row : Nat) (rest : List Nat) :
    Continues w (p.rowBegun w row rest) rest ∧
      Begins p w.selection w.correction x row (p.rowBegun w row rest) (p.startRow (p.refreshView w) row) := by
  have hview : p.refreshView w = { w with slot := x.slot, gain := x.arming.gain, correction := x.progress.correction.getD w.correction } := by
    unfold Part.refreshView
    rw [hx]
  have hmask : p.viewMask w.selection.shot =
      p.icr.target.bind fun t => if t.kind = .shot ∧ t.number = w.selection.shot then some x.progress.cursor else none := by
    unfold Part.viewMask
    rw [hx]
    cases p.icr.target <;> rfl
  unfold Part.rowBegun Part.startRow
  simp only [hview, hmask, Part.settled_eq hx]
  refine ⟨⟨rfl, rfl, rfl, rfl, rfl, rfl⟩,
    rfl, rfl, rfl, rfl, rfl, rfl, rfl, rfl, rfl, ?_, fun i g hwb hg => ?_, fun a b c hwb => ?_, fun c hc => ?_, fun t ht hkind hnumber => ?_,
    fun h => ?_⟩
  · unfold Part.renderBlack
    cases x.progress.correction.getD w.correction <;> rfl
  · rw [hwb]
    exact Tables.gains_preset hg
  · rw [hwb]
    rfl
  · exact getD_indexIn hc _
  · rw [ht]
    exact if_pos ⟨hkind, hnumber⟩
  · cases ht : p.icr.target with
    | none => rfl
    | some t =>
      refine if_neg ?_
      rintro ⟨hkind, hnumber⟩
      exact (h t ht).elim (fun hd => by rw [hkind] at hd; cases hd) fun hn => hn hnumber

/-! ## The answer of a VIEW burst (R172, R173, R180) -/

/-- The part with the head burst of a queue answered, its rows in hand. -/
def Part.viewAnswered (rest : List Burst) (w : ViewWork) (p : Part) : Part :=
  { p with
    prn := { p.prn with work := none }
    pts := { p.pts with queue := rest, head := none, answer := some ⟨true, w.bytes p.geo⟩ } }

section Answer
variable {p : Part} {b : Burst} {rest : List Burst} (hqueue : p.pts.queue = b :: rest)
include hqueue

theorem Part.answerView_of_running (w : ViewWork) (hres : p.cpa.resetting = none) : p.answerView w = p.viewAnswered rest w := by
  unfold Part.answerView Part.prnStopping Part.answer Part.viewAnswered
  rw [hqueue]
  simp only [hres]
  rfl

theorem Part.answerView_of_stopping (w : ViewWork) {k : ResetWork} (hres : p.cpa.resetting = some k) (hk : k.prn = false) :
    p.answerView w =
      { p.viewAnswered rest w with
        prn := ⟨none, none, none⟩, cpa := { p.cpa with resetting := some { k with prn := true } } } := by
  unfold Part.answerView Part.prnStopping Part.answer Part.viewAnswered Part.prnStopped
  rw [hqueue]
  simp only [hres, hk]
  rfl

variable {base : Nat} (hhead : p.pts.head = some (.viewRead base))
include hhead

theorem Part.viewRead_of_nothing (h : p.prn.selection = none ∨ p.geo.previewBytes ≤ b.addr - base) :
    p.viewRead =
      { p with
        pts := { p.pts with queue := rest, head := none, answer := some ⟨true, List.replicate (16 * b.beats) 0⟩ } } := by
  have hanswer : p.answer true (List.replicate (Burst.bytes b) 0) =
      { p with
        pts := { p.pts with queue := rest, head := none, answer := some ⟨true, List.replicate (16 * b.beats) 0⟩ } } := by
    unfold Part.answer Burst.bytes
    rw [hqueue]
    rfl
  unfold Part.viewRead
  rw [Part.headBurst_of hqueue hhead]
  cases hsel : p.prn.selection with
  | none => exact hanswer
  | some v => exact (if_pos (h.resolve_left (by rw [hsel]; exact fun h' => nomatch h'))).trans hanswer

theorem Part.viewRead_of_selection {v : Selection} (hsel : p.prn.selection = some v) (hin : b.addr - base < p.geo.previewBytes) :
    p.viewRead =
      Part.serveRows ⟨b.addr - base, 16 * b.beats, v, 0, 0, .raw, [], [], none, false⟩
        (rowsTouched p.geo (b.addr - base) (min (b.addr - base + 16 * b.beats) p.geo.previewBytes)) (p.setHead .owned) := by
  unfold Part.viewRead
  rw [Part.headBurst_of hqueue hhead, hsel]
  exact if_neg (Nat.not_le.2 hin)

end Answer

/-- The rows that a burst touches: its first, then those to its last. -/
theorem rowsTouched_eq {g : Geometry} {off to_ : Nat} (h : off / g.previewRow ≤ (to_ - 1) / g.previewRow) :
    rowsTouched g off to_ =
      off / g.previewRow :: (List.range ((to_ - 1) / g.previewRow - off / g.previewRow)).map (off / g.previewRow + 1 + ·) := by
  show (List.range ((to_ - 1) / g.previewRow + 1 - off / g.previewRow)).map (off / g.previewRow + ·) = _
  rw [Nat.succ_sub h, List.range_succ_eq_map, List.map_cons, List.map_map]
  refine congrArg _ (List.map_congr_left fun k _ => ?_)
  simp only [Function.comp, Nat.succ_eq_add_one]
  omega

/-! ## A row rendered (R176 to R179) -/

/-- The part with the cache as a rendered row leaves it. -/
def Part.rowCached (w : ViewWork) (r : Rendering) (p : Part) : Part :=
  { p with
    prn :=
      { p.prn with
        cache := if p.mayCache w r then some ⟨r.row, w.selection.shot, previewRow p.geo r⟩ else p.prn.cache } }

theorem Part.mayCache_iff {p : Part} {w : ViewWork} {r : Rendering} :
    p.mayCache w r = true ↔
      r.settled = true ∧ r.outdated = false ∧ w.stale = false ∧ p.prn.selection = some w.selection ∧ p.cpa.resetting = none := by
  unfold Part.mayCache
  simp only [Bool.and_eq_true, Bool.not_eq_true', decide_eq_true_eq, Option.isNone_iff_eq_none, and_assoc]

theorem Part.rowRendered_eq {p : Part} {w : ViewWork} {r : Rendering} (hwork : p.prn.work = some w) (hr : w.rendering = some r)
    (hlen : p.geo.sourceRowBytes ≤ r.source.length) :
    p.rowRendered =
      Part.serveRows { w with got := w.got ++ [(r.row, previewRow p.geo r)], rendering := none } w.rows (p.rowCached w r) := by
  have hcached : (if p.mayCache w r then
      { p with prn := { p.prn with cache := some ⟨r.row, w.selection.shot, previewRow p.geo r⟩ } } else p) = p.rowCached w r := by
    unfold Part.rowCached
    cases p.mayCache w r <;> rfl
  unfold Part.rowRendered
  rw [hwork]
  simp only [hr]
  rw [← hcached]
  exact if_neg (Nat.not_lt.2 hlen)

/-- Settles O40: the rows of a VIEW burst from the cache or rendered, the preview's pixels, and the arithmetic of the pass. -/
theorem viewReadsAndPixelArithmetic : Obligations.ViewReadsAndPixelArithmetic := by
  refine ⟨?views, fun g r i hi => ?preview, fun pos gaps hne horder => ?sweep, fun pedestal a b => ⟨rfl, rfl, rfl⟩,
    fun g pedestal r beats own hfound hlen => ?repair, fun g beats x y bytes hfound => pixelIn_of_found hfound,
    fun g i vs hist k hk => countValues_getD g i vs hk, fun full high => ?saturated⟩
  case preview =>
    intro values sample sum byte
    have hsample (k : Nat) : blockSample g r i k = sample k := by
      rw [blockSample_eq]
      show _ = match r.mask with
        | none => _
        | some c => _
      cases r.mask <;> rfl
    have hsum (sel : Channel → Bool) (channels : List Channel) (hsel : ∀ c, sel c = decide (c ∈ channels)) :
        blockSum g (8 * r.row) r.mask (bytesHalves r.source).toArray i sel = sum channels := by
      rw [blockSum_eq]
      simp only [hsel]
      exact congrArg List.sum (List.map_congr_left fun k _ => hsample k)
    refine ⟨length_previewRow g r, ?_⟩
    rw [slice_previewRow g r hi]
    unfold previewPixel
    simp only [hsum (fun c => decide (c = .r)) [.r] fun c => by cases c <;> rfl,
      hsum (fun c => decide (c = .gr) || decide (c = .gb)) [.gr, .gb] fun c => by cases c <;> rfl,
      hsum (fun c => decide (c = .b)) [.b] fun c => by cases c <;> rfl]
    rfl
  case sweep =>
    obtain ⟨hforward, hahead, hcovered, hpast⟩ := skipGaps_skips ⟨hne, horder⟩ pos
    exact ⟨hforward, hahead, hcovered, hpast⟩
  case repair =>
    intro k value new
    have hnew : new = overlay own k (leBytes 2 value) := Repair.newBeat_of_found pedestal hfound
    have hk : k + 2 ≤ 16 := by omega
    obtain ⟨hlength, hslice, hrest⟩ := overlay_spec (old := own) (new := leBytes 2 value) (k := k) (by rw [hlen]; exact hk)
    rw [hnew]
    refine ⟨hlength.trans hlen, hslice, fun i hi hne hne' => hrest i ?_⟩
    show i < k ∨ k + 2 ≤ i
    omega
  case saturated =>
    unfold saturatedCount
    split
    · omega
    · rfl
  case views =>
    intro settled answer inCache begins
    have hbegins {p : Part} {v : Selection} {old : Correction} {x : Shot} {row : Nat} {w : ViewWork} {r : Rendering}
        (h : Begins p v old x row w r) : begins p v old x row w :=
      ⟨h.slot, h.gain, h.correction, r, h.rendering, h.row, h.rowSlot, h.source, h.outdated, h.settled, h.black, h.preset, h.direct,
        h.curve, h.masked, h.unmasked⟩
    have hcache (p : Part) (shot : Word) (c : Option RowCache) (row : Nat) (bytes : List Byte) :
        inCache p shot c row bytes ↔ ({ p with prn := { p.prn with cache := c } } : Part).inCache shot row bytes := by
      refine and_congr_right fun _ => ?_
      show _ ↔ p.settled shot = true
      cases hx : p.shot? shot with
      | none => simp [Part.settled, hx]
      | some x => simp [Part.settled_eq hx, settled]
    clear_value begins inCache settled
    refine ⟨fun b rest base s hqueue hhead => ?read, fun b rest y r s hqueue hwork hr hlen => ?rendered⟩
    case read =>
      intro p off width preview first last
      have hrow {q : Part} (hq : s.part.viewRead = q) : exec .viewRead s = .next { s with part := q } :=
        Eq.trans (b := .next { s with part := s.part.viewRead }) rfl (State.next_part_congr hq)
      refine ⟨fun h => hrow (Part.viewRead_of_nothing hqueue hhead h), ?_⟩
      intro v x hsel hin hbeats hx hres goesOn
      have hfirst : first ≤ last := Nat.div_le_div_right (show off ≤ min (off + 16 * b.beats) preview - 1 by omega)
      let w0 : ViewWork := ⟨off, 16 * b.beats, v, 0, 0, .raw, [], [], none, false⟩
      have hread : p.viewRead = Part.serveRows w0 (first :: (List.range (last - first)).map (first + 1 + ·)) (p.setHead .owned) := by
        exact (Part.viewRead_of_selection hqueue hhead hsel hin).trans (congrArg (fun l => Part.serveRows w0 l _) (rowsTouched_eq hfirst))
      have hgoes {row : Nat} {got : List (Nat × List Byte)} (hmissing : ∀ bytes, ¬p.inCache v.shot row bytes)
          (h : p.viewRead = Part.serveRows { w0 with got := got } (row :: (List.range (last - row)).map (row + 1 + ·)) (p.setHead .owned)) :
          goesOn row got := by
        obtain ⟨hcontinues, hstart⟩ := Part.rowBegun_begins (p := p.setHead .owned) (w := { w0 with got := got }) hx row
          ((List.range (last - row)).map (row + 1 + ·))
        exact ⟨_, hrow (h.trans (Part.serveRows_of_missing _ (Part.cachedRow_eq_none hmissing))), hcontinues.offset, hcontinues.length,
          hcontinues.selection, hcontinues.got, hcontinues.stale, hcontinues.rows, hbegins (hstart.congr rfl rfl rfl)⟩
      clear_value goesOn
      refine ⟨fun hmissing => hgoes (fun bytes h => hmissing bytes ((hcache p _ _ _ _).2 h)) hread, fun bytes hcached => ?_⟩
      have hin' : p.inCache v.shot first bytes := (hcache p _ _ _ _).1 hcached
      have hserved := hread.trans (Part.serveRows_of_cached (p := p.setHead .owned) (w := w0) _ (Part.cachedRow_eq_some_iff.2 hin'))
      refine ⟨fun hlast => hrow ?_, fun hmore => hgoes (fun other h => ?_) (hserved.trans ?_)⟩
      · rw [hlast, Nat.sub_self] at hserved
        exact hserved.trans (Part.answerView_of_running (p := p.setHead .owned) hqueue _ hres)
      · have hrows : some (RowCache.mk first v.shot bytes) = some ⟨first + 1, v.shot, other⟩ := hin'.1.symm.trans h.1
        cases hrows
      · have hsplit : last - first = (last - (first + 1)) + 1 := by omega
        rw [hsplit, List.range_succ_eq_map, List.map_cons, List.map_map]
        refine congrArg (fun l => Part.serveRows _ (_ :: l) _) (List.map_congr_left fun k _ => ?_)
        simp only [Function.comp, Nat.succ_eq_add_one]
        omega
    case rendered =>
      intro p shot bytes got kept cache goesOn ends
      have hrow {q : Part} (hq : s.part.rowRendered = q) : exec .rowRendered s = .next { s with part := q } :=
        Eq.trans (b := .next { s with part := s.part.rowRendered }) rfl (State.next_part_congr hq)
      let q : Part := { p with prn := { p.prn with cache := cache } }
      have hq : p.rowCached y r = q := by
        unfold Part.rowCached
        by_cases hkept : kept
        · simp only [Part.mayCache_iff.2 hkept, if_true, q, cache, if_pos hkept]
          rfl
        · simp only [mt Part.mayCache_iff.1 hkept, if_false, q, cache, if_neg hkept, Bool.false_eq_true]
      have hrendered : p.rowRendered = Part.serveRows { y with got := got, rendering := none } y.rows q := by
        rw [Part.rowRendered_eq hwork hr hlen, hq]
      have hends {got' : List (Nat × List Byte)} {rows : List Nat}
          (h : p.rowRendered = Part.serveRows { y with got := got', rendering := none, rows := rows } [] q) : ends got' := by
        refine ⟨fun hres => hrow ?_, fun k hres hk => hrow ?_⟩
        · exact h.trans (Part.answerView_of_running (p := q) hqueue _ hres)
        · exact h.trans (Part.answerView_of_stopping (p := q) hqueue _ hres hk)
      clear_value ends
      have hserved {l : List Nat} (hrows : y.rows = l) :
          p.rowRendered = Part.serveRows { y with got := got, rendering := none } l q :=
        hrendered.trans (congrArg (fun l => Part.serveRows { y with got := got, rendering := none } l q) hrows)
      refine ⟨fun hrows => hends (hserved hrows),
        fun x row tail hrows hx => ⟨fun hmissing => ?_, fun c hcached htail => ?_⟩⟩
      · obtain ⟨hcontinues, hstart⟩ :=
          Part.rowBegun_begins (p := q) (w := { y with got := got, rendering := none }) hx row tail
        exact ⟨_, hrow ((hserved hrows).trans (Part.serveRows_of_missing tail
            (Part.cachedRow_eq_none fun c h => hmissing c ((hcache p shot cache row c).2 h)))),
          hcontinues.offset, hcontinues.length, hcontinues.selection, hcontinues.got, hcontinues.stale, hcontinues.rows,
          hbegins (hstart.congr rfl rfl rfl)⟩
      · rw [htail] at hrows
        exact hends ((hserved hrows).trans (Part.serveRows_of_cached (p := q) (w := { y with got := got, rendering := none }) []
          (Part.cachedRow_eq_some_iff.2 ((hcache p shot cache row c).1 hcached))))

end Sys2Proof.Machine
end

section
/-! PROOFS. Runs of bytes cut into bursts, and QUERY_SHOT (R13, R74). -/

namespace Sys2Proof.Machine

/-! ## A run cut into bursts (R13) -/


theorem burstSpan_pos (addr : Nat) {length : Nat} (h : 0 < length) : 0 < burstSpan addr length := by
  rw [burstSpan_eq]
  omega

theorem burstSpan_le (addr length : Nat) : burstSpan addr length ≤ length := Nat.min_le_left _ _

theorem cutBursts_nil (fuel addr : Nat) : cutBursts fuel addr [] = [] := by cases fuel <;> rfl

theorem cutBursts_succ (fuel addr : Nat) {bytes : List Byte} (h : 0 < bytes.length) :
    cutBursts (fuel + 1) addr bytes =
      (addr, bytes.take (burstSpan addr bytes.length)) ::
        cutBursts fuel (addr + burstSpan addr bytes.length) (bytes.drop (burstSpan addr bytes.length)) :=
  if_neg (Nat.ne_of_gt h)

/-- So many bursts carry a run of that length at the address. -/
def Enough : Nat → Nat → Nat → Prop
  | 0, _, length => length = 0
  | fuel + 1, addr, length => length = 0 ∨ Enough fuel (addr + burstSpan addr length) (length - burstSpan addr length)

theorem enough_zero (fuel addr : Nat) : Enough fuel addr 0 := by
  cases fuel with
  | zero => rfl
  | succ fuel => exact .inl rfl

theorem enough_of_le {fuel : Nat} (addr : Nat) {length : Nat} (h : length ≤ fuel) : Enough fuel addr length := by
  induction fuel generalizing addr length with
  | zero => exact Nat.le_zero.1 h
  | succ fuel ih =>
    rcases Nat.eq_zero_or_pos length with hzero | hpos
    · exact .inl hzero
    · have := burstSpan_pos addr hpos
      exact .inr (ih _ (by omega))

/-- What fits a burst and the page takes one burst. -/
theorem enough_of_fits {addr length : Nat} (hlen : length ≤ 256) (hpage : addr % 4096 + length ≤ 4096) (fuel : Nat) :
    Enough (fuel + 1) addr length := by
  have hspan : length - burstSpan addr length = 0 := by rw [burstSpan_eq]; omega
  refine .inr ?_
  rw [hspan]
  exact enough_zero _ _

/-- 256 bytes take two bursts: at most one page boundary lies within them. -/
theorem enough_of_le_256 (addr : Nat) {length : Nat} (hlen : length ≤ 256) (fuel : Nat) : Enough (fuel + 2) addr length := by
  by_cases hpage : addr % 4096 + length ≤ 4096
  · exact enough_of_fits hlen hpage (fuel + 1)
  · have hspan : burstSpan addr length = 4096 - addr % 4096 := by rw [burstSpan_eq]; omega
    refine .inr (enough_of_fits (by omega) ?_ fuel)
    rw [hspan]
    omega

/-- 512 bytes take three: a whole burst and then 256 bytes, or the rest of a page and then 512 bytes at a page's start. -/
theorem enough_of_le_512 (addr : Nat) {length : Nat} (hlen : length ≤ 512) (fuel : Nat) : Enough (fuel + 3) addr length := by
  refine .inr ?_
  by_cases hpage : addr % 4096 ≤ 3840
  · refine enough_of_le_256 _ ?_ fuel
    rw [burstSpan_eq]
    omega
  · by_cases hrest : length - burstSpan addr length ≤ 256
    · exact enough_of_le_256 _ hrest fuel
    · have hspan : burstSpan addr length = 4096 - addr % 4096 := by rw [burstSpan_eq] at hrest ⊢; omega
      have hnext : (addr + burstSpan addr length) % 4096 = 0 := by rw [hspan]; omega
      have hsecond : burstSpan (addr + burstSpan addr length) (length - burstSpan addr length) = 256 := by
        rw [burstSpan_eq, hnext]
        omega
      refine .inr (enough_of_fits ?_ ?_ fuel)
      · omega
      · rw [hsecond]
        omega

theorem cutBursts_flatMap {fuel addr : Nat} {bytes : List Byte} (h : Enough fuel addr bytes.length) :
    (cutBursts fuel addr bytes).flatMap Prod.snd = bytes := by
  induction fuel generalizing addr bytes with
  | zero =>
    rw [List.length_eq_zero_iff.1 h]
    rfl
  | succ fuel ih =>
    rcases Nat.eq_zero_or_pos bytes.length with hzero | hpos
    · rw [List.length_eq_zero_iff.1 hzero, cutBursts_nil]
      rfl
    · rw [cutBursts_succ fuel addr hpos, List.flatMap_cons, ih, List.take_append_drop]
      rw [List.length_drop]
      exact h.resolve_left (Nat.ne_of_gt hpos)

/-- A burst of a run lies at the run's address plus the bytes before it, and is the longest that the rest, 256 bytes and the page allow. -/
structure BurstAt (addr length before : Nat) (b : Nat × List Byte) : Prop where
  place : b.1 = addr + before
  pos : 0 < b.2.length
  span : b.2.length = min (length - before) (min 256 (4096 - (addr + before) % 4096))

theorem BurstAt.within {addr length before : Nat} {b : Nat × List Byte} (h : BurstAt addr length before b) :
    b.2.length ≤ 256 ∧ (addr + before) % 4096 + b.2.length ≤ 4096 := by
  have hspan := h.span
  omega

theorem cutBursts_burstAt {fuel addr : Nat} {bytes : List Byte} {pre post : List (Nat × List Byte)} {b : Nat × List Byte}
    (h : cutBursts fuel addr bytes = pre ++ b :: post) : BurstAt addr bytes.length (pre.flatMap Prod.snd).length b := by
  induction fuel generalizing addr bytes pre with
  | zero => exact absurd h (by cases pre <;> exact fun h' => nomatch h')
  | succ fuel ih =>
    rcases Nat.eq_zero_or_pos bytes.length with hzero | hpos
    · rw [List.length_eq_zero_iff.1 hzero, cutBursts_nil] at h
      cases pre <;> cases h
    · have hspan := burstSpan_le addr bytes.length
      rw [cutBursts_succ fuel addr hpos] at h
      cases pre with
      | nil =>
        obtain ⟨rfl, -⟩ := List.cons.inj h
        refine ⟨rfl, ?_, ?_⟩
        · rw [List.length_take]
          have := burstSpan_pos addr hpos
          omega
        · rw [List.length_take, Nat.min_eq_left hspan]
          rfl
      | cons c pre =>
        obtain ⟨rfl, h'⟩ := List.cons.inj h
        obtain ⟨hplace, hb, hlen⟩ := ih h'
        have htake : (bytes.take (burstSpan addr bytes.length)).length = burstSpan addr bytes.length := by
          rw [List.length_take, Nat.min_eq_left hspan]
        rw [List.flatMap_cons, List.length_append, htake]
        rw [List.length_drop] at hlen
        exact ⟨by omega, hb, by rw [hlen, Nat.sub_sub, Nat.add_assoc]⟩

/-! ## The writes of an image (R74) -/

/-- The bytes that a write of an image carries. -/
def CpaWrite.carried : CpaWrite → List Byte
  | .image _ bytes _ => bytes
  | _ => []

theorem imageWrites_cons_cons (ends : Fin 8 × List Word) (b c : Nat × List Byte) (l : List (Nat × List Byte)) :
    imageWrites ends (b :: c :: l) = .image b.1 b.2 none :: imageWrites ends (c :: l) := rfl

theorem imageWrites_carried (ends : Fin 8 × List Word) (l : List (Nat × List Byte)) :
    (imageWrites ends l).flatMap CpaWrite.carried = l.flatMap Prod.snd := by
  induction l with
  | nil => rfl
  | cons b l ih =>
    cases l with
    | nil => rfl
    | cons c l =>
      rw [imageWrites_cons_cons, List.flatMap_cons, ih]
      rfl

/-- A write of the image is one of the bursts, and the last ends the command. -/
theorem imageWrites_split (ends : Fin 8 × List Word) {l : List (Nat × List Byte)} {pre post : List CpaWrite} {y : CpaWrite}
    (h : imageWrites ends l = pre ++ y :: post) :
    ∃ pre' b post', l = pre' ++ b :: post' ∧ pre.flatMap CpaWrite.carried = pre'.flatMap Prod.snd ∧
      y = .image b.1 b.2 (if post = [] then some ends else none) := by
  induction l generalizing pre with
  | nil => cases pre <;> cases h
  | cons b l ih =>
    cases l with
    | nil =>
      cases pre with
      | nil =>
        obtain ⟨rfl, rfl⟩ := List.cons.inj h
        exact ⟨[], b, [], rfl, rfl, rfl⟩
      | cons c pre => exact absurd (List.cons.inj h).2 (by cases pre <;> exact fun h' => nomatch h')
    | cons c l =>
      rw [imageWrites_cons_cons] at h
      cases pre with
      | nil =>
        obtain ⟨rfl, hpost⟩ := List.cons.inj h
        have hne : post ≠ [] := by
          rw [← hpost]
          cases l <;> exact fun h' => nomatch h'
        exact ⟨[], b, c :: l, rfl, rfl, by rw [if_neg hne]⟩
      | cons d pre =>
        obtain ⟨rfl, h'⟩ := List.cons.inj h
        obtain ⟨pre', b', post', hl, hcarried, hy⟩ := ih h'
        exact ⟨b :: pre', b', post', congrArg _ hl, by rw [List.flatMap_cons, List.flatMap_cons, hcarried]; rfl, hy⟩

/-! ## QUERY_SHOT (R74) -/

section QueryShot
variable {n : Fin 8} {args : List Word} {p : Part}

theorem cmdQueryShot_of_badBuffer (h : argAddr args 1 % 16 ≠ 0 ∨ (!p.pts.inPass (argAddr args 1) 512) = true) :
    cmdQueryShot n args p = p.refuse n .badBuffer [] := if_pos h

variable (h : ¬(argAddr args 1 % 16 ≠ 0 ∨ (!p.pts.inPass (argAddr args 1) 512) = true))
include h

theorem cmdQueryShot_of_unknown (hx : p.shot? (argWord args 0) = none) : cmdQueryShot n args p = p.refuse n .notFound [] := by
  unfold cmdQueryShot
  refine (if_neg h).trans ?_
  rw [hx]

theorem cmdQueryShot_of_known {x : Shot} (hx : p.shot? (argWord args 0) = some x) :
    cmdQueryShot n args p =
      { p with
        cpa :=
          { p.cpa with
            writes :=
              p.cpa.writes ++
                imageWrites (n, [argWord args 0, natWord x.state.code, 512]) (cutBursts 4 (argAddr args 1) x.image) } } := by
  unfold cmdQueryShot
  refine (if_neg h).trans ?_
  rw [hx]

end QueryShot

/-- Settles O8: a run read back, a run cut into bursts, and the image of QUERY_SHOT as the CPA's writes. -/
theorem memoryRunsAndImagesAreCarriedInBursts : Obligations.MemoryRunsAndImagesAreCarriedInBursts := by
  refine ⟨fun m x bytes a hwf => ?memory, fun addr fuel bytes hfuel => ?bursts, fun w s h => ?query⟩
  case memory => exact Memory.read_writeBytes hwf x bytes a
  case bursts =>
    have henough : Enough fuel addr bytes.length := by
      rcases hfuel with hfuel | ⟨hlen, hfuel⟩
      · exact enough_of_le addr hfuel
      · obtain ⟨k, rfl⟩ := Nat.exists_eq_add_of_le' hfuel
        exact enough_of_le_512 addr hlen (k + 1)
    refine ⟨cutBursts_flatMap henough, fun pre b post hsplit => ?_⟩
    have hburst := cutBursts_burstAt hsplit
    obtain ⟨hlen, hpage⟩ := hburst.within
    rw [hburst.place]
    exact ⟨rfl, hburst.pos, hlen, hpage, hburst.span⟩
  case query =>
    intro p args n addr inPass carried
    have hexec {q : Part} (hq : cmdQueryShot w.slot args (p.taken .queryShot w) = q) : exec (.queryShot w) s = .next { s with part := q } :=
      (exec_row_of_takes (v := .queryShot) (by decide) h).trans (State.next_part_congr hq)
    have hrefused {code : ResultCode} (hq : cmdQueryShot w.slot args (p.taken .queryShot w) = (p.taken .queryShot w).refuse w.slot code []) :
        exec (.queryShot w) s = .next { s with part := p.answered .queryShot w .refused code [] } :=
      hexec (hq.trans (Part.taken_refuse _ _ _ _ _ (by decide)))
    have hcarried : carried = CpaWrite.carried := by
      funext x
      cases x <;> rfl
    clear_value carried
    subst hcarried
    have hbad := Pts.badBuffer_iff p.pts addr 512
    refine ⟨fun hnot => hrefused (cmdQueryShot_of_badBuffer (hbad.2 hnot)), fun haligned hin => ?_⟩
    have hgood : ¬(addr % 16 ≠ 0 ∨ (!p.pts.inPass addr 512) = true) := fun hnot => (hbad.1 hnot).elim (fun h => h haligned) fun h => h hin
    refine ⟨fun hx => hrefused (cmdQueryShot_of_unknown hgood hx), fun x hx himage => ?_⟩
    refine ⟨_, hexec (cmdQueryShot_of_known (p := p.taken .queryShot w) hgood hx), ?_, fun pre y post hsplit => ?_⟩
    · rw [imageWrites_carried]
      exact cutBursts_flatMap (enough_of_le_512 addr (Nat.le_of_eq himage) 1)
    · obtain ⟨pre', b, post', hl, hbytes, hy⟩ := imageWrites_split _ hsplit
      have hburst := cutBursts_burstAt hl
      rw [himage] at hburst
      obtain ⟨hlen, hpage⟩ := hburst.within
      rw [hbytes]
      exact ⟨b.2, by rw [hy, hburst.place]; rfl, hburst.pos, hlen, hpage, hburst.span⟩

end Sys2Proof.Machine
end

section
/-! PROOFS. The layouts of the control page's records, of a shot record's image, and of the card file (R214, R217, R218, R220). -/

namespace Sys2Proof.Machine

/-! ## Fields at their offsets -/

/-- Fields of a size and a value, little-endian, one after the other. -/
def packed (fields : List (Nat × Nat)) : List Byte := fields.flatMap fun f => leBytes f.1 f.2

/-- The fields with their offsets, the first at the given one. -/
def placedFrom : Nat → List (Nat × Nat) → List (Nat × Nat × Nat)
  | _, [] => []
  | offset, f :: fields => (offset, f.1, f.2) :: placedFrom (offset + f.1) fields

theorem packed_cons (f : Nat × Nat) (fields : List (Nat × Nat)) : packed (f :: fields) = leBytes f.1 f.2 ++ packed fields :=
  List.flatMap_cons

theorem slice_append_right (pre post : List Byte) (offset n : Nat) : slice (pre.length + offset) n (pre ++ post) = slice offset n post := by
  unfold slice
  rw [List.drop_length_add_append]

theorem slice_append_left {pre : List Byte} (post : List Byte) {n : Nat} (h : pre.length = n) : slice 0 n (pre ++ post) = pre := by
  unfold slice
  rw [List.drop_zero, ← h, List.take_left]

theorem slice_placed (pre post : List Byte) (fields : List (Nat × Nat)) :
    ∀ f ∈ placedFrom pre.length fields, slice f.1 f.2.1 (pre ++ (packed fields ++ post)) = leBytes f.2.1 f.2.2 := by
  induction fields generalizing pre with
  | nil => exact fun f hf => absurd hf List.not_mem_nil
  | cons g fields ih =>
    intro f hf
    rw [packed_cons, List.append_assoc]
    rcases List.mem_cons.1 hf with rfl | hf
    · exact (slice_append_right pre _ 0 _).trans (slice_append_left _ (leBytes_length _ _))
    · have hrest := ih (pre ++ leBytes g.1 g.2) f (by rwa [List.length_append, leBytes_length])
      rwa [List.append_assoc] at hrest

/-- Bytes that begin with the fields hold each at its offset. -/
theorem holds_of_packed {bytes post : List Byte} {fields : List (Nat × Nat)} (h : bytes = packed fields ++ post) :
    ∀ f ∈ placedFrom 0 fields, slice f.1 f.2.1 bytes = leBytes f.2.1 f.2.2 := by
  rw [h]
  exact slice_placed [] post fields

theorem length_packed (fields : List (Nat × Nat)) : (packed fields).length = (fields.map Prod.fst).sum := by
  unfold packed
  rw [List.length_flatMap]
  simp only [leBytes_length]

/-- What stands after the fields, at its offset. -/
theorem slice_packed (fields : List (Nat × Nat)) (post : List Byte) (offset n : Nat) :
    slice ((fields.map Prod.fst).sum + offset) n (packed fields ++ post) = slice offset n post := by
  rw [← length_packed]
  exact slice_append_right _ _ _ _

/-! ## Words in a row -/

theorem slice_wordsBytes {ws : List Word} {i : Nat} (h : i < ws.length) (post : List Byte) :
    slice (4 * i) 4 (wordsBytes ws ++ post) = leBytes 4 (ws.getD i 0).toNat := by
  induction ws generalizing i with
  | nil => exact absurd h (Nat.not_lt_zero _)
  | cons w ws ih =>
    show slice (4 * i) 4 ((wordBytes w ++ wordsBytes ws) ++ post) = _
    rw [List.append_assoc]
    cases i with
    | zero => exact slice_append_left _ (leBytes_length _ _)
    | succ i =>
      have hoffset : 4 * (i + 1) = (wordBytes w).length + 4 * i := by
        rw [show (wordBytes w).length = 4 from leBytes_length _ _]
        omega
      rw [hoffset, slice_append_right]
      exact ih (Nat.lt_of_succ_lt_succ h)

theorem leBytes_mod (n v : Nat) : leBytes n (v % 256 ^ n) = leBytes n v := by
  induction n generalizing v with
  | zero => rfl
  | succ n ih =>
    have hlow : BitVec.ofNat 8 (v % 256 ^ (n + 1)) = BitVec.ofNat 8 v := by
      refine BitVec.eq_of_toNat_eq ?_
      rw [BitVec.toNat_ofNat, BitVec.toNat_ofNat]
      exact Nat.mod_mod_of_dvd v (Nat.dvd_mul_left 256 (256 ^ n))
    have hhigh : v % 256 ^ (n + 1) / 256 = v / 256 % 256 ^ n := by
      rw [Nat.pow_succ', Nat.mod_mul_right_div_self]
    show BitVec.ofNat 8 (v % 256 ^ (n + 1)) :: leBytes n (v % 256 ^ (n + 1) / 256) = BitVec.ofNat 8 v :: leBytes n (v / 256)
    rw [hlow, hhigh, ih]

/-- A number as a word has the number's four low bytes. -/
theorem leBytes_natWord (v : Nat) : leBytes 4 (natWord v).toNat = leBytes 4 v := by
  unfold natWord
  rw [BitVec.toNat_ofNat]
  exact leBytes_mod 4 v

theorem getD_padTo {ws : List Word} {n i : Nat} (h : i < n) : (padTo n 0 ws).getD i 0 = ws.getD i 0 ∧ i < (padTo n 0 ws).length := by
  unfold padTo
  refine ⟨?_, ?_⟩
  · by_cases hi : i < ws.length
    · rw [List.getD_eq_getElem?_getD, List.getElem?_append_left hi, ← List.getD_eq_getElem?_getD]
    · rw [List.getD_eq_getElem?_getD, List.getElem?_append_right (Nat.not_lt.1 hi), List.getElem?_replicate, if_pos (by omega),
        List.getD_eq_getElem?_getD, List.getElem?_eq_none (Nat.not_lt.1 hi)] <;> rfl
  · rw [List.length_append, List.length_replicate]
    omega

/-- A row of words, zero beyond the list. -/
theorem slice_padded {ws : List Word} {n i : Nat} (h : i < n) (post : List Byte) :
    slice (4 * i) 4 (wordsBytes (padTo n 0 ws) ++ post) = leBytes 4 (ws.getD i 0).toNat := by
  obtain ⟨hget, hlen⟩ := getD_padTo (ws := ws) h
  rw [slice_wordsBytes hlen, hget]

theorem length_wordsBytes_padTo {ws : List Word} {n : Nat} (h : ws.length ≤ n) : (wordsBytes (padTo n 0 ws)).length = 4 * n := by
  rw [wordsBytes_length]
  unfold padTo
  rw [List.length_append, List.length_replicate]
  omega

/-! ## The status record (R217) -/

/-- A bit of a mask. -/
def maskBit (b : Bool) (k : Nat) : Nat := if b then 2 ^ k else 0

/-- The fields of the status record, the values as they stand. -/
def Part.statusFields (p : Part) : List (Nat × Nat) :=
  [(2, 614), (1, 1), (1, p.cpa.mode.code), (4, p.cpa.updates.toNat), (2, (BitVec.ofInt 16 (p.tsm.reading.getD 0)).toNat),
    (1, p.tsm.temp.code), (1, p.tsm.supply.code), (1, maskBit p.cpa.dropped 0 + maskBit p.tsm.reading.isSome 1), (3, 0),
    (1, p.sht.slots.length), (1, (p.sht.slots.filter fun h => decide (h = .free)).length), (1, p.sht.protectedCount),
    (1, p.dfl.entries.length), (1, p.cde.card.code), (1, p.cde.requests.length),
    (2, ((p.cde.requests.find? fun r => decide (r.state = .halted)).map Request.id).getD 0), (4, p.sht.counter.toNat),
    (4, p.icr.strayCount.toNat), (4, p.sht.guardCount.toNat)]

theorem Part.statusBytes_eq (p : Part) : p.statusBytes = packed p.statusFields ++ List.replicate 220 0 := by
  have hfree : p.sht.freeCount = (p.sht.slots.filter fun h => decide (h = .free)).length := List.countP_eq_length_filter
  unfold Part.statusBytes Part.statusFields maskBit Cde.halted
  rw [hfree]
  simp only [packed, List.flatMap_cons, List.flatMap_nil, List.append_assoc, List.append_nil, Nat.pow_zero, Nat.pow_one]

theorem Part.sum_statusFields (p : Part) : (p.statusFields.map Prod.fst).sum = 36 := by
  unfold Part.statusFields
  simp only [List.map_cons, List.map_nil, List.sum_cons, List.sum_nil, Nat.reduceAdd]

theorem Part.length_statusBytes (p : Part) : p.statusBytes.length = 256 := by
  rw [Part.statusBytes_eq, List.length_append, length_packed, List.length_replicate, Part.sum_statusFields]

theorem slice_replicate {k n : Nat} (h : k ≤ n) (x : Byte) : slice 0 k (List.replicate n x) = List.replicate k x := by
  unfold slice
  rw [List.drop_zero, List.take_replicate, Nat.min_eq_left h]

theorem Part.slice_statusBytes (p : Part) : slice 36 220 p.statusBytes = List.replicate 220 0 := by
  have hslice := slice_packed p.statusFields (List.replicate 220 0) 0 220
  rw [Part.sum_statusFields, ← Part.statusBytes_eq] at hslice
  exact hslice.trans (slice_replicate (Nat.le_refl _) 0)

/-! ## Slots, beats and events (R217) -/

theorem slotBeatBytes_eq (verb tag : Word) (cls : ResultClass) (code : ResultCode) :
    slotBeatBytes verb tag cls code =
      packed [(4, verb.toNat), (4, tag.toNat), (1, cls.code), (1, 0), (2, code.code), (4, 0)] ++ [] := by
  unfold slotBeatBytes wordBytes
  simp only [packed, List.flatMap_cons, List.flatMap_nil, List.append_assoc, List.append_nil]

theorem padTo_take_four (ws : List Word) :
    padTo 4 0 (ws.take 4) = [ws.getD 0 0, ws.getD 1 0, ws.getD 2 0, ws.getD 3 0] := by
  rcases ws with _ | ⟨a, _ | ⟨b, _ | ⟨c, _ | ⟨d, ws⟩⟩⟩⟩ <;> rfl

theorem eventBytes_eq (e : Event) :
    eventBytes e =
      packed
          [(2, e.kind.code), (2, 0), (4, e.shot.toNat), (4, e.time.toNat), (4, 0), (4, (e.data.getD 0 0).toNat),
            (4, (e.data.getD 1 0).toNat), (4, (e.data.getD 2 0).toNat), (4, (e.data.getD 3 0).toNat)] ++ [] := by
  unfold eventBytes wordsBytes wordBytes
  rw [padTo_take_four]
  simp only [packed, List.flatMap_cons, List.flatMap_nil, List.append_assoc, List.append_nil]

theorem length_indexBeatBytes (w : Word) : (indexBeatBytes w).length = 16 := by
  unfold indexBeatBytes wordBytes
  rw [List.length_append, leBytes_length, List.length_replicate]

/-! ## The image of a shot record (R218) -/

/-- The fields of a shot record's image ahead of its lists. -/
def Shot.imageFields (x : Shot) : List (Nat × Nat) :=
  let a := x.arming
  let e := x.exposure
  let g := x.progress
  let opt (w : Option Word) : Nat := (w.getD 0).toNat
  let signed (t : Option Int) : Nat := (BitVec.ofInt 16 (t.getD 0)).toNat
  [(4, x.number.toNat), (1, x.state.code), (1, x.slot), (1, a.mode.code), (1, a.gain), (4, x.presence), (4, x.flags),
    (4, a.programmed.getD 0), (1, a.plan.code), (1, (g.correction.map Correction.code).getD 0), (1, e.edges.length), (1, g.gaps.length),
    (4, a.planTime), (4, a.armTime.toNat), (4, opt e.integStart), (4, opt e.integEnd), (4, e.integTime.getD 0), (4, opt e.openTime),
    (4, opt e.closeTime), (4, e.measured.getD 0), (4, opt e.strobeTime), (2, signed a.tempAtArm), (2, signed e.tempAtRead),
    (4, e.late.toNat), (4, e.edgeOverflow.toNat), (2, edgeMask 0 e.edges), (2, 0), (1, (g.dark.map DarkSource.code).getD 0),
    (1, ((g.dark.bind DarkSource.reason?).map DarkReason.code).getD 0), (1, (g.dark.map DarkSource.entryCode).getD 0), (1, 0),
    (4, (g.dark.bind DarkSource.k?).getD 0), (4, g.cursor), (4, g.lowClamps), (4, g.highClamps), (4, g.saturated), (4, g.repaired),
    (4, g.fileSectors.getD 0), (4, g.storeCount), (2, g.pendingStore.getD 0), (2, 0), (4, g.sectorsStored), (8, 0)]

/-- The lists of a shot record's image: edge times, gaps, histogram. -/
def Shot.imageLists (x : Shot) : List Byte :=
  wordsBytes (padTo 16 0 (x.exposure.edges.map fun y => y.time)) ++
    (wordsBytes (padTo 16 0 (x.progress.gaps.flatMap fun g => [natWord g.1, natWord g.2])) ++
      (wordsBytes (padTo 64 0 (x.progress.histogram.map natWord)) ++ []))

theorem Shot.image_eq (x : Shot) : x.image = packed x.imageFields ++ x.imageLists := by
  unfold Shot.image Shot.imageFields Shot.imageLists wordBytes
  simp only [packed, List.flatMap_cons, List.flatMap_nil, List.append_assoc, List.append_nil]

theorem Shot.sum_imageFields (x : Shot) : (x.imageFields.map Prod.fst).sum = 128 := by
  unfold Shot.imageFields
  simp only [List.map_cons, List.map_nil, List.sum_cons, List.sum_nil, Nat.reduceAdd]

theorem Shot.slice_imageLists (x : Shot) (offset n : Nat) : slice (128 + offset) n x.image = slice offset n x.imageLists := by
  have hslice := slice_packed x.imageFields x.imageLists offset n
  rwa [Shot.sum_imageFields, ← Shot.image_eq] at hslice

theorem length_gapWords (gaps : List (Nat × Nat)) : (gaps.flatMap fun g => [natWord g.1, natWord g.2]).length = 2 * gaps.length := by
  induction gaps with
  | nil => rfl
  | cons g gaps ih =>
    rw [List.flatMap_cons, List.length_append, ih, List.length_cons]
    simp only [List.length_cons, List.length_nil]
    omega

theorem getD_gapWords (gaps : List (Nat × Nat)) (i : Nat) :
    (gaps.flatMap fun g => [natWord g.1, natWord g.2]).getD (2 * i) 0 = natWord (gaps.getD i (0, 0)).1 ∧
      (gaps.flatMap fun g => [natWord g.1, natWord g.2]).getD (2 * i + 1) 0 = natWord (gaps.getD i (0, 0)).2 := by
  induction gaps generalizing i with
  | nil => exact ⟨rfl, rfl⟩
  | cons g gaps ih =>
    cases i with
    | zero => exact ⟨rfl, rfl⟩
    | succ i => exact ih i

theorem Shot.slice_image_edges (x : Shot) {i : Nat} (hi : i < 16) :
    slice (128 + 4 * i) 4 x.image = leBytes 4 ((x.exposure.edges[i]?.map fun y => y.time.toNat).getD 0) := by
  rw [Shot.slice_imageLists]
  refine (slice_padded hi _).trans (congrArg (leBytes 4) ?_)
  rw [List.getD_eq_getElem?_getD, List.getElem?_map]
  cases x.exposure.edges[i]? <;> rfl

/-- The bounds within which a record's lists have their places. -/
structure Shot.Bounded (x : Shot) : Prop where
  edges : x.exposure.edges.length ≤ 16
  gaps : x.progress.gaps.length ≤ 8
  histogram : x.progress.histogram.length = 64

section Image
variable {x : Shot} (h : x.Bounded)
include h

theorem Shot.length_edgeWords : (wordsBytes (padTo 16 0 (x.exposure.edges.map fun y => y.time))).length = 64 :=
  length_wordsBytes_padTo (by rw [List.length_map]; exact h.edges)

theorem Shot.length_gapWords : (wordsBytes (padTo 16 0 (x.progress.gaps.flatMap fun g => [natWord g.1, natWord g.2]))).length = 64 :=
  length_wordsBytes_padTo (by
    rw [Machine.length_gapWords]
    have := h.gaps
    omega)

theorem Shot.length_image : x.image.length = 512 := by
  rw [Shot.image_eq, List.length_append, length_packed]
  unfold Shot.imageLists
  rw [List.length_append, List.length_append, Shot.length_edgeWords h, Shot.length_gapWords h, List.append_nil,
    length_wordsBytes_padTo (by rw [List.length_map]; exact Nat.le_of_eq h.histogram), Shot.sum_imageFields]

theorem Shot.slice_image_gaps {i : Nat} (hi : i < 8) :
    slice (192 + 8 * i) 4 x.image = leBytes 4 (x.progress.gaps.getD i (0, 0)).1 ∧
      slice (196 + 8 * i) 4 x.image = leBytes 4 (x.progress.gaps.getD i (0, 0)).2 := by
  obtain ⟨hfirst, hsecond⟩ := getD_gapWords x.progress.gaps i
  have hslice {k : Nat} (hk : k < 16) :
      slice (192 + 4 * k) 4 x.image =
        leBytes 4 ((x.progress.gaps.flatMap fun g => [natWord g.1, natWord g.2]).getD k 0).toNat := by
    rw [show 192 + 4 * k = 128 + (64 + 4 * k) by omega, Shot.slice_imageLists, ← Shot.length_edgeWords h]
    exact (slice_append_right _ _ _ _).trans (slice_padded hk _)
  refine ⟨?_, ?_⟩
  · rw [show 192 + 8 * i = 192 + 4 * (2 * i) by omega, hslice (by omega), hfirst, leBytes_natWord]
  · rw [show 196 + 8 * i = 192 + 4 * (2 * i + 1) by omega, hslice (by omega), hsecond, leBytes_natWord]

theorem Shot.slice_image_histogram {i : Nat} (hi : i < 64) :
    slice (256 + 4 * i) 4 x.image = leBytes 4 (x.progress.histogram.getD i 0) := by
  have hoffset : 256 + 4 * i = 128 + (64 + (64 + 4 * i)) := by omega
  have hedges (post : List Byte) (k : Nat) := slice_append_right
    (wordsBytes (padTo 16 0 (x.exposure.edges.map fun y => y.time))) post k 4
  have hgaps (post : List Byte) (k : Nat) := slice_append_right
    (wordsBytes (padTo 16 0 (x.progress.gaps.flatMap fun g => [natWord g.1, natWord g.2]))) post k 4
  rw [Shot.length_edgeWords h] at hedges
  rw [Shot.length_gapWords h] at hgaps
  rw [hoffset, Shot.slice_imageLists]
  refine ((hedges _ _).trans (hgaps _ _)).trans ((slice_padded hi _).trans ?_)
  rw [← leBytes_natWord (x.progress.histogram.getD i 0)]
  refine congrArg (fun w : Word => leBytes 4 w.toNat) ?_
  rw [List.getD_eq_getElem?_getD, List.getD_eq_getElem?_getD, List.getElem?_map]
  cases x.progress.histogram[i]? <;> rfl

end Image

/-! ## The edge mask (R218) -/

theorem edgeMask_shift (k : Nat) (edges : List Edge) : edgeMask (k + 1) edges = 2 * edgeMask k edges := by
  induction edges generalizing k with
  | nil => rfl
  | cons e edges ih =>
    have hbit : bitIf e.closing (k + 1) = 2 * bitIf e.closing k := by
      unfold bitIf
      split
      · exact Nat.pow_succ'
      · rfl
    show bitIf e.closing (k + 1) + edgeMask (k + 1 + 1) edges = 2 * (bitIf e.closing k + edgeMask (k + 1) edges)
    rw [hbit, ih, Nat.mul_add]

theorem testBit_edgeMask (edges : List Edge) (n : Nat) : (edgeMask 0 edges).testBit n = (edges[n]?.map Edge.closing).getD false := by
  induction edges generalizing n with
  | nil =>
    show Nat.testBit 0 n = _
    rw [Nat.zero_testBit]
    rfl
  | cons e edges ih =>
    have hmask : edgeMask 0 (e :: edges) = (if e.closing then 1 else 0) + 2 * edgeMask 0 edges := by
      rw [← edgeMask_shift]
      rfl
    rw [hmask]
    cases n with
    | zero =>
      rw [Nat.testBit_zero]
      cases hc : e.closing <;> simp [hc, Nat.add_mod]
    | succ n =>
      have hhalf : ((if e.closing then 1 else 0) + 2 * edgeMask 0 edges) / 2 = edgeMask 0 edges := by
        split <;> omega
      rw [Nat.testBit_succ, hhalf, ih]
      rfl

/-! ## The card file (R195, R220) -/

/-- The fields of file sector 0. -/
def headerFields (geo : Geometry) (shot : Word) (id : Nat) (time : Word) : List (Nat × Nat) :=
  [(4, 0x4B424631), (2, 1), (2, 614), (2, geo.width), (2, geo.height), (1, geo.cfa.code), (1, geo.depth), (2, 0),
    (4, geo.width * geo.height * 2), (4, 8 + (geo.width * geo.height * 2 + 511) / 512 + 1), (4, shot.toNat), (2, id), (2, 0),
    (4, time.toNat)]

theorem headerImage_eq (geo : Geometry) (x : Shot) (id : Nat) (time : Word) :
    headerImage geo x id time =
      packed (headerFields geo x.number id time) ++ (List.replicate 476 0 ++ (x.image ++ List.replicate 3072 0)) := by
  have hframe : geo.frameBytes = geo.width * geo.height * 2 := rfl
  have hsectors : geo.fileSectors = 8 + (geo.width * geo.height * 2 + 511) / 512 + 1 := rfl
  unfold headerImage fileHeader headerFields wordBytes
  simp only [packed, List.flatMap_cons, List.flatMap_nil, List.append_assoc, List.append_nil, hframe, hsectors]

theorem fileTrailer_eq (crc : Word) (geo : Geometry) (shot : Word) :
    fileTrailer crc geo shot =
      packed [(4, (~~~crc).toNat), (4, 4096 + geo.width * geo.height * 2), (4, shot.toNat)] ++ List.replicate 500 0 := by
  have hframe : geo.frameBytes = geo.width * geo.height * 2 := rfl
  unfold fileTrailer wordBytes crcEnd
  simp only [packed, List.flatMap_cons, List.flatMap_nil, List.append_assoc, List.append_nil, hframe]

theorem sum_headerFields (geo : Geometry) (shot : Word) (id : Nat) (time : Word) :
    ((headerFields geo shot id time).map Prod.fst).sum = 36 := by
  unfold headerFields
  simp only [List.map_cons, List.map_nil, List.sum_cons, List.sum_nil, Nat.reduceAdd]

/-- Between and after the fields of file sector 0: zeros, the image, zeros. -/
theorem headerImage_areas (geo : Geometry) (x : Shot) (id : Nat) (time : Word) (himage : x.image.length = 512) :
    (headerImage geo x id time).length = 4096 ∧ slice 512 512 (headerImage geo x id time) = x.image ∧
      slice 1024 3072 (headerImage geo x id time) = List.replicate 3072 0 ∧
      slice 36 476 (headerImage geo x id time) = List.replicate 476 0 := by
  have hfields (offset n : Nat) := slice_packed (headerFields geo x.number id time)
    (List.replicate 476 0 ++ (x.image ++ List.replicate 3072 0)) offset n
  have hzeros (offset n : Nat) := slice_append_right (List.replicate 476 0) (x.image ++ List.replicate 3072 0) offset n
  have hshot (offset n : Nat) := slice_append_right x.image (List.replicate 3072 0) offset n
  rw [sum_headerFields, ← headerImage_eq] at hfields
  rw [List.length_replicate] at hzeros
  rw [himage] at hshot
  refine ⟨?_, ?_, ?_, ?_⟩
  · rw [headerImage_eq, List.length_append, List.length_append, List.length_append, length_packed, sum_headerFields, himage,
      List.length_replicate, List.length_replicate]
  · exact (hfields 476 512).trans ((hzeros 0 512).trans (slice_append_left _ himage))
  · exact (hfields 988 3072).trans ((hzeros 512 3072).trans ((hshot 0 3072).trans (slice_replicate (Nat.le_refl _) 0)))
  · exact (hfields 0 476).trans (slice_append_left _ List.length_replicate)

/-- The trailer is its fields and 500 zeros. -/
theorem fileTrailer_areas (crc : Word) (geo : Geometry) (shot : Word) :
    (fileTrailer crc geo shot).length = 512 ∧ slice 12 500 (fileTrailer crc geo shot) = List.replicate 500 0 := by
  have hfields := slice_packed [(4, (~~~crc).toNat), (4, 4096 + geo.width * geo.height * 2), (4, shot.toNat)] (List.replicate 500 0) 0 500
  rw [← fileTrailer_eq] at hfields
  simp only [List.map_cons, List.map_nil, List.sum_cons, List.sum_nil, Nat.reduceAdd] at hfields
  refine ⟨?_, hfields.trans (slice_replicate (Nat.le_refl _) 0)⟩
  rw [fileTrailer_eq, List.length_append, length_packed, List.length_replicate]
  simp only [List.map_cons, List.map_nil, List.sum_cons, List.sum_nil, Nat.reduceAdd]

end Sys2Proof.Machine
end

section
/-! PROOFS. The host's commands and the card queue: only six of them move it (R192). -/

namespace Sys2Proof.Machine

/-! ## What leaves the card queue as it is -/

section Commands
variable (n : Fin 8) (args : List Word) (p : Part)

theorem cmdSetGeometry_requests : (cmdSetGeometry n args p).cde.requests = p.cde.requests := by
  unfold cmdSetGeometry
  (repeat' split) <;> simp

theorem cmdSetWindow_requests : (cmdSetWindow n args p).cde.requests = p.cde.requests := by
  unfold cmdSetWindow
  (repeat' split) <;> simp

theorem cmdStart_requests : (cmdStart n args p).cde.requests = p.cde.requests := by
  unfold cmdStart
  split <;> simp

theorem cmdClearFlags_requests : (cmdClearFlags n args p).cde.requests = p.cde.requests := by
  unfold cmdClearFlags
  simp only [Part.done_cde]
  split <;> simp

theorem cmdLoadOpen_requests : (cmdLoadOpen n args p).cde.requests = p.cde.requests := by
  unfold cmdLoadOpen
  dsimp only
  (repeat' split) <;> simp

theorem cmdLoadClose_requests : (cmdLoadClose n args p).cde.requests = p.cde.requests := by
  unfold cmdLoadClose
  split <;> simp

theorem cmdLoadCancel_requests : (cmdLoadCancel n args p).cde.requests = p.cde.requests := by
  unfold cmdLoadCancel
  split <;> simp

theorem cmdSetSync_requests : (cmdSetSync n args p).cde.requests = p.cde.requests := by
  unfold cmdSetSync
  dsimp only
  (repeat' split) <;> simp

theorem cmdSetDarkPolicy_requests : (cmdSetDarkPolicy n args p).cde.requests = p.cde.requests := by
  unfold cmdSetDarkPolicy
  (repeat' split) <;> simp

theorem cmdProtect_requests : (cmdProtect n args p).cde.requests = p.cde.requests := by
  unfold cmdProtect Part.setProtect
  dsimp only
  (repeat' split) <;> simp

theorem cmdViewSelect_requests : (cmdViewSelect n args p).cde.requests = p.cde.requests := by
  unfold cmdViewSelect Part.select
  dsimp only
  (repeat' split) <;> simp

theorem Part.setCard_requests (c : CardState) (step : List Word) (p : Part) : (p.setCard c step).cde.requests = p.cde.requests := by
  unfold Part.setCard
  simp

theorem cmdCardInit_requests : (cmdCardInit n args p).cde.requests = p.cde.requests := by
  unfold cmdCardInit
  dsimp only
  (repeat' split) <;> simp [Part.setCard_requests]

theorem cmdStore_requests : (cmdStore n args p).cde.requests = p.cde.requests := by
  unfold cmdStore
  dsimp only
  (repeat' split) <;> simp

theorem cmdQueryShot_requests : (cmdQueryShot n args p).cde.requests = p.cde.requests := by
  by_cases h : argAddr args 1 % 16 ≠ 0 ∨ (!p.pts.inPass (argAddr args 1) 512) = true
  · rw [cmdQueryShot_of_badBuffer h, Part.refuse_cde]
  · cases hx : p.shot? (argWord args 0) with
    | none => rw [cmdQueryShot_of_unknown h hx, Part.refuse_cde]
    | some x => rw [cmdQueryShot_of_known h hx]

end Commands

/-! ## A record without a request goes without one -/

theorem Part.requestFor_congr {p q : Part} (h : q.cde.requests = p.cde.requests) (n : Word) : q.requestFor n = p.requestFor n := by
  unfold Part.requestFor
  rw [h]

theorem Part.removeShot_requests {n : Word} {p : Part} (h : p.requestFor n = none) : (p.removeShot n).cde.requests = p.cde.requests := by
  unfold Part.removeShot
  split
  · rfl
  · next t _ =>
    rw [Part.freeSlot_cde]
    unfold Part.dropRecord
    dsimp only
    have hlowered : (if t.state.undeveloped then p.lowerDark n t.progress.dark else p).cde = p.cde := by
      split
      · exact Part.lowerDark_cde _ _ _
      · rfl
    generalize (if t.state.undeveloped then p.lowerDark n t.progress.dark else p) = q at hlowered ⊢
    have hcounted : (if t.prot then { q with sht := { q.sht with protectedCount := q.sht.protectedCount - 1 } } else q).cde = p.cde := by
      split <;> exact hlowered
    generalize (if t.prot then { q with sht := { q.sht with protectedCount := q.sht.protectedCount - 1 } } else q) = r at hcounted ⊢
    have hview : (r.clearViewOf n).cde = p.cde := (Part.clearViewOf_cde n r).trans hcounted
    rw [Part.cancelFor_of_none ((Part.requestFor_congr (congrArg Cde.requests hview) n).trans h), hview]

theorem Part.autoRelease_requests (n : Word) (p : Part) : (p.autoRelease n).cde.requests = p.cde.requests := by
  obtain ⟨cpa, sht, prn, h, -⟩ := p.autoRelease_frame n
  rw [h]

theorem cmdUnprotect_requests (n : Fin 8) (args : List Word) (p : Part) : (cmdUnprotect n args p).cde.requests = p.cde.requests := by
  unfold cmdUnprotect Part.setProtect
  dsimp only
  (repeat' split) <;> simp [Part.autoRelease_requests]

/-! ## Arming and the end of a dark capture -/

theorem Part.armInto_requests (slot : Nat) (r : ArmRequest) (p : Part) : (p.armInto slot r).cde.requests = p.cde.requests := by
  have hstaged : p.applyStaged.cde = p.cde := rfl
  unfold Part.armInto
  simp [hstaged]

theorem Part.allocate_requests {h : Holder} {p q : Part} {slot : Nat} (ha : p.allocate h = some (slot, q)) :
    q.cde.requests = p.cde.requests := by
  unfold Part.allocate Part.evict at ha
  split at ha
  · cases ha
    simp
  · split at ha
    · cases ha
    · next hevict =>
      split at hevict
      · cases hevict
      · cases hevict
        cases ha
        simp

theorem Part.armAccept_requests (origin : Option (Fin 8)) (r : ArmRequest) (p : Part) :
    (p.armAccept origin r).cde.requests = p.cde.requests := by
  unfold Part.armAccept
  split
  · split <;> simp
  · next ha =>
    have hq := Part.allocate_requests ha
    dsimp only
    split <;> simp [Part.armInto_requests, hq]

theorem Part.checkedArm_requests {go : ArmRequest → Part → Part} (hgo : ∀ r p, (go r p).cde.requests = p.cde.requests) (n : Fin 8)
    (args : List Word) (p : Part) : (p.checkedArm n args go).cde.requests = p.cde.requests := by
  unfold Part.checkedArm
  (repeat' split) <;> simp [hgo]

theorem Part.resumeArms_requests (arms : List (Fin 8 × List Word)) (p : Part) : (p.resumeArms arms).cde.requests = p.cde.requests := by
  induction arms generalizing p with
  | nil => rfl
  | cons a arms ih =>
    exact (ih _).trans (Part.checkedArm_requests (fun r q => Part.armAccept_requests _ r q) _ _ _)

/-- A RELEASE that waits for a capture's end is one of a shot that no request names. -/
def After.unnamed (a : After) (p : Part) : Prop := ∀ n shot, a = .release n shot → p.requestFor shot = none

theorem Part.afterCapture_requests {a : After} {p : Part} (h : a.unnamed p) : (p.afterCapture a).cde.requests = p.cde.requests := by
  unfold Part.afterCapture
  cases a with
  | nothing => rfl
  | arm n args =>
    dsimp only
    split
    · rfl
    · exact Part.armAccept_requests _ _ _
  | skip n phase => simp
  | release n shot =>
    dsimp only
    split
    · simp
    · next t ht =>
      unfold Part.releaseNow
      rw [Part.done_cde, Part.number_of_shot? ht]
      exact Part.removeShot_requests (h n shot rfl)

theorem Part.finishEnding_requests {e : Ending} {p : Part} (h : e.after.unnamed p) : (p.finishEnding e).cde.requests = p.cde.requests := by
  unfold Part.finishEnding
  split
  · rfl
  · next c _ =>
    dsimp only
    rw [Part.resumeArms_requests]
    split
    · next m shot hafter =>
      refine (Part.afterCapture_requests fun n' shot' h' => ?_).trans (by simp)
      exact (Part.requestFor_congr (by simp) shot').trans (h n' shot' h')
    · refine (Part.afterCapture_requests fun n' shot' h' => ?_).trans (by simp)
      exact (Part.requestFor_congr (by simp) shot').trans (h n' shot' h')

theorem Part.endCapture_requests {reason : DarkReason} {after : After} {p : Part} (h : after.unnamed p) :
    (p.endCapture reason after).cde.requests = p.cde.requests := by
  unfold Part.endCapture
  split
  · rfl
  · split
    · rfl
    · dsimp only
      split
      · split
        · rfl
        · exact Part.finishEnding_requests h
      · exact Part.finishEnding_requests h

theorem cmdArm_requests (n : Fin 8) (args : List Word) (p : Part) : (cmdArm n args p).cde.requests = p.cde.requests := by
  refine Part.checkedArm_requests (fun r q => ?_) n args p
  unfold Part.armOrPreempt
  split
  · split
    · exact Part.endCapture_requests fun _ _ h => nomatch h
    · rfl
  · exact Part.armAccept_requests _ _ _

theorem cmdSkipDark_requests (n : Fin 8) (args : List Word) (p : Part) : (cmdSkipDark n args p).cde.requests = p.cde.requests := by
  unfold cmdSkipDark
  dsimp only
  split
  · simp
  · split
    · split
      · split
        · simp
        · exact Part.endCapture_requests fun _ _ h => nomatch h
      · simp
    · simp
    · simp

theorem cmdRelease_requests (n : Fin 8) (args : List Word) (p : Part) : (cmdRelease n args p).cde.requests = p.cde.requests := by
  have hrelease {t : Shot} (h : p.requestFor t.number = none) : (p.releaseNow n t).cde.requests = p.cde.requests := by
    unfold Part.releaseNow
    rw [Part.done_cde]
    exact Part.removeShot_requests h
  unfold cmdRelease
  dsimp only
  split
  · simp
  · next t hkept =>
    have hnumber : t.number = argWord args 0 := Part.number_of_shot? (Part.keptShot?_eq_some.1 hkept).2
    split
    · simp
    · split
      · simp
      · next hreq =>
        split
        · exact hrelease (by rw [hnumber]; exact hreq)
        · exact hrelease (by rw [hnumber]; exact hreq)
        · split
          · refine Part.endCapture_requests fun m shot h => ?_
            cases h
            exact hreq
          · simp
        · simp

/-! ## ABORT -/

theorem Part.abortSlot_requests (n : Fin 8) (p : Part) : (p.abortSlot n).cde.requests = p.cde.requests := by
  have hclose (q : Part) : q.abortClose.cde.requests = q.cde.requests := by
    unfold Part.abortClose
    split <;> simp
  have hbringup (q : Part) : q.abortBringup.cde.requests = q.cde.requests := by
    unfold Part.abortBringup
    split
    · rfl
    · split
      · unfold Part.bringupAborted
        rw [Part.fail_cde, Part.setCard_requests]
        rfl
      · rfl
  have hmarked (c : Latched) : (p.markAborting n c).cde.requests = p.cde.requests := rfl
  unfold Part.abortSlot
  split
  · unfold Part.abortBusy
    (repeat' split) <;> simp [hclose, hbringup, hmarked]
  · unfold Part.takeVerb Part.gate cmdAbort
    (repeat' split) <;> simp

/-! ## RESET_SHOTS and CARD_RESUME leave nothing to choose -/

theorem Part.choose_of_empty {p : Part} (h : p.cde.requests = []) : p.choose = p :=
  Part.choose_of_idle (.inr (.inr (by rw [h]; exact fun r hr => absurd hr List.not_mem_nil)))

theorem Part.checkCdeStop_requests (p : Part) : p.checkCdeStop.cde.requests = p.cde.requests ∨ p.checkCdeStop.cde.requests = [] := by
  unfold Part.checkCdeStop
  split
  · refine .inr ?_
    dsimp only
    rw [Part.statusDirty_cde]
  · exact .inl rfl

theorem Part.abortAfter_cde (a : After) (p : Part) : (p.abortAfter a).cde = p.cde := by
  unfold Part.abortAfter
  split <;> simp

theorem Part.abortArms_cde (arms : List (Fin 8 × List Word)) (p : Part) : (p.abortArms arms).cde = p.cde := by
  induction arms generalizing p with
  | nil => rfl
  | cons a arms ih => exact (ih _).trans (Part.fail_cde _ _ _ _)

theorem Part.stopDfl_cde (p : Part) : p.stopDfl.cde = p.cde := by
  unfold Part.stopDfl
  cases p.dfl.ending with
  | none =>
    dsimp only
    split <;> simp
  | some e =>
    dsimp only
    split <;> simp [Part.abortArms_cde, Part.abortAfter_cde]

theorem Part.stopCal_cde (p : Part) : p.stopCal.cde = p.cde := by
  unfold Part.stopCal Part.abortClose
  (repeat' split) <;> simp

theorem cmdResetShots_requests (n : Fin 8) (args : List Word) (p : Part) :
    (cmdResetShots n args p).cde.requests = p.cde.requests ∨ (cmdResetShots n args p).cde.requests = [] := by
  have hif {c : Prop} [Decidable c] {q r : Part} (hq : q.cde = p.cde) (hr : r.cde = p.cde) : (if c then q else r).cde = p.cde := by
    split
    · exact hq
    · exact hr
  unfold cmdResetShots Part.stopBlocks
  dsimp only
  have hstopped (q : Part) (hq : q.cde = p.cde) : q.stopEsu.stopDfl.stopCal.cde = p.cde := by
    rw [Part.stopCal_cde, Part.stopDfl_cde]
    exact hq
  refine (Part.checkCdeStop_requests _).imp_left fun h => h.trans (congrArg Cde.requests ?_)
  have h0 := hstopped { p with cpa := { p.cpa with resetting := some ⟨n, false, false, false, false, false, 0, 0⟩ } } rfl
  generalize Part.stopCal _ = q at h0 ⊢
  have h1 : (if q.icr.work.isNone then q.icrStopped else q).cde = p.cde := hif h0 h0
  generalize (if q.icr.work.isNone then q.icrStopped else q) = q1 at h1 ⊢
  have h2 : (if q1.dpeInFlight then q1 else q1.dpeStopped).cde = p.cde := hif h1 h1
  generalize (if q1.dpeInFlight then q1 else q1.dpeStopped) = q2 at h2 ⊢
  exact hif h2 h2

/-- Once a request of the id has been activated it is ACTIVE or HALTED, and none is chosen. -/
theorem Part.choose_of_activated {id : Nat} {p : Part} (h : ∃ r ∈ p.cde.requests, r.id = id) (q : Part)
    (hq : q.cde.requests = (p.activate id).cde.requests) : q.choose = q := by
  cases hfound : p.cde.requests.find? fun x => decide (x.id = id) with
  | none =>
    obtain ⟨r, hr, hid⟩ := h
    exact absurd hid (by simpa using List.find?_eq_none.1 hfound r hr)
  | some a =>
    obtain rfl : a.id = id := by simpa using List.find?_some hfound
    obtain ⟨x, hx, -, hin, hbeyond⟩ := Part.activate_request hfound
    refine Part.choose_of_idle (.inr (.inl ⟨x, by rw [hq]; exact List.mem_of_find?_eq_some hx, ?_⟩))
    cases hext : extentsBelow (p.cde.capacity.getD 0) a.work.extents with
    | true => exact .inr (hin hext)
    | false => exact .inl (hbeyond hext).1

theorem choosing_cmdCardResume (n : Fin 8) (args : List Word) (p : Part) :
    Part.choosing (cmdCardResume n args) p = cmdCardResume n args p := by
  cases hr : p.cde.halted with
  | none =>
    have hresume := cmdCardResume_of_none (n := n) (args := args) hr
    exact (Part.choosing_of_requests hresume (by rw [Part.refuse_cde])).trans hresume.symm
  | some r =>
    by_cases hcard : p.cde.card = .ready
    · have hresume := cmdCardResume_of_ready (n := n) (args := args) hr hcard
      refine (Part.choosing_of_idle hresume ?_).trans hresume.symm
      have hmem : r ∈ p.cde.requests := List.mem_of_find?_eq_some hr
      refine Part.choose_of_activated (id := r.id) (p := p.modRequest r.id fun x => { x with retries := 0 })
        ⟨{ r with retries := 0 }, ?_, rfl⟩ _ (by rw [Part.done_cde, Part.statusDirty_cde])
      exact List.mem_map.2 ⟨r, hmem, if_pos rfl⟩
    · have hresume := cmdCardResume_of_other (n := n) (args := args) hr hcard
      exact (Part.choosing_of_requests hresume (by rw [Part.refuse_cde])).trans hresume.symm

theorem choosing_cmdResetShots (n : Fin 8) (args : List Word) (p : Part) :
    Part.choosing (cmdResetShots n args) p = cmdResetShots n args p := by
  rcases cmdResetShots_requests n args p with h | h
  · exact Part.choosing_of_requests rfl h
  · exact Part.choosing_of_idle rfl (Part.choose_of_empty h)

/-! ## One observed command, with the choice that may follow it (R21, R192) -/

/-- The row of a command is its owner's part, with the choice where it moves the queue. -/
theorem choosing_bodyOf {v : Verb} (hv : v ≠ .abort) (n : Fin 8) (args : List Word) (p : Part) :
    Part.choosing (bodyOf v n args) p = v.body n args p := by
  cases v with
  | abort => exact absurd rfl hv
  | disarm | cardWrite | cardRead | cardCancel => rfl
  | resetShots => exact choosing_cmdResetShots n args p
  | cardResume => exact choosing_cmdCardResume n args p
  | setGeometry => exact Part.choosing_of_requests rfl (cmdSetGeometry_requests n args p)
  | setWindow => exact Part.choosing_of_requests rfl (cmdSetWindow_requests n args p)
  | start => exact Part.choosing_of_requests rfl (cmdStart_requests n args p)
  | status => exact Part.choosing_of_requests rfl (congrArg Cde.requests (Part.statusFor_cde n p))
  | clearFlags => exact Part.choosing_of_requests rfl (cmdClearFlags_requests n args p)
  | setEventMask => exact Part.choosing_of_requests rfl (congrArg Cde.requests (Part.done_cde n _ _))
  | loadOpen => exact Part.choosing_of_requests rfl (cmdLoadOpen_requests n args p)
  | loadClose => exact Part.choosing_of_requests rfl (cmdLoadClose_requests n args p)
  | loadCancel => exact Part.choosing_of_requests rfl (cmdLoadCancel_requests n args p)
  | arm => exact Part.choosing_of_requests rfl (cmdArm_requests n args p)
  | setSync => exact Part.choosing_of_requests rfl (cmdSetSync_requests n args p)
  | snapshot => exact Part.choosing_of_requests rfl (congrArg Cde.requests (Part.done_cde n _ _))
  | setDarkPolicy => exact Part.choosing_of_requests rfl (cmdSetDarkPolicy_requests n args p)
  | skipDark => exact Part.choosing_of_requests rfl (cmdSkipDark_requests n args p)
  | protect => exact Part.choosing_of_requests rfl (cmdProtect_requests n args p)
  | unprotect => exact Part.choosing_of_requests rfl (cmdUnprotect_requests n args p)
  | release => exact Part.choosing_of_requests rfl (cmdRelease_requests n args p)
  | queryShot => exact Part.choosing_of_requests rfl (cmdQueryShot_requests n args p)
  | viewSelect => exact Part.choosing_of_requests rfl (cmdViewSelect_requests n args p)
  | cardInit => exact Part.choosing_of_requests rfl (cmdCardInit_requests n args p)
  | store => exact Part.choosing_of_requests rfl (cmdStore_requests n args p)
  | setLimits => exact Part.choosing_of_requests rfl (congrArg Cde.requests (Part.doneOr_cde n _ _ _))

/-- The choice after work that begins on the part with the same queue. -/
theorem Part.choosing_congr {f g : Part → Part} {p q : Part} (h : f p = g q) (hq : q.cde.requests = p.cde.requests) :
    Part.choosing f p = Part.choosing g q := by
  unfold Part.choosing
  rw [h, hq]

/-- The checks before the owner refuse the command, or hand it on with the queue as it was. -/
theorem Part.gate_cases (v : Verb) (n : Fin 8) (p : Part) :
    (∃ code data, ∀ body, p.gate v n body = p.refuse n code data) ∨ ∃ q, q.cde = p.cde ∧ ∀ body, p.gate v n body = body q := by
  unfold Part.gate
  by_cases hmode : (!v.accepted p.cpa.mode) = true
  · exact .inl ⟨_, _, fun _ => if_pos hmode⟩
  · simp only [if_neg hmode]
    by_cases hres : (p.cpa.resetting.isSome && !v.duringReset) = true
    · exact .inl ⟨_, _, fun _ => if_pos hres⟩
    · simp only [if_neg hres]
      by_cases hshot : (v.isShot && decide (p.cpa.mode = .service)) = true
      · simp only [if_pos hshot]
        cases p.missing with
        | some data => exact .inl ⟨_, _, fun _ => rfl⟩
        | none => exact .inr ⟨_, p.fixSlots_cde, fun _ => rfl⟩
      · exact .inr ⟨p, rfl, fun _ => if_neg hshot⟩

theorem Part.choosing_gate {v : Verb} {body body' : Part → Part} (hbody : ∀ q, Part.choosing body q = body' q) (n : Fin 8) (p : Part) :
    Part.choosing (fun q => q.gate v n body) p = p.gate v n body' := by
  rcases p.gate_cases v n with ⟨code, data, h⟩ | ⟨q, hq, h⟩
  · rw [h body']
    exact Part.choosing_of_requests (h body) (congrArg Cde.requests (Part.refuse_cde n code data p))
  · rw [h body', ← hbody]
    exact Part.choosing_congr (h body) (congrArg Cde.requests hq)

theorem Part.choosing_takeVerb {v : Verb} (hv : v ≠ .abort) (n : Fin 8) (p : Part) :
    Part.choosing (fun q => q.takeVerb v n (bodyOf v)) p = p.takeVerb v n v.body := by
  have hgate := Part.choosing_gate (v := v) (fun q => choosing_bodyOf hv n p.cpa.slots[n].args q) n (p.latch (some v) n)
  exact (Part.choosing_congr (q := p.latch (some v) n) rfl rfl).trans hgate

/-! ## A verb word observed in a slot (R21, R23, R24) -/

theorem Part.verbWord_zero (n : Fin 8) (p : Part) : p.verbWord n 0 = p := if_pos rfl

section VerbWord
variable {n : Fin 8} {w : Word} {p : Part} (hw : w ≠ 0)
include hw

theorem Part.verbWord_of_abort (h : verbOf w = some .abort) : p.verbWord n w = p.abortSlot n := by
  unfold Part.verbWord
  rw [if_neg hw, h]

theorem Part.verbWord_of_busy {c : Latched} (h : verbOf w ≠ some .abort) (hc : p.cpa.slots[n].cmd = some c) : p.verbWord n w = p := by
  unfold Part.verbWord Part.cmdIn
  rw [if_neg hw]
  split
  · next habort => exact absurd habort h
  · rw [hc]

theorem Part.verbWord_of_idle {v : Verb} (hv : verbOf w = some v) (habort : v ≠ .abort) (hc : p.cpa.slots[n].cmd = none) :
    p.verbWord n w = p.takeVerb v n (bodyOf v) := by
  unfold Part.verbWord Part.cmdIn
  rw [if_neg hw, hv]
  split
  · next h => exact absurd (Option.some.inj h) habort
  · simp only [hc]

theorem Part.verbWord_of_unknown (hv : verbOf w = none) (hc : p.cpa.slots[n].cmd = none) :
    p.verbWord n w = (p.latch none n).refuse n .unknownVerb [] := by
  unfold Part.verbWord Part.cmdIn
  rw [if_neg hw, hv]
  simp only [hc]

end VerbWord

theorem verbs_code (v : Verb) : verbs[v.code - 1]? = some v := by cases v <;> rfl

theorem verbOf_code {w : Word} {v : Verb} (h : w.toNat = v.code) : w ≠ 0 ∧ verbOf w = some v := by
  have hne : w ≠ 0 := by
    rintro rfl
    exact absurd h (by cases v <;> decide)
  refine ⟨hne, ?_⟩
  unfold verbOf
  rw [if_neg hne, h]
  exact verbs_code v

theorem verbOf_of_beyond {w : Word} (h : 29 < w.toNat) : w ≠ 0 ∧ verbOf w = none := by
  have hne : w ≠ 0 := by
    rintro rfl
    exact absurd h (by decide)
  refine ⟨hne, ?_⟩
  unfold verbOf
  rw [if_neg hne]
  exact List.getElem?_eq_none (show 29 ≤ w.toNat - 1 by omega)

/-- A known verb written into a slot acts as its row. -/
theorem Part.choosing_verbWord {v : Verb} {w : Word} (h : w.toNat = v.code) (hv : v ≠ .abort) (n : Fin 8) (p : Part) :
    Part.choosing (fun q => q.verbWord n w) p =
      if p.cpa.slots[n].cmd.isSome then p else p.takeVerb v n v.body := by
  obtain ⟨hne, hverb⟩ := verbOf_code h
  cases hc : p.cpa.slots[n].cmd with
  | some c =>
    exact Part.choosing_of_requests (Part.verbWord_of_busy hne (by rw [hverb]; exact fun h => hv (Option.some.inj h)) hc) rfl
  | none =>
    refine Eq.trans ?_ (Part.choosing_takeVerb hv n p)
    exact Part.choosing_congr (Part.verbWord_of_idle hne hverb hv hc) rfl

end Sys2Proof.Machine
end

section
/-! PROOFS. The CPA's writes to the control page and the records in memory (R19 to R23, R216 to R220). -/

namespace Sys2Proof.Machine

/-! ## The beats of a slot (R19, R20) -/

theorem slotPlace_slot (n : Fin 8) {i : Nat} (hi : i < 128) : slotPlace (1024 + 128 * n.val + i) = some (n, i) := by
  have hoff : 1024 + 128 * n.val + i - 1024 = 128 * n.val + i := by omega
  have hdiv : (128 * n.val + i) / 128 = n.val := by omega
  have hmod : (128 * n.val + i) % 128 = i := by omega
  have hin : Config.slotArea ≤ 1024 + 128 * n.val + i ∧ (1024 + 128 * n.val + i - Config.slotArea) / 128 < 8 := by
    refine ⟨by show 1024 ≤ _; omega, ?_⟩
    show (1024 + 128 * n.val + i - 1024) / 128 < 8
    rw [hoff, hdiv]
    exact n.isLt
  unfold slotPlace
  rw [dif_pos hin]
  refine congrArg some (Prod.ext (Fin.ext ?_) ?_)
  · show (1024 + 128 * n.val + i - 1024) / 128 = n.val
    rw [hoff, hdiv]
  · show (1024 + 128 * n.val + i - 1024) % 128 = i
    rw [hoff, hmod]

section SlotBeats
variable (n : Fin 8) (data : List Byte) (p : Part)

theorem Part.noteBeat_first :
    p.noteBeat (1024 + 128 * n.val, data) = p.putSlot n fun s => { s with tag := wordAt data 4 } := by
  unfold Part.noteBeat
  simp only [show slotPlace (1024 + 128 * n.val) = some (n, 0) from slotPlace_slot n (i := 0) (by decide)]

theorem Part.noteBeat_args {j : Nat} (hj : 1 ≤ j) (hj6 : j ≤ 6) :
    p.noteBeat (1024 + 128 * n.val + 16 * j, data) =
      p.putSlot n fun s => { s with args := overlay s.args (4 * (j - 1)) (bytesWords data) } := by
  have hplace := slotPlace_slot n (i := 16 * j) (by omega)
  have hat : 16 * j / 4 - 4 = 4 * (j - 1) := by omega
  unfold Part.noteBeat
  simp only [hplace]
  split
  · next h => cases h
  · next h =>
    have := (Prod.ext_iff.1 (Option.some.inj h)).2
    simp only at this
    omega
  · next m i _ h =>
    obtain ⟨rfl, rfl⟩ := Prod.ext_iff.1 (Option.some.inj h)
    rw [if_pos (by show 16 * j < 112; omega), hat]

theorem Part.noteBeat_spare : p.noteBeat (1024 + 128 * n.val + 112, data) = p := by
  unfold Part.noteBeat
  simp only [slotPlace_slot n (i := 112) (by decide)]
  rfl

theorem Part.actBeat_first : p.actBeat (1024 + 128 * n.val, data) = p.verbWord n (wordAt data 0) := by
  have hlt := n.isLt
  unfold Part.actBeat
  rw [if_neg (by show ¬1024 + 128 * n.val < 256; omega), if_neg (by show 1024 + 128 * n.val ≠ 3840; omega),
    if_neg (by show 1024 + 128 * n.val ≠ 3856; omega)]
  simp only [show slotPlace (1024 + 128 * n.val) = some (n, 0) from slotPlace_slot n (i := 0) (by decide)]

theorem Part.actBeat_rest {i : Nat} (hi : 0 < i) (hi' : i < 128) : p.actBeat (1024 + 128 * n.val + i, data) = p := by
  have hlt := n.isLt
  unfold Part.actBeat
  rw [if_neg (by show ¬1024 + 128 * n.val + i < 256; omega), if_neg (by show 1024 + 128 * n.val + i ≠ 3840; omega),
    if_neg (by show 1024 + 128 * n.val + i ≠ 3856; omega)]
  simp only [slotPlace_slot n hi']
  split
  · next h =>
    have := (Prod.ext_iff.1 (Option.some.inj h)).2
    simp only at this
    omega
  · rfl

end SlotBeats

theorem Part.actBeat_of_quiet {off : Nat} (h : (256 ≤ off ∧ off < 1024) ∨ (2048 ≤ off ∧ off < 3840) ∨ 3872 ≤ off) (data : List Byte)
    (p : Part) : p.actBeat (off, data) = p := by
  unfold Part.actBeat
  rw [if_neg (by show ¬off < 256; omega), if_neg (by show off ≠ 3840; omega), if_neg (by show off ≠ 3856; omega)]
  simp only [slotPlace_eq_none (off := off) (by omega)]

/-- One beat is noted in the copy and acted on. -/
theorem Part.observe_one {data : List Byte} (hlen : data.length = 16) (off : Nat) (p : Part) :
    p.observe off data = Part.choosing (fun q => q.actBeat (off, data)) (p.noteBeat (off, data)) := by
  simp only [Part.observe, beatsOf_one off hlen, List.foldl_cons, List.foldl_nil]

theorem Part.observe_of_quiet {data : List Byte} (hlen : data.length = 16) {off : Nat} {p q : Part} (hnote : p.noteBeat (off, data) = q)
    (hact : q.actBeat (off, data) = q) : p.observe off data = q := by
  rw [Part.observe_one hlen, hnote]
  exact Part.choosing_of_requests hact rfl

/-! ## The words of a beat -/

theorem bytesWords_of_length {bytes : List Byte} {m : Nat} (h : bytes.length = 4 * m) :
    bytesWords bytes = (List.range m).map fun i => wordAt bytes (4 * i) := by
  induction m generalizing bytes with
  | zero =>
    rw [List.length_eq_zero_iff.1 h]
    rfl
  | succ m ih =>
    obtain ⟨a, b, c, d, rest, rfl⟩ : ∃ a b c d rest, bytes = a :: b :: c :: d :: rest := by
      rcases bytes with _ | ⟨a, _ | ⟨b, _ | ⟨c, _ | ⟨d, rest⟩⟩⟩⟩
      · simp at h
      · simp only [List.length_cons, List.length_nil] at h; omega
      · simp only [List.length_cons, List.length_nil] at h; omega
      · simp only [List.length_cons, List.length_nil] at h; omega
      · exact ⟨a, b, c, d, rest, rfl⟩
    have hrest : rest.length = 4 * m := by
      simp only [List.length_cons] at h
      omega
    rw [List.range_succ_eq_map, List.map_cons, List.map_map]
    exact congrArg (List.cons _) (ih hrest)

/-- The list with new elements over its own. -/
theorem getElem?_overlay {α : Type} {old new : List α} {k : Nat} (h : k + new.length ≤ old.length) (i : Nat) :
    (overlay old k new)[i]? = if k ≤ i ∧ i < k + new.length then new[i - k]? else old[i]? := by
  have htake : (old.take k).length = k := by rw [List.length_take]; omega
  rw [overlay_of_fits h, List.append_assoc]
  by_cases hlow : i < k
  · rw [if_neg (by omega), List.getElem?_append_left (by omega), List.getElem?_take_of_lt hlow]
  · rw [List.getElem?_append_right (by omega), htake]
    by_cases hhigh : i < k + new.length
    · rw [if_pos ⟨by omega, hhigh⟩, List.getElem?_append_left (by omega)]
    · rw [if_neg (by omega), List.getElem?_append_right (by omega), List.getElem?_drop]
      congr 1
      omega

theorem length_overlay {α : Type} {old new : List α} {k : Nat} (h : k + new.length ≤ old.length) :
    (overlay old k new).length = old.length := by
  rw [overlay_of_fits h]
  simp only [List.length_append, List.length_take, List.length_drop]
  omega

/-- The argument area with a beat's four words over its own. -/
theorem getD_overlay_beat {args : List Word} (hargs : args.length = 24) {data : List Byte} (hlen : data.length = 16) {j : Nat}
    (hj : 1 ≤ j) (hj6 : j ≤ 6) :
    (overlay args (4 * (j - 1)) (bytesWords data)).length = 24 ∧
      ∀ k < 24, (overlay args (4 * (j - 1)) (bytesWords data)).getD k 0 =
        if 4 * (j - 1) ≤ k ∧ k < 4 * j then wordAt data (4 * (k - 4 * (j - 1))) else args.getD k 0 := by
  have hwords : bytesWords data = (List.range 4).map fun i => wordAt data (4 * i) := bytesWords_of_length hlen
  have hcount : (bytesWords data).length = 4 := by rw [hwords, List.length_map, List.length_range]
  have hfits : 4 * (j - 1) + (bytesWords data).length ≤ args.length := by omega
  refine ⟨(length_overlay hfits).trans hargs, fun k hk => ?_⟩
  rw [List.getD_eq_getElem?_getD, getElem?_overlay hfits, hcount]
  by_cases hin : 4 * (j - 1) ≤ k ∧ k < 4 * j
  · rw [if_pos (by omega), if_pos hin, hwords, List.getElem?_map, List.getElem?_range (by omega)]
    rfl
  · rw [if_neg (by omega), if_neg hin, List.getD_eq_getElem?_getD]

theorem wordAt_toNat (data : List Byte) (i : Nat) : (wordAt data i).toNat = leNat (slice i 4 data) := by
  have hlt : ∀ l : List Byte, leNat l < 256 ^ l.length := by
    intro l
    induction l with
    | nil => exact Nat.one_pos
    | cons v l ih =>
      have hv := v.isLt
      rw [List.length_cons, Nat.pow_succ]
      show v.toNat + 256 * leNat l < _
      omega
  have hslice : (slice i 4 data).length ≤ 4 := by
    unfold slice
    exact List.length_take_le _ _
  unfold wordAt
  rw [BitVec.toNat_ofNat]
  exact Nat.mod_eq_of_lt (Nat.lt_of_lt_of_le (hlt _) (Nat.pow_le_pow_right (by decide) hslice))

/-! ## A burst over two slots (R20, R21) -/

theorem slice_slice {off i n m : Nat} (h : i + n ≤ m) (bytes : List Byte) : slice i n (slice off m bytes) = slice (off + i) n bytes := by
  unfold slice
  rw [List.drop_take, List.take_take, List.drop_drop, Nat.min_eq_left (by omega)]

theorem length_slice {off n : Nat} {bytes : List Byte} (h : off + n ≤ bytes.length) : (slice off n bytes).length = n := by
  unfold slice
  rw [List.length_take, List.length_drop]
  omega

theorem pageBeats_of_length {fuel m : Nat} (hm : m ≤ fuel) (off : Nat) {bytes : List Byte} (h : bytes.length = 16 * m) :
    pageBeats fuel off bytes = (List.range m).map fun j => (off + 16 * j, slice (16 * j) 16 bytes) := by
  induction fuel generalizing m off bytes with
  | zero =>
    obtain rfl := Nat.le_zero.1 hm
    rfl
  | succ fuel ih =>
    cases m with
    | zero => exact if_pos (by omega)
    | succ m =>
      have hrest : (bytes.drop 16).length = 16 * m := by rw [List.length_drop]; omega
      rw [pageBeats, if_neg (by omega), ih (by omega) (off + 16) hrest, List.range_succ_eq_map, List.map_cons, List.map_map]
      refine congrArg (List.cons _) (List.map_congr_left fun j _ => ?_)
      rw [slice_drop]
      simp only [Function.comp, Nat.succ_eq_add_one]
      refine Prod.ext (by simp only; omega) ?_
      exact congrArg (fun k => slice k 16 bytes) (by omega)

theorem Part.putSlot_putSlot (n : Fin 8) (f g : Slot → Slot) (p : Part) : (p.putSlot n f).putSlot n g = p.putSlot n fun s => g (f s) := by
  unfold Part.putSlot
  simp

/-- The argument copy once so many beats of a burst's slot have been noted. -/
def notedArgs (data : List Byte) (at_ : Nat) (old : List Word) : Nat → List Word
  | 0 => old
  | j + 1 => overlay (notedArgs data at_ old j) (4 * j) (bytesWords (slice (at_ + 16 * (j + 1)) 16 data))

theorem notedArgs_spec {data : List Byte} {at_ : Nat} (hdata : at_ + 128 ≤ data.length) {old : List Word} (hold : old.length = 24) {j : Nat}
    (hj : j ≤ 6) :
    (notedArgs data at_ old j).length = 24 ∧
      ∀ k < 24, (notedArgs data at_ old j).getD k 0 = if k < 4 * j then wordAt data (at_ + 16 + 4 * k) else old.getD k 0 := by
  induction j with
  | zero => exact ⟨hold, fun k _ => (if_neg (by omega)).symm⟩
  | succ j ih =>
    obtain ⟨hlen, hget⟩ := ih (by omega)
    have hbeat : (slice (at_ + 16 * (j + 1)) 16 data).length = 16 := length_slice (by omega)
    obtain ⟨hlen', hget'⟩ := getD_overlay_beat hlen hbeat (j := j + 1) (by omega) hj
    refine ⟨hlen', fun k hk => (hget' k hk).trans ?_⟩
    rw [Nat.add_sub_cancel]
    by_cases hin : 4 * j ≤ k ∧ k < 4 * (j + 1)
    · have hword : wordAt (slice (at_ + 16 * (j + 1)) 16 data) (4 * (k - 4 * j)) = wordAt data (at_ + 16 + 4 * k) := by
        unfold wordAt
        rw [slice_slice (by omega)]
        exact congrArg (fun o => BitVec.ofNat 32 (leNat (slice o 4 data))) (by omega)
      rw [if_pos hin, if_pos hin.2, hword]
    · rw [if_neg hin, hget k hk]
      by_cases hlow : k < 4 * j
      · rw [if_pos hlow, if_pos (by omega)]
      · rw [if_neg hlow, if_neg (by omega)]

theorem notedArgs_all {data : List Byte} {at_ : Nat} (hdata : at_ + 128 ≤ data.length) {old : List Word} (hold : old.length = 24) :
    notedArgs data at_ old 6 = (List.range 24).map fun i => wordAt data (at_ + 16 + 4 * i) := by
  obtain ⟨hlen, hget⟩ := notedArgs_spec hdata hold (j := 6) (Nat.le_refl _)
  refine List.ext_getElem (by rw [hlen, List.length_map, List.length_range]) fun k hk _ => ?_
  rw [hlen] at hk
  have hk' := hget k hk
  rw [if_pos hk, List.getD_eq_getElem?_getD, List.getElem?_eq_getElem (by omega), Option.getD_some] at hk'
  rw [hk', List.getElem_map, List.getElem_range]

/-- The beats of one slot in a burst. -/
def slotBeats (n : Fin 8) (data : List Byte) (at_ : Nat) : List (Nat × List Byte) :=
  (List.range 8).map fun j => (1024 + 128 * n.val + 16 * j, slice (at_ + 16 * j) 16 data)

theorem beatsOf_two_slots {n m : Fin 8} (hm : m.val = n.val + 1) {data : List Byte} (h : data.length = 256) :
    beatsOf (1024 + 128 * n.val) data = slotBeats n data 0 ++ slotBeats m data 128 := by
  rw [beatsOf, pageBeats_of_length (m := 16) (by omega) _ h, show 16 = 8 + 8 from rfl, List.range_add, List.map_append, List.map_map]
  refine congr (congrArg _ (List.map_congr_left fun j _ => ?_)) (List.map_congr_left fun j _ => ?_)
  · rw [Nat.zero_add]
  · simp only [Function.comp]
    refine Prod.ext (by simp only; omega) ?_
    exact congrArg (fun k => slice k 16 data) (by omega)

section TwoSlots
variable (n : Fin 8) {data : List Byte} {at_ : Nat} (hdata : at_ + 128 ≤ data.length)
include hdata

/-- All of a slot's copy is noted. -/
theorem foldl_noteBeat_slotBeats {p : Part} (hargs : p.cpa.slots[n].args.length = 24) :
    (slotBeats n data at_).foldl Part.noteBeat p =
      p.putSlot n fun s =>
        ⟨wordAt data (at_ + 4), (List.range 24).map fun i => wordAt data (at_ + 16 + 4 * i), s.cmd⟩ := by
  have htag : wordAt (slice (at_ + 16 * 0) 16 data) 4 = wordAt data (at_ + 4) := by
    unfold wordAt
    rw [slice_slice (by decide)]
  have hnoted : (slotBeats n data at_).foldl Part.noteBeat p =
      p.putSlot n fun s => ⟨wordAt data (at_ + 4), notedArgs data at_ s.args 6, s.cmd⟩ := by
    show Part.noteBeat (Part.noteBeat (Part.noteBeat (Part.noteBeat (Part.noteBeat (Part.noteBeat (Part.noteBeat (Part.noteBeat p
      (1024 + 128 * n.val, slice (at_ + 16 * 0) 16 data)) (1024 + 128 * n.val + 16 * 1, slice (at_ + 16 * 1) 16 data))
      (1024 + 128 * n.val + 16 * 2, slice (at_ + 16 * 2) 16 data)) (1024 + 128 * n.val + 16 * 3, slice (at_ + 16 * 3) 16 data))
      (1024 + 128 * n.val + 16 * 4, slice (at_ + 16 * 4) 16 data)) (1024 + 128 * n.val + 16 * 5, slice (at_ + 16 * 5) 16 data))
      (1024 + 128 * n.val + 16 * 6, slice (at_ + 16 * 6) 16 data)) (1024 + 128 * n.val + 112, slice (at_ + 112) 16 data) = _
    rw [Part.noteBeat_spare, Part.noteBeat_first, htag]
    simp only [Part.noteBeat_args n _ _ (j := 1) (by decide) (by decide), Part.noteBeat_args n _ _ (j := 2) (by decide) (by decide),
      Part.noteBeat_args n _ _ (j := 3) (by decide) (by decide), Part.noteBeat_args n _ _ (j := 4) (by decide) (by decide),
      Part.noteBeat_args n _ _ (j := 5) (by decide) (by decide), Part.noteBeat_args n _ _ (j := 6) (by decide) (by decide),
      Part.putSlot_putSlot]
    rfl
  rw [hnoted]
  unfold Part.putSlot
  simp only [notedArgs_all hdata hargs]

omit hdata in
/-- Of a slot's beats the first alone hands over a verb. -/
theorem foldl_actBeat_slotBeats (p : Part) : (slotBeats n data at_).foldl Part.actBeat p = p.verbWord n (wordAt data at_) := by
  have hword : wordAt (slice (at_ + 16 * 0) 16 data) 0 = wordAt data at_ := by
    unfold wordAt
    rw [slice_slice (by decide)]
    rfl
  have hrest (q : Part) (l : List Nat) (hl : ∀ j ∈ l, 0 < j ∧ j < 8) :
      (l.map fun j => (1024 + 128 * n.val + 16 * j, slice (at_ + 16 * j) 16 data)).foldl Part.actBeat q = q := by
    induction l with
    | nil => rfl
    | cons j l ih =>
      obtain ⟨hpos, hlt⟩ := hl j List.mem_cons_self
      rw [List.map_cons, List.foldl_cons, Part.actBeat_rest n _ q (by omega) (by omega)]
      exact ih fun k hk => hl k (List.mem_cons_of_mem _ hk)
  have hsplit : List.range 8 = 0 :: [1, 2, 3, 4, 5, 6, 7] := rfl
  unfold slotBeats
  rw [hsplit, List.map_cons, List.foldl_cons, hrest _ _ (by decide), ← hword]
  exact Part.actBeat_first n _ p

end TwoSlots

/-! ## The end of a CPA write (R20, R22, R40, R74) -/

theorem Part.portFree_done (n : Fin 8) (data : List Word) (p : Part) : p.portFree.done n data = (p.done n data).portFree := by
  show Part.endCommand _ _ _ _ _ = Part.portFree (Part.endCommand _ _ _ _ _)
  have hcmd : p.portFree.cmdIn n = p.cmdIn n := rfl
  unfold Part.endCommand
  rw [hcmd]
  cases p.cmdIn n with
  | none => rfl
  | some c => cases hc : c.ended <;> simp only [hc] <;> rfl

/-- Settles O17: the layouts by their fields, a host write by the area of its beat, a burst's end by the write it carries. -/
theorem controlPageIsWrittenAndObserved : Obligations.ControlPageIsWrittenAndObserved := by
  refine ⟨⟨fun p n => ?accesses, rfl, rfl, rfl⟩, ?records, ?observed⟩
  case accesses =>
    intro base slot holds index
    have hindex (at_ : Nat) (w : Word) : Access.writeOf (base + at_) (indexBeatBytes w) = index at_ w := by
      unfold Access.writeOf
      rw [length_indexBeatBytes]
      rfl
    have hbeat (verb tag : Word) (cls : ResultClass) (code : ResultCode) : (slotBeatBytes verb tag cls code).length = 16 := by
      rw [slotBeatBytes_eq, List.append_nil, length_packed]
      rfl
    have hslot : base + slotOffset n = slot := (Nat.add_assoc base 1024 (128 * n.val)).symm
    refine ⟨fun words cls code hwords => ?_, fun cls code c hc => ?_, fun i e => ?_, fun w => hindex 3840 w, hindex 3856 _, hindex 3840 _,
      ?_, ?_, hindex 3840 0, hindex 3856 0⟩
    · have hlen : (wordsBytes words).length = 96 := by rw [wordsBytes_length, hwords]
      refine ⟨rfl, congrArg (· + 16) hslot, hlen, hlen, fun i hi => ?_⟩
      have hslice := slice_wordsBytes (hwords ▸ hi : i < words.length) []
      rwa [List.append_nil] at hslice
    · have htag : p.latchedTag n = c.tag := by
        unfold Part.latchedTag Part.cmdIn
        rw [hc]
      have hholds := holds_of_packed (slotBeatBytes_eq 0 c.tag cls code)
      simp only [placedFrom, Nat.reduceAdd, Nat.zero_add] at hholds
      refine ⟨rfl, hslot, hbeat _ _ _ _, hbeat _ _ _ _, ?_⟩
      show holds (slotBeatBytes 0 (p.latchedTag n) cls code) _
      rw [htag]
      exact hholds
    · have hlen : (eventBytes e).length = 32 := by
        rw [eventBytes_eq, List.append_nil, length_packed]
        rfl
      have hholds := holds_of_packed (eventBytes_eq e)
      simp only [placedFrom, Nat.reduceAdd, Nat.zero_add] at hholds
      exact ⟨rfl, rfl, hlen, hlen, hholds⟩
    · have hstatus : Access.writeOf base p.statusBytes = ⟨true, base, 256, p.statusBytes⟩ := by
        unfold Access.writeOf
        rw [p.length_statusBytes]
      rintro x (rfl | ⟨waiters, rfl⟩)
      · exact hstatus
      · exact hstatus
    · show Access.writeOf (base + slotOffset n) _ = _
      rw [hslot]
      rfl
  case records =>
    intro holds signed opt bit
    refine ⟨fun p => ⟨p.length_statusBytes, p.slice_statusBytes, ?status⟩, fun x hedges hgaps hhistogram => ?image, testBit_edgeMask,
      fun crc g n => ?trailer⟩
    case status =>
      have hholds := holds_of_packed p.statusBytes_eq
      unfold Part.statusFields at hholds
      simp only [placedFrom, Nat.reduceAdd, Nat.zero_add] at hholds
      exact hholds
    case image =>
      intro a e g k
      have hbounded : x.Bounded := ⟨hedges, hgaps, hhistogram⟩
      refine ⟨Shot.length_image hbounded, ?_, fun i hi => x.slice_image_edges hi, fun i hi => Shot.slice_image_gaps hbounded hi,
        fun i hi => Shot.slice_image_histogram hbounded hi, fun geo id time => ?_⟩
      · have hholds := holds_of_packed x.image_eq
        unfold Shot.imageFields at hholds
        simp only [placedFrom, Nat.reduceAdd, Nat.zero_add] at hholds
        exact hholds
      · intro header
        obtain ⟨hlen, himage, hlast, hrest⟩ := headerImage_areas geo x id time (Shot.length_image hbounded)
        have hholds := holds_of_packed (headerImage_eq geo x id time)
        unfold headerFields at hholds
        simp only [placedFrom, Nat.reduceAdd, Nat.zero_add] at hholds
        exact ⟨hlen, himage, hlast, hrest, hholds⟩
    case trailer =>
      intro trailer
      obtain ⟨hlen, hrest⟩ := fileTrailer_areas crc g n
      have hholds := holds_of_packed (fileTrailer_eq crc g n)
      simp only [placedFrom, Nat.reduceAdd, Nat.zero_add] at hholds
      exact ⟨hlen, hrest, hholds⟩
  case observed =>
    refine ⟨fun n data s hrun hlen => ?host, fun n m data s hrun hnext hlen hn hm => ?two, fun b w n s hbusy hwrite hwho hw => ?ends⟩
    case host =>
      intro sl tag verb slot copied
      have hlt := n.isLt
      have hexec {off : Nat} {q : Part} (hq : s.part.observe off data = q) : exec (.controlPageWrite off data) s = .next { s with part := q } :=
        (exec_controlPageWrite_of_running hrun off data).trans (State.next_part_congr hq)
      have hverb : (wordAt data 0).toNat = verb := wordAt_toNat data 0
      let q : Part := s.part.putSlot n fun x => { x with tag := tag }
      have hfirst : s.part.observe slot data = Part.choosing (fun p => p.verbWord n (wordAt data 0)) q := by
        rw [Part.observe_one hlen, Part.noteBeat_first]
        exact Part.choosing_congr (Part.actBeat_first n data _) rfl
      have hcmd : q.cpa.slots[n].cmd = sl.cmd := by simp [q, Part.putSlot, sl]
      refine ⟨fun j hj hj6 hargs => ?_, ?_, fun h => ?_, fun hbeyond hidle => ?_, fun v hv => ?_, fun off hoff harea => ?_⟩
      · obtain ⟨hlength, hwords⟩ := getD_overlay_beat hargs hlen hj hj6
        refine ⟨_, hexec (Part.observe_of_quiet hlen (Part.noteBeat_args n data s.part hj hj6) ?_), hlength, hwords⟩
        exact Part.actBeat_rest n data _ (by omega) (by omega)
      · exact hexec (Part.observe_of_quiet hlen (Part.noteBeat_spare n data s.part) (Part.actBeat_rest n data _ (by decide) (by decide)))
      · refine hexec (hfirst.trans (Part.choosing_of_requests ?_ rfl))
        rcases h with hzero | ⟨hbeyond, hbusy⟩
        · have hw : wordAt data 0 = 0 := BitVec.eq_of_toNat_eq (hverb.trans hzero)
          rw [hw]
          exact Part.verbWord_zero n q
        · obtain ⟨c, hc⟩ := Option.isSome_iff_exists.1 hbusy
          obtain ⟨hne, hnone⟩ := verbOf_of_beyond (w := wordAt data 0) (by rw [hverb]; exact hbeyond)
          exact Part.verbWord_of_busy hne (by rw [hnone]; exact fun h => nomatch h) (hcmd.trans hc)
      · obtain ⟨hne, hnone⟩ := verbOf_of_beyond (w := wordAt data 0) (by rw [hverb]; exact hbeyond)
        refine hexec (hfirst.trans (Part.choosing_of_requests ((Part.verbWord_of_unknown hne hnone (hcmd.trans hidle)).trans ?_) rfl))
        have hopen : (q.latch none n).cmdIn n = some ⟨none, tag, sl.args, false, false⟩ := by
          simp [q, Part.latch, Part.setCmd, Part.cmdIn, Part.putSlot, sl]
        refine (Part.endCommand_of_open hopen rfl _ _ (by decide)).trans ?_
        simp [q, Part.latch, Part.setCmd, Part.putSlot, sl, padTo]
      · have hw : (wordAt data 0).toNat = v.code := hverb.trans hv
        have hnote : s.part.noteWrite ⟨n, tag, []⟩ = q := by
          simp [Part.noteWrite, q, Part.putSlot, overlay]
        by_cases habort : v = .abort
        · subst habort
          obtain ⟨hne, hverbOf⟩ := verbOf_code hw
          have habortRow : exec (Verb.row .abort ⟨n, tag, []⟩) s = .next { s with part := s.part.hostAbort ⟨n, tag, []⟩ } := rfl
          have hhost : s.part.hostAbort ⟨n, tag, []⟩ = q.abortSlot n := by
            unfold Part.hostAbort
            rw [if_pos hrun, hnote]
          rw [habortRow, hhost]
          exact hexec (hfirst.trans (Part.choosing_of_requests (Part.verbWord_of_abort hne hverbOf) (Part.abortSlot_requests n q)))
        · have hrow : s.part.hostVerb v v.body ⟨n, tag, []⟩ = if q.cpa.slots[n].cmd.isSome then q else q.takeVerb v n v.body := by
            unfold Part.hostVerb Part.cmdIn
            rw [if_pos hrun, hnote]
            simp only
            cases q.cpa.slots[n].cmd <;> rfl
          rw [exec_row habort, hrow]
          exact hexec (hfirst.trans (Part.choosing_verbWord hw habort n q))
      · exact hexec ((Part.observe_of_outside hlen (by omega) s.part).trans (Part.actBeat_of_quiet harea data s.part))
    case two =>
      intro word copy p
      have hne : n.val ≠ m.val := by omega
      have hnoteN := foldl_noteBeat_slotBeats n (data := data) (at_ := 0) (by omega) (p := s.part) hn
      have hnoteM := foldl_noteBeat_slotBeats m (data := data) (at_ := 128) (by omega)
        (p := s.part.putSlot n fun x => ⟨wordAt data (0 + 4), (List.range 24).map fun i => wordAt data (0 + 16 + 4 * i), x.cmd⟩)
        (by simpa [Part.putSlot, hne] using hm)
      have hnoted : (beatsOf (1024 + 128 * n.val) data).foldl Part.noteBeat s.part = p := by
        rw [beatsOf_two_slots hnext hlen, List.foldl_append, hnoteN, hnoteM]
        simp [Part.putSlot, hne, p, copy, word, wordAt, natWord]
      have hacted : (beatsOf (1024 + 128 * n.val) data).foldl Part.actBeat =
          fun q => Part.verbWord m (word 128) (Part.verbWord n (word 0) q) := by
        funext q
        rw [beatsOf_two_slots hnext hlen, List.foldl_append, foldl_actBeat_slotBeats n, foldl_actBeat_slotBeats m]
        rfl
      refine (exec_controlPageWrite_of_running hrun _ data).trans (State.next_part_congr ?_)
      unfold Part.observe
      simp only [hnoted, hacted]
    case ends =>
      intro sl ends copied
      have hend {p q : Part} (hdone : s.part.portFree.cpaBurstDone w b.values = q)
          (hq : q = { p with port := { s.part.port with busy := none } }) : ends p := by
        have hmemory : b.memory s.mem = s.mem.writeBytes b.addr b.data := if_pos hwrite
        show exec .frameBurstEnd s = _
        rw [exec_frameBurstEnd hbusy, Part.burstDone_cpa _ hwho hw, hdone, hq, hmemory]
      clear_value ends
      refine ⟨fun words cls code h => ?_, fun cls code c h hc => ?_, fun h => ?_, fun h => ?_, fun a bytes data h => ?_⟩
      · subst h
        exact hend rfl rfl
      · subst h
        have htag : s.part.portFree.latchedTag n = c.tag := by
          unfold Part.latchedTag Part.cmdIn
          rw [show s.part.portFree.cpa.slots[n].cmd = some c from hc]
        have hdone : s.part.portFree.cpaBurstDone (.slotBeat n cls code) b.values
            = (s.part.portFree.putSlot n fun x => { x with tag := c.tag }).setEnded (.slotBeat n cls code) := by
          show Part.setEnded _ (Part.putSlot n (fun x => { x with tag := s.part.portFree.latchedTag n }) _) = _
          rw [htag]
        exact hend hdone rfl
      · simp only [List.mem_cons, List.not_mem_nil, or_false] at h
        rcases h with rfl | rfl | rfl | rfl
        · exact hend rfl rfl
        · exact hend rfl rfl
        · exact hend rfl rfl
        · exact hend rfl rfl
      · simp only [List.mem_cons, List.not_mem_nil, or_false] at h
        rcases h with (rfl | rfl) | ⟨a, bytes, rfl⟩
        · exact hend rfl rfl
        · exact hend rfl rfl
        · exact hend rfl rfl
      · subst h
        have hfree : (s.part.done n data).portFree
            = { s.part.done n data with port := { s.part.port with busy := none } } := by
          show ({ s.part.done n data with port := { (s.part.done n data).port with busy := none } } : Part) = _
          rw [Part.done_port n data s.part]
        exact hend (Part.portFree_done n data s.part) hfree

end Sys2Proof.Machine
end
